-- ==== Sys2Proof/Word.lean ====
section
/-! DEFINITION. Sys2Proof/Word.lean: the few fixed-width words of the IPS-4720. What the manual counts (instants,
settings, counters, indices) is a `Nat` or an `Int`; a bit vector stands only where the manual treats a value as bits or
where it wraps. -/

namespace Sys2Proof

/-- One octet of a frame (R184). -/
abbrev Byte := BitVec 8

/-- A day number, 0 to 65,535; day 65,535 is followed by day 0 (R50). -/
abbrev Day := BitVec 16

/-- A sequence number of the event journal, counted modulo 2^32 (R155). -/
abbrev SeqNo := BitVec 32

/-- A line port, P0 to P7. -/
abbrev PortId := Fin 8

/-- A clock line, L0 to L3. -/
abbrev LineId := Fin 4

end Sys2Proof
end

