-- ==== Sys2Proof/Syntax.lean ====
section
/-! DEFINITION. Sys2Proof/Syntax.lean: the commands of the IPS-4720, one constructor for each row of
spec/opcode_table.json. The first 22 rows are events on the links, the pins and the timers; the others are the service
requests, each carried out as one step of the service unit (R171); RESET TABLES alone is made of three, and the same command goes
on with them where they paused (R181). -/

namespace Sys2Proof

/-- The two directions of a link: DOWN runs towards the field, UP towards the centre. -/
inductive Direction where
  | down | up
  deriving DecidableEq, Repr

/-- What caused a device reset (R166, R178). -/
inductive ResetCause where
  | powerUp | resetPin
  deriving DecidableEq, Repr

/-- The strap pins that a device reset samples (R6, R7, R169); `true` stands for high. -/
structure Straps where
  ratesel1 : Bool
  ratesel2 : Bool
  joinen   : Bool
  saddr    : BitVec 6
  deriving DecidableEq, Repr

/-- What a receiver reports of its line (log entry 3), in the order in which the bits arrive. `idle`: so many bit times of idle,
in marks or else in flags. `opening`: the last bit of the opening flag of a frame, the instant of the capture (R71); a `shared`
flag is the flag that came last, the closing flag of the frame before. `content`: content bits, after the removal of the inserted zeros. `closed`:
the rest of the content and the closing flag. `aborted`: the rest of the content and the first seven ones of an abort; the
ones after them are marks, which are idle. -/
inductive FramePart where
  | idle (marks : Bool) (bits : Nat)
  | opening (shared : Bool)
  | content (bits : List Bool)
  | closed (rest : List Bool)
  | aborted (rest : List Bool)
  deriving DecidableEq, Repr

/-- The band in which the sense input of a clock line finds the current of an impulse (section 7.4). -/
inductive Sense where
  | healthy | below | above
  deriving DecidableEq, Repr

/-- How a second boundary and a scheduled offset change that it makes reach the clock lines (sections 7.9 and 11.4): whether
the change is taken first, and the lines on which a start or an end that is due is taken between the two (R150). -/
structure BoundaryOrder where
  offsetFirst : Bool
  between     : List LineId
  deriving DecidableEq, Repr

/-- A service request as the service unit has it in hand: the port it arrived on, its tag and its parameter octets
(R169, R170). -/
structure Request where
  port   : PortId
  tag    : Byte
  params : List Byte
  deriving DecidableEq, Repr

/-- The commands of the IPS-4720. `marks` at the end of an insertion: the UP line idles in marks, or else in flags, until then
(log entry 5). -/
inductive Instr where
  | deviceReset (cause : ResetCause) (straps : Straps)
  | endOfInitialising
  | frameReceived (p : PortId) (d : Direction) (part : FramePart)
  | lossOfSignalRaised (p : PortId) (d : Direction)
  | lossOfSignalCleared (p : PortId) (d : Direction)
  | lifeTimeout (p : PortId) (d : Direction)
  | joiningQuietRunComplete (p : PortId)
  | leavingQuietRunComplete (p : PortId)
  | relayTransferEnd (p : PortId)
  | insertionBegin (p : PortId)
  | insertionEnd (p : PortId) (marks : Bool)
  | backlogDrained (p : PortId)
  | referencePulse
  | missNote
  | holdoverLimitReached
  | slewSpent
  | secondBoundary (order : BoundaryOrder)
  | deadlineExpiry (element : Nat)
  | impulseStart (l : LineId)
  | probeStart (l : LineId)
  | impulseSample (l : LineId) (sense : Sense)
  | impulseEnd (l : LineId)
  | identify (r : Request)
  | unknownRequestCode (code : Byte) (r : Request)
  | readStatus (r : Request)
  | setPort (r : Request)
  | join (r : Request)
  | leave (r : Request)
  | readCounters (r : Request)
  | latchCounters (r : Request)
  | loadWindow (r : Request)
  | loadElement (r : Request)
  | removeElement (r : Request)
  | readElement (r : Request)
  | clearStatistics (r : Request)
  | timeMark (r : Request)
  | setTimebase (r : Request)
  | relock (r : Request)
  | setCivilOffset (r : Request)
  | loadHeader (r : Request)
  | loadEntry (r : Request)
  | arm (r : Request)
  | disarm (r : Request)
  | abandon (r : Request)
  | clearBank (r : Request)
  | cancelEntry (r : Request)
  | readEntry (r : Request)
  | setLine (r : Request)
  | setPosition (r : Request)
  | halt (r : Request)
  | run (r : Request)
  | setClass (r : Request)
  | setAlert (r : Request)
  | readJournal (r : Request)
  | release (r : Request)
  | resetTables (r : Request)
  deriving DecidableEq, Repr

end Sys2Proof
end

