-- ==== Sys2Proof/Decode.lean ====
section
/-! DEFINITION. Sys2Proof/Decode.lean: which command a service request is, by its request code (R186), and the reading of
the opcode table's words. No row of the table gives bits, so no word spells a command. -/

namespace Sys2Proof

/-- The command that a service request of this code is (the code column of R186). A code that the table does not give is an
unknown request (R172). -/
def decodeRequest (code : Byte) (r : Request) : Instr :=
  match code.toNat with
  | 1 => .identify r
  | 2 => .readStatus r
  | 10 => .setPort r
  | 11 => .join r
  | 12 => .leave r
  | 13 => .readCounters r
  | 14 => .latchCounters r
  | 20 => .loadWindow r
  | 21 => .loadElement r
  | 22 => .removeElement r
  | 23 => .readElement r
  | 24 => .clearStatistics r
  | 30 => .timeMark r
  | 31 => .setTimebase r
  | 32 => .relock r
  | 33 => .setCivilOffset r
  | 40 => .loadHeader r
  | 41 => .loadEntry r
  | 42 => .arm r
  | 43 => .disarm r
  | 44 => .abandon r
  | 45 => .clearBank r
  | 46 => .cancelEntry r
  | 47 => .readEntry r
  | 50 => .setLine r
  | 51 => .setPosition r
  | 52 => .halt r
  | 53 => .run r
  | 60 => .setClass r
  | 61 => .setAlert r
  | 62 => .readJournal r
  | 63 => .release r
  | 70 => .resetTables r
  | _ => .unknownRequestCode code r

/-- The request codes that R186 gives. -/
def knownRequestCodes : List Byte :=
  [1, 2, 10, 11, 12, 13, 14, 20, 21, 22, 23, 24, 30, 31, 32, 33, 40, 41, 42, 43, 44, 45, 46, 47, 50, 51, 52, 53,
   60, 61, 62, 63, 70]

/-- The request code and the request of a command that is a service request; none for the events (R186). -/
def requestOf : Instr → Option (Byte × Request)
  | .deviceReset _ _ => none
  | .endOfInitialising => none
  | .frameReceived _ _ _ => none
  | .lossOfSignalRaised _ _ => none
  | .lossOfSignalCleared _ _ => none
  | .lifeTimeout _ _ => none
  | .joiningQuietRunComplete _ => none
  | .leavingQuietRunComplete _ => none
  | .relayTransferEnd _ => none
  | .insertionBegin _ => none
  | .insertionEnd _ _ => none
  | .backlogDrained _ => none
  | .referencePulse => none
  | .missNote => none
  | .holdoverLimitReached => none
  | .slewSpent => none
  | .secondBoundary _ => none
  | .deadlineExpiry _ => none
  | .impulseStart _ => none
  | .probeStart _ => none
  | .impulseSample _ _ => none
  | .impulseEnd _ => none
  | .identify r => some (1, r)
  | .unknownRequestCode code r => some (code, r)
  | .readStatus r => some (2, r)
  | .setPort r => some (10, r)
  | .join r => some (11, r)
  | .leave r => some (12, r)
  | .readCounters r => some (13, r)
  | .latchCounters r => some (14, r)
  | .loadWindow r => some (20, r)
  | .loadElement r => some (21, r)
  | .removeElement r => some (22, r)
  | .readElement r => some (23, r)
  | .clearStatistics r => some (24, r)
  | .timeMark r => some (30, r)
  | .setTimebase r => some (31, r)
  | .relock r => some (32, r)
  | .setCivilOffset r => some (33, r)
  | .loadHeader r => some (40, r)
  | .loadEntry r => some (41, r)
  | .arm r => some (42, r)
  | .disarm r => some (43, r)
  | .abandon r => some (44, r)
  | .clearBank r => some (45, r)
  | .cancelEntry r => some (46, r)
  | .readEntry r => some (47, r)
  | .setLine r => some (50, r)
  | .setPosition r => some (51, r)
  | .halt r => some (52, r)
  | .run r => some (53, r)
  | .setClass r => some (60, r)
  | .setAlert r => some (61, r)
  | .readJournal r => some (62, r)
  | .release r => some (63, r)
  | .resetTables r => some (70, r)

/-- The command that a word spells by the opcode table's bits. spec/opcode_table.json gives no row any bits, so every word
is refused. -/
def decodeTableWord (_nbits _w : Nat) : Option Instr := none

end Sys2Proof
end

