-- ==== Sys2Proof/Machine/Indexed.lean ====
section
/-! DEFINITION. Sys2Proof/Machine/Indexed.lean: a fixed number of like things, one for each port, line or window. -/

namespace Sys2Proof.Machine

/-- Eight like things, numbered from 0. -/
structure Eight (α : Type) where
  i0 : α
  i1 : α
  i2 : α
  i3 : α
  i4 : α
  i5 : α
  i6 : α
  i7 : α
  deriving DecidableEq, Repr

/-- The item numbered `i`. -/
def Eight.get {α : Type} (v : Eight α) : Fin 8 → α
  | 0 => v.i0
  | 1 => v.i1
  | 2 => v.i2
  | 3 => v.i3
  | 4 => v.i4
  | 5 => v.i5
  | 6 => v.i6
  | 7 => v.i7

/-- The items with the one numbered `i` replaced. -/
def Eight.set {α : Type} (v : Eight α) (i : Fin 8) (x : α) : Eight α :=
  match i with
  | 0 => { v with i0 := x }
  | 1 => { v with i1 := x }
  | 2 => { v with i2 := x }
  | 3 => { v with i3 := x }
  | 4 => { v with i4 := x }
  | 5 => { v with i5 := x }
  | 6 => { v with i6 := x }
  | 7 => { v with i7 := x }

/-- The same item under every number. -/
def Eight.all {α : Type} (x : α) : Eight α := ⟨x, x, x, x, x, x, x, x⟩

/-- The items changed one by one, each by its number. -/
def Eight.mapIdx {α β : Type} (f : Fin 8 → α → β) (v : Eight α) : Eight β :=
  ⟨f 0 v.i0, f 1 v.i1, f 2 v.i2, f 3 v.i3, f 4 v.i4, f 5 v.i5, f 6 v.i6, f 7 v.i7⟩

/-- The items in the order of their numbers. -/
def Eight.toList {α : Type} (v : Eight α) : List α := [v.i0, v.i1, v.i2, v.i3, v.i4, v.i5, v.i6, v.i7]

/-- Four like things, numbered from 0. -/
structure Four (α : Type) where
  i0 : α
  i1 : α
  i2 : α
  i3 : α
  deriving DecidableEq, Repr

/-- The item numbered `i`. -/
def Four.get {α : Type} (v : Four α) : Fin 4 → α
  | 0 => v.i0
  | 1 => v.i1
  | 2 => v.i2
  | 3 => v.i3

/-- The items with the one numbered `i` replaced. -/
def Four.set {α : Type} (v : Four α) (i : Fin 4) (x : α) : Four α :=
  match i with
  | 0 => { v with i0 := x }
  | 1 => { v with i1 := x }
  | 2 => { v with i2 := x }
  | 3 => { v with i3 := x }

/-- The same item under every number. -/
def Four.all {α : Type} (x : α) : Four α := ⟨x, x, x, x⟩

/-- The items changed one by one, each by its number. -/
def Four.mapIdx {α β : Type} (f : Fin 4 → α → β) (v : Four α) : Four β :=
  ⟨f 0 v.i0, f 1 v.i1, f 2 v.i2, f 3 v.i3⟩

/-- The items in the order of their numbers. -/
def Four.toList {α : Type} (v : Four α) : List α := [v.i0, v.i1, v.i2, v.i3]

/-- The ports in ascending order. -/
def portIds : List PortId := [0, 1, 2, 3, 4, 5, 6, 7]

/-- The clock lines in ascending order; the same numbers name the four windows of a port. -/
def lineIds : List LineId := [0, 1, 2, 3]

end Sys2Proof.Machine
end

