-- ==== Sys2Proof/Machine/Blocks.lean ====
section
/-! DEFINITION. Sys2Proof/Machine/Blocks.lean: the state of each block of the IPS-4720 as plain data. INVENTORY.md lists each
field with the rule that names it and its reset value. -/

namespace Sys2Proof.Machine

/-! ## Time (Chapters 3 and 4) -/

/-- A reading of the time of day without its fraction (R71). -/
structure TimeOfDay where
  day   : Day
  sec   : Nat
  nanos : Nat
  deriving DecidableEq, Repr

/-- The quality tags of stamps (R67). -/
inductive Quality where
  | unset | settling | traceable | holdover | degraded
  deriving DecidableEq, Repr

/-- A stamp: a time of day to the microsecond (R77). -/
structure Stamp where
  day   : Day
  sec   : Nat
  micro : Nat
  deriving DecidableEq, Repr

/-- A stamp with its quality. -/
structure Dated where
  stamp   : Stamp
  quality : Quality
  deriving DecidableEq, Repr

/-- A capture: both scales and the quality, read at one oscillator cycle (R71). -/
structure Capture where
  tod     : TimeOfDay
  elapsed : Nat
  quality : Quality
  deriving DecidableEq, Repr

/-- The states of the timebase loop (section 3.4.1). -/
inductive LoopState where
  | free | acquiring | locked | holdover
  deriving DecidableEq, Repr

/-- The announcement of a label (R53). -/
inductive Announcement where
  | none | insert | delete
  deriving DecidableEq, Repr

/-- The two kinds of leap second (R64). -/
inductive LeapKind where
  | insert | delete
  deriving DecidableEq, Repr

/-- A label: the name of the second that the next accepted pulse marks (R53). -/
structure Label where
  day  : Day
  sec  : Nat
  announcement : Announcement
  deriving DecidableEq, Repr

/-- A leap second, armed or executed (R64). -/
structure Leap where
  day  : Day
  kind : LeapKind
  deriving DecidableEq, Repr

/-- A scheduled change of the civil offset (R65). -/
structure ScheduledChange where
  day    : Day
  sec    : Nat
  offset : Int
  deriving DecidableEq, Repr

/-! Instants of the elapsed scale, and durations on it, are whole numbers of units of 2^-32 ns, in which the scale advances (R48, R49, R51).
A capture alone gives its elapsed value in whole nanoseconds (R71). -/

/-- Nanoseconds as a duration on the elapsed scale. -/
def ns (n : Nat) : Nat := 4294967296 * n

/-- Milliseconds as a duration on the elapsed scale. -/
def ms (n : Nat) : Nat := ns (1000000 * n)

/-- Seconds as a duration on the elapsed scale. -/
def secs (n : Nat) : Nat := ns (1000000000 * n)

/-- The timebase (R48). -/
structure Timebase where
  tod          : TimeOfDay
  todFrac      : Nat
  elapsed      : Nat
  elapsedFrac  : Nat
  /-- The MODEL's own: the time of day has reached a carry whose second boundary is not yet taken (R50, R69, log entry 2). -/
  carryDue     : Bool
  setFlag      : Bool
  loop         : LoopState
  fastReturn   : Bool
  rate         : Int
  slew         : Int
  slewLeft     : Nat
  good         : Nat
  bad          : Nat
  steps        : Nat
  misses       : Nat
  /-- The elapsed instant at which HOLDOVER was entered; the holdover age is reckoned from it (R60). -/
  holdoverSince : Option Nat
  /-- Whether DEGRADED is in force (R60). -/
  degraded     : Bool
  lastPulse    : Option Nat
  lastRelock   : Option Nat
  /-- The elapsed instant of the next miss note (R59). -/
  nextNote     : Option Nat
  label        : Option Label
  armedLeap    : Option Leap
  recentLeap   : Option Leap
  civilOffset  : Int
  scheduled    : Option ScheduledChange
  spurious     : Nat
  unusedLabels : Nat
  gp           : Nat
  gi           : Nat
  lockWindow   : Nat
  stepThreshold : Nat
  holdoverLimit : Nat
  deriving DecidableEq, Repr

/-! ## Line ports (Chapter 1) -/

/-- The states of a port (section 1.2). -/
inductive PortState where
  | initialising | bypass | joining | inline | leaving
  deriving DecidableEq, Repr

/-- The six line rates (R6). -/
inductive LineRate where
  | k64 | k128 | k256 | k512 | k1024 | k2048
  deriving DecidableEq, Repr

/-- The latch intervals (R22). -/
inductive LatchInterval where
  | manual | s1 | s60 | s900
  deriving DecidableEq, Repr

/-- The three link conditions of a direction (section 1.6). -/
inductive LinkCondition where
  | lossOfSignal | silent | errorRate
  deriving DecidableEq, Repr

/-- The removal decision made on a frame's header (R14): whether it is a service telegram for the part, and the accept flag
that the decision found. -/
structure Removal where
  removed  : Bool
  accepted : Bool
  deriving DecidableEq, Repr

/-- A frame being received: the capture of its opening flag (R71), whether that flag came during a relay transfer (R12), the
removal decision once it is made (R14), and the content so far. -/
structure Opening where
  capture  : Capture
  collided : Bool
  removal  : Option Removal
  content  : List Bool
  deriving DecidableEq, Repr

/-- One direction's receiver: the frame in reception, the life timer (R19), the link conditions (R19 to R21) and the
error-rate second (R21). -/
structure Receiver where
  opening    : Option Opening
  /-- The content so far of a frame whose opening flag the receiver has not taken: it keeps the line from being idle (R10), and its
  inserted zeros are counted over all of it (R13, log entry 3). -/
  stray      : List Bool
  /-- The elapsed instant from which the life timer runs; absent while it does not run (R7, R19). -/
  lifeSince  : Option Nat
  los        : Bool
  silent     : Bool
  errorRate  : Bool
  checkFails : Nat
  /-- Whether the count reached the threshold in the current second (R21). -/
  reached    : Bool
  cleanRun   : Nat
  /-- Whether SILENT stood raised at any instant of the current second (R21). -/
  silentSeen : Bool
  deriving DecidableEq, Repr

/-- The nine counters kept for a direction (R23). -/
structure DirCounters where
  valid       : Nat
  checkFails  : Nat
  aborts      : Nat
  runts       : Nat
  oversize    : Nat
  unmapped    : Nat
  misdirected : Nat
  errored     : Nat
  silentSecs  : Nat
  deriving DecidableEq, Repr

/-- The six counters kept for a port (R23). -/
structure PortCounters where
  taken      : Nat
  discarded  : Nat
  inserted   : Nat
  respDiscarded : Nat
  collisions : Nat
  joiningMs  : Nat
  deriving DecidableEq, Repr

/-- One set of a port's counters, live or latched (R23, R24). -/
structure Counters where
  down : DirCounters
  up   : DirCounters
  port : PortCounters
  deriving DecidableEq, Repr

/-- The reasons of a refusal (R2). -/
inductive Reason where
  | unknown | length | range | kind | order | overlap | busy | inUse | state
  deriving DecidableEq, Repr

/-- What a request is answered (R173): its data, or the reason of its refusal. -/
inductive Reply where
  | done (data : List Byte)
  | adjusted (data : List Byte)
  | refused (reason : Reason)
  deriving DecidableEq, Repr

/-- A service response: the code and the tag of its request, and the reply (R173). -/
structure Response where
  code  : Byte
  tag   : Byte
  reply : Reply
  deriving DecidableEq, Repr

/-- One bit time on a line, by what it carries: an idle flag, a mark, the opening flag of a frame, a bit of its content with the
inserted zeros, or its closing flag (section 1.1, R13). -/
inductive LineBit where
  | flag
  | mark
  | opening
  | content (bit : Bool)
  | closing
  deriving DecidableEq, Repr

/-- A line port (Chapter 1). -/
structure Port where
  state        : PortState
  /-- The elapsed instant at which the relay transfer in progress ends (R10, R11). -/
  transferEnd  : Option Nat
  /-- The RELAY output: `true` holds the bypass relays open (section 1.2). -/
  relay        : Bool
  rate         : LineRate
  latency      : Nat
  lifeTimeout  : Nat
  errorThreshold : Nat
  quiet        : Nat
  accept       : Bool
  downRx       : Receiver
  upRx         : Receiver
  responses    : List Response
  /-- The response that is going out on the UP output (R16). -/
  inserting    : Option Response
  /-- The bits of that response that are still to be sent (R16). -/
  sending      : List LineBit
  /-- The insertion buffer, oldest bit first; its length is the UP insertion backlog (R16, R17). -/
  held         : List LineBit
  /-- The bits received from the centre in the last 40 bit times, oldest first (R13). -/
  downDelay    : List LineBit
  /-- The bits received from the field in the last 40 bit times, oldest first (R13). -/
  upDelay      : List LineBit
  /-- The bit times of flags sent on the centre side since the last frame sent there, or since forwarding began, held at 16 (R16,
  log entry 44). -/
  upFlags      : Nat
  /-- The marks that have just come out of the UP delay, held at the seven of an abort (R17). -/
  markRun      : Nat
  /-- The MODEL's own: the opening flag that is coming out of the UP delay is left out of the insertion buffer (R17, log entry 48). -/
  skipping     : Bool
  /-- The elapsed instant at which the current quiet run began (R10, R11). -/
  quietSince   : Option Nat
  /-- The elapsed instant of the entry into JOINING (R10). -/
  joinSince    : Option Nat
  /-- The milliseconds of this JOINING that the counter already holds (R10). -/
  joinCredited : Nat
  live         : Counters
  latched      : Counters
  /-- The MODEL's own: the bits sent on the field side since device reset, oldest first (log entry 4). -/
  toField      : List LineBit
  /-- The MODEL's own: the bits sent on the centre side since device reset, oldest first (log entry 4). -/
  toCentre     : List LineBit
  deriving DecidableEq, Repr

/-! ## Windows and elements (Chapters 2 and 5) -/

/-- An address window (R26). -/
structure Window where
  base      : Nat
  limit     : Nat
  tableBase : Nat
  deriving DecidableEq, Repr

/-- The kinds of element (R30). -/
inductive Kind where
  | point | signal | other
  deriving DecidableEq, Repr

/-- The change selections (R35). -/
inductive Selection where
  | all | toStop | toProceed | none
  deriving DecidableEq, Repr

/-- The candidate of the confirmation filter (R33). -/
structure Candidate where
  state        : Nat
  count        : Nat
  firstCapture : Capture
  age          : Nat
  ageLimit     : Bool
  undefinedCode : Bool
  afterSilence : Bool
  deriving DecidableEq, Repr

/-- The supervision fields, whose presence follows the supervision state (R84). A target is a state code (R32); `deadline`
is an instant of the elapsed scale; UNCOMMANDED holds the end at which the point was last detected. -/
inductive Supervision where
  | idle
  | commanded (target : Nat) (command : Capture) (deadline : Nat)
  | travelling (target : Nat) (command : Capture) (deadline : Nat)
  | ordered (target : Nat) (command : Capture) (deadline : Nat)
  | overdue (target : Nat) (command : Capture)
  | uncommanded (held : Nat)
  deriving DecidableEq, Repr

/-- The six statistics of a record (R31). -/
structure Statistics where
  movements : Nat
  slow      : Nat
  maxTime   : Nat
  lastTime  : Nat
  fails     : Nat
  flicker   : Nat
  deriving DecidableEq, Repr

/-- The fields that LOAD ELEMENT loads (R30). The operate limit is a point's, the proving limit a signal's. -/
structure Loaded where
  kind          : Kind
  confirm       : Nat
  selection     : Selection
  dateCommands  : Bool
  timetabled    : Bool
  override      : Option Nat
  operateLimit  : Nat
  slowThreshold : Nat
  provingLimit  : Nat
  deriving DecidableEq, Repr

/-- A present element record (R30, R84). An accepted state that is absent is UNKNOWN. -/
structure Element where
  loaded        : Loaded
  accepted      : Option Nat
  candidate     : Option Candidate
  stale         : Bool
  lastChange    : Option Dated
  lastCommand   : Option Nat
  undefinedSeen : Bool
  sup           : Supervision
  stats         : Statistics
  refs          : Nat
  deriving DecidableEq, Repr

/-! ## The timetable checker (Chapter 6) -/

/-- The two timetable stores. -/
inductive BankId where
  | bankA | bankB
  deriving DecidableEq, Repr

/-- The states of a bank (R107). -/
inductive BankState where
  | empty | loading | armed | active | retiring
  deriving DecidableEq, Repr

/-- The status of an entry: PENDING, OPEN or a final outcome (R108). -/
inductive EntryStatus where
  | pending | opened | matched | missed | lateActivation | openListFull | notOpened | cancelled
  deriving DecidableEq, Repr

/-- The route results (R125). -/
inductive RouteResult where
  | ok | mismatch | unverified
  deriving DecidableEq, Repr

/-- One item of a route list: a point and the end it must show (R108). -/
structure RouteItem where
  point    : Nat
  position : Nat
  deriving DecidableEq, Repr

/-- The result fields that a MATCHED entry alone has (R124, R125). -/
structure MatchResult where
  deviation  : Int
  outside    : Bool
  route      : RouteResult
  mismatches : Nat
  item       : Option Nat
  deriving DecidableEq, Repr

/-- A timetable entry (R108). -/
structure Entry where
  signal    : Nat
  scheduled : Nat
  early     : Nat
  late      : Nat
  reference : BitVec 32
  route     : List RouteItem
  status    : EntryStatus
  closing   : Option Dated
  result    : Option MatchResult
  deriving DecidableEq, Repr

/-- A day and a second of day, such as a bank's start instant (R107). -/
structure DaySec where
  day : Day
  sec : Nat
  deriving DecidableEq, Repr

/-- A timetable bank (R107); its entry count is the length of `entries`. -/
structure Bank where
  state      : BankState
  start      : Option DaySec
  entries    : List Entry
  nextToOpen : Nat
  order      : Option Nat
  deriving DecidableEq, Repr

/-- A reference of the open list: a bank and the index of an entry (R122). -/
structure EntryRef where
  bank  : BankId
  index : Nat
  deriving DecidableEq, Repr

/-! ## Clock lines (Chapter 7) -/

/-- The states of a clock line (section 7.1). -/
inductive LineState where
  | unset | running | catchingUp | waiting | halted | fault
  deriving DecidableEq, Repr

/-- The dial periods (R133). -/
inductive Period where
  | p720 | p1440
  deriving DecidableEq, Repr

/-- The polarity of an impulse. -/
inductive Polarity where
  | positive | negative
  deriving DecidableEq, Repr

/-- The kinds of fault (R141). -/
inductive FaultKind where
  | opened | short
  deriving DecidableEq, Repr

/-- What an impulse is for. -/
inductive Purpose where
  | step | probe
  deriving DecidableEq, Repr

/-- An impulse in progress (R133); `judged` is the finding of its sample once that is taken (R140). -/
structure Impulse where
  purpose  : Purpose
  polarity : Polarity
  start    : Nat
  finish   : Nat
  judged   : Option Sense
  deriving DecidableEq, Repr

/-- A clock line record (R133). The drive output is on, at the impulse's polarity, exactly while an impulse is present. -/
structure Line where
  state        : LineState
  period       : Period
  position     : Nat
  lastPolarity : Polarity
  faultKind    : Option FaultKind
  impulse      : Option Impulse
  haltPending  : Bool
  lastStart    : Option Nat
  nextStart    : Option Nat
  nextProbe    : Option Nat
  probeBase    : Option Nat
  target       : Option Nat
  width        : Nat
  spacing      : Nat
  waitWindow   : Nat
  probeInterval : Nat
  deriving DecidableEq, Repr

/-! ## The event journal (Chapter 8) -/

/-- The classes of record kinds (R151). -/
inductive JournalClass where
  | state | movement | timetable | link | time | clock | system
  deriving DecidableEq, Repr

/-- The outcomes of a supervision (R187). -/
inductive MoveOutcome where
  | completed | completedSlow | lateDetection | lateProving | returned | fault | aspectMismatch | lampFault
  | reversed | cancelled | superseded | failedNotStarted | failedNoDetection | failed | interrupted | abandoned
  deriving DecidableEq, Repr

/-- The occurrences of an UNCOMMANDED record (R104). -/
inductive Occurrence where
  | lossOfDetection | detectionRestored | movement | clearing
  deriving DecidableEq, Repr

/-- The events of a BANK record (R130). -/
inductive BankEvent where
  | activated | retired | emptied | abandoned | tablesReset
  deriving DecidableEq, Repr

/-- The events of a TIMEBASE record (R68). -/
inductive TimebaseEvent where
  | set | step | lock | lockLost | holdover | degraded | degradedCleared | back | relock | leapInsert | leapDelete
  | leapDiscarded
  deriving DecidableEq, Repr

/-- The events of a CLOCK LINE record (R148). -/
inductive LineEvent where
  | faultRaised | faultCleared | waitBegun | waitEnded | catchUpBegun | catchUpEnded | halted | run | positionSet | unset
  deriving DecidableEq, Repr

/-- The causes of a RECORDING START record (R166, R167). -/
inductive StartCause where
  | powerUp | resetPin | tablesReset
  deriving DecidableEq, Repr

/-- An operate or proving time as reported (R80). -/
structure OperateTime where
  ms      : Nat
  clamped : Bool
  deriving DecidableEq, Repr

/-- The lost counts of a gap, one for each class (R157). -/
structure LostCounts where
  state     : Nat
  movement  : Nat
  timetable : Nat
  link      : Nat
  time      : Nat
  clock     : Nat
  system    : Nat
  deriving DecidableEq, Repr

/-- A pending gap (R154, R157). -/
structure Gap where
  lost  : LostCounts
  first : Dated
  last  : Dated
  deriving DecidableEq, Repr

/-- The record kinds with their bodies (R151, section 10.4). An old state that is absent is UNKNOWN. -/
inductive Body where
  | stateChange (element : Nat) (old : Option Nat) (new : Nat) (first silence undefinedCode : Bool)
  | commandSeen (element code : Nat) (stale undefinedCode : Bool)
  | movementOutcome (element : Nat) (outcome : MoveOutcome) (target : Nat) (shown : Option Nat) (time : Option OperateTime)
  | uncommanded (element : Nat) (occurrence : Occurrence)
  | lampFault (element : Nat)
  | timetableResult (bank : BankId) (entry : Nat) (reference : BitVec 32) (outcome : EntryStatus)
      (result : Option MatchResult)
  | unscheduledClearing (element : Nat)
  | bank (bank : BankId) (event : BankEvent) (first second : Nat)
  | linkCondition (port : PortId) (direction : Direction) (condition : LinkCondition) (raised : Bool)
  | timebase (event : TimebaseEvent) (old : Option TimeOfDay)
  | offsetChange (old new : Int)
  | clockLine (line : LineId) (event : LineEvent) (fault : Option FaultKind) (position : Nat)
  | gap (lost : LostCounts) (first last : Dated)
  | recordingStart (cause : StartCause)
  deriving DecidableEq, Repr

/-- A record as a block offers it (R151): its level, its stamp with quality and the two stamp flags, and its body. -/
structure Offer where
  level    : Nat
  dated    : Dated
  ageLimit : Bool
  clamped  : Bool
  body     : Body
  deriving DecidableEq, Repr

/-- A record of the journal: an admitted offer with its sequence number (R155). -/
structure JournalRecord where
  seq   : SeqNo
  offer : Offer
  deriving DecidableEq, Repr

/-- The level and the enable of one class (R152). -/
structure ClassSetting where
  level   : Nat
  enabled : Bool
  deriving DecidableEq, Repr

/-- The class table (R152). -/
structure ClassTable where
  state     : ClassSetting
  movement  : ClassSetting
  timetable : ClassSetting
  link      : ClassSetting
  time      : ClassSetting
  clock     : ClassSetting
  deriving DecidableEq, Repr

/-- The event journal (R154); its fill is the length of `records`, oldest first. -/
structure Journal where
  records   : List JournalRecord
  next      : SeqNo
  gap       : Option Gap
  classes   : ClassTable
  threshold : Nat
  watermark : Nat
  reserve   : Nat
  deriving DecidableEq, Repr

/-! ## The service unit (Chapter 9) and the whole part -/

/-- A queued service request: its code and the rest of it (R170). -/
structure Queued where
  code    : Byte
  request : Request
  deriving DecidableEq, Repr

/-- The entries of a bank that RESET TABLES closed: how many were OPEN and how many PENDING (R181). -/
structure Closings where
  opened  : Nat
  pending : Nat
  deriving DecidableEq, Repr

/-- A RESET TABLES between its steps (R181): the request, the supervisions that its first step closed, and, once its second step
is done, the entries closed of bank A and of bank B. -/
structure Resetting where
  request   : Request
  abandoned : Nat
  closed    : Option (Closings × Closings)
  deriving DecidableEq, Repr

/-- The service unit: the request queue, the request it is ACTING on, and the progress of a RESET TABLES; it is IDLE when it
has no request in hand (R170, R171). -/
structure Service where
  queue     : List Queued
  inHand    : Option Queued
  resetting : Option Resetting
  deriving DecidableEq, Repr

end Sys2Proof.Machine
end

