-- ==== Sys2Proof/Machine/Octets.lean ====
section
/-! DEFINITION. Sys2Proof/Machine/Octets.lean: octets and bits on the line: byte order and two's complement (R184), the bit order
of an octet, zero insertion (section 1.1) and the frame check (R5, R185). -/

namespace Sys2Proof.Machine

/-- A value as `n` octets, most significant first (R184). -/
def be : Nat → Nat → List Byte
  | 0, _ => []
  | n + 1, v => BitVec.ofNat 8 (v / 256 ^ n) :: be n v

/-- A signed value as `n` octets in two's complement (R184). -/
def beSigned (n : Nat) (v : Int) : List Byte := be n (v % (256 ^ n : Nat)).toNat

/-- The value of octets, most significant first (R184). -/
def ofBe (l : List Byte) : Nat := l.foldl (fun acc o => 256 * acc + o.toNat) 0

/-- The value of two octets in two's complement (R184). -/
def signedOfBe (h l : Byte) : Int := (BitVec.ofNat 16 (ofBe [h, l])).toInt

/-- An octet of 255s for each octet of an absent field (R184). -/
def absent (n : Nat) : List Byte := List.replicate n 255

/-- One octet that holds 1 for set and 0 for clear (section 10.3). -/
def flag (b : Bool) : Byte := if b then 1 else 0

/-- The bits of an octet as the line carries them, least significant first (R184). -/
def octetBits (o : Byte) : List Bool := (List.range 8).map o.getLsbD

/-- The bits of octets in the order sent (R184). -/
def bitsOf (l : List Byte) : List Bool := l.flatMap octetBits

/-- The octet whose bits came in this order. -/
def octetOf (b0 b1 b2 b3 b4 b5 b6 b7 : Bool) : Byte :=
  BitVec.ofNat 8 (b0.toNat + 2 * b1.toNat + 4 * b2.toNat + 8 * b3.toNat + 16 * b4.toNat + 32 * b5.toNat + 64 * b6.toNat
    + 128 * b7.toNat)

/-- The whole octets of a bit sequence; bits beyond the last whole octet are left out. -/
def octetsOf : List Bool → List Byte
  | b0 :: b1 :: b2 :: b3 :: b4 :: b5 :: b6 :: b7 :: rest => octetOf b0 b1 b2 b3 b4 b5 b6 b7 :: octetsOf rest
  | _ => []

/-- One bit into the check register: generator x^16 + x^12 + x^5 + 1, each octet least significant bit first (R5). -/
def crcStep (reg : BitVec 16) (bit : Bool) : BitVec 16 :=
  if (reg.getLsbD 0).xor bit then (reg >>> 1) ^^^ 0x8408 else reg >>> 1

/-- The check register after these bits, preset to all ones (R5). -/
def crc (bits : List Bool) : BitVec 16 := bits.foldl crcStep 0xFFFF

/-- Whether the check over all the content, the check octets included, is good: the register holds hexadecimal F0B8 (R185). -/
def checkGood (content : List Bool) : Bool := crc content == 0xF0B8

/-- The content of a frame with these octets: the octets and the complemented check, low octet first (R5). -/
def contentOf (octets : List Byte) : List Bool :=
  bitsOf octets ++ (List.range 16).map (~~~(crc (bitsOf octets))).getLsbD

/-- Content with a zero inserted after any five consecutive ones (section 1.1); the first argument counts the ones just sent. -/
def stuff : Nat → List Bool → List Bool
  | _, [] => []
  | _, false :: rest => false :: stuff 0 rest
  | n, true :: rest => if n = 4 then true :: false :: stuff 0 rest else true :: stuff (n + 1) rest

/-- The bit times that a frame with this content occupies on the line, with both flags (R16). -/
def lineLength (content : List Bool) : Nat := 16 + (stuff 0 content).length

end Sys2Proof.Machine
end

