-- ==== Sys2Proof/Machine/Operands.lean ====
section
/-! DEFINITION. Sys2Proof/Machine/Operands.lean: how a setting is taken: clamped to its range and rounded to its step (R1, R4),
with the note whether that changed it (R174); saturating counters (R3). -/

namespace Sys2Proof.Machine

/-- `n / d` rounded to nearest, with halves going away from zero (R4). -/
def roundDiv (n : Int) (d : Nat) : Int :=
  if n < 0 then -(((2 * n.natAbs + d) / (2 * d) : Nat) : Int) else (((2 * n.natAbs + d) / (2 * d) : Nat) : Int)

/-- A value held within limits (R1). -/
def clampNat (lo hi v : Nat) : Nat := if v < lo then lo else if hi < v then hi else v

/-- A signed value held within limits (R1, R55). -/
def clampInt (lo hi v : Int) : Int := if v < lo then lo else if hi < v then hi else v

/-- A value as taken, and whether taking it changed the value given. -/
structure Taken where
  value   : Nat
  changed : Bool
  deriving DecidableEq, Repr

/-- A setting clamped to `lo` to `hi` and rounded to the nearest multiple of `step` (R1). -/
def takeSetting (lo hi step raw : Nat) : Taken :=
  let v := (roundDiv (clampNat lo hi raw) step).toNat * step
  ⟨v, v != raw⟩

/-- A setting for which a raw value of 0 stands for the default (R186). -/
def takeOrDefault (lo hi step default raw : Nat) : Taken :=
  if raw = 0 then ⟨default, false⟩ else takeSetting lo hi step raw

/-- A civil offset clamped to −720 to +840 minutes and rounded to the nearest multiple of 15 (R65). -/
def takeOffset (raw : Int) : Int := 15 * roundDiv (clampInt (-720) 840 raw) 15

/-- A saturating counter raised by `n` (R3). -/
def saturate (max v n : Nat) : Nat := if max < v + n then max else v + n

/-- A 32-bit saturating counter raised by one (R3). -/
def raise32 (v : Nat) : Nat := saturate 4294967295 v 1

/-- A 16-bit saturating count raised by one (R31, R157). -/
def raise16 (v : Nat) : Nat := saturate 65535 v 1

/-- The answer to a taken request: DONE-ADJUSTED when any value was clamped, rounded or replaced (R1, R174). -/
def taken (changed : Bool) (data : List Byte) : Reply := if changed then .adjusted data else .done data

end Sys2Proof.Machine
end

