-- ==== Sys2Proof/Machine/Defaults.lean ====
section
/-! DEFINITION. Sys2Proof/Machine/Defaults.lean: the value of each block's state after a device reset. -/

namespace Sys2Proof.Machine

/-- The defaults of the timebase (R48, R63). -/
def Timebase.afterReset : Timebase where
  tod := ⟨0, 0, 0⟩
  todFrac := 0
  elapsed := 0
  elapsedFrac := 0
  carryDue := false
  setFlag := false
  loop := .free
  fastReturn := false
  rate := 0
  slew := 0
  slewLeft := 0
  good := 0
  bad := 0
  steps := 0
  misses := 0
  holdoverSince := none
  degraded := false
  lastPulse := none
  lastRelock := none
  nextNote := none
  label := none
  armedLeap := none
  recentLeap := none
  civilOffset := 0
  scheduled := none
  spurious := 0
  unusedLabels := 0
  gp := 4
  gi := 8
  lockWindow := 20
  stepThreshold := 1000
  holdoverLimit := 3600

/-- A receiver in INITIALISING: nothing in reception, no life timer, every condition clear (R7, section 1.9). -/
def Receiver.afterReset : Receiver where
  opening := none
  stray := []
  lifeSince := none
  los := false
  silent := false
  errorRate := false
  checkFails := 0
  reached := false
  cleanRun := 0
  silentSeen := false

/-- Every counter at zero (R23). -/
def Counters.zero : Counters where
  down := ⟨0, 0, 0, 0, 0, 0, 0, 0, 0⟩
  up := ⟨0, 0, 0, 0, 0, 0, 0, 0, 0⟩
  port := ⟨0, 0, 0, 0, 0, 0⟩

/-- The line rate that the two RATESEL straps give (the table of R6). -/
def strapRate (t : Straps) : LineRate :=
  match t.ratesel2, t.ratesel1 with
  | false, false => .k64
  | false, true => .k256
  | true, false => .k1024
  | true, true => .k2048

/-- A port at a device reset (R7, R22, section 1.9). The accept flag is set on P0 alone (R14). -/
def Port.afterReset (t : Straps) (p : PortId) : Port where
  state := .initialising
  transferEnd := none
  relay := false
  rate := strapRate t
  latency := 0
  lifeTimeout := 2000
  errorThreshold := 4
  quiet := 8
  accept := p == 0
  downRx := Receiver.afterReset
  upRx := Receiver.afterReset
  responses := []
  inserting := none
  sending := []
  held := []
  downDelay := []
  upDelay := []
  upFlags := 0
  markRun := 0
  skipping := false
  quietSince := none
  joinSince := none
  joinCredited := 0
  live := Counters.zero
  latched := Counters.zero
  toField := []
  toCentre := []

/-- A closed window (R26). -/
def Window.closed : Window := ⟨4095, 0, 0⟩

/-- An EMPTY bank (R107). -/
def Bank.afterReset : Bank := ⟨.empty, none, [], 0, none⟩

/-- A clock line at a device reset (R133, R134). -/
def Line.afterReset : Line where
  state := .unset
  period := .p720
  position := 0
  lastPolarity := .negative
  faultKind := none
  impulse := none
  haltPending := false
  lastStart := none
  nextStart := none
  nextProbe := none
  probeBase := none
  target := none
  width := 600
  spacing := 1500
  waitWindow := 90
  probeInterval := 60

/-- The journal at a device reset (R152, R154). -/
def Journal.afterReset : Journal where
  records := []
  next := 0
  gap := none
  classes := ⟨⟨2, true⟩, ⟨5, true⟩, ⟨4, true⟩, ⟨4, true⟩, ⟨5, true⟩, ⟨3, true⟩⟩
  threshold := 5
  watermark := 3072
  reserve := 6

end Sys2Proof.Machine
end

