-- ==== Sys2Proof/Machine/State.lean ====
section
/-! DEFINITION. Sys2Proof/Machine/State.lean: the state of the IPS-4720, made of the blocks of Machine/Blocks.lean, the two
kinds of stop, and the state after a device reset. -/

namespace Sys2Proof.Machine

/-- The state of the IPS-4720 and of the queue of commands that wait for it. -/
structure State where
  /-- The MODEL's own: the commands that wait, first in, first out. -/
  pending       : List Instr
  /-- The elapsed instant at which INITIALISING ends; absent outside INITIALISING (R7). -/
  initEnd       : Option Nat
  resetCause    : ResetCause
  straps        : Straps
  ports         : Eight Port
  latchInterval : LatchInterval
  latchSeq      : BitVec 16
  windows       : Eight (Four Window)
  /-- The present element records by index, in ascending order (R30); an index not listed is empty. -/
  elements      : List (Nat × Element)
  tb            : Timebase
  bankA         : Bank
  bankB         : Bank
  openList      : List EntryRef
  lines         : Four Line
  journal       : Journal
  service       : Service
  /-- The MODEL's own: the number of free choices made, the argument of the free values (log entries 6, 7 and 13). -/
  choices       : Nat
  deriving DecidableEq, Repr

/-! ## Stops -/

/-- The faults of the block. It has none: nothing in the manual stops the part. -/
inductive Fault where
  deriving DecidableEq, Repr

/-- The refusals of the model. -/
inductive Refusal where
  /-- Raised by an arm of `exec` for a command without a meaning; no arm of this model raises it. Safe: the model stops. -/
  | notModelled (mnemonic : String)
  deriving DecidableEq, Repr

/-! ## The state after a device reset -/

/-- Every block at its reset values, for the straps and the cause of a device reset, with these commands waiting. INITIALISING
lasts 20 ms (R7). -/
def State.afterReset (pending : List Instr) (cause : ResetCause) (straps : Straps) (choices : Nat) : State where
  pending := pending
  initEnd := some (ms 20)
  resetCause := cause
  straps := straps
  ports := Eight.mapIdx (fun p _ => Port.afterReset straps p) (Eight.all ())
  latchInterval := .s60
  latchSeq := 0
  windows := Eight.all (Four.all Window.closed)
  elements := []
  tb := Timebase.afterReset
  bankA := Bank.afterReset
  bankB := Bank.afterReset
  openList := []
  lines := Four.all Line.afterReset
  journal := Journal.afterReset
  service := ⟨[], none, none⟩
  choices := choices

/-- The machine right after a power-up. The straps are pins of the installation, whose levels the manual does not fix: JOINEN is
high, as "in most installations" (section 1.10), and the others are low (DESIGN CHOICE, log entry 1). -/
def State.reset : State := State.afterReset [] .powerUp ⟨false, false, true, 0⟩ 0

end Sys2Proof.Machine
end

