-- ==== Sys2Proof/Machine/Journal.lean ====
section
/-! DEFINITION. Sys2Proof/Machine/Journal.lean: the event journal: classes and levels, admission, loss and the pending gap, the
place of a sequence number, release, and the ALERT output (Chapter 8). -/

namespace Sys2Proof.Machine

/-- The class of a record kind (R151). -/
def classOf : Body → JournalClass
  | .stateChange .. => .state
  | .commandSeen .. => .state
  | .movementOutcome .. => .movement
  | .uncommanded .. => .movement
  | .lampFault .. => .movement
  | .timetableResult .. => .timetable
  | .unscheduledClearing .. => .timetable
  | .bank .. => .timetable
  | .linkCondition .. => .link
  | .timebase .. => .time
  | .offsetChange .. => .time
  | .clockLine .. => .clock
  | .gap .. => .system
  | .recordingStart .. => .system

/-- The level and the enable of a class; SYSTEM has level 7 and is always enabled (R152). -/
def ClassTable.get (t : ClassTable) : JournalClass → ClassSetting
  | .state => t.state
  | .movement => t.movement
  | .timetable => t.timetable
  | .link => t.link
  | .time => t.time
  | .clock => t.clock
  | .system => ⟨7, true⟩

/-- The class table with the setting of one class replaced; SYSTEM has no entry (R152, R153). -/
def ClassTable.set (t : ClassTable) (c : JournalClass) (x : ClassSetting) : ClassTable :=
  match c with
  | .state => { t with state := x }
  | .movement => { t with movement := x }
  | .timetable => { t with timetable := x }
  | .link => { t with link := x }
  | .time => { t with time := x }
  | .clock => { t with clock := x }
  | .system => t

/-- The lost counts with the count of one class raised by one, stopping at 65,535 (R157). -/
def LostCounts.raise (n : LostCounts) : JournalClass → LostCounts
  | .state => { n with state := raise16 n.state }
  | .movement => { n with movement := raise16 n.movement }
  | .timetable => { n with timetable := raise16 n.timetable }
  | .link => { n with link := raise16 n.link }
  | .time => { n with time := raise16 n.time }
  | .clock => { n with clock := raise16 n.clock }
  | .system => { n with system := raise16 n.system }

/-- The number of records held (R154). -/
def Journal.fill (j : Journal) : Nat := j.records.length

/-- Whether a record of this level passes at this fill (the table of R156): every slot is for levels at or above the reserve
level, the first 3,840 for the others. -/
def Journal.passes (j : Journal) (level fill : Nat) : Bool :=
  if j.reserve ≤ level then decide (fill < 4096) else decide (fill < 3840)

/-- The offered record joins the journal as the newest and takes the sequence counter's value (R155). -/
def Journal.accept (j : Journal) (o : Offer) : Journal :=
  { j with records := j.records ++ [⟨j.next, o⟩], next := j.next + 1 }

/-- The offered record is lost and counted in the pending gap, which its loss creates when there is none (R157). -/
def Journal.lose (j : Journal) (o : Offer) : Journal :=
  match j.gap with
  | none => { j with gap := some ⟨LostCounts.raise ⟨0, 0, 0, 0, 0, 0, 0⟩ (classOf o.body), o.dated, o.dated⟩ }
  | some g => { j with gap := some ⟨g.lost.raise (classOf o.body), g.first, o.dated⟩ }

/-- The GAP record of a pending gap, written at this time of day: level 7, class SYSTEM (R159). -/
def gapOffer (g : Gap) (now : Dated) : Offer := ⟨7, now, false, false, .gap g.lost g.first g.last⟩

/-- The pending gap is written as a GAP record and cleared (R158, R159, R162). -/
def Journal.writeGap (j : Journal) (g : Gap) (now : Dated) : Journal := { j.accept (gapOffer g now) with gap := none }

/-- A record of an enabled class is offered (R156, R158): with no gap pending it is judged at the fill; with a gap pending, at the
fill plus one, and the GAP is then written ahead of it. -/
def Journal.judge (j : Journal) (now : Dated) (o : Offer) : Journal :=
  match j.gap with
  | none => if j.passes o.level j.fill then j.accept o else j.lose o
  | some g => if j.passes o.level (j.fill + 1) then (j.writeGap g now).accept o else j.lose o

/-- A record is offered. One of a class that is disabled at that instant is not generated (R152). -/
def Journal.offer (j : Journal) (now : Dated) (o : Offer) : Journal :=
  if (j.classes.get (classOf o.body)).enabled then j.judge now o else j

/-- The newest sequence number: the counter less one, modulo 2^32 (R154). -/
def Journal.newest (j : Journal) : SeqNo := j.next - 1

/-- Where a sequence number lies (R160). -/
inductive Place where
  | ahead | held | behind
  deriving DecidableEq, Repr

/-- The judgement of R160, modulo 2^32. -/
def Journal.place (j : Journal) (s : SeqNo) : Place :=
  if (s - j.next).toNat < 2 ^ 31 then .ahead
  else if 1 ≤ (j.next - s).toNat ∧ (j.next - s).toNat ≤ j.fill then .held
  else .behind

/-- How many records a RELEASE up to `s` removes (R162). -/
def Journal.releaseCount (j : Journal) (s : SeqNo) : Nat :=
  match j.place s with
  | .held => j.fill - ((j.next - s).toNat - 1)
  | .ahead => j.fill
  | .behind => 0

/-- RELEASE on the journal: the removal, and the GAP record when at least one record was removed and a gap is pending (R162). -/
def Journal.release (j : Journal) (now : Dated) (s : SeqNo) : Journal :=
  let n := j.releaseCount s
  let j' := { j with records := j.records.drop n }
  match j.gap with
  | some g => if 0 < n then j'.writeGap g now else j'
  | none => j'

/-- Whether a record is a GAP. -/
def JournalRecord.isGap (r : JournalRecord) : Bool :=
  match r.offer.body with
  | .gap .. => true
  | _ => false

/-- The records that READ JOURNAL returns from a list that begins at the first of them: two, but a GAP alone, and a record before a
GAP alone (R161, R188). -/
def readFrom : List JournalRecord → List JournalRecord
  | [] => []
  | [r] => [r]
  | r :: r' :: _ => if r.isGap || r'.isGap then [r] else [r, r']

/-- The records that READ JOURNAL from `s` returns (R161). -/
def Journal.read (j : Journal) (s : SeqNo) : List JournalRecord :=
  match j.place s with
  | .held => readFrom (j.records.drop (j.fill - (j.next - s).toNat))
  | .ahead => []
  | .behind => readFrom j.records

/-- The number of held records at or above the alert threshold (R165). -/
def Journal.alerting (j : Journal) : Nat := j.records.countP fun r => j.threshold ≤ r.offer.level

/-- The ALERT output (R164). -/
def Journal.alert (j : Journal) : Bool :=
  decide (0 < j.alerting) || decide (j.watermark ≤ j.fill) || j.gap.isSome

/-- The number of held records whose level is below a reserve level (R163). -/
def Journal.below (j : Journal) (reserve : Nat) : Nat := j.records.countP fun r => r.offer.level < reserve

end Sys2Proof.Machine
end

