-- ==== Sys2Proof/Machine/Ops.lean ====
section
/-! DEFINITION. Sys2Proof/Machine/Ops.lean: the named operations by which every block reads and writes the state: ports and
receivers, element records, banks, lines; the comparison of instants; the stamp and quality of an instant; and the offer of a
record to the journal. -/

namespace Sys2Proof.Machine

/-! ## Updates of one block -/

/-- The state with another timebase. -/
def State.setTb (s : State) (tb : Timebase) : State := { s with tb := tb }

/-- The state with another journal. -/
def State.setJournal (s : State) (j : Journal) : State := { s with journal := j }

/-- One port. -/
def State.port (s : State) (p : PortId) : Port := s.ports.get p

/-- The state with one port replaced. -/
def State.setPort (s : State) (p : PortId) (x : Port) : State := { s with ports := s.ports.set p x }

/-- One clock line. -/
def State.line (s : State) (l : LineId) : Line := s.lines.get l

/-- The state with one clock line replaced. -/
def State.setLine (s : State) (l : LineId) (x : Line) : State := { s with lines := s.lines.set l x }

/-- One bank. -/
def State.bank (s : State) : BankId → Bank
  | .bankA => s.bankA
  | .bankB => s.bankB

/-- The state with one bank replaced. -/
def State.setBank (s : State) (b : BankId) (x : Bank) : State :=
  match b with
  | .bankA => { s with bankA := x }
  | .bankB => { s with bankB := x }

/-- The state with another open list. -/
def State.setOpenList (s : State) (l : List EntryRef) : State := { s with openList := l }

/-- The other of the two banks. -/
def BankId.other : BankId → BankId
  | .bankA => .bankB
  | .bankB => .bankA

/-- Both banks, A first. -/
def bankIds : List BankId := [.bankA, .bankB]

/-- Whether the part is in INITIALISING (R7). -/
def State.initialising (s : State) : Bool := s.initEnd.isSome

/-- The service unit, while it is idle, takes the request at the head of its queue (R171). -/
def Service.take (v : Service) : Service :=
  match v.inHand, v.queue with
  | none, q :: rest => { v with queue := rest, inHand := some q }
  | _, _ => v

/-! ## Receivers and counters -/

/-- The receiver of one direction. -/
def Port.rx (p : Port) : Direction → Receiver
  | .down => p.downRx
  | .up => p.upRx

/-- The port with one receiver replaced. -/
def Port.setRx (p : Port) (d : Direction) (x : Receiver) : Port :=
  match d with
  | .down => { p with downRx := x }
  | .up => { p with upRx := x }

/-- The nine counters of one direction. -/
def Counters.dir (c : Counters) : Direction → DirCounters
  | .down => c.down
  | .up => c.up

/-- The counters with those of one direction replaced. -/
def Counters.setDir (c : Counters) (d : Direction) (x : DirCounters) : Counters :=
  match d with
  | .down => { c with down := x }
  | .up => { c with up := x }

/-- The port with its live counters of one direction changed. -/
def Port.countDir (p : Port) (d : Direction) (f : DirCounters → DirCounters) : Port :=
  { p with live := p.live.setDir d (f (p.live.dir d)) }

/-- The port with the live counters kept for the port changed. -/
def Port.countPort (p : Port) (f : PortCounters → PortCounters) : Port :=
  { p with live := { p.live with port := f p.live.port } }

/-! ## The element table -/

/-- The record of an index in a table of present records. -/
def lookup : List (Nat × Element) → Nat → Option Element
  | [], _ => none
  | (k, e) :: rest, i => if k = i then some e else lookup rest i

/-- The table with the record of an index present as given, ascending order kept. -/
def insert : List (Nat × Element) → Nat → Element → List (Nat × Element)
  | [], i, e => [(i, e)]
  | (k, x) :: rest, i, e =>
    if i < k then (i, e) :: (k, x) :: rest
    else if i = k then (i, e) :: rest
    else (k, x) :: insert rest i e

/-- The table with the record of an index empty. -/
def erase (t : List (Nat × Element)) (i : Nat) : List (Nat × Element) := t.filter fun x => x.1 != i

/-- The table with every present record changed, each by its index. -/
def mapRecords (t : List (Nat × Element)) (f : Nat → Element → Element) : List (Nat × Element) :=
  t.map fun x => (x.1, f x.1 x.2)

/-- The canonical form of the element table: indices strictly rising and all below 2048. -/
abbrev tableWf (t : List (Nat × Element)) : Prop := (t.map Prod.fst).Pairwise (· < ·) ∧ ∀ k ∈ t.map Prod.fst, k < 2048

/-- The present record of an index, if it is present. -/
def State.element (s : State) (i : Nat) : Option Element := lookup s.elements i

/-- The state with the record of an index present as given. -/
def State.setElement (s : State) (i : Nat) (e : Element) : State := { s with elements := insert s.elements i e }

/-- The state with the record of an index empty. -/
def State.removeElement (s : State) (i : Nat) : State := { s with elements := erase s.elements i }

/-! ## Instants -/

/-- A difference of days taken modulo 65,536 and read as a signed number (R64, R109). -/
def dayDiff (a b : Day) : Int := (a - b).toInt

/-- Whether one day and second lies before another (R64, R109). -/
def DaySec.before (a b : DaySec) : Bool :=
  decide (dayDiff a.day b.day < 0) || (decide (dayDiff a.day b.day = 0) && decide (a.sec < b.sec))

/-- The day and second that lie `t` seconds after an instant, counting 86,400 seconds to each day (R109). -/
def DaySec.plus (a : DaySec) (t : Nat) : DaySec :=
  ⟨a.day + BitVec.ofNat 16 ((a.sec + t) / 86400), (a.sec + t) % 86400⟩

/-- The bank time of a day and second against a start instant (R109). -/
def bankTime (start : DaySec) (t : DaySec) : Int := dayDiff t.day start.day * 86400 + ((t.sec : Int) - start.sec)

/-- The day and second of a time of day. -/
def TimeOfDay.daySec (t : TimeOfDay) : DaySec := ⟨t.day, t.sec⟩

/-- The kind of the armed leap when it stands for this day. -/
def Timebase.armedFor (tb : Timebase) (day : Day) : Option LeapKind :=
  match tb.armedLeap with
  | some a => if a.day = day then some a.kind else none
  | none => none

/-- The second that follows by a carry, and the leap that the carry executes (the table of R50, R64). -/
def Timebase.nextSecond (tb : Timebase) : DaySec × Option LeapKind :=
  let d := tb.tod.day
  let armed := tb.armedFor d
  if tb.tod.sec = 86398 ∧ armed = some .delete then (⟨d + 1, 0⟩, some .delete)
  else if tb.tod.sec = 86399 ∧ armed = some .insert then (⟨d, 86400⟩, some .insert)
  else if 86399 ≤ tb.tod.sec then (⟨d + 1, 0⟩, none)
  else (⟨d, tb.tod.sec + 1⟩, none)

/-- The time of day as it reads: in the cycle of a carry whose second boundary is not yet taken, the time after the carry (R50,
R51). -/
def Timebase.time (tb : Timebase) : TimeOfDay :=
  if 1000000000 ≤ tb.tod.nanos then ⟨tb.nextSecond.1.day, tb.nextSecond.1.sec, tb.tod.nanos - 1000000000⟩ else tb.tod

/-- A time of day truncated to microseconds (R77). -/
def TimeOfDay.stamp (t : TimeOfDay) : Stamp := ⟨t.day, t.sec, t.nanos / 1000⟩

/-- The quality in force (R67). -/
def Timebase.quality (tb : Timebase) : Quality :=
  match tb.loop with
  | .free => .unset
  | .acquiring => .settling
  | .locked => .traceable
  | .holdover => if tb.degraded then .degraded else .holdover

/-- The time of day of the present instant with its quality (R78). -/
def Timebase.now (tb : Timebase) : Dated := ⟨tb.time.stamp, tb.quality⟩

/-- The present instant of the elapsed scale: its nanoseconds and its fraction (R48, R51). -/
def Timebase.instant (tb : Timebase) : Nat := ns tb.elapsed + tb.elapsedFrac

/-- A capture taken at the present instant: its elapsed value is in whole nanoseconds (R71). -/
def Timebase.capture (tb : Timebase) : Capture := ⟨tb.time, tb.elapsed, tb.quality⟩

/-- A capture's time of day, truncated, with the capture's quality (R78). -/
def Capture.dated (c : Capture) : Dated := ⟨c.tod.stamp, c.quality⟩

/-- The elapsed time in whole milliseconds (R51). -/
def Timebase.elapsedMs (tb : Timebase) : Nat := tb.elapsed / 1000000

/-! ## Records -/

/-- The state after a record has been offered to the journal; a GAP written ahead of it takes the present time of day (R159). -/
def State.offer (s : State) (o : Offer) : State := s.setJournal (s.journal.offer s.tb.now o)

/-- The level of a class (R151). -/
def State.levelOf (s : State) (c : JournalClass) : Nat := (s.journal.classes.get c).level

/-- A record of the part's own instant, at the level of its class: the present time of day with the quality in force (R78). -/
def State.report (s : State) (body : Body) : State :=
  s.offer ⟨s.levelOf (classOf body), s.tb.now, false, false, body⟩

/-- Records of the part's own instant, in order. -/
def State.reportAll (s : State) (bodies : List Body) : State := bodies.foldl State.report s

/-- The level of a record written for an element: the class level override when present, the class level otherwise (R35, R105). -/
def State.elementLevel (s : State) (e : Element) (c : JournalClass) : Nat := e.loaded.override.getD (s.levelOf c)

end Sys2Proof.Machine
end

