-- ==== Sys2Proof/Machine/ClockLines.lean ====
section
/-! DEFINITION. Sys2Proof/Machine/ClockLines.lean: the clock line controller: target and lag, the decision, impulses and probes and
what ends them, halting, running, position and settings (Chapter 7). -/

namespace Sys2Proof.Machine

/-- The number of steps of the dials in twelve hours. -/
def Period.steps : Period → Nat
  | .p720 => 720
  | .p1440 => 1440

/-- The wait window as a number of steps: W for 720, twice W for 1440 (R134). -/
def Line.waitSteps (x : Line) : Nat :=
  match x.period with
  | .p720 => x.waitWindow
  | .p1440 => 2 * x.waitWindow

/-- The step at which dials of this period ought to stand for a second of day and a civil offset in minutes (R136). The inserted
second 86,400 is taken as 86,399. -/
def targetStep (period : Period) (sec : Nat) (offset : Int) : Nat :=
  let s : Int := if sec = 86400 then 86399 else sec
  let c := ((s + 60 * offset) % 86400).toNat
  match period with
  | .p720 => (c / 60) % 720
  | .p1440 => (c / 30) % 1440

/-- The target by the present time of day and civil offset; undefined while the set flag is clear (R136). -/
def Timebase.target (tb : Timebase) (period : Period) : Option Nat :=
  if tb.setFlag then some (targetStep period tb.time.sec tb.civilOffset) else none

/-- The lag: how many impulses would bring the dials to the target (R136). -/
def Line.lag (x : Line) : Option Nat :=
  x.target.map fun t => (t + x.period.steps - x.position) % x.period.steps

/-- The other polarity. -/
def Polarity.opposite : Polarity → Polarity
  | .positive => .negative
  | .negative => .positive

/-- The drive output of a line: the polarity it is driven at, or off (R139). -/
def Line.drive (x : Line) : Option Polarity := x.impulse.map Impulse.polarity

/-- An event of a CLOCK LINE record with the fault kind and the displayed position it carries (R148). -/
structure LineNote where
  event    : LineEvent
  fault    : Option FaultKind
  position : Nat
  deriving DecidableEq, Repr

/-- What an event makes of a line: the line as it stands afterwards, and the records it writes, in order. -/
structure LineStep where
  line  : Line
  notes : List LineNote
  deriving DecidableEq, Repr

/-- An event on a line as it now stands. -/
def Line.note (x : Line) (event : LineEvent) : LineNote := ⟨event, x.faultKind, x.position⟩

/-! ## The decision (R138) -/

/-- What a decision finds: the state, and whether it calls for impulses (the first table of R138). -/
def Line.judgeLag (x : Line) : LineState × Bool :=
  match x.lag with
  | none => (.waiting, false)
  | some lag =>
    if x.period.steps - x.waitSteps ≤ lag then (.waiting, false)
    else if lag = 0 then (.running, false)
    else if lag = 1 then (.running, true)
    else (.catchingUp, true)

/-- The earliest instant from `now` on at which an impulse may begin: the last start plus the catch-up spacing (R138, R142). -/
def Line.restedFrom (x : Line) (now : Nat) : Nat :=
  match x.lastStart with
  | some t => max now (t + ms x.spacing)
  | none => now

/-- The records of a decision that moves a line from one state to another (R138, R148). The rules give no order to the two records of a
decision that moves a line between CATCHING UP and WAITING; ENDED ahead of BEGUN is a DESIGN CHOICE (log entry 43). -/
def decisionEvents (before after : LineState) : List LineEvent :=
  if before = after then []
  else
    (if before = .catchingUp then [.catchUpEnded] else []) ++
    (if before = .waiting then [.waitEnded] else []) ++
    (if after = .waiting then [.waitBegun] else []) ++
    (if after = .catchingUp then [.catchUpBegun] else [])

/-- A decision at an elapsed instant (R138). -/
def Line.decision (x : Line) (now : Nat) : LineStep :=
  let (state, calls) := x.judgeLag
  let x' := { x with
    state := state
    nextStart := if calls && x.impulse.isNone then some (x.restedFrom now) else none }
  ⟨x', (decisionEvents x.state state).map x'.note⟩

/-- Whether a line follows its target by decisions. -/
def LineState.following : LineState → Bool
  | .running => true
  | .catchingUp => true
  | .waiting => true
  | _ => false

/-- The target held becomes `t`; a change of it makes a decision on a line that follows its target (R137). -/
def Line.retarget (x : Line) (t : Option Nat) (now : Nat) : LineStep :=
  if x.target = t then ⟨x, []⟩
  else
    let x' := { x with target := t }
    if x.state.following then x'.decision now else ⟨x', []⟩

/-! ## Impulses (R139 to R143) -/

/-- An impulse begins: its end is its start plus the width in force, its polarity the opposite of the last polarity (R139, R142). -/
def Line.begin (x : Line) (purpose : Purpose) (now : Nat) : Line :=
  { x with
    impulse := some ⟨purpose, x.lastPolarity.opposite, now, now + ms x.width, none⟩
    lastStart := some now
    nextStart := none
    nextProbe := none }

/-- The line enters HALTED (R143). -/
def Line.enterHalted (x : Line) : LineStep :=
  let x' := { x with state := .halted, haltPending := false, nextStart := none, nextProbe := none }
  ⟨x', [x'.note .halted]⟩

/-- More records ahead of a step's own. -/
def LineStep.after (notes : List LineNote) (r : LineStep) : LineStep := ⟨r.line, notes ++ r.notes⟩

/-- The end of an impulse judged OK: the dials advance by one step, and the last polarity becomes the impulse's (R140). A good probe
clears the fault (R142). Then HALTED when halt pending is set, or a decision. -/
def Line.succeed (x : Line) (i : Impulse) (now : Nat) : LineStep :=
  let x1 := { x with
    impulse := none
    position := (x.position + 1) % x.period.steps
    lastPolarity := i.polarity }
  let x2 := match i.purpose with
    | .step => x1
    | .probe => { x1 with faultKind := none }
  let cleared := match i.purpose with
    | .step => []
    | .probe => [x2.note .faultCleared]
  (if x2.haltPending then x2.enterHalted else x2.decision now).after cleared

/-- The end or cut of an impulse that failed with this kind of fault, at the elapsed instant `ended` (R141, R142). -/
def Line.fail (x : Line) (i : Impulse) (kind : FaultKind) (ended : Nat) : LineStep :=
  let x1 := { x with
    impulse := none
    state := .fault
    faultKind := some kind
    nextStart := none
    nextProbe := some (ended + secs x.probeInterval)
    probeBase := some ended }
  let raised := match i.purpose with
    | .step => [x1.note .faultRaised]
    | .probe => if x.faultKind = some kind then [] else [x1.note .faultRaised]
  (if x1.haltPending then x1.enterHalted else ⟨x1, []⟩).after raised

/-- The sample of the sense input (R140); a HIGH impulse is cut at it (R141). -/
def Line.sample (x : Line) (i : Impulse) (sense : Sense) (now : Nat) : LineStep :=
  match sense with
  | .above => x.fail i .short now
  | _ => ⟨{ x with impulse := some { i with judged := some sense } }, []⟩

/-- The end of an impulse that ran to its end instant (R140, R141). -/
def Line.finish (x : Line) (i : Impulse) (now : Nat) : LineStep :=
  match i.judged with
  | some .below => x.fail i .opened i.finish
  | _ => x.succeed i now

/-! ## Requests on a line (R134, R135, R143 to R145) -/

/-- HALT on a line that is not UNSET (R143). -/
def Line.halt (x : Line) : LineStep :=
  if x.state = .halted then ⟨x, []⟩
  else if x.impulse.isSome then ⟨{ x with haltPending := true }, []⟩
  else x.enterHalted

/-- RUN on a line that is not UNSET (R144). -/
def Line.run (x : Line) (now : Nat) : LineStep :=
  if x.state = .halted then
    (match x.faultKind with
      | none => x.decision now
      | some _ => ⟨{ x with state := .fault, nextProbe := some now, probeBase := none }, []⟩).after [x.note .run]
  else ⟨{ x with haltPending := false }, []⟩

/-- SET POSITION outside an impulse (R145). -/
def Line.place (x : Line) (position : Nat) (polarity : Polarity) (now : Nat) : LineStep :=
  let x' := { x with position := position, lastPolarity := polarity }
  (if x.state.following || x.state == .unset then x'.decision now else ⟨x', []⟩).after [x'.note .positionSet]

/-- The four timing settings of a line (R134). -/
structure LineTimings where
  width    : Nat
  spacing  : Nat
  wait     : Nat
  probe    : Nat
  deriving DecidableEq, Repr

/-- The line with other timing settings. -/
def Line.withTimings (x : Line) (t : LineTimings) : Line :=
  { x with width := t.width, spacing := t.spacing, waitWindow := t.wait, probeInterval := t.probe }

/-- SET LINE that leaves P as it was (R134). -/
def Line.setTimings (x : Line) (t : LineTimings) (now : Nat) : LineStep :=
  let x' := x.withTimings t
  if x.impulse.isSome then ⟨x', []⟩
  else if x.state.following then x'.decision now
  else if x.state = .fault then
    match x.probeBase with
    | some base => ⟨{ x' with nextProbe := some (base + secs t.probe) }, []⟩
    | none => ⟨x', []⟩
  else ⟨x', []⟩

/-- SET LINE that changes P: the line becomes UNSET, with the target of the new P (R135). -/
def Line.setPeriod (x : Line) (p : Period) (t : LineTimings) (target : Option Nat) : LineStep :=
  ⟨{ x.withTimings t with
      period := p
      state := .unset
      position := 0
      lastPolarity := .negative
      faultKind := none
      haltPending := false
      nextStart := none
      nextProbe := none
      probeBase := none
      target := target },
    [⟨.unset, x.faultKind, 0⟩]⟩

/-! ## Lines in the state -/

/-- The state after a line has taken a step: the line as it stands, and its CLOCK LINE records offered in order (R148). -/
def State.applyLine (s : State) (l : LineId) (r : LineStep) : State :=
  (s.setLine l r.line).reportAll (r.notes.map fun n => .clockLine l n.event n.fault n.position)

/-- Whether an optional instant has come. -/
def reached (t : Option Nat) (now : Nat) : Bool := t.any fun t => decide (t ≤ now)

/-- The instant at which the next step impulse begins; none while an impulse is in progress (R139). -/
def Line.startInstant (x : Line) : Option Nat := if x.impulse.isSome then none else x.nextStart

/-- A step impulse begins on a line (R139). -/
def State.startLine (s : State) (l : LineId) : State := s.setLine l ((s.line l).begin .step s.tb.instant)

/-- The end instant of the impulse in progress; none until it is sampled (R140). -/
def Line.endInstant (x : Line) : Option Nat :=
  match x.impulse with
  | some i => if i.judged.isSome then some i.finish else none
  | none => none

/-- An impulse ends at its end instant (R140 to R142). -/
def State.finishLine (s : State) (l : LineId) : State :=
  match (s.line l).impulse with
  | some i => s.applyLine l ((s.line l).finish i s.tb.instant)
  | none => s

/-- One line's target recomputed (R137). -/
def State.retargetLine (s : State) (l : LineId) : State :=
  let x := s.line l
  s.applyLine l (x.retarget (s.tb.target x.period) s.tb.instant)

/-- The target of every line recomputed (R137). R150 lets the lines fall in any order; L0 to L3 is a DESIGN CHOICE (log entry 42). -/
def State.retargetLines (s : State) : State := lineIds.foldl State.retargetLine s

end Sys2Proof.Machine
end

