-- ==== Sys2Proof/Machine/Dating.lean ====
section
/-! DEFINITION. Sys2Proof/Machine/Dating.lean: the dating arithmetic: counting back on the time of day, elapsed origins, operate
times (Chapter 4). -/

namespace Sys2Proof.Machine

/-- The second that precedes a second of a day, with the most recent leap second (the table of R75); none before day 0,
second 0. -/
def preceding (recent : Option Leap) (t : DaySec) : Option DaySec :=
  if t.sec ≠ 0 then some ⟨t.day, t.sec - 1⟩
  else if t.day = 0 then none
  else
    match recent with
    | some leap =>
      if leap.day = t.day - 1 then
        match leap.kind with
        | .insert => some ⟨t.day - 1, 86400⟩
        | .delete => some ⟨t.day - 1, 86398⟩
      else some ⟨t.day - 1, 86399⟩
    | none => some ⟨t.day - 1, 86399⟩

/-- Whole seconds counted back one at a time (R75); none when the count would go back past day 0, second 0 (R76). -/
def countBack (recent : Option Leap) : Nat → DaySec → Option DaySec
  | 0, t => some t
  | n + 1, t =>
    match preceding recent t with
    | some t' => countBack recent n t'
    | none => none

/-- A time of day with the note whether it was clamped (R76). -/
structure CountedBack where
  tod     : TimeOfDay
  clamped : Bool
  deriving DecidableEq, Repr

/-- The dating subtraction (R75): the time of day that lies `amount` nanoseconds before `t`. Past day 0, 00:00:00.000000000 the
result is that instant, clamped (R76). -/
def dateBack (recent : Option Leap) (t : TimeOfDay) (amount : Nat) : CountedBack :=
  let whole := amount / 1000000000
  let rest := amount % 1000000000
  let borrow := if t.nanos < rest then 1 else 0
  match countBack recent (whole + borrow) t.daySec with
  | some d => ⟨⟨d.day, d.sec, t.nanos + borrow * 1000000000 - rest⟩, false⟩
  | none => ⟨⟨0, 0, 0⟩, true⟩

/-- Age in ms and latency in µs as one amount of nanoseconds (R75). -/
def datingAmount (age latency : Nat) : Nat := age * 1000000 + latency * 1000

/-- The elapsed origin of a change: the elapsed value of its first-capture less age and latency, signed and not clamped (R79). -/
def elapsedOrigin (first : Capture) (age latency : Nat) : Int := (first.elapsed : Int) - datingAmount age latency

/-- An operate or proving time from its length in nanoseconds (the table of R80). -/
def reportedTime (nanos : Int) : OperateTime :=
  if nanos < 0 then ⟨0, true⟩
  else if nanos < 65536000000 then ⟨nanos.toNat / 1000000, false⟩
  else ⟨65535, false⟩

/-- The operate or proving time of a change with this origin on a supervision with this command capture, with one latency in µs for
both ends (R79, R80). -/
def operateTime (origin : Int) (command : Capture) (latency : Nat) : OperateTime :=
  reportedTime (origin - ((command.elapsed : Int) + latency * 1000))

end Sys2Proof.Machine
end

