-- ==== Sys2Proof/Machine/Supervision.lean ====
section
/-! DEFINITION. Sys2Proof/Machine/Supervision.lean: the movement supervisor on one element record (Chapter 5). Each event gives
the record it leaves and the records it offers, in order. State codes are those of R32: a point shows 1 NORMAL, 2 REVERSE,
3 NO DETECTION or 4 FAULT, a signal 0 STOP, 1 to 13 proceed, 14 LAMP FAULT or 15 DARK. -/

namespace Sys2Proof.Machine

/-- An accepted change as it is handed to the supervisor and the checker (R36, R85): the element, its old and new states, the
marks FIRST REPORT and AFTER SILENCE, the stamp with its quality and flags, the elapsed origin, and the latency in µs in
force at the acceptance. -/
structure Change where
  element : Nat
  old     : Option Nat
  new     : Nat
  first   : Bool
  silence : Bool
  dated   : Dated
  ageLimit : Bool
  clamped : Bool
  origin  : Int
  latency : Nat
  deriving DecidableEq, Repr

/-- What the supervisor makes of an event: the record as it stands afterwards, and the records offered, in order. -/
structure Supervised where
  element : Element
  offers  : List Offer
  deriving DecidableEq, Repr

/-- A record written from an accepted change takes the change's stamp, quality and stamp flags (R78, R103). -/
def Change.offer (c : Change) (level : Nat) (body : Body) : Offer := ⟨level, c.dated, c.ageLimit, c.clamped, body⟩

/-- A record written from a command takes the capture's time of day and quality (R78, R103). -/
def Capture.offer (c : Capture) (level : Nat) (body : Body) : Offer := ⟨level, c.dated, false, false, body⟩

/-- A code that names an end position of a point: NORMAL or REVERSE. -/
def isEnd (code : Nat) : Bool := code == 1 || code == 2

/-- A proceed aspect of a signal, 1 to 13. -/
def isProceed (code : Nat) : Bool := decide (1 ≤ code) && decide (code ≤ 13)

/-- A record is under supervision in every state except IDLE (R84). -/
def Supervision.active : Supervision → Bool
  | .idle => false
  | _ => true

/-- The target, present in every state except IDLE (R84). -/
def Supervision.target : Supervision → Option Nat
  | .idle => none
  | .commanded t _ _ => some t
  | .travelling t _ _ => some t
  | .ordered t _ _ => some t
  | .overdue t _ => some t
  | .uncommanded t => some t

/-- The deadline, present in COMMANDED, TRAVELLING and ORDERED (R84). -/
def Supervision.deadline : Supervision → Option Nat
  | .commanded _ _ d => some d
  | .travelling _ _ d => some d
  | .ordered _ _ d => some d
  | _ => none

/-! ## Statistics (R106) -/

/-- A completed movement or proving: movements rise, and the time becomes the last and perhaps the largest. -/
def Statistics.completed (x : Statistics) (ms : Nat) : Statistics :=
  { x with movements := raise32 x.movements, lastTime := ms, maxTime := max x.maxTime ms }

/-- A COMPLETED SLOW raises the slow count as well. -/
def Statistics.completedSlow (x : Statistics) (ms : Nat) : Statistics :=
  { x.completed ms with slow := raise16 x.slow }

/-- A failure by deadline raises the fail count. -/
def Statistics.failed (x : Statistics) : Statistics := { x with fails := raise16 x.fails }

/-- The statistics after a supervision closed with an outcome (R106). -/
def Statistics.close (x : Statistics) (outcome : MoveOutcome) (time : Option OperateTime) : Statistics :=
  match outcome, time with
  | .completed, some t => x.completed t.ms
  | .completedSlow, some t => x.completedSlow t.ms
  | .lateDetection, some t => x.completed t.ms
  | .lateProving, some t => x.completed t.ms
  | .failedNotStarted, _ => x.failed
  | .failedNoDetection, _ => x.failed
  | .failed, _ => x.failed
  | _, _ => x

/-! ## Commands (R86 to R88, R96) -/

/-- A point command judged in IDLE (the table of R86). -/
def startPoint (e : Element) (code : Nat) (c : Capture) : Element :=
  let deadline := ns c.elapsed + ms e.loaded.operateLimit
  match e.accepted with
  | none => { e with sup := .commanded code c deadline }
  | some a =>
    if a = code then { e with sup := .idle }
    else if isEnd a then { e with sup := .commanded code c deadline }
    else { e with sup := .travelling code c deadline }

/-- A signal command judged in IDLE (R96). -/
def startSignal (e : Element) (aspect : Nat) (c : Capture) : Element :=
  if e.accepted = some aspect then { e with sup := .idle }
  else { e with sup := .ordered aspect c (ns c.elapsed + ms e.loaded.provingLimit) }

/-- The MOVEMENT OUTCOME record of a supervision closed by a command: the old target and no time (R87, R96). -/
def outcomeOfCommand (i level : Nat) (outcome : MoveOutcome) (target : Nat) (c : Capture) : Offer :=
  c.offer level (.movementOutcome i outcome target none none)

/-- A point command (R86 to R88). -/
def pointCommand (i level : Nat) (e : Element) (code : Nat) (c : Capture) : Supervised :=
  match e.sup with
  | .idle => ⟨startPoint e code c, []⟩
  | .commanded t _ _ =>
    if code = t then ⟨e, []⟩ else ⟨startPoint e code c, [outcomeOfCommand i level .reversed t c]⟩
  | .travelling t _ _ =>
    if code = t then ⟨e, []⟩ else ⟨startPoint e code c, [outcomeOfCommand i level .reversed t c]⟩
  | .overdue t _ =>
    if code = t then ⟨e, []⟩ else ⟨startPoint e code c, [outcomeOfCommand i level .reversed t c]⟩
  | .uncommanded _ => ⟨startPoint e code c, []⟩
  | .ordered _ _ _ => ⟨e, []⟩

/-- A signal command (the table of R96). -/
def signalCommand (i level : Nat) (e : Element) (aspect : Nat) (c : Capture) : Supervised :=
  match e.sup with
  | .idle => ⟨startSignal e aspect c, []⟩
  | .ordered t _ _ =>
    if aspect = t then ⟨e, []⟩ else ⟨startSignal e aspect c, [outcomeOfCommand i level .cancelled t c]⟩
  | .overdue t _ =>
    if aspect = t then ⟨e, []⟩ else ⟨startSignal e aspect c, [outcomeOfCommand i level .superseded t c]⟩
  | .commanded _ _ _ => ⟨e, []⟩
  | .travelling _ _ _ => ⟨e, []⟩
  | .uncommanded _ => ⟨e, []⟩

/-! ## Accepted changes (R89 to R99) -/

/-- A supervision closed by an accepted change: one MOVEMENT OUTCOME record with the target, the new accepted state and the time, the
statistics of R106, and IDLE (R103). -/
def closeByChange (level : Nat) (e : Element) (c : Change) (outcome : MoveOutcome) (target : Nat)
    (time : Option OperateTime) : Supervised :=
  ⟨{ e with sup := .idle, stats := e.stats.close outcome time },
   [c.offer level (.movementOutcome c.element outcome target (some c.new) time)]⟩

/-- A point that reaches its target before the deadline: COMPLETED, or COMPLETED SLOW above the slow threshold (R90). -/
def completePoint (level : Nat) (e : Element) (c : Change) (target : Nat) (command : Capture) : Supervised :=
  let time := operateTime c.origin command c.latency
  closeByChange level e c (if e.loaded.slowThreshold < time.ms then .completedSlow else .completed) target (some time)

/-- An UNCOMMANDED record has level 7 whatever the class level and the override (R105). -/
def uncommandedOffer (c : Change) (occurrence : Occurrence) : Offer := c.offer 7 (.uncommanded c.element occurrence)

/-- An accepted change of a point in IDLE (R94). -/
def pointChangeIdle (e : Element) (c : Change) : Supervised :=
  if c.first || c.silence then ⟨e, []⟩
  else
    match c.old with
    | none => ⟨e, []⟩
    | some old =>
      if isEnd old then
        if c.new = 3 then ⟨{ e with sup := .uncommanded old }, [uncommandedOffer c .lossOfDetection]⟩
        else if isEnd c.new && c.new != old then ⟨e, [uncommandedOffer c .movement]⟩
        else ⟨e, []⟩
      else ⟨e, []⟩

/-- An accepted change of a point, the record already showing the new state (R89 to R95). -/
def pointChange (level : Nat) (e : Element) (c : Change) : Supervised :=
  match e.sup with
  | .idle => pointChangeIdle e c
  | .commanded t command d =>
    if c.new = t then completePoint level e c t command
    else if c.new = 3 then ⟨{ e with sup := .travelling t command d }, []⟩
    else if c.new = 4 then closeByChange level e c .fault t none
    else ⟨e, []⟩
  | .travelling t command _ =>
    if c.new = t then completePoint level e c t command
    else if c.new = 4 then closeByChange level e c .fault t none
    else if isEnd c.new && !c.first then closeByChange level e c .returned t none
    else ⟨e, []⟩
  | .overdue t command =>
    if c.new = t then closeByChange level e c .lateDetection t (some (operateTime c.origin command c.latency))
    else if c.new = 4 then closeByChange level e c .fault t none
    else if isEnd c.new && !c.first then closeByChange level e c .returned t none
    else ⟨e, []⟩
  | .uncommanded held =>
    if c.new = held then ⟨{ e with sup := .idle }, [uncommandedOffer c .detectionRestored]⟩
    else if isEnd c.new then ⟨{ e with sup := .idle }, [uncommandedOffer c .movement]⟩
    else ⟨e, []⟩
  | .ordered _ _ _ => ⟨e, []⟩

/-- The closings of R97 that R98 gives for OVERDUE as well: another proceed aspect against a proceed target, LAMP FAULT, DARK. -/
def signalMiss (level : Nat) (e : Element) (c : Change) (target : Nat) : Supervised :=
  if isProceed target && isProceed c.new then closeByChange level e c .aspectMismatch target none
  else if c.new = 14 ∨ c.new = 15 then closeByChange level e c .lampFault target none
  else ⟨e, []⟩

/-- An accepted change of a signal, the record already showing the new state (R97 to R99). -/
def signalChange (level : Nat) (e : Element) (c : Change) : Supervised :=
  match e.sup with
  | .idle =>
    if c.new = 14 then ⟨e, [c.offer level (.lampFault c.element)]⟩
    else if c.old = some 0 ∧ isProceed c.new = true ∧ c.first = false ∧ c.silence = false then
      ⟨e, [uncommandedOffer c .clearing]⟩
    else ⟨e, []⟩
  | .ordered t command _ =>
    if c.new = t then closeByChange level e c .completed t (some (operateTime c.origin command c.latency))
    else signalMiss level e c t
  | .overdue t command =>
    if c.new = t then closeByChange level e c .lateProving t (some (operateTime c.origin command c.latency))
    else signalMiss level e c t
  | .commanded _ _ _ => ⟨e, []⟩
  | .travelling _ _ _ => ⟨e, []⟩
  | .uncommanded _ => ⟨e, []⟩

/-! ## Deadlines and endings from outside (R91, R98, R100, R101) -/

/-- A record written at an instant of the part's own (R78). -/
def ownOffer (level : Nat) (now : Dated) (body : Body) : Offer := ⟨level, now, false, false, body⟩

/-- A supervision that fails at its deadline goes to OVERDUE, the target and the command capture kept, the fail count raised (R91,
R98). -/
def failSupervision (i level : Nat) (now : Dated) (e : Element) (outcome : MoveOutcome) (target : Nat) (command : Capture) :
    Supervised :=
  ⟨{ e with sup := .overdue target command, stats := e.stats.close outcome none },
   [ownOffer level now (.movementOutcome i outcome target none none)]⟩

/-- The expiry of a record's deadline (R91, R98). -/
def expire (i level : Nat) (now : Dated) (e : Element) : Supervised :=
  match e.sup with
  | .commanded t c _ => failSupervision i level now e .failedNotStarted t c
  | .travelling t c _ => failSupervision i level now e .failedNoDetection t c
  | .ordered t c _ => failSupervision i level now e .failed t c
  | _ => ⟨e, []⟩

/-- A supervision ended from outside, INTERRUPTED or ABANDONED: the target and no time, and IDLE (R100, R101). -/
def endSupervision (i level : Nat) (now : Dated) (e : Element) (outcome : MoveOutcome) : Supervised :=
  match e.sup.target with
  | none => ⟨e, []⟩
  | some t => ⟨{ e with sup := .idle }, [ownOffer level now (.movementOutcome i outcome t none none)]⟩

end Sys2Proof.Machine
end

