-- ==== Sys2Proof/Machine/Checker.lean ====
section
/-! DEFINITION. Sys2Proof/Machine/Checker.lean: the timetable checker: bank time, the open list, the walk, activation and retirement
of banks, the matching of a clearing and its route check (Chapter 6). -/

namespace Sys2Proof.Machine

/-! ## Entries and their windows (R108) -/

/-- The open time: scheduled less early tolerance, not below 0. -/
def Entry.openTime (e : Entry) : Nat := e.scheduled - e.early

/-- The close time: scheduled plus late tolerance, not above 100,799. -/
def Entry.closeTime (e : Entry) : Nat := min 100799 (e.scheduled + e.late)

/-- The element records that an entry names: its signal and the points of its route list (R112). -/
def Entry.names (e : Entry) : List Nat := e.signal :: e.route.map RouteItem.point

/-- Whether a status is final (R108). -/
def EntryStatus.final : EntryStatus → Bool
  | .pending => false
  | .opened => false
  | _ => true

/-- The number of entries of a bank in a status. -/
def Bank.count (x : Bank) (status : EntryStatus) : Nat := x.entries.countP fun e => e.status == status

/-- The entry that a reference names. -/
def State.entry (s : State) (r : EntryRef) : Option Entry := (s.bank r.bank).entries[r.index]?

/-- The state with an entry replaced. -/
def State.setEntry (s : State) (r : EntryRef) (e : Entry) : State :=
  let x := s.bank r.bank
  s.setBank r.bank { x with entries := x.entries.set r.index e }

/-- The bank time of a bank for a day and second; a bank without a start instant is taken as not begun (R109). -/
def State.bankTimeAt (s : State) (b : BankId) (t : DaySec) : Int :=
  match (s.bank b).start with
  | some start => bankTime start t
  | none => -1

/-- The bank time of a bank at the present time of day (R109). -/
def State.bankTimeNow (s : State) (b : BankId) : Int := s.bankTimeAt b s.tb.time.daySec

/-- Whether a bank was activated before the other one (R107). -/
def State.older (s : State) (b c : BankId) : Bool :=
  match (s.bank b).order, (s.bank c).order with
  | some m, some n => decide (m < n)
  | _, _ => false

/-! ## Reference counts (R112) -/

/-- The state with the reference count of one present record changed. -/
def State.adjustRefs (f : Nat → Nat) (s : State) (i : Nat) : State :=
  match s.element i with
  | some e => s.setElement i { e with refs := f e.refs }
  | none => s

/-- An appended entry raises the reference count of every record it names. -/
def State.raiseRefs (s : State) (e : Entry) : State := e.names.foldl (State.adjustRefs raise16) s

/-- An emptied bank lowers the reference counts that its entries raised. -/
def State.lowerRefs (s : State) (entries : List Entry) : State :=
  entries.foldl (fun s e => e.names.foldl (State.adjustRefs fun n => n - 1) s) s

/-- A bank becomes EMPTY: its reference counts are lowered, and its entries, its start instant and its activation order are discarded
(R112, R118). -/
def State.emptyBank (s : State) (b : BankId) : State :=
  (s.lowerRefs (s.bank b).entries).setBank b Bank.afterReset

/-! ## The open list (R122) -/

/-- The order of two references by an instant of their entries: the earlier instant first, then the older bank, then within one bank
the lower index (R122, R123). -/
def State.refBefore (s : State) (instant : Entry → Nat) (x y : EntryRef) : Bool :=
  match s.entry x, s.entry y, (s.bank x.bank).start, (s.bank y.bank).start with
  | some ex, some ey, some sx, some sy =>
    let ix := sx.plus (instant ex)
    let iy := sy.plus (instant ey)
    if ix.before iy then true
    else if iy.before ix then false
    else if x.bank = y.bank then decide (x.index < y.index)
    else s.older x.bank y.bank
  | _, _, _, _ => false

/-- The list with a reference at the place its close instant gives (R122). -/
def State.insertRef (s : State) (r : EntryRef) : List EntryRef → List EntryRef
  | [] => [r]
  | x :: rest => if s.refBefore Entry.closeTime r x then r :: x :: rest else x :: s.insertRef r rest

/-! ## Closing an entry -/

/-- When the last OPEN entry of a RETIRING bank has closed, the bank becomes EMPTY, and a BANK record EMPTIED follows (R118). -/
def State.settleBank (s : State) (b : BankId) : State :=
  if (s.bank b).state = .retiring ∧ (s.bank b).count .opened = 0 then
    (s.emptyBank b).report (.bank b .emptied 0 0)
  else s

/-- The closing of an entry with a final status: its result fields (R108), its leaving the open list (R122), its TIMETABLE RESULT
record (R126, R130), and what that does to a RETIRING bank (R118). -/
def State.closeEntry (s : State) (r : EntryRef) (status : EntryStatus) (dated : Dated) (ageLimit clamped : Bool)
    (result : Option MatchResult) : State :=
  match s.entry r with
  | none => s
  | some e =>
    let s1 := (s.setEntry r { e with status := status, closing := some dated, result := result }).setOpenList
      (s.openList.filter fun x => x != r)
    (s1.offer ⟨s.levelOf .timetable, dated, ageLimit, clamped,
      .timetableResult r.bank r.index e.reference status result⟩).settleBank r.bank

/-- The closing of an entry by an event or request of the part's own (R108, R130). -/
def State.closeOwn (s : State) (r : EntryRef) (status : EntryStatus) : State :=
  s.closeEntry r status s.tb.now false false none

/-! ## The walk (R116, R119 to R122) -/

/-- What an advance gives: the state, the number of entries opened and the number closed as it passed them. -/
structure Walked where
  state  : State
  opened : Nat
  closed : Nat

/-- An entry that the walk opens: OPEN and in the open list, or OPEN LIST FULL when the list holds 256 references (R122). -/
def State.openEntry (s : State) (r : EntryRef) (e : Entry) : State :=
  if s.openList.length < 256 then
    let s1 := s.setEntry r { e with status := .opened }
    s1.setOpenList (s1.insertRef r s1.openList)
  else s.closeOwn r .openListFull

/-- The advance of a bank from its next-to-open position while the next entry's open time is at or below the bank time. It skips entries
that are no longer PENDING; an entry whose close time lies below the bank time closes with the status given, any other opens
(R116, R119). The first argument bounds the number of entries passed. -/
def State.advance (b : BankId) (passed : EntryStatus) : Nat → Walked → Walked
  | 0, w => w
  | n + 1, w =>
    let x := w.state.bank b
    match x.entries[x.nextToOpen]? with
    | none => w
    | some e =>
      let r : EntryRef := ⟨b, x.nextToOpen⟩
      let time := w.state.bankTimeNow b
      if time < e.openTime then w
      else
        let s := w.state.setBank b { x with nextToOpen := x.nextToOpen + 1 }
        if e.status ≠ .pending then State.advance b passed n ⟨s, w.opened, w.closed⟩
        else if e.closeTime < time then State.advance b passed n ⟨s.closeOwn r passed, w.opened, w.closed + 1⟩
        else
          State.advance b passed n
            ⟨s.openEntry r e, if s.openList.length < 256 then w.opened + 1 else w.opened, w.closed⟩

/-- The advance of a whole bank. -/
def State.walkBank (s : State) (b : BankId) (passed : EntryStatus) : Walked :=
  State.advance b passed (s.bank b).entries.length ⟨s, 0, 0⟩

/-- OPEN entries whose windows have passed close MISSED from the head of the open list (R120). -/
def State.closePassed : Nat → State → State
  | 0, s => s
  | n + 1, s =>
    match s.openList with
    | [] => s
    | r :: _ =>
      match s.entry r with
      | none => s
      | some e => if e.closeTime < s.bankTimeNow r.bank then State.closePassed n (s.closeOwn r .missed) else s

/-- The retirement of an ACTIVE bank: PENDING entries close NOT OPENED, the RETIRED record, then RETIRING, or EMPTY at once when no
entry is OPEN (R117, R118). -/
def State.retire (s : State) (b : BankId) : State :=
  let x := s.bank b
  let now := s.tb.now
  let entries := x.entries.map fun e =>
    if e.status = .pending then { e with status := .notOpened, closing := some now } else e
  let s1 := s.setBank b { x with state := .retiring, entries := entries, nextToOpen := x.entries.length }
  (s1.report (.bank b .retired (x.count .pending) (x.count .opened))).settleBank b

/-- The activation of an ARMED bank (R116, steps 1 to 4). -/
def State.activate (s : State) (b : BankId) : State :=
  let s1 := if (s.bank b.other).state = .active then s.retire b.other else s
  let order := (s1.bank b.other).order.getD 0 + 1
  let x := s1.bank b
  let w := (s1.setBank b { x with state := .active, order := some order }).walkBank b .lateActivation
  w.state.report (.bank b .activated w.opened w.closed)

/-- An ARMED bank activates at an event at which its bank time is at or above 0 and the set flag is set (R115). -/
def State.judgeActivation (s : State) (b : BankId) : State :=
  if (s.bank b).state = .armed ∧ 0 ≤ s.bankTimeNow b ∧ s.tb.setFlag = true then s.activate b else s

/-- The advance of a bank that is ACTIVE (R119). -/
def State.walkActive (s : State) (b : BankId) : State :=
  if (s.bank b).state = .active then (s.walkBank b .missed).state else s

/-- End of activity: an ACTIVE bank whose bank time is at or above 100,800 retires (R117). -/
def State.judgeEnd (s : State) (b : BankId) : State :=
  if (s.bank b).state = .active ∧ 100800 ≤ s.bankTimeNow b then s.retire b else s

/-- What the checker does at a second-boundary event or a step event, the time of day being the event's (R115 to R121). -/
def State.walk (s : State) : State :=
  let s1 := bankIds.foldl State.judgeActivation s
  let s2 := bankIds.foldl State.walkActive s1
  let s3 := State.closePassed s2.openList.length s2
  bankIds.foldl State.judgeEnd s3

/-! ## Matching (R123 to R126) -/

/-- How one item of a route list is judged (R125). -/
inductive ItemJudgement where
  | isSet | mismatched | unverified
  deriving DecidableEq, Repr

/-- One item judged against its point record as it stands (R125); an item whose point is not present cannot be verified. -/
def State.judgeItem (s : State) (item : RouteItem) : ItemJudgement :=
  match s.element item.point with
  | none => .unverified
  | some e =>
    if e.stale || e.accepted.isNone || e.sup.active then .unverified
    else if e.accepted = some item.position then .isSet
    else .mismatched

/-- The route result, the mismatch count and the item named (the second table of R125). -/
def routeResult (items : List ItemJudgement) : RouteResult × Nat × Option Nat :=
  let n := items.count .mismatched
  if 0 < n then (.mismatch, n, items.findIdx? (· == .mismatched))
  else if items.contains .unverified then (.unverified, 0, items.findIdx? (· == .unverified))
  else (.ok, 0, none)

/-- The result fields of a MATCHED entry for a change with this stamp (R124, R125). -/
def State.matchResult (s : State) (b : BankId) (e : Entry) (stamp : Stamp) : MatchResult :=
  let time := s.bankTimeAt b ⟨stamp.day, stamp.sec⟩
  let (route, mismatches, item) := routeResult (e.route.map s.judgeItem)
  { deviation := clampInt (-32767) 32767 (time - e.scheduled)
    outside := decide (time < e.openTime) || decide ((e.closeTime : Int) < time)
    route := route
    mismatches := mismatches
    item := item }

/-- Whether a reference is an OPEN entry of this signal (R123). -/
def State.isCandidate (s : State) (signal : Nat) (r : EntryRef) : Bool :=
  match s.entry r with
  | some e => e.signal == signal
  | none => false

/-- The candidate with the earliest scheduled instant (R123). -/
def State.winner (s : State) (signal : Nat) : Option EntryRef :=
  (s.openList.filter (s.isCandidate signal)).foldl
    (fun best r =>
      match best with
      | none => some r
      | some b => if s.refBefore Entry.scheduled r b then some r else some b)
    none

/-- Whether a bank is ACTIVE or RETIRING. -/
def State.running (s : State) (b : BankId) : Bool :=
  (s.bank b).state == .active || (s.bank b).state == .retiring

/-- A signal clearing handed to the checker (R123): the winning entry closes MATCHED; without a candidate an UNSCHEDULED CLEARING is
offered; without a running bank the change is not judged. -/
def State.clearing (s : State) (c : Change) : State :=
  if s.running .bankA || s.running .bankB then
    match s.winner c.element with
    | some r =>
      match s.entry r with
      | some e => s.closeEntry r .matched c.dated c.ageLimit c.clamped (some (s.matchResult r.bank e c.dated.stamp))
      | none => s
    | none => s.offer (c.offer (s.levelOf .timetable) (.unscheduledClearing c.element))
  else s

end Sys2Proof.Machine
end

