-- ==== Sys2Proof/Machine/Codes.lean ====
section
/-! DEFINITION. Sys2Proof/Machine/Codes.lean: the one-octet codes of the tables of R184, R187 and section 10.4, written and read. -/

namespace Sys2Proof.Machine

/-! ## Codes that requests carry: none where the code names nothing of its row -/

/-- Element kinds. -/
def Kind.ofCode : Nat → Option Kind
  | 1 => some .point
  | 2 => some .signal
  | 3 => some .other
  | _ => none

/-- Change selections. A plain `none` would here be the selection NONE. -/
def Selection.ofCode : Nat → Option Selection
  | 0 => some .all
  | 1 => some .toStop
  | 2 => some .toProceed
  | 3 => some .none
  | _ => Option.none

/-- Line rates. -/
def LineRate.ofCode : Nat → Option LineRate
  | 0 => some .k64
  | 1 => some .k128
  | 2 => some .k256
  | 3 => some .k512
  | 4 => some .k1024
  | 5 => some .k2048
  | _ => none

/-- Latch intervals. -/
def LatchInterval.ofCode : Nat → Option LatchInterval
  | 0 => some .manual
  | 1 => some .s1
  | 2 => some .s60
  | 3 => some .s900
  | _ => none

/-- Announcements. A plain `none` would here be the announcement NONE. -/
def Announcement.ofCode : Nat → Option Announcement
  | 0 => some .none
  | 1 => some .insert
  | 2 => some .delete
  | _ => Option.none

/-- Banks. -/
def BankId.ofCode : Nat → Option BankId
  | 0 => some .bankA
  | 1 => some .bankB
  | _ => none

/-- Dial periods. -/
def Period.ofCode : Nat → Option Period
  | 0 => some .p720
  | 1 => some .p1440
  | _ => none

/-- Polarities. -/
def Polarity.ofCode : Nat → Option Polarity
  | 0 => some .positive
  | 1 => some .negative
  | _ => none

/-- The six configurable journal classes; SYSTEM cannot be set (R153). -/
def JournalClass.ofCode : Nat → Option JournalClass
  | 1 => some .state
  | 2 => some .movement
  | 3 => some .timetable
  | 4 => some .link
  | 5 => some .time
  | 6 => some .clock
  | _ => none

/-- A flag octet that must be 0 or 1. -/
def flagOfCode : Nat → Option Bool
  | 0 => some false
  | 1 => some true
  | _ => none

/-- A port number (RANGE above 7). -/
def portOf (o : Byte) : Option PortId := if h : o.toNat < 8 then some ⟨o.toNat, h⟩ else none

/-- A line number, or the number of a window (RANGE above 3). -/
def lineOf (o : Byte) : Option LineId := if h : o.toNat < 4 then some ⟨o.toNat, h⟩ else none

/-! ## Codes that responses and records carry -/

/-- Element kinds. -/
def Kind.code : Kind → Byte
  | .point => 1
  | .signal => 2
  | .other => 3

/-- Change selections. -/
def Selection.code : Selection → Byte
  | .all => 0
  | .toStop => 1
  | .toProceed => 2
  | .none => 3

/-- Qualities. -/
def Quality.code : Quality → Byte
  | .unset => 0
  | .settling => 1
  | .traceable => 2
  | .holdover => 3
  | .degraded => 4

/-- Reasons of refusal. -/
def Reason.code : Reason → Byte
  | .unknown => 1
  | .length => 2
  | .range => 3
  | .kind => 4
  | .order => 5
  | .overlap => 6
  | .busy => 7
  | .inUse => 8
  | .state => 9

/-- Port states. -/
def PortState.code : PortState → Byte
  | .initialising => 0
  | .bypass => 1
  | .joining => 2
  | .inline => 3
  | .leaving => 4

/-- Line rates. -/
def LineRate.code : LineRate → Byte
  | .k64 => 0
  | .k128 => 1
  | .k256 => 2
  | .k512 => 3
  | .k1024 => 4
  | .k2048 => 5

/-- Latch intervals. -/
def LatchInterval.code : LatchInterval → Byte
  | .manual => 0
  | .s1 => 1
  | .s60 => 2
  | .s900 => 3

/-- Loop states. -/
def LoopState.code : LoopState → Byte
  | .free => 0
  | .acquiring => 1
  | .locked => 2
  | .holdover => 3

/-- Announcements. -/
def Announcement.code : Announcement → Byte
  | .none => 0
  | .insert => 1
  | .delete => 2

/-- Leap kinds. -/
def LeapKind.code : LeapKind → Byte
  | .insert => 1
  | .delete => 2

/-- Supervision states. -/
def Supervision.code : Supervision → Byte
  | .idle => 0
  | .commanded .. => 1
  | .travelling .. => 2
  | .ordered .. => 3
  | .overdue .. => 4
  | .uncommanded .. => 5

/-- Banks. -/
def BankId.code : BankId → Byte
  | .bankA => 0
  | .bankB => 1

/-- Bank states. -/
def BankState.code : BankState → Byte
  | .empty => 0
  | .loading => 1
  | .armed => 2
  | .active => 3
  | .retiring => 4

/-- Entry statuses. -/
def EntryStatus.code : EntryStatus → Byte
  | .pending => 0
  | .opened => 1
  | .matched => 2
  | .missed => 3
  | .lateActivation => 4
  | .openListFull => 5
  | .notOpened => 6
  | .cancelled => 7

/-- Route results; 3 stands for not applicable. -/
def RouteResult.code : RouteResult → Nat
  | .ok => 0
  | .mismatch => 1
  | .unverified => 2

/-- Line states. -/
def LineState.code : LineState → Byte
  | .unset => 0
  | .running => 1
  | .catchingUp => 2
  | .waiting => 3
  | .halted => 4
  | .fault => 5

/-- Dial periods. -/
def Period.code : Period → Byte
  | .p720 => 0
  | .p1440 => 1

/-- Polarities. -/
def Polarity.code : Polarity → Byte
  | .positive => 0
  | .negative => 1

/-- Fault kinds; 0 stands for absent. -/
def faultCode : Option FaultKind → Byte
  | none => 0
  | some .opened => 1
  | some .short => 2

/-- Reset causes of IDENTIFY and RECORDING START. -/
def StartCause.code : StartCause → Byte
  | .powerUp => 1
  | .resetPin => 2
  | .tablesReset => 3

/-- The cause of a device reset as a RECORDING START record carries it (R166). -/
def ResetCause.startCause : ResetCause → StartCause
  | .powerUp => .powerUp
  | .resetPin => .resetPin

/-- Directions in a LINK CONDITION record. -/
def directionCode : Direction → Byte
  | .down => 0
  | .up => 1

/-- Conditions in a LINK CONDITION record. -/
def LinkCondition.code : LinkCondition → Byte
  | .lossOfSignal => 1
  | .silent => 2
  | .errorRate => 3

/-- Outcomes of a MOVEMENT OUTCOME record (R187). -/
def MoveOutcome.code : MoveOutcome → Byte
  | .completed => 1
  | .completedSlow => 2
  | .lateDetection => 3
  | .lateProving => 4
  | .returned => 5
  | .fault => 6
  | .aspectMismatch => 7
  | .lampFault => 8
  | .reversed => 9
  | .cancelled => 10
  | .superseded => 11
  | .failedNotStarted => 12
  | .failedNoDetection => 13
  | .failed => 14
  | .interrupted => 15
  | .abandoned => 16

/-- Occurrences of an UNCOMMANDED record. -/
def Occurrence.code : Occurrence → Byte
  | .lossOfDetection => 1
  | .detectionRestored => 2
  | .movement => 3
  | .clearing => 4

/-- Events of a BANK record. -/
def BankEvent.code : BankEvent → Byte
  | .activated => 1
  | .retired => 2
  | .emptied => 3
  | .abandoned => 4
  | .tablesReset => 5

/-- Events of a TIMEBASE record. -/
def TimebaseEvent.code : TimebaseEvent → Byte
  | .set => 1
  | .step => 2
  | .lock => 3
  | .lockLost => 4
  | .holdover => 5
  | .degraded => 6
  | .degradedCleared => 7
  | .back => 8
  | .relock => 9
  | .leapInsert => 10
  | .leapDelete => 11
  | .leapDiscarded => 12

/-- Events of a CLOCK LINE record. -/
def LineEvent.code : LineEvent → Byte
  | .faultRaised => 1
  | .faultCleared => 2
  | .waitBegun => 3
  | .waitEnded => 4
  | .catchUpBegun => 5
  | .catchUpEnded => 6
  | .halted => 7
  | .run => 8
  | .positionSet => 9
  | .unset => 10

/-- A response's status, and after it the reason or the data (section 10.3, R173). -/
def Reply.octets : Reply → List Byte
  | .done data => 0 :: data
  | .adjusted data => 1 :: data
  | .refused reason => [2, reason.code]

/-- The service address of the part: 4032 plus the value of the SADDR straps (R169). -/
def serviceAddress (t : Straps) : Nat := 4032 + t.saddr.toNat

/-- The two octets of a telegram header: kind and address (section 10.2). -/
def headerOctets (kind address : Nat) : List Byte :=
  [BitVec.ofNat 8 (16 * kind + address / 256), BitVec.ofNat 8 (address % 256)]

/-- The octets of a response before the check: header, code, tag, status and what follows it (section 10.3). -/
def responseOctets (t : Straps) (r : Response) : List Byte :=
  headerOctets 12 (serviceAddress t) ++ [r.code, r.tag] ++ r.reply.octets

end Sys2Proof.Machine
end

