-- ==== Sys2Proof/Machine/Relay.lean ====
section
/-! DEFINITION. Sys2Proof/Machine/Relay.lean: a port as a relay, bit time by bit time: the 40-bit delay of each direction, the
insertion of responses and the insertion buffer (sections 1.3 and 1.4). A bit time of a direction passes with each bit that
arrives in it (log entry 5). -/

namespace Sys2Proof.Machine

/-- Whether the port forwards and takes service telegrams: INLINE or LEAVING, outside a relay transfer (R13, R14). -/
def Port.forwards (x : Port) : Bool := (x.state == .inline || x.state == .leaving) && x.transferEnd.isNone

/-- The UP insertion backlog in bits (R16, R17). -/
def Port.backlog (x : Port) : Nat := x.held.length

/-! ## Bits on the line (section 1.1) -/

/-- The eight bit times of an opening flag. -/
def openingBits : List LineBit := List.replicate 8 .opening

/-- The eight bit times of a closing flag. -/
def closingBits : List LineBit := List.replicate 8 .closing

/-- The seven ones of an abort; they are marks on the line (section 1.1). -/
def abortBits : List LineBit := List.replicate 7 .mark

/-- The line bits of content that follows other content of its frame, with the inserted zeros. -/
def contentBits (before bits : List Bool) : List LineBit :=
  ((stuff 0 (before ++ bits)).drop (stuff 0 before).length).map .content

/-- A frame with this content as the part sends it, flags and inserted zeros included (R16). -/
def frameBits (content : List Bool) : List LineBit := openingBits ++ contentBits [] content ++ closingBits

/-- The bit times of flags sent since the last frame, or since forwarding began (log entry 44), after one more bit: a frame begins with
its opening flag (R16). -/
def flagsAfter (n : Nat) : LineBit → Nat
  | .flag => min 16 (n + 1)
  | .mark => n
  | .opening => 0
  | .content _ => 0
  | .closing => 0

/-- The marks of a run after one more bit, held at the seven of an abort. -/
def marksAfter (n : Nat) : LineBit → Nat
  | .mark => min 7 (n + 1)
  | _ => 0

/-! ## One bit time (R13, R16, R17) -/

/-- Whether a bit that comes out of the UP delay is one of an opening flag that the insertion buffer leaves out. R17 stores a frame with one
separating flag before it, and does not say which where the frame before has a closing flag and this one an opening flag of its own. A closing
flag that stands whole at the tail of the buffer is the separating flag, and the opening flag behind it is left out, from its first bit to its
last; where some of that closing flag has been sent already, the opening flag is stored whole (DESIGN CHOICE, log entry 48). -/
def Port.skips (x : Port) (b : LineBit) : Bool := b == .opening && (x.skipping || closingBits.isSuffixOf x.held)

/-- Whether the insertion buffer stores a bit that comes out of the UP delay while it is in use (R16, R17): a frame with one
separating flag before it, which one being log entry 48 (DESIGN CHOICE); an abort or a run of marks behind a stored frame as one abort; no other idle. -/
def Port.stores (x : Port) : LineBit → Bool
  | .content _ => true
  | .closing => true
  | .opening => !x.skips .opening
  | .mark => !x.held.isEmpty && decide (x.markRun < 7)
  | .flag => false

/-- The bit stored at the tail of the buffer, or left out. -/
def Port.kept (x : Port) (b : LineBit) : List LineBit := if x.stores b then [b] else []

/-- One bit is sent on the centre side. -/
def Port.sendCentre (x : Port) (b : LineBit) : Port :=
  { x with toCentre := x.toCentre ++ [b], upFlags := flagsAfter x.upFlags b }

/-- One UP bit time as a bit comes out of the delay: the output takes the next bit of a response that is going out, or else the
oldest bit of the buffer, and the bit from the delay joins the buffer; with neither, that bit is sent (R13, R16, R17). -/
def Port.relayUp (x : Port) (b : LineBit) : Port :=
  let x1 : Port := { x with markRun := marksAfter x.markRun b, skipping := x.skips b }
  match x.sending, x.held with
  | r :: rest, _ => { x1 with sending := rest, held := x.held ++ x.kept b }.sendCentre r
  | [], h :: rest => { x1 with held := rest ++ x.kept b }.sendCentre h
  | [], [] => x1.sendCentre b

/-- A bit arrives from the field, and the one that arrived 40 bit times before comes out of the delay (R13). -/
def Port.upBit (x : Port) (b : LineBit) : Port :=
  match x.upDelay with
  | [] => x.relayUp b
  | out :: rest => { x with upDelay := rest ++ [b] }.relayUp out

/-- A bit arrives from the centre, and the one that arrived 40 bit times before leaves on the field side (R13). -/
def Port.downBit (x : Port) (b : LineBit) : Port :=
  match x.downDelay with
  | [] => { x with toField := x.toField ++ [b] }
  | out :: rest => { x with downDelay := rest ++ [b], toField := x.toField ++ [out] }

/-- The last 40 of the bits that have arrived: those of the delay (R13). -/
def lastForty (bits : List LineBit) : List LineBit := bits.drop (bits.length - 40)

/-- Bits that arrive before forwarding has begun fill the delay, and none leaves (R10, R13). -/
def Port.fill (x : Port) (d : Direction) (bits : List LineBit) : Port :=
  match d with
  | .down => { x with downDelay := lastForty (x.downDelay ++ bits) }
  | .up => { x with upDelay := lastForty (x.upDelay ++ bits) }

/-- Bits of one direction arrive; a port that does not forward sends nothing itself (R8, R13), and in JOINING they fill the delays. -/
def Port.arrive (x : Port) (d : Direction) (bits : List LineBit) : Port :=
  if x.forwards then
    match d with
    | .down => bits.foldl Port.downBit x
    | .up => bits.foldl Port.upBit x
  else if x.state = .joining then x.fill d bits
  else x

/-- The last `n` bits of a delay, before any of them has left, each turned into another. -/
def turnTail (f : LineBit → LineBit) (n : Nat) (delay : List LineBit) : List LineBit :=
  delay.take (delay.length - n) ++ (delay.drop (delay.length - n)).map f

/-- The last `n` bits that arrived in a direction, each turned into another. -/
def Port.turn (x : Port) (d : Direction) (f : LineBit → LineBit) (n : Nat) : Port :=
  match d with
  | .down => { x with downDelay := turnTail f n x.downDelay }
  | .up => { x with upDelay := turnTail f n x.upDelay }

/-- A bit of a flag of idle is one of an opening flag once a frame follows it (R5). -/
def LineBit.asOpening : LineBit → LineBit
  | .flag => .opening
  | b => b

/-- A bit taken from a frame becomes one of a flag; the closing flag of the frame before stays (R5, R14). -/
def LineBit.asFlag : LineBit → LineBit
  | .closing => .closing
  | _ => .flag

/-- The last `n` bits that arrived in a direction become flags (R5, R14). -/
def Port.blank (x : Port) (d : Direction) (n : Nat) : Port := x.turn d LineBit.asFlag n

/-- Whether a bit is one of idle. -/
def LineBit.isIdle : LineBit → Bool
  | .flag => true
  | .mark => true
  | .opening => false
  | .content _ => false
  | .closing => false

/-- The idle at the end of what has arrived: what follows the last bit of a frame. -/
def idleTail (bits : List LineBit) : List LineBit := (bits.reverse.takeWhile LineBit.isIdle).reverse

/-- A quiet run has completed in JOINING: it is longer than the delay, so that the delays hold idle alone (R10, log entry 5). -/
def Port.idleDelays (x : Port) : Port := { x with downDelay := idleTail x.downDelay, upDelay := idleTail x.upDelay }

/-- The idle on which a line stood before the bits that were reported: marks when the first of them is a mark, flags otherwise. -/
def idleBefore (bits : List LineBit) : LineBit := if bits.head? = some .mark then .mark else .flag

/-- A delay of 40 bit times whose last bits are these; the line idled before them (log entry 5). -/
def fullDelay (bits : List LineBit) : List LineBit := List.replicate (40 - bits.length) (idleBefore bits) ++ bits

/-- Forwarding begins: the delays hold what arrived in the last 40 bit times (R10, R13). R16 counts flags since the last frame that the
port sent; of a port that has sent none since it came INLINE it says nothing. The count then starts at 0 with the forwarding (DESIGN
CHOICE, log entry 44). -/
def Port.startRelay (x : Port) : Port :=
  { x with
    downDelay := fullDelay x.downDelay
    upDelay := fullDelay x.upDelay
    upFlags := 0
    markRun := 0
    skipping := false }

/-- Forwarding ends after a quiet run, which is longer than the delay: what arrived before it has left (R11, log entry 5). The count of
flags ends with it (DESIGN CHOICE, log entry 44). -/
def Port.endRelay (x : Port) : Port :=
  { x with
    toField := x.toField ++ x.downDelay
    toCentre := x.toCentre ++ x.upDelay
    downDelay := []
    upDelay := []
    upFlags := 0
    markRun := 0
    skipping := false }

/-- UP bit times of idle until a condition holds, at most so many (log entry 5). -/
def Port.idleUntil (idle : LineBit) (stop : Port → Bool) : Nat → Port → Port
  | 0, x => x
  | n + 1, x => if stop x then x else Port.idleUntil idle stop n (x.upBit idle)

/-- Time runs on the UP line, which idles, until a condition holds; a frame in reception, and content outside one, bring their own
bits (log entry 5). After 700 bit times every bit in the delay and the buffer has left, and 16 bit times of flags have followed. -/
def Port.awaitUp (x : Port) (idle : LineBit) (stop : Port → Bool) : Port :=
  if x.upRx.opening.isNone && x.upRx.stray.isEmpty && x.forwards then x.idleUntil idle stop 700 else x

/-! ## Responses (R15, R16) -/

/-- A response offered to the port's queue joins it or is discarded (R15). -/
def Port.queueResponse (x : Port) (r : Response) : Port :=
  if x.forwards && decide (x.responses.length < 4) then { x with responses := x.responses ++ [r] }
  else x.countPort fun c => { c with respDiscarded := raise32 c.respDiscarded }

/-- Whether the three conditions of an insertion hold, and none is under way (R16). -/
def Port.mayInsert (x : Port) : Bool :=
  x.forwards && !x.responses.isEmpty && x.inserting.isNone && x.held.isEmpty && decide (16 ≤ x.upFlags)

/-- Whether an insertion only waits for the backlog and for flags. -/
def Port.insertionWaits (x : Port) : Bool := x.forwards && !x.responses.isEmpty && x.inserting.isNone

/-- The content of the frame that carries a response. -/
def responseContent (t : Straps) (r : Response) : List Bool := contentOf (responseOctets t r)

/-- The head response leaves the queue and its insertion begins (R16). -/
def Port.beginInsertion (x : Port) (t : Straps) : Port :=
  match x.responses with
  | r :: rest => { x with responses := rest, inserting := some r, sending := frameBits (responseContent t r) }
  | [] => x

/-- Whether the closing flag of the response in insertion has been sent. -/
def Port.insertionDone (x : Port) : Bool := x.inserting.isSome && x.sending.isEmpty

/-- The insertion ends: responses inserted rises (R16). -/
def Port.endInsertion (x : Port) : Port :=
  { x.countPort fun c => { c with inserted := raise32 c.inserted } with inserting := none }

end Sys2Proof.Machine
end

