-- ==== Sys2Proof/Machine/Ports.lean ====
section
/-! DEFINITION. Sys2Proof/Machine/Ports.lean: the port units: link conditions and error-rate seconds (section 1.6), the latching of
counters (section 1.8), quiet runs and relay transfers (R10, R11). -/

namespace Sys2Proof.Machine

/-- The two directions, DOWN first. -/
def directions : List Direction := [.down, .up]

/-! ## Link conditions and error-rate seconds -/

/-- The receiver with one link condition raised or cleared. -/
def Receiver.setCondition (x : Receiver) (c : LinkCondition) (raised : Bool) : Receiver :=
  match c with
  | .lossOfSignal => { x with los := raised }
  | .silent => { x with silent := raised, silentSeen := x.silentSeen || raised }
  | .errorRate => { x with errorRate := raised, cleanRun := if raised then 0 else x.cleanRun }

/-- A link condition raised or cleared, with its LINK CONDITION record (section 1.6). -/
def State.setCondition (s : State) (p : PortId) (d : Direction) (c : LinkCondition) (raised : Bool) : State :=
  let x := s.port p
  (s.setPort p (x.setRx d ((x.rx d).setCondition c raised))).report (.linkCondition p d c raised)

/-- The run of clean seconds after a second with this count (R21): it stops at the 10 that the clearing asks for. -/
def Receiver.runAfter (x : Receiver) (threshold : Nat) : Nat :=
  if x.checkFails < threshold ∧ x.reached = false then min 10 (x.cleanRun + 1) else 0

/-- The error-rate second of one direction ends (R21): errored and silent seconds rise, the count restarts, and ERROR RATE clears
after a run of 10 clean seconds. -/
def State.endSecond (s : State) (pd : PortId × Direction) : State :=
  let x := s.port pd.1
  let r := x.rx pd.2
  let run := r.runAfter x.errorThreshold
  let counted := x.countDir pd.2 fun c =>
    { c with
      errored := if 0 < r.checkFails then raise32 c.errored else c.errored
      silentSecs := if r.silentSeen then raise32 c.silentSecs else c.silentSecs }
  let s1 := s.setPort pd.1 (counted.setRx pd.2
    { r with checkFails := 0, reached := false, cleanRun := run, silentSeen := r.silent })
  if r.errorRate ∧ run = 10 then s1.setCondition pd.1 pd.2 .errorRate false else s1

/-- Every receiver of the part. R168 lets records of one event be offered in any order; P0 to P7, DOWN ahead of UP, is a DESIGN CHOICE
(log entry 41). -/
def receivers : List (PortId × Direction) := portIds.flatMap fun p => directions.map fun d => (p, d)

/-- The error-rate seconds of all ports end (R21). -/
def State.endSeconds (s : State) : State := receivers.foldl State.endSecond s

/-! ## JOINING milliseconds and the latch (R10, R24) -/

/-- The JOINING milliseconds counter brought up to an elapsed instant: one for every whole millisecond since the entry (R10). -/
def Port.creditJoining (x : Port) (now : Nat) : Port :=
  match x.joinSince with
  | some t =>
    let whole := (now - t) / ms 1
    { x.countPort fun c => { c with joiningMs := saturate 4294967295 c.joiningMs (whole - x.joinCredited) } with
      joinCredited := whole }
  | none => x

/-- The live counters become the latched set and restart at zero (R24). -/
def Port.latch (x : Port) (now : Nat) : Port :=
  let x' := x.creditJoining now
  { x' with latched := x'.live, live := Counters.zero }

/-- A latch of all ports, and the next latch sequence number (R24). -/
def State.latch (s : State) : State :=
  { s with
    ports := s.ports.mapIdx fun _ x => x.latch s.tb.instant
    latchSeq := s.latchSeq + 1 }

/-- The latch interval in seconds; none for MANUAL. -/
def LatchInterval.seconds : LatchInterval → Option Nat
  | .manual => none
  | .s1 => some 1
  | .s60 => some 60
  | .s900 => some 900

/-- The latch that a second-boundary event makes when the new second of day is a whole multiple of the interval (R24). -/
def State.latchAt (s : State) (sec : Nat) : State :=
  match s.latchInterval.seconds with
  | some n => if sec % n = 0 then s.latch else s
  | none => s

/-! ## Quiet runs and relay transfers (R10, R11) -/

/-- Whether a frame is being received: content has followed its opening flag. Two flags back to back are idle (R5). -/
def Receiver.inFrame (x : Receiver) : Bool := x.opening.any fun o => !o.content.isEmpty

/-- Whether a line is idle, in flags or in marks: neither a frame in reception nor content outside one (R10, log entry 3). -/
def Receiver.idle (x : Receiver) : Bool := !x.inFrame && x.stray.isEmpty

/-- Whether both directions are idle (R10, R11). -/
def Port.idle (x : Port) : Bool := x.downRx.idle && x.upRx.idle

/-- Whether the conditions of a quiet run hold: in JOINING, both directions idle (R10); in LEAVING, the response queue empty and the
UP backlog zero as well (R11); neither during the transfer. While a response is being inserted the run of LEAVING does not hold either:
R11 has the answer to LEAVE inserted before the run can begin, so the run begins behind its closing flag (DEDUCED, log entry 47). -/
def Port.quietHolds (x : Port) : Bool :=
  match x.state with
  | .joining => x.transferEnd.isNone && x.idle
  | .leaving => x.transferEnd.isNone && x.idle && x.responses.isEmpty && x.inserting.isNone && x.held.isEmpty
  | _ => false

/-- The quiet run at an elapsed instant: it goes on or begins while its conditions hold, and ends otherwise. -/
def Port.requiet (x : Port) (now : Nat) : Port :=
  { x with quietSince := if x.quietHolds then some (x.quietSince.getD now) else none }

/-- Whether the quiet run has lasted one whole quiet interval (R10, R11). After a flag that may yet open a frame the transfer waits for
what follows, since no frame is in progress when it starts (R12, log entry 3). -/
def Port.quietDone (x : Port) (now : Nat) : Bool :=
  match x.quietSince with
  | some t => x.downRx.opening.isNone && x.upRx.opening.isNone && decide (t + ms x.quiet ≤ now)
  | none => false

/-- The relay transfer begins: it takes 5 ms; RELAY is asserted in JOINING and released in LEAVING (R10, R11), where the port
forwards no longer. -/
def Port.beginTransfer (x : Port) (now : Nat) : Port :=
  { if x.forwards then x.endRelay else x.idleDelays with
    transferEnd := some (now + ms 5), relay := x.state == .joining, quietSince := none }

/-- JOINING is entered (R9, R7). -/
def Port.enterJoining (x : Port) (now : Nat) : Port :=
  let x' : Port := { x with state := .joining, joinSince := some now, joinCredited := 0, quietSince := none }
  x'.requiet now

/-- The transfer ends: a JOINING port becomes INLINE and forwards from then on, a LEAVING one enters BYPASS (R10, R11). -/
def Port.endTransfer (x : Port) (now : Nat) : Port :=
  match x.state with
  | .joining =>
    { (x.creditJoining now).startRelay with state := .inline, transferEnd := none, joinSince := none, joinCredited := 0 }
  | .leaving => { x with state := .bypass, transferEnd := none }
  | _ => x

end Sys2Proof.Machine
end

