-- ==== Sys2Proof/Machine/Tracker.lean ====
section
/-! DEFINITION. Sys2Proof/Machine/Tracker.lean: the element tracker: address windows, state codes, the confirmation filter,
acceptance, commands, stale marking, and the interpretation of telegrams (Chapter 2, section 1.5). -/

namespace Sys2Proof.Machine

/-! ## Windows (R26) -/

/-- One window of a port. -/
def State.window (s : State) (p : PortId) (w : LineId) : Window := (s.windows.get p).get w

/-- The state with one window replaced. -/
def State.setWindow (s : State) (p : PortId) (w : LineId) (x : Window) : State :=
  { s with windows := s.windows.set p ((s.windows.get p).set w x) }

/-- A window is open when its base is at or below its limit. -/
def Window.isOpen (w : Window) : Bool := decide (w.base ≤ w.limit)

/-- Whether an open window holds a link address. -/
def Window.holds (w : Window) (a : Nat) : Bool := w.isOpen && decide (w.base ≤ a) && decide (a ≤ w.limit)

/-- The last index of the index range of an open window. -/
def Window.lastIndex (w : Window) : Nat := w.tableBase + (w.limit - w.base)

/-- Whether the index range of an open window contains an index. -/
def Window.contains (w : Window) (i : Nat) : Bool := w.isOpen && decide (w.tableBase ≤ i) && decide (i ≤ w.lastIndex)

/-- The record that an address reaches through a port's open windows; none when no open window holds the address (R29). -/
def State.decodeAddress (s : State) (p : PortId) (a : Nat) : Option Nat :=
  (lineIds.find? fun w => (s.window p w).holds a).map fun w =>
    (s.window p w).tableBase + (a - (s.window p w).base)

/-- The mapping of a record: the port, the window and the link address of the open window that contains it. -/
structure Mapping where
  port    : PortId
  window  : LineId
  address : Nat
  deriving DecidableEq, Repr

/-- Every window of the part by its port and number. -/
def windowIds : List (PortId × LineId) := portIds.flatMap fun p => lineIds.map fun w => (p, w)

/-- The mapping of a record, or none when it is unmapped (R26). -/
def State.mapping (s : State) (i : Nat) : Option Mapping :=
  (windowIds.find? fun x => (s.window x.1 x.2).contains i).map fun x =>
    ⟨x.1, x.2, (s.window x.1 x.2).base + (i - (s.window x.1 x.2).tableBase)⟩

/-- Whether UP SILENT stands raised on the port of a record; an unmapped record has no port (R30). -/
def State.silentPortOf (s : State) (i : Nat) : Bool :=
  match s.mapping i with
  | some m => (s.port m.port).upRx.silent
  | none => false

/-! ## State codes (R32, R37) -/

/-- A reported code as a defined state of the kind, and whether the code is undefined (the table of R32). -/
def mapCode (kind : Kind) (code : Nat) : Nat × Bool :=
  match kind with
  | .point => if 1 ≤ code ∧ code ≤ 4 then (code, false) else (4, true)
  | .signal => if code ≤ 15 then (code, false) else (14, true)
  | .other => (code, false)

/-- Whether a command code is in the command set of the kind (R37). -/
def inCommandSet (kind : Kind) (code : Nat) : Bool :=
  match kind with
  | .point => isEnd code
  | .signal => decide (code ≤ 13)
  | .other => true

/-! ## Records written for elements -/

/-- The state with a supervised record stored and the supervisor's records offered in order (R85). -/
def State.applySupervised (s : State) (i : Nat) (r : Supervised) : State :=
  r.offers.foldl State.offer (s.setElement i r.element)

/-! ## The confirmation filter and acceptance (R33 to R36) -/

/-- A report as it reaches a record: the code, the age in ms with its AGE LIMIT mark (R73), and the capture. -/
structure Report where
  code     : Nat
  age      : Nat
  ageLimit : Bool
  capture  : Capture
  deriving DecidableEq, Repr

/-- The candidate that a report starts or carries on (R33). -/
def nextCandidate (e : Element) (mapped : Nat) (undef : Bool) (r : Report) : Candidate :=
  let started : Candidate := ⟨mapped, 1, r.capture, r.age, r.ageLimit, undef, e.stale⟩
  match e.candidate with
  | some c =>
    if c.state = mapped then { c with count := c.count + 1, undefinedCode := c.undefinedCode || undef } else started
  | none => started

/-- Whether an accepted change is selected for a STATE CHANGE record (R35). -/
def selects (e : Element) (old : Option Nat) (new : Nat) : Bool :=
  match old with
  | none => true
  | some o =>
    match e.loaded.selection with
    | .all => true
    | .toStop => new == 0
    | .toProceed => o == 0 && isProceed new
    | .none => false

/-- The record after the acceptance of a candidate, and the change as it is handed on (R34, R36). The latency is the port's, in µs, in
force at the acceptance (R74); the most recent leap second is read then too (R75). -/
def acceptCandidate (recent : Option Leap) (latency i : Nat) (e : Element) (c : Candidate) : Element × Change :=
  let back := dateBack recent c.firstCapture.tod (datingAmount c.age latency)
  let dated : Dated := ⟨back.tod.stamp, c.firstCapture.quality⟩
  ({ e with accepted := some c.state, lastChange := some dated, stale := false, candidate := none },
   { element := i, old := e.accepted, new := c.state, first := e.accepted.isNone, silence := c.afterSilence,
     dated := dated, ageLimit := c.ageLimit, clamped := back.clamped,
     origin := elapsedOrigin c.firstCapture c.age latency, latency := latency })

/-- The STATE CHANGE record of a change (R35). -/
def stateChange (c : Change) (undef : Bool) : Body :=
  .stateChange c.element c.old c.new c.first c.silence undef

/-- The movement supervisor takes an accepted change of a POINT or SIGNAL record (R36). -/
def State.superviseChange (s : State) (e : Element) (c : Change) : State :=
  let level := s.elementLevel e .movement
  match e.loaded.kind with
  | .point => s.applySupervised c.element (pointChange level e c)
  | .signal => s.applySupervised c.element (signalChange level e c)
  | .other => s

/-- Whether a change goes to the timetable checker: a timetabled signal from STOP to a proceed aspect (R36). -/
def isClearing (e : Element) (c : Change) : Bool :=
  e.loaded.kind == .signal && e.loaded.timetabled && c.old == some 0 && isProceed c.new

/-- A candidate is accepted: the record, the STATE CHANGE record, then the supervisor, then the checker (R34 to R36). -/
def State.accept (s : State) (p : PortId) (i : Nat) (e : Element) (k : Candidate) : State :=
  let (e', c) := acceptCandidate s.tb.recentLeap (s.port p).latency i e k
  let s1 := s.setElement i e'
  let s2 := if selects e' c.old c.new then s1.offer (c.offer (s1.elementLevel e' .state) (stateChange c k.undefinedCode)) else s1
  let s3 := s2.superviseChange e' c
  if isClearing e' c then s3.clearing c else s3

/-- A STATUS or CYCLIC telegram reaches a present record (R33, R34, R39). -/
def State.takeReport (s : State) (p : PortId) (i : Nat) (e : Element) (r : Report) : State :=
  let (mapped, undef) := mapCode e.loaded.kind r.code
  let e1 := { e with undefinedSeen := e.undefinedSeen || undef }
  if e1.accepted = some mapped then
    s.setElement i { e1 with
      stale := false
      candidate := none
      stats := if e1.candidate.isSome then { e1.stats with flicker := raise16 e1.stats.flicker } else e1.stats }
  else
    let k := nextCandidate e1 mapped undef r
    if e1.loaded.confirm ≤ k.count then s.accept p i e1 k else s.setElement i { e1 with candidate := some k }

/-! ## Commands (R37) -/

/-- A COMMAND telegram reaches a present record (R37). -/
def State.takeCommand (s : State) (i : Nat) (e : Element) (code : Nat) (c : Capture) : State :=
  let known := inCommandSet e.loaded.kind code
  let e1 := { e with undefinedSeen := e.undefinedSeen || !known, lastCommand := some code }
  let s1 := s.setElement i e1
  let s2 :=
    if e.loaded.dateCommands && e.lastCommand != some code then
      s1.offer (c.offer (s1.elementLevel e1 .state) (.commandSeen i code e.stale !known))
    else s1
  if known && !e.stale then
    let level := s2.elementLevel e1 .movement
    match e.loaded.kind with
    | .point => s2.applySupervised i (pointCommand i level e1 code c)
    | .signal => s2.applySupervised i (signalCommand i level e1 code c)
    | .other => s2
  else s2

/-! ## Telegrams (R18, R29, R73, R185) -/

/-- The port's unmapped telegrams counter for the direction rises (R29). -/
def State.countUnmapped (s : State) (p : PortId) (d : Direction) : State :=
  s.setPort p ((s.port p).countDir d fun c => { c with unmapped := raise32 c.unmapped })

/-- The port's misdirected telegrams counter for the direction rises (R18). -/
def State.countMisdirected (s : State) (p : PortId) (d : Direction) : State :=
  s.setPort p ((s.port p).countDir d fun c => { c with misdirected := raise32 c.misdirected })

/-- The telegram kind in octet 0 (section 10.2). -/
def telegramKind (octets : List Byte) : Nat := (octets.getD 0 0).toNat / 16

/-- The address in octets 0 and 1 (section 10.2). -/
def telegramAddress (octets : List Byte) : Nat := (octets.getD 0 0).toNat % 16 * 256 + (octets.getD 1 0).toNat

/-- The age of a STATUS telegram with its AGE LIMIT mark; an absent age is 0 ms (R73, R185). The octets are those before the check. -/
def telegramAge (octets : List Byte) : Nat × Bool :=
  if 5 ≤ octets.length ∧ 128 ≤ (octets.getD 3 0).toNat then
    let age := (octets.getD 3 0).toNat % 16 * 256 + (octets.getD 4 0).toNat
    (age, age == 4095)
  else (0, false)

/-- The record that a telegram of a port reaches: one that an open window maps and that is present (R29). -/
def State.reach (s : State) (p : PortId) (a : Nat) : Option (Nat × Element) :=
  match s.decodeAddress p a with
  | some i => (s.element i).map fun e => (i, e)
  | none => none

/-- A STATUS or CYCLIC telegram handed to the tracker (R29). -/
def State.trackReport (s : State) (p : PortId) (a : Nat) (r : Report) : State :=
  match s.reach p a with
  | some (i, e) => s.takeReport p i e r
  | none => s.countUnmapped p .up

/-- A COMMAND telegram handed to the tracker (R29). -/
def State.trackCommand (s : State) (p : PortId) (a code : Nat) (c : Capture) : State :=
  match s.reach p a with
  | some (i, e) => s.takeCommand i e code c
  | none => s.countUnmapped p .down

/-- A valid frame interpreted by its kind and direction (the table of R18); the octets are those before the check. SERVICE telegrams
to the part are handled by the port (R8, R14); LIFE telegrams and traffic have no further effect. -/
def State.interpret (s : State) (p : PortId) (d : Direction) (octets : List Byte) (c : Capture) : State :=
  let a := telegramAddress octets
  let code := (octets.getD 2 0).toNat
  match telegramKind octets, d with
  | 1, .down => s.trackCommand p a code c
  | 1, .up => s.countMisdirected p .up
  | 2, .down => s.countMisdirected p .down
  | 2, .up => s.trackReport p a ⟨code, (telegramAge octets).1, (telegramAge octets).2, c⟩
  | 3, .down => s.countMisdirected p .down
  | 3, .up => s.trackReport p a ⟨code, 0, false, c⟩
  | _, _ => s

/-! ## UP SILENT (R19, R38, R100) -/

/-- One record becomes stale: its supervision closes INTERRUPTED, its candidate is dropped, its last command code becomes absent, its
stale flag is set (R38). -/
def State.markStale (s : State) (i : Nat) : State :=
  match s.element i with
  | none => s
  | some e =>
    let r := endSupervision i (s.elementLevel e .movement) s.tb.now e .interrupted
    s.applySupervised i ⟨{ r.element with candidate := none, lastCommand := none, stale := true }, r.offers⟩

/-- The present records mapped to a port, in ascending index order. -/
def State.recordsOf (s : State) (p : PortId) : List Nat :=
  (s.elements.map Prod.fst).filter fun i => (s.mapping i).any fun m => m.port == p

/-- SILENT is raised (R19): its record, and for UP the stale marking of the port's records (R38). -/
def State.raiseSilent (s : State) (p : PortId) (d : Direction) : State :=
  let s1 := s.setCondition p d .silent true
  match d with
  | .down => s1
  | .up => (s1.recordsOf p).foldl State.markStale s1

/-- Whether a direction's life timer has run for the life timeout, SILENT not being raised yet (R19). -/
def State.lifeDue (s : State) (p : PortId) (d : Direction) : Bool :=
  let x := s.port p
  match (x.rx d).lifeSince with
  | some t => !(x.rx d).silent && decide (t + ms x.lifeTimeout ≤ s.tb.instant)
  | none => false

end Sys2Proof.Machine
end

