-- ==== Sys2Proof/Machine/Frames.lean ====
section
/-! DEFINITION. Sys2Proof/Machine/Frames.lean: the reception of a frame: its opening, its content, the removal decision, its class and counters, the
life timer and the error rate, and the interpretation of it (R5, R8, R12 to R14, R18, R19, R21). -/

namespace Sys2Proof.Machine

/-! ## Classes (R5) -/

/-- The classes of frames (the table of R5). -/
inductive FrameClass where
  | abort | runt | oversize | checkFailure | valid
  deriving DecidableEq, Repr

/-- The class of a frame: the first test that applies (R5). -/
def classify (aborted : Bool) (content : List Bool) : FrameClass :=
  if aborted then .abort
  else if content.length < 48 then .runt
  else if 512 < content.length then .oversize
  else if content.length % 8 ≠ 0 ∨ checkGood content = false then .checkFailure
  else .valid

/-- The counter of a class rises (R23). -/
def DirCounters.countClass (c : DirCounters) : FrameClass → DirCounters
  | .abort => { c with aborts := raise32 c.aborts }
  | .runt => { c with runts := raise32 c.runts }
  | .oversize => { c with oversize := raise32 c.oversize }
  | .checkFailure => { c with checkFails := raise32 c.checkFails }
  | .valid => { c with valid := raise32 c.valid }

/-- The frame in reception ends in a class, which is counted; a quiet run may begin (R5, R10). -/
def Port.endFrame (x : Port) (now : Nat) (d : Direction) (k : FrameClass) : Port :=
  ((x.countDir d fun c => c.countClass k).setRx d { x.rx d with opening := none }).requiet now

/-- A flag that has opened no frame was one of idle (R5). -/
def Port.forgetFlag (x : Port) (d : Direction) : Port :=
  match (x.rx d).opening with
  | some ⟨_, _, _, []⟩ => (x.blank d 8).setRx d { x.rx d with opening := none }
  | _ => x

/-- A frame in reception is ended as an abort (R6); a flag that has opened none is forgotten (R5, log entry 3). -/
def Port.cutFrame (x : Port) (now : Nat) (d : Direction) : Port :=
  if (x.rx d).inFrame then x.endFrame now d .abort else x.forgetFlag d

/-! ## The opening and the content as it arrives -/

/-- A flag that may open a frame arrives: its own eight bits, or the flag that came last (R5, R13). -/
def Port.arriveOpening (x : Port) (d : Direction) (shared : Bool) : Port :=
  if shared then x.turn d LineBit.asOpening 8 else x.arrive d openingBits

/-- The last bit of a flag that may open a frame: its capture is taken, and whether a relay transfer is under way (R5, R12). -/
def State.openFrame (s : State) (p : PortId) (d : Direction) (shared : Bool) : State :=
  let x := ((s.port p).forgetFlag d).arriveOpening d shared
  s.setPort p ((x.setRx d { x.rx d with
    opening := some ⟨s.tb.capture, x.transferEnd.isSome, none, []⟩, stray := [] }).requiet s.tb.instant)

/-- More than a flag has followed an opening flag, and so a frame has begun at it: the quiet run ends, and a frame that opened during a
relay transfer is counted as a collision (R5, R10, R11, R12). -/
def Port.beginFrame (x : Port) (o : Opening) : Port :=
  { if o.collided ∧ o.content = [] then x.countPort fun c => { c with collisions := raise32 c.collisions } else x with
    quietSince := none }

/-- A frame has begun on a port. -/
def State.beginFrame (s : State) (p : PortId) (o : Opening) : State := s.setPort p ((s.port p).beginFrame o)

/-- Whether a header is that of a service telegram for the part: kind SERVICE and the service address (R14, R169). -/
def serviceHeader (t : Straps) (octets : List Byte) : Bool :=
  telegramKind octets == 12 && telegramAddress octets == serviceAddress t

/-- The removal decision on a DOWN frame's first two octets, with the accept flag that it finds (R14); none where the port removes
nothing: outside INLINE and LEAVING, in a transfer, and of a frame that collided (R8, R12). -/
def State.decideRemoval (s : State) (p : PortId) (d : Direction) (collided : Bool) (octets : List Byte) : Option Removal :=
  match d with
  | .down =>
    if (s.port p).forwards && !collided then some ⟨serviceHeader s.straps octets, (s.port p).accept⟩ else none
  | .up => none

/-- The removal decision of a frame with this content so far: made once its first two octets are in (R14). -/
def State.removalOf (s : State) (p : PortId) (d : Direction) (o : Opening) (content : List Bool) : Option Removal :=
  o.removal.or (if 16 ≤ content.length then s.decideRemoval p d o.collided (octetsOf (content.take 16)) else none)

/-- Whether a frame is being removed. -/
def Opening.removed (o : Opening) : Bool := o.removal.any Removal.removed

/-- A frame with more of its content, and the removal decision as it then stands. -/
def State.extend (s : State) (p : PortId) (d : Direction) (o : Opening) (bits : List Bool) : Opening :=
  { o with removal := s.removalOf p d o (o.content ++ bits), content := o.content ++ bits }

/-- The bits that a frame has had so far: those of its opening flag and of its content. -/
def Opening.bitsSoFar (o : Opening) : Nat := 8 + (contentBits [] o.content).length

/-- Line bits of a frame arrive; flags are sent in the place of a frame that is being removed (R13, R14), and in that of the abort of one
(DESIGN CHOICE, log entry 46). -/
def Port.arriveOf (x : Port) (d : Direction) (o : Opening) (bits : List LineBit) : Port :=
  x.arrive d (if o.removed then List.replicate bits.length .flag else bits)

/-- Content bits of a frame arrive. A removal that they decide takes the bits of the frame that are still in the delay (R14). -/
def State.frameContent (s : State) (p : PortId) (d : Direction) (o : Opening) (bits : List Bool) : State :=
  let o' := s.extend p d o bits
  let x := if o'.removed && !o.removed then (s.port p).blank d o.bitsSoFar else s.port p
  let x1 := x.arriveOf d o' (contentBits o.content bits)
  s.setPort p (x1.setRx d { x1.rx d with opening := some o' })

/-- Line bits that no opening flag came before arrive; they are no part of a frame, and the port passes them on (R5, R13). The content
among them since the last flag, abort or idle is now this: while there is any, the line is not idle (R10, R11, log entry 3). -/
def State.strayBits (s : State) (p : PortId) (d : Direction) (stray : List Bool) (bits : List LineBit) : State :=
  let x := (s.port p).arrive d bits
  s.setPort p ((x.setRx d { x.rx d with stray := stray }).requiet s.tb.instant)

/-- Content arrives outside a frame, with the zeros inserted in it since its last flag, abort or idle (R13). -/
def State.strayContent (s : State) (p : PortId) (d : Direction) (bits : List Bool) : State :=
  let before := ((s.port p).rx d).stray
  s.strayBits p d (before ++ bits) (contentBits before bits)

/-- Content bits have been received. -/
def State.takeContent (s : State) (p : PortId) (d : Direction) (bits : List Bool) : State :=
  match ((s.port p).rx d).opening with
  | none => s.strayContent p d bits
  | some o => if bits = [] then s else (s.beginFrame p o).frameContent p d o bits

/-! ## What a delimited frame does -/

/-- A valid frame restarts its direction's life timer and clears SILENT (R19). -/
def State.restartLife (s : State) (p : PortId) (d : Direction) : State :=
  let x := s.port p
  let s1 := s.setPort p (x.setRx d { x.rx d with lifeSince := some s.tb.instant })
  if (x.rx d).silent then s1.setCondition p d .silent false else s1

/-- A check failure counts towards the error threshold; reaching it raises ERROR RATE (R21). The spec gives the count of a second no
width (R3); it is a number without a maximum (DESIGN CHOICE, log entry 38). -/
def State.countCheckFailure (s : State) (p : PortId) (d : Direction) : State :=
  let x := s.port p
  let r := x.rx d
  let reached := decide (x.errorThreshold ≤ r.checkFails + 1)
  let s1 := s.setPort p (x.setRx d { r with checkFails := r.checkFails + 1, reached := r.reached || reached })
  if reached && !r.errorRate then s1.setCondition p d .errorRate true else s1

/-- Service telegrams discarded rises on a port (R23). -/
def State.discardTelegram (s : State) (p : PortId) : State :=
  s.setPort p ((s.port p).countPort fun c => { c with discarded := raise32 c.discarded })

/-- A removed request is offered to the service request queue: it joins at the tail, or is discarded when the queue holds 8 (R14,
R170); an idle service unit takes it at once (R171). The octets are those before the check. -/
def State.takeRequest (s : State) (p : PortId) (octets : List Byte) : State :=
  if s.service.queue.length < 8 then
    let q : Queued := ⟨octets.getD 2 0, ⟨p, octets.getD 3 0, octets.drop 4⟩⟩
    { s.setPort p ((s.port p).countPort fun c => { c with taken := raise32 c.taken }) with
      service := { s.service with queue := s.service.queue ++ [q] }.take }
  else s.discardTelegram p

/-- The octets of a frame before its check. -/
def telegramOctets (content : List Bool) : List Byte := (octetsOf content).dropLast.dropLast

/-- A removed frame is judged at its end (R14). Outside INLINE and LEAVING a valid service telegram for the part is counted as
discarded (R8); a frame that collided is not (R12). -/
def State.judgeRemoval (s : State) (p : PortId) (d : Direction) (k : FrameClass) (o : Opening) : State :=
  let octets := telegramOctets o.content
  if o.removed then
    if k = .valid ∧ (o.removal.any Removal.accepted) = true then s.takeRequest p octets else s.discardTelegram p
  else if k = .valid ∧ d = .down ∧ o.collided = false ∧ (s.port p).forwards = false ∧ serviceHeader s.straps octets = true then
    s.discardTelegram p
  else s

/-- A frame is delimited by a flag or by an abort, its content being complete: counted in its class, judged and interpreted (R5,
R14, R18). R14 names flags up to the closing flag of a removed frame and nothing for the abort of one: flags leave in place of the abort's
seven ones as well, and marks behind them are passed on (DESIGN CHOICE, unsafe, log entry 46). -/
def State.delimit (s : State) (p : PortId) (d : Direction) (aborted : Bool) (o : Opening) : State :=
  let k := classify aborted o.content
  let x := (s.port p).arriveOf d o (if aborted then abortBits else closingBits)
  let s1 := s.setPort p (x.endFrame s.tb.instant d k)
  let s2 := match k with
    | .valid => s1.restartLife p d
    | .checkFailure => s1.countCheckFailure p d
    | _ => s1
  let s3 := s2.judgeRemoval p d k o
  if k = .valid ∧ o.collided = false then s3.interpret p d (telegramOctets o.content) o.capture else s3

/-- Idle follows a flag: two flags back to back are idle and not a frame (R5). Nothing is counted, a quiet run goes on, and the first was
no opening flag. -/
def State.idleFlags (s : State) (p : PortId) (d : Direction) (bits : List LineBit) : State :=
  s.setPort p ((((s.port p).forgetFlag d).arrive d bits).requiet s.tb.instant)

/-- A frame ends: the rest of its content arrives, and then the flag or the abort that delimits it (R5). -/
def State.closeFrame (s : State) (p : PortId) (d : Direction) (aborted : Bool) (o : Opening) (rest : List Bool) : State :=
  if aborted = false ∧ o.content ++ rest = [] then s.idleFlags p d (List.replicate 8 .flag)
  else ((s.beginFrame p o).frameContent p d o rest).delimit p d aborted (s.extend p d o rest)

/-- The bits of a flag or an abort that ends no frame with an opening flag. A flag with no content before it, behind a flag, an abort or idle,
is idle and ends nothing (R5, R16, R17). -/
def strayEnd (aborted : Bool) (content : List Bool) : List LineBit :=
  if aborted then abortBits else if content = [] then List.replicate 8 .flag else closingBits

/-- A flag or an abort has been received. One that ends no frame with an opening flag counts and interprets nothing (R5, R71); a new
quiet run may begin at it (R10). -/
def State.takeEnd (s : State) (p : PortId) (d : Direction) (aborted : Bool) (rest : List Bool) : State :=
  match ((s.port p).rx d).opening with
  | none => (s.strayContent p d rest).strayBits p d [] (strayEnd aborted (((s.port p).rx d).stray ++ rest))
  | some o => s.closeFrame p d aborted o rest

/-- Bit times of idle pass; a flag before them opened no frame (R5). -/
def State.takeIdle (s : State) (p : PortId) (d : Direction) (bits : List LineBit) : State :=
  match ((s.port p).rx d).opening with
  | none => s.strayBits p d [] bits
  | some o => if o.content = [] then s.idleFlags p d bits else s.strayBits p d [] bits

/-- What a receiver reports of its line (R5, log entry 3). -/
def State.receive (s : State) (p : PortId) (d : Direction) : FramePart → State
  | .idle marks n => s.takeIdle p d (List.replicate n (if marks then .mark else .flag))
  | .opening shared => s.openFrame p d shared
  | .content bits => s.takeContent p d bits
  | .closed rest => s.takeEnd p d false rest
  | .aborted rest => s.takeEnd p d true rest

end Sys2Proof.Machine
end

