-- ==== Sys2Proof/Config.lean ====
section
/-! DEFINITION. Sys2Proof/Config.lean: the free values, which the manual leaves open. Each is a constant without a body, so
nothing can be proved of the value it takes (log entries 6 to 9 and 13). -/

namespace Sys2Proof.Config

/-- FREE VALUE (log entry 6). Which of the events that are due at one instant is taken first: the manual says that either
may be (R93, R102, R132, R150, R168). The argument is the number of choices made before. -/
opaque pick : Nat → Nat

/-- FREE VALUE (log entry 7). Whether a scheduled offset change that a second boundary makes is taken before the boundary
reaches the clock lines (section 7.9 and section 11.4 show both orders). The argument is the number of choices made before. -/
opaque offsetFirst : Nat → Bool

/-- FREE VALUE (log entry 7). The clock lines on which a start or an end that is due is taken between a second boundary, or a
step event, and the offset change that it makes (R150). The argument is the number of choices made before. -/
opaque between : Nat → List LineId

/-- FREE VALUE (log entry 13). Whether events of other blocks are taken before the next of the steps of RESET TABLES (R171,
R181). The argument is the number of choices made before. -/
opaque pause : Nat → Bool

/-- FREE VALUE (log entry 8). What an octet of a response holds where the layout of Chapter 10 has a field and the manual
states no content for it. The argument numbers the field: 0 the window and 1 and 2 the address of an unmapped record, 3 the
state of an absent candidate, 4 the override level when no override is present. -/
opaque unstatedOctet : Nat → Byte

/-- FREE VALUE (log entry 9). The value that stands for the first limit of an OTHER record, which has neither an operate
limit nor a proving limit, in the responses that report every loaded field. -/
opaque otherFirstLimit : Nat

end Sys2Proof.Config
end

