-- ==== Sys2Proof/Machine/Flags.lean ====
section
/-! DEFINITION. Sys2Proof/Machine/Flags.lean: the octets of responses and records that pack several flags or narrow fields
(Chapter 10). -/

namespace Sys2Proof.Machine

/-- Bit `n` of an octet, as a number, when the flag is set. -/
def bit (n : Nat) (b : Bool) : Nat := if b then 2 ^ n else 0

/-- An octet from the sum of its fields. -/
def octet (v : Nat) : Byte := BitVec.ofNat 8 v

/-- The link condition octet of a port (section 10.3): DOWN LOSS OF SIGNAL, SILENT, ERROR RATE in bits 0 to 2, UP in bits 3 to 5. -/
def Port.conditions (x : Port) : Byte :=
  octet (bit 0 x.downRx.los + bit 1 x.downRx.silent + bit 2 x.downRx.errorRate + bit 3 x.upRx.los + bit 4 x.upRx.silent
    + bit 5 x.upRx.errorRate)

/-- The flags octet of a LOAD ELEMENT form (R186). -/
def Loaded.flags (l : Loaded) : Byte :=
  octet (bit 0 l.dateCommands + bit 1 l.timetabled + bit 2 l.override.isSome)

/-- Octet 0 of the READ ELEMENT data of a present record: the present flag and the kind in bits 3 to 2. -/
def Element.presence (e : Element) : Byte := octet (1 + 4 * e.loaded.kind.code.toNat)

/-- Octet 16 of the READ ELEMENT data: accepted known, candidate present, stale, undefined code seen, last command present. -/
def Element.flags (e : Element) : Byte :=
  octet (bit 0 e.accepted.isSome + bit 1 e.candidate.isSome + bit 2 e.stale + bit 3 e.undefinedSeen
    + bit 4 e.lastCommand.isSome)

/-- An entry status in bits 3 to 0 with OUTSIDE WINDOW in bit 7. -/
def statusOctet (status : EntryStatus) (result : Option MatchResult) : Byte :=
  octet (status.code.toNat + bit 7 (result.any MatchResult.outside))

/-- The route result, mismatch count and item octet; without a match, the values for not applicable (R187). -/
def routeOctet : Option MatchResult → Byte
  | some r => octet (64 * r.route.code + 8 * r.mismatches + r.item.getD 7)
  | none => octet (64 * 3 + 7)

/-- The deviation in two octets, −32,768 when not applicable (R187). -/
def deviationOctets (r : Option MatchResult) : List Byte :=
  beSigned 2 (match r with
    | some m => m.deviation
    | none => -32768)

/-- Octet 5 of a journal record: level, quality and the two stamp flags (section 10.4). -/
def Offer.flags (o : Offer) : Byte :=
  octet (o.level + 8 * o.dated.quality.code.toNat + bit 6 o.ageLimit + bit 7 o.clamped)

/-- The octet that shows gap pending in bit 0 and ALERT in bit 1 (READ STATUS). -/
def Journal.flags (j : Journal) : Byte := octet (bit 0 j.gap.isSome + bit 1 j.alert)

/-- Octet 1 of the TIMEBASE section: fast return pending in bit 0, the set flag in bit 1. -/
def Timebase.flags (tb : Timebase) : Byte := octet (bit 0 tb.fastReturn + bit 1 tb.setFlag)

/-- The IDENTIFY octet of the RATESEL and JOINEN straps. -/
def Straps.flags (t : Straps) : Byte := octet (bit 0 t.ratesel1 + bit 1 t.ratesel2 + bit 2 t.joinen)

end Sys2Proof.Machine
end

