-- ==== Sys2Proof/Machine/Timebase.lean ====
section
/-! DEFINITION. Sys2Proof/Machine/Timebase.lean: the timebase: the advance of the two scales, the carry into a new second, pulses and
labels, the loop, holdover, leap seconds, the civil offset, and what the timebase hands to its neighbours (Chapter 3). -/

namespace Sys2Proof.Machine

/-! ## Advance of the scales (R49, R50) -/

/-- Sc: the slew while slew cycles are left, 0 when none are (R49). -/
def Timebase.slewInForce (tb : Timebase) : Int := if 0 < tb.slewLeft then tb.slew else 0

/-- Inc, in units of 2^-32 ns (R49). -/
def Timebase.inc (tb : Timebase) : Nat :=
  (429496729600 + roundDiv ((tb.rate + tb.slewInForce) * 4294967296) 10000000).toNat

/-- The elapsed time after an advance: 64 bits, at whose maximum it stops (R3, R48; log entry 24). -/
def laterElapsed (a n : Nat) : Nat := max a (min 18446744073709551615 (a + n))

/-- One oscillator cycle: both scales advance by Inc, and a cycle with the slew in force lowers the slew cycles left (R49). The
nanoseconds of the time of day are left at or above 10^9 for the second boundary, which is then due, to carry (R50). -/
def Timebase.cycle (tb : Timebase) : Timebase :=
  let t := tb.todFrac + tb.inc
  let e := tb.elapsedFrac + tb.inc
  { tb with
    tod := { tb.tod with nanos := tb.tod.nanos + t / 4294967296 }
    todFrac := t % 4294967296
    elapsed := laterElapsed tb.elapsed (e / 4294967296)
    elapsedFrac := e % 4294967296
    carryDue := tb.carryDue || decide (1000000000 ≤ tb.tod.nanos + t / 4294967296)
    slewLeft := tb.slewLeft - 1 }

/-- The carry of the time of day into a new second (R50): 10^9 is taken from the nanoseconds that have reached it. After a step that
was taken first it is made from the stepped time (R69), whose nanoseconds stand where they have not reached 10^9: R69 names the second
that follows and not the nanoseconds (DESIGN CHOICE, log entry 45). -/
def Timebase.carry (tb : Timebase) : Timebase :=
  let t := tb.nextSecond.1
  { tb with
    tod := ⟨t.day, t.sec, if 1000000000 ≤ tb.tod.nanos then tb.tod.nanos - 1000000000 else tb.tod.nanos⟩
    carryDue := false }

/-- A leap of this kind for this day has been executed (R64). -/
def Timebase.execLeap (tb : Timebase) (day : Day) (kind : LeapKind) : Timebase :=
  { tb with armedLeap := none, recentLeap := some ⟨day, kind⟩ }

/-- The TIMEBASE event of an executed leap (R68). -/
def LeapKind.event : LeapKind → TimebaseEvent
  | .insert => .leapInsert
  | .delete => .leapDelete

/-! ## The holdover age and the miss timing (R59, R60) -/

/-- The holdover age: whole elapsed seconds since the entry to HOLDOVER, stopping at its maximum; 0 outside HOLDOVER (R60). -/
def Timebase.holdoverAge (tb : Timebase) : Nat :=
  match tb.holdoverSince with
  | some t => min 4294967295 ((tb.instant - t) / secs 1)
  | none => 0

/-- Whether a miss is to be noted (R59). -/
def Timebase.missDue (tb : Timebase) : Bool :=
  tb.loop != .free && tb.nextNote.any fun t => decide (t ≤ tb.instant)

/-- Whether the holdover age has reached the limit, DEGRADED not being in force (R60). -/
def Timebase.limitDue (tb : Timebase) : Bool :=
  tb.loop == .holdover && !tb.degraded && decide (tb.holdoverLimit ≤ tb.holdoverAge)

/-- HOLDOVER is left: fast return is cleared and the holdover age is zero (R61, R62). -/
def Timebase.leaveHoldover (tb : Timebase) : Timebase :=
  { tb with fastReturn := false, holdoverSince := none, degraded := false }

/-- The slew is stopped (R56, R59, R62). -/
def Timebase.stopSlew (tb : Timebase) : Timebase := { tb with slew := 0, slewLeft := 0 }

/-- The good-pulse, bad-pulse and step counts are set to zero. -/
def Timebase.zeroRuns (tb : Timebase) : Timebase := { tb with good := 0, bad := 0, steps := 0 }

/-! ## The error and the loop (R54 to R58) -/

/-- The error of a labelled pulse in nanoseconds (R54). -/
def labelledError (l : Label) (t : TimeOfDay) : Int :=
  (((l.day.toNat : Int) - t.day.toNat) * 86400 + ((l.sec : Int) - t.sec)) * 1000000000 - t.nanos

/-- The error of a phase-only pulse in nanoseconds (R54). -/
def phaseError (t : TimeOfDay) : Int :=
  if t.nanos < 500000000 then -(t.nanos : Int) else 1000000000 - (t.nanos : Int)

/-- The error of an accepted pulse (R54). -/
def pulseError (label : Option Label) (t : TimeOfDay) : Int :=
  match label with
  | some l => labelledError l t
  | none => phaseError t

/-- The loop arithmetic (R55). -/
def Timebase.loopArithmetic (tb : Timebase) (e : Int) : Timebase :=
  let e' := clampInt (-500000000) 500000000 e
  { tb with
    slew := clampInt (-500000) 500000 (roundDiv e' (2 ^ tb.gp))
    rate := clampInt (-50000) 50000 (tb.rate + roundDiv e' (2 ^ tb.gi))
    slewLeft := 10000000 }

/-- An 8-bit run count raised by one, stopping at 255 (R48). -/
def raise8 (v : Nat) : Nat := saturate 255 v 1

/-- The run counts brought up to date (the table of R56). -/
def Timebase.countPulse (tb : Timebase) (labelled : Bool) (e : Int) : Timebase :=
  { tb with
    good := if e.natAbs ≤ tb.lockWindow * 1000 then raise8 tb.good else 0
    bad := if 4 * (tb.lockWindow * 1000) < e.natAbs then raise8 tb.bad else 0
    steps := if labelled then (if tb.stepThreshold * 1000 < e.natAbs then raise8 tb.steps else 0) else tb.steps
    misses := 0 }

/-- Whether a pulse comes at least 0.5 s after the last accepted one (R52). -/
def Timebase.acceptsPulse (tb : Timebase) : Bool :=
  match tb.lastPulse with
  | some t => decide (t + ms 500 ≤ tb.instant)
  | none => true

/-- An accepted pulse becomes the last accepted pulse, restarts the miss timing and consumes the label (R52, R59). -/
def Timebase.takePulse (tb : Timebase) : Timebase :=
  { tb with lastPulse := some tb.instant, nextNote := some (tb.instant + ms 1500), label := none }

/-! ## The civil offset (R65, R66) -/

/-- A TIMEBASE record (R68). -/
def State.reportTb (s : State) (event : TimebaseEvent) : State := s.report (.timebase event none)

/-- A change of the civil offset: an OFFSET CHANGE record when the new offset differs from the old, and the clock lines recompute
their targets (R66). -/
def State.changeOffset (s : State) (new : Int) : State :=
  let old := s.tb.civilOffset
  let s1 := s.setTb { s.tb with civilOffset := new }
  (if old = new then s1 else s1.report (.offsetChange old new)).retargetLines

/-- Whether a scheduled change is to be made: the set flag is set and the time of day is at or after its instant (R66). -/
def Timebase.offsetDue (tb : Timebase) : Option Int :=
  match tb.scheduled with
  | some c => if tb.setFlag && !(tb.time.daySec.before ⟨c.day, c.sec⟩) then some c.offset else none
  | none => none

/-- The scheduled change is made when it is due (R66). -/
def State.judgeOffset (s : State) : State :=
  match s.tb.offsetDue with
  | some new => (s.setTb { s.tb with scheduled := none }).changeOffset new
  | none => s

/-! ## Second boundaries and step events (R50, R69) -/

/-- The carry, and the execution of an armed leap at it with its LEAP record (R50, R64). That this record comes ahead of those of the
port units, the checker and the clock lines at the same boundary is a DESIGN CHOICE (R155, log entry 41). -/
def State.carry (s : State) : State :=
  let day := s.tb.tod.day
  match s.tb.nextSecond.2 with
  | some kind => (s.setTb (s.tb.carry.execLeap day kind)).reportTb kind.event
  | none => s.setTb s.tb.carry

/-- What is due on one clock line at this instant is taken: the end of an impulse, or the start of one (R150). -/
def State.turnLine (s : State) (l : LineId) : State :=
  if reached (s.line l).endInstant s.tb.instant then s.finishLine l
  else if reached (s.line l).startInstant s.tb.instant then s.startLine l
  else s

/-- A second boundary, or a step event, and the scheduled offset change that it makes reach the clock lines: one first, then what is
due on the lines given, then the other. Each recomputes the targets once (R66, R69, R150, sections 7.9 and 11.4). -/
def State.handToLines (s : State) (o : BoundaryOrder) : State :=
  if s.tb.offsetDue.isNone then s.retargetLines
  else if o.offsetFirst then (o.between.foldl State.turnLine s.judgeOffset).retargetLines
  else (o.between.foldl State.turnLine s.retargetLines).judgeOffset

/-- The second boundary handed to the neighbours: the port units, the timetable checker, the clock lines (R50). R155 leaves the order
of their offers open; this order, in which R50 names them, is a DESIGN CHOICE (log entry 41). -/
def State.boundary (s : State) (o : BoundaryOrder) : State :=
  let s1 := s.carry
  ((s1.endSeconds.latchAt s1.tb.tod.sec).walk).handToLines o

/-- The order in which the next second boundary or step event and a scheduled offset change that it makes reach the clock lines: a free
choice, made only while a change is scheduled (log entry 7). -/
def State.boundaryOrder (s : State) : BoundaryOrder × State :=
  if s.tb.scheduled.isSome then
    (⟨Config.offsetFirst s.choices, Config.between s.choices⟩, { s with choices := s.choices + 1 })
  else (⟨false, []⟩, s)

/-- The step event handed to the neighbours: each port's error-rate second ends, the banks are walked, the lines recompute, and after
that for a scheduled offset change that the new time makes due (R66, R69). The order of the blocks is that of `State.boundary` (DESIGN
CHOICE, log entry 41). -/
def State.stepEvent (s : State) : State :=
  let (o, s1) := s.boundaryOrder
  (s1.endSeconds.walk).handToLines { o with offsetFirst := false }

/-- What a set or step from one day makes of the armed leap (R64): executed when it lands in second 86,400 of an INSERT's day, discarded
when it moves the time of day past the end of its day, and left in place otherwise. -/
def State.leapAfterMove (s : State) (day : Day) : State :=
  match s.tb.armedLeap with
  | none => s
  | some a =>
    if a.kind = .insert ∧ s.tb.tod.day = a.day ∧ s.tb.tod.sec = 86400 then
      (s.setTb (s.tb.execLeap a.day a.kind)).reportTb .leapInsert
    else if dayDiff day a.day ≤ 0 ∧ 0 < dayDiff s.tb.tod.day a.day then
      (s.setTb { s.tb with armedLeap := none }).reportTb .leapDiscarded
    else s

/-- The time of day is set or stepped to a label (R56, R57): the leap action, the SET or STEP record with the old time of day, and the
step event (R64, R68, R69). -/
def State.moveTime (s : State) (l : Label) (event : TimebaseEvent) : State :=
  let s1 := (s.setTb { s.tb with tod := ⟨l.day, l.sec, 0⟩, todFrac := 0 }).leapAfterMove s.tb.tod.day
  (s1.report (.timebase event (some s.tb.time))).stepEvent

/-! ## Pulses (R52 to R61) -/

/-- A consumed label that announces a leap arms it, or is discarded when its day is already past (R64). -/
def State.armLeap (s : State) (label : Option Label) : State :=
  let act (day : Day) (kind : LeapKind) : State :=
    if 0 < dayDiff s.tb.time.day day then s.reportTb .leapDiscarded
    else s.setTb { s.tb with armedLeap := some ⟨day, kind⟩ }
  match label with
  | none => s
  | some l =>
    match l.announcement with
    | .none => s
    | .insert => act l.day .insert
    | .delete => act l.day .delete

/-- The first labelled pulse in FREE sets the time of day (R57). -/
def State.pulseInFree (s : State) (label : Option Label) : State :=
  match label with
  | none => s
  | some l =>
    (s.setTb { s.tb.zeroRuns with setFlag := true, loop := .acquiring, misses := 0 }).moveTime l .set

/-- A pulse in ACQUIRING after the arithmetic: LOCKED at eight good pulses (R58). -/
def State.judgeLock (s : State) : State :=
  if 8 ≤ s.tb.good then (s.setTb { s.tb with loop := .locked }).reportTb .lock else s

/-- A pulse in LOCKED after the arithmetic: ACQUIRING at three bad pulses (R58). -/
def State.judgeLockLost (s : State) : State :=
  if 3 ≤ s.tb.bad then (s.setTb { s.tb with loop := .acquiring, good := 0, bad := 0 }).reportTb .lockLost else s

/-- A returning pulse in HOLDOVER after the arithmetic (the table of R61). -/
def State.judgeReturn (s : State) (e : Int) : State :=
  if e.natAbs ≤ s.tb.lockWindow * 1000 then
    if s.tb.fastReturn then (s.setTb { s.tb.leaveHoldover with loop := .locked, good := 2 }).reportTb .lock
    else s.setTb { s.tb with fastReturn := true, good := 1 }
  else (s.setTb { s.tb.leaveHoldover.zeroRuns with loop := .acquiring }).reportTb .back

/-- The loop arithmetic, and the test of the loop state (R55, R58, R61). -/
def State.pulseTests (s : State) (tb : Timebase) (e : Int) : State :=
  let s1 := s.setTb (tb.loopArithmetic e)
  match tb.loop with
  | .free => s1
  | .acquiring => s1.judgeLock
  | .locked => s1.judgeLockLost
  | .holdover => s1.judgeReturn e

/-- An accepted pulse outside FREE, with the error formed at its capture (R55 to R61). A step is judged before any other test. -/
def State.pulseInLoop (s : State) (label : Option Label) (e : Int) : State :=
  let tb := s.tb.countPulse label.isSome e
  match label with
  | some l =>
    if tb.loop ≠ .holdover ∧ 3 ≤ tb.steps then (s.setTb tb.stopSlew.zeroRuns).moveTime l .step
    else s.pulseTests tb e
  | none => s.pulseTests tb e

/-- A pulse outside INITIALISING (R52). -/
def State.pulse (s : State) : State :=
  if s.tb.acceptsPulse then
    let label := s.tb.label
    let e := pulseError label s.tb.time
    let s1 := (s.setTb s.tb.takePulse).armLeap label
    if s.tb.loop = .free then s1.pulseInFree label else s1.pulseInLoop label e
  else s.setTb { s.tb with spurious := raise32 s.tb.spurious }

/-! ## Misses and the holdover limit (R59 to R61) -/

/-- The pending label is discarded and counted (R53, R59). -/
def Timebase.discardLabel (tb : Timebase) : Timebase :=
  if tb.label.isSome then { tb with label := none, unusedLabels := raise32 tb.unusedLabels } else tb

/-- HOLDOVER is entered: F frozen, the slew stopped, the run counts and the age at zero (R59). -/
def Timebase.enterHoldover (tb : Timebase) : Timebase :=
  { tb.stopSlew.zeroRuns with loop := .holdover, holdoverSince := some tb.instant, fastReturn := false, degraded := false }

/-- A miss is noted (R59); in HOLDOVER the second note after a returning pulse clears fast return pending (R61). -/
def State.missNote (s : State) : State :=
  let tb := { s.tb.discardLabel with
    misses := saturate 65535 s.tb.misses 1
    nextNote := s.tb.nextNote.map fun t => t + secs 1 }
  if tb.misses < 2 then s.setTb tb
  else
    match tb.loop with
    | .free => s.setTb tb
    | .acquiring => (s.setTb tb.enterHoldover).reportTb .holdover
    | .locked => (s.setTb tb.enterHoldover).reportTb .holdover
    | .holdover => if tb.fastReturn then s.setTb { tb.stopSlew with fastReturn := false } else s.setTb tb

/-- DEGRADED comes into force (R60). -/
def State.degrade (s : State) : State := (s.setTb { s.tb with degraded := true }).reportTb .degraded

/-- What a holdover limit just set does in HOLDOVER (R60). -/
def State.judgeLimit (s : State) : State :=
  if s.tb.loop = .holdover then
    if s.tb.limitDue then s.degrade
    else if s.tb.degraded ∧ s.tb.holdoverAge < s.tb.holdoverLimit then
      (s.setTb { s.tb with degraded := false }).reportTb .degradedCleared
    else s
  else s

/-- RELOCK (R62). -/
def State.relock (s : State) : State :=
  let tb := s.tb.stopSlew.zeroRuns.leaveHoldover
  (s.setTb { tb with
    rate := 0
    misses := 0
    loop := if s.tb.setFlag then .acquiring else .free
    lastRelock := some s.tb.instant
    nextNote := some (s.tb.instant + ms 1500) }).reportTb .relock

end Sys2Proof.Machine
end

