-- ==== Sys2Proof/Machine/Readout.lean ====
section
/-! DEFINITION. Sys2Proof/Machine/Readout.lean: the layouts of what the part reports: stamps, journal records, elements, entries, and
the sections of READ STATUS and IDENTIFY (Chapter 10). -/

namespace Sys2Proof.Machine

/-! ## Common fields (R184) -/

/-- An instant of day and second in 5 octets. -/
def daySecOctets (day : Day) (sec : Nat) : List Byte := be 2 day.toNat ++ be 3 sec

/-- A stamp in 8 octets. -/
def Stamp.octets (t : Stamp) : List Byte := daySecOctets t.day t.sec ++ be 3 t.micro

/-- A stamp and its quality in 9 octets. -/
def Dated.octets (x : Dated) : List Byte := x.stamp.octets ++ [x.quality.code]

/-- An optional field of `n` octets: every octet 255 when it is absent. -/
def optional {α : Type} (n : Nat) (f : α → List Byte) : Option α → List Byte
  | some x => f x
  | none => absent n

/-- A code octet with 255 for absent. -/
def codeOr255 : Option Nat → Byte
  | some c => octet c
  | none => 255

/-! ## Journal records (section 10.4) -/

/-- The record kind octet. -/
def Body.kind : Body → Byte
  | .stateChange .. => 1
  | .commandSeen .. => 2
  | .movementOutcome .. => 3
  | .uncommanded .. => 4
  | .lampFault .. => 5
  | .timetableResult .. => 6
  | .unscheduledClearing .. => 7
  | .bank .. => 8
  | .linkCondition .. => 9
  | .timebase .. => 10
  | .offsetChange .. => 11
  | .clockLine .. => 12
  | .gap .. => 13
  | .recordingStart .. => 14

/-- A body before its padding; the body of a GAP runs on into the second half (R188). -/
def Body.octets : Body → List Byte
  | .stateChange i old new first silence undef =>
    be 2 i ++ [octet (old.getD 0), octet new, octet (bit 0 first + bit 1 silence + bit 2 undef)]
  | .commandSeen i code stale undef => be 2 i ++ [octet code, octet (bit 0 stale + bit 1 undef)]
  | .movementOutcome i outcome target shown time =>
    be 2 i ++ [outcome.code, octet target, codeOr255 shown] ++
      (match time with
        | some t => be 2 t.ms ++ [octet (bit 0 true + bit 1 t.clamped)]
        | none => [0, 0, 0])
  | .uncommanded i occurrence => be 2 i ++ [occurrence.code]
  | .lampFault i => be 2 i
  | .timetableResult b entry reference outcome result =>
    be 2 (32768 * b.code.toNat + entry) ++ be 4 reference.toNat ++ [statusOctet outcome result] ++ deviationOctets result ++
      [routeOctet result]
  | .unscheduledClearing i => be 2 i
  | .bank b event first second => [b.code, event.code] ++ be 2 first ++ be 2 second
  | .linkCondition p d c raised => [octet p.val, directionCode d, c.code, flag raised]
  | .timebase event old =>
    match old with
    | some t => [event.code, 1] ++ t.stamp.octets
    | none => [event.code, 0]
  | .offsetChange old new => beSigned 2 old ++ beSigned 2 new
  | .clockLine l event fault position => [octet l.val, event.code, faultCode fault] ++ be 2 position
  | .gap n first last =>
    be 2 n.state ++ be 2 n.movement ++ be 2 n.timetable ++ be 2 n.link ++ be 2 n.time ++ be 2 n.clock ++ be 2 n.system ++
      first.octets ++ last.octets
  | .recordingStart cause => [cause.code]

/-- Octets filled up with zeros to a length. -/
def padTo (n : Nat) (l : List Byte) : List Byte := l ++ List.replicate (n - l.length) 0

/-- The body field of a record: 10 octets, or 34 for a GAP (section 10.4, R188). -/
def Body.field (b : Body) : List Byte :=
  match b with
  | .gap .. => padTo 34 b.octets
  | _ => padTo 10 b.octets

/-- A record on the wire: 24 octets, or 48 for a GAP (section 10.4). -/
def JournalRecord.octets (r : JournalRecord) : List Byte :=
  be 4 r.seq.toNat ++ [r.offer.body.kind, r.offer.flags] ++ r.offer.dated.stamp.octets ++ r.offer.body.field

/-! ## READ ELEMENT -/

/-- The first limit of a record's kind: the operate limit of a point, the proving limit of a signal; an OTHER record has none (log
entry 9). -/
def Loaded.firstLimit (l : Loaded) : Nat :=
  match l.kind with
  | .point => l.operateLimit
  | .signal => l.provingLimit
  | .other => Config.otherFirstLimit

/-- The loaded fields from K onward, as in the 11-octet form of LOAD ELEMENT (R186). -/
def Loaded.octets (l : Loaded) : List Byte :=
  [octet l.confirm, l.selection.code, l.flags,
    match l.override with
    | some v => octet v
    | none => Config.unstatedOctet 4] ++ be 2 l.firstLimit ++ be 2 l.slowThreshold

/-- The mapping field: port, window, address; port 255 when unmapped (log entry 8). -/
def mappingOctets : Option Mapping → List Byte
  | some m => [octet m.port.val, octet m.window.val] ++ be 2 m.address
  | none => [255, Config.unstatedOctet 0, Config.unstatedOctet 1, Config.unstatedOctet 2]

/-- The time left to a deadline in whole milliseconds; 65,535 without a deadline. -/
def timeLeft (now : Nat) (deadline : Option Nat) : Nat :=
  match deadline with
  | some d => (d - now) / ms 1
  | none => 65535

/-- The six statistics in 14 octets. -/
def Statistics.octets (x : Statistics) : List Byte :=
  be 4 x.movements ++ be 2 x.slow ++ be 2 x.maxTime ++ be 2 x.lastTime ++ be 2 x.fails ++ be 2 x.flicker

/-- The READ ELEMENT data of a present record after the mapping. -/
def Element.octets (e : Element) (now : Nat) : List Byte :=
  e.loaded.octets ++
  [octet (e.accepted.getD 0),
    (match e.candidate with
      | some c => octet c.state
      | none => Config.unstatedOctet 3),
    octet ((e.candidate.map Candidate.count).getD 0), e.flags] ++
  optional 9 Dated.octets e.lastChange ++
  [codeOr255 e.lastCommand, e.sup.code, codeOr255 e.sup.target] ++
  be 2 (timeLeft now e.sup.deadline) ++ e.stats.octets ++ be 2 e.refs

/-- The READ ELEMENT data (R44); an empty record gives the present flag and the mapping alone (log entry 17). -/
def State.elementData (s : State) (i : Nat) : List Byte :=
  match s.element i with
  | some e => [e.presence] ++ mappingOctets (s.mapping i) ++ e.octets s.tb.instant
  | none => [0] ++ mappingOctets (s.mapping i)

/-! ## READ ENTRY -/

/-- A bank's header in 11 octets (R131). -/
def State.headerData (s : State) (b : BankId) : List Byte :=
  let x := s.bank b
  [x.state.code] ++ optional 5 (fun t : DaySec => daySecOctets t.day t.sec) x.start ++ be 2 x.entries.length ++
    be 2 x.nextToOpen ++ [flag (s.older b b.other)]

/-- One route item in 3 octets. -/
def RouteItem.octets (x : RouteItem) : List Byte := be 2 x.point ++ [octet x.position]

/-- An entry in 51 octets (R131). -/
def Entry.octets (e : Entry) : List Byte :=
  be 2 e.signal ++ be 3 e.scheduled ++ be 2 e.early ++ be 2 e.late ++ be 4 e.reference.toNat ++ [octet e.route.length] ++
    padTo 18 (e.route.flatMap RouteItem.octets) ++ be 3 e.openTime ++ be 3 e.closeTime ++ [statusOctet e.status e.result] ++
    optional 9 Dated.octets e.closing ++ deviationOctets e.result ++ [routeOctet e.result]

/-! ## READ STATUS (R179) -/

/-- The DEVICE section. -/
def State.deviceSection (s : State) : List Byte :=
  (s.ports.toList.map fun x => x.state.code) ++ (s.ports.toList.map Port.conditions) ++
    [s.tb.loop.code, s.tb.quality.code] ++ s.tb.time.stamp.octets ++ [s.bankA.state.code, s.bankB.state.code] ++
    be 2 s.openList.length ++ (s.lines.toList.map fun x => x.state.code) ++ be 2 s.journal.fill ++ [s.journal.flags,
    octet s.service.queue.length]

/-- The settings of a port in force, in the order of SET PORT (R22). -/
def State.portSettings (s : State) (p : PortId) : List Byte :=
  let x := s.port p
  [x.rate.code] ++ be 2 x.latency ++ be 2 x.lifeTimeout ++ [octet x.errorThreshold, octet x.quiet, flag x.accept,
    s.latchInterval.code]

/-- The PORT section. -/
def State.portSection (s : State) (p : PortId) : List Byte :=
  let x := s.port p
  [x.state.code] ++ s.portSettings p ++ [x.conditions, octet x.responses.length] ++ be 2 x.backlog ++ be 2 s.latchSeq.toNat

/-- A label in 6 octets. -/
def Label.octets (l : Label) : List Byte := daySecOctets l.day l.sec ++ [l.announcement.code]

/-- A leap in 3 octets. -/
def Leap.octets (l : Leap) : List Byte := be 2 l.day.toNat ++ [l.kind.code]

/-- The TIMEBASE section (R70). -/
def Timebase.loopSection (tb : Timebase) : List Byte :=
  [tb.loop.code, tb.flags] ++ tb.time.stamp.octets ++ be 8 tb.elapsedMs ++ beSigned 4 tb.rate ++ beSigned 4 tb.slew ++
    [tb.quality.code, octet tb.good, octet tb.bad, octet tb.steps] ++ be 2 tb.misses ++ be 4 tb.holdoverAge ++
    optional 6 Label.octets tb.label ++ optional 3 Leap.octets tb.armedLeap ++ optional 3 Leap.octets tb.recentLeap

/-- A scheduled change in 7 octets. -/
def ScheduledChange.octets (c : ScheduledChange) : List Byte := daySecOctets c.day c.sec ++ beSigned 2 c.offset

/-- The five settings of the loop in the order of SET TIMEBASE (R63). -/
def Timebase.settings (tb : Timebase) : List Byte :=
  [octet tb.gp, octet tb.gi] ++ be 2 tb.lockWindow ++ be 4 tb.stepThreshold ++ be 4 tb.holdoverLimit

/-- The TIME SETTINGS section. -/
def Timebase.settingsSection (tb : Timebase) : List Byte :=
  beSigned 2 tb.civilOffset ++ optional 7 ScheduledChange.octets tb.scheduled ++ be 4 tb.spurious ++ be 4 tb.unusedLabels ++
    tb.settings

/-- The TIMETABLE section. -/
def State.timetableSection (s : State) : List Byte :=
  s.headerData .bankA ++ s.headerData .bankB ++ be 2 s.openList.length

/-- The impulse in progress: 0 none, 1 STEP, 2 PROBE. -/
def impulseCode : Option Impulse → Byte
  | none => 0
  | some i =>
    match i.purpose with
    | .step => 1
    | .probe => 2

/-- The dial period and the four timing settings of a line in the order of SET LINE (R134). -/
def Line.timings (x : Line) : List Byte := be 2 x.width ++ be 2 x.spacing ++ be 2 x.waitWindow ++ be 2 x.probeInterval

/-- The LINE section (R149). -/
def Line.lineSection (x : Line) : List Byte :=
  [x.state.code, x.period.code] ++ be 2 x.position ++ [x.lastPolarity.code, faultCode x.faultKind] ++
    be 2 (x.target.getD 65535) ++ be 2 (x.lag.getD 65535) ++ [impulseCode x.impulse, flag x.haltPending] ++ x.timings

/-- The pending gap in 32 octets. -/
def Gap.octets (g : Gap) : List Byte := Body.octets (.gap g.lost g.first g.last)

/-- The sequence number of the oldest record held. -/
def Journal.oldest (j : Journal) : Option SeqNo := j.records.head?.map JournalRecord.seq

/-- The JOURNAL section (R165). -/
def Journal.recordSection (j : Journal) : List Byte :=
  be 2 j.fill ++ optional 4 (fun n : SeqNo => be 4 n.toNat) j.oldest ++ be 4 j.newest.toNat ++ be 2 j.alerting ++
    optional 32 Gap.octets j.gap ++ [j.flags]

/-- The level and enable of one class in 2 octets. -/
def ClassSetting.octets (x : ClassSetting) : List Byte := [octet x.level, flag x.enabled]

/-- The three journal settings in the order of SET ALERT. -/
def Journal.settings (j : Journal) : List Byte := [octet j.threshold] ++ be 2 j.watermark ++ [octet j.reserve]

/-- The JOURNAL SETTINGS section. -/
def Journal.settingsSection (j : Journal) : List Byte :=
  j.classes.state.octets ++ j.classes.movement.octets ++ j.classes.timetable.octets ++ j.classes.link.octets ++
    j.classes.time.octets ++ j.classes.clock.octets ++ j.settings

/-! ## IDENTIFY (R178) and the counter groups (R175) -/

/-- The IDENTIFY data. -/
def State.identifyData (s : State) : List Byte :=
  [41] ++ be 2 4720 ++ [3] ++ be 2 (serviceAddress s.straps) ++ [Straps.flags s.straps, octet s.straps.saddr.toNat,
    (ResetCause.startCause s.resetCause).code] ++ be 8 s.tb.elapsedMs ++ [8, 4] ++ be 2 2048 ++ [2] ++ be 2 3072 ++ be 2 256 ++ [4] ++
    be 2 4096 ++ be 2 256

/-- The nine counters of a direction in the order of R23. -/
def DirCounters.octets (c : DirCounters) : List Byte :=
  be 4 c.valid ++ be 4 c.checkFails ++ be 4 c.aborts ++ be 4 c.runts ++ be 4 c.oversize ++ be 4 c.unmapped ++
    be 4 c.misdirected ++ be 4 c.errored ++ be 4 c.silentSecs

/-- The six counters of a port in the order of R23. -/
def PortCounters.octets (c : PortCounters) : List Byte :=
  be 4 c.taken ++ be 4 c.discarded ++ be 4 c.inserted ++ be 4 c.respDiscarded ++ be 4 c.collisions ++ be 4 c.joiningMs

end Sys2Proof.Machine
end

