-- ==== Sys2Proof/Machine/ResetTables.lean ====
section
/-! DEFINITION. Sys2Proof/Machine/ResetTables.lean: what a request does to the service unit, and RESET TABLES, the one request made of
several steps (R15, R47, R101, R129, R167, R171, R181). -/

namespace Sys2Proof.Machine

/-- The service unit as it carries out a request: the request leaves its hand, or the head of the queue when the unit is idle (R170,
R171, log entry 12). -/
def Service.finish (v : Service) (q : Queued) : Service :=
  if v.inHand = some q then { v with inHand := none }
  else if v.inHand = none ∧ v.queue.head? = some q then { v with queue := v.queue.tail }
  else v

/-- The state as a request is carried out: the request has left the queue or the unit's hand. -/
def State.taking (s : State) (code : Byte) (r : Request) : State := { s with service := s.service.finish ⟨code, r⟩ }

/-- A response is offered to the response queue of the port that its request arrived on (R15, R173), and the service unit, when it is
idle then, takes the next request at once (R171). -/
def State.respond (s : State) (code : Byte) (r : Request) (reply : Reply) : State :=
  { s.setPort r.port (((s.port r.port).queueResponse ⟨code, r.tag, reply⟩).requiet s.tb.instant) with service := s.service.take }

/-! ## The steps of RESET TABLES (R47, R181) -/

/-- The records under supervision, in ascending index order. -/
def State.supervisedRecords (s : State) : List Nat :=
  (s.elements.filter fun x => x.2.sup.active).map Prod.fst

/-- One supervision closes ABANDONED (R101). -/
def State.abandonSupervision (s : State) (i : Nat) : State :=
  match s.element i with
  | none => s
  | some e => s.applySupervised i (endSupervision i (s.elementLevel e .movement) s.tb.now e .abandoned)

/-- The second step on one bank: a bank that is not EMPTY writes its BANK record TABLES RESET and becomes EMPTY (R129). -/
def State.resetBank (s : State) (b : BankId) : State :=
  let x := s.bank b
  if x.state = .empty then s
  else (s.report (.bank b .tablesReset (x.count .opened) (x.count .pending))).emptyBank b

/-- The third step: every element record is emptied and every window closed (R47). -/
def State.emptyTables (s : State) : State :=
  { s with elements := [], windows := Eight.all (Four.all Window.closed) }

/-- A RECORDING START record (R166, R167): level 7, class SYSTEM. -/
def State.recordingStart (s : State) (cause : StartCause) : State :=
  s.offer ⟨7, s.tb.now, false, false, .recordingStart cause⟩

/-- The entries of a bank that its closing closes. -/
def Bank.closings (x : Bank) : Closings := ⟨x.count .opened, x.count .pending⟩

/-- The unit acting on a request between two steps: the request stands in its hand. -/
def Service.hold (v : Service) (q : Queued) : Service := if v.inHand = none then { v with inHand := some q } else v

/-- The state with another progress of RESET TABLES. -/
def State.setResetting (s : State) (g : Option Resetting) : State := { s with service := { s.service with resetting := g } }

/-- The first step: every supervision closes ABANDONED (R101). -/
def State.abandonAll (s : State) : State := s.supervisedRecords.foldl State.abandonSupervision s

/-- The second step: both banks and the open list are emptied (R129). -/
def State.resetBanks (s : State) : State := (bankIds.foldl State.resetBank s).setOpenList []

/-- RESET TABLES is taken, and its first step done. -/
def State.beginReset (s : State) (r : Request) : State :=
  let s1 := s.taking 70 r
  { s1.abandonAll with service := { s1.service.hold ⟨70, r⟩ with resetting := some ⟨r, s1.supervisedRecords.length, none⟩ } }

/-- The counts of a bank in the response of RESET TABLES (R181). -/
def Closings.octets (c : Closings) : List Byte := be 2 c.opened ++ be 2 c.pending

/-- The data of RESET TABLES (R181). -/
def Resetting.octets (g : Resetting) (a b : Closings) : List Byte := be 2 g.abandoned ++ a.octets ++ b.octets

/-- The next step of a RESET TABLES under way: the second, or the third with the RECORDING START record and the response (R181). R167 does not
say which instant stamps the records when the unit has paused; each record carries the time of day of its own step (DESIGN CHOICE, log entry
13). -/
def State.continueReset (s : State) (g : Resetting) : State :=
  match g.closed with
  | none => s.resetBanks.setResetting (some { g with closed := some (s.bankA.closings, s.bankB.closings) })
  | some (a, b) =>
    (((s.emptyTables.recordingStart .tablesReset).setResetting none).taking 70 g.request).respond 70 g.request (.done (g.octets a b))

/-- The steps that are left of a RESET TABLES under way (R171). -/
def State.finishReset (s : State) : State :=
  match s.service.resetting with
  | none => s
  | some g =>
    match g.closed with
    | none =>
      let c := (s.bankA.closings, s.bankB.closings)
      (s.continueReset g).continueReset { g with closed := some c }
    | some _ => s.continueReset g

end Sys2Proof.Machine
end

