-- ==== Sys2Proof/Machine/Service.lean ====
section
/-! DEFINITION. Sys2Proof/Machine/Service.lean: the service unit: judging and answering a request (R171 to R174). Each request is a
function of its parameter octets and the state. -/

namespace Sys2Proof.Machine

/-- What a request makes of the state, and what it is answered. -/
structure Served where
  state : State
  reply : Reply

/-- A refusal changes nothing (R2, R172). -/
def refuse (s : State) (reason : Reason) : Served := ⟨s, .refused reason⟩

/-- A request answered DONE. -/
def answer (s : State) (data : List Byte) : Served := ⟨s, .done data⟩

/-- A request that sets values, answered DONE or DONE-ADJUSTED with them as taken (R174). -/
def answerTaken (s : State) (changed : Bool) (data : List Byte) : Served := ⟨s, taken changed data⟩

/-- One request: judged and carried out on its owning block, and answered (R171). The part takes none in INITIALISING (R7), and one at
a time: a RESET TABLES under way is first carried to its end (R171, log entry 13). -/
def State.serve (s : State) (code : Byte) (r : Request) (f : List Byte → State → Served) : State :=
  if s.initialising then s
  else
    let a := f r.params (s.finishReset.taking code r)
    a.state.respond code r a.reply

/-- The outcome of a step that completes. -/
abbrev Outcome := Host.Outcome State Fault Refusal

end Sys2Proof.Machine
end

