-- ==== Sys2Proof/Machine/GeneralRequests.lean ====
section
/-! DEFINITION. Sys2Proof/Machine/GeneralRequests.lean: the requests that belong to no one block: IDENTIFY, an unknown request code,
READ STATUS and RESET TABLES (R47, R101, R129, R167, R172, R178, R179, R181). -/

namespace Sys2Proof.Machine

/-- The request IDENTIFY. -/
def reqIdentify : List Byte → State → Served
  | [], s => answer s s.identifyData
  | _, s => refuse s .length

/-- IDENTIFY (R178). -/
def execIdentify (r : Request) (s : State) : Outcome := .next (s.serve 1 r reqIdentify)

/-- A request whose code names none of the requests is refused with UNKNOWN (R172). A code that names a request is not this command, and
nothing happens (log entry 12). -/
def execUnknownRequestCode (code : Byte) (r : Request) (s : State) : Outcome :=
  .next (if knownRequestCodes.contains code then s else s.serve code r fun _ s => refuse s .unknown)

/-! ## READ STATUS (R179) -/

/-- The sections that take no number, by their code. -/
def State.plainSection (s : State) (code : Nat) : Option (List Byte) :=
  match code with
  | 1 => some s.deviceSection
  | 3 => some s.tb.loopSection
  | 4 => some s.tb.settingsSection
  | 5 => some s.timetableSection
  | 7 => some s.journal.recordSection
  | 8 => some s.journal.settingsSection
  | _ => none

/-- Whether a section code is PORT or LINE, the sections that take a number. -/
def numberedSection (code : Nat) : Bool := code == 2 || code == 6

/-- The request READ STATUS: the length is judged by the section, an unknown section is refused with RANGE at either length (R186). -/
def reqReadStatus : List Byte → State → Served
  | [code], s =>
    match s.plainSection code.toNat with
    | some data => answer s data
    | none => refuse s (if numberedSection code.toNat then .length else .range)
  | [code, number], s =>
    match code.toNat with
    | 2 =>
      match portOf number with
      | some p => answer s (s.portSection p)
      | none => refuse s .range
    | 6 =>
      match lineOf number with
      | some l => answer s (s.line l).lineSection
      | none => refuse s .range
    | n => refuse s (if (s.plainSection n).isSome then .length else .range)
  | _, s => refuse s .length

/-- READ STATUS (R179). -/
def execReadStatus (r : Request) (s : State) : Outcome := .next (s.serve 2 r reqReadStatus)

/-! ## RESET TABLES (R181) -/

/-- RESET TABLES without parameters: its next step, begun anew or going on from where the same request paused; a pause leaves the unit
ACTING after that step, and without one the steps that are left follow at once (R171, R181, log entry 13). -/
def State.takeReset (s : State) (r : Request) (pause : Bool) : State :=
  let s1 := match s.service.resetting with
    | some g => if g.request = r then s.continueReset g else s.finishReset.beginReset r
    | none => s.beginReset r
  if pause then s1 else s1.finishReset

/-- RESET TABLES (R181), whether it pauses being a free choice (log entry 13); any parameter is a wrong length (R172). -/
def execResetTables (r : Request) (s : State) : Outcome :=
  .next (if s.initialising then s
    else if r.params = [] then { s with choices := s.choices + 1 }.takeReset r (Config.pause s.choices)
    else s.serve 70 r fun _ s => refuse s .length)

end Sys2Proof.Machine
end

