-- ==== Sys2Proof/Machine/Passage.lean ====
section
/-! DEFINITION. Sys2Proof/Machine/Passage.lean: the passage of time: many oscillator cycles at once, and the instant of a timed event,
to which the two scales run before it is taken (R49 to R51, log entry 2). -/

namespace Sys2Proof.Machine

/-- `n` cycles at one increment: while the slew is in force throughout, or not at all (R49). -/
def Timebase.cycles (tb : Timebase) (n : Nat) : Timebase :=
  let t := tb.todFrac + n * tb.inc
  let e := tb.elapsedFrac + n * tb.inc
  { tb with
    tod := { tb.tod with nanos := tb.tod.nanos + t / 4294967296 }
    todFrac := t % 4294967296
    elapsed := laterElapsed tb.elapsed (e / 4294967296)
    elapsedFrac := e % 4294967296
    carryDue := tb.carryDue || decide (0 < n ∧ 1000000000 ≤ tb.tod.nanos + t / 4294967296)
    slewLeft := tb.slewLeft - n }

/-- `n` cycles, the increment changing where the slew is spent (R49). -/
def Timebase.run (tb : Timebase) (n : Nat) : Timebase :=
  if n ≤ tb.slewLeft then tb.cycles n else (tb.cycles tb.slewLeft).cycles (n - tb.slewLeft)

/-- `a / b`, rounded up. -/
def ceilDiv (a b : Nat) : Nat := (a + b - 1) / b

/-- The number of cycles in which a scale gains at least `need` units of 2^-32 ns. -/
def Timebase.cyclesFor (tb : Timebase) (need : Nat) : Nat :=
  let n := ceilDiv need tb.inc
  if tb.slewLeft = 0 ∨ n ≤ tb.slewLeft then n
  else tb.slewLeft + ceilDiv (need - tb.slewLeft * tb.inc) { tb with slewLeft := 0 }.inc

/-- The number of cycles to the first at which the elapsed time reaches an instant. -/
def Timebase.cyclesTo (tb : Timebase) (t : Nat) : Nat :=
  tb.cyclesFor (t - tb.instant)

/-- The number of cycles to the first at which the nanoseconds of the time of day reach 10^9 (R50). -/
def Timebase.cyclesToCarry (tb : Timebase) : Nat :=
  tb.cyclesFor (secs 1 - (ns tb.tod.nanos + tb.todFrac))

/-- The next second boundary is taken: at once when it is due, and otherwise after time has run to it (R50). -/
def State.toBoundary (s : State) (o : BoundaryOrder) : State :=
  if s.tb.carryDue then s.boundary o else (s.setTb (s.tb.run s.tb.cyclesToCarry)).boundary o

/-- A second boundary that is due is taken, in a free order against an offset change that it makes (log entry 7). -/
def State.takeBoundary (s : State) : State :=
  let (o, s1) := s.boundaryOrder
  s1.boundary o

/-- Time runs to an elapsed instant, and the second boundaries on the way are taken; one in the cycle that reaches the instant stays due,
so that either may come first (R150, log entry 6). The first argument bounds the number of turns. -/
def State.passTo : Nat → Nat → State → State
  | 0, _, s => s
  | n + 1, t, s =>
    if t ≤ s.tb.instant then s
    else if s.tb.carryDue then State.passTo n t s.takeBoundary
    else State.passTo n t (s.setTb (s.tb.run (min (s.tb.cyclesTo t) s.tb.cyclesToCarry)))

/-- Time runs to an elapsed instant; nothing happens when it is already reached. Two scales that advance alike pass one boundary in each
10^9 ns, and one more for the part of a second that the time of day stands at. -/
def State.until (s : State) (t : Nat) : State := State.passTo (2 * ((t - s.tb.instant) / secs 1) + 6) t s

/-- A timed event comes at its own instant: time runs to it when there is one and it lies ahead (R51, log entry 2). -/
def State.await (s : State) (t : Option Nat) : State :=
  match t with
  | some t => s.until t
  | none => s

end Sys2Proof.Machine
end

