-- ==== Sys2Proof/Machine/LinkEvents.lean ====
section
/-! DEFINITION. Sys2Proof/Machine/LinkEvents.lean: the events of the device and of the links: resets, frames, link conditions, quiet
runs, relay transfers, insertions (Chapter 1). A timed event that cannot come as the state stands changes nothing; one whose instant
lies ahead comes at that instant (log entry 2). -/

namespace Sys2Proof.Machine

/-- An event on the part outside INITIALISING; in INITIALISING nothing is received, judged or counted (R7). -/
def State.event (s : State) (f : State → State) : Outcome := .next (if s.initialising then s else f s)

/-! ## Device reset and the end of INITIALISING (R7, R166) -/

/-- DEVICE_RESET (R7): every block takes its reset values, the straps are sampled; the commands that wait go on waiting. -/
def execDeviceReset (cause : ResetCause) (straps : Straps) (s : State) : Outcome :=
  .next (State.afterReset s.pending cause straps s.choices)

/-- A port at the end of INITIALISING: BYPASS, or JOINING when JOINEN was high; its life timers start (R7). -/
def Port.endInitialising (x : Port) (now : Nat) (joinen : Bool) : Port :=
  let x1 : Port := { x with
    state := .bypass
    downRx := { x.downRx with lifeSince := some now }
    upRx := { x.upRx with lifeSince := some now } }
  if joinen then x1.enterJoining now else x1

/-- The 20 ms are over: the journal admits its RECORDING START before any other record, and the ports start (R7, R166). -/
def State.endInitialising (s : State) : State :=
  let s1 := { s with
    initEnd := none
    ports := s.ports.mapIdx fun _ (x : Port) => x.endInitialising s.tb.instant s.straps.joinen }
  s1.recordingStart (ResetCause.startCause s.resetCause)

/-- END_OF_INITIALISING (R7): 20 ms after the reset. -/
def execEndOfInitialising (s : State) : Outcome :=
  .next (if s.initialising then (s.await s.initEnd).endInitialising else s)

/-! ## Frames and link conditions (R5, R19, R20) -/

/-- FRAME_RECEIVED (R5). -/
def execFrameReceived (p : PortId) (d : Direction) (part : FramePart) (s : State) : Outcome :=
  s.event fun s => s.receive p d part

/-- LOSS_OF_SIGNAL_RAISED (R20). -/
def execLossOfSignalRaised (p : PortId) (d : Direction) (s : State) : Outcome :=
  s.event fun s => if ((s.port p).rx d).los then s else s.setCondition p d .lossOfSignal true

/-- LOSS_OF_SIGNAL_CLEARED (R20). -/
def execLossOfSignalCleared (p : PortId) (d : Direction) (s : State) : Outcome :=
  s.event fun s => if ((s.port p).rx d).los then s.setCondition p d .lossOfSignal false else s

/-- The instant at which a direction's life timer reaches the timeout; none while SILENT is raised or the timer does not run (R19). -/
def State.lifeInstant (s : State) (p : PortId) (d : Direction) : Option Nat :=
  if ((s.port p).rx d).silent then none
  else ((s.port p).rx d).lifeSince.map fun t => t + ms (s.port p).lifeTimeout

/-- LIFE_TIMEOUT (R19, R38, R100). -/
def execLifeTimeout (p : PortId) (d : Direction) (s : State) : Outcome :=
  s.event fun s =>
    let s1 := s.await (s.lifeInstant p d)
    if s1.lifeDue p d then s1.raiseSilent p d else s1

/-! ## Quiet runs and relay transfers (R10, R11) -/

/-- The instant at which the quiet run of a port in a state completes (R10, R11). -/
def State.quietInstant (s : State) (p : PortId) (state : PortState) : Option Nat :=
  if (s.port p).state = state then (s.port p).quietSince.map fun t => t + ms (s.port p).quiet else none

/-- A quiet run completes in a state, and the relay transfer begins (R10, R11). -/
def State.completeQuiet (s : State) (p : PortId) (state : PortState) : State :=
  let s1 := s.await (s.quietInstant p state)
  if (s1.port p).state = state ∧ (s1.port p).quietDone s1.tb.instant = true then
    s1.setPort p ((s1.port p).beginTransfer s1.tb.instant)
  else s1

/-- JOINING_QUIET_RUN_COMPLETE (R10). -/
def execJoiningQuietRunComplete (p : PortId) (s : State) : Outcome := s.event fun s => s.completeQuiet p .joining

/-- LEAVING_QUIET_RUN_COMPLETE (R11). -/
def execLeavingQuietRunComplete (p : PortId) (s : State) : Outcome := s.event fun s => s.completeQuiet p .leaving

/-- Whether a relay transfer has run for its 5 ms. -/
def Port.transferDone (x : Port) (now : Nat) : Bool := x.transferEnd.any fun t => decide (t ≤ now)

/-- RELAY_TRANSFER_END (R10, R11). -/
def execRelayTransferEnd (p : PortId) (s : State) : Outcome :=
  s.event fun s =>
    let s1 := s.await (s.port p).transferEnd
    if (s1.port p).transferDone s1.tb.instant then s1.setPort p ((s1.port p).endTransfer s1.tb.instant) else s1

/-! ## Insertion (R16, R17) -/

/-- INSERTION_BEGIN (R16): at the first instant at which its three conditions hold. -/
def execInsertionBegin (p : PortId) (s : State) : Outcome :=
  s.event fun s =>
    let x := if (s.port p).insertionWaits then (s.port p).awaitUp .flag Port.mayInsert else s.port p
    if x.mayInsert then s.setPort p ((x.beginInsertion s.straps).requiet s.tb.instant) else s

/-- INSERTION_END (R16): the closing flag of the response has been sent; until then the UP line idles in marks or in flags. -/
def execInsertionEnd (p : PortId) (marks : Bool) (s : State) : Outcome :=
  s.event fun s =>
    let idle : LineBit := if marks then .mark else .flag
    let x := if (s.port p).inserting.isSome then (s.port p).awaitUp idle fun x => x.sending.isEmpty else s.port p
    if x.insertionDone then s.setPort p (x.endInsertion.requiet s.tb.instant) else s

/-- BACKLOG_DRAINED (R17): the last stored bit has been sent. -/
def execBacklogDrained (p : PortId) (s : State) : Outcome :=
  s.event fun s =>
    let x := (s.port p).awaitUp .flag fun x => x.held.isEmpty
    if (s.port p).sending.isEmpty && !(s.port p).held.isEmpty && x.held.isEmpty then s.setPort p (x.requiet s.tb.instant) else s

end Sys2Proof.Machine
end

