-- ==== Sys2Proof/Machine/LineEvents.lean ====
section
/-! DEFINITION. Sys2Proof/Machine/LineEvents.lean: the events of the clock lines: the starts, samples and ends of impulses and probes
(R139 to R142). -/

namespace Sys2Proof.Machine

/-- IMPULSE_START (R139): the elapsed scale reaches the next start. -/
def execImpulseStart (l : LineId) (s : State) : Outcome :=
  s.event fun s =>
    let s1 := s.await (s.line l).startInstant
    if reached (s1.line l).startInstant s1.tb.instant then s1.startLine l else s1

/-- The instant at which a line's next probe begins: the next probe, no earlier than the last start plus the spacing (R142). -/
def Line.probeInstant (x : Line) : Option Nat :=
  if x.state = .fault ∧ x.impulse = none then x.nextProbe.map x.restedFrom else none

/-- PROBE_START (R142). -/
def execProbeStart (l : LineId) (s : State) : Outcome :=
  s.event fun s =>
    let s1 := s.await (s.line l).probeInstant
    if reached (s1.line l).probeInstant s1.tb.instant then s1.setLine l ((s1.line l).begin .probe s1.tb.instant) else s1

/-- The instant of an impulse's sample, half its width after its start; none once it is sampled (R140). -/
def Impulse.sampleInstant (i : Impulse) : Option Nat :=
  if i.judged.isSome then none else some (i.start + (i.finish - i.start) / 2)

/-- The instant at which the impulse in progress is to be sampled. -/
def Line.sampleInstant (x : Line) : Option Nat :=
  match x.impulse with
  | some i => i.sampleInstant
  | none => none

/-- A line's sample is taken (R140, R141). -/
def State.sampleLine (s : State) (l : LineId) (sense : Sense) : State :=
  match (s.line l).impulse with
  | some i => s.applyLine l ((s.line l).sample i sense s.tb.instant)
  | none => s

/-- IMPULSE_SAMPLE (R140, R141). -/
def execImpulseSample (l : LineId) (sense : Sense) (s : State) : Outcome :=
  s.event fun s =>
    let s1 := s.await (s.line l).sampleInstant
    if reached (s1.line l).sampleInstant s1.tb.instant then s1.sampleLine l sense else s1

/-- IMPULSE_END (R140, R141). -/
def execImpulseEnd (l : LineId) (s : State) : Outcome :=
  s.event fun s =>
    let s1 := s.await (s.line l).endInstant
    if reached (s1.line l).endInstant s1.tb.instant then s1.finishLine l else s1

end Sys2Proof.Machine
end

