-- ==== Sys2Proof/Machine/TimeEvents.lean ====
section
/-! DEFINITION. Sys2Proof/Machine/TimeEvents.lean: the events of the timebase and of the movement supervisor: pulses, miss notes, the
holdover limit, the end of a slew, second boundaries and deadlines (R49 to R61, R91, R98). -/

namespace Sys2Proof.Machine

/-- REFERENCE_PULSE (R52). -/
def execReferencePulse (s : State) : Outcome := s.event State.pulse

/-- The instant of the next miss note; none in FREE (R57, R59). -/
def Timebase.missInstant (tb : Timebase) : Option Nat := if tb.loop = .free then none else tb.nextNote

/-- MISS_NOTE (R59). -/
def execMissNote (s : State) : Outcome :=
  s.event fun s =>
    let s1 := s.await s.tb.missInstant
    if s1.tb.missDue then s1.missNote else s1

/-- The instant at which the holdover age reaches the limit; none outside HOLDOVER and while DEGRADED is in force (R60). -/
def Timebase.limitInstant (tb : Timebase) : Option Nat :=
  if tb.loop = .holdover ∧ tb.degraded = false then tb.holdoverSince.map fun t => t + secs tb.holdoverLimit else none

/-- HOLDOVER_LIMIT_REACHED (R60). -/
def execHoldoverLimitReached (s : State) : Outcome :=
  s.event fun s =>
    let s1 := s.await s.tb.limitInstant
    if s1.tb.limitDue then s1.degrade else s1

/-- The instant of the last cycle in which the slew is in force; none when no slew cycles are left (R49). -/
def Timebase.slewInstant (tb : Timebase) : Option Nat :=
  if tb.slewLeft = 0 then none
  else some (tb.instant + tb.slewLeft * tb.inc)

/-- SLEW_SPENT (R49): the slew cycles left reach zero; Sc is 0 from then on. -/
def execSlewSpent (s : State) : Outcome := s.event fun s => s.await s.tb.slewInstant

/-- SECOND_BOUNDARY (R50): the nanoseconds of the time of day reach 10^9 and carry. -/
def execSecondBoundary (order : BoundaryOrder) (s : State) : Outcome := s.event fun s => s.toBoundary order

/-- The deadline of a present record. -/
def State.deadlineOf (s : State) (i : Nat) : Option Nat :=
  match s.element i with
  | some e => e.sup.deadline
  | none => none

/-- Whether a record's deadline has come. -/
def State.deadlineDue (s : State) (i : Nat) : Bool := (s.deadlineOf i).any fun t => decide (t ≤ s.tb.instant)

/-- A record's supervision runs out of time (R91, R98). -/
def State.expireRecord (s : State) (i : Nat) : State :=
  match s.element i with
  | none => s
  | some e => s.applySupervised i (expire i (s.elementLevel e .movement) s.tb.now e)

/-- DEADLINE_EXPIRY (R91, R98). -/
def execDeadlineExpiry (i : Nat) (s : State) : Outcome :=
  s.event fun s =>
    let s1 := s.await (s.deadlineOf i)
    if s1.deadlineDue i then s1.expireRecord i else s1

end Sys2Proof.Machine
end

