-- ==== Sys2Proof/Machine/Clock.lean ====
section
/-! DEFINITION. Sys2Proof/Machine/Clock.lean: what the part does when no command waits (log entry 2): an event that is due is queued, the
service unit takes the request at the head of its queue (R171), and otherwise the oscillator makes one cycle (R49). -/

namespace Sys2Proof.Machine

/-- A command with the condition under which it is due. -/
def dueIf (c : Bool) (i : Instr) : List Instr := if c then [i] else []

/-- The events that are due on one port (R10, R11, R16, R19). -/
def State.portDue (s : State) (p : PortId) : List Instr :=
  let x := s.port p
  let quiet := x.quietDone s.tb.instant
  dueIf (s.lifeDue p .down) (.lifeTimeout p .down) ++ dueIf (s.lifeDue p .up) (.lifeTimeout p .up) ++
    dueIf (x.state == .joining && quiet) (.joiningQuietRunComplete p) ++
    dueIf (x.state == .leaving && quiet) (.leavingQuietRunComplete p) ++
    dueIf (x.transferDone s.tb.instant) (.relayTransferEnd p) ++ dueIf x.mayInsert (.insertionBegin p) ++
    dueIf x.insertionDone (.insertionEnd p false)

/-- The events that are due on one clock line; the sample and its finding come from outside (R139, R140, R142). -/
def State.lineDue (s : State) (l : LineId) : List Instr :=
  let x := s.line l
  dueIf (reached x.startInstant s.tb.instant) (.impulseStart l) ++
    dueIf (reached x.probeInstant s.tb.instant) (.probeStart l) ++
    dueIf (reached x.endInstant s.tb.instant) (.impulseEnd l)

/-- The records whose deadline has come. -/
def State.deadlinesDue (s : State) : List Nat := (s.elements.map Prod.fst).filter s.deadlineDue

/-- The command of the request in the service unit's hand (R171). -/
def State.serviceDue (s : State) : List Instr :=
  match s.service.inHand with
  | some q => [decodeRequest q.code q.request]
  | none => []

/-- Every event of the part's own that is due outside INITIALISING. -/
def State.dueEvents (s : State) : List Instr :=
  portIds.flatMap s.portDue ++ dueIf s.tb.carryDue (.secondBoundary ⟨false, []⟩) ++ dueIf s.tb.missDue .missNote ++ dueIf s.tb.limitDue .holdoverLimitReached ++
    s.deadlinesDue.map .deadlineExpiry ++ lineIds.flatMap s.lineDue ++ s.serviceDue

/-- Everything that is due. -/
def State.due (s : State) : List Instr :=
  match s.initEnd with
  | some t => dueIf (decide (t ≤ s.tb.instant)) .endOfInitialising
  | none => s.dueEvents

/-- An event of the part's own is queued, its free operand chosen: the order of a second boundary against a scheduled offset change
(log entry 7). -/
def State.queueEvent (s : State) : Instr → State
  | .secondBoundary _ => { s.boundaryOrder.2 with pending := [.secondBoundary s.boundaryOrder.1] }
  | i => { s with pending := [i] }

/-- One of the events that are due is queued; which of several is a free choice (log entry 6). -/
def State.choose (s : State) : List Instr → State
  | [] => s
  | [i] => s.queueEvent i
  | i :: rest =>
    { s with choices := s.choices + 1 }.queueEvent ((i :: rest).getD (Config.pick s.choices % (rest.length + 1)) i)

/-- A step of a part on which no command waits. -/
def State.idle (s : State) : State :=
  let s1 := if s.initialising then s else { s with service := s.service.take }
  match s1.due with
  | [] => s1.setTb s1.tb.cycle
  | events => s1.choose events

end Sys2Proof.Machine
end

