-- ==== Sys2Proof/Machine/BankRequests.lean ====
section
/-! DEFINITION. Sys2Proof/Machine/BankRequests.lean: the requests of the timetable checker: LOAD HEADER, LOAD ENTRY, ARM, DISARM,
ABANDON, CLEAR BANK, CANCEL ENTRY and READ ENTRY (R110 to R114, R127, R128, R131, R176). -/

namespace Sys2Proof.Machine

/-- The answer that gives a bank's state after the request (R176). -/
def State.answerBank (s : State) (b : BankId) : Served := answer s [(s.bank b).state.code]

/-- A request whose one parameter is a bank. -/
def bankRequest (f : BankId → State → Served) : List Byte → State → Served
  | [bank], s =>
    match BankId.ofCode bank.toNat with
    | some b => f b s
    | none => refuse s .range
  | _, s => refuse s .length

/-! ## LOAD HEADER (R110) -/

/-- LOAD HEADER on a bank. -/
def State.loadHeader (s : State) (b : BankId) (start : DaySec) : Served :=
  let x := s.bank b
  let done (y : Bank) : Served :=
    answer (s.setBank b y) (daySecOctets start.day start.sec ++ [y.state.code] ++ be 2 y.entries.length)
  match x.state with
  | .empty => done { x with state := .loading, start := some start, entries := [], nextToOpen := 0 }
  | .loading => done { x with start := some start }
  | _ => refuse s .state

/-- The request LOAD HEADER. -/
def reqLoadHeader : List Byte → State → Served
  | [bank, day1, day0, sec2, sec1, sec0], s =>
    match BankId.ofCode bank.toNat with
    | some b =>
      if 86399 < ofBe [sec2, sec1, sec0] then refuse s .range
      else s.loadHeader b ⟨BitVec.ofNat 16 (ofBe [day1, day0]), ofBe [sec2, sec1, sec0]⟩
    | none => refuse s .range
  | _, s => refuse s .length

/-- LOAD HEADER (R110). -/
def execLoadHeader (r : Request) (s : State) : Outcome := .next (s.serve 40 r reqLoadHeader)

/-! ## LOAD ENTRY (R111, R112) -/

/-- The route items of whole triples of octets; none for octets left over. -/
def routeItems : List Byte → Option (List RouteItem)
  | [] => some []
  | point1 :: point0 :: position :: rest =>
    (routeItems rest).map fun l => ⟨ofBe [point1, point0], position.toNat⟩ :: l
  | _ => none

/-- Whether a parameter of an entry lies outside its bounds (R111). -/
def Entry.outOfRange (e : Entry) : Bool :=
  decide (2047 < e.signal) || decide (100799 < e.scheduled) || decide (6 < e.route.length) ||
    e.route.any fun i => decide (2047 < i.point) || !isEnd i.position

/-- Whether an entry names a record of the wrong kind (R111). -/
def State.wrongKind (s : State) (e : Entry) : Bool :=
  !((s.element e.signal).any fun x => x.loaded.kind == .signal && x.loaded.timetabled) ||
    e.route.any fun i => !((s.element i.point).any fun x => x.loaded.kind == .point)

/-- Whether the open time lies below that of the entry loaded before it (R111). -/
def Bank.outOfOrder (x : Bank) (e : Entry) : Bool := x.entries.getLast?.any fun last => decide (e.openTime < last.openTime)

/-- The parameters of LOAD ENTRY after the bank, as taken (R186). -/
def Entry.loadedOctets (e : Entry) : List Byte :=
  be 2 e.signal ++ be 3 e.scheduled ++ be 2 e.early ++ be 2 e.late ++ be 4 e.reference.toNat ++ e.route.flatMap RouteItem.octets

/-- LOAD ENTRY on a bank, with the entry as taken (the table of R111). The response repeats the parameters as taken, the tolerances among
them, and then gives the index and the open and close times (R174, R176, R186, log entry 22). -/
def State.loadEntry (s : State) (b : BankId) (e : Entry) (changed : Bool) : Served :=
  let x := s.bank b
  if x.state ≠ .loading then refuse s .state
  else if 3072 ≤ x.entries.length then refuse s .busy
  else if e.outOfRange then refuse s .range
  else if s.wrongKind e then refuse s .kind
  else if ¬ (e.route.map RouteItem.point).Nodup then refuse s .order
  else if x.outOfOrder e then refuse s .order
  else
    answerTaken ((s.setBank b { x with entries := x.entries ++ [e] }).raiseRefs e) changed
      (e.loadedOctets ++ be 2 x.entries.length ++ be 3 e.openTime ++ be 3 e.closeTime)

/-- The request LOAD ENTRY; the route list takes its length from the parameter length (R186). -/
def reqLoadEntry : List Byte → State → Served
  | bank :: signal1 :: signal0 :: time2 :: time1 :: time0 :: early1 :: early0 :: late1 :: late0 :: ref3 :: ref2 :: ref1 :: ref0 ::
      route, s =>
    match routeItems route with
    | none => refuse s .length
    | some items =>
      if 6 < items.length then refuse s .length
      else
        match BankId.ofCode bank.toNat with
        | none => refuse s .range
        | some b =>
          let early := takeSetting 0 3600 1 (ofBe [early1, early0])
          let late := takeSetting 0 7200 1 (ofBe [late1, late0])
          s.loadEntry b
            { signal := ofBe [signal1, signal0]
              scheduled := ofBe [time2, time1, time0]
              early := early.value
              late := late.value
              reference := BitVec.ofNat 32 (ofBe [ref3, ref2, ref1, ref0])
              route := items
              status := .pending
              closing := none
              result := none } (early.changed || late.changed)
  | _, s => refuse s .length

/-- LOAD ENTRY (R111). -/
def execLoadEntry (r : Request) (s : State) : Outcome := .next (s.serve 41 r reqLoadEntry)

/-! ## ARM and DISARM (R114) -/

/-- ARM on a bank. -/
def State.armBank (b : BankId) (s : State) : Served :=
  let x := s.bank b
  if x.state ≠ .loading ∨ x.entries = [] ∨ (s.bank b.other).state = .armed then refuse s .state
  else (s.setBank b { x with state := .armed }).answerBank b

/-- ARM (R114). -/
def execArm (r : Request) (s : State) : Outcome := .next (s.serve 42 r (bankRequest State.armBank))

/-- DISARM on a bank. -/
def State.disarmBank (b : BankId) (s : State) : Served :=
  let x := s.bank b
  if x.state = .armed then (s.setBank b { x with state := .loading }).answerBank b else refuse s .state

/-- DISARM (R114). -/
def execDisarm (r : Request) (s : State) : Outcome := .next (s.serve 43 r (bankRequest State.disarmBank))

/-! ## ABANDON and CLEAR BANK (R113, R128) -/

/-- ABANDON on a bank: its references leave the open list, the BANK record stands for the entries closed, and the bank becomes EMPTY. -/
def State.abandonBank (b : BankId) (s : State) : Served :=
  let x := s.bank b
  if x.state = .active then
    let s1 := s.setOpenList (s.openList.filter fun r => r.bank != b)
    let s2 := s1.report (.bank b .abandoned (x.count .opened) (x.count .pending))
    answer (s2.emptyBank b) (be 2 (x.count .opened) ++ be 2 (x.count .pending))
  else refuse s .state

/-- ABANDON (R128). -/
def execAbandon (r : Request) (s : State) : Outcome := .next (s.serve 44 r (bankRequest State.abandonBank))

/-- CLEAR BANK on a bank. -/
def State.clearBank (b : BankId) (s : State) : Served :=
  match (s.bank b).state with
  | .empty => s.answerBank b
  | .loading => (s.emptyBank b).answerBank b
  | _ => refuse s .state

/-- CLEAR BANK (R113). -/
def execClearBank (r : Request) (s : State) : Outcome := .next (s.serve 45 r (bankRequest State.clearBank))

/-! ## CANCEL ENTRY and READ ENTRY (R127, R131) -/

/-- CANCEL ENTRY on a bank and index. -/
def State.cancelEntry (s : State) (r : EntryRef) : Served :=
  match s.entry r with
  | none => refuse s .range
  | some e => if e.status.final then refuse s .state else answer (s.closeOwn r .cancelled) [e.status.code]

/-- The request CANCEL ENTRY. -/
def reqCancelEntry : List Byte → State → Served
  | [bank, index1, index0], s =>
    match BankId.ofCode bank.toNat with
    | some b => s.cancelEntry ⟨b, ofBe [index1, index0]⟩
    | none => refuse s .range
  | _, s => refuse s .length

/-- CANCEL ENTRY (R127). -/
def execCancelEntry (r : Request) (s : State) : Outcome := .next (s.serve 46 r reqCancelEntry)

/-- The request READ ENTRY: the entry, or the bank's header when the index names none (R131). -/
def reqReadEntry : List Byte → State → Served
  | [bank, index1, index0], s =>
    match BankId.ofCode bank.toNat with
    | some b =>
      match s.entry ⟨b, ofBe [index1, index0]⟩ with
      | some e => answer s e.octets
      | none => answer s (s.headerData b)
    | none => refuse s .range
  | _, s => refuse s .length

/-- READ ENTRY (R131). -/
def execReadEntry (r : Request) (s : State) : Outcome := .next (s.serve 47 r reqReadEntry)

end Sys2Proof.Machine
end

