-- ==== Sys2Proof/Machine/ElementRequests.lean ====
section
/-! DEFINITION. Sys2Proof/Machine/ElementRequests.lean: the requests of the element tracker: LOAD WINDOW, LOAD ELEMENT, REMOVE
ELEMENT, READ ELEMENT and CLEAR STATISTICS (R27, R28, R40 to R45, R175). -/

namespace Sys2Proof.Machine

/-! ## LOAD WINDOW (R27, R28) -/

/-- The windows of a port or of the part other than one. -/
def State.otherWindows (s : State) (p : PortId) (w : LineId) : List (PortId × Window) :=
  (windowIds.filter fun x => x != (p, w)).map fun x => (x.1, s.window x.1 x.2)

/-- Whether the address ranges of two windows meet. -/
def Window.meetsAddress (x y : Window) : Bool := x.isOpen && y.isOpen && decide (x.base ≤ y.limit) && decide (y.base ≤ x.limit)

/-- Whether the index ranges of two windows meet. -/
def Window.meetsIndex (x y : Window) : Bool :=
  x.isOpen && y.isOpen && decide (x.tableBase ≤ y.lastIndex) && decide (y.tableBase ≤ x.lastIndex)

/-- Whether a record in the index range of an open window is under supervision. -/
def State.supervisedIn (s : State) (x : Window) : Bool :=
  s.elements.any fun r => x.contains r.1 && r.2.sup.active

/-- Whether two mappings are one: the same port and address, or none (R28). -/
def sameMapping : Option Mapping → Option Mapping → Bool
  | none, none => true
  | some x, some y => x.port == y.port && x.address == y.address
  | _, _ => false

/-- A present record brought into line with a window load: one whose mapping changes loses its candidate, and becomes stale when it
comes to be mapped to a port with UP SILENT raised (R28). R28 does not name the last command code, and R37 makes it absent when the
record becomes stale by R38; here it is kept (DESIGN CHOICE, log entry 40). -/
def State.realign (before after : State) (i : Nat) (e : Element) : Element :=
  if sameMapping (before.mapping i) (after.mapping i) then e
  else { e with candidate := none, stale := e.stale || after.silentPortOf i }

/-- A window takes its values, and the present records are brought into line (R28). -/
def State.takeWindow (s : State) (p : PortId) (w : LineId) (x : Window) : State :=
  let s1 := s.setWindow p w x
  { s1 with elements := mapRecords s1.elements (s.realign s1) }

/-- The base, limit and table base of a window in 6 octets. -/
def Window.octets (x : Window) : List Byte := be 2 x.base ++ be 2 x.limit ++ be 2 x.tableBase

/-- LOAD WINDOW with the base above the limit: the window closes (R27). -/
def State.closeWindow (s : State) (p : PortId) (w : LineId) : Served :=
  if s.supervisedIn (s.window p w) then refuse s .busy
  else answer (s.takeWindow p w Window.closed) Window.closed.octets

/-- LOAD WINDOW that opens a window, on rounded values (the second table of R27). -/
def State.openWindow (s : State) (p : PortId) (w : LineId) (given : Window) : Served :=
  let x : Window := ⟨given.base / 8 * 8, given.limit / 8 * 8 + 7, given.tableBase⟩
  if 2047 < x.lastIndex then refuse s .range
  else if (s.otherWindows p w).any fun y => y.1 == p && x.meetsAddress y.2 then refuse s .overlap
  else if (s.otherWindows p w).any fun y => x.meetsIndex y.2 then refuse s .overlap
  else if s.supervisedIn (s.window p w) || s.supervisedIn x then refuse s .busy
  else answerTaken (s.takeWindow p w x) (x != given) x.octets

/-- LOAD WINDOW, once its port and window are read (R27). -/
def State.loadWindow (s : State) (p : PortId) (w : LineId) (given : Window) : Served :=
  if 4095 < given.base ∨ 4095 < given.limit ∨ 2047 < given.tableBase then refuse s .range
  else if given.limit < given.base then s.closeWindow p w
  else s.openWindow p w given

/-- The request LOAD WINDOW. -/
def reqLoadWindow : List Byte → State → Served
  | [port, window, base1, base0, limit1, limit0, table1, table0], s =>
    match portOf port, lineOf window with
    | some p, some w => s.loadWindow p w ⟨ofBe [base1, base0], ofBe [limit1, limit0], ofBe [table1, table0]⟩
    | _, _ => refuse s .range
  | _, s => refuse s .length

/-- LOAD WINDOW (R27). -/
def execLoadWindow (r : Request) (s : State) : Outcome := .next (s.serve 20 r reqLoadWindow)

/-! ## LOAD ELEMENT (R30, R40 to R42, R186) -/

/-- The parameters of LOAD ELEMENT after the index and the kind, as given; the 3-octet form is one of zeros. -/
structure GivenFields where
  confirm   : Nat
  selection : Selection
  dateCommands : Bool
  timetabled   : Bool
  override  : Option Nat
  first     : Nat
  slow      : Nat
  deriving DecidableEq, Repr

/-- The loaded fields as taken, and whether any was clamped, rounded, replaced or ignored at a value other than its default. -/
structure TakenFields where
  loaded  : Loaded
  changed : Bool
  deriving DecidableEq, Repr

/-- Whether a field that the kind ignores was given at a value other than its default, 0 standing for the default (R186). -/
def ignoredGiven (default raw : Nat) : Bool := raw != 0 && raw != default

/-- The fields of a POINT: ALL is taken for the change selection, and the slow threshold is clamped down to the operate limit (R40). -/
def takePoint (g : GivenFields) (confirm override : Taken) : TakenFields :=
  let limit := takeOrDefault 500 30000 100 8000 g.first
  let slow := takeOrDefault 500 30000 100 6000 g.slow
  { loaded :=
      { kind := .point, confirm := confirm.value, selection := .all, dateCommands := g.dateCommands, timetabled := g.timetabled,
        override := g.override.map fun _ => override.value, operateLimit := limit.value,
        slowThreshold := min slow.value limit.value, provingLimit := 1500 }
    changed := confirm.changed || override.changed || limit.changed || slow.changed || decide (limit.value < slow.value) ||
      g.selection != .all }

/-- The fields of a SIGNAL: it has a proving limit and no slow threshold (R40). -/
def takeSignal (g : GivenFields) (confirm override : Taken) : TakenFields :=
  let limit := takeOrDefault 100 5000 100 1500 g.first
  { loaded :=
      { kind := .signal, confirm := confirm.value, selection := g.selection, dateCommands := g.dateCommands,
        timetabled := g.timetabled, override := g.override.map fun _ => override.value, operateLimit := 8000,
        slowThreshold := 6000, provingLimit := limit.value }
    changed := confirm.changed || override.changed || limit.changed || ignoredGiven 6000 g.slow }

/-- The fields of an OTHER record: it has neither limit nor threshold (R40, log entry 9). -/
def takeOther (g : GivenFields) (confirm override : Taken) : TakenFields :=
  { loaded :=
      { kind := .other, confirm := confirm.value, selection := g.selection, dateCommands := g.dateCommands,
        timetabled := g.timetabled, override := g.override.map fun _ => override.value, operateLimit := 8000,
        slowThreshold := 6000, provingLimit := 1500 }
    changed := confirm.changed || override.changed || ignoredGiven Config.otherFirstLimit g.first || ignoredGiven 6000 g.slow }

/-- The fields taken for a kind: K clamped to 1 to 4 with 0 standing for 2, the override clamped to 7 (R30, R40). -/
def takeFields (kind : Kind) (g : GivenFields) : TakenFields :=
  let confirm := takeOrDefault 1 4 1 2 g.confirm
  let override := takeSetting 0 7 1 (g.override.getD 0)
  match kind with
  | .point => takePoint g confirm override
  | .signal => takeSignal g confirm override
  | .other => takeOther g confirm override

/-- Whether a LOAD ELEMENT breaks a rule of kinds (the table of R40). -/
def breaksKind (kind : Kind) (g : GivenFields) : Bool :=
  (g.timetabled && kind != .signal) || (kind == .other && (g.selection == .toStop || g.selection == .toProceed))

/-- A record made present from empty (R30), its stale flag by its port. -/
def freshElement (l : Loaded) (stale : Bool) : Element where
  loaded := l
  accepted := none
  candidate := none
  stale := stale
  lastChange := none
  lastCommand := none
  undefinedSeen := false
  sup := .idle
  stats := ⟨0, 0, 0, 0, 0, 0⟩
  refs := 0

/-- A present record rewritten (R41, R42), or the reason of a refusal. -/
def rewriteElement (e : Element) (l : Loaded) (silent : Bool) : Except Reason Element :=
  if e.sup.active then .error .busy
  else if e.loaded.kind = l.kind then
    if e.loaded.kind = .signal ∧ e.loaded.timetabled = true ∧ l.timetabled = false ∧ 0 < e.refs then .error .inUse
    else .ok { e with loaded := l }
  else if 0 < e.refs then .error .inUse
  else .ok (freshElement l silent)

/-- LOAD ELEMENT, once its codes are read (R40). -/
def State.loadElement (s : State) (i : Nat) (kind : Kind) (g : GivenFields) : Served :=
  if breaksKind kind g then refuse s .kind
  else
    let t := takeFields kind g
    let done (e : Element) : Served := answerTaken (s.setElement i e) t.changed (kind.code :: t.loaded.octets)
    match s.element i with
    | none => done (freshElement t.loaded (s.silentPortOf i))
    | some e =>
      match rewriteElement e t.loaded (s.silentPortOf i) with
      | .ok e' => done e'
      | .error reason => refuse s reason

/-- The fields of the 3-octet form: every one at its default. -/
def GivenFields.defaults : GivenFields := ⟨0, .all, false, false, none, 0, 0⟩

/-- The request LOAD ELEMENT, in its 3-octet and its 11-octet form. -/
def reqLoadElement : List Byte → State → Served
  | [index1, index0, kind], s =>
    match Kind.ofCode kind.toNat with
    | some kind => if 2047 < ofBe [index1, index0] then refuse s .range else s.loadElement (ofBe [index1, index0]) kind .defaults
    | none => refuse s .range
  | [index1, index0, kind, confirm, selection, flags, override, first1, first0, slow1, slow0], s =>
    match Kind.ofCode kind.toNat, Selection.ofCode selection.toNat with
    | some kind, some selection =>
      if 2047 < ofBe [index1, index0] then refuse s .range
      else s.loadElement (ofBe [index1, index0]) kind
        { confirm := confirm.toNat
          selection := selection
          dateCommands := flags.getLsbD 0
          timetabled := flags.getLsbD 1
          override := if flags.getLsbD 2 then some override.toNat else none
          first := ofBe [first1, first0]
          slow := ofBe [slow1, slow0] }
    | _, _ => refuse s .range
  | _, s => refuse s .length

/-- LOAD ELEMENT (R40). -/
def execLoadElement (r : Request) (s : State) : Outcome := .next (s.serve 21 r reqLoadElement)

/-! ## REMOVE ELEMENT, READ ELEMENT, CLEAR STATISTICS (R43 to R45) -/

/-- REMOVE ELEMENT on an index below 2048 (R43). -/
def State.removeRecord (s : State) (i : Nat) : Served :=
  match s.element i with
  | none => answer s [flag false]
  | some e =>
    if e.sup.active then refuse s .busy
    else if 0 < e.refs then refuse s .inUse
    else answer (s.removeElement i) [flag true]

/-- The request REMOVE ELEMENT. -/
def reqRemoveElement : List Byte → State → Served
  | [index1, index0], s =>
    if 2047 < ofBe [index1, index0] then refuse s .range else s.removeRecord (ofBe [index1, index0])
  | _, s => refuse s .length

/-- REMOVE ELEMENT (R43). -/
def execRemoveElement (r : Request) (s : State) : Outcome := .next (s.serve 22 r reqRemoveElement)

/-- The request READ ELEMENT. -/
def reqReadElement : List Byte → State → Served
  | [index1, index0], s =>
    if 2047 < ofBe [index1, index0] then refuse s .range else answer s (s.elementData (ofBe [index1, index0]))
  | _, s => refuse s .length

/-- READ ELEMENT (R44). -/
def execReadElement (r : Request) (s : State) : Outcome := .next (s.serve 23 r reqReadElement)

/-- A record with its statistics zero and its undefined code seen flag clear (R45). -/
def Element.cleared (e : Element) : Element := { e with stats := ⟨0, 0, 0, 0, 0, 0⟩, undefinedSeen := false }

/-- The request CLEAR STATISTICS; 65,535 names every record. -/
def reqClearStatistics : List Byte → State → Served
  | [index1, index0], s =>
    let i := ofBe [index1, index0]
    if i = 65535 then
      answer { s with elements := mapRecords s.elements fun _ e => e.cleared } (be 2 s.elements.length)
    else if 2047 < i then refuse s .range
    else
      match s.element i with
      | none => refuse s .state
      | some e => answer (s.setElement i e.cleared) (be 2 1)
  | _, s => refuse s .length

/-- CLEAR STATISTICS (R45). -/
def execClearStatistics (r : Request) (s : State) : Outcome := .next (s.serve 24 r reqClearStatistics)

end Sys2Proof.Machine
end

