-- ==== Sys2Proof/Machine/JournalRequests.lean ====
section
/-! DEFINITION. Sys2Proof/Machine/JournalRequests.lean: the requests of the event journal: SET CLASS, SET ALERT, READ JOURNAL and
RELEASE (R153, R160 to R163, R177). -/

namespace Sys2Proof.Machine

/-- The request SET CLASS. -/
def reqSetClass : List Byte → State → Served
  | [cls, level, enable], s =>
    match JournalClass.ofCode cls.toNat, flagOfCode enable.toNat with
    | some c, some on =>
      let v := takeSetting 0 7 1 level.toNat
      let x : ClassSetting := ⟨v.value, on⟩
      answerTaken (s.setJournal { s.journal with classes := s.journal.classes.set c x }) v.changed x.octets
    | _, _ => refuse s .range
  | _, s => refuse s .length

/-- SET CLASS (R153). -/
def execSetClass (r : Request) (s : State) : Outcome := .next (s.serve 60 r reqSetClass)

/-- The request SET ALERT: a raised reserve level is judged against the records held (R163). -/
def reqSetAlert : List Byte → State → Served
  | [threshold, high1, high0, reserve], s =>
    let t := takeSetting 0 7 1 threshold.toNat
    let h := takeSetting 256 4096 1 (ofBe [high1, high0])
    let r := takeSetting 1 7 1 reserve.toNat
    if s.journal.reserve < r.value ∧ 3840 < s.journal.below r.value then refuse s .state
    else
      let j := { s.journal with threshold := t.value, watermark := h.value, reserve := r.value }
      answerTaken (s.setJournal j) (t.changed || h.changed || r.changed) (j.settings ++ [flag j.alert])
  | _, s => refuse s .length

/-- SET ALERT (R163). -/
def execSetAlert (r : Request) (s : State) : Outcome := .next (s.serve 61 r reqSetAlert)

/-- A sequence number carried by a request. -/
def seqOf (l : List Byte) : SeqNo := BitVec.ofNat 32 (ofBe l)

/-- The READ JOURNAL data: the count, the newest sequence number, the records (R188). -/
def Journal.readData (j : Journal) (n : SeqNo) : List Byte :=
  let records := j.read n
  [octet records.length] ++ be 4 j.newest.toNat ++ records.flatMap JournalRecord.octets

/-- The request READ JOURNAL. -/
def reqReadJournal : List Byte → State → Served
  | [n3, n2, n1, n0], s => answer s (s.journal.readData (seqOf [n3, n2, n1, n0]))
  | _, s => refuse s .length

/-- READ JOURNAL (R161). -/
def execReadJournal (r : Request) (s : State) : Outcome := .next (s.serve 62 r reqReadJournal)

/-- The RELEASE data: the number removed, the fill, and the oldest sequence number held or the newest (R162). -/
def Journal.releaseData (j : Journal) (removed : Nat) : List Byte :=
  be 2 removed ++ be 2 j.fill ++ be 4 (j.oldest.getD j.newest).toNat

/-- The request RELEASE. -/
def reqRelease : List Byte → State → Served
  | [n3, n2, n1, n0], s =>
    let n := seqOf [n3, n2, n1, n0]
    let j := s.journal.release s.tb.now n
    answer (s.setJournal j) (j.releaseData (s.journal.releaseCount n))
  | _, s => refuse s .length

/-- RELEASE (R162). -/
def execRelease (r : Request) (s : State) : Outcome := .next (s.serve 63 r reqRelease)

end Sys2Proof.Machine
end

