-- ==== Sys2Proof/Machine/LineRequests.lean ====
section
/-! DEFINITION. Sys2Proof/Machine/LineRequests.lean: the requests of the clock line controller: SET LINE, SET POSITION, HALT and RUN
(R134, R135, R143 to R145, R177). -/

namespace Sys2Proof.Machine

/-! ## SET LINE (R134, R135) -/

/-- The four timing settings as taken, and whether any was clamped or rounded. -/
structure TakenTimings where
  timings : LineTimings
  changed : Bool
  deriving DecidableEq, Repr

/-- The settings in the order of the table of R134: the spacing is judged against the width just taken. -/
def takeTimings (width spacing wait probe : Nat) : TakenTimings :=
  let w := takeSetting 100 2000 50 width
  let s := takeSetting (w.value + 200) 10000 50 spacing
  let v := takeSetting 0 360 1 wait
  let p := takeSetting 10 600 1 probe
  ⟨⟨w.value, s.value, v.value, p.value⟩, w.changed || s.changed || v.changed || p.changed⟩

/-- SET LINE on a line, once its period is read (R134, R135). -/
def State.setLineSettings (s : State) (l : LineId) (period : Period) (t : TakenTimings) : Served :=
  let x := s.line l
  if period ≠ x.period ∧ x.impulse.isSome = true then refuse s .busy
  else
    let step := if period = x.period then x.setTimings t.timings s.tb.instant
      else x.setPeriod period t.timings (s.tb.target period)
    let s1 := s.applyLine l step
    answerTaken s1 t.changed ([period.code] ++ (s1.line l).timings ++ [(s1.line l).state.code])

/-- The request SET LINE. -/
def reqSetLine : List Byte → State → Served
  | [line, period, width1, width0, spacing1, spacing0, wait1, wait0, probe1, probe0], s =>
    match lineOf line, Period.ofCode period.toNat with
    | some l, some p =>
      s.setLineSettings l p
        (takeTimings (ofBe [width1, width0]) (ofBe [spacing1, spacing0]) (ofBe [wait1, wait0]) (ofBe [probe1, probe0]))
    | _, _ => refuse s .range
  | _, s => refuse s .length

/-- SET LINE (R134). -/
def execSetLine (r : Request) (s : State) : Outcome := .next (s.serve 50 r reqSetLine)

/-! ## SET POSITION (R145) -/

/-- SET POSITION on a line, once its polarity is read. The response repeats the position and the polarity (R186, log entry 22). -/
def State.setPosition (s : State) (l : LineId) (position : Nat) (polarity : Polarity) : Served :=
  let x := s.line l
  if x.period.steps ≤ position then refuse s .range
  else if x.impulse.isSome then refuse s .busy
  else
    let s1 := s.applyLine l (x.place position polarity s.tb.instant)
    answer s1 (be 2 position ++ [polarity.code, (s1.line l).state.code])

/-- The request SET POSITION. -/
def reqSetPosition : List Byte → State → Served
  | [line, position1, position0, polarity], s =>
    match lineOf line, Polarity.ofCode polarity.toNat with
    | some l, some p => s.setPosition l (ofBe [position1, position0]) p
    | _, _ => refuse s .range
  | _, s => refuse s .length

/-- SET POSITION (R145). -/
def execSetPosition (r : Request) (s : State) : Outcome := .next (s.serve 51 r reqSetPosition)

/-! ## HALT and RUN (R143, R144) -/

/-- A request whose one parameter is a line that is not UNSET; the answer gives the line state and halt pending after it (R177). -/
def lineRequest (f : Line → State → LineStep) : List Byte → State → Served
  | [line], s =>
    match lineOf line with
    | none => refuse s .range
    | some l =>
      if (s.line l).state = .unset then refuse s .state
      else
        let s1 := s.applyLine l (f (s.line l) s)
        answer s1 [(s1.line l).state.code, flag (s1.line l).haltPending]
  | _, s => refuse s .length

/-- HALT (R143). -/
def execHalt (r : Request) (s : State) : Outcome := .next (s.serve 52 r (lineRequest fun x _ => x.halt))

/-- RUN (R144). -/
def execRun (r : Request) (s : State) : Outcome := .next (s.serve 53 r (lineRequest fun x s => x.run s.tb.instant))

end Sys2Proof.Machine
end

