-- ==== Sys2Proof/Machine/PortRequests.lean ====
section
/-! DEFINITION. Sys2Proof/Machine/PortRequests.lean: the requests of the port units: SET PORT, JOIN, LEAVE, READ COUNTERS and LATCH
COUNTERS (R6, R9, R22, R24, R25, R175). -/

namespace Sys2Proof.Machine

/-! ## SET PORT (R6, R10, R19, R22, R175) -/

/-- The settings of one port as a SET PORT gives them, once taken. -/
structure PortSettings where
  rate      : LineRate
  latency   : Nat
  life      : Taken
  threshold : Taken
  quiet     : Taken
  accept    : Bool
  deriving DecidableEq, Repr

/-- Whether some other port than `p` has its accept flag set. -/
def State.otherAccepts (s : State) (p : PortId) : Bool := portIds.any fun q => q != p && (s.port q).accept

/-- A completed quiet run begins the relay transfer at once (R10). -/
def Port.settleQuiet (x : Port) (now : Nat) : Port := if x.quietDone now then x.beginTransfer now else x

/-- SILENT is raised at once by a timer that has already run for the timeout (R19). -/
def State.settleLife (s : State) (p : PortId) (d : Direction) : State := if s.lifeDue p d then s.raiseSilent p d else s

/-- A port takes its settings; a change of rate ends the frames being received as aborts, and a completed quiet run begins the transfer
(R6, R10). -/
def Port.takeSettings (x : Port) (now : Nat) (t : PortSettings) : Port :=
  let x1 := if t.rate = x.rate then x else (x.cutFrame now .down).cutFrame now .up
  Port.settleQuiet { x1 with
    rate := t.rate
    latency := t.latency
    lifeTimeout := t.life.value
    errorThreshold := t.threshold.value
    quiet := t.quiet.value
    accept := t.accept } now

/-- SET PORT on a port, once its codes are read (R22). -/
def State.setPortSettings (s : State) (p : PortId) (t : PortSettings) (latch : LatchInterval) : Served :=
  let x := s.port p
  if t.rate ≠ x.rate ∧ x.state ≠ .bypass then refuse s .state
  else if x.accept = true ∧ t.accept = false ∧ s.otherAccepts p = false then refuse s .state
  else
    let s1 := { s.setPort p (x.takeSettings s.tb.instant t) with latchInterval := latch }
    let s2 := (s1.settleLife p .down).settleLife p .up
    answerTaken s2 (t.life.changed || t.threshold.changed || t.quiet.changed) (s2.portSettings p)

/-- The request SET PORT. No rule orders a code that names nothing (RANGE) against the refusals with STATE of R6 and R175; every code is
judged first (DESIGN CHOICE, log entry 39). -/
def reqSetPort : List Byte → State → Served
  | [port, rate, lat1, lat0, life1, life0, threshold, quiet, accept, latch], s =>
    match portOf port, LineRate.ofCode rate.toNat, flagOfCode accept.toNat, LatchInterval.ofCode latch.toNat with
    | some p, some rate, some accept, some latch =>
      s.setPortSettings p
        { rate := rate
          latency := ofBe [lat1, lat0]
          life := takeSetting 100 10000 100 (ofBe [life1, life0])
          threshold := takeSetting 1 255 1 threshold.toNat
          quiet := takeSetting 2 50 1 quiet.toNat
          accept := accept } latch
    | _, _, _, _ => refuse s .range
  | _, s => refuse s .length

/-- SET PORT (R22). -/
def execSetPort (r : Request) (s : State) : Outcome := .next (s.serve 10 r reqSetPort)

/-! ## JOIN and LEAVE (R9) -/

/-- The answer to a JOIN or LEAVE: the port state after the request (R175). -/
def State.answerPort (s : State) (p : PortId) : Served := answer s [(s.port p).state.code]

/-- JOIN on a port (the table of R9). -/
def State.joinPort (s : State) (p : PortId) : Served :=
  match (s.port p).state with
  | .bypass => (s.setPort p ((s.port p).enterJoining s.tb.instant)).answerPort p
  | .inline => s.answerPort p
  | .joining => refuse s .busy
  | .leaving => refuse s .busy
  | .initialising => refuse s .busy

/-- The request JOIN. -/
def reqJoin : List Byte → State → Served
  | [port], s =>
    match portOf port with
    | some p => s.joinPort p
    | none => refuse s .range
  | _, s => refuse s .length

/-- JOIN (R9). -/
def execJoin (r : Request) (s : State) : Outcome := .next (s.serve 11 r reqJoin)

/-- Whether some other port than `p` is INLINE with its accept flag set (R9). -/
def State.otherInlineAccepts (s : State) (p : PortId) : Bool :=
  portIds.any fun q => q != p && (s.port q).accept && (s.port q).state == .inline

/-- LEAVING is entered (R9, R11). -/
def Port.enterLeaving (x : Port) (now : Nat) : Port := Port.requiet { x with state := .leaving, quietSince := none } now

/-- LEAVE on a port (the table of R9). -/
def State.leavePort (s : State) (p : PortId) : Served :=
  match (s.port p).state with
  | .bypass => s.answerPort p
  | .inline =>
    if (s.port p).accept && !s.otherInlineAccepts p then refuse s .state
    else (s.setPort p ((s.port p).enterLeaving s.tb.instant)).answerPort p
  | .joining => refuse s .busy
  | .leaving => refuse s .busy
  | .initialising => refuse s .busy

/-- The request LEAVE. -/
def reqLeave : List Byte → State → Served
  | [port], s =>
    match portOf port with
    | some p => s.leavePort p
    | none => refuse s .range
  | _, s => refuse s .length

/-- LEAVE (R9). -/
def execLeave (r : Request) (s : State) : Outcome := .next (s.serve 12 r reqLeave)

/-! ## Counters (R24, R25) -/

/-- The latched counters of a group with the latch sequence number (R175); none for a group code naming no group. -/
def State.counterGroup (s : State) (p : PortId) (group : Nat) : Option (List Byte) :=
  let c := (s.port p).latched
  let seq := be 2 s.latchSeq.toNat
  match group with
  | 0 => some (c.down.octets ++ seq)
  | 1 => some (c.up.octets ++ seq)
  | 2 => some (c.port.octets ++ seq)
  | _ => none

/-- The request READ COUNTERS. -/
def reqReadCounters : List Byte → State → Served
  | [port, group], s =>
    match portOf port with
    | some p =>
      match s.counterGroup p group.toNat with
      | some data => answer s data
      | none => refuse s .range
    | none => refuse s .range
  | _, s => refuse s .length

/-- READ COUNTERS (R25). -/
def execReadCounters (r : Request) (s : State) : Outcome := .next (s.serve 13 r reqReadCounters)

/-- The request LATCH COUNTERS. -/
def reqLatchCounters : List Byte → State → Served
  | [], s => if s.latchInterval = .manual then answer s.latch (be 2 s.latch.latchSeq.toNat) else refuse s .state
  | _, s => refuse s .length

/-- LATCH COUNTERS (R24). -/
def execLatchCounters (r : Request) (s : State) : Outcome := .next (s.serve 14 r reqLatchCounters)

end Sys2Proof.Machine
end

