-- ==== Sys2Proof/Machine/TimeRequests.lean ====
section
/-! DEFINITION. Sys2Proof/Machine/TimeRequests.lean: the requests of the timebase: TIME MARK, SET TIMEBASE, RELOCK and SET CIVIL OFFSET
(R53, R60, R62, R63, R65, R66, R176, R180). -/

namespace Sys2Proof.Machine

/-! ## TIME MARK (R53, R180) -/

/-- Whether a leap of this kind for the label's day is armed or announced by the label itself (R53). -/
def Timebase.announces (tb : Timebase) (l : Label) (kind : LeapKind) : Bool :=
  tb.armedFor l.day == some kind ||
    match kind with
    | .insert => l.announcement == .insert
    | .delete => l.announcement == .delete

/-- Whether the second of a label lies outside its bounds (the list of R53). -/
def Timebase.badLabel (tb : Timebase) (l : Label) : Bool :=
  decide (86400 < l.sec) || (l.sec == 86400 && !tb.announces l .insert) || (l.sec == 86399 && tb.announces l .delete)

/-- A label becomes the pending label; an older one is discarded and counted (R53). -/
def Timebase.takeLabel (tb : Timebase) (l : Label) : Timebase := { tb.discardLabel with label := some l }

/-- The elapsed time in whole milliseconds since the last accepted pulse; every octet 255 when there is none (R180). -/
def Timebase.sincePulse (tb : Timebase) : List Byte :=
  optional 8 (fun t => be 8 ((tb.instant - t) / ms 1)) tb.lastPulse

/-- The request TIME MARK. -/
def reqTimeMark : List Byte → State → Served
  | [day1, day0, sec2, sec1, sec0, announcement], s =>
    match Announcement.ofCode announcement.toNat with
    | none => refuse s .range
    | some a =>
      let l : Label := ⟨BitVec.ofNat 16 (ofBe [day1, day0]), ofBe [sec2, sec1, sec0], a⟩
      if s.tb.badLabel l then refuse s .range
      else answer (s.setTb (s.tb.takeLabel l)) (l.octets ++ [flag s.tb.label.isSome, s.tb.loop.code] ++ s.tb.sincePulse)
  | _, s => refuse s .length

/-- TIME MARK (R53). -/
def execTimeMark (r : Request) (s : State) : Outcome := .next (s.serve 30 r reqTimeMark)

/-! ## SET TIMEBASE (R63) -/

/-- The request SET TIMEBASE; a change of the holdover limit acts at once (R60). -/
def reqSetTimebase : List Byte → State → Served
  | [gp, gi, window1, window0, step3, step2, step1, step0, limit3, limit2, limit1, limit0], s =>
    let a := takeSetting 0 10 1 gp.toNat
    let b := takeSetting 2 16 1 gi.toNat
    let c := takeSetting 1 1000 1 (ofBe [window1, window0])
    let d := takeSetting 100 100000 1 (ofBe [step3, step2, step1, step0])
    let e := takeSetting 60 86400 1 (ofBe [limit3, limit2, limit1, limit0])
    let tb := { s.tb with gp := a.value, gi := b.value, lockWindow := c.value, stepThreshold := d.value, holdoverLimit := e.value }
    answerTaken (s.setTb tb).judgeLimit (a.changed || b.changed || c.changed || d.changed || e.changed) tb.settings
  | _, s => refuse s .length

/-- SET TIMEBASE (R63). -/
def execSetTimebase (r : Request) (s : State) : Outcome := .next (s.serve 31 r reqSetTimebase)

/-! ## RELOCK (R62) -/

/-- The request RELOCK. -/
def reqRelock : List Byte → State → Served
  | [], s => answer s.relock [s.relock.tb.loop.code]
  | _, s => refuse s .length

/-- RELOCK (R62). -/
def execRelock (r : Request) (s : State) : Outcome := .next (s.serve 32 r reqRelock)

/-! ## SET CIVIL OFFSET (R65, R66) -/

/-- The schedule part of a SET CIVIL OFFSET. -/
inductive ScheduleAction where
  | keep
  | cancel
  | change (day : Day) (sec : Nat) (offset : Int)
  deriving DecidableEq, Repr

/-- The schedule part acts (R65): a change whose instant is already passed, with the time of day set, is made at the request. Beside the
state: whether it was made. -/
def State.takeSchedule (s : State) : ScheduleAction → State × Bool
  | .keep => (s, false)
  | .cancel => (s.setTb { s.tb with scheduled := none }, false)
  | .change day sec offset =>
    let s1 := s.setTb { s.tb with scheduled := some ⟨day, sec, takeOffset offset⟩ }
    (s1.judgeOffset, s1.tb.offsetDue.isSome)

/-- Whether the schedule part's new offset is clamped or rounded. -/
def ScheduleAction.changed : ScheduleAction → Bool
  | .change _ _ offset => takeOffset offset != offset
  | _ => false

/-- The schedule part as taken, in the order in which it was given (R186). -/
def ScheduleAction.octets : ScheduleAction → List Byte
  | .keep => []
  | .cancel => [0]
  | .change day sec offset => [1] ++ daySecOctets day sec ++ beSigned 2 (takeOffset offset)

/-- The offset for now as taken (R186). -/
def offsetOctets : Option Int → List Byte
  | some v => beSigned 2 (takeOffset v)
  | none => []

/-- SET CIVIL OFFSET, once its parts are read: the offset for now first, and then the schedule (R65). The response
repeats the parts given, as taken, ahead of what stands after the request (R174, R176, R186, log entry 22). -/
def State.setCivilOffset (s : State) (now : Option Int) (action : ScheduleAction) : Served :=
  let s1 := match now with
    | some v => s.changeOffset (takeOffset v)
    | none => s
  let (s2, made) := s1.takeSchedule action
  answerTaken s2 ((now.any fun v => takeOffset v != v) || action.changed)
    (offsetOctets now ++ action.octets ++ beSigned 2 s2.tb.civilOffset ++ optional 7 ScheduledChange.octets s2.tb.scheduled ++ [flag made])

/-- A form with CANCEL: the action code of the other form is a LENGTH, any further one a RANGE (R186). -/
def State.cancelForm (s : State) (now : Option Int) (action : Nat) : Served :=
  match action with
  | 0 => s.setCivilOffset now .cancel
  | 1 => refuse s .length
  | _ => refuse s .range

/-- A form with CHANGE; a second of day above 86,399 is refused with RANGE (R65, R186). -/
def State.changeForm (s : State) (now : Option Int) (action : Nat) (day : Day) (sec : Nat) (offset : Int) : Served :=
  match action with
  | 1 => if 86399 < sec then refuse s .range else s.setCivilOffset now (.change day sec offset)
  | 0 => refuse s .length
  | _ => refuse s .range

/-- The request SET CIVIL OFFSET, read by its length (R186). -/
def reqSetCivilOffset : List Byte → State → Served
  | [], s => s.setCivilOffset none .keep
  | [action], s => s.cancelForm none action.toNat
  | [now1, now0], s => s.setCivilOffset (some (signedOfBe now1 now0)) .keep
  | [now1, now0, action], s => s.cancelForm (some (signedOfBe now1 now0)) action.toNat
  | [action, day1, day0, sec2, sec1, sec0, new1, new0], s =>
    s.changeForm none action.toNat (BitVec.ofNat 16 (ofBe [day1, day0])) (ofBe [sec2, sec1, sec0]) (signedOfBe new1 new0)
  | [now1, now0, action, day1, day0, sec2, sec1, sec0, new1, new0], s =>
    s.changeForm (some (signedOfBe now1 now0)) action.toNat (BitVec.ofNat 16 (ofBe [day1, day0])) (ofBe [sec2, sec1, sec0])
      (signedOfBe new1 new0)
  | _, s => refuse s .length

/-- SET CIVIL OFFSET (R65). -/
def execSetCivilOffset (r : Request) (s : State) : Outcome := .next (s.serve 33 r reqSetCivilOffset)

end Sys2Proof.Machine
end

