-- ==== Sys2Proof/Machine/Dispatch.lean ====
section
/-! DEFINITION. Sys2Proof/Machine/Dispatch.lean: the meaning of every command, one arm for each constructor of Instr. -/

namespace Sys2Proof.Machine

def exec (i : Instr) (s : State) : Host.Outcome State Fault Refusal :=
  match i with
  | .deviceReset cause straps => Sys2Proof.Machine.execDeviceReset cause straps s
  | .endOfInitialising => Sys2Proof.Machine.execEndOfInitialising s
  | .frameReceived p d part => Sys2Proof.Machine.execFrameReceived p d part s
  | .lossOfSignalRaised p d => Sys2Proof.Machine.execLossOfSignalRaised p d s
  | .lossOfSignalCleared p d => Sys2Proof.Machine.execLossOfSignalCleared p d s
  | .lifeTimeout p d => Sys2Proof.Machine.execLifeTimeout p d s
  | .joiningQuietRunComplete p => Sys2Proof.Machine.execJoiningQuietRunComplete p s
  | .leavingQuietRunComplete p => Sys2Proof.Machine.execLeavingQuietRunComplete p s
  | .relayTransferEnd p => Sys2Proof.Machine.execRelayTransferEnd p s
  | .insertionBegin p => Sys2Proof.Machine.execInsertionBegin p s
  | .insertionEnd p marks => Sys2Proof.Machine.execInsertionEnd p marks s
  | .backlogDrained p => Sys2Proof.Machine.execBacklogDrained p s
  | .referencePulse => Sys2Proof.Machine.execReferencePulse s
  | .missNote => Sys2Proof.Machine.execMissNote s
  | .holdoverLimitReached => Sys2Proof.Machine.execHoldoverLimitReached s
  | .slewSpent => Sys2Proof.Machine.execSlewSpent s
  | .secondBoundary order => Sys2Proof.Machine.execSecondBoundary order s
  | .deadlineExpiry element => Sys2Proof.Machine.execDeadlineExpiry element s
  | .impulseStart l => Sys2Proof.Machine.execImpulseStart l s
  | .probeStart l => Sys2Proof.Machine.execProbeStart l s
  | .impulseSample l sense => Sys2Proof.Machine.execImpulseSample l sense s
  | .impulseEnd l => Sys2Proof.Machine.execImpulseEnd l s
  | .identify r => Sys2Proof.Machine.execIdentify r s
  | .unknownRequestCode code r => Sys2Proof.Machine.execUnknownRequestCode code r s
  | .readStatus r => Sys2Proof.Machine.execReadStatus r s
  | .setPort r => Sys2Proof.Machine.execSetPort r s
  | .join r => Sys2Proof.Machine.execJoin r s
  | .leave r => Sys2Proof.Machine.execLeave r s
  | .readCounters r => Sys2Proof.Machine.execReadCounters r s
  | .latchCounters r => Sys2Proof.Machine.execLatchCounters r s
  | .loadWindow r => Sys2Proof.Machine.execLoadWindow r s
  | .loadElement r => Sys2Proof.Machine.execLoadElement r s
  | .removeElement r => Sys2Proof.Machine.execRemoveElement r s
  | .readElement r => Sys2Proof.Machine.execReadElement r s
  | .clearStatistics r => Sys2Proof.Machine.execClearStatistics r s
  | .timeMark r => Sys2Proof.Machine.execTimeMark r s
  | .setTimebase r => Sys2Proof.Machine.execSetTimebase r s
  | .relock r => Sys2Proof.Machine.execRelock r s
  | .setCivilOffset r => Sys2Proof.Machine.execSetCivilOffset r s
  | .loadHeader r => Sys2Proof.Machine.execLoadHeader r s
  | .loadEntry r => Sys2Proof.Machine.execLoadEntry r s
  | .arm r => Sys2Proof.Machine.execArm r s
  | .disarm r => Sys2Proof.Machine.execDisarm r s
  | .abandon r => Sys2Proof.Machine.execAbandon r s
  | .clearBank r => Sys2Proof.Machine.execClearBank r s
  | .cancelEntry r => Sys2Proof.Machine.execCancelEntry r s
  | .readEntry r => Sys2Proof.Machine.execReadEntry r s
  | .setLine r => Sys2Proof.Machine.execSetLine r s
  | .setPosition r => Sys2Proof.Machine.execSetPosition r s
  | .halt r => Sys2Proof.Machine.execHalt r s
  | .run r => Sys2Proof.Machine.execRun r s
  | .setClass r => Sys2Proof.Machine.execSetClass r s
  | .setAlert r => Sys2Proof.Machine.execSetAlert r s
  | .readJournal r => Sys2Proof.Machine.execReadJournal r s
  | .release r => Sys2Proof.Machine.execRelease r s
  | .resetTables r => Sys2Proof.Machine.execResetTables r s

end Sys2Proof.Machine
end

