-- ==== Sys2Proof/Safety.lean ====
section
/-! DEFINITION. Sys2Proof/Safety.lean: what the manual promises of every state that a run reaches: the device laws and the capacities,
and the conditions in whose terms the statements speak. -/

namespace Sys2Proof.Machine

/-! ## When a request is carried out at once -/

/-- The part takes requests, and none is under way: outside INITIALISING (R7), and not between two steps of RESET TABLES (R171). -/
abbrev State.ready (s : State) : Prop := s.initialising = false ∧ s.service.resetting = none

/-- RESET TABLES without a pause between its steps (R181). -/
def State.resetAtOnce (s : State) : Served :=
  answer ((s.abandonAll.resetBanks.emptyTables).recordingStart .tablesReset)
    (be 2 s.supervisedRecords.length ++ s.bankA.closings.octets ++ s.bankB.closings.octets)

/-- The request RESET TABLES. -/
def reqResetTables : List Byte → State → Served
  | [], s => s.resetAtOnce
  | _, s => refuse s .length

/-- What each request makes of its parameters and the state that has taken it, by its code (R186). -/
def requestMeaning (code : Byte) : List Byte → State → Served :=
  match code.toNat with
  | 1 => reqIdentify
  | 2 => reqReadStatus
  | 10 => reqSetPort
  | 11 => reqJoin
  | 12 => reqLeave
  | 13 => reqReadCounters
  | 14 => reqLatchCounters
  | 20 => reqLoadWindow
  | 21 => reqLoadElement
  | 22 => reqRemoveElement
  | 23 => reqReadElement
  | 24 => reqClearStatistics
  | 30 => reqTimeMark
  | 31 => reqSetTimebase
  | 32 => reqRelock
  | 33 => reqSetCivilOffset
  | 40 => reqLoadHeader
  | 41 => reqLoadEntry
  | 42 => bankRequest State.armBank
  | 43 => bankRequest State.disarmBank
  | 44 => bankRequest State.abandonBank
  | 45 => bankRequest State.clearBank
  | 46 => reqCancelEntry
  | 47 => reqReadEntry
  | 50 => reqSetLine
  | 51 => reqSetPosition
  | 52 => lineRequest fun x _ => x.halt
  | 53 => lineRequest fun x s => x.run s.tb.instant
  | 60 => reqSetClass
  | 61 => reqSetAlert
  | 62 => reqReadJournal
  | 63 => reqRelease
  | 70 => reqResetTables
  | _ => fun _ s => refuse s .unknown

/-- The lengths in octets of the parameters of a request, by its code (the table of R186); LOAD ENTRY carries 0 to 6 route items. -/
def requestLengths (code : Byte) : List Nat :=
  match code.toNat with
  | 2 => [1, 2]
  | 10 => [10]
  | 11 => [1]
  | 12 => [1]
  | 13 => [2]
  | 20 => [8]
  | 21 => [3, 11]
  | 22 => [2]
  | 23 => [2]
  | 24 => [2]
  | 30 => [6]
  | 31 => [12]
  | 33 => [0, 1, 2, 3, 8, 10]
  | 40 => [6]
  | 41 => [14, 17, 20, 23, 26, 29, 32]
  | 42 => [1]
  | 43 => [1]
  | 44 => [1]
  | 45 => [1]
  | 46 => [3]
  | 47 => [3]
  | 50 => [10]
  | 51 => [4]
  | 52 => [1]
  | 53 => [1]
  | 60 => [3]
  | 61 => [4]
  | 62 => [4]
  | 63 => [4]
  | _ => [0]

/-! ## Records -/

/-- The state after one record of the part's own instant has been offered, and nothing else (R78). -/
def State.withRecord (s : State) (level : Nat) (body : Body) : State :=
  s.setJournal (s.journal.offer s.tb.now ⟨level, s.tb.now, false, false, body⟩)

/-! ## Supervisions that are closed together (R100, R101) -/

/-- The records under supervision, in the order of the table. -/
def State.supervised (s : State) : List (Nat × Element) := s.elements.filter fun x => x.2.sup != .idle

/-- The state after one MOVEMENT OUTCOME record for each of these records, in order: its target and no time, the stamp of the instant (R103). -/
def State.withOutcomes (s : State) (outcome : MoveOutcome) (records : List (Nat × Element)) : State :=
  records.foldl (fun v x => v.withRecord (s.elementLevel x.2 .movement)
    (.movementOutcome x.1 outcome (x.2.sup.target.getD 0) none none)) s

/-! ## What a LOAD WINDOW is judged against (R27) -/

/-- The window meets another open window: in the index range, or, on its own port, in the address range. -/
def State.overlaps (s : State) (p : PortId) (w : LineId) (x : Window) : Prop :=
  ∃ q v, (q, v) ≠ (p, w) ∧ (s.window q v).base ≤ (s.window q v).limit ∧
    ((q = p ∧ x.base ≤ (s.window q v).limit ∧ (s.window q v).base ≤ x.limit) ∨
      (x.tableBase ≤ (s.window q v).tableBase + ((s.window q v).limit - (s.window q v).base) ∧
        (s.window q v).tableBase ≤ x.tableBase + (x.limit - x.base)))

/-- A record in the index range of an open window is under supervision. -/
def State.touches (s : State) (x : Window) : Prop :=
  x.base ≤ x.limit ∧ ∃ r ∈ s.elements, r.2.sup ≠ .idle ∧ x.tableBase ≤ r.1 ∧ r.1 ≤ x.tableBase + (x.limit - x.base)

/-! ## What a route item is judged by (R125) -/

/-- The point of an item can be judged, and shows this end. -/
def State.shows (s : State) (item : RouteItem) (position : Nat) : Prop :=
  ∃ f, s.element item.point = some f ∧ f.stale = false ∧ f.sup = .idle ∧ f.accepted = some position

/-- The point of an item is present, fresh, at rest and known. -/
def State.verifies (s : State) (item : RouteItem) : Prop := ∃ v, s.shows item v

/-! ## What a recomputation of the target makes of a line (R137) -/

/-- The line `y` that a recomputation with this result makes of the line `x`: as it was when the target held is the result; with the new
target and a decision when it follows its target; with the new target alone otherwise. -/
def Line.takesTarget (x y : Line) (t : Option Nat) (now : Nat) : Prop :=
  (x.target = t → y = x) ∧
  (x.target ≠ t → x.state = .running ∨ x.state = .catchingUp ∨ x.state = .waiting →
    y = (Line.decision { x with target := t } now).line) ∧
  (x.target ≠ t → x.state = .unset ∨ x.state = .halted ∨ x.state = .fault → y = { x with target := t })

/-- The state after the CLOCK LINE records of a recomputation of the targets under this timebase: those of the decision on each line that
follows its target and whose target changes, L0 to L3 (log entry 42, DESIGN CHOICE). -/
def State.withDecisions (s : State) (tb : Timebase) : State :=
  lineIds.foldl (fun v l =>
    if (s.line l).state.following = true ∧ (s.line l).target ≠ tb.target (s.line l).period then
      (Line.decision { s.line l with target := tb.target (s.line l).period } s.tb.instant).notes.foldl
        (fun u n => u.withRecord (s.levelOf .clock) (.clockLine l n.event n.fault n.position)) v
    else v) s

/-! ## The order of the open list (R122) -/

/-- No reference of the list comes ahead of one before it. -/
def State.openListSorted (s : State) : Prop := s.openList.Pairwise fun x y => s.refBefore Entry.closeTime y x = false

/-- The start instants are seconds of a day and lie within 32,000 days of one another, so that the close instants of the two banks, which
R109 compares by a signed difference of days, have one order. -/
def State.startsNear (s : State) : Prop :=
  (∀ b x, (s.bank b).start = some x → x.sec < 86400) ∧
  ∀ x y, s.bankA.start = some x → s.bankB.start = some y → -32000 ≤ dayDiff x.day y.day ∧ dayDiff x.day y.day ≤ 32000

/-! ## Laws -/

/-- The device law of R55: the rate correction within ±50,000 ppb and the slew within ±500,000 ns. -/
def Timebase.lawful (tb : Timebase) : Prop :=
  -50000 ≤ tb.rate ∧ tb.rate ≤ 50000 ∧ -500000 ≤ tb.slew ∧ tb.slew ≤ 500000

/-- The second of day lies in its range, and so does that of a pending label (R48, R53). -/
def Timebase.inDay (tb : Timebase) : Prop := tb.tod.sec ≤ 86400 ∧ ∀ l, tb.label = some l → l.sec ≤ 86400

/-- The device law of R155: the records stand in write order with consecutive sequence numbers, the newest one below the counter. -/
def Journal.consecutive (j : Journal) : Prop :=
  ∀ k r, j.records[k]? = some r → r.seq = j.next - BitVec.ofNat 32 (j.fill - k)

/-- The journal holds at most 4096 records, of them at most 3,840 below the reserve level, which lies from 1 to 7 (R154, R156, R163). -/
def Journal.withinReserve (j : Journal) : Prop :=
  j.fill ≤ 4096 ∧ j.below j.reserve ≤ 3840 ∧ 1 ≤ j.reserve ∧ j.reserve ≤ 7

/-- At most one bank is ARMED and at most one is ACTIVE (R114). -/
def State.banksLawful (s : State) : Prop :=
  ¬ (s.bankA.state = .armed ∧ s.bankB.state = .armed) ∧ ¬ (s.bankA.state = .active ∧ s.bankB.state = .active)

/-- The device law of R118: a RETIRING bank holds at least one OPEN entry. -/
def State.retiringLawful (s : State) : Prop := ∀ b, (s.bank b).state = .retiring → 0 < (s.bank b).count .opened

/-- The device law of R122: every OPEN entry of either bank stands in the open list exactly once, and nothing else does; only a bank that
is ACTIVE or RETIRING holds one (R108, R116 to R119). -/
def State.openListLawful (s : State) : Prop :=
  (∀ r, s.openList.count r = match s.entry r with
    | some e => if e.status = .opened then 1 else 0
    | none => 0) ∧
  ∀ b, (s.bank b).state ≠ .active → (s.bank b).state ≠ .retiring → (s.bank b).count .opened = 0

/-- The device law of R26 and R27: an open window lies within the addresses and the indices, and two open windows have no index in common,
nor two of one port an address. -/
def State.windowsLawful (s : State) : Prop :=
  (∀ p w, (s.window p w).base ≤ (s.window p w).limit → (s.window p w).limit ≤ 4095 ∧
    (s.window p w).tableBase + ((s.window p w).limit - (s.window p w).base) ≤ 2047) ∧
  ∀ p w, ¬ ((s.window p w).base ≤ (s.window p w).limit ∧ s.overlaps p w (s.window p w))

/-- The device law of R38: no record is stale while under supervision. -/
def State.staleLawful (s : State) : Prop := ∀ i e, s.element i = some e → e.stale = true → e.sup = .idle

/-- The queues hold no more than their capacities: 8 requests (R170), 4 responses on each port (R15), 256 references (R122). -/
def State.queuesBounded (s : State) : Prop :=
  s.service.queue.length ≤ 8 ∧ (∀ p, (s.port p).responses.length ≤ 4) ∧ s.openList.length ≤ 256

/-- What keeps an UP insertion backlog within 630 bits (R16): backlog and bits to send are no more than that, no response that waits has more
than 64 octets of content, and no entry that a response could carry has more than 6 route items (R108). -/
def State.backlogLawful (s : State) : Prop :=
  (∀ p, (s.port p).backlog + (s.port p).sending.length ≤ 630 ∧
    ∀ r ∈ (s.port p).responses, (contentOf (responseOctets s.straps r)).length ≤ 512) ∧
  ∀ b, ∀ e ∈ (s.bank b).entries, e.route.length ≤ 6

/-- Every displayed position is a step of its dial (R133). -/
def State.positionsLawful (s : State) : Prop := ∀ l, (s.line l).position < (s.line l).period.steps

/-- At least one port has its service accept flag set (R175). -/
def State.someAccepts (s : State) : Prop := ∃ p, (s.port p).accept = true

/-- How many times the entries of a bank name one element record (R112). -/
def Bank.naming (x : Bank) (i : Nat) : Nat := (x.entries.map fun e => e.names.count i).sum

/-- A bank holds at most 3,072 entries, none when it is EMPTY, and no entry names a record twice (R107, R108, R112). -/
def Bank.lawful (x : Bank) : Prop :=
  x.entries.length ≤ 3072 ∧ (x.state = .empty → x.entries = []) ∧ ∀ e ∈ x.entries, e.names.Nodup

/-- The device law of R112: each present record's reference count is the number of entries that name it, and every record that an entry
names is present. Between the second and the third step of RESET TABLES the banks hold no entry (R181). -/
def State.refsLawful (s : State) : Prop :=
  s.bankA.lawful ∧ s.bankB.lawful ∧
  (∀ g, s.service.resetting = some g → g.closed.isSome = true → s.bankA.entries = [] ∧ s.bankB.entries = []) ∧
  ∀ i, match s.element i with
    | some e => e.refs = s.bankA.naming i + s.bankB.naming i
    | none => s.bankA.naming i + s.bankB.naming i = 0

/-- A time of day as nanoseconds since day 0, 00:00:00, each day counted with 86,400 seconds. -/
def TimeOfDay.linear (t : TimeOfDay) : Nat := (t.day.toNat * 86400 + t.sec) * 1000000000 + t.nanos

end Sys2Proof.Machine
end

