-- ==== Sys2Proof/WellFormed.lean ====
section
/-! DEFINITION. Sys2Proof/WellFormed.lean: which commands can reach the part at all. The bounds of an index or a setting
inside a request are not checked here: a request that breaks one is a request like any other, which the part refuses. -/

namespace Sys2Proof

/-- A service telegram has at most 64 octets of content with the two of the header, the code, the tag and the two of the
check (R5, R169), so a request carries at most 58 parameter octets. -/
def Request.fits (r : Request) : Bool := r.params.length ≤ 58

/-- The checks on a command's operands. The ones at the end of an aborted frame belong to its abort (R5). -/
def Instr.wellFormed : Instr → Bool
  | .frameReceived _ _ (.idle _ bits) => 0 < bits
  | .frameReceived _ _ (.content bits) => !bits.isEmpty
  | .frameReceived _ _ (.aborted rest) => rest.getLast? != some true
  | .deadlineExpiry element => element < 2048
  | .unknownRequestCode code r => !knownRequestCodes.contains code && r.fits
  | i => match requestOf i with
    | some (_, r) => r.fits
    | none => true

end Sys2Proof
end

