-- ==== Sys2Proof/Certificates/Slice0/Obligations.lean ====
section
/-! DEFINITION. Sys2Proof/Certificates/Slice0/Obligations.lean: the statements for the provers. Equations between states say the frame:
what the right-hand side does not name is as before. -/

open Sys2Proof Sys2Proof.Machine

/-! ## The machine -/

/-- The command at the front of the queue is carried out with the rest of the queue behind it. The manual has no such queue: that commands
wait in one, first in, first out, is the model's own choice (log entries 2, 11 and 12). -/
def Obligations.StepRunsFront : Prop :=
  ∀ (c : Instr) (rest : List Instr) (s : State), s.pending = c :: rest → step s = exec c { s with pending := rest }

/-- The model's choice (log entries 2, 6 and 7), after R49, R51 and R171. With no command waiting: when nothing is due the scales make one
cycle; when one event is due it is queued, its free operands chosen; of several one is queued. The command of a request in the service
unit's hand is due; an idle service unit first takes the head of its request queue (log entry 12). In INITIALISING the scales make cycles
until its end is due, which is then queued (R7, R48). -/
def Obligations.IdlePartKeepsTime : Prop :=
  (∀ s : State, s.pending = [] → s.initialising = false →
    (s.service.inHand ≠ none ∨ s.service.queue = [] →
      (s.due = [] → step s = .next (s.setTb s.tb.cycle)) ∧
      (∀ i, s.due = [i] → (∀ o, i ≠ .secondBoundary o) → step s = .next { s with pending := [i] }) ∧
      (∀ o, s.due = [.secondBoundary o] →
        (s.tb.scheduled = none → step s = .next { s with pending := [.secondBoundary ⟨false, []⟩] }) ∧
        (∀ c, s.tb.scheduled = some c → step s = .next { s with
          pending := [.secondBoundary ⟨Config.offsetFirst s.choices, Config.between s.choices⟩], choices := s.choices + 1 })) ∧
      (∀ i j rest, s.due = i :: j :: rest →
        ∃ k ∈ s.due, step s = .next (State.queueEvent { s with choices := s.choices + 1 } k))) ∧
    (∀ q, s.service.inHand = some q → decodeRequest q.code q.request ∈ s.due ∧
      (s.due = [decodeRequest q.code q.request] →
        step s = .next { s with pending := [decodeRequest q.code q.request] })) ∧
    (∀ q rest g, s.service = ⟨q :: rest, none, g⟩ →
      step s = step { s with service := ⟨rest, some q, g⟩ } ∧
      (({ s with service := ⟨rest, some q, g⟩ } : State).due = [decodeRequest q.code q.request] →
        step s = .next { s with service := ⟨rest, some q, g⟩, pending := [decodeRequest q.code q.request] }))) ∧
  ∀ (s : State) (t : Nat), s.pending = [] → s.initEnd = some t →
    (s.tb.instant < t → step s = .next (s.setTb s.tb.cycle)) ∧
    (t ≤ s.tb.instant → step s = .next { s with pending := [.endOfInitialising] })

/-- In INITIALISING no command but a device reset and the end of INITIALISING changes anything: no telegram, no request and no pulse is
taken (R7; that the other commands have no effect either is log entry 14, DEDUCED). After its 20 ms every port is in BYPASS, or in JOINING
when JOINEN was high, its life timers start, and in JOINING its quiet run and its JOINING milliseconds begin; its settings, its conditions,
its queues and its counters are as they were; the journal admits a RECORDING START with sequence number 0; nothing else changes (R7, R166).
-/
def Obligations.InitialisingTakesNothingUntilItsEnd : Prop :=
  (∀ (i : Instr) (s : State), s.initialising = true → i ≠ .endOfInitialising → (∀ c t, i ≠ .deviceReset c t) →
    exec i s = .next s) ∧
  ∀ (s : State) (t : Nat), s.initEnd = some t → t ≤ s.tb.instant → s.journal = Journal.afterReset →
    ∃ u : State, exec .endOfInitialising s = .next u ∧ u.initialising = false ∧
      (∀ p,
        (s.straps.joinen = false → u.port p = { s.port p with
          state := .bypass
          downRx := { (s.port p).downRx with lifeSince := some s.tb.instant }
          upRx := { (s.port p).upRx with lifeSince := some s.tb.instant } }) ∧
        (s.straps.joinen = true → u.port p = { s.port p with
          state := .joining
          downRx := { (s.port p).downRx with lifeSince := some s.tb.instant }
          upRx := { (s.port p).upRx with lifeSince := some s.tb.instant }
          joinSince := some s.tb.instant
          joinCredited := 0
          quietSince := if (s.port p).transferEnd = none ∧ (s.port p).downRx.idle = true ∧ (s.port p).upRx.idle = true then
            some s.tb.instant else none })) ∧
      u.journal = { s.journal with
        records := [⟨0, ⟨7, s.tb.now, false, false, .recordingStart (ResetCause.startCause s.resetCause)⟩⟩], next := 1 } ∧
      u = { s with initEnd := none, ports := u.ports, journal := u.journal }

/-- A device reset gives the blocks their reset values and samples the straps (R6, R7, R22, R23, R26, R48, R63, R107, R133, R134, R152,
R154); INITIALISING ends at elapsed 20 ms (R7). Where the manual names no value of a receiver, of the relay (its marks, its clean run, the
bits in the delay and those sent), of the miss timing or of the carry mark, the model's is log entry 35 (DESIGN CHOICE). The commands that
wait are the model's own and stay (log entry 12). -/
def Obligations.DeviceResetGivesResetValues : Prop :=
  ∀ (c : ResetCause) (t : Straps) (s : State), ∃ u : State, exec (.deviceReset c t) s = .next u ∧
    u.initialising = true ∧ u.initEnd = some (ms 20) ∧ u.resetCause = c ∧ u.straps = t ∧ u.pending = s.pending ∧ u.choices = s.choices ∧
    (∀ p, (u.port p).state = .initialising ∧ (u.port p).transferEnd = none ∧ (u.port p).relay = false ∧
      (u.port p).rate = (match t.ratesel2, t.ratesel1 with
        | false, false => .k64
        | false, true => .k256
        | true, false => .k1024
        | true, true => .k2048) ∧
      (u.port p).latency = 0 ∧ (u.port p).lifeTimeout = 2000 ∧ (u.port p).errorThreshold = 4 ∧ (u.port p).quiet = 8 ∧
      (u.port p).accept = (p == 0) ∧ (u.port p).responses = [] ∧ (u.port p).inserting = none ∧ (u.port p).backlog = 0 ∧
      (u.port p).sending = [] ∧ (u.port p).downDelay = [] ∧ (u.port p).upDelay = [] ∧ (u.port p).quietSince = none ∧
      (u.port p).joinSince = none ∧ (u.port p).joinCredited = 0 ∧ (u.port p).upFlags = 0 ∧ (u.port p).markRun = 0 ∧ (u.port p).skipping = false ∧
      (u.port p).toField = [] ∧ (u.port p).toCentre = [] ∧
      (u.port p).live = Counters.zero ∧ (u.port p).latched = Counters.zero ∧
      (u.port p).downRx = ⟨none, [], none, false, false, false, 0, false, 0, false⟩ ∧
      (u.port p).upRx = ⟨none, [], none, false, false, false, 0, false, 0, false⟩) ∧
    u.latchInterval = .s60 ∧ u.latchSeq = 0 ∧ (∀ p w, u.window p w = ⟨4095, 0, 0⟩) ∧ u.elements = [] ∧
    u.tb.tod = ⟨0, 0, 0⟩ ∧ u.tb.todFrac = 0 ∧ u.tb.elapsed = 0 ∧ u.tb.elapsedFrac = 0 ∧ u.tb.carryDue = false ∧
    u.tb.nextNote = none ∧ u.tb.setFlag = false ∧ u.tb.loop = .free ∧ u.tb.fastReturn = false ∧
    u.tb.rate = 0 ∧ u.tb.slew = 0 ∧ u.tb.slewLeft = 0 ∧ u.tb.good = 0 ∧ u.tb.bad = 0 ∧ u.tb.steps = 0 ∧ u.tb.misses = 0 ∧
    u.tb.holdoverAge = 0 ∧ u.tb.degraded = false ∧ u.tb.lastPulse = none ∧ u.tb.lastRelock = none ∧
    u.tb.spurious = 0 ∧ u.tb.unusedLabels = 0 ∧
    u.tb.label = none ∧ u.tb.armedLeap = none ∧ u.tb.recentLeap = none ∧ u.tb.civilOffset = 0 ∧
    u.tb.scheduled = none ∧ u.tb.gp = 4 ∧ u.tb.gi = 8 ∧ u.tb.lockWindow = 20 ∧ u.tb.stepThreshold = 1000 ∧
    u.tb.holdoverLimit = 3600 ∧
    u.bankA = ⟨.empty, none, [], 0, none⟩ ∧ u.bankB = ⟨.empty, none, [], 0, none⟩ ∧ u.openList = [] ∧
    (∀ l, (u.line l).state = .unset ∧ (u.line l).period = .p720 ∧ (u.line l).position = 0 ∧
      (u.line l).lastPolarity = .negative ∧ (u.line l).faultKind = none ∧ (u.line l).impulse = none ∧
      (u.line l).haltPending = false ∧ (u.line l).lastStart = none ∧ (u.line l).nextStart = none ∧
      (u.line l).nextProbe = none ∧ (u.line l).probeBase = none ∧ (u.line l).target = none ∧
      (u.line l).width = 600 ∧ (u.line l).spacing = 1500 ∧
      (u.line l).waitWindow = 90 ∧ (u.line l).probeInterval = 60) ∧
    u.journal.records = [] ∧ u.journal.next = 0 ∧ u.journal.gap = none ∧
    u.journal.classes = ⟨⟨2, true⟩, ⟨5, true⟩, ⟨4, true⟩, ⟨4, true⟩, ⟨5, true⟩, ⟨3, true⟩⟩ ∧
    u.journal.threshold = 5 ∧ u.journal.watermark = 3072 ∧ u.journal.reserve = 6 ∧ u.service = ⟨[], none, none⟩

/-! ## Requests as a whole -/

/-- R171 to R173: each request that the service unit carries out is answered by one response, offered to the port it arrived on; nothing
else joins a response queue; a refused request changes nothing in any block; a code that names no request is refused with UNKNOWN. What a
request makes of the state that has taken it is the function that stands for its code. RESET TABLES, which is made of steps, is answered so
where it does not pause. A known code whose parameters fill none of its lengths of R186 is refused with LENGTH, and so are a PORT or LINE
section in 1 octet, any other section in 2, and an action of SET CIVIL OFFSET that disagrees with its length. -/
def Obligations.RequestsAnsweredOnceRefusedChangeNothing : Prop :=
  (∀ (code : Byte) (r : Request) (s : State), s.ready → (code = 70 → r.params ≠ []) →
    exec (decodeRequest code r) s =
      .next ((requestMeaning code r.params (s.taking code r)).state.respond code r
        (requestMeaning code r.params (s.taking code r)).reply) ∧
    (∀ p, ((requestMeaning code r.params (s.taking code r)).state.port p).responses = (s.port p).responses) ∧
    (∀ reason, (requestMeaning code r.params (s.taking code r)).reply = .refused reason →
      (requestMeaning code r.params (s.taking code r)).state = s.taking code r)) ∧
  (∀ (r : Request) (s : State), s.ready → r.params = [] → s.takeReset r false =
    (requestMeaning 70 r.params (s.taking 70 r)).state.respond 70 r (requestMeaning 70 r.params (s.taking 70 r)).reply) ∧
  (∀ (code : Byte) (r : Request) (s : State), s.ready → knownRequestCodes.contains code = false →
    decodeRequest code r = .unknownRequestCode code r ∧
    exec (.unknownRequestCode code r) s = .next ((s.taking code r).respond code r (.refused .unknown))) ∧
  (∀ (code : Byte) (r : Request) (s : State), s.ready → knownRequestCodes.contains code = true →
    r.params.length ∉ requestLengths code →
    exec (decodeRequest code r) s = .next ((s.taking code r).respond code r (.refused .length))) ∧
  ∀ (r : Request) (s : State), s.ready →
    ((∃ k, (k = 2 ∨ k = 6) ∧ r.params = [k]) ∨
        (∃ k n, (k = 1 ∨ k = 3 ∨ k = 4 ∨ k = 5 ∨ k = 7 ∨ k = 8) ∧ r.params = [k, n]) →
      exec (.readStatus r) s = .next ((s.taking 2 r).respond 2 r (.refused .length))) ∧
    (r.params = [1] ∨ (∃ n1 n0, r.params = [n1, n0, 1]) ∨
        (∃ d1 d0 t2 t1 t0 v1 v0, r.params = [0, d1, d0, t2, t1, t0, v1, v0]) ∨
        (∃ n1 n0 d1 d0 t2 t1 t0 v1 v0, r.params = [n1, n0, 0, d1, d0, t2, t1, t0, v1, v0]) →
      exec (.setCivilOffset r) s = .next ((s.taking 33 r).respond 33 r (.refused .length)))

/-- R15: a response joins the queue of a port that is INLINE, or LEAVING before its transfer, and holds fewer than 4; otherwise it is
discarded and counted. No other port changes; the service unit, idle then, takes the next request at once (R171; log entry 12). -/
def Obligations.ResponseJoinsOrIsDiscarded : Prop :=
  ∀ (s : State) (code : Byte) (r : Request) (a : Reply),
    ((s.port r.port).forwards = true → (s.port r.port).responses.length < 4 →
      ((s.respond code r a).port r.port).responses = (s.port r.port).responses ++ [⟨code, r.tag, a⟩] ∧
      ((s.respond code r a).port r.port).live = (s.port r.port).live) ∧
    ((s.port r.port).forwards = false ∨ 4 ≤ (s.port r.port).responses.length →
      ((s.respond code r a).port r.port).responses = (s.port r.port).responses ∧
      ((s.respond code r a).port r.port).live.port.respDiscarded = raise32 (s.port r.port).live.port.respDiscarded) ∧
    (∀ q, q ≠ r.port → (s.respond code r a).port q = s.port q) ∧
    (∀ q rest g, s.service = ⟨q :: rest, none, g⟩ → (s.respond code r a).service = ⟨rest, some q, g⟩) ∧
    (s.service.queue = [] ∨ s.service.inHand ≠ none → (s.respond code r a).service = s.service) ∧
    s.respond code r a = { s with ports := (s.respond code r a).ports, service := (s.respond code r a).service }

/-- IDENTIFY, READ STATUS of every section, READ COUNTERS of every group, READ ELEMENT, READ ENTRY and READ JOURNAL are answered DONE with
their data and change nothing but the queues (R25, R44, R131, R161, R178, R179). -/
def Obligations.ReadingChangesNothing : Prop :=
  ∀ (s : State) (r : Request), s.ready →
    (r.params = [] → exec (.identify r) s =
      .next ((s.taking 1 r).respond 1 r (.done (s.taking 1 r).identifyData))) ∧
    (r.params = [1] → exec (.readStatus r) s =
      .next ((s.taking 2 r).respond 2 r (.done (s.taking 2 r).deviceSection))) ∧
    (∀ p : PortId, r.params = [2, BitVec.ofNat 8 p.val] → exec (.readStatus r) s =
      .next ((s.taking 2 r).respond 2 r (.done ((s.taking 2 r).portSection p)))) ∧
    (r.params = [3] → exec (.readStatus r) s = .next ((s.taking 2 r).respond 2 r (.done s.tb.loopSection))) ∧
    (r.params = [4] → exec (.readStatus r) s = .next ((s.taking 2 r).respond 2 r (.done s.tb.settingsSection))) ∧
    (r.params = [5] → exec (.readStatus r) s = .next ((s.taking 2 r).respond 2 r (.done s.timetableSection))) ∧
    (∀ l : LineId, r.params = [6, BitVec.ofNat 8 l.val] → exec (.readStatus r) s =
      .next ((s.taking 2 r).respond 2 r (.done ((s.taking 2 r).line l).lineSection))) ∧
    (r.params = [7] → exec (.readStatus r) s = .next ((s.taking 2 r).respond 2 r (.done s.journal.recordSection))) ∧
    (r.params = [8] → exec (.readStatus r) s = .next ((s.taking 2 r).respond 2 r (.done s.journal.settingsSection))) ∧
    (∀ p : PortId,
      (r.params = [BitVec.ofNat 8 p.val, 0] → exec (.readCounters r) s =
        .next ((s.taking 13 r).respond 13 r (.done ((s.port p).latched.down.octets ++ be 2 s.latchSeq.toNat)))) ∧
      (r.params = [BitVec.ofNat 8 p.val, 1] → exec (.readCounters r) s =
        .next ((s.taking 13 r).respond 13 r (.done ((s.port p).latched.up.octets ++ be 2 s.latchSeq.toNat)))) ∧
      (r.params = [BitVec.ofNat 8 p.val, 2] → exec (.readCounters r) s =
        .next ((s.taking 13 r).respond 13 r (.done ((s.port p).latched.port.octets ++ be 2 s.latchSeq.toNat))))) ∧
    (∀ i1 i0, r.params = [i1, i0] → ofBe [i1, i0] ≤ 2047 → exec (.readElement r) s =
      .next ((s.taking 23 r).respond 23 r (.done ((s.taking 23 r).elementData (ofBe [i1, i0]))))) ∧
    (∀ (b : BankId) i1 i0, r.params = [b.code, i1, i0] →
      (∀ e, (s.bank b).entries[ofBe [i1, i0]]? = some e → exec (.readEntry r) s =
        .next ((s.taking 47 r).respond 47 r (.done e.octets))) ∧
      ((s.bank b).entries[ofBe [i1, i0]]? = none → exec (.readEntry r) s =
        .next ((s.taking 47 r).respond 47 r (.done ((s.taking 47 r).headerData b))))) ∧
    (∀ n3 n2 n1 n0, r.params = [n3, n2, n1, n0] → exec (.readJournal r) s =
      .next ((s.taking 62 r).respond 62 r (.done (s.journal.readData (seqOf [n3, n2, n1, n0])))))

/-! ## Links -/

/-- The check that a sender puts behind any octets is found good by the receiver (R5, R185). -/
def Obligations.SentCheckIsGood : Prop := ∀ octets : List Byte, checkGood (contentOf octets) = true

/-- An opening flag takes the capture of its instant on both scales with the quality then in force, and notes whether a relay transfer is
under way (R12, R71); content joins that of its frame, and the first two octets of a DOWN frame decide its removal where the port removes
(R14). A frame that ends as an abort, as a runt or oversize is counted in its class and changes nothing but its port, in either direction
and in every port state, and counts as a collision when it opened in a transfer and has its content in one piece; on a port in BYPASS
the count is its only effect. That an abort without content counts as one is log entry 23 (DEDUCED), and that a collision counts at the
first content and not at the flag is log entry 3 (DEDUCED). A valid frame, in every port state, that is not removed and did not collide
is counted, restarts its life timer, clears a raised SILENT with its record, and is then interpreted by the table of R18: UP STATUS and
CYCLIC and DOWN COMMAND go to the tracker with their address, code, age and capture; UP COMMAND, DOWN STATUS and DOWN CYCLIC are
counted as misdirected; LIFE and traffic do nothing more. One that collided is counted and not interpreted, nor taken as a request
(R12). That the record of SILENT cleared stands ahead of the records of the interpretation is log entry 25 (DEDUCED) (R5, R8, R12, R18,
R19, R73, R185). -/
def Obligations.FramesAreCountedAndInterpreted : Prop :=
  (∀ (s : State) (p : PortId) (d : Direction) (shared : Bool), s.initialising = false →
    ∃ u : State, exec (.frameReceived p d (.opening shared)) s = .next u ∧ u = s.setPort p (u.port p) ∧
      (u.port p).rx d = { (s.port p).rx d with
        opening := some ⟨⟨s.tb.time, s.tb.elapsed, s.tb.quality⟩, (s.port p).transferEnd.isSome, none, []⟩, stray := [] } ∧
      (∀ e, e ≠ d → (u.port p).rx e = (s.port p).rx e) ∧ (u.port p).live = (s.port p).live) ∧
  (∀ (s : State) (p : PortId) (d : Direction) (o : Opening) (b : Bool) (bits : List Bool), s.initialising = false →
    ((s.port p).rx d).opening = some o →
    ∃ u : State, exec (.frameReceived p d (.content (b :: bits))) s = .next u ∧ u = s.setPort p (u.port p) ∧
      (u.port p).rx d = { (s.port p).rx d with
        opening := some { o with
          content := o.content ++ b :: bits
          removal := o.removal.or (
            if 16 ≤ (o.content ++ b :: bits).length ∧ d = .down ∧ (s.port p).forwards = true ∧ o.collided = false then
              some ⟨serviceHeader s.straps (octetsOf ((o.content ++ b :: bits).take 16)), (s.port p).accept⟩
            else none) } } ∧
      (∀ e, e ≠ d → (u.port p).rx e = (s.port p).rx e) ∧
      (u.port p).live = { (s.port p).live with port := { (s.port p).live.port with
        collisions := if o.collided = true ∧ o.content = [] then raise32 (s.port p).live.port.collisions
          else (s.port p).live.port.collisions } }) ∧
  (∀ (s : State) (p : PortId) (d : Direction) (o : Opening) (rest : List Bool), s.initialising = false →
    ((s.port p).rx d).opening = some o →
    (∃ u : State, exec (.frameReceived p d (.aborted rest)) s = .next u ∧ u = s.setPort p (u.port p) ∧
      ((u.port p).live.dir d).aborts = raise32 ((s.port p).live.dir d).aborts ∧
      (u.port p).live.port.collisions = if o.collided = true ∧ o.content = [] then raise32 (s.port p).live.port.collisions
        else (s.port p).live.port.collisions) ∧
    (o.content ++ rest ≠ [] → (o.content ++ rest).length ≤ 47 →
      ∃ u : State, exec (.frameReceived p d (.closed rest)) s = .next u ∧ u = s.setPort p (u.port p) ∧
        ((u.port p).live.dir d).runts = raise32 ((s.port p).live.dir d).runts ∧
        (u.port p).live.port.collisions = if o.collided = true ∧ o.content = [] then raise32 (s.port p).live.port.collisions
          else (s.port p).live.port.collisions) ∧
    (512 < (o.content ++ rest).length →
      ∃ u : State, exec (.frameReceived p d (.closed rest)) s = .next u ∧ u = s.setPort p (u.port p) ∧
        ((u.port p).live.dir d).oversize = raise32 ((s.port p).live.dir d).oversize ∧
        (u.port p).live.port.collisions = if o.collided = true ∧ o.content = [] then raise32 (s.port p).live.port.collisions
          else (s.port p).live.port.collisions) ∧
    ((s.port p).state = .bypass → o.removal = none → o.collided = false ∨ o.content ≠ [] →
      exec (.frameReceived p d (.aborted rest)) s = .next (s.setPort p
        { ((s.port p).countDir d fun c => { c with aborts := raise32 c.aborts }).setRx d
            { (s.port p).rx d with opening := none } with quietSince := none }) ∧
      (o.content ++ rest ≠ [] → (o.content ++ rest).length ≤ 47 →
        exec (.frameReceived p d (.closed rest)) s = .next (s.setPort p
          { ((s.port p).countDir d fun c => { c with runts := raise32 c.runts }).setRx d
              { (s.port p).rx d with opening := none } with quietSince := none })) ∧
      (512 < (o.content ++ rest).length →
        exec (.frameReceived p d (.closed rest)) s = .next (s.setPort p
          { ((s.port p).countDir d fun c => { c with oversize := raise32 c.oversize }).setRx d
              { (s.port p).rx d with opening := none } with quietSince := none })))) ∧
  (∀ (s : State) (p : PortId) (d : Direction) (o : Opening) (rest : List Bool) (octets : List Byte) (w v : State),
    s.initialising = false → (s.port p).state = .bypass → ((s.port p).rx d).opening = some o →
    o.collided = false → o.removal = none → classify false (o.content ++ rest) = .valid →
    octets = telegramOctets (o.content ++ rest) →
    w = s.setPort p { ((s.port p).countDir d fun c => { c with valid := raise32 c.valid }).setRx d
      { (s.port p).rx d with opening := none, lifeSince := some s.tb.instant } with quietSince := none } →
    v = (if ((s.port p).rx d).silent then
      (w.setPort p ((w.port p).setRx d { (w.port p).rx d with silent := false })).withRecord (s.levelOf .link)
        (.linkCondition p d .silent false) else w) →
    (d = .up → telegramKind octets = 2 → exec (.frameReceived p .up (.closed rest)) s =
      .next (v.trackReport p (telegramAddress octets)
        ⟨(octets.getD 2 0).toNat, (telegramAge octets).1, (telegramAge octets).2, o.capture⟩)) ∧
    (d = .up → telegramKind octets = 3 → exec (.frameReceived p .up (.closed rest)) s =
      .next (v.trackReport p (telegramAddress octets) ⟨(octets.getD 2 0).toNat, 0, false, o.capture⟩)) ∧
    (d = .down → telegramKind octets = 1 → exec (.frameReceived p .down (.closed rest)) s =
      .next (v.trackCommand p (telegramAddress octets) (octets.getD 2 0).toNat o.capture)) ∧
    ((d = .up ∧ telegramKind octets = 1) ∨ (d = .down ∧ (telegramKind octets = 2 ∨ telegramKind octets = 3)) →
      exec (.frameReceived p d (.closed rest)) s =
        .next (v.setPort p ((v.port p).countDir d fun c => { c with misdirected := raise32 c.misdirected }))) ∧
    (telegramKind octets ≠ 1 → telegramKind octets ≠ 2 → telegramKind octets ≠ 3 →
      d = .up ∨ serviceHeader s.straps octets = false → exec (.frameReceived p d (.closed rest)) s = .next v)) ∧
  (∀ (s : State) (p : PortId) (d : Direction) (o : Opening) (rest : List Bool) (octets : List Byte),
    s.initialising = false → ((s.port p).rx d).opening = some o → o.collided = false →
    o.removal = none ∨ (∃ a, o.removal = some ⟨false, a⟩) → classify false (o.content ++ rest) = .valid →
    octets = telegramOctets (o.content ++ rest) → d = .up ∨ serviceHeader s.straps octets = false →
    ∃ v : State, v = { s with ports := v.ports, journal := v.journal } ∧ (∀ q, q ≠ p → v.port q = s.port q) ∧
      v.port p = { ((s.port p).countDir d fun c => { c with valid := raise32 c.valid }).setRx d
          { (s.port p).rx d with opening := none, lifeSince := some s.tb.instant, silent := false } with
        sending := (v.port p).sending, held := (v.port p).held, downDelay := (v.port p).downDelay,
        upDelay := (v.port p).upDelay, upFlags := (v.port p).upFlags, markRun := (v.port p).markRun, skipping := (v.port p).skipping,
        toField := (v.port p).toField, toCentre := (v.port p).toCentre, quietSince := (v.port p).quietSince } ∧
      v.journal = (if ((s.port p).rx d).silent then
        (s.withRecord (s.levelOf .link) (.linkCondition p d .silent false)).journal else s.journal) ∧
      (d = .up → telegramKind octets = 2 → exec (.frameReceived p .up (.closed rest)) s =
        .next (v.trackReport p (telegramAddress octets)
          ⟨(octets.getD 2 0).toNat, (telegramAge octets).1, (telegramAge octets).2, o.capture⟩)) ∧
      (d = .up → telegramKind octets = 3 → exec (.frameReceived p .up (.closed rest)) s =
        .next (v.trackReport p (telegramAddress octets) ⟨(octets.getD 2 0).toNat, 0, false, o.capture⟩)) ∧
      (d = .down → telegramKind octets = 1 → exec (.frameReceived p .down (.closed rest)) s =
        .next (v.trackCommand p (telegramAddress octets) (octets.getD 2 0).toNat o.capture)) ∧
      ((d = .up ∧ telegramKind octets = 1) ∨ (d = .down ∧ (telegramKind octets = 2 ∨ telegramKind octets = 3)) →
        exec (.frameReceived p d (.closed rest)) s =
          .next (v.setPort p ((v.port p).countDir d fun c => { c with misdirected := raise32 c.misdirected }))) ∧
      (telegramKind octets ≠ 1 → telegramKind octets ≠ 2 → telegramKind octets ≠ 3 →
        exec (.frameReceived p d (.closed rest)) s = .next v)) ∧
  ∀ (s : State) (p : PortId) (d : Direction) (o : Opening) (rest : List Bool), s.initialising = false →
    ((s.port p).rx d).opening = some o → o.collided = true → o.removal = none ∨ (∃ a, o.removal = some ⟨false, a⟩) →
    classify false (o.content ++ rest) = .valid →
    ∃ u : State, exec (.frameReceived p d (.closed rest)) s = .next u ∧
      u = { s with ports := u.ports, journal := u.journal } ∧ (∀ q, q ≠ p → u.port q = s.port q) ∧
      (u.port p).live.dir d = { (s.port p).live.dir d with valid := raise32 ((s.port p).live.dir d).valid } ∧
      (u.port p).live.port = { (s.port p).live.port with
        collisions := if o.content = [] then raise32 (s.port p).live.port.collisions else (s.port p).live.port.collisions } ∧
      u.journal = (if ((s.port p).rx d).silent then
        (s.withRecord (s.levelOf .link) (.linkCondition p d .silent false)).journal else s.journal)

/-- A DOWN service telegram for the part, by its first two octets, is removed on a port that forwards, in however many pieces these arrive:
its bits still in the delay and the ones that follow leave as flags, the closing flag of the frame before staying one. At its end, valid,
with the accept flag set and room in the queue, it joins the service request queue at its tail, where an idle service unit takes it at once,
and is counted as taken; with the accept flag clear, or the queue full, it is counted as discarded; it reaches neither the field nor the
tracker (R14, R170, R171). One that ends in another class is counted in it and as discarded, and is no request; a check failure counts
towards ERROR RATE (R14, R21); flags in place of an abort are log entry 46 (DESIGN CHOICE). A valid one restarts the life timer and clears a
raised SILENT with its record (R19). On a port that does not forward, in BYPASS or in JOINING, a valid one is counted as discarded and joins
no queue (R8). -/
def Obligations.RemovedRequestJoinsTheQueue : Prop :=
  (∀ (s : State) (p : PortId) (c : Capture) (before bits : List Bool) (n : Nat), s.initialising = false → (s.port p).forwards = true →
    (s.port p).downRx.opening = some ⟨c, false, none, before⟩ → (s.port p).downDelay.length = 40 → before.length < 16 →
    16 ≤ (before ++ bits).length → serviceHeader s.straps (octetsOf ((before ++ bits).take 16)) = true →
    n = 32 - (contentBits [] before).length →
    ∃ u : State, exec (.frameReceived p .down (.content bits)) s = .next u ∧ u = s.setPort p (u.port p) ∧
      (u.port p).toField ++ (u.port p).downDelay = (s.port p).toField ++ (s.port p).downDelay.take n ++
        ((s.port p).downDelay.drop n).map (fun b => if b = .closing then .closing else .flag) ++
        List.replicate (contentBits before bits).length .flag ∧
      (u.port p).downRx.opening = some ⟨c, false, some ⟨true, (s.port p).accept⟩, before ++ bits⟩) ∧
  (∀ (s : State) (p : PortId) (o : Opening) (rest : List Bool) (accepted : Bool) (n : Nat), s.initialising = false →
    (s.port p).downRx.opening = some o →
    o.removal = some ⟨true, accepted⟩ ∨ (o.removal = none ∧ o.collided = false ∧ (s.port p).forwards = true ∧
      o.content.length < 16 ∧ 16 ≤ (o.content ++ rest).length ∧ accepted = (s.port p).accept ∧
      serviceHeader s.straps (octetsOf ((o.content ++ rest).take 16)) = true) →
    n = (if o.removal = none then 32 - (contentBits [] o.content).length else 40) →
    (classify false (o.content ++ rest) = .valid → telegramKind (telegramOctets (o.content ++ rest)) = 12 →
      ∃ u : State, exec (.frameReceived p .down (.closed rest)) s = .next u ∧
        (accepted = true → s.service.queue.length < 8 →
          u.service = Service.take { s.service with queue := s.service.queue ++ [⟨(telegramOctets (o.content ++ rest)).getD 2 0,
            ⟨p, (telegramOctets (o.content ++ rest)).getD 3 0, (telegramOctets (o.content ++ rest)).drop 4⟩⟩] } ∧
          (u.port p).live.port.taken = raise32 (s.port p).live.port.taken ∧
          (u.port p).live.port.discarded = (s.port p).live.port.discarded) ∧
        (accepted = false ∨ 8 ≤ s.service.queue.length → u.service = s.service ∧
          (u.port p).live.port.taken = (s.port p).live.port.taken ∧
          (u.port p).live.port.discarded = raise32 (s.port p).live.port.discarded) ∧
        (u.port p).live.down = { (s.port p).live.down with valid := raise32 (s.port p).live.down.valid } ∧
        (u.port p).downRx = { (s.port p).downRx with opening := none, lifeSince := some s.tb.instant, silent := false } ∧
        u.journal = (if (s.port p).downRx.silent then
          (s.withRecord (s.levelOf .link) (.linkCondition p .down .silent false)).journal else s.journal) ∧
        ((s.port p).state ≠ .joining → (s.port p).downDelay.length = 40 ∨ o.removal ≠ none → ∃ m,
          (u.port p).toField ++ (u.port p).downDelay = (s.port p).toField ++ (s.port p).downDelay.take n ++
            ((s.port p).downDelay.drop n).map (fun b => if n < 40 ∧ b ≠ .closing then .flag else b) ++ List.replicate m .flag) ∧
        (∀ q, q ≠ p → u.port q = s.port q) ∧ u = { s with ports := u.ports, service := u.service, journal := u.journal }) ∧
    ∀ (part : FramePart) (k : FrameClass) (raised : Bool),
      (part = .closed rest ∧ o.content ++ rest ≠ [] ∧ k = classify false (o.content ++ rest)) ∨ (part = .aborted rest ∧ k = .abort) →
      k ≠ .valid → raised = (k == .checkFailure && decide ((s.port p).errorThreshold ≤ (s.port p).downRx.checkFails + 1) &&
        !(s.port p).downRx.errorRate) →
      ∃ u : State, exec (.frameReceived p .down part) s = .next u ∧
        (u.port p).live.port.taken = (s.port p).live.port.taken ∧
        (u.port p).live.port.discarded = raise32 (s.port p).live.port.discarded ∧
        (u.port p).live.down = (match k with
          | .abort => { (s.port p).live.down with aborts := raise32 (s.port p).live.down.aborts }
          | .runt => { (s.port p).live.down with runts := raise32 (s.port p).live.down.runts }
          | .oversize => { (s.port p).live.down with oversize := raise32 (s.port p).live.down.oversize }
          | .checkFailure => { (s.port p).live.down with checkFails := raise32 (s.port p).live.down.checkFails }
          | .valid => (s.port p).live.down) ∧
        (u.port p).downRx = (if k = .checkFailure then { (s.port p).downRx with
            opening := none, checkFails := (s.port p).downRx.checkFails + 1
            reached := (s.port p).downRx.reached || decide ((s.port p).errorThreshold ≤ (s.port p).downRx.checkFails + 1)
            errorRate := (s.port p).downRx.errorRate || raised
            cleanRun := if raised then 0 else (s.port p).downRx.cleanRun }
          else { (s.port p).downRx with opening := none }) ∧
        u.journal = (if raised then
          (s.withRecord (s.levelOf .link) (.linkCondition p .down .errorRate true)).journal else s.journal) ∧
        ((s.port p).state ≠ .joining → (s.port p).downDelay.length = 40 ∨ o.removal ≠ none → ∃ m,
          (u.port p).toField ++ (u.port p).downDelay = (s.port p).toField ++ (s.port p).downDelay.take n ++
            ((s.port p).downDelay.drop n).map (fun b => if n < 40 ∧ b ≠ .closing then .flag else b) ++ List.replicate m .flag) ∧
        (∀ q, q ≠ p → u.port q = s.port q) ∧ u = { s with ports := u.ports, journal := u.journal }) ∧
  (∀ (s : State) (p : PortId) (o : Opening) (rest : List Bool), s.initialising = false → (s.port p).forwards = false →
    (s.port p).downRx.opening = some o → o.collided = false → o.removal = none →
    classify false (o.content ++ rest) = .valid → serviceHeader s.straps (telegramOctets (o.content ++ rest)) = true →
    ∃ u : State, exec (.frameReceived p .down (.closed rest)) s = .next u ∧
      (u.port p).downRx = { (s.port p).downRx with opening := none, lifeSince := some s.tb.instant, silent := false } ∧
      (u.port p).upRx = (s.port p).upRx ∧ (u.port p).toField = (s.port p).toField ∧
      (u.port p).live = { (s.port p).live with
        down := { (s.port p).live.down with valid := raise32 (s.port p).live.down.valid }
        port := { (s.port p).live.port with discarded := raise32 (s.port p).live.port.discarded } } ∧
      u.journal = (if (s.port p).downRx.silent then
        (s.withRecord (s.levelOf .link) (.linkCondition p .down .silent false)).journal else s.journal) ∧
      (∀ q, q ≠ p → u.port q = s.port q) ∧ u = { s with ports := u.ports, journal := u.journal }) ∧
  ∀ (s : State) (p : PortId) (o : Opening) (rest : List Bool), s.initialising = false → (s.port p).state = .bypass →
    (s.port p).downRx.opening = some o → o.collided = false → o.removal = none →
    classify false (o.content ++ rest) = .valid → serviceHeader s.straps (telegramOctets (o.content ++ rest)) = true →
    exec (.frameReceived p .down (.closed rest)) s = .next ((s.setPort p { s.port p with
      downRx := { (s.port p).downRx with opening := none, lifeSince := some s.tb.instant, silent := false }, quietSince := none,
      live := { (s.port p).live with
        down := { (s.port p).live.down with valid := raise32 (s.port p).live.down.valid }
        port := { (s.port p).live.port with discarded := raise32 (s.port p).live.port.discarded } } }).setJournal
      (if (s.port p).downRx.silent then
        (s.withRecord (s.levelOf .link) (.linkCondition p .down .silent false)).journal else s.journal))

/-- The bits of one direction leave in the order in which they arrived, the delay between, and a port that does not forward passes nothing
on; one in JOINING only keeps the last 40 of them for its delays (log entry 5, DESIGN CHOICE). So idle, and frames of every class that are
not removed, those too short for a removal decision or without one yet among them, leave a port that forwards as they came (R14), their
opening flags and their content as each part arrives, a flag that opened no frame as one of idle, and so a flag that ends nothing; and
content that no opening flag came before leaves with its inserted zeros, in whatever pieces it arrives (R5, R8, R13; how it is reported is
log entry 3, DEDUCED). -/
def Obligations.RelayPassesBitsInOrder : Prop :=
  (∀ (x : Port) (bits : List LineBit),
    (x.forwards = false → x.state ≠ .joining → x.arrive .down bits = x ∧ x.arrive .up bits = x) ∧
    (x.state = .joining →
      x.arrive .down bits = { x with downDelay := (x.downDelay ++ bits).drop ((x.downDelay ++ bits).length - 40) } ∧
      x.arrive .up bits = { x with upDelay := (x.upDelay ++ bits).drop ((x.upDelay ++ bits).length - 40) }) ∧
    (x.forwards = true →
      (x.arrive .down bits).toField ++ (x.arrive .down bits).downDelay = x.toField ++ x.downDelay ++ bits ∧
      (x.arrive .down bits).downDelay.length = x.downDelay.length ∧ (x.arrive .down bits).toCentre = x.toCentre) ∧
    (x.forwards = true → x.sending = [] → x.held = [] →
      (x.arrive .up bits).toCentre ++ (x.arrive .up bits).upDelay = x.toCentre ++ x.upDelay ++ bits ∧
      (x.arrive .up bits).upDelay.length = x.upDelay.length ∧ (x.arrive .up bits).toField = x.toField)) ∧
  (∀ (s : State) (p : PortId) (marks : Bool) (n : Nat), s.initialising = false → (s.port p).forwards = true →
    ((s.port p).downRx.opening = none ∨ (s.port p).downRx.inFrame = true →
      ∃ u : State, exec (.frameReceived p .down (.idle marks n)) s = .next u ∧ u = s.setPort p (u.port p) ∧
        (u.port p).toField ++ (u.port p).downDelay = (s.port p).toField ++ (s.port p).downDelay ++
          List.replicate n (if marks then .mark else .flag)) ∧
    (∀ c k m, (s.port p).downRx.opening = some ⟨c, k, m, []⟩ → (s.port p).downDelay.length = 40 →
      ∃ u : State, exec (.frameReceived p .down (.idle marks n)) s = .next u ∧ u = s.setPort p (u.port p) ∧
        (u.port p).downRx.opening = none ∧
        (u.port p).toField ++ (u.port p).downDelay = (s.port p).toField ++ (s.port p).downDelay.take 32 ++
          ((s.port p).downDelay.drop 32).map (fun b => if b = .closing then .closing else .flag) ++
          List.replicate n (if marks then .mark else .flag))) ∧
  (∀ (s : State) (p : PortId) (o : Opening) (rest : List Bool) (a : Bool), s.initialising = false → (s.port p).forwards = true →
    (s.port p).downRx.opening = some o → o.removal = some ⟨false, a⟩ → o.content ++ rest ≠ [] →
    (∃ u : State, exec (.frameReceived p .down (.closed rest)) s = .next u ∧
      (u.port p).toField ++ (u.port p).downDelay = (s.port p).toField ++ (s.port p).downDelay ++
        contentBits o.content rest ++ List.replicate 8 .closing) ∧
    (∃ u : State, exec (.frameReceived p .down (.aborted rest)) s = .next u ∧
      (u.port p).toField ++ (u.port p).downDelay = (s.port p).toField ++ (s.port p).downDelay ++
        contentBits o.content rest ++ List.replicate 7 .mark)) ∧
  (∀ (s : State) (p : PortId) (o : Opening) (rest : List Bool), s.initialising = false → (s.port p).forwards = true →
    (s.port p).downRx.opening = some o → o.removal = none →
    (o.content ++ rest).length < 16 ∨ o.collided = true ∨
      serviceHeader s.straps (octetsOf ((o.content ++ rest).take 16)) = false →
    (o.content ++ rest ≠ [] → ∃ u : State, exec (.frameReceived p .down (.closed rest)) s = .next u ∧
      (u.port p).toField ++ (u.port p).downDelay = (s.port p).toField ++ (s.port p).downDelay ++
        contentBits o.content rest ++ List.replicate 8 .closing) ∧
    (∃ u : State, exec (.frameReceived p .down (.aborted rest)) s = .next u ∧
      (u.port p).toField ++ (u.port p).downDelay = (s.port p).toField ++ (s.port p).downDelay ++
        contentBits o.content rest ++ List.replicate 7 .mark)) ∧
  (∀ (s : State) (p : PortId) (o : Opening) (rest : List Bool), s.initialising = false → (s.port p).forwards = true →
    (s.port p).sending = [] → (s.port p).held = [] →
    (s.port p).upRx.opening = some o → o.removal = none → o.content ++ rest ≠ [] →
    (∃ u : State, exec (.frameReceived p .up (.closed rest)) s = .next u ∧
      (u.port p).toCentre ++ (u.port p).upDelay = (s.port p).toCentre ++ (s.port p).upDelay ++
        contentBits o.content rest ++ List.replicate 8 .closing) ∧
    (∃ u : State, exec (.frameReceived p .up (.aborted rest)) s = .next u ∧
      (u.port p).toCentre ++ (u.port p).upDelay = (s.port p).toCentre ++ (s.port p).upDelay ++
        contentBits o.content rest ++ List.replicate 7 .mark)) ∧
  (∀ (s : State) (p : PortId) (bits : List Bool), s.initialising = false → (s.port p).forwards = true →
    ((s.port p).downRx.opening = none →
      (∃ u : State, exec (.frameReceived p .down (.content bits)) s = .next u ∧ u = s.setPort p (u.port p) ∧
        (u.port p).downRx.stray = (s.port p).downRx.stray ++ bits ∧
        (u.port p).toField ++ (u.port p).downDelay = (s.port p).toField ++ (s.port p).downDelay ++
          contentBits (s.port p).downRx.stray bits) ∧
      (∃ u : State, exec (.frameReceived p .down (.closed bits)) s = .next u ∧ (u.port p).downRx.stray = [] ∧
        (u.port p).toField ++ (u.port p).downDelay = (s.port p).toField ++ (s.port p).downDelay ++
          contentBits (s.port p).downRx.stray bits ++
            List.replicate 8 (if (s.port p).downRx.stray ++ bits = [] then .flag else .closing))) ∧
    ((s.port p).upRx.opening = none → (s.port p).sending = [] → (s.port p).held = [] →
      (∃ u : State, exec (.frameReceived p .up (.content bits)) s = .next u ∧ u = s.setPort p (u.port p) ∧
        (u.port p).upRx.stray = (s.port p).upRx.stray ++ bits ∧
        (u.port p).toCentre ++ (u.port p).upDelay = (s.port p).toCentre ++ (s.port p).upDelay ++
          contentBits (s.port p).upRx.stray bits) ∧
      (∃ u : State, exec (.frameReceived p .up (.closed bits)) s = .next u ∧ (u.port p).upRx.stray = [] ∧
        (u.port p).toCentre ++ (u.port p).upDelay = (s.port p).toCentre ++ (s.port p).upDelay ++
          contentBits (s.port p).upRx.stray bits ++
            List.replicate 8 (if (s.port p).upRx.stray ++ bits = [] then .flag else .closing)) ∧
      (∃ u : State, exec (.frameReceived p .up (.aborted bits)) s = .next u ∧ (u.port p).upRx.stray = [] ∧
        (u.port p).toCentre ++ (u.port p).upDelay = (s.port p).toCentre ++ (s.port p).upDelay ++
          contentBits (s.port p).upRx.stray bits ++ List.replicate 7 .mark))) ∧
  (∀ (s : State) (p : PortId), s.initialising = false → (s.port p).forwards = true →
    (∀ shared, ∃ u : State, exec (.frameReceived p .down (.opening shared)) s = .next u ∧ u = s.setPort p (u.port p) ∧
      (u.port p).toCentre = (s.port p).toCentre ∧
      ((s.port p).downRx.opening = none ∨ (s.port p).downRx.inFrame = true →
        (shared = false → (u.port p).toField ++ (u.port p).downDelay = (s.port p).toField ++ (s.port p).downDelay ++
          List.replicate 8 .opening) ∧
        (shared = true → (s.port p).downDelay.length = 40 → (u.port p).toField = (s.port p).toField ∧
          (u.port p).downDelay = (s.port p).downDelay.take 32 ++
            ((s.port p).downDelay.drop 32).map (fun b => if b = .flag then .opening else b))) ∧
      (∀ c k m, (s.port p).downRx.opening = some ⟨c, k, m, []⟩ → (s.port p).downDelay.length = 40 →
        (shared = false → (u.port p).toField ++ (u.port p).downDelay = (s.port p).toField ++ (s.port p).downDelay.take 32 ++
          ((s.port p).downDelay.drop 32).map (fun b => if b = .closing then .closing else .flag) ++ List.replicate 8 .opening) ∧
        (shared = true → (u.port p).toField = (s.port p).toField ∧ (u.port p).downDelay = (s.port p).downDelay.take 32 ++
          ((s.port p).downDelay.drop 32).map (fun b => if b = .closing then .closing else .opening)))) ∧
    (∀ shared, (s.port p).sending = [] → (s.port p).held = [] →
      (s.port p).upRx.opening = none ∨ (s.port p).upRx.inFrame = true →
      ∃ u : State, exec (.frameReceived p .up (.opening shared)) s = .next u ∧ u = s.setPort p (u.port p) ∧
        (u.port p).toField = (s.port p).toField ∧
        (shared = false → (u.port p).toCentre ++ (u.port p).upDelay = (s.port p).toCentre ++ (s.port p).upDelay ++
          List.replicate 8 .opening) ∧
        (shared = true → (s.port p).upDelay.length = 40 → (u.port p).toCentre = (s.port p).toCentre ∧
          (u.port p).upDelay = (s.port p).upDelay.take 32 ++
            ((s.port p).upDelay.drop 32).map (fun b => if b = .flag then .opening else b)))) ∧
  (∀ (s : State) (p : PortId) (o : Opening) (bits : List Bool), s.initialising = false → (s.port p).forwards = true →
    ((s.port p).downRx.opening = some o →
      (∃ a, o.removal = some ⟨false, a⟩) ∨ (o.removal = none ∧ ((o.content ++ bits).length < 16 ∨ o.collided = true ∨
        serviceHeader s.straps (octetsOf ((o.content ++ bits).take 16)) = false)) →
      ∃ u : State, exec (.frameReceived p .down (.content bits)) s = .next u ∧ u = s.setPort p (u.port p) ∧
        (u.port p).toField ++ (u.port p).downDelay = (s.port p).toField ++ (s.port p).downDelay ++ contentBits o.content bits) ∧
    ((s.port p).upRx.opening = some o → o.removal = none → (s.port p).sending = [] → (s.port p).held = [] →
      ∃ u : State, exec (.frameReceived p .up (.content bits)) s = .next u ∧ u = s.setPort p (u.port p) ∧
        (u.port p).toCentre ++ (u.port p).upDelay = (s.port p).toCentre ++ (s.port p).upDelay ++ contentBits o.content bits)) ∧
  ∀ before a b : List Bool, contentBits before (a ++ b) = contentBits before a ++ contentBits (before ++ a) b

/-- A frame on one port touches no other port, and neither the timebase nor the clock lines nor the windows (the opening of Chapter 1); a
request in the service unit's hand stays there. -/
def Obligations.FrameTouchesOnePort : Prop :=
  ∀ (s u : State) (p : PortId) (d : Direction) (part : FramePart), exec (.frameReceived p d part) s = .next u →
    (∀ q, q ≠ p → u.port q = s.port q) ∧ u.tb = s.tb ∧ u.lines = s.lines ∧ u.windows = s.windows ∧ u.pending = s.pending ∧
    u.initEnd = s.initEnd ∧ u.straps = s.straps ∧ u.latchInterval = s.latchInterval ∧ u.latchSeq = s.latchSeq ∧
    (∀ q, s.service.inHand = some q → u.service.inHand = some q) ∧ u.service.resetting = s.service.resetting ∧
    u.choices = s.choices

/-- LOSS OF SIGNAL of a direction is raised and cleared with a LINK CONDITION record each, and stops nothing else (R20). -/
def Obligations.LossOfSignalIsRecorded : Prop :=
  ∀ (s : State) (p : PortId), s.initialising = false →
    ((s.port p).downRx.los = false → exec (.lossOfSignalRaised p .down) s =
      .next ((s.setPort p { s.port p with downRx := { (s.port p).downRx with los := true } }).withRecord
        (s.levelOf .link) (.linkCondition p .down .lossOfSignal true))) ∧
    ((s.port p).downRx.los = true → exec (.lossOfSignalCleared p .down) s =
      .next ((s.setPort p { s.port p with downRx := { (s.port p).downRx with los := false } }).withRecord
        (s.levelOf .link) (.linkCondition p .down .lossOfSignal false))) ∧
    ((s.port p).upRx.los = false → exec (.lossOfSignalRaised p .up) s =
      .next ((s.setPort p { s.port p with upRx := { (s.port p).upRx with los := true } }).withRecord
        (s.levelOf .link) (.linkCondition p .up .lossOfSignal true))) ∧
    ((s.port p).upRx.los = true → exec (.lossOfSignalCleared p .up) s =
      .next ((s.setPort p { s.port p with upRx := { (s.port p).upRx with los := false } }).withRecord
        (s.levelOf .link) (.linkCondition p .up .lossOfSignal false)))

/-- A life timer that reaches the timeout raises SILENT (R19). DOWN: the record and no other effect. UP: every present record mapped to
the port becomes stale, loses its candidate and its last command code and returns to IDLE, and no other record changes; behind the LINK
CONDITION record each of them that was under supervision has its INTERRUPTED outcome, in ascending order of index, the order of the table
(R38, R100, R103). -/
def Obligations.LifeTimeoutRaisesSilent : Prop :=
  ∀ (s : State) (p : PortId), s.initialising = false →
    (s.lifeDue p .down = true → exec (.lifeTimeout p .down) s =
      .next ((s.setPort p { s.port p with downRx := { (s.port p).downRx with silent := true, silentSeen := true } }).withRecord
        (s.levelOf .link) (.linkCondition p .down .silent true))) ∧
    (s.lifeDue p .up = true → ∃ u : State, exec (.lifeTimeout p .up) s = .next u ∧
      u.ports = (s.setPort p { s.port p with upRx := { (s.port p).upRx with silent := true, silentSeen := true } }).ports ∧
      (∀ i e, s.element i = some e → (s.mapping i).any (fun m => m.port == p) = true →
        u.element i = some { e with sup := .idle, candidate := none, lastCommand := none, stale := true }) ∧
      (∀ i, (s.mapping i).any (fun m => m.port == p) = false → u.element i = s.element i) ∧
      (tableWf s.elements → u.journal = ((s.withRecord (s.levelOf .link) (.linkCondition p .up .silent true)).withOutcomes
        .interrupted (s.supervised.filter fun x => (s.mapping x.1).any fun m => m.port == p)).journal) ∧
      u = { s with ports := u.ports, elements := u.elements, journal := u.journal })

/-- ERROR RATE of a direction (R21): a check failure, in either direction and in every port state, raises the count of the second, and the
one that brings it to the threshold raises the condition with its record. At the end of a second the count is judged and restarts; a clean
second, one whose count never reached the threshold, extends the run, which the model keeps at 10 at most (log entry 16), any other ends it;
the tenth clears the condition with its record; errored and silent seconds rise by one where they are due. That the count of the second, to
which R21 gives no width, rises by one whatever it stands at is log entry 38 (DESIGN CHOICE). -/
def Obligations.ErrorRateIsJudgedBySeconds : Prop :=
  (∀ (s : State) (p : PortId) (d : Direction) (o : Opening) (rest : List Bool), s.initialising = false → (s.port p).state = .bypass →
    ((s.port p).rx d).opening = some o → o.removal = none → o.collided = false ∨ o.content ≠ [] →
    classify false (o.content ++ rest) = .checkFailure →
    (((s.port p).rx d).checkFails + 1 < (s.port p).errorThreshold ∨ ((s.port p).rx d).errorRate = true →
      exec (.frameReceived p d (.closed rest)) s = .next (s.setPort p
        { ((s.port p).countDir d fun c => { c with checkFails := raise32 c.checkFails }).setRx d { (s.port p).rx d with
            opening := none, checkFails := ((s.port p).rx d).checkFails + 1
            reached := ((s.port p).rx d).reached || decide ((s.port p).errorThreshold ≤ ((s.port p).rx d).checkFails + 1) } with
          quietSince := none })) ∧
    ((s.port p).errorThreshold ≤ ((s.port p).rx d).checkFails + 1 → ((s.port p).rx d).errorRate = false →
      exec (.frameReceived p d (.closed rest)) s = .next ((s.setPort p
        { ((s.port p).countDir d fun c => { c with checkFails := raise32 c.checkFails }).setRx d { (s.port p).rx d with
            opening := none, checkFails := ((s.port p).rx d).checkFails + 1, reached := true, errorRate := true, cleanRun := 0 } with
          quietSince := none }).withRecord (s.levelOf .link) (.linkCondition p d .errorRate true)))) ∧
  (∀ (s : State) (p : PortId) (d : Direction) (o : Opening) (rest : List Bool) (raised : Bool), s.initialising = false →
    ((s.port p).rx d).opening = some o → classify false (o.content ++ rest) = .checkFailure →
    (raised = true ↔ (s.port p).errorThreshold ≤ ((s.port p).rx d).checkFails + 1 ∧ ((s.port p).rx d).errorRate = false) →
    ∃ u : State, exec (.frameReceived p d (.closed rest)) s = .next u ∧
      u = { s with ports := u.ports, journal := u.journal } ∧ (∀ q, q ≠ p → u.port q = s.port q) ∧
      (u.port p).rx d = { (s.port p).rx d with
        opening := none, checkFails := ((s.port p).rx d).checkFails + 1
        reached := ((s.port p).rx d).reached || decide ((s.port p).errorThreshold ≤ ((s.port p).rx d).checkFails + 1)
        errorRate := ((s.port p).rx d).errorRate || raised
        cleanRun := if raised then 0 else ((s.port p).rx d).cleanRun } ∧
      (u.port p).live.dir d = { (s.port p).live.dir d with checkFails := raise32 ((s.port p).live.dir d).checkFails } ∧
      u.journal = if raised then (s.withRecord (s.levelOf .link) (.linkCondition p d .errorRate true)).journal else s.journal) ∧
  ∀ (s : State) (p : PortId) (d : Direction) (run : Nat),
    (run = if ((s.port p).rx d).checkFails < (s.port p).errorThreshold ∧ ((s.port p).rx d).reached = false then
      min 10 (((s.port p).rx d).cleanRun + 1) else 0) →
    let counted := (s.port p).countDir d fun c => { c with
      errored := if 0 < ((s.port p).rx d).checkFails then raise32 c.errored else c.errored
      silentSecs := if ((s.port p).rx d).silentSeen then raise32 c.silentSecs else c.silentSecs }
    (((s.port p).rx d).errorRate = false ∨ run < 10 →
      s.endSecond (p, d) = s.setPort p (counted.setRx d { (s.port p).rx d with
        checkFails := 0, reached := false, cleanRun := run, silentSeen := ((s.port p).rx d).silent })) ∧
    (((s.port p).rx d).errorRate = true → run = 10 →
      s.endSecond (p, d) = (s.setPort p (counted.setRx d { (s.port p).rx d with
        checkFails := 0, reached := false, cleanRun := 10, silentSeen := ((s.port p).rx d).silent,
        errorRate := false })).withRecord (s.levelOf .link) (.linkCondition p d .errorRate false))

/-- While the conditions of a quiet run hold, idle of any kind keeps the run and counts nothing, flags back to back included; the content of
a frame ends it, and is a collision when its opening flag came in a transfer (R5, R10 to R12). Content that no opening flag came before ends
it too, and a new run begins at the flag or abort behind it (R10, R11, log entry 3, DEDUCED). A completed run begins the relay transfer,
which takes 5 ms, with RELAY asserted in JOINING and released in LEAVING, where the bits still in the delays have left and the count of
flags ends (log entries 5 and 44, DESIGN CHOICE); that no run holds in LEAVING while a response is being inserted is log entry 47 (DEDUCED);
after a flag that may yet open a frame it waits (log entry 3). The end of the transfer puts a JOINING port INLINE, its 40-bit delays full of
what arrived last, behind the idle that came before the bits reported, and a LEAVING port into BYPASS (R10, R11, R13). -/
def Obligations.RelayTransferFromQuietRunToEnd : Prop :=
  (∀ (s : State) (p : PortId) (t : Nat), s.initialising = false → (s.port p).quietSince = some t →
    t + ms (s.port p).quiet ≤ s.tb.instant →
    ((s.port p).downRx.opening = none → (s.port p).upRx.opening = none →
      ((s.port p).state = .joining → exec (.joiningQuietRunComplete p) s =
        .next (s.setPort p { s.port p with
          downDelay := idleTail (s.port p).downDelay, upDelay := idleTail (s.port p).upDelay,
          transferEnd := some (s.tb.instant + ms 5), relay := true, quietSince := none })) ∧
      ((s.port p).state = .leaving → (s.port p).transferEnd = none → exec (.leavingQuietRunComplete p) s =
        .next (s.setPort p { s.port p with
          toField := (s.port p).toField ++ (s.port p).downDelay, toCentre := (s.port p).toCentre ++ (s.port p).upDelay,
          downDelay := [], upDelay := [], upFlags := 0, markRun := 0, skipping := false,
          transferEnd := some (s.tb.instant + ms 5), relay := false, quietSince := none }))) ∧
    ((s.port p).downRx.opening ≠ none ∨ (s.port p).upRx.opening ≠ none →
      exec (.joiningQuietRunComplete p) s = .next s ∧ exec (.leavingQuietRunComplete p) s = .next s)) ∧
  (∀ (s : State) (p : PortId) (t : Nat), s.initialising = false → (s.port p).transferEnd = some t → t ≤ s.tb.instant →
    ((s.port p).state = .joining → ∃ u : State, exec (.relayTransferEnd p) s = .next u ∧
      (u.port p).state = .inline ∧ (u.port p).transferEnd = none ∧ (u.port p).relay = (s.port p).relay ∧
      (u.port p).responses = (s.port p).responses ∧ (u.port p).forwards = true ∧
      (u.port p).downDelay = List.replicate (40 - (s.port p).downDelay.length)
        (if (s.port p).downDelay.head? = some .mark then .mark else .flag) ++ (s.port p).downDelay ∧
      (u.port p).upDelay = List.replicate (40 - (s.port p).upDelay.length)
        (if (s.port p).upDelay.head? = some .mark then .mark else .flag) ++ (s.port p).upDelay ∧
      (∀ q, q ≠ p → u.port q = s.port q) ∧ u = { s with ports := u.ports }) ∧
    ((s.port p).state = .leaving → exec (.relayTransferEnd p) s =
      .next (s.setPort p { s.port p with state := .bypass, transferEnd := none }))) ∧
  (∀ (s : State) (p : PortId) (d : Direction) (t : Nat) (part : FramePart), s.initialising = false →
    (s.port p).quietHolds = true → (s.port p).sending = [] → (s.port p).quietSince = some t →
    (∃ marks n, part = .idle marks n) ∨ (∃ shared, part = .opening shared) ∨ part = .closed [] →
    ∃ u : State, exec (.frameReceived p d part) s = .next u ∧ u = s.setPort p (u.port p) ∧
      (u.port p).quietSince = some t ∧ (u.port p).live = (s.port p).live) ∧
  (∀ (s : State) (p : PortId) (d : Direction) (o : Opening) (b : Bool) (bits : List Bool), s.initialising = false →
    ((s.port p).rx d).opening = some o →
    ∃ u : State, exec (.frameReceived p d (.content (b :: bits))) s = .next u ∧ u = s.setPort p (u.port p) ∧
      (u.port p).quietSince = none ∧
      (u.port p).live.port.collisions = if o.collided = true ∧ o.content = [] then raise32 (s.port p).live.port.collisions
        else (s.port p).live.port.collisions) ∧
  ∀ (s : State) (p : PortId) (d : Direction) (b : Bool) (bits rest : List Bool), s.initialising = false →
    ((s.port p).rx d).opening = none →
    (∃ u : State, exec (.frameReceived p d (.content (b :: bits))) s = .next u ∧ u = s.setPort p (u.port p) ∧
      (u.port p).quietSince = none ∧ ((u.port p).rx d).idle = false ∧ (u.port p).live = (s.port p).live) ∧
    (((s.port p).rx d).stray ++ rest ≠ [] → (s.port p).transferEnd = none → (∀ e, e ≠ d → ((s.port p).rx e).idle = true) →
      (s.port p).state = .joining ∨ ((s.port p).state = .leaving ∧ (s.port p).responses = [] ∧ (s.port p).inserting = none ∧
        (s.port p).sending = [] ∧ (s.port p).held = []) →
      (∃ u : State, exec (.frameReceived p d (.closed rest)) s = .next u ∧ u = s.setPort p (u.port p) ∧
        (u.port p).quietSince = some s.tb.instant ∧ (u.port p).live = (s.port p).live) ∧
      (∃ u : State, exec (.frameReceived p d (.aborted rest)) s = .next u ∧ u = s.setPort p (u.port p) ∧
        (u.port p).quietSince = some s.tb.instant ∧ (u.port p).live = (s.port p).live))

/-- An insertion begins when no bit is held and 16 bit times of flags have been sent since the last frame: it takes the head response and
sends its frame; it cannot begin while a frame, or content outside one, is arriving and a bit is held or the flags are too few. Its end,
when the closing flag has been sent, counts it. In each bit time the output takes the next bit of the response, or else the oldest bit held,
or else the bit that comes out of the delay, and in the first two cases that bit joins the tail of the buffer, but for idle that the buffer
leaves out: so the bits of field frames are held whole and in order. An opening flag behind a closing flag that stands whole at the buffer's
tail is left out, and any other is stored whole, so that no frame has a part of a flag before it (log entry 48, DESIGN CHOICE). A port in
LEAVING inserts as one in INLINE does (R11), and a quiet run may begin when the insertion ends. Backlog and bits to send together never
grow; on an idle line the bits held leave, oldest first, until none is left, and while a frame or content outside one is arriving
BACKLOG_DRAINED waits (R16, R17). How the bit times of a waiting port pass is log entry 5 (DESIGN CHOICE). -/
def Obligations.InsertionAndBacklog : Prop :=
  (∀ (s : State) (p : PortId), s.initialising = false →
    (∀ r rest, (s.port p).forwards = true → (s.port p).responses = r :: rest →
      (s.port p).inserting = none → (s.port p).held = [] → 16 ≤ (s.port p).upFlags → exec (.insertionBegin p) s =
        .next (s.setPort p { s.port p with
          responses := rest, inserting := some r, sending := frameBits (responseContent s.straps r), quietSince := none })) ∧
    ((s.port p).upRx.opening ≠ none ∨ (s.port p).upRx.stray ≠ [] → (s.port p).held ≠ [] ∨ (s.port p).upFlags < 16 →
      exec (.insertionBegin p) s = .next s) ∧
    (∀ r marks, (s.port p).inserting = some r → (s.port p).sending = [] → (s.port p).state = .inline →
      exec (.insertionEnd p marks) s = .next (s.setPort p { s.port p with
        inserting := none, quietSince := none,
        live := { (s.port p).live with port := { (s.port p).live.port with
          inserted := raise32 (s.port p).live.port.inserted } } })) ∧
    (∀ r marks, (s.port p).inserting = some r → (s.port p).sending = [] → (s.port p).state = .leaving →
      exec (.insertionEnd p marks) s = .next (s.setPort p { s.port p with
        inserting := none
        quietSince := if (s.port p).transferEnd = none ∧ (s.port p).responses = [] ∧ (s.port p).held = [] ∧
            (s.port p).downRx.idle = true ∧ (s.port p).upRx.idle = true then some ((s.port p).quietSince.getD s.tb.instant) else none
        live := { (s.port p).live with port := { (s.port p).live.port with
          inserted := raise32 (s.port p).live.port.inserted } } })) ∧
    ((s.port p).upRx.opening ≠ none ∨ (s.port p).upRx.stray ≠ [] → (s.port p).held ≠ [] →
      exec (.backlogDrained p) s = .next s) ∧
    ((s.port p).forwards = true → (s.port p).upRx.opening = none → (s.port p).upRx.stray = [] → (s.port p).sending = [] →
      (s.port p).held ≠ [] → (s.port p).held.length ≤ 640 → (s.port p).upDelay.length = 40 →
      ∃ (u : State) (more : List LineBit), exec (.backlogDrained p) s = .next u ∧ u = s.setPort p (u.port p) ∧
        (u.port p).backlog = 0 ∧ (u.port p).toCentre = (s.port p).toCentre ++ (s.port p).held ++ more)) ∧
  (∀ (x : Port) (b : LineBit) (kept : List LineBit) (skips : Bool),
    (skips = true ↔ b = .opening ∧ (x.skipping = true ∨ List.replicate 8 .closing <:+ x.held)) →
    (kept = match b with
      | .content _ => [b]
      | .closing => [b]
      | .opening => if skips then [] else [b]
      | .mark => if x.held ≠ [] ∧ x.markRun < 7 then [b] else []
      | .flag => []) →
    (∀ r rest, x.sending = r :: rest → x.relayUp b = { x with
      sending := rest, held := x.held ++ kept, toCentre := x.toCentre ++ [r], upFlags := flagsAfter x.upFlags r,
      markRun := marksAfter x.markRun b, skipping := skips }) ∧
    (∀ h rest, x.sending = [] → x.held = h :: rest → x.relayUp b = { x with
      held := rest ++ kept, toCentre := x.toCentre ++ [h], upFlags := flagsAfter x.upFlags h,
      markRun := marksAfter x.markRun b, skipping := skips }) ∧
    (x.sending = [] → x.held = [] → x.relayUp b = { x with
      toCentre := x.toCentre ++ [b], upFlags := flagsAfter x.upFlags b, markRun := marksAfter x.markRun b, skipping := skips })) ∧
  (∀ (x : Port) (bits : List LineBit), x.forwards = true → x.upDelay.length = 40 → bits.length ≤ x.sending.length →
    (∀ b ∈ (x.upDelay ++ bits).take bits.length, b = .closing ∨ ∃ v, b = .content v) →
    (x.arrive .up bits).held = x.held ++ (x.upDelay ++ bits).take bits.length ∧
    (x.arrive .up bits).sending = x.sending.drop bits.length ∧
    (x.arrive .up bits).toCentre = x.toCentre ++ x.sending.take bits.length ∧
    (x.arrive .up bits).upDelay = (x.upDelay ++ bits).drop bits.length) ∧
  (∀ (x : Port) (bits kept : List LineBit), x.forwards = true → x.upDelay.length = 40 → bits.length = 8 →
    x.upDelay.take 8 = List.replicate 8 .opening → x.skipping = false → x.sending ++ x.held ≠ [] →
    kept = (if List.replicate 8 .closing <:+ x.held then [] else List.replicate 8 .opening) →
    (x.arrive .up bits).sending ++ (x.arrive .up bits).held = (x.sending ++ x.held ++ kept).drop 8 ∧
    (x.arrive .up bits).toCentre = x.toCentre ++ (x.sending ++ x.held ++ kept).take 8) ∧
  ∀ (x : Port) (d : Direction) (bits : List LineBit),
    (x.arrive d bits).backlog + (x.arrive d bits).sending.length ≤ x.backlog + x.sending.length

/-- SET PORT takes the rate, the latency, the life timeout, the error threshold, the quiet interval, the accept flag and the latch interval,
the life timeout, the threshold and the quiet interval clamped to their ranges and rounded to their steps, and answers with them, provided
that the rate is the same or the port is in BYPASS and that some accept flag stays set (R6, R22, R174, R175). Another rate ends a frame in
reception as an abort (R6); a quiet run that has lasted the new interval begins the relay transfer at once (R10); a life timer that has run
for the new timeout raises SILENT at once, DOWN ahead of UP, with the records and the stale marking of a raise (R19; the order of all these
is log entry 28, DEDUCED). Where none of these is the case nothing else changes. Another rate outside BYPASS and the clearing of the last
accept flag are refused with STATE; a port, rate or latch code that names nothing is refused with RANGE, ahead of those (log entry 39,
DESIGN CHOICE), and so is an accept octet other than 0 and 1 (log entry 27, DEDUCED). -/
def Obligations.SetPortTakesItsSettings : Prop :=
  (∀ (s : State) (r : Request) (p : PortId) (rate given life accept latch : Nat) (lat1 lat0 threshold quiet : Byte) (k : LineRate)
    (a : Bool) (i : LatchInterval), s.ready → given < 65536 →
    r.params = [BitVec.ofNat 8 p.val, BitVec.ofNat 8 rate, lat1, lat0,
      BitVec.ofNat 8 (given / 256), BitVec.ofNat 8 (given % 256), threshold, quiet, BitVec.ofNat 8 accept,
      BitVec.ofNat 8 latch] →
    LineRate.ofCode rate = some k → flagOfCode accept = some a → LatchInterval.ofCode latch = some i →
    life = (max 100 (min 10000 given) + 50) / 100 * 100 →
    (k ≠ (s.port p).rate → (s.port p).state ≠ .bypass →
      exec (.setPort r) s = .next ((s.taking 10 r).respond 10 r (.refused .state))) ∧
    ((s.port p).accept = true → a = false → (∀ q, q ≠ p → (s.port q).accept = false) →
      exec (.setPort r) s = .next ((s.taking 10 r).respond 10 r (.refused .state))) ∧
    ((k ≠ (s.port p).rate → (s.port p).state = .bypass ∧ (s.port p).downRx.opening = none ∧ (s.port p).upRx.opening = none) →
      (a = true ∨ (s.port p).accept = false ∨ ∃ q, q ≠ p ∧ (s.port q).accept = true) →
      (∀ t, (s.port p).quietSince = some t → s.tb.instant < t + ms (max 2 (min 50 quiet.toNat))) →
      (∀ t, (s.port p).downRx.lifeSince = some t → s.tb.instant < t + ms life) →
      (∀ t, (s.port p).upRx.lifeSince = some t → s.tb.instant < t + ms life) →
      ∃ u : State, exec (.setPort r) s = .next (u.respond 10 r
          (taken (decide (life ≠ given ∨ threshold.toNat = 0 ∨ quiet.toNat < 2 ∨ 50 < quiet.toNat)) (u.portSettings p))) ∧
        u = { (s.taking 10 r).setPort p { s.port p with
          rate := k, latency := ofBe [lat1, lat0], lifeTimeout := life, errorThreshold := max 1 threshold.toNat,
          quiet := max 2 (min 50 quiet.toNat), accept := a } with latchInterval := i })) ∧
  (∀ (s : State) (r : Request) (p : PortId) (rate given life accept latch wait : Nat) (lat1 lat0 threshold quiet : Byte) (k : LineRate)
    (a : Bool) (i : LatchInterval) (late : Direction → Bool) (v : State), s.ready → given < 65536 →
    r.params = [BitVec.ofNat 8 p.val, BitVec.ofNat 8 rate, lat1, lat0,
      BitVec.ofNat 8 (given / 256), BitVec.ofNat 8 (given % 256), threshold, quiet, BitVec.ofNat 8 accept,
      BitVec.ofNat 8 latch] →
    LineRate.ofCode rate = some k → flagOfCode accept = some a → LatchInterval.ofCode latch = some i →
    life = (max 100 (min 10000 given) + 50) / 100 * 100 → wait = max 2 (min 50 quiet.toNat) →
    (k ≠ (s.port p).rate → (s.port p).state = .bypass) →
    (a = true ∨ (s.port p).accept = false ∨ ∃ q, q ≠ p ∧ (s.port q).accept = true) →
    (∀ d, late d = true ↔ ((s.port p).rx d).silent = false ∧
      ∃ t, ((s.port p).rx d).lifeSince = some t ∧ t + ms life ≤ s.tb.instant) →
    v = (if late .down then s.withRecord (s.levelOf .link) (.linkCondition p .down .silent true) else s) →
    ∃ u : State, exec (.setPort r) s = .next (u.respond 10 r
        (taken (decide (life ≠ given ∨ threshold.toNat = 0 ∨ quiet.toNat < 2 ∨ 50 < quiet.toNat)) (u.portSettings p))) ∧
      (u.port p).rate = k ∧ (u.port p).latency = ofBe [lat1, lat0] ∧ (u.port p).lifeTimeout = life ∧
      (u.port p).errorThreshold = max 1 threshold.toNat ∧ (u.port p).quiet = wait ∧ (u.port p).accept = a ∧
      (u.port p).state = (s.port p).state ∧ (∀ q, q ≠ p → u.port q = s.port q) ∧
      (∀ d, ((u.port p).rx d).silent = (((s.port p).rx d).silent || late d) ∧
        ((u.port p).rx d).opening = (if k ≠ (s.port p).rate then none else ((s.port p).rx d).opening) ∧
        (u.port p).live.dir d = { (s.port p).live.dir d with
          aborts := if k ≠ (s.port p).rate ∧ ((s.port p).rx d).inFrame = true then raise32 ((s.port p).live.dir d).aborts
            else ((s.port p).live.dir d).aborts }) ∧
      (u.port p).live.port = (s.port p).live.port ∧
      (∀ t, k = (s.port p).rate → (s.port p).quietSince = some t → t + ms wait ≤ s.tb.instant →
        (s.port p).downRx.opening = none → (s.port p).upRx.opening = none →
        (u.port p).transferEnd = some (s.tb.instant + ms 5) ∧ (u.port p).relay = decide ((s.port p).state = .joining) ∧
        (u.port p).quietSince = none) ∧
      ((s.port p).quietSince = none ∨ (∃ t, (s.port p).quietSince = some t ∧ s.tb.instant < t + ms wait) →
        (u.port p).transferEnd = (s.port p).transferEnd ∧ (u.port p).relay = (s.port p).relay) ∧
      (late .up = true →
        (∀ j e, s.element j = some e → (s.mapping j).any (fun m => m.port == p) = true →
          u.element j = some { e with sup := .idle, candidate := none, lastCommand := none, stale := true }) ∧
        (∀ j, (s.mapping j).any (fun m => m.port == p) = false → u.element j = s.element j) ∧
        (tableWf s.elements → u.journal = ((v.withRecord (s.levelOf .link) (.linkCondition p .up .silent true)).withOutcomes
          .interrupted (s.supervised.filter fun x => (s.mapping x.1).any fun m => m.port == p)).journal)) ∧
      (late .up = false → u.elements = s.elements ∧ u.journal = v.journal) ∧
      u = { s.taking 10 r with ports := u.ports, latchInterval := i, elements := u.elements, journal := u.journal }) ∧
  ∀ (s : State) (r : Request) (port rate lat1 lat0 life1 life0 threshold quiet accept latch : Byte), s.ready →
    r.params = [port, rate, lat1, lat0, life1, life0, threshold, quiet, accept, latch] →
    8 ≤ port.toNat ∨ 6 ≤ rate.toNat ∨ 2 ≤ accept.toNat ∨ 4 ≤ latch.toNat →
    exec (.setPort r) s = .next ((s.taking 10 r).respond 10 r (.refused .range))

/-- JOIN and LEAVE follow the table of R9: taken from BYPASS and from INLINE, answered without change in the state asked for, refused with
BUSY in between, LEAVE of the last accepting INLINE port refused with STATE, and a port number above 7 refused with RANGE. -/
def Obligations.JoinAndLeaveTable : Prop :=
  (∀ (s : State) (b : Byte) (r : Request), s.ready → r.params = [b] → 7 < b.toNat →
    exec (.join r) s = .next ((s.taking 11 r).respond 11 r (.refused .range)) ∧
    exec (.leave r) s = .next ((s.taking 12 r).respond 12 r (.refused .range))) ∧
  ∀ (s : State) (p : PortId) (r : Request), s.ready → r.params = [BitVec.ofNat 8 p.val] →
    ((s.port p).state = .bypass → exec (.join r) s =
      .next (((s.taking 11 r).setPort p ((s.port p).enterJoining s.tb.instant)).respond 11 r (.done [2]))) ∧
    ((s.port p).state = .inline → exec (.join r) s = .next ((s.taking 11 r).respond 11 r (.done [3]))) ∧
    ((s.port p).state = .joining ∨ (s.port p).state = .leaving → exec (.join r) s =
      .next ((s.taking 11 r).respond 11 r (.refused .busy))) ∧
    ((s.port p).state = .inline →
      (s.port p).accept = false ∨ (∃ q, q ≠ p ∧ (s.port q).state = .inline ∧ (s.port q).accept = true) → exec (.leave r) s =
      .next (((s.taking 12 r).setPort p ((s.port p).enterLeaving s.tb.instant)).respond 12 r (.done [4]))) ∧
    ((s.port p).state = .bypass → exec (.leave r) s = .next ((s.taking 12 r).respond 12 r (.done [1]))) ∧
    ((s.port p).state = .joining ∨ (s.port p).state = .leaving → exec (.leave r) s =
      .next ((s.taking 12 r).respond 12 r (.refused .busy))) ∧
    ((s.port p).state = .inline → (s.port p).accept = true →
      (∀ q, q ≠ p → (s.port q).state = .inline → (s.port q).accept = false) → exec (.leave r) s =
        .next ((s.taking 12 r).respond 12 r (.refused .state)))

/-- A latch copies every live counter into the latched set, zeroes the live set and advances the sequence number; on a port in JOINING the
whole milliseconds since its entry that are not yet counted are counted first (R10); LATCH COUNTERS makes one when the interval is MANUAL
and is refused with STATE otherwise (R24). -/
def Obligations.LatchMovesTheCounters : Prop :=
  ∀ (s : State) (r : Request), s.ready → r.params = [] →
    (s.latchInterval = .manual → exec (.latchCounters r) s =
      .next ((s.taking 14 r).latch.respond 14 r (.done (be 2 (s.latchSeq + 1).toNat)))) ∧
    (s.latchInterval ≠ .manual → exec (.latchCounters r) s =
      .next ((s.taking 14 r).respond 14 r (.refused .state))) ∧
    (∀ p, (s.latch.port p).live = Counters.zero ∧ (s.latch.port p).latched.down = (s.port p).live.down ∧
      (s.latch.port p).latched.up = (s.port p).live.up ∧
      ((s.port p).joinSince = none → s.latch.port p = { s.port p with latched := (s.port p).live, live := Counters.zero }) ∧
      (∀ t n, (s.port p).joinSince = some t → n = (s.tb.instant - t) / ms 1 → s.latch.port p = { s.port p with
        joinCredited := n
        latched := { (s.port p).live with port := { (s.port p).live.port with
          joiningMs := min 4294967295 ((s.port p).live.port.joiningMs + (n - (s.port p).joinCredited)) } }
        live := Counters.zero })) ∧
    s.latch = { s with ports := s.latch.ports, latchSeq := s.latchSeq + 1 }

/-! ## Windows and elements -/

/-- LOAD WINDOW by the tables of R27: a port above 7, a window above 3 and values out of their bounds are refused with RANGE; base and limit
are rounded to whole eights; an index above 2047 is refused with RANGE, a range that meets another open window with OVERLAP, and a record
under supervision in the old or the new range with BUSY, in this order; otherwise the window takes its rounded values and answers with them,
each address of its range then leads to its index (R26, R29), and the records are brought into line (R28). A base above the limit closes the
window unless its old range holds a supervised record. -/
def Obligations.LoadWindowMapsItsRange : Prop :=
  (∀ (s : State) (r : Request) (p : PortId) (w : LineId) (base limit table : Nat), s.ready →
    r.params = [BitVec.ofNat 8 p.val, BitVec.ofNat 8 w.val] ++ be 2 base ++ be 2 limit ++ be 2 table →
    base < 65536 → limit < 65536 → table < 65536 →
    (4095 < base ∨ 4095 < limit ∨ 2047 < table →
      exec (.loadWindow r) s = .next ((s.taking 20 r).respond 20 r (.refused .range))) ∧
    (∀ x : Window, x = ⟨base / 8 * 8, limit / 8 * 8 + 7, table⟩ → base ≤ limit → limit ≤ 4095 → table ≤ 2047 →
      (2047 < table + (x.limit - x.base) →
        exec (.loadWindow r) s = .next ((s.taking 20 r).respond 20 r (.refused .range))) ∧
      (table + (x.limit - x.base) ≤ 2047 → s.overlaps p w x →
        exec (.loadWindow r) s = .next ((s.taking 20 r).respond 20 r (.refused .overlap))) ∧
      (table + (x.limit - x.base) ≤ 2047 → ¬ s.overlaps p w x → s.touches (s.window p w) ∨ s.touches x →
        exec (.loadWindow r) s = .next ((s.taking 20 r).respond 20 r (.refused .busy))) ∧
      (table + (x.limit - x.base) ≤ 2047 → ¬ s.overlaps p w x → ¬ s.touches (s.window p w) → ¬ s.touches x →
        ∃ u : State, exec (.loadWindow r) s = .next (u.respond 20 r
            (taken (decide (base % 8 ≠ 0 ∨ limit % 8 ≠ 7)) (be 2 x.base ++ be 2 x.limit ++ be 2 table))) ∧
          u = (s.taking 20 r).takeWindow p w x ∧
          u.window p w = x ∧ (∀ q v, (q, v) ≠ (p, w) → u.window q v = s.window q v) ∧
          (∀ a, x.base ≤ a → a ≤ x.limit → u.decodeAddress p a = some (table + (a - x.base))) ∧
          u = { s.taking 20 r with windows := u.windows, elements := u.elements })) ∧
    (limit < base → base ≤ 4095 → table ≤ 2047 →
      (s.touches (s.window p w) →
        exec (.loadWindow r) s = .next ((s.taking 20 r).respond 20 r (.refused .busy))) ∧
      (¬ s.touches (s.window p w) → exec (.loadWindow r) s =
        .next (((s.taking 20 r).takeWindow p w ⟨4095, 0, 0⟩).respond 20 r (.done (be 2 4095 ++ be 2 0 ++ be 2 0)))))) ∧
  ∀ (s : State) (r : Request) (port window b1 b0 l1 l0 t1 t0 : Byte), s.ready → 7 < port.toNat ∨ 3 < window.toNat →
    r.params = [port, window, b1, b0, l1, l0, t1, t0] →
    exec (.loadWindow r) s = .next ((s.taking 20 r).respond 20 r (.refused .range))

/-- A window load brings the present records into line: one whose port and address stay is untouched; one whose mapping changes loses its
candidate, and becomes stale when it comes to be mapped to a port with UP SILENT raised; everything else of it is kept (R28). That the last
command code is among what is kept, where R37 has it become absent with the stale flag, is log entry 40 (DESIGN CHOICE). -/
def Obligations.WindowLoadRealignsRecords : Prop :=
  ∀ (s : State) (p : PortId) (w : LineId) (x : Window) (i : Nat),
    (s.element i = none → (s.takeWindow p w x).element i = none) ∧
    (∀ e, s.element i = some e →
      (sameMapping (s.mapping i) ((s.takeWindow p w x).mapping i) = true → (s.takeWindow p w x).element i = some e) ∧
      (sameMapping (s.mapping i) ((s.takeWindow p w x).mapping i) = false → (s.takeWindow p w x).element i =
        some { e with candidate := none, stale := e.stale || (s.takeWindow p w x).silentPortOf i }))

/-- LOAD ELEMENT on an index up to 2047. In its 3-octet form it makes an empty record present with every default of R30 for its kind, and
loads these defaults into a present one. In its 11-octet form it takes the fields of the kind, clamped and rounded, 0 standing for a
default, and answers DONE just when none was clamped, rounded, replaced or ignored (R40, R186); that an OTHER record's first limit reads as
a free value is log entry 9. In either form a record present of the same kind keeps everything else (R41), one of another kind is made anew
(R42); under supervision it is refused with BUSY, and with IN-USE where references would be lost. A kind, selection or index out of its
bounds is refused with RANGE, a timetabled flag on no signal and TO STOP or TO PROCEED on OTHER with KIND (R40). No other record changes.
The octet for the absent override is a free value (log entry 8). -/
def Obligations.LoadElementGivesDefaults : Prop :=
  (∀ (s : State) (r : Request) (i : Nat) (kind : Kind), s.ready → i ≤ 2047 → s.element i = none →
    r.params = be 2 i ++ [kind.code] →
    ∃ u : State, exec (.loadElement r) s = .next (u.respond 21 r (.done ([kind.code, 2, 0, 0, Config.unstatedOctet 4] ++
        be 2 (match kind with
          | .point => 8000
          | .signal => 1500
          | .other => Config.otherFirstLimit) ++ be 2 6000))) ∧
      u.element i = some
        { loaded := { kind := kind, confirm := 2, selection := .all, dateCommands := false, timetabled := false,
                      override := none, operateLimit := 8000, slowThreshold := 6000, provingLimit := 1500 },
          accepted := none, candidate := none, stale := s.silentPortOf i, lastChange := none, lastCommand := none,
          undefinedSeen := false, sup := .idle, stats := ⟨0, 0, 0, 0, 0, 0⟩, refs := 0 } ∧
      (∀ j, j ≠ i → u.element j = s.element j) ∧ u = { s.taking 21 r with elements := u.elements }) ∧
  (∀ (s : State) (r : Request) (i : Nat) (kind : Kind) (e : Element) (l : Loaded) (answer : Reply), s.ready → i ≤ 2047 →
    s.element i = some e → r.params = be 2 i ++ [kind.code] →
    answer = .done ([kind.code, 2, 0, 0, Config.unstatedOctet 4] ++ be 2 (match kind with
      | .point => 8000
      | .signal => 1500
      | .other => Config.otherFirstLimit) ++ be 2 6000) →
    l = { kind := kind, confirm := 2, selection := .all, dateCommands := false, timetabled := false,
          override := none, operateLimit := 8000, slowThreshold := 6000, provingLimit := 1500 } →
    (e.sup ≠ .idle → exec (.loadElement r) s = .next ((s.taking 21 r).respond 21 r (.refused .busy))) ∧
    (e.sup = .idle → e.loaded.kind = kind → (kind = .signal → e.loaded.timetabled = true → e.refs = 0) →
      exec (.loadElement r) s = .next (((s.taking 21 r).setElement i { e with loaded := l }).respond 21 r answer)) ∧
    (e.sup = .idle → e.loaded.kind = kind → kind = .signal → e.loaded.timetabled = true → 0 < e.refs →
      exec (.loadElement r) s = .next ((s.taking 21 r).respond 21 r (.refused .inUse))) ∧
    (e.sup = .idle → e.loaded.kind ≠ kind → 0 < e.refs →
      exec (.loadElement r) s = .next ((s.taking 21 r).respond 21 r (.refused .inUse))) ∧
    (e.sup = .idle → e.loaded.kind ≠ kind → e.refs = 0 → exec (.loadElement r) s =
      .next (((s.taking 21 r).setElement i
        { loaded := l, accepted := none, candidate := none, stale := s.silentPortOf i, lastChange := none, lastCommand := none,
          undefinedSeen := false, sup := .idle, stats := ⟨0, 0, 0, 0, 0, 0⟩, refs := 0 }).respond 21 r answer))) ∧
  (∀ (s : State) (r : Request) (i : Nat) (kind : Kind) (confirm override : Byte) (selection : Selection)
    (dateCommands timetabled given : Bool) (first slow limit threshold proving : Nat) (l : Loaded) (fresh : Element),
    s.ready → i ≤ 2047 → first < 65536 → slow < 65536 →
    r.params = be 2 i ++ [kind.code, confirm, selection.code,
      BitVec.ofNat 8 (dateCommands.toNat + 2 * timetabled.toNat + 4 * given.toNat), override] ++ be 2 first ++ be 2 slow →
    (timetabled = true → kind = .signal) → (kind = .other → selection = .all ∨ selection = .none) →
    limit = (if first = 0 then 8000 else (max 500 (min 30000 first) + 50) / 100 * 100) →
    threshold = (if slow = 0 then 6000 else (max 500 (min 30000 slow) + 50) / 100 * 100) →
    proving = (if first = 0 then 1500 else (max 100 (min 5000 first) + 50) / 100 * 100) →
    l = { kind := kind, confirm := if confirm.toNat = 0 then 2 else min 4 confirm.toNat,
          selection := if kind = .point then .all else selection, dateCommands := dateCommands, timetabled := timetabled,
          override := if given then some (min 7 override.toNat) else none,
          operateLimit := if kind = .point then limit else 8000,
          slowThreshold := if kind = .point then min threshold limit else 6000,
          provingLimit := if kind = .signal then proving else 1500 } →
    fresh = { loaded := l, accepted := none, candidate := none, stale := s.silentPortOf i, lastChange := none, lastCommand := none,
              undefinedSeen := false, sup := .idle, stats := ⟨0, 0, 0, 0, 0, 0⟩, refs := 0 } →
    ∃ changed : Bool,
      (changed = false ↔ confirm.toNat ≤ 4 ∧ (given = true → override.toNat ≤ 7) ∧ (match kind with
        | .point => selection = .all ∧ (first = 0 ∨ limit = first) ∧ (slow = 0 ∨ threshold = slow) ∧ threshold ≤ limit
        | .signal => (first = 0 ∨ proving = first) ∧ (slow = 0 ∨ slow = 6000)
        | .other => (first = 0 ∨ first = Config.otherFirstLimit) ∧ (slow = 0 ∨ slow = 6000))) ∧
      (s.element i = none → exec (.loadElement r) s =
        .next (((s.taking 21 r).setElement i fresh).respond 21 r (taken changed (kind.code :: l.octets)))) ∧
      ∀ e, s.element i = some e →
        (e.sup ≠ .idle → exec (.loadElement r) s = .next ((s.taking 21 r).respond 21 r (.refused .busy))) ∧
        (e.sup = .idle → e.loaded.kind = kind →
          (kind = .signal → e.loaded.timetabled = true → timetabled = false → e.refs = 0) → exec (.loadElement r) s =
          .next (((s.taking 21 r).setElement i { e with loaded := l }).respond 21 r (taken changed (kind.code :: l.octets)))) ∧
        (e.sup = .idle → e.loaded.kind = kind → kind = .signal → e.loaded.timetabled = true → timetabled = false → 0 < e.refs →
          exec (.loadElement r) s = .next ((s.taking 21 r).respond 21 r (.refused .inUse))) ∧
        (e.sup = .idle → e.loaded.kind ≠ kind → 0 < e.refs →
          exec (.loadElement r) s = .next ((s.taking 21 r).respond 21 r (.refused .inUse))) ∧
        (e.sup = .idle → e.loaded.kind ≠ kind → e.refs = 0 → exec (.loadElement r) s =
          .next (((s.taking 21 r).setElement i fresh).respond 21 r (taken changed (kind.code :: l.octets))))) ∧
  (∀ (s : State) (r : Request) (i1 i0 kind : Byte), s.ready → r.params = [i1, i0, kind] →
    2047 < ofBe [i1, i0] ∨ kind.toNat = 0 ∨ 3 < kind.toNat →
    exec (.loadElement r) s = .next ((s.taking 21 r).respond 21 r (.refused .range))) ∧
  ∀ (s : State) (r : Request) (i1 i0 kind confirm selection flags override f1 f0 t1 t0 : Byte), s.ready →
    r.params = [i1, i0, kind, confirm, selection, flags, override, f1, f0, t1, t0] →
    (2047 < ofBe [i1, i0] ∨ kind.toNat = 0 ∨ 3 < kind.toNat ∨ 3 < selection.toNat →
      exec (.loadElement r) s = .next ((s.taking 21 r).respond 21 r (.refused .range))) ∧
    (ofBe [i1, i0] ≤ 2047 → 1 ≤ kind.toNat → kind.toNat ≤ 3 → selection.toNat ≤ 3 →
      (flags.getLsbD 1 = true ∧ kind.toNat ≠ 2) ∨ (kind.toNat = 3 ∧ (selection.toNat = 1 ∨ selection.toNat = 2)) →
      exec (.loadElement r) s = .next ((s.taking 21 r).respond 21 r (.refused .kind)))

/-- R43: REMOVE ELEMENT empties one record: no change on an empty one, BUSY under supervision, IN-USE while referenced, RANGE above 2047;
windows stay, and telegrams for the emptied record are counted unmapped. -/
def Obligations.RemoveElementEmptiesOneRecord : Prop :=
  ∀ (s : State) (r : Request) (i : Nat), s.ready → i < 65536 → r.params = be 2 i →
    (2047 < i → exec (.removeElement r) s = .next ((s.taking 22 r).respond 22 r (.refused .range))) ∧
    (i ≤ 2047 → s.element i = none →
      exec (.removeElement r) s = .next ((s.taking 22 r).respond 22 r (.done [0]))) ∧
    (∀ e, i ≤ 2047 → s.element i = some e →
      (e.sup ≠ .idle → exec (.removeElement r) s = .next ((s.taking 22 r).respond 22 r (.refused .busy))) ∧
      (e.sup = .idle → 0 < e.refs → exec (.removeElement r) s = .next ((s.taking 22 r).respond 22 r (.refused .inUse))) ∧
      (e.sup = .idle → e.refs = 0 → ∃ u : State, exec (.removeElement r) s = .next (u.respond 22 r (.done [1])) ∧
        u.element i = none ∧ (∀ j, j ≠ i → u.element j = s.element j) ∧
        (∀ p a, u.decodeAddress p a = some i → (∀ x, u.trackReport p a x = u.countUnmapped p .up) ∧
          (∀ code c, u.trackCommand p a code c = u.countUnmapped p .down)) ∧
        u = { s.taking 22 r with elements := u.elements }))

/-- CLEAR STATISTICS zeroes the six statistics and the undefined code seen flag of the record named, or of every present record, and
touches nothing else; an empty record is refused with STATE, and an index above 2047 that does not mean all records with RANGE (R45). -/
def Obligations.ClearStatisticsZeroesThem : Prop :=
  ∀ (s : State) (r : Request) (i : Nat), s.ready → i ≤ 2047 →
    (∀ e, r.params = be 2 i → s.element i = some e → exec (.clearStatistics r) s =
      .next (((s.taking 24 r).setElement i { e with stats := ⟨0, 0, 0, 0, 0, 0⟩, undefinedSeen := false }).respond 24 r
        (.done [0, 1]))) ∧
    (r.params = be 2 i → s.element i = none → exec (.clearStatistics r) s =
      .next ((s.taking 24 r).respond 24 r (.refused .state))) ∧
    (∀ j, 2047 < j → j < 65535 → r.params = be 2 j → exec (.clearStatistics r) s =
      .next ((s.taking 24 r).respond 24 r (.refused .range))) ∧
    (r.params = [255, 255] → ∃ u : State, exec (.clearStatistics r) s = .next (u.respond 24 r (.done (be 2 s.elements.length))) ∧
      (∀ j, u.element j =
        (s.element j).map fun e => { e with stats := ⟨0, 0, 0, 0, 0, 0⟩, undefinedSeen := false }) ∧
      u = { s.taking 24 r with elements := u.elements })

/-- How a report reaches a record and what it does below K. A code is read by the table of R32: an undefined code of a point as FAULT, of a
signal as LAMP FAULT, both marked, any code of another as itself. An address leads through the open window of the port that holds it; the
report of an address that reaches a present record goes to that record, any other is counted as unmapped (R26, R29). A report of the
accepted state clears the stale flag, drops a candidate and counts that one as a flicker; a report of another state below K becomes or
carries on the candidate (R33, R39). Nothing but the record changes. -/
def Obligations.ReportsMoveTheCandidate : Prop :=
  (∀ code : Nat,
    (1 ≤ code → code ≤ 4 → mapCode .point code = (code, false)) ∧ (code = 0 ∨ 5 ≤ code → mapCode .point code = (4, true)) ∧
    (code ≤ 15 → mapCode .signal code = (code, false)) ∧ (16 ≤ code → mapCode .signal code = (14, true)) ∧
    mapCode .other code = (code, false)) ∧
  (∀ (s : State) (p : PortId) (a : Nat),
    (∀ w, (s.window p w).base ≤ a → a ≤ (s.window p w).limit →
      (∀ v, v ≠ w → a < (s.window p v).base ∨ (s.window p v).limit < a) →
      s.decodeAddress p a = some ((s.window p w).tableBase + (a - (s.window p w).base))) ∧
    ((∀ v, a < (s.window p v).base ∨ (s.window p v).limit < a) → s.decodeAddress p a = none)) ∧
  (∀ (s : State) (p : PortId) (a : Nat) (r : Report),
    (∀ i e, s.decodeAddress p a = some i → s.element i = some e → s.trackReport p a r = s.takeReport p i e r) ∧
    (s.decodeAddress p a = none ∨ (∃ i, s.decodeAddress p a = some i ∧ s.element i = none) → s.trackReport p a r =
      s.setPort p ((s.port p).countDir .up fun c => { c with unmapped := raise32 c.unmapped }))) ∧
  ∀ (s : State) (p : PortId) (i : Nat) (e : Element) (r : Report),
    (e.accepted = some (mapCode e.loaded.kind r.code).1 → s.takeReport p i e r = s.setElement i { e with
      undefinedSeen := e.undefinedSeen || (mapCode e.loaded.kind r.code).2, stale := false, candidate := none,
      stats := if e.candidate.isSome then { e.stats with flicker := raise16 e.stats.flicker } else e.stats }) ∧
    (e.accepted ≠ some (mapCode e.loaded.kind r.code).1 →
      (∀ c, e.candidate = some c → c.state = (mapCode e.loaded.kind r.code).1 → c.count + 1 < e.loaded.confirm →
        s.takeReport p i e r = s.setElement i { e with
          undefinedSeen := e.undefinedSeen || (mapCode e.loaded.kind r.code).2,
          candidate := some { c with
            count := c.count + 1,
            undefinedCode := c.undefinedCode || (mapCode e.loaded.kind r.code).2 } }) ∧
      ((∀ c, e.candidate = some c → c.state ≠ (mapCode e.loaded.kind r.code).1) → 1 < e.loaded.confirm →
        s.takeReport p i e r = s.setElement i { e with
          undefinedSeen := e.undefinedSeen || (mapCode e.loaded.kind r.code).2,
          candidate := some ⟨(mapCode e.loaded.kind r.code).1, 1, r.capture, r.age, r.ageLimit,
            (mapCode e.loaded.kind r.code).2, e.stale⟩ }))

/-- A report that brings the count of its run to K is accepted at that telegram (R34): one more of the candidate's state, or the first of a
state when K is 1. The accepted state becomes the candidate's, the record is fresh, its candidate is gone, and its last change takes the
dated stamp with the quality of the first capture (R75 to R77). A change that the selection names is offered as STATE CHANGE (R35); the
change of a point or a signal then goes to the supervisor, and after it a timetabled signal's change from STOP to a proceed aspect to the
checker, with the elapsed origin, which is not clamped (R36, R79). -/
def Obligations.AcceptanceDatesTheChange : Prop :=
  (∀ (s : State) (p : PortId) (i : Nat) (e : Element) (r : Report),
    e.accepted ≠ some (mapCode e.loaded.kind r.code).1 →
    (∀ c, e.candidate = some c → c.state = (mapCode e.loaded.kind r.code).1 → e.loaded.confirm ≤ c.count + 1 →
      s.takeReport p i e r = s.accept p i
        { e with undefinedSeen := e.undefinedSeen || (mapCode e.loaded.kind r.code).2 }
        { c with count := c.count + 1, undefinedCode := c.undefinedCode || (mapCode e.loaded.kind r.code).2 }) ∧
    ((∀ c, e.candidate = some c → c.state ≠ (mapCode e.loaded.kind r.code).1) → e.loaded.confirm ≤ 1 →
      s.takeReport p i e r = s.accept p i
        { e with undefinedSeen := e.undefinedSeen || (mapCode e.loaded.kind r.code).2 }
        ⟨(mapCode e.loaded.kind r.code).1, 1, r.capture, r.age, r.ageLimit, (mapCode e.loaded.kind r.code).2, e.stale⟩)) ∧
  (∀ (s : State) (p : PortId) (i : Nat) (e : Element) (k : Candidate), ∃ e' : Element,
    (s.accept p i e k).element i = some e' ∧ e'.accepted = some k.state ∧ e'.stale = false ∧ e'.candidate = none ∧
    e'.loaded = e.loaded ∧ e'.lastCommand = e.lastCommand ∧
    e'.lastChange = some ⟨(dateBack s.tb.recentLeap k.firstCapture.tod
      (k.age * 1000000 + (s.port p).latency * 1000)).tod.stamp, k.firstCapture.quality⟩) ∧
  ∀ (s : State) (p : PortId) (i : Nat) (e e' : Element) (k : Candidate) (c : Change) (back : CountedBack) (t v : State),
    back = dateBack s.tb.recentLeap k.firstCapture.tod (k.age * 1000000 + (s.port p).latency * 1000) →
    e' = { e with
      accepted := some k.state, lastChange := some ⟨back.tod.stamp, k.firstCapture.quality⟩, stale := false,
      candidate := none } →
    c = { element := i, old := e.accepted, new := k.state, first := e.accepted.isNone, silence := k.afterSilence,
          dated := ⟨back.tod.stamp, k.firstCapture.quality⟩, ageLimit := k.ageLimit, clamped := back.clamped,
          origin := (k.firstCapture.elapsed : Int) - (k.age * 1000000 + (s.port p).latency * 1000 : Nat),
          latency := (s.port p).latency } →
    (e.accepted = none ∨ e.loaded.selection = .all ∨ (e.loaded.selection = .toStop ∧ k.state = 0) ∨
        (e.loaded.selection = .toProceed ∧ e.accepted = some 0 ∧ 1 ≤ k.state ∧ k.state ≤ 13) →
      t = (s.setElement i e').offer ⟨s.elementLevel e .state, c.dated, k.ageLimit, back.clamped,
        .stateChange i e.accepted k.state e.accepted.isNone k.afterSilence k.undefinedCode⟩) →
    (¬ (e.accepted = none ∨ e.loaded.selection = .all ∨ (e.loaded.selection = .toStop ∧ k.state = 0) ∨
        (e.loaded.selection = .toProceed ∧ e.accepted = some 0 ∧ 1 ≤ k.state ∧ k.state ≤ 13)) → t = s.setElement i e') →
    v = t.applySupervised i (signalChange (s.elementLevel e .movement) e' c) →
    (e.loaded.kind = .other → s.accept p i e k = t) ∧
    (e.loaded.kind = .point → s.accept p i e k = t.applySupervised i (pointChange (s.elementLevel e .movement) e' c)) ∧
    (e.loaded.kind = .signal →
      (e.loaded.timetabled = true → e.accepted = some 0 → 1 ≤ k.state → k.state ≤ 13 → s.accept p i e k = v.clearing c) ∧
      (e.loaded.timetabled = false ∨ e.accepted ≠ some 0 ∨ k.state = 0 ∨ 13 < k.state → s.accept p i e k = v))

/-- A COMMAND telegram whose address reaches a present record goes to that record, and any other is counted as unmapped (R29). There (R37)
its code becomes the last command code; one outside the command set of the kind (a point's ends, a signal's STOP and proceed aspects, any
code of another) sets the undefined code seen flag; with the date-commands flag a code that differs from the last command code, or the
first, is offered as COMMAND SEEN; and a command of the set for a fresh record goes to the movement supervisor, with its capture, when the
record is a point's or a signal's. -/
def Obligations.CommandTelegramsReachTheRecord : Prop :=
  (∀ code : Nat, (inCommandSet .point code = true ↔ code = 1 ∨ code = 2) ∧ (inCommandSet .signal code = true ↔ code ≤ 13) ∧
    inCommandSet .other code = true) ∧
  (∀ (s : State) (p : PortId) (a code : Nat) (c : Capture),
    (∀ i e, s.decodeAddress p a = some i → s.element i = some e → s.trackCommand p a code c = s.takeCommand i e code c) ∧
    (s.decodeAddress p a = none ∨ (∃ i, s.decodeAddress p a = some i ∧ s.element i = none) → s.trackCommand p a code c =
      s.setPort p ((s.port p).countDir .down fun n => { n with unmapped := raise32 n.unmapped }))) ∧
  ∀ (s : State) (i code : Nat) (e : Element) (c : Capture),
    let e' : Element := { e with
      undefinedSeen := e.undefinedSeen || !inCommandSet e.loaded.kind code, lastCommand := some code }
    let t : State :=
      if e.loaded.dateCommands = true ∧ e.lastCommand ≠ some code then
        (s.setElement i e').offer ⟨s.elementLevel e .state, ⟨c.tod.stamp, c.quality⟩, false, false,
          .commandSeen i code e.stale (!inCommandSet e.loaded.kind code)⟩
      else s.setElement i e'
    (e.stale = true ∨ inCommandSet e.loaded.kind code = false ∨ e.loaded.kind = .other → s.takeCommand i e code c = t) ∧
    (e.stale = false → code = 1 ∨ code = 2 → e.loaded.kind = .point →
      s.takeCommand i e code c = t.applySupervised i (pointCommand i (s.elementLevel e .movement) e' code c)) ∧
    (e.stale = false → code ≤ 13 → e.loaded.kind = .signal →
      s.takeCommand i e code c = t.applySupervised i (signalCommand i (s.elementLevel e .movement) e' code c))

/-! ## Dating -/

/-- The dating subtraction counts back by the table of R75, the most recent leap second with it, and takes away exactly the amount: the time
of day as nanoseconds since day 0, 00:00:00, where the day after an inserted second 86,400 begins one second later and the day after a
deleted second 86,399 one second earlier. Past day 0, 00:00:00 it is clamped there and says so (R75, R76). -/
def Obligations.DatingSubtractsExactly : Prop :=
  (∀ (recent : Option Leap) (day : Day) (sec : Nat),
    preceding recent ⟨day, sec + 1⟩ = some ⟨day, sec⟩ ∧ preceding recent ⟨0, 0⟩ = none ∧
    (day.toNat < 65535 →
      (recent = some ⟨day, .insert⟩ → preceding recent ⟨day + 1, 0⟩ = some ⟨day, 86400⟩) ∧
      (recent = some ⟨day, .delete⟩ → preceding recent ⟨day + 1, 0⟩ = some ⟨day, 86398⟩) ∧
      ((∀ kind, recent ≠ some ⟨day, kind⟩) → preceding recent ⟨day + 1, 0⟩ = some ⟨day, 86399⟩))) ∧
  ∀ (recent : Option Leap) (t : TimeOfDay) (amount : Nat) (since : TimeOfDay → Int),
    (∀ x, since x = x.linear + (match recent with
      | some ⟨day, .insert⟩ => if day.toNat < x.day.toNat then 1000000000 else 0
      | some ⟨day, .delete⟩ => if day.toNat < x.day.toNat then -1000000000 else 0
      | none => 0)) →
    t.sec ≤ 86400 → t.nanos < 1000000000 →
    ((amount : Int) ≤ since t →
      (dateBack recent t amount).clamped = false ∧ since (dateBack recent t amount).tod + amount = since t ∧
      (dateBack recent t amount).tod.nanos < 1000000000 ∧ (dateBack recent t amount).tod.sec ≤ 86400 ∧
      (t.sec < 86400 → (dateBack recent t amount).tod.sec = 86400 →
        recent = some ⟨(dateBack recent t amount).tod.day, .insert⟩)) ∧
    (since t < amount → dateBack recent t amount = ⟨⟨0, 0, 0⟩, true⟩)

/-! ## Supervision -/

/-- Point commands by the tables of R86 to R88: what starts, what is kept, what closes REVERSED. A record is offered only at a reversal,
with the old target and the capture of this command. -/
def Obligations.PointCommandTable : Prop :=
  ∀ (i level code : Nat) (e : Element) (c : Capture),
    (e.sup = .idle → e.accepted = some code → (pointCommand i level e code c) = ⟨e, []⟩) ∧
    (e.sup = .idle → (e.accepted = none ∨ ((e.accepted = some 1 ∨ e.accepted = some 2) ∧ e.accepted ≠ some code)) →
      pointCommand i level e code c =
        ⟨{ e with sup := .commanded code c (ns c.elapsed + ms e.loaded.operateLimit) }, []⟩) ∧
    (e.sup = .idle → (code = 1 ∨ code = 2) → (e.accepted = some 3 ∨ e.accepted = some 4) →
      pointCommand i level e code c =
        ⟨{ e with sup := .travelling code c (ns c.elapsed + ms e.loaded.operateLimit) }, []⟩) ∧
    (∀ t k d, e.sup = .commanded t k d ∨ e.sup = .travelling t k d ∨ e.sup = .overdue t k →
      (code = t → pointCommand i level e code c = ⟨e, []⟩) ∧
      (code ≠ t → pointCommand i level e code c =
        ⟨(pointCommand i level { e with sup := .idle } code c).element,
          [⟨level, ⟨c.tod.stamp, c.quality⟩, false, false, .movementOutcome i .reversed t none none⟩]⟩)) ∧
    (∀ t, e.sup = .uncommanded t →
      pointCommand i level e code c = ⟨(pointCommand i level { e with sup := .idle } code c).element, []⟩)

/-- The operate time is the elapsed origin of the change less the command's elapsed capture with the latency: 0 and CLAMPED below zero, the
whole milliseconds up to 65,535,999,999 ns, and 65,535 ms from there on (R79, R80). Answers of a point by the tables of R89, R90 and R92:
the target completes, slow above the threshold, late in OVERDUE; loss of detection starts the travel, and changes nothing in TRAVELLING and
OVERDUE; FAULT closes; the other end closes RETURNED unless it is a first report. A closing returns the record to IDLE with one MOVEMENT
OUTCOME record at the change's stamp, the target, the state shown and the time, and raises the statistics of R106 (R103). Changes of a point
in IDLE and in UNCOMMANDED follow the tables of R94 and R95, their records at level 7 (R105). -/
def Obligations.PointAnswerTable : Prop :=
  (∀ (origin nanos : Int) (k : Capture) (latency : Nat), nanos = origin - ((k.elapsed : Int) + latency * 1000) →
    (nanos < 0 → operateTime origin k latency = ⟨0, true⟩) ∧
    (0 ≤ nanos → nanos < 65536000000 → operateTime origin k latency = ⟨nanos.toNat / 1000000, false⟩) ∧
    (65536000000 ≤ nanos → operateTime origin k latency = ⟨65535, false⟩)) ∧
  (∀ (level : Nat) (e : Element) (c : Change) (t : Nat) (k : Capture) (d : Nat) (time : OperateTime), t = 1 ∨ t = 2 →
    time = operateTime c.origin k c.latency →
    ((e.sup = .commanded t k d ∨ e.sup = .travelling t k d) → c.new = t →
      (time.ms ≤ e.loaded.slowThreshold → pointChange level e c =
        ⟨{ e with
            sup := .idle
            stats := { e.stats with
              movements := raise32 e.stats.movements, lastTime := time.ms, maxTime := max e.stats.maxTime time.ms } },
          [⟨level, c.dated, c.ageLimit, c.clamped, .movementOutcome c.element .completed t (some t) (some time)⟩]⟩) ∧
      (e.loaded.slowThreshold < time.ms → pointChange level e c =
        ⟨{ e with
            sup := .idle
            stats := { e.stats with
              movements := raise32 e.stats.movements, lastTime := time.ms, maxTime := max e.stats.maxTime time.ms,
              slow := raise16 e.stats.slow } },
          [⟨level, c.dated, c.ageLimit, c.clamped, .movementOutcome c.element .completedSlow t (some t) (some time)⟩]⟩)) ∧
    (e.sup = .commanded t k d → c.new = 3 → pointChange level e c = ⟨{ e with sup := .travelling t k d }, []⟩) ∧
    (e.sup = .travelling t k d ∨ e.sup = .overdue t k → c.new = 3 → pointChange level e c = ⟨e, []⟩) ∧
    ((e.sup = .commanded t k d ∨ e.sup = .travelling t k d ∨ e.sup = .overdue t k) → c.new = 4 →
      pointChange level e c = ⟨{ e with sup := .idle },
        [⟨level, c.dated, c.ageLimit, c.clamped, .movementOutcome c.element .fault t (some 4) none⟩]⟩) ∧
    (e.sup = .overdue t k → c.new = t → pointChange level e c =
      ⟨{ e with
          sup := .idle
          stats := { e.stats with
            movements := raise32 e.stats.movements, lastTime := time.ms, maxTime := max e.stats.maxTime time.ms } },
        [⟨level, c.dated, c.ageLimit, c.clamped, .movementOutcome c.element .lateDetection t (some t) (some time)⟩]⟩) ∧
    ((e.sup = .travelling t k d ∨ e.sup = .overdue t k) → c.first = false → (c.new = 1 ∨ c.new = 2) → c.new ≠ t →
      pointChange level e c = ⟨{ e with sup := .idle },
        [⟨level, c.dated, c.ageLimit, c.clamped, .movementOutcome c.element .returned t (some c.new) none⟩]⟩) ∧
    ((e.sup = .commanded t k d ∨ e.sup = .overdue t k) → c.first = true → (c.new = 1 ∨ c.new = 2) → c.new ≠ t →
      pointChange level e c = ⟨e, []⟩)) ∧
  ∀ (level : Nat) (e : Element) (c : Change) (x : Nat), x = 1 ∨ x = 2 →
    (e.sup = .idle → c.first = false → c.silence = false → c.old = some x →
      (c.new = 3 → pointChange level e c = ⟨{ e with sup := .uncommanded x },
        [⟨7, c.dated, c.ageLimit, c.clamped, .uncommanded c.element .lossOfDetection⟩]⟩) ∧
      (c.new = 3 - x → pointChange level e c =
        ⟨e, [⟨7, c.dated, c.ageLimit, c.clamped, .uncommanded c.element .movement⟩]⟩) ∧
      (c.new = 4 → pointChange level e c = ⟨e, []⟩)) ∧
    (e.sup = .idle → c.first = true ∨ c.silence = true ∨ c.old = some 3 ∨ c.old = some 4 → pointChange level e c = ⟨e, []⟩) ∧
    (e.sup = .uncommanded x →
      (c.new = x → pointChange level e c = ⟨{ e with sup := .idle },
        [⟨7, c.dated, c.ageLimit, c.clamped, .uncommanded c.element .detectionRestored⟩]⟩) ∧
      (c.new = 3 - x → pointChange level e c = ⟨{ e with sup := .idle },
        [⟨7, c.dated, c.ageLimit, c.clamped, .uncommanded c.element .movement⟩]⟩) ∧
      (c.new = 3 ∨ c.new = 4 → pointChange level e c = ⟨e, []⟩))

/-- Signals by the tables of R96 to R99: what a command starts, repeats, or closes CANCELLED or SUPERSEDED; how an accepted change
completes, proves late, mismatches, fails the lamp, or leaves the supervision as it is; and what a change in IDLE records. A proving raises
the statistics of R106 and has no slow judgement. -/
def Obligations.SignalTables : Prop :=
  (∀ (i level aspect : Nat) (e : Element) (c : Capture),
    (e.sup = .idle → e.accepted = some aspect → signalCommand i level e aspect c = ⟨e, []⟩) ∧
    (e.sup = .idle → e.accepted ≠ some aspect → signalCommand i level e aspect c =
      ⟨{ e with sup := .ordered aspect c (ns c.elapsed + ms e.loaded.provingLimit) }, []⟩) ∧
    (∀ t k d, e.sup = .ordered t k d ∨ e.sup = .overdue t k →
      (aspect = t → signalCommand i level e aspect c = ⟨e, []⟩)) ∧
    (∀ t k d, e.sup = .ordered t k d → aspect ≠ t → signalCommand i level e aspect c =
      ⟨(signalCommand i level { e with sup := .idle } aspect c).element,
        [⟨level, ⟨c.tod.stamp, c.quality⟩, false, false, .movementOutcome i .cancelled t none none⟩]⟩) ∧
    (∀ t k, e.sup = .overdue t k → aspect ≠ t → signalCommand i level e aspect c =
      ⟨(signalCommand i level { e with sup := .idle } aspect c).element,
        [⟨level, ⟨c.tod.stamp, c.quality⟩, false, false, .movementOutcome i .superseded t none none⟩]⟩)) ∧
  (∀ (level : Nat) (e : Element) (c : Change) (t : Nat) (k : Capture) (d : Nat) (time : OperateTime) (proven : Element), t ≤ 13 →
    time = operateTime c.origin k c.latency →
    proven = { e with
      sup := .idle
      stats := { e.stats with
        movements := raise32 e.stats.movements, lastTime := time.ms, maxTime := max e.stats.maxTime time.ms } } →
    (e.sup = .ordered t k d → c.new = t → signalChange level e c =
      ⟨proven, [⟨level, c.dated, c.ageLimit, c.clamped, .movementOutcome c.element .completed t (some t) (some time)⟩]⟩) ∧
    (e.sup = .overdue t k → c.new = t → signalChange level e c =
      ⟨proven, [⟨level, c.dated, c.ageLimit, c.clamped, .movementOutcome c.element .lateProving t (some t) (some time)⟩]⟩) ∧
    (e.sup = .ordered t k d ∨ e.sup = .overdue t k → c.new ≠ t →
      (1 ≤ t → 1 ≤ c.new → c.new ≤ 13 → signalChange level e c = ⟨{ e with sup := .idle },
        [⟨level, c.dated, c.ageLimit, c.clamped, .movementOutcome c.element .aspectMismatch t (some c.new) none⟩]⟩) ∧
      (c.new = 14 ∨ c.new = 15 → signalChange level e c = ⟨{ e with sup := .idle },
        [⟨level, c.dated, c.ageLimit, c.clamped, .movementOutcome c.element .lampFault t (some c.new) none⟩]⟩) ∧
      (c.new = 0 ∨ (t = 0 ∧ c.new ≤ 13) → signalChange level e c = ⟨e, []⟩))) ∧
  ∀ (level : Nat) (e : Element) (c : Change), e.sup = .idle →
    (c.new = 14 → signalChange level e c =
      ⟨e, [⟨level, c.dated, c.ageLimit, c.clamped, .lampFault c.element⟩]⟩) ∧
    (c.old = some 0 → 1 ≤ c.new → c.new ≤ 13 → c.first = false → c.silence = false → signalChange level e c =
      ⟨e, [⟨7, c.dated, c.ageLimit, c.clamped, .uncommanded c.element .clearing⟩]⟩) ∧
    (c.new = 0 ∨ c.new = 15 ∨ (c.new ≤ 13 ∧ (c.old ≠ some 0 ∨ c.first = true ∨ c.silence = true)) →
      signalChange level e c = ⟨e, []⟩)

/-- A deadline that has come fails the supervision: its outcome by the state it stood in, the target and the command capture kept, the fail
count raised, OVERDUE (R91, R98). -/
def Obligations.DeadlineFailsTheSupervision : Prop :=
  ∀ (s : State) (i : Nat) (e : Element) (t : Nat) (k : Capture) (d : Nat), s.initialising = false → s.element i = some e →
    d ≤ s.tb.instant →
    (e.sup = .commanded t k d → exec (.deadlineExpiry i) s = .next ((s.setElement i { e with
      sup := .overdue t k, stats := { e.stats with fails := raise16 e.stats.fails } }).withRecord
        (s.elementLevel e .movement) (.movementOutcome i .failedNotStarted t none none))) ∧
    (e.sup = .travelling t k d → exec (.deadlineExpiry i) s = .next ((s.setElement i { e with
      sup := .overdue t k, stats := { e.stats with fails := raise16 e.stats.fails } }).withRecord
        (s.elementLevel e .movement) (.movementOutcome i .failedNoDetection t none none))) ∧
    (e.sup = .ordered t k d → exec (.deadlineExpiry i) s = .next ((s.setElement i { e with
      sup := .overdue t k, stats := { e.stats with fails := raise16 e.stats.fails } }).withRecord
        (s.elementLevel e .movement) (.movementOutcome i .failed t none none)))

/-! ## The timebase -/

/-- Many oscillator cycles taken together are the cycles one by one, the increment changing where the slew is spent; while the rate
correction and the slew keep their law, Inc lies within 429,496,729,600 ± 236,223,201 (R49). SLEW_SPENT: time runs through the slew cycles
left, after which none are left; that the command lets time run to its own instant is the model's choice (log entry 2), and the elapsed
scale must not be at the end of its 64 bits (log entry 24). -/
def Obligations.ScalesAdvanceAndSlewRunsOut : Prop :=
  (∀ (tb : Timebase) (n : Nat), tb.todFrac < 4294967296 → tb.elapsedFrac < 4294967296 → tb.run n = Timebase.cycle^[n] tb) ∧
  (∀ tb : Timebase, tb.lawful → 429496729600 - 236223201 ≤ tb.inc ∧ tb.inc ≤ 429496729600 + 236223201) ∧
  ∀ s : State, s.initialising = false → s.tb.lawful → 0 < s.tb.slewLeft → s.tb.carryDue = false →
    s.tb.todFrac < 4294967296 → s.tb.elapsedFrac < 4294967296 →
    (s.tb.run s.tb.slewLeft).tod.nanos < 1000000000 → (s.tb.run s.tb.slewLeft).elapsed < 18446744073709551615 →
    exec .slewSpent s = .next (s.setTb (Timebase.cycle^[s.tb.slewLeft] s.tb)) ∧
      (Timebase.cycle^[s.tb.slewLeft] s.tb).slewLeft = 0

/-- SECOND_BOUNDARY: the scales run to the cycle at which the nanoseconds reach 10^9, which carry into the next second by the table of R50;
an armed leap is executed at its carry (R64); a multiple of the latch interval is latched (R24). That the command lets time run to the carry
is the model's choice (log entry 2). A boundary that is already due is taken at once: the carry, the end of every error-rate second (R21)
ahead of the latch (log entry 15, DEDUCED), the walk of the banks, and the clock lines, an order of the blocks that is log entry 41 (DESIGN
CHOICE); the nanoseconds of a carry made from a stepped time are log entry 45 (DESIGN CHOICE). A leap that is not due at the carry stays
armed; that a DELETE still armed at second 86,399 stays so is log entry 19 (DEDUCED). An executed leap has its record. A scheduled civil
offset change whose instant the new time of day has reached, with the time set, is made at the boundary and taken from the schedule (R66).
After the boundary every clock line holds the target of the new time of day; where no offset change was made with it, a following line whose
target changed made its decision and nothing else of a line changed (R137). -/
def Obligations.SecondBoundaryCarries : Prop :=
  (∀ (s : State) (o : BoundaryOrder), s.initialising = false → s.tb.carryDue = false → s.tb.lawful → s.tb.tod.sec ≤ 86400 →
    s.tb.tod.nanos < 1000000000 →
    ∃ (u : State) (n : Nat), exec (.secondBoundary o) s = .next u ∧ 1000000000 ≤ (s.tb.run n).tod.nanos ∧
      (∀ m, m < n → (s.tb.run m).tod.nanos < 1000000000) ∧ u.tb.elapsed = (s.tb.run n).elapsed ∧
      u.tb.tod.nanos + 1000000000 = (s.tb.run n).tod.nanos ∧ u.tb.carryDue = false ∧
      (s.tb.tod.sec = 86398 → s.tb.armedLeap = some ⟨s.tb.tod.day, .delete⟩ →
        u.tb.tod.day = s.tb.tod.day + 1 ∧ u.tb.tod.sec = 0 ∧ u.tb.recentLeap = some ⟨s.tb.tod.day, .delete⟩ ∧
        u.tb.armedLeap = none) ∧
      (s.tb.tod.sec = 86399 → s.tb.armedLeap = some ⟨s.tb.tod.day, .insert⟩ →
        u.tb.tod.day = s.tb.tod.day ∧ u.tb.tod.sec = 86400 ∧ u.tb.recentLeap = some ⟨s.tb.tod.day, .insert⟩ ∧
        u.tb.armedLeap = none) ∧
      (s.tb.armedLeap ≠ some ⟨s.tb.tod.day, .delete⟩ ∨ s.tb.tod.sec ≠ 86398 →
        s.tb.armedLeap ≠ some ⟨s.tb.tod.day, .insert⟩ ∨ s.tb.tod.sec ≠ 86399 →
        u.tb.armedLeap = s.tb.armedLeap ∧ u.tb.recentLeap = s.tb.recentLeap ∧
        (s.tb.tod.sec < 86399 → u.tb.tod.day = s.tb.tod.day ∧ u.tb.tod.sec = s.tb.tod.sec + 1) ∧
        (86399 ≤ s.tb.tod.sec → u.tb.tod.day = s.tb.tod.day + 1 ∧ u.tb.tod.sec = 0)) ∧
      (∀ k, (s.latchInterval = .s1 ∧ k = 1) ∨ (s.latchInterval = .s60 ∧ k = 60) ∨ (s.latchInterval = .s900 ∧ k = 900) →
        (u.tb.tod.sec % k = 0 → u.latchSeq = s.latchSeq + 1) ∧ (u.tb.tod.sec % k ≠ 0 → u.latchSeq = s.latchSeq)) ∧
      (s.latchInterval = .manual → u.latchSeq = s.latchSeq) ∧
      exec (.secondBoundary o) s = exec (.secondBoundary o) (s.setTb (s.tb.run n))) ∧
  (∀ (s : State) (kind : LeapKind) (event : TimebaseEvent), s.tb.armedLeap = some ⟨s.tb.tod.day, kind⟩ →
    (kind = .delete ∧ s.tb.tod.sec = 86398 ∧ event = .leapDelete) ∨ (kind = .insert ∧ s.tb.tod.sec = 86399 ∧ event = .leapInsert) →
    s.carry = (s.setTb s.carry.tb).withRecord (s.levelOf .time) (.timebase event none)) ∧
  ∀ (s : State) (o : BoundaryOrder), s.initialising = false → s.tb.carryDue = true →
    ∃ u : State, exec (.secondBoundary o) s = .next u ∧ u.tb.carryDue = false ∧ u.tb.elapsed = s.tb.elapsed ∧
      u.tb.tod = s.carry.tb.tod ∧
      u.bankA = (s.carry.endSeconds.latchAt s.carry.tb.tod.sec).walk.bankA ∧
      u.bankB = (s.carry.endSeconds.latchAt s.carry.tb.tod.sec).walk.bankB ∧
      u.ports = (s.carry.endSeconds.latchAt s.carry.tb.tod.sec).ports ∧
      (∀ c, s.tb.scheduled = some c → s.tb.setFlag = true → s.carry.tb.time.daySec.before ⟨c.day, c.sec⟩ = false →
        u.tb.scheduled = none ∧ u.tb.civilOffset = c.offset) ∧
      (s.tb.scheduled = none ∨ s.tb.setFlag = false ∨
          (∃ c, s.tb.scheduled = some c ∧ s.carry.tb.time.daySec.before ⟨c.day, c.sec⟩ = true) →
        u.tb.scheduled = s.tb.scheduled ∧ u.tb.civilOffset = s.tb.civilOffset ∧
        ∀ l, (s.line l).takesTarget (u.line l) (u.tb.target (s.line l).period) s.tb.instant) ∧
      ∀ l, (u.line l).target = u.tb.target (s.line l).period ∧ (u.line l).period = (s.line l).period

/-- A pulse that comes less than 0.5 s after the last accepted one is spurious: it is counted and otherwise ignored (R52). An accepted
phase-only pulse in FREE is accepted and does nothing more (R54, R57). An accepted pulse outside FREE that makes no step, phase-only or
with a label, applies the loop arithmetic to its error and brings the run counts up to date (R54 to R56), the error of a label by the
plain difference of the day numbers (log entry 20, DEDUCED); LOCKED goes to ACQUIRING at the third bad pulse, ACQUIRING to LOCKED at
the eighth good one (R58); in HOLDOVER the first pulse within the window makes fast return pending, the second locks, and one outside
returns to ACQUIRING (R61). A label that announces a leap arms it ahead of what its pulse does, or has it discarded with its record
when its day is past (R64). Between two seconds the time of day reads as it stands. -/
def Obligations.PulseAppliesTheLoop : Prop :=
  (∀ tb : Timebase, tb.tod.nanos < 1000000000 → tb.time = tb.tod) ∧
  ∀ s : State, s.initialising = false →
    (∀ t, s.tb.lastPulse = some t → s.tb.instant < t + ms 500 →
      exec .referencePulse s = .next (s.setTb { s.tb with spurious := raise32 s.tb.spurious })) ∧
    (s.tb.acceptsPulse = true → s.tb.label = none → s.tb.loop = .free → exec .referencePulse s =
      .next (s.setTb { s.tb with lastPulse := some s.tb.instant, nextNote := some (s.tb.instant + ms 1500) })) ∧
    (∀ (l : Label) (kind : LeapKind) (t : State), s.tb.acceptsPulse = true → s.tb.label = some l →
      s.tb.tod.nanos < 1000000000 →
      (kind = .insert ∧ l.announcement = .insert) ∨ (kind = .delete ∧ l.announcement = .delete) →
      t = s.setTb { s.tb with label := some { l with announcement := .none } } →
      (dayDiff s.tb.tod.day l.day ≤ 0 → exec .referencePulse s =
        exec .referencePulse (t.setTb { t.tb with armedLeap := some ⟨l.day, kind⟩ })) ∧
      (0 < dayDiff s.tb.tod.day l.day → exec .referencePulse s =
        exec .referencePulse (t.withRecord (s.levelOf .time) (.timebase .leapDiscarded none)))) ∧
    ∀ (e : Int) (steps : Nat) (base : Timebase), s.tb.acceptsPulse = true →
      ((s.tb.label = none ∧ e = phaseError s.tb.time ∧ steps = s.tb.steps) ∨
        ∃ l, s.tb.label = some l ∧ l.announcement = .none ∧ (s.tb.loop = .holdover ∨ steps < 3) ∧
          e = (((l.day.toNat : Int) - s.tb.time.day.toNat) * 86400 + ((l.sec : Int) - s.tb.time.sec)) * 1000000000 -
            s.tb.time.nanos ∧
          steps = if s.tb.stepThreshold * 1000 < e.natAbs then min 255 (s.tb.steps + 1) else 0) →
      base = { s.tb with
        slew := clampInt (-500000) 500000 (roundDiv (clampInt (-500000000) 500000000 e) (2 ^ s.tb.gp))
        rate := clampInt (-50000) 50000 (s.tb.rate + roundDiv (clampInt (-500000000) 500000000 e) (2 ^ s.tb.gi))
        slewLeft := 10000000
        good := if e.natAbs ≤ s.tb.lockWindow * 1000 then min 255 (s.tb.good + 1) else 0
        bad := if 4 * (s.tb.lockWindow * 1000) < e.natAbs then min 255 (s.tb.bad + 1) else 0
        steps := steps
        misses := 0
        label := none
        lastPulse := some s.tb.instant
        nextNote := some (s.tb.instant + ms 1500) } →
      (s.tb.loop = .locked →
        (base.bad ≤ 2 → exec .referencePulse s = .next (s.setTb base)) ∧
        (3 ≤ base.bad → exec .referencePulse s = .next ((s.setTb { base with
          loop := .acquiring, good := 0, bad := 0 }).withRecord (s.levelOf .time) (.timebase .lockLost none)))) ∧
      (s.tb.loop = .acquiring →
        (base.good ≤ 7 → exec .referencePulse s = .next (s.setTb base)) ∧
        (8 ≤ base.good → exec .referencePulse s = .next ((s.setTb { base with loop := .locked }).withRecord
          (s.levelOf .time) (.timebase .lock none)))) ∧
      (s.tb.loop = .holdover →
        (e.natAbs ≤ s.tb.lockWindow * 1000 → s.tb.fastReturn = false →
          exec .referencePulse s = .next (s.setTb { base with fastReturn := true, good := 1 })) ∧
        (e.natAbs ≤ s.tb.lockWindow * 1000 → s.tb.fastReturn = true →
          exec .referencePulse s = .next ((s.setTb { base with
            loop := .locked, good := 2, fastReturn := false, holdoverSince := none, degraded := false }).withRecord
              (s.levelOf .time) (.timebase .lock none))) ∧
        (s.tb.lockWindow * 1000 < e.natAbs →
          exec .referencePulse s = .next ((s.setTb { base with
            loop := .acquiring, good := 0, bad := 0, steps := 0, fastReturn := false, holdoverSince := none,
            degraded := false }).withRecord (s.levelOf .time) (.timebase .back none))))

/-- The first labelled pulse in FREE sets the time of day to its label and enters ACQUIRING with F and S as they stood; the elapsed
scale is untouched (R57). In ACQUIRING and LOCKED the third labelled pulse in a row whose error is beyond the step threshold steps the
time of day to its label, with F as it stood, the slew stopped and the run counts at zero, in the same loop state (R56); that the error
is the plain difference of the day numbers, at the wrap of the days too, is log entry 20 (DEDUCED). An armed leap is executed when the
time lands in second 86,400 of an INSERT's day and discarded when the time moves past the end of its day, with a record, and stays
otherwise (R64); that this record stands ahead of the SET or STEP record, which carries the old time of day, is log entry 18 (DEDUCED)
(R68). Then comes the step event: the error-rate seconds end, the banks are walked, and every line takes its target, a following line
whose target changed by a decision (R69, R137). A scheduled civil offset change whose instant the new time of day has reached, with the
time set, is made then (R66). -/
def Obligations.FirstLabelSetsTheTime : Prop :=
  (∀ (s : State) (l : Label), s.initialising = false → s.tb.acceptsPulse = true → s.tb.label = some l →
    l.announcement = .none →
    (s.tb.loop = .free →
      ∃ u : State, exec .referencePulse s = .next u ∧ u.tb.tod = ⟨l.day, l.sec, 0⟩ ∧ u.tb.todFrac = 0 ∧ u.tb.setFlag = true ∧
        u.tb.loop = .acquiring ∧ u.tb.rate = s.tb.rate ∧ u.tb.slew = s.tb.slew ∧ u.tb.elapsed = s.tb.elapsed ∧
        u.tb.label = none ∧ u.tb.good = 0 ∧ u.tb.bad = 0 ∧ u.tb.steps = 0 ∧ u.tb.misses = 0 ∧
        u.tb.lastPulse = some s.tb.instant ∧
        (∀ c, s.tb.scheduled = some c → DaySec.before ⟨l.day, l.sec⟩ ⟨c.day, c.sec⟩ = false →
          u.tb.scheduled = none ∧ u.tb.civilOffset = c.offset)) ∧
    (s.tb.loop = .acquiring ∨ s.tb.loop = .locked → 2 ≤ s.tb.steps →
      s.tb.stepThreshold * 1000 < ((((l.day.toNat : Int) - s.tb.time.day.toNat) * 86400 + ((l.sec : Int) - s.tb.time.sec)) *
        1000000000 - s.tb.time.nanos).natAbs →
      ∃ u : State, exec .referencePulse s = .next u ∧ u.tb.tod = ⟨l.day, l.sec, 0⟩ ∧ u.tb.todFrac = 0 ∧
        u.tb.loop = s.tb.loop ∧ u.tb.rate = s.tb.rate ∧ u.tb.slew = 0 ∧ u.tb.slewLeft = 0 ∧ u.tb.elapsed = s.tb.elapsed ∧
        u.tb.label = none ∧ u.tb.good = 0 ∧ u.tb.bad = 0 ∧ u.tb.steps = 0 ∧ u.tb.misses = 0 ∧
        u.tb.lastPulse = some s.tb.instant ∧
        (∀ c, s.tb.scheduled = some c → s.tb.setFlag = true → DaySec.before ⟨l.day, l.sec⟩ ⟨c.day, c.sec⟩ = false →
          u.tb.scheduled = none ∧ u.tb.civilOffset = c.offset) ∧
        (s.tb.scheduled = none ∨ (∃ c, s.tb.scheduled = some c ∧ DaySec.before ⟨l.day, l.sec⟩ ⟨c.day, c.sec⟩ = true) →
          u.tb.scheduled = s.tb.scheduled ∧ u.tb.civilOffset = s.tb.civilOffset))) ∧
  (∀ (s : State) (l : Label) (event : TimebaseEvent) (x y : Timebase) (w : State), s.initialising = false →
    s.tb.acceptsPulse = true → s.tb.label = some l → l.announcement = .none →
    x = { s.tb with
      tod := ⟨l.day, l.sec, 0⟩, todFrac := 0, good := 0, bad := 0, steps := 0, misses := 0, label := none,
      lastPulse := some s.tb.instant, nextNote := some (s.tb.instant + ms 1500) } →
    (event = .set ∧ s.tb.loop = .free ∧ y = { x with setFlag := true, loop := .acquiring }) ∨
      (event = .step ∧ (s.tb.loop = .acquiring ∨ s.tb.loop = .locked) ∧ 2 ≤ s.tb.steps ∧
        s.tb.stepThreshold * 1000 < ((((l.day.toNat : Int) - s.tb.time.day.toNat) * 86400 + ((l.sec : Int) - s.tb.time.sec)) *
          1000000000 - s.tb.time.nanos).natAbs ∧
        y = { x with slew := 0, slewLeft := 0 }) →
    w = (match s.tb.armedLeap with
      | none => s.setTb y
      | some a =>
        if a.kind = .insert ∧ l.day = a.day ∧ l.sec = 86400 then
          (s.setTb { y with armedLeap := none, recentLeap := some a }).withRecord (s.levelOf .time) (.timebase .leapInsert none)
        else if dayDiff s.tb.tod.day a.day ≤ 0 ∧ 0 < dayDiff l.day a.day then
          (s.setTb { y with armedLeap := none }).withRecord (s.levelOf .time) (.timebase .leapDiscarded none)
        else s.setTb y) →
    exec .referencePulse s =
      .next ((w.withRecord (s.levelOf .time) (.timebase event (some s.tb.time))).stepEvent)) ∧
  ∀ s u : State, u = s.stepEvent →
    u.bankA = s.endSeconds.walk.bankA ∧ u.bankB = s.endSeconds.walk.bankB ∧ u.openList = s.endSeconds.walk.openList ∧
    u.ports = s.endSeconds.ports ∧ u.elements = s.endSeconds.walk.elements ∧
    (∀ l, (u.line l).target = u.tb.target (s.line l).period ∧ (u.line l).period = (s.line l).period) ∧
    (s.tb.scheduled = none ∨ s.tb.setFlag = false ∨
        (∃ c, s.tb.scheduled = some c ∧ s.tb.time.daySec.before ⟨c.day, c.sec⟩ = true) →
      u.tb = s.tb ∧ ∀ l, (s.line l).takesTarget (u.line l) (s.tb.target (s.line l).period) s.tb.instant) ∧
    (∀ c, s.tb.scheduled = some c → s.tb.setFlag = true → s.tb.time.daySec.before ⟨c.day, c.sec⟩ = false →
      u.tb = { s.tb with scheduled := none, civilOffset := c.offset })

/-- Each miss note raises the miss count and discards a pending label, which is counted (R53, R59); in FREE none is noted. In ACQUIRING
and LOCKED the second one enters HOLDOVER with F frozen, the slew stopped, the run counts and the age at zero, and the record (R59); in
HOLDOVER the notes go on, and the second after a returning pulse clears fast return pending and stops the slew (R61). The holdover age
that reaches the limit puts DEGRADED into force (R60). -/
def Obligations.MissesEnterHoldoverAndDegrade : Prop :=
  (∀ (s : State) (t : Nat) (y : Timebase), s.initialising = false → s.tb.nextNote = some t → t ≤ s.tb.instant →
    y = { s.tb with
      label := none, unusedLabels := if s.tb.label.isSome then raise32 s.tb.unusedLabels else s.tb.unusedLabels,
      misses := min 65535 (s.tb.misses + 1), nextNote := some (t + secs 1) } →
    (s.tb.loop = .free → exec .missNote s = .next s) ∧
    (s.tb.loop = .acquiring ∨ s.tb.loop = .locked →
      (s.tb.misses = 0 → exec .missNote s = .next (s.setTb y)) ∧
      (1 ≤ s.tb.misses → ∃ u : State, exec .missNote s = .next u ∧
        u.tb = { y with
          loop := .holdover, slew := 0, slewLeft := 0, good := 0, bad := 0, steps := 0, fastReturn := false, degraded := false,
          holdoverSince := some s.tb.instant } ∧
        u.tb.holdoverAge = 0 ∧ u.tb.quality = .holdover ∧
        u.journal = (s.journal.offer ⟨s.tb.time.stamp, .holdover⟩
          ⟨s.levelOf .time, ⟨s.tb.time.stamp, .holdover⟩, false, false, .timebase .holdover none⟩) ∧
        u = { s with tb := u.tb, journal := u.journal })) ∧
    (s.tb.loop = .holdover →
      (s.tb.fastReturn = true → 1 ≤ s.tb.misses →
        exec .missNote s = .next (s.setTb { y with slew := 0, slewLeft := 0, fastReturn := false })) ∧
      (s.tb.fastReturn = false ∨ s.tb.misses = 0 → exec .missNote s = .next (s.setTb y)))) ∧
  (∀ s : State, s.initialising = false → 60 ≤ s.tb.holdoverLimit → s.tb.limitDue = true →
    exec .holdoverLimitReached s = .next ((s.setTb { s.tb with degraded := true }).withRecord (s.levelOf .time)
      (.timebase .degraded none)))

/-- TIME MARK becomes the pending label in every loop state and replaces an older one, which is counted. A second above 86,400 is refused
with RANGE, and so are second 86,400 of a day without an INSERT, second 86,399 of a day with a DELETE, whether armed for the day or
announced by the label, and an announcement code that names none (R53, R180). Its answer repeats the label ahead of the octets of R180 (log
entry 22, DEDUCED). SET TIMEBASE takes its five settings, clamped to the ranges of R63, and touches nothing else, but that in HOLDOVER a new
limit at or below the age puts DEGRADED into force, and one above it takes it back, with a record each (R60). -/
def Obligations.TimeMarkAndSetTimebase : Prop :=
  (∀ (s : State) (r : Request) (day : Day) (sec : Nat) (a : Announcement), s.ready → sec < 16777216 →
    r.params = be 2 day.toNat ++ be 3 sec ++ [a.code] →
    (sec ≤ 86400 → (sec = 86400 → s.tb.armedLeap = some ⟨day, .insert⟩ ∨ a = .insert) →
      (sec = 86399 → s.tb.armedLeap ≠ some ⟨day, .delete⟩ ∧ a ≠ .delete) →
      exec (.timeMark r) s = .next (((s.taking 30 r).setTb { s.tb with
        label := some ⟨day, sec, a⟩,
        unusedLabels := if s.tb.label.isSome then raise32 s.tb.unusedLabels else s.tb.unusedLabels }).respond 30 r
          (.done (be 2 day.toNat ++ be 3 sec ++ [a.code] ++ [flag s.tb.label.isSome, s.tb.loop.code] ++ s.tb.sincePulse)))) ∧
    (86400 < sec ∨ (sec = 86400 ∧ s.tb.armedLeap ≠ some ⟨day, .insert⟩ ∧ a ≠ .insert) ∨
        (sec = 86399 ∧ (s.tb.armedLeap = some ⟨day, .delete⟩ ∨ a = .delete)) →
      exec (.timeMark r) s = .next ((s.taking 30 r).respond 30 r (.refused .range)))) ∧
  (∀ (s : State) (r : Request) (day1 day0 sec2 sec1 sec0 code : Byte), s.ready →
    r.params = [day1, day0, sec2, sec1, sec0, code] → 3 ≤ code.toNat →
    exec (.timeMark r) s = .next ((s.taking 30 r).respond 30 r (.refused .range))) ∧
  (∀ (s : State) (r : Request) (gp gi : Byte) (window threshold limit : Nat) (y : Timebase), s.ready →
    window < 65536 → threshold < 4294967296 → limit < 4294967296 →
    r.params = [gp, gi] ++ be 2 window ++ be 4 threshold ++ be 4 limit →
    y = { s.tb with
      gp := min 10 gp.toNat, gi := max 2 (min 16 gi.toNat), lockWindow := max 1 (min 1000 window),
      stepThreshold := max 100 (min 100000 threshold), holdoverLimit := max 60 (min 86400 limit) } →
    ∃ (u : State) (changed : Bool), exec (.setTimebase r) s = .next (u.respond 31 r (taken changed u.tb.settings)) ∧
      (s.tb.loop ≠ .holdover → u = (s.taking 31 r).setTb y) ∧
      (s.tb.loop = .holdover →
        (s.tb.degraded = false → y.holdoverLimit ≤ s.tb.holdoverAge →
          u = ((s.taking 31 r).setTb { y with degraded := true }).withRecord (s.levelOf .time) (.timebase .degraded none)) ∧
        (s.tb.degraded = true → s.tb.holdoverAge < y.holdoverLimit →
          u = ((s.taking 31 r).setTb { y with degraded := false }).withRecord (s.levelOf .time)
            (.timebase .degradedCleared none)) ∧
        ((s.tb.degraded = true ↔ y.holdoverLimit ≤ s.tb.holdoverAge) → u = (s.taking 31 r).setTb y)) ∧
      (changed = false ↔ gp.toNat ≤ 10 ∧ 2 ≤ gi.toNat ∧ gi.toNat ≤ 16 ∧ 1 ≤ window ∧ window ≤ 1000 ∧ 100 ≤ threshold ∧
        threshold ≤ 100000 ∧ 60 ≤ limit ∧ limit ≤ 86400))

/-- R62: RELOCK zeroes the loop and restarts it by the set flag, restarts the miss timing, keeps the time of day, the elapsed scale,
the pending label, the leaps and the civil offset, writes its record and is answered DONE in every loop state. -/
def Obligations.RelockRestartsTheLoop : Prop :=
  ∀ (s : State) (r : Request), s.ready → r.params = [] →
    exec (.relock r) s = .next ((((s.taking 32 r).setTb { s.tb with
      rate := 0, slew := 0, slewLeft := 0, good := 0, bad := 0, steps := 0, misses := 0, holdoverSince := none,
      degraded := false, fastReturn := false, loop := if s.tb.setFlag then .acquiring else .free,
      lastRelock := some s.tb.instant, nextNote := some (s.tb.instant + ms 1500) }).withRecord (s.levelOf .time)
        (.timebase .relock none)).respond 32 r (.done [if s.tb.setFlag then 1 else 0]))

/-- SET CIVIL OFFSET takes an offset clamped to −720 to +840 minutes and rounded to a multiple of 15, halves away from zero, and answers
DONE-ADJUSTED just when that changed it; every line then holds its new target, a following one after a decision; the OFFSET CHANGE record of
a change that differs stands ahead of the records of the decisions, those in the order of the lines (log entry 42, DESIGN CHOICE). The
offset for now acts ahead of the schedule part, in each of the six forms. An action code that names none and a second of day above 86,399
are refused with RANGE (R65, R66, R137). With an offset that is a multiple of 15 in its range the answer is DONE, and lines that are at rest
take their new targets (R65, R66). Here for a part whose four lines are UNSET or HALTED, and an offset that differs from the one in force.
CHANGE schedules an offset before the time of day is set and while its instant lies ahead; one whose instant has passed is made at the
request (R66). CANCEL takes the schedule back. The answers repeat the parts given as taken, and then give the offset in force, the schedule
and whether a passed change was made (log entry 22, DEDUCED). -/
def Obligations.SetCivilOffsetChangesTheOffset : Prop :=
  (∀ (s : State) (r : Request) (v w : Int), s.ready → -32768 ≤ v → v < 32768 → w = 15 * roundDiv (clampInt (-720) 840 v) 15 →
    ∃ t : State, t.tb = { s.tb with civilOffset := w } ∧
      (∀ l, (s.line l).takesTarget (t.line l) (t.tb.target (s.line l).period) s.tb.instant) ∧
      t.journal = ((if s.tb.civilOffset = w then s else
        s.withRecord (s.levelOf .time) (.offsetChange s.tb.civilOffset w)).withDecisions t.tb).journal ∧
      t = { s.taking 33 r with tb := t.tb, lines := t.lines, journal := t.journal } ∧
      (r.params = beSigned 2 v → exec (.setCivilOffset r) s = .next (t.respond 33 r (taken (decide (w ≠ v))
        (beSigned 2 w ++ beSigned 2 w ++ optional 7 ScheduledChange.octets s.tb.scheduled ++ [0])))) ∧
      (r.params = beSigned 2 v ++ [0] → exec (.setCivilOffset r) s = .next ((t.setTb { t.tb with scheduled := none }).respond 33 r
        (taken (decide (w ≠ v)) (beSigned 2 w ++ [0] ++ beSigned 2 w ++ absent 7 ++ [0])))) ∧
      ∀ (day : Day) (sec : Nat) (x y : Int), sec < 86400 → -32768 ≤ x → x < 32768 → y = 15 * roundDiv (clampInt (-720) 840 x) 15 →
        r.params = beSigned 2 v ++ [1] ++ be 2 day.toNat ++ be 3 sec ++ beSigned 2 x →
        (s.tb.setFlag = false ∨ s.tb.time.daySec.before ⟨day, sec⟩ = true → exec (.setCivilOffset r) s =
          .next ((t.setTb { t.tb with scheduled := some ⟨day, sec, y⟩ }).respond 33 r (taken (decide (w ≠ v ∨ y ≠ x))
            (beSigned 2 w ++ [1] ++ be 2 day.toNat ++ be 3 sec ++ beSigned 2 y ++ beSigned 2 w ++
              (be 2 day.toNat ++ be 3 sec ++ beSigned 2 y) ++ [0])))) ∧
        (s.tb.setFlag = true → s.tb.time.daySec.before ⟨day, sec⟩ = false → ∃ u : State, exec (.setCivilOffset r) s =
            .next (u.respond 33 r (taken (decide (w ≠ v ∨ y ≠ x))
              (beSigned 2 w ++ [1] ++ be 2 day.toNat ++ be 3 sec ++ beSigned 2 y ++ beSigned 2 y ++ absent 7 ++ [1]))) ∧
          u.tb = { s.tb with scheduled := none, civilOffset := y } ∧
          (∀ l, (t.line l).takesTarget (u.line l) (u.tb.target (t.line l).period) s.tb.instant) ∧
          u.journal = ((if w = y then t else t.withRecord (s.levelOf .time) (.offsetChange w y)).withDecisions u.tb).journal ∧
          u = { t with tb := u.tb, lines := u.lines, journal := u.journal })) ∧
  (∀ (s : State) (r : Request) (day : Day) (sec : Nat) (x y : Int), s.ready → sec < 86400 → -32768 ≤ x → x < 32768 →
    y = 15 * roundDiv (clampInt (-720) 840 x) 15 → r.params = [1] ++ be 2 day.toNat ++ be 3 sec ++ beSigned 2 x →
    (s.tb.setFlag = false ∨ s.tb.time.daySec.before ⟨day, sec⟩ = true → exec (.setCivilOffset r) s =
      .next (((s.taking 33 r).setTb { s.tb with scheduled := some ⟨day, sec, y⟩ }).respond 33 r (taken (decide (y ≠ x))
        ([1] ++ be 2 day.toNat ++ be 3 sec ++ beSigned 2 y ++ beSigned 2 s.tb.civilOffset ++
          (be 2 day.toNat ++ be 3 sec ++ beSigned 2 y) ++ [0])))) ∧
    (s.tb.setFlag = true → s.tb.time.daySec.before ⟨day, sec⟩ = false → ∃ u : State, exec (.setCivilOffset r) s =
        .next (u.respond 33 r (taken (decide (y ≠ x))
          ([1] ++ be 2 day.toNat ++ be 3 sec ++ beSigned 2 y ++ beSigned 2 y ++ absent 7 ++ [1]))) ∧
      u.tb = { s.tb with scheduled := none, civilOffset := y } ∧
      (∀ l, (s.line l).takesTarget (u.line l) (u.tb.target (s.line l).period) s.tb.instant) ∧
      u.journal = ((if s.tb.civilOffset = y then s else
        s.withRecord (s.levelOf .time) (.offsetChange s.tb.civilOffset y)).withDecisions u.tb).journal ∧
      u = { s.taking 33 r with tb := u.tb, lines := u.lines, journal := u.journal })) ∧
  (∀ (s : State) (r : Request) (n1 n0 action d1 d0 t2 t1 t0 v1 v0 : Byte), s.ready →
    (2 ≤ action.toNat → r.params = [action] ∨ r.params = [n1, n0, action] →
      exec (.setCivilOffset r) s = .next ((s.taking 33 r).respond 33 r (.refused .range))) ∧
    (2 ≤ action.toNat ∨ (action = 1 ∧ 86399 < ofBe [t2, t1, t0]) →
      r.params = [action, d1, d0, t2, t1, t0, v1, v0] ∨ r.params = [n1, n0, action, d1, d0, t2, t1, t0, v1, v0] →
      exec (.setCivilOffset r) s = .next ((s.taking 33 r).respond 33 r (.refused .range))) ∧
    (r.params = [] → exec (.setCivilOffset r) s = .next ((s.taking 33 r).respond 33 r
      (.done (beSigned 2 s.tb.civilOffset ++ optional 7 ScheduledChange.octets s.tb.scheduled ++ [0]))))) ∧
  (∀ (s : State) (r : Request) (v : Int), s.ready → -48 ≤ v → v ≤ 56 → s.tb.civilOffset ≠ 15 * v →
    s.tb.scheduled = none → (∀ l, (s.line l).state = .unset ∨ (s.line l).state = .halted) →
    r.params = beSigned 2 (15 * v) →
    ∃ u : State, exec (.setCivilOffset r) s = .next (u.respond 33 r
        (.done (beSigned 2 (15 * v) ++ beSigned 2 (15 * v) ++ absent 7 ++ [0]))) ∧
      u.tb = { s.tb with civilOffset := 15 * v } ∧
      (∀ l, u.line l = { s.line l with target := u.tb.target (s.line l).period }) ∧
      u.journal = (s.withRecord (s.levelOf .time) (.offsetChange s.tb.civilOffset (15 * v))).journal ∧
      u = { s.taking 33 r with tb := u.tb, lines := u.lines, journal := u.journal }) ∧
  (∀ (s : State) (r : Request) (v : Int) (day : Day) (sec : Nat), s.ready → -48 ≤ v → v ≤ 56 →
    sec < 86400 →
    (s.tb.setFlag = false ∨ s.tb.time.daySec.before ⟨day, sec⟩ = true →
      r.params = [1] ++ be 2 day.toNat ++ be 3 sec ++ beSigned 2 (15 * v) → exec (.setCivilOffset r) s =
      .next (((s.taking 33 r).setTb { s.tb with scheduled := some ⟨day, sec, 15 * v⟩ }).respond 33 r
        (.done ([1] ++ be 2 day.toNat ++ be 3 sec ++ beSigned 2 (15 * v) ++ beSigned 2 s.tb.civilOffset ++
          (be 2 day.toNat ++ be 3 sec ++ beSigned 2 (15 * v)) ++ [0])))) ∧
    (r.params = [0] → exec (.setCivilOffset r) s =
      .next (((s.taking 33 r).setTb { s.tb with scheduled := none }).respond 33 r
        (.done ([0] ++ beSigned 2 s.tb.civilOffset ++ absent 7 ++ [0]))))) ∧
  ∀ (s : State) (r : Request) (v : Int) (day : Day) (sec : Nat), s.ready → -48 ≤ v → v ≤ 56 → sec < 86400 →
    s.tb.setFlag = true → s.tb.time.daySec.before ⟨day, sec⟩ = false → s.tb.civilOffset ≠ 15 * v →
    (∀ l, (s.line l).state = .unset ∨ (s.line l).state = .halted) →
    r.params = [1] ++ be 2 day.toNat ++ be 3 sec ++ beSigned 2 (15 * v) →
    ∃ u : State, exec (.setCivilOffset r) s = .next (u.respond 33 r
        (.done ([1] ++ be 2 day.toNat ++ be 3 sec ++ beSigned 2 (15 * v) ++ beSigned 2 (15 * v) ++ absent 7 ++ [1]))) ∧
      u.tb = { s.tb with scheduled := none, civilOffset := 15 * v } ∧
      (∀ l, u.line l = { s.line l with target := u.tb.target (s.line l).period }) ∧
      u.journal = (s.withRecord (s.levelOf .time) (.offsetChange s.tb.civilOffset (15 * v))).journal ∧
      u = { s.taking 33 r with tb := u.tb, lines := u.lines, journal := u.journal }

/-! ## The timetable checker -/

/-- LOAD HEADER fills an EMPTY bank's header and keeps the entries of a LOADING one; ARM, DISARM and CLEAR BANK move a bank between its
states, and each is refused with STATE in any state but those; CLEAR BANK of an EMPTY bank changes nothing, and of a LOADING one lowers each
record's reference count by the times that its entries name it (R110, R112 to R114). A bank code that names none, and a second of day above
86,399, are refused with RANGE. That LOAD HEADER answers with the start instant ahead of the state and the count is log entry 22 (DEDUCED).
-/
def Obligations.BankStatesByRequest : Prop :=
  (∀ (s : State) (r : Request) (b : BankId), s.ready →
    (∀ day sec, sec < 86400 → r.params = [b.code] ++ be 2 (BitVec.toNat (day : Day)) ++ be 3 sec →
      ((s.bank b).state = .empty → exec (.loadHeader r) s = .next (((s.taking 40 r).setBank b { s.bank b with
        state := .loading, start := some ⟨day, sec⟩, entries := [], nextToOpen := 0 }).respond 40 r
          (.done (be 2 day.toNat ++ be 3 sec ++ [1] ++ [0, 0])))) ∧
      ((s.bank b).state = .loading → exec (.loadHeader r) s = .next (((s.taking 40 r).setBank b { s.bank b with
        start := some ⟨day, sec⟩ }).respond 40 r
          (.done (be 2 day.toNat ++ be 3 sec ++ [1] ++ be 2 (s.bank b).entries.length)))) ∧
      ((s.bank b).state ≠ .empty → (s.bank b).state ≠ .loading →
        exec (.loadHeader r) s = .next ((s.taking 40 r).respond 40 r (.refused .state)))) ∧
    (r.params = [b.code] → (s.bank b).state = .loading → (s.bank b).entries ≠ [] → (s.bank b.other).state ≠ .armed →
      exec (.arm r) s = .next (((s.taking 42 r).setBank b { s.bank b with state := .armed }).respond 42 r (.done [2]))) ∧
    (r.params = [b.code] → (s.bank b).state ≠ .loading ∨ (s.bank b).entries = [] ∨ (s.bank b.other).state = .armed →
      exec (.arm r) s = .next ((s.taking 42 r).respond 42 r (.refused .state))) ∧
    (r.params = [b.code] → (s.bank b).state = .armed → exec (.disarm r) s =
      .next (((s.taking 43 r).setBank b { s.bank b with state := .loading }).respond 43 r (.done [1]))) ∧
    (r.params = [b.code] → (s.bank b).state ≠ .armed →
      exec (.disarm r) s = .next ((s.taking 43 r).respond 43 r (.refused .state))) ∧
    (r.params = [b.code] → (s.bank b).state = .empty →
      exec (.clearBank r) s = .next ((s.taking 45 r).respond 45 r (.done [0]))) ∧
    (r.params = [b.code] → (s.bank b).state = .armed ∨ (s.bank b).state = .active ∨ (s.bank b).state = .retiring →
      exec (.clearBank r) s = .next ((s.taking 45 r).respond 45 r (.refused .state))) ∧
    (r.params = [b.code] → (s.bank b).state = .loading → ∃ u : State,
      exec (.clearBank r) s = .next (u.respond 45 r (.done [0])) ∧
      u.bank b = ⟨.empty, none, [], 0, none⟩ ∧ u.bank b.other = s.bank b.other ∧ u.journal = s.journal ∧
      (∀ i, u.element i = (s.element i).map fun e => { e with refs := e.refs - (s.bank b).naming i }) ∧
      u = { s.taking 45 r with bankA := u.bankA, bankB := u.bankB, elements := u.elements })) ∧
  ∀ (s : State) (r : Request) (code : Byte), s.ready →
    (r.params = [code] → 2 ≤ code.toNat →
      exec (.arm r) s = .next ((s.taking 42 r).respond 42 r (.refused .range)) ∧
      exec (.disarm r) s = .next ((s.taking 43 r).respond 43 r (.refused .range)) ∧
      exec (.clearBank r) s = .next ((s.taking 45 r).respond 45 r (.refused .range))) ∧
    (∀ d1 d0 s2 s1 s0, r.params = [code, d1, d0, s2, s1, s0] → 2 ≤ code.toNat ∨ 86399 < ofBe [s2, s1, s0] →
      exec (.loadHeader r) s = .next ((s.taking 40 r).respond 40 r (.refused .range)))

/-- LOAD ENTRY is judged by the table of R111, the first test that fails giving the refusal: a bank code that names none RANGE, a bank that
is not LOADING STATE, a full bank BUSY, values out of their bounds RANGE, a signal or a point of another kind KIND, a point named twice and
an open time below that of the entry loaded before ORDER. One that passes appends a PENDING entry, its tolerances clamped, and raises the
reference count of the signal and of each point it names by one (R112); it answers DONE-ADJUSTED just when a tolerance was clamped, with its
parameters as taken, its index and its open and close times (log entry 22, DEDUCED). -/
def Obligations.LoadEntryAppendsAndRefers : Prop :=
  ∀ (s : State) (r : Request) (code : Byte) (signal time early late e l : Nat) (reference : BitVec 32) (items : List RouteItem),
    s.ready → signal < 65536 → time < 16777216 → early < 65536 → late < 65536 → items.length ≤ 6 →
    (∀ i ∈ items, i.point < 65536 ∧ i.position < 256) → e = min 3600 early → l = min 7200 late →
    r.params = [code] ++ be 2 signal ++ be 3 time ++ be 2 early ++ be 2 late ++ be 4 reference.toNat ++
      items.flatMap (fun i => be 2 i.point ++ [BitVec.ofNat 8 i.position]) →
    (2 ≤ code.toNat → exec (.loadEntry r) s = .next ((s.taking 41 r).respond 41 r (.refused .range))) ∧
    ∀ b : BankId, code = b.code →
      ((s.bank b).state ≠ .loading → exec (.loadEntry r) s = .next ((s.taking 41 r).respond 41 r (.refused .state))) ∧
      ((s.bank b).state = .loading → 3072 ≤ (s.bank b).entries.length →
        exec (.loadEntry r) s = .next ((s.taking 41 r).respond 41 r (.refused .busy))) ∧
      ((s.bank b).state = .loading → (s.bank b).entries.length < 3072 →
        (2047 < signal ∨ 100799 < time ∨ (∃ i ∈ items, 2047 < i.point ∨ (i.position ≠ 1 ∧ i.position ≠ 2)) →
          exec (.loadEntry r) s = .next ((s.taking 41 r).respond 41 r (.refused .range))) ∧
        (signal ≤ 2047 → time ≤ 100799 → (∀ i ∈ items, i.point ≤ 2047 ∧ (i.position = 1 ∨ i.position = 2)) →
          ((∀ x, s.element signal = some x → x.loaded.kind ≠ .signal ∨ x.loaded.timetabled = false) ∨
              (∃ i ∈ items, ∀ x, s.element i.point = some x → x.loaded.kind ≠ .point) →
            exec (.loadEntry r) s = .next ((s.taking 41 r).respond 41 r (.refused .kind))) ∧
          ((∃ x, s.element signal = some x ∧ x.loaded.kind = .signal ∧ x.loaded.timetabled = true) →
            (∀ i ∈ items, ∃ x, s.element i.point = some x ∧ x.loaded.kind = .point) →
            (¬ (items.map RouteItem.point).Nodup ∨ (∃ x, (s.bank b).entries.getLast? = some x ∧ time - e < x.openTime) →
              exec (.loadEntry r) s = .next ((s.taking 41 r).respond 41 r (.refused .order))) ∧
            ((items.map RouteItem.point).Nodup → (∀ x, (s.bank b).entries.getLast? = some x → x.openTime ≤ time - e) →
              ∃ u : State, exec (.loadEntry r) s = .next (u.respond 41 r (taken (decide (3600 < early ∨ 7200 < late))
                  (be 2 signal ++ be 3 time ++ be 2 e ++ be 2 l ++ be 4 reference.toNat ++
                    items.flatMap (fun i => be 2 i.point ++ [BitVec.ofNat 8 i.position]) ++
                    be 2 (s.bank b).entries.length ++ be 3 (time - e) ++ be 3 (min 100799 (time + l))))) ∧
                u.bank b = { s.bank b with entries := (s.bank b).entries ++
                  [⟨signal, time, e, l, reference, items, .pending, none, none⟩] } ∧
                u.bank b.other = s.bank b.other ∧
                (∀ i, i = signal ∨ i ∈ items.map RouteItem.point →
                  u.element i = (s.element i).map fun f => { f with refs := min 65535 (f.refs + 1) }) ∧
                (∀ i, i ≠ signal → i ∉ items.map RouteItem.point → u.element i = s.element i) ∧
                u = { s.taking 41 r with bankA := u.bankA, bankB := u.bankB, elements := u.elements }))))

/-- CANCEL ENTRY of either bank closes a PENDING or an OPEN entry CANCELLED, out of the open list, with one TIMETABLE RESULT record, and
answers with the status it had; the last OPEN entry of a RETIRING bank leaves the bank EMPTY with a BANK record EMPTIED (R118, R127). A
final entry is refused with STATE, an index that names none with RANGE. ABANDON empties an ACTIVE bank at once with one BANK record, and the
other bank stays; in any other state it is refused with STATE (R128). Where a bank empties, each record's reference count falls by the times
that its entries name it (R112). A bank code that names none is refused with RANGE by both. -/
def Obligations.CancelAndAbandonCloseEntries : Prop :=
  (∀ (s : State) (r : Request) (b : BankId) (i1 i0 : Byte), s.ready → r.params = [b.code, i1, i0] →
    ((s.bank b).entries[ofBe [i1, i0]]? = none →
      exec (.cancelEntry r) s = .next ((s.taking 46 r).respond 46 r (.refused .range))) ∧
    ∀ e, (s.bank b).entries[ofBe [i1, i0]]? = some e →
      (e.status.final = true → exec (.cancelEntry r) s = .next ((s.taking 46 r).respond 46 r (.refused .state))) ∧
      ∀ v : State, e.status = .pending ∨ e.status = .opened →
        v = (((s.taking 46 r).setBank b { s.bank b with
          entries := (s.bank b).entries.set (ofBe [i1, i0])
            { e with status := .cancelled, closing := some s.tb.now, result := none } }).setOpenList
          (s.openList.filter fun x => x != ⟨b, ofBe [i1, i0]⟩)).withRecord (s.levelOf .timetable)
            (.timetableResult b (ofBe [i1, i0]) e.reference .cancelled none) →
        ((s.bank b).state ≠ .retiring ∨ 2 ≤ (s.bank b).count .opened →
          exec (.cancelEntry r) s = .next (v.respond 46 r (.done [if e.status = .opened then 1 else 0]))) ∧
        ((s.bank b).state = .retiring → e.status = .opened → (s.bank b).count .opened = 1 →
          ∃ u : State, exec (.cancelEntry r) s = .next (u.respond 46 r (.done [1])) ∧
            u.bank b = ⟨.empty, none, [], 0, none⟩ ∧ u.bank b.other = s.bank b.other ∧
            (∀ i, u.element i = (s.element i).map fun x => { x with refs := x.refs - (s.bank b).naming i }) ∧
            u.journal = (v.withRecord (s.levelOf .timetable) (.bank b .emptied 0 0)).journal ∧
            u = { v with bankA := u.bankA, bankB := u.bankB, elements := u.elements, journal := u.journal })) ∧
  (∀ (s : State) (r : Request) (b : BankId), s.ready → r.params = [b.code] →
    ((s.bank b).state = .active → ∃ u : State, exec (.abandon r) s =
        .next (u.respond 44 r (.done (be 2 ((s.bank b).count .opened) ++ be 2 ((s.bank b).count .pending)))) ∧
      u.bank b = ⟨.empty, none, [], 0, none⟩ ∧ u.bank b.other = s.bank b.other ∧
      u.openList = s.openList.filter (fun x => x.bank != b) ∧
      (∀ i, u.element i = (s.element i).map fun x => { x with refs := x.refs - (s.bank b).naming i }) ∧
      u.journal = (s.withRecord (s.levelOf .timetable)
        (.bank b .abandoned ((s.bank b).count .opened) ((s.bank b).count .pending))).journal ∧
      u = { s.taking 44 r with
        bankA := u.bankA, bankB := u.bankB, elements := u.elements, openList := u.openList, journal := u.journal }) ∧
    ((s.bank b).state ≠ .active → exec (.abandon r) s = .next ((s.taking 44 r).respond 44 r (.refused .state)))) ∧
  ∀ (s : State) (r : Request) (code : Byte), s.ready → 2 ≤ code.toNat →
    (∀ i1 i0, r.params = [code, i1, i0] → exec (.cancelEntry r) s = .next ((s.taking 46 r).respond 46 r (.refused .range))) ∧
    (r.params = [code] → exec (.abandon r) s = .next ((s.taking 44 r).respond 44 r (.refused .range)))

/-- The checker at a second boundary and at a step event (R115 to R122), in the order activation, advance, closing, end of activity. An
ARMED bank activates when its bank time is at or above 0 and the time is set: the bank ACTIVE before it retires first, the advance opens and
closes, and an ACTIVATED record gives the numbers opened and closed LATE ACTIVATION. The advance passes the entries whose open time has
come: a PENDING one closes when its close time has passed, and opens otherwise, but for a full open list; that it stands at a CANCELLED
entry until that entry's own open time comes is log entry 37 (DEDUCED). An entry opened stands in the open list at the place of its close
instant, behind older ones of the same instant. The closing takes the head of the open list while its close time has passed, and closes it
MISSED with its record, so that at last no head has passed; a RETIRING bank that loses its last OPEN entry is emptied. An ACTIVE bank
retires at bank time 100,800: its PENDING entries close NOT OPENED under one RETIRED record, with the stamp of the retirement (log entry 21,
DEDUCED), and it is RETIRING, or EMPTY with an EMPTIED record when it holds no OPEN entry. An emptied bank lowers each record's reference
count by the times that its entries name it. -/
def Obligations.CheckerActivatesWalksAndRetires : Prop :=
  (∀ s : State, s.walk =
    let s1 := (s.judgeActivation .bankA).judgeActivation .bankB
    let s2 := (s1.walkActive .bankA).walkActive .bankB
    ((State.closePassed s2.openList.length s2).judgeEnd .bankA).judgeEnd .bankB) ∧
  (∀ (s : State) (b : BankId),
    ((s.bank b).state ≠ .armed ∨ s.bankTimeNow b < 0 ∨ s.tb.setFlag = false → s.judgeActivation b = s) ∧
    ((s.bank b).state = .armed → 0 ≤ s.bankTimeNow b → s.tb.setFlag = true →
      ((s.judgeActivation b).bank b).state = .active ∧ ((s.judgeActivation b).bank b.other).state ≠ .active ∧
      (∀ m, ((s.judgeActivation b).bank b.other).order = some m → ((s.judgeActivation b).bank b).order = some (m + 1)) ∧
      ∀ (v : State) (w : Walked), v = (if (s.bank b.other).state = .active then s.retire b.other else s) →
        w = (v.setBank b { v.bank b with
          state := .active, order := some (((v.bank b.other).order.getD 0) + 1) }).walkBank b .lateActivation →
        s.judgeActivation b = w.state.withRecord (s.levelOf .timetable) (.bank b .activated w.opened w.closed) ∧
        ((∀ e ∈ (s.bank b).entries, e.status = .pending ∨ e.status = .cancelled) →
          w.opened = (w.state.bank b).count .opened ∧ w.closed = (w.state.bank b).count .lateActivation))) ∧
  (∀ (s : State) (b : BankId) (passed : EntryStatus) (x y : Bank), (s.bank b).state = .active → x = s.bank b →
    y = (s.walkBank b passed).state.bank b →
    ∃ n, x.nextToOpen ≤ n ∧ y.nextToOpen = n ∧ y.entries.length = x.entries.length ∧
      (∀ e, x.entries[n]? = some e → s.bankTimeNow b < e.openTime) ∧
      ∀ (k : Nat) (e : Entry), x.entries[k]? = some e →
        (k < x.nextToOpen ∨ n ≤ k ∨ e.status ≠ .pending → y.entries[k]? = some e) ∧
        (x.nextToOpen ≤ k → k < n → (e.openTime : Int) ≤ s.bankTimeNow b ∧
          (e.status = .pending →
            ((e.closeTime : Int) < s.bankTimeNow b →
              y.entries[k]? = some { e with status := passed, closing := some s.tb.now, result := none }) ∧
            (s.bankTimeNow b ≤ e.closeTime → s.openList.length + x.entries.length ≤ 256 →
              y.entries[k]? = some { e with status := .opened }) ∧
            (s.bankTimeNow b ≤ e.closeTime → y.entries[k]? = some { e with status := .opened } ∨
              y.entries[k]? = some { e with status := .openListFull, closing := some s.tb.now, result := none })))) ∧
  (∀ (s : State) (b : BankId),
    ((s.bank b).state = .active → s.walkActive b = (s.walkBank b .missed).state) ∧
    ((s.bank b).state ≠ .active → s.walkActive b = s)) ∧
  (∀ (s t : State) (r : EntryRef) (e : Entry), s.openList.length < 256 → s.entry r = some e →
    t = s.setEntry r { e with status := .opened } →
    (∃ front back, s.openList = front ++ back ∧ s.openEntry r e = t.setOpenList (front ++ r :: back) ∧
      (∀ x ∈ front, t.refBefore Entry.closeTime r x = false) ∧
      ∀ x, back.head? = some x → t.refBefore Entry.closeTime r x = true) ∧
    (s.startsNear → s.openListSorted → (s.openEntry r e).openListSorted)) ∧
  (∀ (s : State) (x y : EntryRef) (ex ey : Entry) (sx sy : DaySec) (ahead : Int), s.startsNear → s.entry x = some ex →
    s.entry y = some ey → (s.bank x.bank).start = some sx → (s.bank y.bank).start = some sy →
    ahead = dayDiff sx.day sy.day * 86400 + ((sx.sec : Int) - sy.sec) + ((ex.closeTime : Int) - ey.closeTime) →
    (s.refBefore Entry.closeTime x y = true ↔ ahead < 0 ∨ (ahead = 0 ∧
      ((x.bank = y.bank ∧ x.index < y.index) ∨ (x.bank ≠ y.bank ∧
        ∃ m n, (s.bank x.bank).order = some m ∧ (s.bank y.bank).order = some n ∧ m < n))))) ∧
  (∀ (s t : State) (r : EntryRef) (rest : List EntryRef) (e : Entry), t = State.closePassed s.openList.length s →
    t.openList = r :: rest → t.entry r = some e → t.bankTimeNow r.bank ≤ e.closeTime) ∧
  (∀ (s v : State) (n : Nat) (r : EntryRef) (rest : List EntryRef) (e : Entry), s.openList = r :: rest → s.entry r = some e →
    v = ((s.setBank r.bank { s.bank r.bank with
        entries := (s.bank r.bank).entries.set r.index { e with status := .missed, closing := some s.tb.now, result := none } }).setOpenList
          (s.openList.filter fun x => x != r)).withRecord (s.levelOf .timetable)
            (.timetableResult r.bank r.index e.reference .missed none) →
    (s.bankTimeNow r.bank ≤ e.closeTime → State.closePassed (n + 1) s = s) ∧
    ((e.closeTime : Int) < s.bankTimeNow r.bank →
      ((s.bank r.bank).state ≠ .retiring ∨ 2 ≤ (s.bank r.bank).count .opened →
        State.closePassed (n + 1) s = State.closePassed n v) ∧
      ((s.bank r.bank).state = .retiring → e.status = .opened → (s.bank r.bank).count .opened = 1 →
        ∃ u : State, State.closePassed (n + 1) s = State.closePassed n u ∧
          u.bank r.bank = ⟨.empty, none, [], 0, none⟩ ∧ u.bank r.bank.other = s.bank r.bank.other ∧
          (∀ i, u.element i = (s.element i).map fun x => { x with refs := x.refs - (s.bank r.bank).naming i }) ∧
          u.journal = (v.withRecord (s.levelOf .timetable) (.bank r.bank .emptied 0 0)).journal ∧
          u = { v with bankA := u.bankA, bankB := u.bankB, elements := u.elements, journal := u.journal }))) ∧
  (∀ (s : State) (b : BankId),
    ((s.bank b).state ≠ .active ∨ s.bankTimeNow b < 100800 → s.judgeEnd b = s) ∧
    ((s.bank b).state = .active → 100800 ≤ s.bankTimeNow b → s.judgeEnd b = s.retire b)) ∧
  ∀ (s v : State) (b : BankId),
    v = (s.setBank b { s.bank b with
        state := .retiring, nextToOpen := (s.bank b).entries.length
        entries := (s.bank b).entries.map fun e =>
          if e.status = .pending then { e with status := .notOpened, closing := some s.tb.now } else e }).withRecord
            (s.levelOf .timetable) (.bank b .retired ((s.bank b).count .pending) ((s.bank b).count .opened)) →
    (0 < (s.bank b).count .opened → s.retire b = v) ∧
    ((s.bank b).count .opened = 0 →
      (s.retire b).bank b = ⟨.empty, none, [], 0, none⟩ ∧ (s.retire b).bank b.other = s.bank b.other ∧
      (∀ i, (s.retire b).element i = (s.element i).map fun x => { x with refs := x.refs - (s.bank b).naming i }) ∧
      (s.retire b).journal = (v.withRecord (s.levelOf .timetable) (.bank b .emptied 0 0)).journal ∧
      s.retire b = { v with
        bankA := (s.retire b).bankA, bankB := (s.retire b).bankB, elements := (s.retire b).elements,
        journal := (s.retire b).journal })

/-- A signal clearing handed to the checker (R123 to R126): without a bank ACTIVE or RETIRING nothing happens; without an OPEN entry of the
signal an UNSCHEDULED CLEARING is recorded; otherwise an OPEN entry of the signal, of two in one bank the one scheduled earlier, leaves the
open list MATCHED with one TIMETABLE RESULT record at the change's stamp, and the last OPEN entry of a RETIRING bank leaves the bank EMPTY
with an EMPTIED record behind it (R118). Of several in either bank the one of the earliest scheduled instant wins, of equal ones that of the
older bank, and in one bank the lower index. Its result holds the deviation, the OUTSIDE WINDOW flag and the route check with the number of
points that show another end: OK when every point is set, MISMATCH by the first point that is not, and UNVERIFIED by the first that cannot
be judged. -/
def Obligations.ClearingMatchesAnOpenEntry : Prop :=
  (∀ (s : State) (c : Change),
    ((∀ b, (s.bank b).state ≠ .active ∧ (s.bank b).state ≠ .retiring) → s.clearing c = s) ∧
    (∀ b, (s.bank b).state = .active ∨ (s.bank b).state = .retiring →
      ((∀ r ∈ s.openList, ∀ e, s.entry r = some e → e.signal ≠ c.element) →
        s.clearing c = s.offer ⟨s.levelOf .timetable, c.dated, c.ageLimit, c.clamped, .unscheduledClearing c.element⟩) ∧
      ((∃ r ∈ s.openList, ∃ e, s.entry r = some e ∧ e.signal = c.element) →
        ∃ r ∈ s.openList, ∃ e, s.winner c.element = some r ∧ s.entry r = some e ∧ e.signal = c.element ∧
          ∀ v : State, v =
            ((s.setEntry r { e with
                status := .matched, closing := some c.dated, result := some (s.matchResult r.bank e c.dated.stamp) }).setOpenList
              (s.openList.filter fun x => x != r)).offer ⟨s.levelOf .timetable, c.dated, c.ageLimit, c.clamped,
                .timetableResult r.bank r.index e.reference .matched (some (s.matchResult r.bank e c.dated.stamp))⟩ →
          ((s.bank r.bank).state ≠ .retiring ∨ 2 ≤ (s.bank r.bank).count .opened → s.clearing c = v) ∧
          ((s.bank r.bank).state = .retiring → e.status = .opened → (s.bank r.bank).count .opened = 1 →
            (s.clearing c).bank r.bank = ⟨.empty, none, [], 0, none⟩ ∧
            (s.clearing c).bank r.bank.other = s.bank r.bank.other ∧
            (∀ i, (s.clearing c).element i = (s.element i).map fun x => { x with refs := x.refs - (s.bank r.bank).naming i }) ∧
            (s.clearing c).journal = (v.withRecord (s.levelOf .timetable) (.bank r.bank .emptied 0 0)).journal ∧
            s.clearing c = { v with
              bankA := (s.clearing c).bankA, bankB := (s.clearing c).bankB, elements := (s.clearing c).elements,
              journal := (s.clearing c).journal })))) ∧
  (∀ (s : State) (r : EntryRef) (e : Entry) (sr : DaySec), s.startsNear → r ∈ s.openList → s.entry r = some e →
    e.scheduled ≤ 100799 → (s.bank r.bank).start = some sr →
    (∀ x ∈ s.openList, ∀ ex, x ≠ r → s.entry x = some ex → ex.signal = e.signal → ex.scheduled ≤ 100799 ∧
      ∃ (sx : DaySec) (ahead : Int), (s.bank x.bank).start = some sx ∧
        ahead = dayDiff sr.day sx.day * 86400 + ((sr.sec : Int) - sx.sec) + ((e.scheduled : Int) - ex.scheduled) ∧
        (ahead < 0 ∨ (ahead = 0 ∧
          ((r.bank = x.bank ∧ r.index < x.index) ∨ (r.bank ≠ x.bank ∧
            ∃ m n, (s.bank r.bank).order = some m ∧ (s.bank x.bank).order = some n ∧ m < n))))) →
    s.winner e.signal = some r) ∧
  (∀ (s : State) (x y : EntryRef) (ex ey : Entry) (start : DaySec), s.openList = [x, y] → s.entry x = some ex →
    s.entry y = some ey → ex.signal = ey.signal → x.bank = y.bank → (s.bank x.bank).start = some start → start.sec < 86400 →
    ex.scheduled ≤ 100799 → ey.scheduled ≤ 100799 →
    s.winner ex.signal =
      if ey.scheduled < ex.scheduled ∨ (ey.scheduled = ex.scheduled ∧ y.index < x.index) then some y else some x) ∧
  ∀ (s : State) (b : BankId) (e : Entry) (stamp : Stamp) (start : DaySec) (m : MatchResult), (s.bank b).start = some start →
    m = s.matchResult b e stamp →
    m.deviation = clampInt (-32767) 32767 (bankTime start ⟨stamp.day, stamp.sec⟩ - e.scheduled) ∧
    (m.outside = true ↔ bankTime start ⟨stamp.day, stamp.sec⟩ < e.openTime ∨
      (e.closeTime : Int) < bankTime start ⟨stamp.day, stamp.sec⟩) ∧
    (∀ differs : RouteItem → Bool, (∀ i ∈ e.route, differs i = true ↔ ∃ v, s.shows i v ∧ v ≠ i.position) →
      m.mismatches = e.route.countP differs) ∧
    ((∀ i ∈ e.route, s.shows i i.position) → m.route = .ok ∧ m.mismatches = 0 ∧ m.item = none) ∧
    (∀ k i v, e.route[k]? = some i → s.shows i v → v ≠ i.position →
      (∀ j x w, j < k → e.route[j]? = some x → s.shows x w → w = x.position) →
      m.route = .mismatch ∧ m.item = some k ∧ 1 ≤ m.mismatches) ∧
    ((∀ x ∈ e.route, ∀ w, s.shows x w → w = x.position) → ∀ k i, e.route[k]? = some i → ¬ s.verifies i →
      (∀ j x, j < k → e.route[j]? = some x → s.verifies x) →
      m.route = .unverified ∧ m.mismatches = 0 ∧ m.item = some k)

/-- RESET TABLES empties every element record, closes every window, empties both banks and the open list, and leaves the ports (but for its
response), the timebase and the clock lines alone; its answer counts the supervisions and the entries closed (R47, R101, R129, R181). Its
three steps may follow one another at once or pause for other events; that a pause is a free choice, here any one, and that another request
first finishes the steps that are left, is log entry 13 (DESIGN CHOICE), and so is the stamp of each record, the instant of its own step.
The first step returns every supervised record to IDLE with its ABANDONED outcome, in ascending order of index, the second writes the BANK
record TABLES RESET of each bank that is not EMPTY, A before B, empties the banks and lowers each record's reference count by the times that
their entries name it, the third empties the records and the windows, with the RECORDING START record and the answer. -/
def Obligations.ResetTablesEmptiesTheTables : Prop :=
  (∀ (s : State) (r : Request), s.initialising = false → r.params = [] →
    exec (.resetTables r) s = .next ({ s with choices := s.choices + 1 }.takeReset r (Config.pause s.choices))) ∧
  (∀ (s : State) (r : Request), s.ready → r.params = [] →
    (s.bankA.state = .empty → s.bankA = Bank.afterReset) → (s.bankB.state = .empty → s.bankB = Bank.afterReset) →
    ∃ u : State, s.takeReset r false = u.respond 70 r (.done
        (be 2 (s.elements.countP fun x => x.2.sup.active) ++ be 2 (s.bankA.count .opened) ++ be 2 (s.bankA.count .pending) ++
          be 2 (s.bankB.count .opened) ++ be 2 (s.bankB.count .pending))) ∧
      u.elements = [] ∧ (∀ p w, u.window p w = ⟨4095, 0, 0⟩) ∧ u.bankA = Bank.afterReset ∧ u.bankB = Bank.afterReset ∧
      (∀ a b c : State, a = s.withOutcomes .abandoned s.supervised →
        b = (if s.bankA.state = .empty then a else a.withRecord (s.levelOf .timetable)
          (.bank .bankA .tablesReset (s.bankA.count .opened) (s.bankA.count .pending))) →
        c = (if s.bankB.state = .empty then b else b.withRecord (s.levelOf .timetable)
          (.bank .bankB .tablesReset (s.bankB.count .opened) (s.bankB.count .pending))) →
        tableWf s.elements → u.journal = c.journal.offer s.tb.now ⟨7, s.tb.now, false, false, .recordingStart .tablesReset⟩) ∧
      u.openList = [] ∧ u = { s.taking 70 r with
        windows := u.windows, elements := [], bankA := u.bankA, bankB := u.bankB, openList := [],
        journal := u.journal }) ∧
  (∀ (s : State) (r : Request), s.ready → r.params = [] →
    let u := s.takeReset r true
    u.service.resetting = some ⟨r, s.elements.countP fun x => x.2.sup.active, none⟩ ∧
    (∀ i, u.element i = (s.element i).map fun e => { e with sup := .idle }) ∧
    (tableWf s.elements → u.journal = (s.withOutcomes .abandoned s.supervised).journal) ∧
    u = { s with elements := u.elements, journal := u.journal, service := u.service }) ∧
  (∀ (s : State) (r : Request) (n : Nat), s.initialising = false → r.params = [] →
    s.service.resetting = some ⟨r, n, none⟩ →
    (s.bankA.state = .empty → s.bankA = Bank.afterReset) → (s.bankB.state = .empty → s.bankB = Bank.afterReset) →
    let u := s.takeReset r true
    u.service = { s.service with resetting := some ⟨r, n, some
      (⟨s.bankA.count .opened, s.bankA.count .pending⟩, ⟨s.bankB.count .opened, s.bankB.count .pending⟩)⟩ } ∧
    u.bankA = Bank.afterReset ∧ u.bankB = Bank.afterReset ∧ u.openList = [] ∧
    (∀ i, u.element i = (s.element i).map fun e => { e with refs := e.refs - s.bankA.naming i - s.bankB.naming i }) ∧
    (∀ b c : State,
      b = (if s.bankA.state = .empty then s else s.withRecord (s.levelOf .timetable)
        (.bank .bankA .tablesReset (s.bankA.count .opened) (s.bankA.count .pending))) →
      c = (if s.bankB.state = .empty then b else b.withRecord (s.levelOf .timetable)
        (.bank .bankB .tablesReset (s.bankB.count .opened) (s.bankB.count .pending))) →
      u.journal = c.journal) ∧
    u = { s with
      elements := u.elements, bankA := u.bankA, bankB := u.bankB, openList := [], journal := u.journal, service := u.service }) ∧
  (∀ (s : State) (r : Request) (n : Nat), s.initialising = false → r.params = [] →
    s.service.resetting = some ⟨r, n, none⟩ →
    (s.bankA.state = .empty → s.bankA = Bank.afterReset) → (s.bankB.state = .empty → s.bankB = Bank.afterReset) →
    ∃ u : State, s.takeReset r false = u.respond 70 r (.done
        (be 2 n ++ be 2 (s.bankA.count .opened) ++ be 2 (s.bankA.count .pending) ++
          be 2 (s.bankB.count .opened) ++ be 2 (s.bankB.count .pending))) ∧
      u.elements = [] ∧ (∀ p w, u.window p w = ⟨4095, 0, 0⟩) ∧ u.bankA = Bank.afterReset ∧ u.bankB = Bank.afterReset ∧
      u.service = Service.finish { s.service with resetting := none } ⟨70, r⟩ ∧
      (∀ b c : State,
        b = (if s.bankA.state = .empty then s else s.withRecord (s.levelOf .timetable)
          (.bank .bankA .tablesReset (s.bankA.count .opened) (s.bankA.count .pending))) →
        c = (if s.bankB.state = .empty then b else b.withRecord (s.levelOf .timetable)
          (.bank .bankB .tablesReset (s.bankB.count .opened) (s.bankB.count .pending))) →
        u.journal = c.journal.offer s.tb.now ⟨7, s.tb.now, false, false, .recordingStart .tablesReset⟩) ∧
      u = { s with
        windows := u.windows, elements := [], bankA := u.bankA, bankB := u.bankB, openList := [], journal := u.journal,
        service := u.service }) ∧
  (∀ (s : State) (r : Request) (n oa pa ob pb : Nat) (pause : Bool), s.initialising = false → r.params = [] →
    s.service.resetting = some ⟨r, n, some (⟨oa, pa⟩, ⟨ob, pb⟩)⟩ →
    ∃ u : State, s.takeReset r pause = u.respond 70 r (.done (be 2 n ++ be 2 oa ++ be 2 pa ++ be 2 ob ++ be 2 pb)) ∧
      u.elements = [] ∧ (∀ p w, u.window p w = ⟨4095, 0, 0⟩) ∧
      u.service = Service.finish { s.service with resetting := none } ⟨70, r⟩ ∧
      u.journal = (s.journal.offer s.tb.now ⟨7, s.tb.now, false, false, .recordingStart .tablesReset⟩) ∧
      u = { s with elements := [], windows := u.windows, journal := u.journal, service := u.service }) ∧
  ∀ (s : State) (g : Resetting) (code : Byte) (r : Request), s.initialising = false → s.service.resetting = some g →
    (code ≠ 70 → exec (decodeRequest code r) s = exec (decodeRequest code r) s.finishReset) ∧
    (r ≠ g.request → ∀ pause, s.takeReset r pause = s.finishReset.takeReset r pause)

/-! ## Clock lines -/

/-- The decision table of R138, for a line between impulses: the state by the lag, and the next start no sooner than the last start
plus the spacing; without a target it waits; in an impulse the state is judged alike and no next start is set. A decision that keeps
the state writes no record, any other the ENDED of the state left and the BEGUN of the state entered, with the fault kind and the
position (R148); that ENDED comes ahead of BEGUN is log entry 43 (DESIGN CHOICE). The start of a step impulse and of a probe at their
instants: its end is its start plus the width, its polarity the opposite of the last one, and the line rests until then (R139, R142). -/
def Obligations.DecisionsAndImpulseStarts : Prop :=
  (∀ (x : Line) (now t : Nat), x.target = some t → t < x.period.steps → x.position < x.period.steps → x.impulse = none →
    x.waitWindow ≤ 360 →
    (x.period.steps - x.waitSteps ≤ (t + x.period.steps - x.position) % x.period.steps →
      (x.decision now).line = { x with state := .waiting, nextStart := none }) ∧
    ((t + x.period.steps - x.position) % x.period.steps = 0 → 0 < x.period.steps - x.waitSteps →
      (x.decision now).line = { x with state := .running, nextStart := none }) ∧
    ((t + x.period.steps - x.position) % x.period.steps = 1 →
      (x.decision now).line = { x with state := .running, nextStart := some (match x.lastStart with
        | some b => max now (b + ms x.spacing)
        | none => now) }) ∧
    (2 ≤ (t + x.period.steps - x.position) % x.period.steps →
      (t + x.period.steps - x.position) % x.period.steps < x.period.steps - x.waitSteps →
      (x.decision now).line = { x with state := .catchingUp, nextStart := some (match x.lastStart with
        | some b => max now (b + ms x.spacing)
        | none => now) })) ∧
  (∀ (x : Line) (now : Nat),
    (x.target = none → (x.decision now).line = { x with state := .waiting, nextStart := none }) ∧
    (x.impulse ≠ none → (x.decision now).line = { x with
      state := (Line.decision { x with impulse := none } now).line.state, nextStart := none })) ∧
  (∀ (x : Line) (now : Nat) (y : LineState) (note : LineEvent → LineNote), y = (x.decision now).line.state →
    (∀ e, note e = ⟨e, x.faultKind, x.position⟩) →
    (x.state = y → (x.decision now).notes = []) ∧
    (x.state = .catchingUp → y = .running → (x.decision now).notes = [note .catchUpEnded]) ∧
    (x.state = .catchingUp → y = .waiting → (x.decision now).notes = [note .catchUpEnded, note .waitBegun]) ∧
    (x.state = .waiting → y = .running → (x.decision now).notes = [note .waitEnded]) ∧
    (x.state = .waiting → y = .catchingUp → (x.decision now).notes = [note .waitEnded, note .catchUpBegun]) ∧
    (x.state ≠ .catchingUp → x.state ≠ .waiting →
      (y = .running → (x.decision now).notes = []) ∧
      (y = .waiting → (x.decision now).notes = [note .waitBegun]) ∧
      (y = .catchingUp → (x.decision now).notes = [note .catchUpBegun]))) ∧
  (∀ (s : State) (l : LineId) (d : LineStep), s.applyLine l d = d.notes.foldl
    (fun u n => u.withRecord (s.levelOf .clock) (.clockLine l n.event n.fault n.position)) (s.setLine l d.line)) ∧
  ∀ (s : State) (l : LineId) (t : Nat), s.initialising = false → (s.line l).impulse = none → t ≤ s.tb.instant →
    ((s.line l).nextStart = some t → exec (.impulseStart l) s = .next (s.setLine l { s.line l with
      impulse := some ⟨.step, (s.line l).lastPolarity.opposite, s.tb.instant, s.tb.instant + ms (s.line l).width, none⟩,
      lastStart := some s.tb.instant, nextStart := none, nextProbe := none })) ∧
    ((s.line l).state = .fault → (s.line l).nextProbe = some t →
      (∀ b, (s.line l).lastStart = some b → b + ms (s.line l).spacing ≤ s.tb.instant) →
      exec (.probeStart l) s = .next (s.setLine l { s.line l with
        impulse := some ⟨.probe, (s.line l).lastPolarity.opposite, s.tb.instant, s.tb.instant + ms (s.line l).width, none⟩,
        lastStart := some s.tb.instant, nextStart := none, nextProbe := none }))

/-- The sample of an impulse: healthy and low let it run on, high cuts it at once into FAULT SHORT. The end of a step impulse: judged OK, d
advances by exactly one step, the last polarity becomes the impulse's and a decision follows; judged LOW, FAULT OPEN with d and the last
polarity unchanged (R138, R140, R141). The end of a probe: judged OK, whatever the target, it steps the dials and clears the fault with its
record ahead of the decision; judged LOW, or sampled high, it sets the next probe, with a record when the fault is of another kind (R142).
With halt pending the result of the impulse, be it a step or a probe, is applied with its fault or clear record, and the line is then HALTED
at its end or cut, with any fault kind kept (R141 to R143). That FAULT CLEARED carries the fault kind as absent is log entry 26 (DEDUCED),
and that the probe base stays when a fault clears is log entry 29 (DEDUCED). -/
def Obligations.SampleAndEndOfAnImpulse : Prop :=
  (∀ (s : State) (l : LineId) (i : Impulse) (x : Line), s.initialising = false → x = s.line l → x.impulse = some i →
    i.judged = none → i.start + (i.finish - i.start) / 2 ≤ s.tb.instant →
    exec (.impulseSample l .healthy) s = .next (s.setLine l { x with impulse := some { i with judged := some .healthy } }) ∧
    exec (.impulseSample l .below) s = .next (s.setLine l { x with impulse := some { i with judged := some .below } }) ∧
    (∀ y : State, x.haltPending = false →
      y = s.setLine l { x with
        impulse := none, state := .fault, faultKind := some .short, nextStart := none,
        nextProbe := some (s.tb.instant + secs x.probeInterval), probeBase := some s.tb.instant } →
      (i.purpose = .step ∨ x.faultKind ≠ some .short → exec (.impulseSample l .above) s =
        .next (y.withRecord (s.levelOf .clock) (.clockLine l .faultRaised (some .short) x.position))) ∧
      (i.purpose = .probe → x.faultKind = some .short → exec (.impulseSample l .above) s = .next y))) ∧
  (∀ (s : State) (l : LineId) (i : Impulse) (x : Line), s.initialising = false → x = s.line l → x.impulse = some i →
    i.purpose = .step → x.haltPending = false → i.finish ≤ s.tb.instant →
    (∀ d : LineStep, i.judged = some .healthy →
      d = Line.decision { x with
        impulse := none, position := (x.position + 1) % x.period.steps, lastPolarity := i.polarity } s.tb.instant →
      ∃ u : State, exec (.impulseEnd l) s = .next u ∧ u = s.applyLine l d ∧ u.line l = d.line ∧
        d.line.position = (x.position + 1) % x.period.steps ∧ d.line.lastPolarity = i.polarity ∧
        d.line.impulse = none ∧ d.line.lastStart = x.lastStart ∧ d.line.target = x.target ∧
        (∀ k, k ≠ l → u.line k = s.line k) ∧ u = { s with lines := u.lines, journal := u.journal }) ∧
    (i.judged = some .below → exec (.impulseEnd l) s = .next ((s.setLine l { x with
      impulse := none, state := .fault, faultKind := some .opened, nextStart := none,
      nextProbe := some (i.finish + secs x.probeInterval),
      probeBase := some i.finish }).withRecord (s.levelOf .clock)
        (.clockLine l .faultRaised (some .opened) x.position)))) ∧
  (∀ (s : State) (l : LineId) (i : Impulse) (x : Line), s.initialising = false → x = s.line l → x.impulse = some i →
    i.purpose = .probe → x.state = .fault → x.haltPending = false → i.finish ≤ s.tb.instant →
    (∀ (y : Line) (u : State), i.judged = some .healthy →
      y = (Line.decision { x with
        impulse := none, position := (x.position + 1) % x.period.steps, lastPolarity := i.polarity, faultKind := none }
        s.tb.instant).line →
      u = (s.setLine l y).withRecord (s.levelOf .clock) (.clockLine l .faultCleared none ((x.position + 1) % x.period.steps)) →
      (y.state = .running → exec (.impulseEnd l) s = .next u) ∧
      (y.state = .waiting → exec (.impulseEnd l) s =
        .next (u.withRecord (s.levelOf .clock) (.clockLine l .waitBegun none ((x.position + 1) % x.period.steps)))) ∧
      (y.state = .catchingUp → exec (.impulseEnd l) s =
        .next (u.withRecord (s.levelOf .clock) (.clockLine l .catchUpBegun none ((x.position + 1) % x.period.steps)))) ∧
      (y.state = .running ∨ y.state = .waiting ∨ y.state = .catchingUp) ∧
      y.position = (x.position + 1) % x.period.steps ∧ y.lastPolarity = i.polarity ∧ y.faultKind = none ∧ y.impulse = none ∧
      y.target = x.target ∧ y.probeBase = x.probeBase ∧
      (x.target = none → y.state = .waiting ∧ y.nextStart = none)) ∧
    (∀ y : State, i.judged = some .below →
      y = s.setLine l { x with
        impulse := none, faultKind := some .opened, nextStart := none,
        nextProbe := some (i.finish + secs x.probeInterval), probeBase := some i.finish } →
      (x.faultKind = some .opened → exec (.impulseEnd l) s = .next y) ∧
      (x.faultKind ≠ some .opened → exec (.impulseEnd l) s =
        .next (y.withRecord (s.levelOf .clock) (.clockLine l .faultRaised (some .opened) x.position))))) ∧
  ∀ (s : State) (l : LineId) (i : Impulse) (x : Line), s.initialising = false → x = s.line l → x.impulse = some i →
    x.haltPending = true →
    (∀ (y : Line) (u : State), i.finish ≤ s.tb.instant → i.judged = some .healthy →
      y = { x with
        impulse := none, position := (x.position + 1) % x.period.steps, lastPolarity := i.polarity, state := .halted,
        faultKind := if i.purpose = .probe then none else x.faultKind, haltPending := false, nextStart := none, nextProbe := none } →
      u = (if i.purpose = .probe then (s.setLine l y).withRecord (s.levelOf .clock)
        (.clockLine l .faultCleared none ((x.position + 1) % x.period.steps)) else s.setLine l y) →
      exec (.impulseEnd l) s = .next (u.withRecord (s.levelOf .clock)
        (.clockLine l .halted y.faultKind ((x.position + 1) % x.period.steps)))) ∧
    ∀ (kind : FaultKind) (ended : Nat) (u : State),
      u = s.setLine l { x with
        impulse := none, faultKind := some kind, state := .halted, haltPending := false, nextStart := none,
        nextProbe := none, probeBase := some ended } →
      ∀ v : State, v = (if i.purpose = .step ∨ x.faultKind ≠ some kind then
        u.withRecord (s.levelOf .clock) (.clockLine l .faultRaised (some kind) x.position) else u) →
      (kind = .opened → ended = i.finish → i.finish ≤ s.tb.instant → i.judged = some .below →
        exec (.impulseEnd l) s = .next (v.withRecord (s.levelOf .clock) (.clockLine l .halted (some kind) x.position))) ∧
      (kind = .short → ended = s.tb.instant → i.judged = none → i.start + (i.finish - i.start) / 2 ≤ s.tb.instant →
        exec (.impulseSample l .above) s =
          .next (v.withRecord (s.levelOf .clock) (.clockLine l .halted (some kind) x.position)))

/-- SET LINE, SET POSITION, HALT and RUN (R134, R135, R143 to R145). SET LINE takes its settings clamped and rounded in the order of
R134, the spacing against the width just taken, and answers with them: in an impulse, and on a HALTED or UNSET line, they are kept; a
following line decides; on a FAULT line the next probe is the base with the new interval. Another period makes the line UNSET, and is
refused with BUSY in an impulse. SET POSITION is refused with BUSY in an impulse; a HALTED or FAULT line keeps its state, and an UNSET
or following one decides, its POSITION SET record ahead of the decision's. HALT stops a line of any other state at once, is kept
pending in an impulse, and changes nothing on a HALTED one. RUN on a HALTED line without a fault decides, whatever the target, on one
with a fault goes back to FAULT with a probe due at once, and on any other line clears halt pending; HALT and RUN are refused with
STATE on an UNSET line. A line number, a period code, a polarity code or a position that names none is refused with RANGE. That SET
POSITION repeats the position and the polarity in its answer is log entry 22 (DEDUCED). -/
def Obligations.LineRequestsOnARestingLine : Prop :=
  (∀ (s : State) (r : Request) (l : LineId) (period : Period) (width spacing wait probe w b v i : Nat) (changed : Bool)
    (x y : Line) (answer : Byte → Reply), s.ready → x = s.line l →
    width < 65536 → spacing < 65536 → wait < 65536 → probe < 65536 →
    w = (max 100 (min 2000 width) + 25) / 50 * 50 → b = (max (w + 200) (min 10000 spacing) + 25) / 50 * 50 →
    v = min 360 wait → i = max 10 (min 600 probe) →
    (changed = false ↔ w = width ∧ b = spacing ∧ v = wait ∧ i = probe) →
    y = { x with width := w, spacing := b, waitWindow := v, probeInterval := i } →
    (∀ z, answer z = taken changed ([period.code] ++ be 2 w ++ be 2 b ++ be 2 v ++ be 2 i ++ [z])) →
    r.params = [BitVec.ofNat 8 l.val, period.code] ++ be 2 width ++ be 2 spacing ++ be 2 wait ++ be 2 probe →
    (x.period = period →
      (x.impulse ≠ none ∨ x.state = .halted ∨ x.state = .unset → exec (.setLine r) s =
        .next (((s.taking 50 r).setLine l y).respond 50 r (answer x.state.code))) ∧
      (x.impulse = none → x.state = .running ∨ x.state = .catchingUp ∨ x.state = .waiting → exec (.setLine r) s =
        .next (((s.taking 50 r).applyLine l (y.decision s.tb.instant)).respond 50 r
          (answer (y.decision s.tb.instant).line.state.code))) ∧
      (x.impulse = none → x.state = .fault →
        (∀ t, x.probeBase = some t → exec (.setLine r) s =
          .next (((s.taking 50 r).setLine l { y with nextProbe := some (t + secs i) }).respond 50 r (answer 5))) ∧
        (x.probeBase = none → exec (.setLine r) s = .next (((s.taking 50 r).setLine l y).respond 50 r (answer 5))))) ∧
    (x.period ≠ period → x.impulse = none → exec (.setLine r) s =
      .next ((((s.taking 50 r).setLine l { y with
        period := period, state := .unset,
        position := 0, lastPolarity := .negative, faultKind := none, haltPending := false, nextStart := none,
        nextProbe := none, probeBase := none, target := s.tb.target period }).withRecord (s.levelOf .clock)
          (.clockLine l .unset x.faultKind 0)).respond 50 r (answer 0))) ∧
    (x.period ≠ period → x.impulse ≠ none →
      exec (.setLine r) s = .next ((s.taking 50 r).respond 50 r (.refused .busy)))) ∧
  (∀ (s : State) (r : Request) (l : LineId) (d : Nat) (k : Polarity) (x y : Line), s.ready → x = s.line l → d < 65536 →
    y = { x with position := d, lastPolarity := k } → r.params = [BitVec.ofNat 8 l.val] ++ be 2 d ++ [k.code] →
    (x.period.steps ≤ d → exec (.setPosition r) s = .next ((s.taking 51 r).respond 51 r (.refused .range))) ∧
    (d < x.period.steps → x.impulse ≠ none →
      exec (.setPosition r) s = .next ((s.taking 51 r).respond 51 r (.refused .busy))) ∧
    (d < x.period.steps → x.impulse = none →
      (x.state = .halted ∨ x.state = .fault → exec (.setPosition r) s =
        .next ((((s.taking 51 r).setLine l y).withRecord (s.levelOf .clock) (.clockLine l .positionSet x.faultKind d)).respond 51 r
          (.done (be 2 d ++ [k.code, x.state.code])))) ∧
      (x.state ≠ .halted → x.state ≠ .fault → exec (.setPosition r) s =
        .next (((s.taking 51 r).applyLine l ⟨(y.decision s.tb.instant).line,
          ⟨.positionSet, x.faultKind, d⟩ :: (y.decision s.tb.instant).notes⟩).respond 51 r
            (.done (be 2 d ++ [k.code, (y.decision s.tb.instant).line.state.code])))))) ∧
  (∀ (s : State) (r : Request) (l : LineId), s.ready →
    (r.params = [BitVec.ofNat 8 l.val] →
      ((s.line l).state ≠ .halted → (s.line l).state ≠ .unset → (s.line l).impulse = none → exec (.halt r) s =
        .next ((((s.taking 52 r).setLine l { s.line l with
          state := .halted, haltPending := false, nextStart := none, nextProbe := none }).withRecord (s.levelOf .clock)
            (.clockLine l .halted (s.line l).faultKind (s.line l).position)).respond 52 r (.done [4, 0]))) ∧
      ((s.line l).state ≠ .halted → (s.line l).state ≠ .unset → (s.line l).impulse ≠ none → exec (.halt r) s =
        .next (((s.taking 52 r).setLine l { s.line l with haltPending := true }).respond 52 r
          (.done [(s.line l).state.code, 1]))) ∧
      ((s.line l).state = .halted → exec (.halt r) s =
        .next ((s.taking 52 r).respond 52 r (.done [4, flag (s.line l).haltPending])))) ∧
    ((s.line l).state = .halted → (s.line l).faultKind = none → (s.line l).target = none →
      (s.line l).haltPending = false → r.params = [BitVec.ofNat 8 l.val] →
      ∃ u : State, exec (.run r) s = .next (u.respond 53 r (.done [3, 0])) ∧
        u.line l = { s.line l with state := .waiting, nextStart := none } ∧ (∀ k, k ≠ l → u.line k = s.line k) ∧
        u = { s.taking 53 r with lines := u.lines, journal := u.journal }) ∧
    ((s.line l).state = .unset → r.params = [BitVec.ofNat 8 l.val] →
      exec (.halt r) s = .next ((s.taking 52 r).respond 52 r (.refused .state)) ∧
      exec (.run r) s = .next ((s.taking 53 r).respond 53 r (.refused .state)))) ∧
  (∀ (s : State) (r : Request) (l : LineId) (x y : Line) (u : State), s.ready → x = s.line l → r.params = [BitVec.ofNat 8 l.val] →
    y = (x.decision s.tb.instant).line →
    u = ((s.taking 53 r).setLine l y).withRecord (s.levelOf .clock) (.clockLine l .run none x.position) →
    (x.state = .halted → x.faultKind = none →
      (y.state = .running → exec (.run r) s = .next (u.respond 53 r (.done [1, flag x.haltPending]))) ∧
      (y.state = .waiting → exec (.run r) s = .next ((u.withRecord (s.levelOf .clock)
        (.clockLine l .waitBegun none x.position)).respond 53 r (.done [3, flag x.haltPending]))) ∧
      (y.state = .catchingUp → exec (.run r) s = .next ((u.withRecord (s.levelOf .clock)
        (.clockLine l .catchUpBegun none x.position)).respond 53 r (.done [2, flag x.haltPending]))) ∧
      (y.state = .running ∨ y.state = .waiting ∨ y.state = .catchingUp)) ∧
    (∀ k, x.state = .halted → x.faultKind = some k → exec (.run r) s =
      .next ((((s.taking 53 r).setLine l { x with
        state := .fault, nextProbe := some s.tb.instant, probeBase := none }).withRecord (s.levelOf .clock)
          (.clockLine l .run (some k) x.position)).respond 53 r (.done [5, flag x.haltPending]))) ∧
    (x.state ≠ .halted → x.state ≠ .unset → exec (.run r) s =
      .next (((s.taking 53 r).setLine l { x with haltPending := false }).respond 53 r (.done [x.state.code, 0])))) ∧
  ∀ (s : State) (r : Request) (line code : Byte), s.ready →
    (r.params = [line] → 4 ≤ line.toNat →
      exec (.halt r) s = .next ((s.taking 52 r).respond 52 r (.refused .range)) ∧
      exec (.run r) s = .next ((s.taking 53 r).respond 53 r (.refused .range))) ∧
    (∀ d1 d0, r.params = [line, d1, d0, code] → 4 ≤ line.toNat ∨ 2 ≤ code.toNat →
      exec (.setPosition r) s = .next ((s.taking 51 r).respond 51 r (.refused .range))) ∧
    (∀ w1 w0 b1 b0 v1 v0 i1 i0, r.params = [line, code, w1, w0, b1, b0, v1, v0, i1, i0] → 4 ≤ line.toNat ∨ 2 ≤ code.toNat →
      exec (.setLine r) s = .next ((s.taking 50 r).respond 50 r (.refused .range)))

/-! ## The journal -/

/-- R160: how a sequence number is judged against the journal; READ JOURNAL and RELEASE judge theirs so against the journal as it stands
when they are carried out. -/
def Obligations.SequenceNumbersAreJudged : Prop :=
  (∀ (s : State) (r : Request) (n3 n2 n1 n0 : Byte), s.ready → r.params = [n3, n2, n1, n0] →
    exec (.readJournal r) s = .next ((s.taking 62 r).respond 62 r (.done (s.journal.readData (seqOf [n3, n2, n1, n0])))) ∧
    exec (.release r) s = .next (((s.taking 63 r).setJournal (s.journal.release s.tb.now (seqOf [n3, n2, n1, n0]))).respond 63 r
      (.done ((s.journal.release s.tb.now (seqOf [n3, n2, n1, n0])).releaseData
        (s.journal.releaseCount (seqOf [n3, n2, n1, n0])))))) ∧
  ∀ (j : Journal) (n : SeqNo),
    ((n - j.next).toNat < 2147483648 → j.place n = .ahead) ∧
    (¬ (n - j.next).toNat < 2147483648 → 1 ≤ (j.next - n).toNat → (j.next - n).toNat ≤ j.fill → j.place n = .held) ∧
    (¬ (n - j.next).toNat < 2147483648 → ¬ (1 ≤ (j.next - n).toNat ∧ (j.next - n).toNat ≤ j.fill) → j.place n = .behind) ∧
    (j.fill = 0 → j.place n = .ahead ∨ j.place n = .behind) ∧
    (j.place n = .ahead → j.read n = [] ∧ j.releaseCount n = j.fill) ∧
    (j.place n = .behind → j.read n = readFrom j.records ∧ j.releaseCount n = 0) ∧
    (j.place n = .held → j.read n = readFrom (j.records.drop (j.fill - (j.next - n).toNat)) ∧
      j.releaseCount n = j.fill - (j.next - n).toNat + 1)

/-- Admission and loss by the tables of R156 to R158: with no gap pending a record is admitted below 4,096 records or, under the reserve
level, below 3,840; a loss makes a gap; with a gap pending the GAP goes ahead of the record, both or neither. A record of a disabled class
is not generated at all (R152). -/
def Obligations.AdmissionLossAndGap : Prop :=
  (∀ (j : Journal) (now : Dated) (o : Offer), (j.classes.get (classOf o.body)).enabled = true →
    (j.gap = none → j.fill < (if j.reserve ≤ o.level then 4096 else 3840) →
      j.offer now o = { j with records := j.records ++ [⟨j.next, o⟩], next := j.next + 1 }) ∧
    (j.gap = none → (if j.reserve ≤ o.level then 4096 else 3840) ≤ j.fill → ∃ n : LostCounts,
      j.offer now o = { j with gap := some ⟨n, o.dated, o.dated⟩ } ∧
      n = LostCounts.raise ⟨0, 0, 0, 0, 0, 0, 0⟩ (classOf o.body)) ∧
    (∀ g, j.gap = some g → j.fill + 1 < (if j.reserve ≤ o.level then 4096 else 3840) → j.offer now o =
      { j with
        records := j.records ++ [⟨j.next, ⟨7, now, false, false, .gap g.lost g.first g.last⟩⟩, ⟨j.next + 1, o⟩],
        next := j.next + 1 + 1, gap := none }) ∧
    (∀ g, j.gap = some g → (if j.reserve ≤ o.level then 4096 else 3840) ≤ j.fill + 1 →
      j.offer now o = { j with gap := some ⟨g.lost.raise (classOf o.body), g.first, o.dated⟩ })) ∧
  (∀ (j : Journal) (now : Dated) (o : Offer), (j.classes.get (classOf o.body)).enabled = false → j.offer now o = j)

/-- SET CLASS sets the level, clamped to 7, and the enable of any class but SYSTEM; a class code that names none, and an enable octet other
than 0 and 1, are refused with RANGE (R153). SET ALERT takes its three settings clamped to their ranges; a reserve level raised so far that
more than 3,840 records held lie below it is refused whole with STATE (R163). The ALERT output is high while a record held reaches the alert
threshold, the fill the watermark, or a gap is pending (R164). RELEASE of a held number removes every record up to it and, when a gap is
pending, writes the GAP at once (R162). -/
def Obligations.JournalSettingsAndRelease : Prop :=
  (∀ j : Journal, j.alert = true ↔
    (∃ x ∈ j.records, j.threshold ≤ x.offer.level) ∨ j.watermark ≤ j.records.length ∨ j.gap ≠ none) ∧
  (∀ (s : State) (r : Request), s.ready →
    (∀ (c v e : Byte) (k : JournalClass) (on : Bool), JournalClass.ofCode c.toNat = some k → flagOfCode e.toNat = some on →
      r.params = [c, v, e] → ∃ u : State,
        exec (.setClass r) s = .next (u.respond 60 r
          (taken (decide (7 < v.toNat)) [BitVec.ofNat 8 (min 7 v.toNat), if on then 1 else 0])) ∧
        u.journal.classes.get k = ⟨min 7 v.toNat, on⟩ ∧ (∀ m, m ≠ k → u.journal.classes.get m = s.journal.classes.get m) ∧
        u = (s.taking 60 r).setJournal { s.journal with classes := u.journal.classes }) ∧
    (∀ c v e : Byte, 6 < c.toNat ∨ c.toNat = 0 ∨ 2 ≤ e.toNat → r.params = [c, v, e] → exec (.setClass r) s =
      .next ((s.taking 60 r).respond 60 r (.refused .range))) ∧
    (∀ (t v : Byte) (h reserve : Nat), h < 65536 → reserve = max 1 (min 7 v.toNat) → r.params = [t] ++ be 2 h ++ [v] →
      (s.journal.reserve < reserve → 3840 < s.journal.records.countP (fun x => decide (x.offer.level < reserve)) →
        exec (.setAlert r) s = .next ((s.taking 61 r).respond 61 r (.refused .state))) ∧
      (reserve ≤ s.journal.reserve ∨ s.journal.records.countP (fun x => decide (x.offer.level < reserve)) ≤ 3840 →
        ∃ u : State, exec (.setAlert r) s = .next (u.respond 61 r
            (taken (decide (7 < t.toNat ∨ h < 256 ∨ 4096 < h ∨ v.toNat = 0 ∨ 7 < v.toNat))
              ([BitVec.ofNat 8 (min 7 t.toNat)] ++ be 2 (max 256 (min 4096 h)) ++ [BitVec.ofNat 8 reserve] ++
                [flag u.journal.alert]))) ∧
          u = (s.taking 61 r).setJournal { s.journal with
            threshold := min 7 t.toNat, watermark := max 256 (min 4096 h), reserve := reserve }))) ∧
  (∀ (s : State) (r : Request) (n3 n2 n1 n0 : Byte), s.ready → r.params = [n3, n2, n1, n0] →
    s.journal.place (seqOf [n3, n2, n1, n0]) = .held →
    ∃ u : State, exec (.release r) s = .next (u.respond 63 r (.done (be 2 (s.journal.releaseCount (seqOf [n3, n2, n1, n0])) ++
        be 2 u.journal.fill ++ be 4 (u.journal.oldest.getD u.journal.newest).toNat))) ∧
      (s.journal.gap = none → u.journal = { s.journal with
        records := s.journal.records.drop (s.journal.releaseCount (seqOf [n3, n2, n1, n0])) }) ∧
      (∀ g, s.journal.gap = some g → u.journal = { s.journal with
        records := s.journal.records.drop (s.journal.releaseCount (seqOf [n3, n2, n1, n0])) ++
          [⟨s.journal.next, ⟨7, s.tb.now, false, false, .gap g.lost g.first g.last⟩⟩],
        next := s.journal.next + 1, gap := none }) ∧
      u = (s.taking 63 r).setJournal u.journal)

/-! ## The device laws -/

/-- A step keeps the rate correction within ±50,000 ppb and the slew within ±500,000 ns (R55), and the second of day and that of a pending
label in their range (R48, R50, R53). -/
def Obligations.TimebaseLawsAreKept : Prop :=
  (∀ s t : State, s.tb.lawful → step s = .next t → t.tb.lawful) ∧
  (∀ s t : State, s.tb.inDay → step s = .next t → t.tb.inDay)

/-- Whatever the command, and when none waits, the elapsed scale is not set back and the set flag is not cleared but by a device reset (R51,
R147). -/
def Obligations.OnlyDeviceResetTurnsBack : Prop :=
  (∀ (i : Instr) (s t : State), (∀ c k, i ≠ .deviceReset c k) → exec i s = .next t → s.tb.elapsed ≤ t.tb.elapsed) ∧
  (∀ (i : Instr) (s t : State), (∀ c k, i ≠ .deviceReset c k) → exec i s = .next t → s.tb.setFlag = true → t.tb.setFlag = true) ∧
  (∀ s t : State, s.pending = [] → step s = .next t →
    s.tb.elapsed ≤ t.tb.elapsed ∧ (s.tb.setFlag = true → t.tb.setFlag = true))

/-- A step keeps the journal in write order with consecutive sequence numbers (R155), and within its 4096 records with at most 3,840 of
them below the reserve level (R154, R156, R163). -/
def Obligations.JournalLawsAreKept : Prop :=
  (∀ s t : State, s.journal.consecutive → step s = .next t → t.journal.consecutive) ∧
  (∀ s t : State, s.journal.withinReserve → step s = .next t → t.journal.withinReserve)

/-- A step keeps at most one bank ARMED and at most one ACTIVE (R114), an OPEN entry in every RETIRING bank (R118), every OPEN entry exactly
once in the open list and nothing else there (R122), the index ranges of open windows, and on one port their address ranges, apart (R26,
R27), every stale record out of supervision (R38), and the table of element records in its canonical form: indices rising, none above 2047
(R30). That the present records are kept as a list with rising indices is the model's choice (log entry 36). -/
def Obligations.BankLawAndElementTableAreKept : Prop :=
  (∀ s t : State, s.banksLawful → step s = .next t → t.banksLawful) ∧
  (∀ s t : State, s.retiringLawful → step s = .next t → t.retiringLawful) ∧
  (∀ s t : State, s.openListLawful → step s = .next t → t.openListLawful) ∧
  (∀ s t : State, s.windowsLawful → step s = .next t → t.windowsLawful) ∧
  (∀ s t : State, s.staleLawful → step s = .next t → t.staleLawful) ∧
  (∀ s t : State, tableWf s.elements → step s = .next t → tableWf t.elements)

/-- R112: a step keeps every reference count equal to the number of entries that name the record; between the second and the third step of
RESET TABLES no bank holds an entry (R181). -/
def Obligations.ReferenceCountsStayTrue : Prop := ∀ s t : State, s.refsLawful → step s = .next t → t.refsLawful

/-- A step keeps the request queue, the response queues and the open list within their capacities (R15, R122, R170), every displayed
position on its dial (R133, R140), at least one port with its accept flag set (R175), and every UP insertion backlog, with what is still to
be sent of a response, within the 630 bits of the longest one, its content being of 64 octets at most and a route of 6 items (R16, R111). -/
def Obligations.CapacitiesAndSettingsAreKept : Prop :=
  (∀ s t : State, s.queuesBounded → step s = .next t → t.queuesBounded) ∧
  (∀ s t : State, s.positionsLawful → step s = .next t → t.positionsLawful) ∧
  (∀ s t : State, s.someAccepts → step s = .next t → t.someAccepts) ∧
  (∀ s t : State, s.backlogLawful → step s = .next t → t.backlogLawful)

/-- The state right after reset meets every law above. -/
def Obligations.ResetMeetsTheLaws : Prop :=
  State.reset.tb.lawful ∧ State.reset.tb.inDay ∧ State.reset.journal.consecutive ∧ State.reset.journal.withinReserve ∧
  tableWf State.reset.elements ∧ State.reset.banksLawful ∧ State.reset.refsLawful ∧ State.reset.queuesBounded ∧
  State.reset.positionsLawful ∧ State.reset.someAccepts ∧ State.reset.backlogLawful ∧ State.reset.retiringLawful ∧
  State.reset.openListLawful ∧ State.reset.windowsLawful ∧ State.reset.staleLawful
end

