-- ==== Sys2Proof/Laws/State.lean ====
section
/-! SUPPORT. Sys2Proof/Laws/State.lean: what each update of one block leaves, one lemma for each field and update, and the readers over
the updates of their own block. -/

namespace Sys2Proof.Machine

variable (s : State)

/-! ## `setTb` -/

@[simp] theorem State.setTb_pending (tb : Timebase) : (s.setTb tb).pending = s.pending := rfl
@[simp] theorem State.setTb_initEnd (tb : Timebase) : (s.setTb tb).initEnd = s.initEnd := rfl
@[simp] theorem State.setTb_resetCause (tb : Timebase) : (s.setTb tb).resetCause = s.resetCause := rfl
@[simp] theorem State.setTb_straps (tb : Timebase) : (s.setTb tb).straps = s.straps := rfl
@[simp] theorem State.setTb_ports (tb : Timebase) : (s.setTb tb).ports = s.ports := rfl
@[simp] theorem State.setTb_latchInterval (tb : Timebase) : (s.setTb tb).latchInterval = s.latchInterval := rfl
@[simp] theorem State.setTb_latchSeq (tb : Timebase) : (s.setTb tb).latchSeq = s.latchSeq := rfl
@[simp] theorem State.setTb_windows (tb : Timebase) : (s.setTb tb).windows = s.windows := rfl
@[simp] theorem State.setTb_elements (tb : Timebase) : (s.setTb tb).elements = s.elements := rfl
@[simp] theorem State.setTb_tb (tb : Timebase) : (s.setTb tb).tb = tb := rfl
@[simp] theorem State.setTb_bankA (tb : Timebase) : (s.setTb tb).bankA = s.bankA := rfl
@[simp] theorem State.setTb_bankB (tb : Timebase) : (s.setTb tb).bankB = s.bankB := rfl
@[simp] theorem State.setTb_openList (tb : Timebase) : (s.setTb tb).openList = s.openList := rfl
@[simp] theorem State.setTb_lines (tb : Timebase) : (s.setTb tb).lines = s.lines := rfl
@[simp] theorem State.setTb_journal (tb : Timebase) : (s.setTb tb).journal = s.journal := rfl
@[simp] theorem State.setTb_service (tb : Timebase) : (s.setTb tb).service = s.service := rfl
@[simp] theorem State.setTb_choices (tb : Timebase) : (s.setTb tb).choices = s.choices := rfl

/-! ## `setJournal` -/

@[simp] theorem State.setJournal_pending (j : Journal) : (s.setJournal j).pending = s.pending := rfl
@[simp] theorem State.setJournal_initEnd (j : Journal) : (s.setJournal j).initEnd = s.initEnd := rfl
@[simp] theorem State.setJournal_resetCause (j : Journal) : (s.setJournal j).resetCause = s.resetCause := rfl
@[simp] theorem State.setJournal_straps (j : Journal) : (s.setJournal j).straps = s.straps := rfl
@[simp] theorem State.setJournal_ports (j : Journal) : (s.setJournal j).ports = s.ports := rfl
@[simp] theorem State.setJournal_latchInterval (j : Journal) : (s.setJournal j).latchInterval = s.latchInterval := rfl
@[simp] theorem State.setJournal_latchSeq (j : Journal) : (s.setJournal j).latchSeq = s.latchSeq := rfl
@[simp] theorem State.setJournal_windows (j : Journal) : (s.setJournal j).windows = s.windows := rfl
@[simp] theorem State.setJournal_elements (j : Journal) : (s.setJournal j).elements = s.elements := rfl
@[simp] theorem State.setJournal_tb (j : Journal) : (s.setJournal j).tb = s.tb := rfl
@[simp] theorem State.setJournal_bankA (j : Journal) : (s.setJournal j).bankA = s.bankA := rfl
@[simp] theorem State.setJournal_bankB (j : Journal) : (s.setJournal j).bankB = s.bankB := rfl
@[simp] theorem State.setJournal_openList (j : Journal) : (s.setJournal j).openList = s.openList := rfl
@[simp] theorem State.setJournal_lines (j : Journal) : (s.setJournal j).lines = s.lines := rfl
@[simp] theorem State.setJournal_journal (j : Journal) : (s.setJournal j).journal = j := rfl
@[simp] theorem State.setJournal_service (j : Journal) : (s.setJournal j).service = s.service := rfl
@[simp] theorem State.setJournal_choices (j : Journal) : (s.setJournal j).choices = s.choices := rfl

/-! ## `setPort` -/

@[simp] theorem State.setPort_pending (p : PortId) (x : Port) : (s.setPort p x).pending = s.pending := rfl
@[simp] theorem State.setPort_initEnd (p : PortId) (x : Port) : (s.setPort p x).initEnd = s.initEnd := rfl
@[simp] theorem State.setPort_resetCause (p : PortId) (x : Port) : (s.setPort p x).resetCause = s.resetCause := rfl
@[simp] theorem State.setPort_straps (p : PortId) (x : Port) : (s.setPort p x).straps = s.straps := rfl
@[simp] theorem State.setPort_ports (p : PortId) (x : Port) : (s.setPort p x).ports = s.ports.set p x := rfl
@[simp] theorem State.setPort_latchInterval (p : PortId) (x : Port) : (s.setPort p x).latchInterval = s.latchInterval := rfl
@[simp] theorem State.setPort_latchSeq (p : PortId) (x : Port) : (s.setPort p x).latchSeq = s.latchSeq := rfl
@[simp] theorem State.setPort_windows (p : PortId) (x : Port) : (s.setPort p x).windows = s.windows := rfl
@[simp] theorem State.setPort_elements (p : PortId) (x : Port) : (s.setPort p x).elements = s.elements := rfl
@[simp] theorem State.setPort_tb (p : PortId) (x : Port) : (s.setPort p x).tb = s.tb := rfl
@[simp] theorem State.setPort_bankA (p : PortId) (x : Port) : (s.setPort p x).bankA = s.bankA := rfl
@[simp] theorem State.setPort_bankB (p : PortId) (x : Port) : (s.setPort p x).bankB = s.bankB := rfl
@[simp] theorem State.setPort_openList (p : PortId) (x : Port) : (s.setPort p x).openList = s.openList := rfl
@[simp] theorem State.setPort_lines (p : PortId) (x : Port) : (s.setPort p x).lines = s.lines := rfl
@[simp] theorem State.setPort_journal (p : PortId) (x : Port) : (s.setPort p x).journal = s.journal := rfl
@[simp] theorem State.setPort_service (p : PortId) (x : Port) : (s.setPort p x).service = s.service := rfl
@[simp] theorem State.setPort_choices (p : PortId) (x : Port) : (s.setPort p x).choices = s.choices := rfl

/-! ## `setLine` -/

@[simp] theorem State.setLine_pending (l : LineId) (x : Line) : (s.setLine l x).pending = s.pending := rfl
@[simp] theorem State.setLine_initEnd (l : LineId) (x : Line) : (s.setLine l x).initEnd = s.initEnd := rfl
@[simp] theorem State.setLine_resetCause (l : LineId) (x : Line) : (s.setLine l x).resetCause = s.resetCause := rfl
@[simp] theorem State.setLine_straps (l : LineId) (x : Line) : (s.setLine l x).straps = s.straps := rfl
@[simp] theorem State.setLine_ports (l : LineId) (x : Line) : (s.setLine l x).ports = s.ports := rfl
@[simp] theorem State.setLine_latchInterval (l : LineId) (x : Line) : (s.setLine l x).latchInterval = s.latchInterval := rfl
@[simp] theorem State.setLine_latchSeq (l : LineId) (x : Line) : (s.setLine l x).latchSeq = s.latchSeq := rfl
@[simp] theorem State.setLine_windows (l : LineId) (x : Line) : (s.setLine l x).windows = s.windows := rfl
@[simp] theorem State.setLine_elements (l : LineId) (x : Line) : (s.setLine l x).elements = s.elements := rfl
@[simp] theorem State.setLine_tb (l : LineId) (x : Line) : (s.setLine l x).tb = s.tb := rfl
@[simp] theorem State.setLine_bankA (l : LineId) (x : Line) : (s.setLine l x).bankA = s.bankA := rfl
@[simp] theorem State.setLine_bankB (l : LineId) (x : Line) : (s.setLine l x).bankB = s.bankB := rfl
@[simp] theorem State.setLine_openList (l : LineId) (x : Line) : (s.setLine l x).openList = s.openList := rfl
@[simp] theorem State.setLine_lines (l : LineId) (x : Line) : (s.setLine l x).lines = s.lines.set l x := rfl
@[simp] theorem State.setLine_journal (l : LineId) (x : Line) : (s.setLine l x).journal = s.journal := rfl
@[simp] theorem State.setLine_service (l : LineId) (x : Line) : (s.setLine l x).service = s.service := rfl
@[simp] theorem State.setLine_choices (l : LineId) (x : Line) : (s.setLine l x).choices = s.choices := rfl

/-! ## `setOpenList` -/

@[simp] theorem State.setOpenList_pending (l : List EntryRef) : (s.setOpenList l).pending = s.pending := rfl
@[simp] theorem State.setOpenList_initEnd (l : List EntryRef) : (s.setOpenList l).initEnd = s.initEnd := rfl
@[simp] theorem State.setOpenList_resetCause (l : List EntryRef) : (s.setOpenList l).resetCause = s.resetCause := rfl
@[simp] theorem State.setOpenList_straps (l : List EntryRef) : (s.setOpenList l).straps = s.straps := rfl
@[simp] theorem State.setOpenList_ports (l : List EntryRef) : (s.setOpenList l).ports = s.ports := rfl
@[simp] theorem State.setOpenList_latchInterval (l : List EntryRef) : (s.setOpenList l).latchInterval = s.latchInterval := rfl
@[simp] theorem State.setOpenList_latchSeq (l : List EntryRef) : (s.setOpenList l).latchSeq = s.latchSeq := rfl
@[simp] theorem State.setOpenList_windows (l : List EntryRef) : (s.setOpenList l).windows = s.windows := rfl
@[simp] theorem State.setOpenList_elements (l : List EntryRef) : (s.setOpenList l).elements = s.elements := rfl
@[simp] theorem State.setOpenList_tb (l : List EntryRef) : (s.setOpenList l).tb = s.tb := rfl
@[simp] theorem State.setOpenList_bankA (l : List EntryRef) : (s.setOpenList l).bankA = s.bankA := rfl
@[simp] theorem State.setOpenList_bankB (l : List EntryRef) : (s.setOpenList l).bankB = s.bankB := rfl
@[simp] theorem State.setOpenList_openList (l : List EntryRef) : (s.setOpenList l).openList = l := rfl
@[simp] theorem State.setOpenList_lines (l : List EntryRef) : (s.setOpenList l).lines = s.lines := rfl
@[simp] theorem State.setOpenList_journal (l : List EntryRef) : (s.setOpenList l).journal = s.journal := rfl
@[simp] theorem State.setOpenList_service (l : List EntryRef) : (s.setOpenList l).service = s.service := rfl
@[simp] theorem State.setOpenList_choices (l : List EntryRef) : (s.setOpenList l).choices = s.choices := rfl

/-! ## `setElement` -/

@[simp] theorem State.setElement_pending (i : Nat) (e : Element) : (s.setElement i e).pending = s.pending := rfl
@[simp] theorem State.setElement_initEnd (i : Nat) (e : Element) : (s.setElement i e).initEnd = s.initEnd := rfl
@[simp] theorem State.setElement_resetCause (i : Nat) (e : Element) : (s.setElement i e).resetCause = s.resetCause := rfl
@[simp] theorem State.setElement_straps (i : Nat) (e : Element) : (s.setElement i e).straps = s.straps := rfl
@[simp] theorem State.setElement_ports (i : Nat) (e : Element) : (s.setElement i e).ports = s.ports := rfl
@[simp] theorem State.setElement_latchInterval (i : Nat) (e : Element) : (s.setElement i e).latchInterval = s.latchInterval := rfl
@[simp] theorem State.setElement_latchSeq (i : Nat) (e : Element) : (s.setElement i e).latchSeq = s.latchSeq := rfl
@[simp] theorem State.setElement_windows (i : Nat) (e : Element) : (s.setElement i e).windows = s.windows := rfl
@[simp] theorem State.setElement_elements (i : Nat) (e : Element) : (s.setElement i e).elements = insert s.elements i e := rfl
@[simp] theorem State.setElement_tb (i : Nat) (e : Element) : (s.setElement i e).tb = s.tb := rfl
@[simp] theorem State.setElement_bankA (i : Nat) (e : Element) : (s.setElement i e).bankA = s.bankA := rfl
@[simp] theorem State.setElement_bankB (i : Nat) (e : Element) : (s.setElement i e).bankB = s.bankB := rfl
@[simp] theorem State.setElement_openList (i : Nat) (e : Element) : (s.setElement i e).openList = s.openList := rfl
@[simp] theorem State.setElement_lines (i : Nat) (e : Element) : (s.setElement i e).lines = s.lines := rfl
@[simp] theorem State.setElement_journal (i : Nat) (e : Element) : (s.setElement i e).journal = s.journal := rfl
@[simp] theorem State.setElement_service (i : Nat) (e : Element) : (s.setElement i e).service = s.service := rfl
@[simp] theorem State.setElement_choices (i : Nat) (e : Element) : (s.setElement i e).choices = s.choices := rfl

/-! ## `removeElement` -/

@[simp] theorem State.removeElement_pending (i : Nat) : (s.removeElement i).pending = s.pending := rfl
@[simp] theorem State.removeElement_initEnd (i : Nat) : (s.removeElement i).initEnd = s.initEnd := rfl
@[simp] theorem State.removeElement_resetCause (i : Nat) : (s.removeElement i).resetCause = s.resetCause := rfl
@[simp] theorem State.removeElement_straps (i : Nat) : (s.removeElement i).straps = s.straps := rfl
@[simp] theorem State.removeElement_ports (i : Nat) : (s.removeElement i).ports = s.ports := rfl
@[simp] theorem State.removeElement_latchInterval (i : Nat) : (s.removeElement i).latchInterval = s.latchInterval := rfl
@[simp] theorem State.removeElement_latchSeq (i : Nat) : (s.removeElement i).latchSeq = s.latchSeq := rfl
@[simp] theorem State.removeElement_windows (i : Nat) : (s.removeElement i).windows = s.windows := rfl
@[simp] theorem State.removeElement_elements (i : Nat) : (s.removeElement i).elements = erase s.elements i := rfl
@[simp] theorem State.removeElement_tb (i : Nat) : (s.removeElement i).tb = s.tb := rfl
@[simp] theorem State.removeElement_bankA (i : Nat) : (s.removeElement i).bankA = s.bankA := rfl
@[simp] theorem State.removeElement_bankB (i : Nat) : (s.removeElement i).bankB = s.bankB := rfl
@[simp] theorem State.removeElement_openList (i : Nat) : (s.removeElement i).openList = s.openList := rfl
@[simp] theorem State.removeElement_lines (i : Nat) : (s.removeElement i).lines = s.lines := rfl
@[simp] theorem State.removeElement_journal (i : Nat) : (s.removeElement i).journal = s.journal := rfl
@[simp] theorem State.removeElement_service (i : Nat) : (s.removeElement i).service = s.service := rfl
@[simp] theorem State.removeElement_choices (i : Nat) : (s.removeElement i).choices = s.choices := rfl

/-! ## `setWindow` -/

@[simp] theorem State.setWindow_pending (p : PortId) (w : LineId) (x : Window) : (s.setWindow p w x).pending = s.pending := rfl
@[simp] theorem State.setWindow_initEnd (p : PortId) (w : LineId) (x : Window) : (s.setWindow p w x).initEnd = s.initEnd := rfl
@[simp] theorem State.setWindow_resetCause (p : PortId) (w : LineId) (x : Window) : (s.setWindow p w x).resetCause = s.resetCause := rfl
@[simp] theorem State.setWindow_straps (p : PortId) (w : LineId) (x : Window) : (s.setWindow p w x).straps = s.straps := rfl
@[simp] theorem State.setWindow_ports (p : PortId) (w : LineId) (x : Window) : (s.setWindow p w x).ports = s.ports := rfl
@[simp] theorem State.setWindow_latchInterval (p : PortId) (w : LineId) (x : Window) : (s.setWindow p w x).latchInterval = s.latchInterval := rfl
@[simp] theorem State.setWindow_latchSeq (p : PortId) (w : LineId) (x : Window) : (s.setWindow p w x).latchSeq = s.latchSeq := rfl
@[simp] theorem State.setWindow_elements (p : PortId) (w : LineId) (x : Window) : (s.setWindow p w x).elements = s.elements := rfl
@[simp] theorem State.setWindow_tb (p : PortId) (w : LineId) (x : Window) : (s.setWindow p w x).tb = s.tb := rfl
@[simp] theorem State.setWindow_bankA (p : PortId) (w : LineId) (x : Window) : (s.setWindow p w x).bankA = s.bankA := rfl
@[simp] theorem State.setWindow_bankB (p : PortId) (w : LineId) (x : Window) : (s.setWindow p w x).bankB = s.bankB := rfl
@[simp] theorem State.setWindow_openList (p : PortId) (w : LineId) (x : Window) : (s.setWindow p w x).openList = s.openList := rfl
@[simp] theorem State.setWindow_lines (p : PortId) (w : LineId) (x : Window) : (s.setWindow p w x).lines = s.lines := rfl
@[simp] theorem State.setWindow_journal (p : PortId) (w : LineId) (x : Window) : (s.setWindow p w x).journal = s.journal := rfl
@[simp] theorem State.setWindow_service (p : PortId) (w : LineId) (x : Window) : (s.setWindow p w x).service = s.service := rfl
@[simp] theorem State.setWindow_choices (p : PortId) (w : LineId) (x : Window) : (s.setWindow p w x).choices = s.choices := rfl

/-! ## `taking` -/

@[simp] theorem State.taking_pending (c : Byte) (r : Request) : (s.taking c r).pending = s.pending := rfl
@[simp] theorem State.taking_initEnd (c : Byte) (r : Request) : (s.taking c r).initEnd = s.initEnd := rfl
@[simp] theorem State.taking_resetCause (c : Byte) (r : Request) : (s.taking c r).resetCause = s.resetCause := rfl
@[simp] theorem State.taking_straps (c : Byte) (r : Request) : (s.taking c r).straps = s.straps := rfl
@[simp] theorem State.taking_ports (c : Byte) (r : Request) : (s.taking c r).ports = s.ports := rfl
@[simp] theorem State.taking_latchInterval (c : Byte) (r : Request) : (s.taking c r).latchInterval = s.latchInterval := rfl
@[simp] theorem State.taking_latchSeq (c : Byte) (r : Request) : (s.taking c r).latchSeq = s.latchSeq := rfl
@[simp] theorem State.taking_windows (c : Byte) (r : Request) : (s.taking c r).windows = s.windows := rfl
@[simp] theorem State.taking_elements (c : Byte) (r : Request) : (s.taking c r).elements = s.elements := rfl
@[simp] theorem State.taking_tb (c : Byte) (r : Request) : (s.taking c r).tb = s.tb := rfl
@[simp] theorem State.taking_bankA (c : Byte) (r : Request) : (s.taking c r).bankA = s.bankA := rfl
@[simp] theorem State.taking_bankB (c : Byte) (r : Request) : (s.taking c r).bankB = s.bankB := rfl
@[simp] theorem State.taking_openList (c : Byte) (r : Request) : (s.taking c r).openList = s.openList := rfl
@[simp] theorem State.taking_lines (c : Byte) (r : Request) : (s.taking c r).lines = s.lines := rfl
@[simp] theorem State.taking_journal (c : Byte) (r : Request) : (s.taking c r).journal = s.journal := rfl
@[simp] theorem State.taking_service (c : Byte) (r : Request) : (s.taking c r).service = s.service.finish ⟨c, r⟩ := rfl
@[simp] theorem State.taking_choices (c : Byte) (r : Request) : (s.taking c r).choices = s.choices := rfl

/-! ## `respond` -/

@[simp] theorem State.respond_pending (c : Byte) (r : Request) (a : Reply) : (s.respond c r a).pending = s.pending := rfl
@[simp] theorem State.respond_initEnd (c : Byte) (r : Request) (a : Reply) : (s.respond c r a).initEnd = s.initEnd := rfl
@[simp] theorem State.respond_resetCause (c : Byte) (r : Request) (a : Reply) : (s.respond c r a).resetCause = s.resetCause := rfl
@[simp] theorem State.respond_straps (c : Byte) (r : Request) (a : Reply) : (s.respond c r a).straps = s.straps := rfl
@[simp] theorem State.respond_latchInterval (c : Byte) (r : Request) (a : Reply) : (s.respond c r a).latchInterval = s.latchInterval := rfl
@[simp] theorem State.respond_latchSeq (c : Byte) (r : Request) (a : Reply) : (s.respond c r a).latchSeq = s.latchSeq := rfl
@[simp] theorem State.respond_windows (c : Byte) (r : Request) (a : Reply) : (s.respond c r a).windows = s.windows := rfl
@[simp] theorem State.respond_elements (c : Byte) (r : Request) (a : Reply) : (s.respond c r a).elements = s.elements := rfl
@[simp] theorem State.respond_tb (c : Byte) (r : Request) (a : Reply) : (s.respond c r a).tb = s.tb := rfl
@[simp] theorem State.respond_bankA (c : Byte) (r : Request) (a : Reply) : (s.respond c r a).bankA = s.bankA := rfl
@[simp] theorem State.respond_bankB (c : Byte) (r : Request) (a : Reply) : (s.respond c r a).bankB = s.bankB := rfl
@[simp] theorem State.respond_openList (c : Byte) (r : Request) (a : Reply) : (s.respond c r a).openList = s.openList := rfl
@[simp] theorem State.respond_lines (c : Byte) (r : Request) (a : Reply) : (s.respond c r a).lines = s.lines := rfl
@[simp] theorem State.respond_journal (c : Byte) (r : Request) (a : Reply) : (s.respond c r a).journal = s.journal := rfl
@[simp] theorem State.respond_service (c : Byte) (r : Request) (a : Reply) : (s.respond c r a).service = s.service.take := rfl
@[simp] theorem State.respond_choices (c : Byte) (r : Request) (a : Reply) : (s.respond c r a).choices = s.choices := rfl

/-! ## `setResetting` -/

@[simp] theorem State.setResetting_pending (g : Option Resetting) : (s.setResetting g).pending = s.pending := rfl
@[simp] theorem State.setResetting_initEnd (g : Option Resetting) : (s.setResetting g).initEnd = s.initEnd := rfl
@[simp] theorem State.setResetting_resetCause (g : Option Resetting) : (s.setResetting g).resetCause = s.resetCause := rfl
@[simp] theorem State.setResetting_straps (g : Option Resetting) : (s.setResetting g).straps = s.straps := rfl
@[simp] theorem State.setResetting_ports (g : Option Resetting) : (s.setResetting g).ports = s.ports := rfl
@[simp] theorem State.setResetting_latchInterval (g : Option Resetting) : (s.setResetting g).latchInterval = s.latchInterval := rfl
@[simp] theorem State.setResetting_latchSeq (g : Option Resetting) : (s.setResetting g).latchSeq = s.latchSeq := rfl
@[simp] theorem State.setResetting_windows (g : Option Resetting) : (s.setResetting g).windows = s.windows := rfl
@[simp] theorem State.setResetting_elements (g : Option Resetting) : (s.setResetting g).elements = s.elements := rfl
@[simp] theorem State.setResetting_tb (g : Option Resetting) : (s.setResetting g).tb = s.tb := rfl
@[simp] theorem State.setResetting_bankA (g : Option Resetting) : (s.setResetting g).bankA = s.bankA := rfl
@[simp] theorem State.setResetting_bankB (g : Option Resetting) : (s.setResetting g).bankB = s.bankB := rfl
@[simp] theorem State.setResetting_openList (g : Option Resetting) : (s.setResetting g).openList = s.openList := rfl
@[simp] theorem State.setResetting_lines (g : Option Resetting) : (s.setResetting g).lines = s.lines := rfl
@[simp] theorem State.setResetting_journal (g : Option Resetting) : (s.setResetting g).journal = s.journal := rfl
@[simp] theorem State.setResetting_choices (g : Option Resetting) : (s.setResetting g).choices = s.choices := rfl
@[simp] theorem State.setResetting_service (g : Option Resetting) : (s.setResetting g).service = { s.service with resetting := g } := rfl

/-! ## `offer` -/

@[simp] theorem State.offer_pending (o : Offer) : (s.offer o).pending = s.pending := rfl
@[simp] theorem State.offer_initEnd (o : Offer) : (s.offer o).initEnd = s.initEnd := rfl
@[simp] theorem State.offer_resetCause (o : Offer) : (s.offer o).resetCause = s.resetCause := rfl
@[simp] theorem State.offer_straps (o : Offer) : (s.offer o).straps = s.straps := rfl
@[simp] theorem State.offer_ports (o : Offer) : (s.offer o).ports = s.ports := rfl
@[simp] theorem State.offer_latchInterval (o : Offer) : (s.offer o).latchInterval = s.latchInterval := rfl
@[simp] theorem State.offer_latchSeq (o : Offer) : (s.offer o).latchSeq = s.latchSeq := rfl
@[simp] theorem State.offer_windows (o : Offer) : (s.offer o).windows = s.windows := rfl
@[simp] theorem State.offer_elements (o : Offer) : (s.offer o).elements = s.elements := rfl
@[simp] theorem State.offer_tb (o : Offer) : (s.offer o).tb = s.tb := rfl
@[simp] theorem State.offer_bankA (o : Offer) : (s.offer o).bankA = s.bankA := rfl
@[simp] theorem State.offer_bankB (o : Offer) : (s.offer o).bankB = s.bankB := rfl
@[simp] theorem State.offer_openList (o : Offer) : (s.offer o).openList = s.openList := rfl
@[simp] theorem State.offer_lines (o : Offer) : (s.offer o).lines = s.lines := rfl
@[simp] theorem State.offer_journal (o : Offer) : (s.offer o).journal = s.journal.offer s.tb.now o := rfl
@[simp] theorem State.offer_service (o : Offer) : (s.offer o).service = s.service := rfl
@[simp] theorem State.offer_choices (o : Offer) : (s.offer o).choices = s.choices := rfl

/-! ## `report` -/

@[simp] theorem State.report_pending (b : Body) : (s.report b).pending = s.pending := rfl
@[simp] theorem State.report_initEnd (b : Body) : (s.report b).initEnd = s.initEnd := rfl
@[simp] theorem State.report_resetCause (b : Body) : (s.report b).resetCause = s.resetCause := rfl
@[simp] theorem State.report_straps (b : Body) : (s.report b).straps = s.straps := rfl
@[simp] theorem State.report_ports (b : Body) : (s.report b).ports = s.ports := rfl
@[simp] theorem State.report_latchInterval (b : Body) : (s.report b).latchInterval = s.latchInterval := rfl
@[simp] theorem State.report_latchSeq (b : Body) : (s.report b).latchSeq = s.latchSeq := rfl
@[simp] theorem State.report_windows (b : Body) : (s.report b).windows = s.windows := rfl
@[simp] theorem State.report_elements (b : Body) : (s.report b).elements = s.elements := rfl
@[simp] theorem State.report_tb (b : Body) : (s.report b).tb = s.tb := rfl
@[simp] theorem State.report_bankA (b : Body) : (s.report b).bankA = s.bankA := rfl
@[simp] theorem State.report_bankB (b : Body) : (s.report b).bankB = s.bankB := rfl
@[simp] theorem State.report_openList (b : Body) : (s.report b).openList = s.openList := rfl
@[simp] theorem State.report_lines (b : Body) : (s.report b).lines = s.lines := rfl
@[simp] theorem State.report_journal (b : Body) : (s.report b).journal = s.journal.offer s.tb.now ⟨s.levelOf (classOf b), s.tb.now, false, false, b⟩ := rfl
@[simp] theorem State.report_service (b : Body) : (s.report b).service = s.service := rfl
@[simp] theorem State.report_choices (b : Body) : (s.report b).choices = s.choices := rfl

/-! ## `withRecord` -/

@[simp] theorem State.withRecord_pending (n : Nat) (b : Body) : (s.withRecord n b).pending = s.pending := rfl
@[simp] theorem State.withRecord_initEnd (n : Nat) (b : Body) : (s.withRecord n b).initEnd = s.initEnd := rfl
@[simp] theorem State.withRecord_resetCause (n : Nat) (b : Body) : (s.withRecord n b).resetCause = s.resetCause := rfl
@[simp] theorem State.withRecord_straps (n : Nat) (b : Body) : (s.withRecord n b).straps = s.straps := rfl
@[simp] theorem State.withRecord_ports (n : Nat) (b : Body) : (s.withRecord n b).ports = s.ports := rfl
@[simp] theorem State.withRecord_latchInterval (n : Nat) (b : Body) : (s.withRecord n b).latchInterval = s.latchInterval := rfl
@[simp] theorem State.withRecord_latchSeq (n : Nat) (b : Body) : (s.withRecord n b).latchSeq = s.latchSeq := rfl
@[simp] theorem State.withRecord_windows (n : Nat) (b : Body) : (s.withRecord n b).windows = s.windows := rfl
@[simp] theorem State.withRecord_elements (n : Nat) (b : Body) : (s.withRecord n b).elements = s.elements := rfl
@[simp] theorem State.withRecord_tb (n : Nat) (b : Body) : (s.withRecord n b).tb = s.tb := rfl
@[simp] theorem State.withRecord_bankA (n : Nat) (b : Body) : (s.withRecord n b).bankA = s.bankA := rfl
@[simp] theorem State.withRecord_bankB (n : Nat) (b : Body) : (s.withRecord n b).bankB = s.bankB := rfl
@[simp] theorem State.withRecord_openList (n : Nat) (b : Body) : (s.withRecord n b).openList = s.openList := rfl
@[simp] theorem State.withRecord_lines (n : Nat) (b : Body) : (s.withRecord n b).lines = s.lines := rfl
@[simp] theorem State.withRecord_journal (n : Nat) (b : Body) : (s.withRecord n b).journal = s.journal.offer s.tb.now ⟨n, s.tb.now, false, false, b⟩ := rfl
@[simp] theorem State.withRecord_service (n : Nat) (b : Body) : (s.withRecord n b).service = s.service := rfl
@[simp] theorem State.withRecord_choices (n : Nat) (b : Body) : (s.withRecord n b).choices = s.choices := rfl

/-! ## `setCondition` -/

@[simp] theorem State.setCondition_pending (p : PortId) (d : Direction) (c : LinkCondition) (b : Bool) : (s.setCondition p d c b).pending = s.pending := rfl
@[simp] theorem State.setCondition_initEnd (p : PortId) (d : Direction) (c : LinkCondition) (b : Bool) : (s.setCondition p d c b).initEnd = s.initEnd := rfl
@[simp] theorem State.setCondition_resetCause (p : PortId) (d : Direction) (c : LinkCondition) (b : Bool) : (s.setCondition p d c b).resetCause = s.resetCause := rfl
@[simp] theorem State.setCondition_straps (p : PortId) (d : Direction) (c : LinkCondition) (b : Bool) : (s.setCondition p d c b).straps = s.straps := rfl
@[simp] theorem State.setCondition_latchInterval (p : PortId) (d : Direction) (c : LinkCondition) (b : Bool) : (s.setCondition p d c b).latchInterval = s.latchInterval := rfl
@[simp] theorem State.setCondition_latchSeq (p : PortId) (d : Direction) (c : LinkCondition) (b : Bool) : (s.setCondition p d c b).latchSeq = s.latchSeq := rfl
@[simp] theorem State.setCondition_windows (p : PortId) (d : Direction) (c : LinkCondition) (b : Bool) : (s.setCondition p d c b).windows = s.windows := rfl
@[simp] theorem State.setCondition_elements (p : PortId) (d : Direction) (c : LinkCondition) (b : Bool) : (s.setCondition p d c b).elements = s.elements := rfl
@[simp] theorem State.setCondition_tb (p : PortId) (d : Direction) (c : LinkCondition) (b : Bool) : (s.setCondition p d c b).tb = s.tb := rfl
@[simp] theorem State.setCondition_bankA (p : PortId) (d : Direction) (c : LinkCondition) (b : Bool) : (s.setCondition p d c b).bankA = s.bankA := rfl
@[simp] theorem State.setCondition_bankB (p : PortId) (d : Direction) (c : LinkCondition) (b : Bool) : (s.setCondition p d c b).bankB = s.bankB := rfl
@[simp] theorem State.setCondition_openList (p : PortId) (d : Direction) (c : LinkCondition) (b : Bool) : (s.setCondition p d c b).openList = s.openList := rfl
@[simp] theorem State.setCondition_lines (p : PortId) (d : Direction) (c : LinkCondition) (b : Bool) : (s.setCondition p d c b).lines = s.lines := rfl
@[simp] theorem State.setCondition_service (p : PortId) (d : Direction) (c : LinkCondition) (b : Bool) : (s.setCondition p d c b).service = s.service := rfl
@[simp] theorem State.setCondition_choices (p : PortId) (d : Direction) (c : LinkCondition) (b : Bool) : (s.setCondition p d c b).choices = s.choices := rfl

/-! ## `setBank` -/

@[simp] theorem State.setBank_pending (b : BankId) (x : Bank) : (s.setBank b x).pending = s.pending := by cases b <;> rfl
@[simp] theorem State.setBank_initEnd (b : BankId) (x : Bank) : (s.setBank b x).initEnd = s.initEnd := by cases b <;> rfl
@[simp] theorem State.setBank_resetCause (b : BankId) (x : Bank) : (s.setBank b x).resetCause = s.resetCause := by cases b <;> rfl
@[simp] theorem State.setBank_straps (b : BankId) (x : Bank) : (s.setBank b x).straps = s.straps := by cases b <;> rfl
@[simp] theorem State.setBank_ports (b : BankId) (x : Bank) : (s.setBank b x).ports = s.ports := by cases b <;> rfl
@[simp] theorem State.setBank_latchInterval (b : BankId) (x : Bank) : (s.setBank b x).latchInterval = s.latchInterval := by cases b <;> rfl
@[simp] theorem State.setBank_latchSeq (b : BankId) (x : Bank) : (s.setBank b x).latchSeq = s.latchSeq := by cases b <;> rfl
@[simp] theorem State.setBank_windows (b : BankId) (x : Bank) : (s.setBank b x).windows = s.windows := by cases b <;> rfl
@[simp] theorem State.setBank_elements (b : BankId) (x : Bank) : (s.setBank b x).elements = s.elements := by cases b <;> rfl
@[simp] theorem State.setBank_tb (b : BankId) (x : Bank) : (s.setBank b x).tb = s.tb := by cases b <;> rfl
@[simp] theorem State.setBank_openList (b : BankId) (x : Bank) : (s.setBank b x).openList = s.openList := by cases b <;> rfl
@[simp] theorem State.setBank_lines (b : BankId) (x : Bank) : (s.setBank b x).lines = s.lines := by cases b <;> rfl
@[simp] theorem State.setBank_journal (b : BankId) (x : Bank) : (s.setBank b x).journal = s.journal := by cases b <;> rfl
@[simp] theorem State.setBank_service (b : BankId) (x : Bank) : (s.setBank b x).service = s.service := by cases b <;> rfl
@[simp] theorem State.setBank_choices (b : BankId) (x : Bank) : (s.setBank b x).choices = s.choices := by cases b <;> rfl
@[simp] theorem State.setBank_bankA_bankA (x : Bank) : (s.setBank .bankA x).bankA = x := rfl
@[simp] theorem State.setBank_bankA_bankB (x : Bank) : (s.setBank .bankA x).bankB = s.bankB := rfl
@[simp] theorem State.setBank_bankB_bankA (x : Bank) : (s.setBank .bankB x).bankA = s.bankA := rfl
@[simp] theorem State.setBank_bankB_bankB (x : Bank) : (s.setBank .bankB x).bankB = x := rfl
@[simp] theorem State.bank_bankA : s.bank .bankA = s.bankA := rfl
@[simp] theorem State.bank_bankB : s.bank .bankB = s.bankB := rfl

end Sys2Proof.Machine
end

