-- ==== Sys2Proof/Laws/Indexed.lean ====
section
/-! SUPPORT. Sys2Proof/Laws/Indexed.lean: reading one of several like things after a write, and the ports, lines, windows and banks of the
state read so. -/

namespace Sys2Proof.Machine

/-! ## Eight and four like things -/

@[simp] theorem Eight.get_set_same {α : Type} (v : Eight α) (i : Fin 8) (x : α) : (v.set i x).get i = x := by
  fin_cases i <;> rfl

@[simp] theorem Eight.get_set_other {α : Type} (v : Eight α) (i j : Fin 8) (x : α) (h : j ≠ i) : (v.set i x).get j = v.get j := by
  fin_cases i <;> fin_cases j <;> first | rfl | exact absurd rfl h

@[simp] theorem Eight.get_all {α : Type} (x : α) (i : Fin 8) : (Eight.all x).get i = x := by
  fin_cases i <;> rfl

@[simp] theorem Eight.get_mapIdx {α β : Type} (f : Fin 8 → α → β) (v : Eight α) (i : Fin 8) :
    (v.mapIdx f).get i = f i (v.get i) := by
  fin_cases i <;> rfl

@[simp] theorem Eight.set_get {α : Type} (v : Eight α) (i : Fin 8) : v.set i (v.get i) = v := by
  fin_cases i <;> rfl

@[simp] theorem Eight.set_set {α : Type} (v : Eight α) (i : Fin 8) (x y : α) : (v.set i x).set i y = v.set i y := by
  fin_cases i <;> rfl

theorem Eight.ext_get {α : Type} {v w : Eight α} (h : ∀ i, v.get i = w.get i) : v = w := by
  cases v
  cases w
  have h0 := h 0
  have h1 := h 1
  have h2 := h 2
  have h3 := h 3
  have h4 := h 4
  have h5 := h 5
  have h6 := h 6
  have h7 := h 7
  simp_all [Eight.get]

@[simp] theorem Four.get_set_same {α : Type} (v : Four α) (i : Fin 4) (x : α) : (v.set i x).get i = x := by
  fin_cases i <;> rfl

@[simp] theorem Four.get_set_other {α : Type} (v : Four α) (i j : Fin 4) (x : α) (h : j ≠ i) : (v.set i x).get j = v.get j := by
  fin_cases i <;> fin_cases j <;> first | rfl | exact absurd rfl h

@[simp] theorem Four.get_all {α : Type} (x : α) (i : Fin 4) : (Four.all x).get i = x := by
  fin_cases i <;> rfl

@[simp] theorem Four.set_get {α : Type} (v : Four α) (i : Fin 4) : v.set i (v.get i) = v := by
  fin_cases i <;> rfl

@[simp] theorem Four.set_set {α : Type} (v : Four α) (i : Fin 4) (x y : α) : (v.set i x).set i y = v.set i y := by
  fin_cases i <;> rfl

/-! ## Ports -/

variable (s : State)

@[simp] theorem State.port_setPort_same (p : PortId) (x : Port) : (s.setPort p x).port p = x := by
  simp [State.port]

@[simp] theorem State.port_setPort_other (p q : PortId) (x : Port) (h : q ≠ p) : (s.setPort p x).port q = s.port q := by
  simp [State.port, h]

@[simp] theorem State.setPort_setPort (p : PortId) (x y : Port) : (s.setPort p x).setPort p y = s.setPort p y := by
  simp [State.setPort]

@[simp] theorem State.setPort_port (p : PortId) : s.setPort p (s.port p) = s := by
  simp [State.setPort, State.port]

/-! ## Clock lines -/

@[simp] theorem State.line_setLine_same (l : LineId) (x : Line) : (s.setLine l x).line l = x := by
  simp [State.line]

@[simp] theorem State.line_setLine_other (l k : LineId) (x : Line) (h : k ≠ l) : (s.setLine l x).line k = s.line k := by
  simp [State.line, h]

/-! ## Windows -/

@[simp] theorem State.window_setWindow_same (p : PortId) (w : LineId) (x : Window) : (s.setWindow p w x).window p w = x := by
  simp [State.window, State.setWindow]

theorem State.window_setWindow_other (p q : PortId) (w v : LineId) (x : Window) (h : (q, v) ≠ (p, w)) :
    (s.setWindow p w x).window q v = s.window q v := by
  by_cases hq : q = p
  · subst hq
    have : v ≠ w := fun e => h (by rw [e])
    simp [State.window, State.setWindow, this]
  · simp [State.window, State.setWindow, hq]

/-! ## The readers over the updates of the other blocks -/

@[simp] theorem State.setTb_port (tb : Timebase) (p : PortId) : (s.setTb tb).port p = s.port p := rfl
@[simp] theorem State.setJournal_port (j : Journal) (p : PortId) : (s.setJournal j).port p = s.port p := rfl
@[simp] theorem State.setLine_port (k : LineId) (x : Line) (p : PortId) : (s.setLine k x).port p = s.port p := rfl
@[simp] theorem State.setOpenList_port (o : List EntryRef) (p : PortId) : (s.setOpenList o).port p = s.port p := rfl
@[simp] theorem State.setElement_port (i : Nat) (e : Element) (p : PortId) : (s.setElement i e).port p = s.port p := rfl
@[simp] theorem State.removeElement_port (i : Nat) (p : PortId) : (s.removeElement i).port p = s.port p := rfl
@[simp] theorem State.setWindow_port (q : PortId) (v : LineId) (x : Window) (p : PortId) : (s.setWindow q v x).port p = s.port p := rfl
@[simp] theorem State.taking_port (c : Byte) (r : Request) (p : PortId) : (s.taking c r).port p = s.port p := rfl
@[simp] theorem State.offer_port (o : Offer) (p : PortId) : (s.offer o).port p = s.port p := rfl
@[simp] theorem State.report_port (b : Body) (p : PortId) : (s.report b).port p = s.port p := rfl
@[simp] theorem State.withRecord_port (v : Nat) (b : Body) (p : PortId) : (s.withRecord v b).port p = s.port p := rfl
@[simp] theorem State.setBank_port (b : BankId) (x : Bank) (p : PortId) : (s.setBank b x).port p = s.port p := by cases b <;> rfl

@[simp] theorem State.setTb_line (tb : Timebase) (l : LineId) : (s.setTb tb).line l = s.line l := rfl
@[simp] theorem State.setJournal_line (j : Journal) (l : LineId) : (s.setJournal j).line l = s.line l := rfl
@[simp] theorem State.setPort_line (q : PortId) (x : Port) (l : LineId) : (s.setPort q x).line l = s.line l := rfl
@[simp] theorem State.setOpenList_line (o : List EntryRef) (l : LineId) : (s.setOpenList o).line l = s.line l := rfl
@[simp] theorem State.setElement_line (i : Nat) (e : Element) (l : LineId) : (s.setElement i e).line l = s.line l := rfl
@[simp] theorem State.removeElement_line (i : Nat) (l : LineId) : (s.removeElement i).line l = s.line l := rfl
@[simp] theorem State.setWindow_line (q : PortId) (v : LineId) (x : Window) (l : LineId) : (s.setWindow q v x).line l = s.line l := rfl
@[simp] theorem State.taking_line (c : Byte) (r : Request) (l : LineId) : (s.taking c r).line l = s.line l := rfl
@[simp] theorem State.respond_line (c : Byte) (r : Request) (a : Reply) (l : LineId) : (s.respond c r a).line l = s.line l := rfl
@[simp] theorem State.offer_line (o : Offer) (l : LineId) : (s.offer o).line l = s.line l := rfl
@[simp] theorem State.report_line (b : Body) (l : LineId) : (s.report b).line l = s.line l := rfl
@[simp] theorem State.withRecord_line (v : Nat) (b : Body) (l : LineId) : (s.withRecord v b).line l = s.line l := rfl
@[simp] theorem State.setBank_line (b : BankId) (x : Bank) (l : LineId) : (s.setBank b x).line l = s.line l := by cases b <;> rfl

@[simp] theorem State.setTb_element (tb : Timebase) (n : Nat) : (s.setTb tb).element n = s.element n := rfl
@[simp] theorem State.setJournal_element (j : Journal) (n : Nat) : (s.setJournal j).element n = s.element n := rfl
@[simp] theorem State.setPort_element (q : PortId) (x : Port) (n : Nat) : (s.setPort q x).element n = s.element n := rfl
@[simp] theorem State.setLine_element (k : LineId) (x : Line) (n : Nat) : (s.setLine k x).element n = s.element n := rfl
@[simp] theorem State.setOpenList_element (o : List EntryRef) (n : Nat) : (s.setOpenList o).element n = s.element n := rfl
@[simp] theorem State.setWindow_element (q : PortId) (v : LineId) (x : Window) (n : Nat) : (s.setWindow q v x).element n = s.element n := rfl
@[simp] theorem State.taking_element (c : Byte) (r : Request) (n : Nat) : (s.taking c r).element n = s.element n := rfl
@[simp] theorem State.respond_element (c : Byte) (r : Request) (a : Reply) (n : Nat) : (s.respond c r a).element n = s.element n := rfl
@[simp] theorem State.offer_element (o : Offer) (n : Nat) : (s.offer o).element n = s.element n := rfl
@[simp] theorem State.report_element (b : Body) (n : Nat) : (s.report b).element n = s.element n := rfl
@[simp] theorem State.withRecord_element (v : Nat) (b : Body) (n : Nat) : (s.withRecord v b).element n = s.element n := rfl
@[simp] theorem State.setBank_element (b : BankId) (x : Bank) (n : Nat) : (s.setBank b x).element n = s.element n := by cases b <;> rfl

@[simp] theorem State.setTb_window (tb : Timebase) (p : PortId) (w : LineId) : (s.setTb tb).window p w = s.window p w := rfl
@[simp] theorem State.setJournal_window (j : Journal) (p : PortId) (w : LineId) : (s.setJournal j).window p w = s.window p w := rfl
@[simp] theorem State.setPort_window (q : PortId) (x : Port) (p : PortId) (w : LineId) : (s.setPort q x).window p w = s.window p w := rfl
@[simp] theorem State.setLine_window (k : LineId) (x : Line) (p : PortId) (w : LineId) : (s.setLine k x).window p w = s.window p w := rfl
@[simp] theorem State.setOpenList_window (o : List EntryRef) (p : PortId) (w : LineId) : (s.setOpenList o).window p w = s.window p w := rfl
@[simp] theorem State.setElement_window (i : Nat) (e : Element) (p : PortId) (w : LineId) : (s.setElement i e).window p w = s.window p w := rfl
@[simp] theorem State.removeElement_window (i : Nat) (p : PortId) (w : LineId) : (s.removeElement i).window p w = s.window p w := rfl
@[simp] theorem State.taking_window (c : Byte) (r : Request) (p : PortId) (w : LineId) : (s.taking c r).window p w = s.window p w := rfl
@[simp] theorem State.respond_window (c : Byte) (r : Request) (a : Reply) (p : PortId) (w : LineId) : (s.respond c r a).window p w = s.window p w := rfl
@[simp] theorem State.offer_window (o : Offer) (p : PortId) (w : LineId) : (s.offer o).window p w = s.window p w := rfl
@[simp] theorem State.report_window (b : Body) (p : PortId) (w : LineId) : (s.report b).window p w = s.window p w := rfl
@[simp] theorem State.withRecord_window (v : Nat) (b : Body) (p : PortId) (w : LineId) : (s.withRecord v b).window p w = s.window p w := rfl
@[simp] theorem State.setBank_window (b : BankId) (x : Bank) (p : PortId) (w : LineId) : (s.setBank b x).window p w = s.window p w := by cases b <;> rfl

@[simp] theorem State.setTb_mapping (tb : Timebase) (n : Nat) : (s.setTb tb).mapping n = s.mapping n := rfl
@[simp] theorem State.setJournal_mapping (j : Journal) (n : Nat) : (s.setJournal j).mapping n = s.mapping n := rfl
@[simp] theorem State.setPort_mapping (q : PortId) (x : Port) (n : Nat) : (s.setPort q x).mapping n = s.mapping n := rfl
@[simp] theorem State.setLine_mapping (k : LineId) (x : Line) (n : Nat) : (s.setLine k x).mapping n = s.mapping n := rfl
@[simp] theorem State.setOpenList_mapping (o : List EntryRef) (n : Nat) : (s.setOpenList o).mapping n = s.mapping n := rfl
@[simp] theorem State.setElement_mapping (i : Nat) (e : Element) (n : Nat) : (s.setElement i e).mapping n = s.mapping n := rfl
@[simp] theorem State.removeElement_mapping (i : Nat) (n : Nat) : (s.removeElement i).mapping n = s.mapping n := rfl
@[simp] theorem State.taking_mapping (c : Byte) (r : Request) (n : Nat) : (s.taking c r).mapping n = s.mapping n := rfl
@[simp] theorem State.respond_mapping (c : Byte) (r : Request) (a : Reply) (n : Nat) : (s.respond c r a).mapping n = s.mapping n := rfl
@[simp] theorem State.offer_mapping (o : Offer) (n : Nat) : (s.offer o).mapping n = s.mapping n := rfl
@[simp] theorem State.report_mapping (b : Body) (n : Nat) : (s.report b).mapping n = s.mapping n := rfl
@[simp] theorem State.withRecord_mapping (v : Nat) (b : Body) (n : Nat) : (s.withRecord v b).mapping n = s.mapping n := rfl
@[simp] theorem State.setBank_mapping (b : BankId) (x : Bank) (n : Nat) : (s.setBank b x).mapping n = s.mapping n := by cases b <;> rfl

@[simp] theorem State.setTb_initialising (tb : Timebase) : (s.setTb tb).initialising = s.initialising := rfl
@[simp] theorem State.setJournal_initialising (j : Journal) : (s.setJournal j).initialising = s.initialising := rfl
@[simp] theorem State.setPort_initialising (q : PortId) (x : Port) : (s.setPort q x).initialising = s.initialising := rfl
@[simp] theorem State.setLine_initialising (k : LineId) (x : Line) : (s.setLine k x).initialising = s.initialising := rfl
@[simp] theorem State.setOpenList_initialising (o : List EntryRef) : (s.setOpenList o).initialising = s.initialising := rfl
@[simp] theorem State.setElement_initialising (i : Nat) (e : Element) : (s.setElement i e).initialising = s.initialising := rfl
@[simp] theorem State.removeElement_initialising (i : Nat) : (s.removeElement i).initialising = s.initialising := rfl
@[simp] theorem State.setWindow_initialising (q : PortId) (v : LineId) (x : Window) : (s.setWindow q v x).initialising = s.initialising := rfl
@[simp] theorem State.taking_initialising (c : Byte) (r : Request) : (s.taking c r).initialising = s.initialising := rfl
@[simp] theorem State.respond_initialising (c : Byte) (r : Request) (a : Reply) : (s.respond c r a).initialising = s.initialising := rfl
@[simp] theorem State.offer_initialising (o : Offer) : (s.offer o).initialising = s.initialising := rfl
@[simp] theorem State.report_initialising (b : Body) : (s.report b).initialising = s.initialising := rfl
@[simp] theorem State.withRecord_initialising (v : Nat) (b : Body) : (s.withRecord v b).initialising = s.initialising := rfl
@[simp] theorem State.setBank_initialising (b : BankId) (x : Bank) : (s.setBank b x).initialising = s.initialising := by cases b <;> rfl

@[simp] theorem State.setTb_levelOf (tb : Timebase) (c' : JournalClass) : (s.setTb tb).levelOf c' = s.levelOf c' := rfl
@[simp] theorem State.setPort_levelOf (q : PortId) (x : Port) (c' : JournalClass) : (s.setPort q x).levelOf c' = s.levelOf c' := rfl
@[simp] theorem State.setLine_levelOf (k : LineId) (x : Line) (c' : JournalClass) : (s.setLine k x).levelOf c' = s.levelOf c' := rfl
@[simp] theorem State.setOpenList_levelOf (o : List EntryRef) (c' : JournalClass) : (s.setOpenList o).levelOf c' = s.levelOf c' := rfl
@[simp] theorem State.setElement_levelOf (i : Nat) (e : Element) (c' : JournalClass) : (s.setElement i e).levelOf c' = s.levelOf c' := rfl
@[simp] theorem State.removeElement_levelOf (i : Nat) (c' : JournalClass) : (s.removeElement i).levelOf c' = s.levelOf c' := rfl
@[simp] theorem State.setWindow_levelOf (q : PortId) (v : LineId) (x : Window) (c' : JournalClass) : (s.setWindow q v x).levelOf c' = s.levelOf c' := rfl
@[simp] theorem State.taking_levelOf (c : Byte) (r : Request) (c' : JournalClass) : (s.taking c r).levelOf c' = s.levelOf c' := rfl
@[simp] theorem State.respond_levelOf (c : Byte) (r : Request) (a : Reply) (c' : JournalClass) : (s.respond c r a).levelOf c' = s.levelOf c' := rfl
@[simp] theorem State.setBank_levelOf (b : BankId) (x : Bank) (c' : JournalClass) : (s.setBank b x).levelOf c' = s.levelOf c' := by cases b <;> rfl

end Sys2Proof.Machine
end

