-- ==== Sys2Proof/Laws/Journal.lean ====
section
/-! SUPPORT. Sys2Proof/Laws/Journal.lean: all that an offered record can do to the journal, and what it never touches (R152, R156 to R158). -/

namespace Sys2Proof.Machine

variable (j : Journal) (now : Dated) (o : Offer)

/-- What an offer can make of the journal: nothing, the record, a lost record, or the GAP and the record. -/
theorem Journal.offer_cases :
    ((j.classes.get (classOf o.body)).enabled = false ∧ j.offer now o = j) ∨
    ((j.classes.get (classOf o.body)).enabled = true ∧
      ((j.gap = none ∧ j.passes o.level j.fill = true ∧ j.offer now o = j.accept o) ∨
       (j.gap = none ∧ j.passes o.level j.fill = false ∧ j.offer now o = j.lose o) ∨
       (∃ g, j.gap = some g ∧ j.passes o.level (j.fill + 1) = true ∧ j.offer now o = (j.writeGap g now).accept o) ∨
       (∃ g, j.gap = some g ∧ j.passes o.level (j.fill + 1) = false ∧ j.offer now o = j.lose o))) := by
  unfold Journal.offer Journal.judge
  cases he : (j.classes.get (classOf o.body)).enabled with
  | false => exact .inl ⟨rfl, by simp⟩
  | true =>
    right
    refine ⟨rfl, ?_⟩
    cases hg : j.gap with
    | none =>
      cases hp : j.passes o.level j.fill with
      | true => left; simp
      | false => right; left; simp
    | some g =>
      cases hp : j.passes o.level (j.fill + 1) with
      | true => right; right; left; exact ⟨g, rfl, rfl, by simp⟩
      | false => right; right; right; exact ⟨g, rfl, rfl, by simp⟩

@[simp] theorem Journal.accept_classes : (j.accept o).classes = j.classes := rfl
@[simp] theorem Journal.accept_threshold : (j.accept o).threshold = j.threshold := rfl
@[simp] theorem Journal.accept_watermark : (j.accept o).watermark = j.watermark := rfl
@[simp] theorem Journal.accept_reserve : (j.accept o).reserve = j.reserve := rfl
@[simp] theorem Journal.accept_gap : (j.accept o).gap = j.gap := rfl
@[simp] theorem Journal.accept_next : (j.accept o).next = j.next + 1 := rfl
@[simp] theorem Journal.accept_records : (j.accept o).records = j.records ++ [⟨j.next, o⟩] := rfl
@[simp] theorem Journal.writeGap_gap (g : Gap) : (j.writeGap g now).gap = none := rfl
@[simp] theorem Journal.writeGap_next (g : Gap) : (j.writeGap g now).next = j.next + 1 := rfl
@[simp] theorem Journal.writeGap_records (g : Gap) :
    (j.writeGap g now).records = j.records ++ [⟨j.next, gapOffer g now⟩] := rfl
@[simp] theorem Journal.writeGap_classes (g : Gap) : (j.writeGap g now).classes = j.classes := rfl
@[simp] theorem Journal.writeGap_reserve (g : Gap) : (j.writeGap g now).reserve = j.reserve := rfl
@[simp] theorem Journal.lose_records : (j.lose o).records = j.records := by unfold Journal.lose; cases j.gap <;> rfl
@[simp] theorem Journal.lose_next : (j.lose o).next = j.next := by unfold Journal.lose; cases j.gap <;> rfl
@[simp] theorem Journal.lose_classes : (j.lose o).classes = j.classes := by unfold Journal.lose; cases j.gap <;> rfl
@[simp] theorem Journal.lose_threshold : (j.lose o).threshold = j.threshold := by unfold Journal.lose; cases j.gap <;> rfl
@[simp] theorem Journal.lose_watermark : (j.lose o).watermark = j.watermark := by unfold Journal.lose; cases j.gap <;> rfl
@[simp] theorem Journal.lose_reserve : (j.lose o).reserve = j.reserve := by unfold Journal.lose; cases j.gap <;> rfl

@[simp] theorem Journal.offer_classes : (j.offer now o).classes = j.classes := by
  rcases j.offer_cases now o with ⟨-, h⟩ | ⟨-, ⟨-, -, h⟩ | ⟨-, -, h⟩ | ⟨g, -, -, h⟩ | ⟨g, -, -, h⟩⟩ <;> rw [h] <;> simp

@[simp] theorem Journal.offer_threshold : (j.offer now o).threshold = j.threshold := by
  rcases j.offer_cases now o with ⟨-, h⟩ | ⟨-, ⟨-, -, h⟩ | ⟨-, -, h⟩ | ⟨g, -, -, h⟩ | ⟨g, -, -, h⟩⟩ <;> rw [h] <;> simp <;> rfl

@[simp] theorem Journal.offer_watermark : (j.offer now o).watermark = j.watermark := by
  rcases j.offer_cases now o with ⟨-, h⟩ | ⟨-, ⟨-, -, h⟩ | ⟨-, -, h⟩ | ⟨g, -, -, h⟩ | ⟨g, -, -, h⟩⟩ <;> rw [h] <;> simp <;> rfl

@[simp] theorem Journal.offer_reserve : (j.offer now o).reserve = j.reserve := by
  rcases j.offer_cases now o with ⟨-, h⟩ | ⟨-, ⟨-, -, h⟩ | ⟨-, -, h⟩ | ⟨g, -, -, h⟩ | ⟨g, -, -, h⟩⟩ <;> rw [h] <;> simp

/-! ## The settings over the offers of the state -/

variable (s : State)

@[simp] theorem State.levelOf_offer (o : Offer) (c : JournalClass) : (s.offer o).levelOf c = s.levelOf c := by
  simp [State.levelOf]

@[simp] theorem State.levelOf_report (b : Body) (c : JournalClass) : (s.report b).levelOf c = s.levelOf c := by
  simp [State.levelOf]

/-! ## Several records at once -/

/-- A fold of steps that touch the journal only touches it only. -/
theorem State.foldl_journal {α : Type} {f : State → α → State} (hf : ∀ s a, ∃ j, f s a = s.setJournal j) (s : State) (l : List α) :
    ∃ j, l.foldl f s = s.setJournal j := by
  induction l generalizing s with
  | nil => exact ⟨s.journal, rfl⟩
  | cons a l ih =>
    obtain ⟨j, hj⟩ := hf s a
    obtain ⟨k, hk⟩ := ih (f s a)
    exact ⟨k, by rw [List.foldl_cons, hk, hj]; rfl⟩

/-- Outcome records touch the journal only. -/
theorem State.withOutcomes_journal (s : State) (o : MoveOutcome) (l : List (Nat × Element)) :
    ∃ j, s.withOutcomes o l = s.setJournal j :=
  State.foldl_journal (fun _ _ => ⟨_, rfl⟩) s l

/-- The records of decisions touch the journal only. -/
theorem State.withDecisions_journal (s : State) (tb : Timebase) : ∃ j, s.withDecisions tb = s.setJournal j := by
  refine State.foldl_journal (fun v l => ?_) s lineIds
  split
  · exact State.foldl_journal (fun _ _ => ⟨_, rfl⟩) v _
  · exact ⟨v.journal, rfl⟩

end Sys2Proof.Machine
end

