-- ==== Sys2Proof/Laws/Passage.lean ====
section
/-! SUPPORT. Sys2Proof/Laws/Passage.lean: the passage of time: an instant that is already reached takes none, and a run of cycles touches
the two scales and the slew cycles left only. -/

namespace Sys2Proof.Machine

/-! ## Instants, in units of 2^-32 ns -/

theorem ns_eq (n : Nat) : ns n = 4294967296 * n := rfl

theorem ms_eq (n : Nat) : ms n = 4294967296000000 * n := by
  unfold ms ns
  omega

theorem secs_eq (n : Nat) : secs n = 4294967296000000000 * n := by
  unfold secs ns
  omega

theorem Timebase.instant_eq (tb : Timebase) : tb.instant = 4294967296 * tb.elapsed + tb.elapsedFrac := rfl

/-! ## Time runs to an instant -/

theorem State.until_reached (s : State) (t : Nat) (h : t ≤ s.tb.instant) : s.until t = s := by
  simp [State.until, State.passTo, h]

@[simp] theorem State.await_none (s : State) : s.await none = s := rfl

theorem State.await_reached (s : State) (t : Nat) (h : t ≤ s.tb.instant) : s.await (some t) = s := s.until_reached t h

theorem le_laterElapsed (a n : Nat) : a ≤ laterElapsed a n := Nat.le_max_left _ _

/-- Advances add up, the maximum included. -/
theorem laterElapsed_add (a m n : Nat) : laterElapsed (laterElapsed a m) n = laterElapsed a (m + n) := by
  unfold laterElapsed
  omega

/-- All that a run of cycles can do. -/
theorem Timebase.run_eq (tb : Timebase) (n : Nat) : ∃ (nanos frac elapsed elapsedFrac left : Nat) (due : Bool),
    tb.run n = { tb with
      tod := { tb.tod with nanos := nanos }, todFrac := frac, elapsed := elapsed, elapsedFrac := elapsedFrac, carryDue := due,
      slewLeft := left } ∧
    tb.tod.nanos ≤ nanos ∧ tb.elapsed ≤ elapsed ∧ left ≤ tb.slewLeft ∧ (tb.carryDue = true → due = true) := by
  unfold Timebase.run
  split
  · exact ⟨_, _, _, _, _, _, rfl, Nat.le_add_right _ _, le_laterElapsed _ _, Nat.sub_le _ _, fun h => by simp [h]⟩
  · exact ⟨_, _, _, _, _, _, rfl, by simp [Timebase.cycles, Nat.add_assoc],
      Nat.le_trans (le_laterElapsed _ _) (le_laterElapsed _ _), by simp [Timebase.cycles], fun h => by simp [Timebase.cycles, h]⟩

@[simp] theorem Timebase.run_rate (tb : Timebase) (n : Nat) : (tb.run n).rate = tb.rate := by
  unfold Timebase.run; split <;> rfl

@[simp] theorem Timebase.run_slew (tb : Timebase) (n : Nat) : (tb.run n).slew = tb.slew := by
  unfold Timebase.run; split <;> rfl

@[simp] theorem Timebase.run_setFlag (tb : Timebase) (n : Nat) : (tb.run n).setFlag = tb.setFlag := by
  unfold Timebase.run; split <;> rfl

@[simp] theorem Timebase.run_sec (tb : Timebase) (n : Nat) : (tb.run n).tod.sec = tb.tod.sec := by
  unfold Timebase.run; split <;> rfl

@[simp] theorem Timebase.run_day (tb : Timebase) (n : Nat) : (tb.run n).tod.day = tb.tod.day := by
  unfold Timebase.run; split <;> rfl

theorem Timebase.run_elapsed_le (tb : Timebase) (n : Nat) : tb.elapsed ≤ (tb.run n).elapsed := by
  obtain ⟨_, _, _, _, _, _, h, -, he, -, -⟩ := tb.run_eq n
  rw [h]
  exact he

end Sys2Proof.Machine
end

