-- ==== Sys2Proof/Laws/Relay.lean ====
section
/-! SUPPORT. Sys2Proof/Laws/Relay.lean: all that a bit time can do to a port, and what a stream of bits keeps (R13, R16, R17). -/

namespace Sys2Proof.Machine

/-- Only the relay's own fields move with the bits. -/
structure Port.RelayOnly (x y : Port) : Prop where
  eq : y = { x with
    sending := y.sending, held := y.held, downDelay := y.downDelay, upDelay := y.upDelay, upFlags := y.upFlags,
    markRun := y.markRun, skipping := y.skipping, toField := y.toField, toCentre := y.toCentre }

theorem Port.RelayOnly.refl (x : Port) : x.RelayOnly x := ⟨rfl⟩

theorem Port.RelayOnly.trans {x y z : Port} (h : x.RelayOnly y) (k : y.RelayOnly z) : x.RelayOnly z := by
  obtain ⟨h⟩ := h
  obtain ⟨k⟩ := k
  constructor
  rw [k, h]

theorem Port.relayUp_only (x : Port) (b : LineBit) : x.RelayOnly (x.relayUp b) := by
  constructor
  unfold Port.relayUp Port.sendCentre
  split <;> rfl

theorem Port.upBit_only (x : Port) (b : LineBit) : x.RelayOnly (x.upBit b) := by
  unfold Port.upBit
  split
  · exact x.relayUp_only b
  · rename_i out rest h
    exact Port.RelayOnly.trans ⟨rfl⟩ (Port.relayUp_only _ out)

theorem Port.downBit_only (x : Port) (b : LineBit) : x.RelayOnly (x.downBit b) := by
  constructor
  unfold Port.downBit
  split <;> rfl

theorem Port.foldl_only (f : Port → LineBit → Port) (hf : ∀ x b, Port.RelayOnly x (f x b)) (bits : List LineBit) (x : Port) :
    x.RelayOnly (bits.foldl f x) := by
  induction bits generalizing x with
  | nil => exact .refl x
  | cons b rest ih => exact (hf x b).trans (ih (f x b))

theorem Port.fill_only (x : Port) (d : Direction) (bits : List LineBit) : x.RelayOnly (x.fill d bits) := by
  cases d <;> exact ⟨rfl⟩

/-- All that arriving bits can do to a port. -/
theorem Port.arrive_only (x : Port) (d : Direction) (bits : List LineBit) : x.RelayOnly (x.arrive d bits) := by
  unfold Port.arrive
  split
  · cases d
    · exact Port.foldl_only _ Port.downBit_only bits x
    · exact Port.foldl_only _ Port.upBit_only bits x
  · split
    · exact x.fill_only d bits
    · exact .refl x

/-- A port that neither forwards nor joins keeps and passes on nothing (R8). -/
theorem Port.arrive_silent (x : Port) (d : Direction) (bits : List LineBit) (h : x.forwards = false) (k : x.state ≠ .joining) :
    x.arrive d bits = x := by
  simp [Port.arrive, h, k]

/-- A JOINING port sends nothing: what arrives fills the delay, which keeps the last 40 bits (R10, R13). -/
theorem Port.arrive_joining (x : Port) (d : Direction) (bits : List LineBit) (h : x.state = .joining) :
    x.arrive d bits = x.fill d bits := by
  simp [Port.arrive, Port.forwards, h]

theorem Port.idleUntil_only (idle : LineBit) (stop : Port → Bool) (n : Nat) (x : Port) : x.RelayOnly (x.idleUntil idle stop n) := by
  induction n generalizing x with
  | zero => exact .refl x
  | succ n ih =>
    unfold Port.idleUntil
    split
    · exact .refl x
    · exact (x.upBit_only idle).trans (ih _)

/-- All that time running on an idle UP line can do to a port. -/
theorem Port.awaitUp_only (x : Port) (idle : LineBit) (stop : Port → Bool) : x.RelayOnly (x.awaitUp idle stop) := by
  unfold Port.awaitUp
  split
  · exact Port.idleUntil_only idle stop 700 x
  · exact .refl x

/-- The bits sent and those in the delay are the stream that arrived (R13). -/
theorem Port.downBit_stream (x : Port) (b : LineBit) :
    (x.downBit b).toField ++ (x.downBit b).downDelay = x.toField ++ x.downDelay ++ [b] := by
  unfold Port.downBit
  split
  · rename_i h
    simp [h]
  · rename_i out rest h
    simp [h]

/-- A bit time never lets the buffer and the rest of a response grow together, and an unused buffer stays empty (R16, R17). -/
theorem Port.relayUp_bounded (x : Port) (b : LineBit) :
    (x.relayUp b).held.length + (x.relayUp b).sending.length ≤ x.held.length + x.sending.length := by
  have hk : (x.kept b).length ≤ 1 := by
    unfold Port.kept
    split <;> simp
  unfold Port.relayUp Port.sendCentre
  split
  · rename_i h
    simp [h]
    omega
  · rename_i h g
    simp [h, g]
    omega
  · rename_i h g
    simp [h, g]

end Sys2Proof.Machine
end

