-- ==== Sys2Proof/Laws/Service.lean ====
section
/-! SUPPORT. Sys2Proof/Laws/Service.lean: all that carrying out a request, answering it and an event wrapper can do. -/

namespace Sys2Proof.Machine

/-- Without a RESET TABLES under way there is nothing to finish. -/
@[simp] theorem State.finishReset_none (s : State) (h : s.service.resetting = none) : s.finishReset = s := by
  simp [State.finishReset, h]

/-- Outside INITIALISING, and with no RESET TABLES under way, a request is carried out on the state that has taken it, and answered
once. -/
theorem State.serve_eq (s : State) (code : Byte) (r : Request) (f : List Byte → State → Served) (h : s.initialising = false)
    (hr : s.service.resetting = none) :
    s.serve code r f =
      (f r.params (s.taking code r)).state.respond code r (f r.params (s.taking code r)).reply := by
  simp [State.serve, h, hr]

/-- In INITIALISING a request has no effect (R7). -/
theorem State.serve_initialising (s : State) (code : Byte) (r : Request) (f : List Byte → State → Served)
    (h : s.initialising = true) : s.serve code r f = s := by
  simp [State.serve, h]

theorem State.event_eq (s : State) (f : State → State) (h : s.initialising = false) : s.event f = .next (f s) := by
  simp [State.event, h]

theorem State.event_initialising (s : State) (f : State → State) (h : s.initialising = true) : s.event f = .next s := by
  simp [State.event, h]

/-- The queue after a request is carried out: as it was, or without its head. -/
theorem Service.finish_cases (v : Service) (q : Queued) :
    (v.finish q).queue = v.queue ∨ (v.queue.head? = some q ∧ (v.finish q).queue = v.queue.tail) := by
  unfold Service.finish
  split
  · exact .inl rfl
  · split
    · rename_i h
      exact .inr ⟨h.2, rfl⟩
    · exact .inl rfl

/-- What an idle unit takes: nothing, or the head of its queue (R171). -/
theorem Service.take_cases (v : Service) :
    v.take = v ∨ ∃ q rest, v.inHand = none ∧ v.queue = q :: rest ∧ v.take = { v with queue := rest, inHand := some q } := by
  unfold Service.take
  split
  · rename_i q rest h1 h2
    exact .inr ⟨q, rest, h1, h2, rfl⟩
  · exact .inl rfl

@[simp] theorem Service.take_resetting (v : Service) : v.take.resetting = v.resetting := by
  unfold Service.take
  split <;> rfl

@[simp] theorem Service.finish_resetting (v : Service) (q : Queued) : (v.finish q).resetting = v.resetting := by
  unfold Service.finish
  split
  · rfl
  · split <;> rfl

@[simp] theorem State.respond_port_other (s : State) (c : Byte) (r : Request) (a : Reply) (q : PortId) (h : q ≠ r.port) :
    (s.respond c r a).port q = s.port q := by
  show (s.setPort r.port _).port q = s.port q
  exact State.port_setPort_other s r.port q _ h

end Sys2Proof.Machine
end

