-- ==== Sys2Proof/Laws/Table.lean ====
section
/-! SUPPORT. Sys2Proof/Laws/Table.lean: the element table: what reading finds after each change, and that each change keeps the
canonical form. -/

namespace Sys2Proof.Machine

/-! ## Reading after a change -/

@[simp] theorem lookup_insert_same (t : List (Nat × Element)) (i : Nat) (e : Element) : lookup (insert t i e) i = some e := by
  induction t with
  | nil => simp [insert, lookup]
  | cons x rest ih =>
    obtain ⟨k, y⟩ := x
    simp only [insert]
    split
    · simp [lookup]
    · split
      · simp [lookup]
      · have : k ≠ i := by omega
        simp [lookup, this, ih]

theorem lookup_insert_other (t : List (Nat × Element)) (i j : Nat) (e : Element) (h : j ≠ i) :
    lookup (insert t i e) j = lookup t j := by
  induction t with
  | nil => simp [insert, lookup, Ne.symm h]
  | cons x rest ih =>
    obtain ⟨k, y⟩ := x
    simp only [insert]
    split
    · simp [lookup, Ne.symm h]
    · split
      · subst k
        simp [lookup, Ne.symm h]
      · simp [lookup, ih]

@[simp] theorem lookup_erase_same (t : List (Nat × Element)) (i : Nat) : lookup (erase t i) i = none := by
  induction t with
  | nil => rfl
  | cons x rest ih =>
    obtain ⟨k, y⟩ := x
    by_cases h : k = i
    · subst h
      simpa [erase] using ih
    · have : lookup (erase ((k, y) :: rest) i) i = lookup (erase rest i) i := by simp [erase, h, lookup]
      rw [this, ih]

theorem lookup_erase_other (t : List (Nat × Element)) (i j : Nat) (h : j ≠ i) : lookup (erase t i) j = lookup t j := by
  induction t with
  | nil => rfl
  | cons x rest ih =>
    obtain ⟨k, y⟩ := x
    by_cases hk : k = i
    · subst hk
      have : lookup (erase ((k, y) :: rest) k) j = lookup (erase rest k) j := by simp [erase]
      rw [this, ih]
      simp [lookup, Ne.symm h]
    · have : lookup (erase ((k, y) :: rest) i) j = if k = j then some y else lookup (erase rest i) j := by
        simp [erase, hk, lookup]
      rw [this, ih]
      rfl

@[simp] theorem lookup_mapRecords (t : List (Nat × Element)) (f : Nat → Element → Element) (i : Nat) :
    lookup (mapRecords t f) i = (lookup t i).map (f i) := by
  induction t with
  | nil => rfl
  | cons x rest ih =>
    obtain ⟨k, y⟩ := x
    by_cases h : k = i
    · subst h
      simp [mapRecords, lookup]
    · have : lookup (mapRecords ((k, y) :: rest) f) i = lookup (mapRecords rest f) i := by simp [mapRecords, lookup, h]
      rw [this, ih]
      simp [lookup, h]

theorem mem_of_lookup {t : List (Nat × Element)} {i : Nat} {e : Element} (h : lookup t i = some e) : (i, e) ∈ t := by
  induction t with
  | nil => simp [lookup] at h
  | cons x rest ih =>
    obtain ⟨k, y⟩ := x
    by_cases hk : k = i
    · subst hk
      simp [lookup] at h
      simp [h]
    · simp [lookup, hk] at h
      exact List.mem_cons_of_mem _ (ih h)

/-! ## The canonical form -/

theorem mem_keys_insert (t : List (Nat × Element)) (i k : Nat) (e : Element) :
    k ∈ (insert t i e).map Prod.fst ↔ k = i ∨ k ∈ t.map Prod.fst := by
  induction t with
  | nil => simp [insert]
  | cons x rest ih =>
    obtain ⟨n, y⟩ := x
    simp only [insert]
    split
    · simp
    · split
      · rename_i h
        subst h
        simp
      · simp only [List.map_cons, List.mem_cons, ih]
        tauto

theorem tableWf_insert {t : List (Nat × Element)} (i : Nat) (e : Element) (h : tableWf t) (hi : i < 2048) :
    tableWf (insert t i e) := by
  refine ⟨?_, ?_⟩
  · have h1 := h.1
    clear h
    induction t with
    | nil => simp [insert]
    | cons x rest ih =>
      obtain ⟨n, y⟩ := x
      simp only [List.map_cons, List.pairwise_cons] at h1
      simp only [insert]
      split
      · rename_i hlt
        simp only [List.map_cons, List.pairwise_cons]
        refine ⟨?_, h1⟩
        intro a ha
        rcases List.mem_cons.1 ha with rfl | ha
        · exact hlt
        · exact Nat.lt_trans hlt (h1.1 a ha)
      · split
        · rename_i heq
          subst heq
          simpa using h1
        · simp only [List.map_cons, List.pairwise_cons]
          refine ⟨?_, ih h1.2⟩
          intro a ha
          rcases (mem_keys_insert rest i a e).1 ha with rfl | ha
          · omega
          · exact h1.1 a ha
  · intro k hk
    rcases (mem_keys_insert t i k e).1 hk with rfl | hk
    · exact hi
    · exact h.2 k hk

theorem tableWf_erase {t : List (Nat × Element)} (i : Nat) (h : tableWf t) : tableWf (erase t i) := by
  have hs : ((erase t i).map Prod.fst).Sublist (t.map Prod.fst) := List.Sublist.map _ List.filter_sublist
  exact ⟨h.1.sublist hs, fun k hk => h.2 k (hs.subset hk)⟩

theorem mapRecords_keys (t : List (Nat × Element)) (f : Nat → Element → Element) :
    (mapRecords t f).map Prod.fst = t.map Prod.fst := by
  simp [mapRecords]

theorem tableWf_mapRecords {t : List (Nat × Element)} (f : Nat → Element → Element) (h : tableWf t) :
    tableWf (mapRecords t f) := by
  rw [tableWf, mapRecords_keys]
  exact h

theorem lookup_lt {t : List (Nat × Element)} {i : Nat} {e : Element} (hw : tableWf t) (h : lookup t i = some e) : i < 2048 :=
  hw.2 i (List.mem_map.2 ⟨(i, e), mem_of_lookup h, rfl⟩)

/-! ## The records of the state -/

variable (s : State)

@[simp] theorem State.element_setElement_same (i : Nat) (e : Element) : (s.setElement i e).element i = some e := by
  simp [State.element]

theorem State.element_setElement_other (i j : Nat) (e : Element) (h : j ≠ i) : (s.setElement i e).element j = s.element j := by
  simp [State.element, lookup_insert_other, h]

@[simp] theorem State.element_removeElement_same (i : Nat) : (s.removeElement i).element i = none := by
  simp [State.element]

theorem State.element_removeElement_other (i j : Nat) (h : j ≠ i) : (s.removeElement i).element j = s.element j := by
  simp [State.element, lookup_erase_other, h]

end Sys2Proof.Machine
end

