-- ==== Sys2Proof/Tests/Slice0.lean ====
section
/-! SUPPORT. Sys2Proof/Tests/Slice0.lean: the smoke test of the operand checks, the manual's own worked figures, and a witness for the
hypotheses of each statement, clause by clause. -/

namespace Sys2Proof.Tests

open Sys2Proof.Machine

/-! ## Helpers -/

/-- A port in BYPASS with nothing in progress and no life timer running. -/
def restingPort : Port :=
  { Port.afterReset ⟨false, false, false, 0⟩ 0 with state := .bypass, accept := false }

/-- A part outside INITIALISING with every port at rest in BYPASS, P0 accepting. -/
def part : State :=
  { State.afterReset [] .powerUp ⟨false, false, false, 0⟩ 0 with
    initEnd := none
    ports := Eight.mapIdx (fun p _ => { restingPort with accept := p == 0 }) (Eight.all ()) }

/-- The part with P0 replaced. -/
def withPort (x : Port) : State := part.setPort 0 x

/-- A request on P0 with the tag 7. -/
def request (params : List Byte) : Request := ⟨0, 7, params⟩

/-- A point record with its defaults, fresh, showing a state. -/
def point (accepted : Option Nat) : Element where
  loaded := ⟨.point, 2, .all, false, false, none, 8000, 6000, 1500⟩
  accepted := accepted
  candidate := none
  stale := false
  lastChange := none
  lastCommand := none
  undefinedSeen := false
  sup := .idle
  stats := ⟨0, 0, 0, 0, 0, 0⟩
  refs := 0

/-- A timetabled signal record showing STOP. -/
def signal : Element :=
  { point (some 0) with loaded := ⟨.signal, 1, .all, false, true, none, 8000, 6000, 1500⟩ }

/-- A capture at an elapsed instant on day 1. -/
def captureAt (t : Nat) : Capture := ⟨⟨1, 0, 0⟩, t, .traceable⟩

/-- A timebase that is LOCKED, with a pulse 1 s ago. -/
def lockedTb : Timebase :=
  { Timebase.afterReset with
    tod := ⟨19812, 28800, 300⟩, elapsed := 5000000000, setFlag := true, loop := .locked, lastPulse := some (secs 4),
    nextNote := some (secs 5) }

/-- The part at some elapsed instant. -/
def partAt (t : Nat) : State := part.setTb { part.tb with elapsed := t }

/-- A frame that has opened, with this content so far. -/
def opened (removal : Option Removal) (content : List Bool) : Opening := ⟨captureAt 0, false, removal, content⟩

/-- A port in INLINE whose delays hold flags. -/
def relaying : Port := { restingPort with state := .inline }.startRelay

/-- The state that a command answers; the state itself if it answered none. -/
def after (i : Instr) (s : State) : State :=
  match exec i s with
  | .next t => t
  | _ => s

/-- The reply that a request on P0 is answered, P0 being made INLINE so that it is queued. -/
def replyTo (i : Instr) (s : State) : Option Reply :=
  (((after i (s.setPort 0 { s.port 0 with state := .inline })).port 0).responses.getLast?).map Response.reply

/-- A line that is RUNNING with its dials at the target. -/
def runningLine : Line := { Line.afterReset with state := .running, position := 179, target := some 179 }

/-- An entry that is PENDING. -/
def entry : Entry := ⟨140, 19500, 120, 300, 9, [⟨131, 1⟩], .pending, none, none⟩

/-- A bank in a state with one entry. -/
def bankIn (state : BankState) : Bank := ⟨state, some ⟨19812, 10800⟩, [entry], 0, none⟩

/-! ## The operand checks -/

theorem smoke_no_idle : (Instr.frameReceived 0 .up (.idle true 0)).wellFormed = false := by decide
theorem smoke_no_content : (Instr.frameReceived 0 .up (.content [])).wellFormed = false := by decide
theorem smoke_one_before_abort : (Instr.frameReceived 0 .up (.aborted [false, true])).wellFormed = false := by decide
theorem smoke_frame_parts : (Instr.frameReceived 0 .up (.aborted [true, false])).wellFormed = true ∧
    (Instr.frameReceived 0 .up (.closed [])).wellFormed = true := by decide
theorem smoke_element_2048 : (Instr.deadlineExpiry 2048).wellFormed = false := by decide
theorem smoke_known_code : (Instr.unknownRequestCode 1 (request [])).wellFormed = false := by decide
theorem smoke_59_parameters : (Instr.run (request (List.replicate 59 0))).wellFormed = false := by decide
theorem smoke_unknown_59_parameters : (Instr.unknownRequestCode 3 (request (List.replicate 59 0))).wellFormed = false := by decide
theorem smoke_well_formed : (Instr.run (request (List.replicate 58 0))).wellFormed = true := by decide

/-! ## The manual's worked figures -/

/-- The check value of the generator of R5 for the octets of the text 123456789, an outside check of the polynomial (PRESUMED: the
published check value of CRC-16/X-25 is 906E). -/
theorem test_check_value : ~~~(crc (bitsOf [0x31, 0x32, 0x33, 0x34, 0x35, 0x36, 0x37, 0x38, 0x39])) = 0x906E := by decide +kernel

/-- Section 3.4: an error of +3,200 ns with F = −1,240 and the default gains gives S = +200 and F = −1,227. -/
theorem test_loop_arithmetic :
    ({ lockedTb with rate := -1240 }.loopArithmetic 3200).slew = 200 ∧
    ({ lockedTb with rate := -1240 }.loopArithmetic 3200).rate = -1227 := by decide

/-- Section 3.4: Inc with the slew in force, and afterwards. -/
theorem test_inc :
    ({ lockedTb with rate := -1227, slew := 200, slewLeft := 1 } : Timebase).inc = 429496288507 ∧
    ({ lockedTb with rate := -1227, slew := 200, slewLeft := 0 } : Timebase).inc = 429496202608 := by decide

/-- Section 4.3, "Counting back, in figures": 6,200 µs before day 19813, 00:00:00.002000, by the most recent leap second. -/
theorem test_count_back_one_second :
    dateBack none ⟨19813, 0, 2000000⟩ 6200000 = ⟨⟨19812, 86399, 995800000⟩, false⟩ ∧
    dateBack (some ⟨19812, .insert⟩) ⟨19813, 0, 2000000⟩ 6200000 = ⟨⟨19812, 86400, 995800000⟩, false⟩ ∧
    dateBack (some ⟨19812, .delete⟩) ⟨19813, 0, 2000000⟩ 6200000 = ⟨⟨19812, 86398, 995800000⟩, false⟩ ∧
    dateBack (some ⟨19700, .insert⟩) ⟨19813, 0, 2000000⟩ 6200000 = ⟨⟨19812, 86399, 995800000⟩, false⟩ := by decide

/-- Section 4.3: three whole seconds across the end of a day, and the clamp at day 0. -/
theorem test_count_back_three_seconds :
    (dateBack none ⟨19813, 1, 0⟩ 3000000000).tod.sec = 86398 ∧
    (dateBack (some ⟨19812, .insert⟩) ⟨19813, 1, 0⟩ 3000000000).tod.sec = 86399 ∧
    (dateBack (some ⟨19812, .delete⟩) ⟨19813, 1, 0⟩ 3000000000).tod.sec = 86397 ∧
    dateBack none ⟨0, 1, 250000000⟩ 2000500000 = ⟨⟨0, 0, 0⟩, true⟩ := by decide

/-- Section 11.2: the operate time of the point move is 6,833 ms. -/
theorem test_operate_time :
    operateTime (elapsedOrigin (captureAt 27419150830000) 15 1200) (captureAt 27412300250000) 1200 = ⟨6833, false⟩ := by decide

/-- Section 7.2: the targets at 23:00:00 with +60 minutes, and at 08:30:00. -/
theorem test_targets :
    targetStep .p720 82800 60 = 0 ∧ targetStep .p720 30600 60 = 570 ∧ targetStep .p1440 30600 60 = 1140 := by decide

/-- Section 11.4: lags 661 and 660 wait with the default window; with 45 minutes lag 660 is caught up. -/
theorem test_autumn_lags :
    ({ runningLine with position := 179, target := some 120 }.judgeLag).1 = .waiting ∧
    ({ runningLine with position := 180, target := some 120 }.judgeLag).1 = .waiting ∧
    ({ runningLine with position := 180, target := some 120, waitWindow := 45 }.judgeLag).1 = .catchingUp := by decide

/-- Section 11.3: the deviation of the clearing in bank A. -/
theorem test_bank_time : bankTime ⟨19812, 10800⟩ ⟨19812, 30288⟩ = 19488 ∧ entry.openTime = 19380 ∧ entry.closeTime = 19800 := by
  decide

/-- R160 about a journal whose counter is 3 and which holds five records: 0xFFFFFFFE to 2. -/
theorem test_sequence_numbers_wrap :
    let j : Journal := { Journal.afterReset with
      next := 3, records := List.replicate 5 ⟨0, ⟨2, ⟨⟨0, 0, 0⟩, .unset⟩, false, false, .uncommanded 0 .movement⟩⟩ }
    j.place 0xFFFFFFFE = .held ∧ j.place 2 = .held ∧ j.place 3 = .ahead ∧ j.place 0xFFFFFFFD = .behind := by decide

/-- R4: halves go away from zero, on both sides. -/
theorem test_rounding : roundDiv 3200 256 = 13 ∧ roundDiv (-3200) 256 = -13 ∧ roundDiv 7 16 = 0 := by decide

/-- Section 1.4, "Insertion on a busy link": a response of 126 bit times, and a field frame of 98 line bits whose first bit comes
out of the delay after 44 of them. -/
theorem test_insertion_figures :
    let x : Port := { relaying with inserting := some ⟨20, 7, .done []⟩, sending := List.replicate 126 (.content false) }
    let bits : List LineBit := List.replicate 4 .flag ++ openingBits ++ List.replicate 98 (.content true) ++ closingBits ++
      List.replicate 138 .flag
    (x.arrive .up (bits.take 126)).backlog = 82 ∧ (x.arrive .up (bits.take 126)).insertionDone = true ∧
    (x.arrive .up (bits.take 158)).backlog = 82 ∧ (x.arrive .up (bits.take 239)).backlog = 1 ∧
    (x.arrive .up (bits.take 240)).backlog = 0 ∧ (x.arrive .up bits).upFlags = 16 := by decide +kernel

/-- Line L1 of section 11.4 at 00:59:59, the boundary into 01:00:00 being due. -/
def autumnPart : State :=
  (part.setTb { part.tb with
    tod := ⟨19980, 3599, 1000000050⟩, carryDue := true, elapsed := 5000000000, setFlag := true, loop := .locked,
    civilOffset := 120, scheduled := some ⟨19980, 3600, 60⟩ }).setLine 1 runningLine

/-- Section 11.4, "Boundary taken first": the impulse begins, and then the offset change makes the line wait with d 179. -/
theorem test_boundary_first :
    let x := (after (.secondBoundary ⟨false, [1]⟩) autumnPart).line 1
    x.state = .waiting ∧ x.position = 179 ∧ x.target = some 120 ∧ x.drive = some .positive ∧
    ((x.finish ⟨.step, .positive, 0, 0, some .healthy⟩ 0).line.position = 180 ∧
      (x.finish ⟨.step, .positive, 0, 0, some .healthy⟩ 0).line.lag = some 660) := by decide +kernel

/-- Section 11.4, "Offset change taken first": no impulse begins. -/
theorem test_offset_first :
    let x := (after (.secondBoundary ⟨true, [1]⟩) autumnPart).line 1
    x.state = .waiting ∧ x.position = 179 ∧ x.target = some 120 ∧ x.drive = none ∧ x.lag = some 661 := by decide +kernel

/-- R49, R50: with Inc at 100.005 ns, two boundaries may fall within a second of elapsed time. -/
theorem test_two_boundaries_in_a_second :
    let s := part.setTb { part.tb with tod := ⟨1, 0, 999999950⟩, rate := 50000 }
    (s.until (ns 999999999)).tb.now.stamp = ⟨1, 2, 0⟩ ∧ (s.until (ns 999999999)).tb.elapsed = 1000000097 := by decide +kernel

/-! ## One step each -/

/-- R7, R166: the end of INITIALISING with JOINEN high puts the ports into JOINING and writes the first record. -/
theorem test_end_of_initialising :
    ((after .endOfInitialising State.reset).port 7).state = .joining ∧
    (after .endOfInitialising State.reset).journal.next = 1 := by decide +kernel

/-- R57: the first labelled pulse sets the time and enters ACQUIRING. -/
theorem test_first_label :
    (after .referencePulse (part.setTb { part.tb with label := some ⟨19812, 2700, .none⟩ })).tb.tod = ⟨19812, 2700, 0⟩ ∧
    (after .referencePulse (part.setTb { part.tb with label := some ⟨19812, 2700, .none⟩ })).tb.loop = .acquiring := by
  decide +kernel

/-- R180: a second out of its bounds is refused with RANGE. -/
theorem test_time_mark_range :
    replyTo (.timeMark (request [0, 1, 1, 0x51, 0x80, 0])) part = some (.refused .range) := by decide +kernel

/-- R172: a length that fits no form is refused with LENGTH. -/
theorem test_length : replyTo (.setTimebase (request [4])) part = some (.refused .length) := by decide +kernel

/-- R63, R174: a gain above its range is clamped, and the answer says so. -/
theorem test_set_timebase_adjusted :
    replyTo (.setTimebase (request ([11, 8] ++ be 2 20 ++ be 4 1000 ++ be 4 3600))) part =
      some (.adjusted ([10, 8] ++ be 2 20 ++ be 4 1000 ++ be 4 3600)) := by decide +kernel

/-- R26: a window of eight addresses maps its first and its last address. -/
theorem test_load_window :
    (after (.loadWindow (request ([2, 1] ++ be 2 1024 ++ be 2 1047 ++ be 2 128))) part).decodeAddress 2 1047 = some 151 ∧
    (after (.loadWindow (request ([2, 1] ++ be 2 1024 ++ be 2 1047 ++ be 2 128))) part).decodeAddress 2 1048 = none := by
  decide +kernel

/-- R86: a command to the other end starts a supervision with its deadline. -/
theorem test_command_starts :
    ((part.setElement 130 (point (some 1))).takeCommand 130 (point (some 1)) 2 (captureAt 1000)).element 130 =
      some { point (some 1) with lastCommand := some 2, sup := .commanded 2 (captureAt 1000) (ns 8000001000) } := by decide +kernel

/-- R50: the carry of second 86,399 makes a new day, and day 65,535 is followed by day 0. -/
theorem test_carry :
    ({ part.tb with tod := ⟨65535, 86399, 1000000050⟩ } : Timebase).carry.tod = ⟨0, 0, 50⟩ := by decide

/-- R140: a good impulse advances the dials by one step, round the dial. -/
theorem test_step_wraps :
    ((runningLine.begin .step 0).succeed ⟨.step, .positive, 0, 0, none⟩ 0).line.position = 180 ∧
    (({ runningLine with position := 719 }).succeed ⟨.step, .positive, 0, 0, none⟩ 0).line.position = 0 := by decide

/-- R157, section 11.5: a record below the reserve level is lost at 3,840 and one at it passes. -/
theorem test_passes :
    Journal.afterReset.passes 5 3840 = false ∧ Journal.afterReset.passes 5 3839 = true ∧
    Journal.afterReset.passes 7 3841 = true ∧ Journal.afterReset.passes 7 4096 = false := by decide

/-- R48, R51: a life timer that started 3 units of 2^-32 ns into its nanosecond is not due at the whole nanosecond of its end. -/
theorem test_timer_keeps_fraction :
    let s (f : Nat) := (part.setTb { part.tb with elapsed := 2000000000, elapsedFrac := f }).setPort 0
      { restingPort with lifeTimeout := 2000, downRx := { restingPort.downRx with lifeSince := some 3 } }
    (s 2).lifeDue 0 .down = false ∧ (s 3).lifeDue 0 .down = true := by decide +kernel

/-- R84: 5 ms before a deadline and 1 unit of the fraction later, less than 5 ms are left. -/
theorem test_time_left_keeps_fraction :
    timeLeft { part.tb with elapsed := 3000000 }.instant (some (ms 8)) = 5 ∧
    timeLeft { part.tb with elapsed := 3000000, elapsedFrac := 1 }.instant (some (ms 8)) = 4 := by decide +kernel

/-- R172: a code that R186 does not give is refused with UNKNOWN. -/
theorem test_unknown_code : replyTo (.unknownRequestCode 3 (request [])) part = some (.refused .unknown) := by decide +kernel

/-- R64: an INSERT armed for the day makes second 86,400. -/
theorem test_insert_carry :
    ({ part.tb with tod := ⟨19812, 86399, 0⟩, armedLeap := some ⟨19812, .insert⟩ } : Timebase).nextSecond =
      (⟨19812, 86400⟩, some .insert) := by decide

/-! ## Witnesses: a state and operands for the hypotheses of each statement -/

theorem witness_StepRunsFront :
    ({ part with pending := [.referencePulse, .slewSpent] } : State).pending = .referencePulse :: [.slewSpent] := rfl

theorem witness_IdlePartKeepsTime :
    let boundary (c : Option ScheduledChange) := part.setTb { part.tb with carryDue := true, scheduled := c }
    let two := part.setTb { lockedTb with carryDue := true }
    (part.pending = [] ∧ part.initialising = false ∧ part.service = ⟨[], none, none⟩ ∧ part.due = []) ∧
    ((part.setTb lockedTb).service = ⟨[], none, none⟩ ∧ (part.setTb lockedTb).due = [.missNote] ∧
      ∀ o, Instr.missNote ≠ .secondBoundary o) ∧
    ((boundary none).due = [.secondBoundary ⟨false, []⟩] ∧ (boundary none).tb.scheduled = none ∧
      (boundary (some ⟨0, 0, 0⟩)).due = [.secondBoundary ⟨false, []⟩] ∧
      (boundary (some ⟨0, 0, 0⟩)).tb.scheduled = some ⟨0, 0, 0⟩) ∧
    (two.service = ⟨[], none, none⟩ ∧ two.due = .secondBoundary ⟨false, []⟩ :: .missNote :: []) ∧
    (({ part with service := ⟨[], some ⟨1, request []⟩, none⟩ } : State).due = [decodeRequest 1 (request [])]) ∧
    (({ part with service := ⟨[], some ⟨70, request []⟩, none⟩ } : State).due = [decodeRequest 70 (request [])]) := by
  refine ⟨?_, ⟨?_, ?_, fun o h => ?_⟩, ?_, ?_, ?_, ?_⟩
  all_goals first | decide +kernel | cases h

/-- A request in hand behind which others wait, a queue before an idle unit, and INITIALISING before its end and at it. -/
theorem witness_IdlePartKeepsTime_requests :
    let q : Queued := ⟨1, request []⟩
    let s (queue : List Queued) (hand : Option Queued) : State := { part with service := ⟨queue, hand, none⟩ }
    let late := State.reset.setTb { State.reset.tb with elapsed := 20000000 }
    ((s [q] (some q)).service.inHand ≠ none ∧ (s [q] (some q)).due = [decodeRequest 1 (request [])] ∧
      (s [q] (some q)).service.inHand = some q) ∧
    ((s [q, q] none).service = ⟨q :: [q], none, none⟩ ∧ (s [q] (some q)).due = [decodeRequest q.code q.request]) ∧
    (State.reset.pending = [] ∧ State.reset.initEnd = some (ms 20) ∧ State.reset.tb.instant < ms 20) ∧
    (late.pending = [] ∧ late.initEnd = some (ms 20) ∧ ms 20 ≤ late.tb.instant) := by decide +kernel

theorem witness_InitialisingTakesNothingUntilItsEnd :
    (State.reset.initialising = true ∧ Instr.referencePulse ≠ .endOfInitialising ∧ ∀ c t, Instr.referencePulse ≠ .deviceReset c t) ∧
    (State.reset.setTb { State.reset.tb with elapsed := 20000000 }).initEnd = some (ms 20) ∧
    ms 20 ≤ (State.reset.setTb { State.reset.tb with elapsed := 20000000 }).tb.instant ∧
    (State.reset.setTb { State.reset.tb with elapsed := 20000000 }).journal = Journal.afterReset :=
  ⟨⟨by decide, by decide, fun _ _ h => by cases h⟩, by decide, by decide, by decide⟩

/-- The straps with JOINEN high and low. -/
theorem witness_InitialisingTakesNothingUntilItsEnd_joinen :
    State.reset.straps.joinen = true ∧ (State.afterReset [] .powerUp ⟨false, false, false, 0⟩ 0).straps.joinen = false ∧
    (State.reset.port 7).transferEnd = none ∧ (State.reset.port 7).downRx.idle = true ∧ (State.reset.port 7).upRx.idle = true := by
  decide

theorem witness_RequestsAnsweredOnceRefusedChangeNothing :
    part.ready ∧ replyTo (.loadWindow (request [])) part = some (.refused .length) ∧
    (requestMeaning 20 [] (part.taking 20 (request []))).reply = .refused .length ∧
    knownRequestCodes.contains (0 : Byte) = false ∧ knownRequestCodes.contains (255 : Byte) = false := by decide +kernel

/-- Wrong lengths: a code without parameters that has one, one octet less and one more, and the forms that a length alone does not decide. -/
theorem witness_RequestsAnsweredOnceRefusedChangeNothing_lengths :
    part.ready ∧ knownRequestCodes.contains 1 = true ∧ (request [0]).params.length ∉ requestLengths 1 ∧
    (∀ n ∈ [13, 15, 33, 58], (request (List.replicate n 0)).params.length ∉ requestLengths 41) ∧
    (∀ n ∈ [4, 7, 9, 11], (request (List.replicate n 0)).params.length ∉ requestLengths 33) ∧
    (request []).params.length ∉ requestLengths 2 ∧
    ((2 : Byte) = 2 ∨ (2 : Byte) = 6) ∧ (request [8, 0]).params = [8, 0] ∧ (request [0, 60, 1]).params = [0, 60, 1] ∧
    (request (List.replicate 8 0)).params = [0, 0, 0, 0, 0, 0, 0, 0] := by decide

theorem witness_ResponseJoinsOrIsDiscarded :
    ({ restingPort with state := .inline, responses := List.replicate 3 ⟨1, 7, .done []⟩ } : Port).forwards = true ∧
    ({ restingPort with state := .inline, responses := List.replicate 3 ⟨1, 7, .done []⟩ } : Port).responses.length < 4 ∧
    restingPort.forwards = false ∧
    4 ≤ ({ restingPort with state := .inline, responses := List.replicate 4 ⟨1, 7, .done []⟩ } : Port).responses.length ∧
    (1 : PortId) ≠ (request []).port ∧ part.service.queue = [] ∧
    ({ part with service := ⟨[⟨1, request []⟩], none, none⟩ } : State).service = ⟨⟨1, request []⟩ :: [], none, none⟩ ∧
    ({ part with service := ⟨[], some ⟨1, request []⟩, none⟩ } : State).service.inHand ≠ none := by decide

theorem witness_ReadingChangesNothing :
    part.ready ∧ (request []).params = [] ∧ (request [1]).params = [1] ∧
    (request [2, 7]).params = [2, BitVec.ofNat 8 (7 : PortId).val] ∧ (request [6, 3]).params = [6, BitVec.ofNat 8 (3 : LineId).val] ∧
    (∀ k ∈ ([3, 4, 5, 7, 8] : List Byte), (request [k]).params = [k]) ∧
    (∀ g ∈ ([0, 1, 2] : List Byte), (request [7, g]).params = [BitVec.ofNat 8 (7 : PortId).val, g]) ∧ ofBe [7, 255] ≤ 2047 ∧
    (request [1, 0, 0]).params = [BankId.bankB.code, 0, 0] ∧
    (({ part with bankB := bankIn .loading } : State).bank .bankB).entries[ofBe [0, 0]]? = some entry ∧
    (({ part with bankB := bankIn .loading } : State).bank .bankB).entries[ofBe [0, 1]]? = none ∧
    (request [0, 0, 0, 1]).params = [0, 0, 0, 1] := by decide

/-- The part with an UP or a DOWN frame in reception on P0. -/
def receiving (x : Port) (d : Direction) (o : Opening) : State := withPort (x.setRx d { x.rx d with opening := some o })

/-- A silent port in BYPASS, so that a valid frame clears SILENT. -/
def silentReceiver (d : Direction) : Port := restingPort.setRx d { restingPort.rx d with silent := true }

/-- The content of a telegram of a kind from address 2, whose code is 2. -/
def telegram (kind : Nat) : List Bool := contentOf [BitVec.ofNat 8 (16 * kind), 0x02, 2, 0]

theorem witness_FramesAreCountedAndInterpreted :
    let o (bits : List Bool) := opened none bits
    let s (d : Direction) (k : Nat) := receiving (silentReceiver d) d (o ((telegram k).take 30))
    let collided (x : Port) := receiving x .up { opened none [] with collided := true }
    (∀ d, (((receiving relaying d (o [true])).port 0).rx d).opening = some (o [true]) ∧
      (((receiving restingPort d (o [true])).port 0).rx d).opening = some (o [true])) ∧
    ((o [true]).content ++ List.replicate 46 false ≠ [] ∧ ((o [true]).content ++ List.replicate 46 false).length ≤ 47 ∧
      (o [true]).collided = false) ∧
    ((collided restingPort).port 0).upRx.opening = some { opened none [] with collided := true } ∧
    (∀ d ∈ directions, ∀ k ∈ [1, 2, 3, 4, 5], (s d k).initialising = false ∧ ((s d k).port 0).state = .bypass ∧
      (((s d k).port 0).rx d).opening = some (o ((telegram k).take 30)) ∧ (((s d k).port 0).rx d).silent = true ∧
      (o ((telegram k).take 30)).collided = false ∧ (o ((telegram k).take 30)).removal = none ∧
      classify false ((telegram k).take 30 ++ (telegram k).drop 30) = .valid ∧
      telegramKind (telegramOctets ((telegram k).take 30 ++ (telegram k).drop 30)) = k ∧
      serviceHeader (s d k).straps (telegramOctets ((telegram k).take 30 ++ (telegram k).drop 30)) = false) := by
  refine ⟨fun d => by cases d <;> exact ⟨rfl, rfl⟩, by decide +kernel⟩

/-- A valid frame of each kind on a port that forwards and on one in JOINING, without a removal decision and with one against it; one that
collided, and an oversize one. -/
theorem witness_FramesAreCountedAndInterpreted_ports :
    let o (m : Option Removal) (c : Bool) (k : Nat) : Opening := { opened m ((telegram k).take 30) with collided := c }
    let s (x : Port) (d : Direction) (m : Option Removal) (c : Bool) (k : Nat) := receiving x d (o m c k)
    let whole (k : Nat) := (telegram k).take 30 ++ (telegram k).drop 30
    (∀ x ∈ [relaying, { relaying with state := .leaving }, { restingPort with state := .joining }], ∀ d ∈ directions,
      ∀ m ∈ [none, some ⟨false, true⟩], ∀ c ∈ [false, true], (s x d m c 1).initialising = false ∧
        (((s x d m c 1).port 0).rx d).opening = some (o m c 1) ∧ (o m c 1).collided = c ∧ (o m c 1).removal = m) ∧
    (∀ k ∈ [1, 2, 3, 4, 5], classify false (whole k) = .valid ∧ telegramKind (telegramOctets (whole k)) = k ∧
      serviceHeader part.straps (telegramOctets (whole k)) = false) ∧
    512 < ((opened none []).content ++ List.replicate 513 false).length ∧ (o none true 1).content ≠ [] := by decide +kernel

/-- Parts of a frame as they arrive: content of which the sixteenth bit decides the removal, and content of one that collided. -/
theorem witness_FramesAreCountedAndInterpreted_parts :
    let s (c : Bool) := receiving relaying .down { opened none (List.replicate 15 true) with collided := c }
    ∀ c, (s c).initialising = false ∧ ((s c).port 0).forwards = true ∧
      ((s c).port 0).downRx.opening = some { opened none (List.replicate 15 true) with collided := c } ∧
      ((opened none (List.replicate 15 true)).content ++ [true]).length = 16 ∧
      ((opened none (List.replicate 15 true)).content ++ []).length = 15 := by decide

theorem witness_RemovedRequestJoinsTheQueue :
    let content := contentOf [0xCF, 0xC0, 1, 7]
    let o (a : Bool) := opened (some ⟨true, a⟩) (content.take 20)
    let s := receiving relaying .down (opened none [])
    let t (a : Bool) := receiving relaying .down (o a)
    let full : State := { t true with service := ⟨List.replicate 8 ⟨1, request []⟩, none, none⟩ }
    let u := receiving restingPort .down (opened none (content.take 20))
    (s.initialising = false ∧ (s.port 0).forwards = true ∧
      (s.port 0).downRx.opening = some ⟨captureAt 0, false, none, []⟩ ∧ (s.port 0).downDelay.length = 40 ∧
      16 ≤ (content.take 16).length ∧ serviceHeader s.straps (octetsOf ((content.take 16).take 16)) = true) ∧
    (∀ a, ((t a).port 0).downRx.opening = some (o a) ∧ ((t a).port 0).downRx.silent = false ∧ ((t a).port 0).state ≠ .joining) ∧
    classify false ((o true).content ++ content.drop 20) = .valid ∧
    telegramKind (telegramOctets ((o true).content ++ content.drop 20)) = 12 ∧ (t true).service.queue.length < 8 ∧
    8 ≤ full.service.queue.length ∧
    ((u.port 0).state = .bypass ∧ (u.port 0).downRx.opening = some (opened none (content.take 20)) ∧
      serviceHeader u.straps (telegramOctets (content.take 20 ++ content.drop 20)) = true) := by decide +kernel

/-- A removal decided by the second piece of a frame and one decided with its end; endings in each class that is not valid; SILENT raised. -/
theorem witness_RemovedRequestJoinsTheQueue_endings :
    let content := contentOf [0xCF, 0xC0, 1, 7]
    let wrong := content.take 40 ++ (content.drop 40).map (!·)
    let s (l : List Bool) := receiving { relaying with downRx := { relaying.downRx with silent := true, checkFails := 3 } } .down (opened none l)
    let t := receiving relaying .down (opened (some ⟨true, true⟩) (content.take 30))
    (∀ k ∈ [1, 15], ((s (content.take k)).port 0).downRx.opening = some ⟨captureAt 0, false, none, content.take k⟩ ∧
      ((s (content.take k)).port 0).forwards = true ∧ ((s (content.take k)).port 0).downDelay.length = 40 ∧
      (content.take k).length < 16 ∧ 16 ≤ (content.take k ++ content.drop k).length ∧
      serviceHeader (s []).straps (octetsOf ((content.take k ++ content.drop k).take 16)) = true ∧
      ((s (content.take k)).port 0).downRx.silent = true ∧ (opened none (content.take k)).collided = false) ∧
    (t.port 0).downRx.opening = some (opened (some ⟨true, true⟩) (content.take 30)) ∧
    classify false (wrong.take 30 ++ wrong.drop 30) = .checkFailure ∧ classify false (content.take 30 ++ []) = .runt ∧
    classify false (content.take 30 ++ List.replicate 500 true) = .oversize ∧
    ((s []).port 0).errorThreshold ≤ ((s []).port 0).downRx.checkFails + 1 ∧ ((s []).port 0).downRx.errorRate = false := by decide +kernel

/-- A service telegram that a port in JOINING receives. -/
theorem witness_RemovedRequestJoinsTheQueue_joining :
    let content := contentOf [0xCF, 0xC0, 1, 7]
    let s := receiving { restingPort with state := .joining } .down (opened none (content.take 20))
    s.initialising = false ∧ (s.port 0).forwards = false ∧ (s.port 0).state = .joining ∧
    (s.port 0).downRx.opening = some (opened none (content.take 20)) ∧ (s.port 0).downRx.silent = false ∧
    classify false (content.take 20 ++ content.drop 20) = .valid ∧
    serviceHeader s.straps (telegramOctets (content.take 20 ++ content.drop 20)) = true := by decide +kernel

theorem witness_RelayPassesBitsInOrder :
    let s := receiving relaying .down (opened (some ⟨false, true⟩) [])
    let t := receiving relaying .up (opened none [true])
    let u := receiving relaying .down (opened none [])
    ((withPort relaying).port 0).downRx.opening = none ∧ ((receiving relaying .down (opened none [true])).port 0).downRx.inFrame = true ∧
    ((u.port 0).downRx.opening = some ⟨captureAt 0, false, none, []⟩ ∧ (u.port 0).downDelay.length = 40) ∧
    ({ restingPort with state := .joining } : Port).state = .joining ∧ restingPort.state ≠ .joining ∧
    restingPort.forwards = false ∧ relaying.forwards = true ∧ relaying.sending = [] ∧ relaying.held = [] ∧
    (s.initialising = false ∧ (s.port 0).forwards = true ∧
      (s.port 0).downRx.opening = some (opened (some ⟨false, true⟩) []) ∧ (opened (some ⟨false, true⟩) []).content ++ [true] ≠ []) ∧
    ((t.port 0).forwards = true ∧ (t.port 0).sending = [] ∧ (t.port 0).held = [] ∧
      (t.port 0).upRx.opening = some (opened none [true]) ∧ (opened none [true]).content ++ [] ≠ []) ∧
    (s.port 0).upRx.opening = none := by decide +kernel

/-- DOWN frames without a removal decision: one reported in one piece, one of seven bits, and one that collided. -/
theorem witness_RelayPassesBitsInOrder_undecided :
    let s (c : Bool) := receiving relaying .down { opened none [] with collided := c }
    (∀ c, (s c).initialising = false ∧ ((s c).port 0).forwards = true ∧
      ((s c).port 0).downRx.opening = some { opened none [] with collided := c }) ∧
    ((opened none []).content ++ List.replicate 7 false).length < 16 ∧
    (¬ ((opened none []).content ++ telegram 1).length < 16 ∧ (opened none []).content ++ telegram 1 ≠ [] ∧
      serviceHeader (s false).straps (octetsOf (((opened none []).content ++ telegram 1).take 16)) = false) ∧
    ({ opened none [] with collided := true } : Opening).collided = true := by decide +kernel

/-- An opening flag on an idle line, behind a frame cut short and behind a flag; content before and after the removal decision; a flag that
ends nothing, and one that ends content outside a frame. -/
theorem witness_RelayPassesBitsInOrder_parts :
    let s (d : Direction) (l : List Bool) := receiving relaying d (opened none l)
    (∀ d ∈ directions, ((s d [true]).port 0).forwards = true ∧ (((s d [true]).port 0).rx d).inFrame = true ∧ ((s d [true]).port 0).sending = [] ∧
      ((s d [true]).port 0).held = [] ∧ ((s d [true]).port 0).upDelay.length = 40 ∧
      (((withPort relaying).port 0).rx d).opening = none ∧ (((s d []).port 0).rx d).opening = some ⟨captureAt 0, false, none, []⟩) ∧
    ((s .down []).port 0).downDelay.length = 40 ∧ (opened none []).removal = none ∧
    (opened (some ⟨false, true⟩) [true]).removal = some ⟨false, true⟩ ∧
    ((withPort relaying).port 0).downRx.stray ++ [] = [] ∧ ((withPort relaying).port 0).downRx.stray ++ [true] ≠ [] := by decide

/-- R13, section 1.1: the zero inserted after five ones leaves the port although the ones came in two pieces and outside a frame. -/
theorem test_zero_inserted_across_pieces :
    let ones (n : Nat) := Instr.frameReceived 0 .down (.content (List.replicate n true))
    (((after (ones 2) (after (ones 3) (withPort relaying))).port 0).downDelay.drop 34) =
      List.replicate 5 (.content true) ++ [.content false] := by decide +kernel

theorem witness_FrameTouchesOnePort :
    (∃ u, exec (.frameReceived 0 .up (.opening false)) part = .next u) ∧
    ({ part with service := ⟨[], some ⟨1, request []⟩, none⟩ } : State).service.inHand = some ⟨1, request []⟩ := ⟨⟨_, rfl⟩, rfl⟩

/-- Content that fails its check. -/
def broken : List Bool := List.replicate 48 false

theorem witness_ErrorRateIsJudgedBySeconds :
    let x (fails : Nat) (raised : Bool) : Port :=
      { restingPort with upRx := { restingPort.upRx with checkFails := fails, errorRate := raised, cleanRun := 9 } }
    let s (fails : Nat) (raised : Bool) := receiving (x fails raised) .up (opened none [])
    (∀ r, (s 2 r).initialising = false ∧ ((s 2 r).port 0).state = .bypass ∧ ((s 2 r).port 0).upRx.opening = some (opened none [])) ∧
    classify false ((opened none []).content ++ broken) = .checkFailure ∧ (opened none []).collided = false ∧
    ((s 2 false).port 0).upRx.checkFails + 1 < ((s 2 false).port 0).errorThreshold ∧ ((s 3 true).port 0).upRx.errorRate = true ∧
    (((s 3 false).port 0).errorThreshold ≤ ((s 3 false).port 0).upRx.checkFails + 1 ∧ ((s 3 false).port 0).upRx.errorRate = false) ∧
    ((((withPort (x 3 true)).port 0).rx .up).checkFails < ((withPort (x 3 true)).port 0).errorThreshold ∧
      (((withPort (x 3 true)).port 0).rx .up).reached = false ∧ min 10 ((((withPort (x 3 true)).port 0).rx .up).cleanRun + 1) = 10) ∧
    ((((withPort (x 4 true)).port 0).rx .up).errorRate = true ∧
      ¬ (((withPort (x 4 true)).port 0).rx .up).checkFails < ((withPort (x 4 true)).port 0).errorThreshold) := by decide +kernel

/-- A check failure in each direction, on a port of each kind, that raises the condition and that does not. -/
theorem witness_ErrorRateIsJudgedBySeconds_ports :
    let s (x : Port) (d : Direction) (fails : Nat) :=
      receiving (x.setRx d { x.rx d with checkFails := fails }) d (opened none [])
    (∀ x ∈ [restingPort, relaying, { restingPort with state := .joining }], ∀ d ∈ directions,
      (∀ fails ∈ [2, 3], (s x d fails).initialising = false ∧
        (((s x d fails).port 0).rx d).opening = some (opened none []) ∧ (((s x d fails).port 0).rx d).errorRate = false) ∧
      ¬ ((s x d 2).port 0).errorThreshold ≤ (((s x d 2).port 0).rx d).checkFails + 1 ∧
      ((s x d 3).port 0).errorThreshold ≤ (((s x d 3).port 0).rx d).checkFails + 1) ∧
    classify false ((opened none []).content ++ broken) = .checkFailure := by decide +kernel

theorem witness_LossOfSignalIsRecorded :
    part.initialising = false ∧ (part.port 0).downRx.los = false ∧ (part.port 0).upRx.los = false ∧
    ((withPort { restingPort with downRx := { restingPort.downRx with los := true } }).port 0).downRx.los = true ∧
    ((withPort { restingPort with upRx := { restingPort.upRx with los := true } }).port 0).upRx.los = true := by decide

/-- A part at 2 s whose P0 has heard nothing since 0, with the window of P0 that maps E130 and nothing else of the table's eight. -/
def silentPart : State :=
  (((partAt 2000000000).setPort 0 { restingPort with
    downRx := { restingPort.downRx with lifeSince := some 0 }, upRx := { restingPort.upRx with lifeSince := some 0 } }).setWindow 0 0
      ⟨1024, 1031, 128⟩).setElement 130 (point (some 1))

theorem witness_LifeTimeoutRaisesSilent :
    silentPart.initialising = false ∧ silentPart.lifeDue 0 .down = true ∧ silentPart.lifeDue 0 .up = true ∧
    silentPart.element 130 = some (point (some 1)) ∧ (silentPart.mapping 130).any (fun m => m.port == 0) = true ∧
    (silentPart.mapping 127).any (fun m => m.port == 0) = false := by decide +kernel

/-- Two records of the port under supervision, in an element table in order. -/
theorem witness_LifeTimeoutRaisesSilent_interrupted :
    let moving := { point (some 1) with sup := .overdue 2 (captureAt 0) }
    let s := (silentPart.setElement 131 moving).setElement 128 moving
    tableWf s.elements ∧ s.lifeDue 0 .up = true ∧
    (s.supervised.filter fun x => (s.mapping x.1).any fun m => m.port == 0) = [(128, moving), (131, moving)] := by decide +kernel

theorem witness_RelayTransferFromQuietRunToEnd :
    let joining := { restingPort with state := .joining, quietSince := some 0 }
    let leaving := { relaying with state := .leaving, quietSince := some 0 }
    let s := (partAt 8000000).setPort 0 joining
    let t := (partAt 8000000).setPort 0 leaving
    let u := (partAt 5000000).setPort 0 { joining with quietSince := none, transferEnd := some (ms 5) }
    let v := (partAt 5000000).setPort 0 { leaving with quietSince := none, transferEnd := some (ms 5) }
    let pending (x : Port) := (partAt 8000000).setPort 0 { x with upRx := { x.upRx with opening := some (opened none []) } }
    (s.initialising = false ∧ (s.port 0).quietSince = some 0 ∧ 0 + ms (s.port 0).quiet ≤ s.tb.instant ∧
      (s.port 0).downRx.opening = none ∧ (s.port 0).upRx.opening = none ∧ (s.port 0).state = .joining) ∧
    (t.initialising = false ∧ (t.port 0).quietSince = some 0 ∧ 0 + ms (t.port 0).quiet ≤ t.tb.instant ∧
      (t.port 0).state = .leaving ∧ (t.port 0).transferEnd = none) ∧
    (u.initialising = false ∧ (u.port 0).transferEnd = some (ms 5) ∧ ms 5 ≤ u.tb.instant ∧ (u.port 0).state = .joining) ∧
    (v.initialising = false ∧ (v.port 0).transferEnd = some (ms 5) ∧ ms 5 ≤ v.tb.instant ∧ (v.port 0).state = .leaving) ∧
    (∀ x ∈ [joining, leaving], ((pending x).port 0).upRx.opening ≠ none ∧ ((pending x).port 0).quietSince = some 0 ∧
      ((pending x).port 0).quietHolds = true ∧ ((pending x).port 0).sending = []) ∧
    (({ joining with downDelay := [.mark] } : Port).downDelay.head? = some .mark) ∧
    ((receiving joining .up (opened none [])).port 0).upRx.opening = some (opened none []) ∧
    (∀ x ∈ [joining, leaving],
      ((withPort x).port 0).upRx.opening = none ∧ ((withPort x).port 0).upRx.stray ++ [true] ≠ [] ∧
      ((withPort x).port 0).transferEnd = none ∧ ((withPort x).port 0).downRx.idle = true) ∧
    (leaving.responses = [] ∧ leaving.inserting = none ∧ leaving.sending = [] ∧ leaving.held = []) := by
  decide

/-- R10: content without its opening flag is no idle; it ends a quiet run, and a new run begins at its closing flag. -/
theorem test_content_outside_a_frame_ends_a_run :
    let s := (partAt 700).setPort 0 { restingPort with state := .joining, quietSince := some 0 }
    let content := after (.frameReceived 0 .up (.content [true, false])) s
    (content.port 0).quietSince = none ∧ ((after (.frameReceived 0 .down (.idle true 3)) content).port 0).quietSince = none ∧
    ((after (.frameReceived 0 .up (.closed [])) content).port 0).quietSince = some (ns 700) := by decide +kernel

/-- R5, R10, R12: two flags back to back neither end a quiet run nor make a collision in the transfer. -/
theorem test_flags_are_idle :
    let joining := { restingPort with state := .joining, quietSince := some 0 }
    let flags (s : State) := after (.frameReceived 0 .up (.closed [])) (after (.frameReceived 0 .up (.opening true)) s)
    ((flags (withPort joining)).port 0).quietSince = some 0 ∧
    ((flags (withPort { joining with transferEnd := some 9 })).port 0).live.port.collisions = 0 ∧
    ((after (.frameReceived 0 .up (.content [true])) (after (.frameReceived 0 .up (.opening true))
      (withPort { joining with transferEnd := some 9 }))).port 0).live.port.collisions = 1 := by decide +kernel

/-- R5, R17: behind an opening flag two more flags are idle, and no closing flag comes out of the delay. -/
theorem test_lone_flag_is_idle :
    let flag (s : State) := after (.frameReceived 0 .up (.closed [])) s
    let s := flag (flag (after (.frameReceived 0 .up (.opening false)) (withPort relaying)))
    (s.port 0).upDelay = List.replicate 40 .flag ∧ (s.port 0).toCentre = List.replicate 24 .flag := by decide +kernel

/-- R10, R13: a line that idled in marks leaves marks in the delay when the port comes INLINE. -/
theorem test_delay_holds_what_arrived :
    let s := withPort { restingPort with state := .joining, transferEnd := some 0 }
    ((after (.relayTransferEnd 0) (after (.frameReceived 0 .down (.idle true 50)) s)).port 0).downDelay =
      List.replicate 40 .mark := by decide +kernel

theorem witness_InsertionAndBacklog :
    let r : Response := ⟨1, 7, .done []⟩
    let s := withPort { relaying with responses := [r], upFlags := 16 }
    let w := receiving { relaying with responses := [r], upFlags := 15 } .up (opened none [])
    let t := withPort { relaying with inserting := some r }
    let u := withPort { relaying with held := [.closing] }
    (s.initialising = false ∧ (s.port 0).state = .inline ∧ (s.port 0).transferEnd = none ∧ (s.port 0).responses = r :: [] ∧
      (s.port 0).inserting = none ∧ (s.port 0).held = [] ∧ 16 ≤ (s.port 0).upFlags) ∧
    ((w.port 0).upRx.opening ≠ none ∧ (w.port 0).upFlags < 16) ∧
    (let x := { relaying with held := [.closing], upRx := { relaying.upRx with stray := [true] } }
     ((withPort x).port 0).upRx.stray ≠ [] ∧ ((withPort x).port 0).held ≠ []) ∧
    (t.initialising = false ∧ (t.port 0).inserting = some r ∧ (t.port 0).sending = [] ∧ (t.port 0).state = .inline) ∧
    (u.initialising = false ∧ (u.port 0).forwards = true ∧ (u.port 0).upRx.opening = none ∧ (u.port 0).upRx.stray = [] ∧ (u.port 0).sending = [] ∧
      (u.port 0).held ≠ [] ∧ (u.port 0).held.length ≤ 640 ∧ (u.port 0).upDelay.length = 40) ∧
    (let x : Port := { relaying with sending := List.replicate 60 .opening, upDelay := List.replicate 40 (.content true) }
     x.forwards = true ∧ x.upDelay.length = 40 ∧ ([.closing] : List LineBit).length ≤ x.sending.length ∧
      (∀ b ∈ (x.upDelay ++ [LineBit.closing]).take 1, b = .closing ∨ b = .content true) ∧
      x.sending = .opening :: List.replicate 59 .opening) ∧
    (relaying.sending = [] ∧ relaying.held = [] ∧ ({ relaying with held := [.closing] } : Port).held = .closing :: []) := by
  decide +kernel

/-- Insertions of a port in LEAVING; opening flags behind a closing flag that stands whole in the buffer and behind a part of one. -/
theorem witness_InsertionAndBacklog_leaving :
    let r : Response := ⟨1, 7, .done []⟩
    let x : Port := { relaying with state := .leaving, responses := [r], upFlags := 16 }
    let y : Port := { relaying with state := .leaving, inserting := some r }
    let z (n : Nat) : Port := { relaying with
      held := List.replicate n .closing, upDelay := List.replicate 8 .opening ++ List.replicate 32 (.content true) }
    (((withPort x).port 0).forwards = true ∧ ((withPort x).port 0).responses = r :: [] ∧ ((withPort x).port 0).held = []) ∧
    (((withPort y).port 0).state = .leaving ∧ ((withPort y).port 0).inserting = some r ∧ ((withPort y).port 0).sending = [] ∧
      ((withPort y).port 0).transferEnd = none ∧ ((withPort y).port 0).downRx.idle = true) ∧
    (∀ n ∈ [1, 7, 8], (z n).forwards = true ∧ (z n).upDelay.length = 40 ∧ (z n).upDelay.take 8 = List.replicate 8 .opening ∧
      (z n).skipping = false ∧ (z n).sending ++ (z n).held ≠ []) ∧
    List.replicate 8 .closing <:+ (z 8).held ∧ ¬ List.replicate 8 .closing <:+ (z 7).held := by decide

/-- R13, R17: behind three bits of a closing flag that the buffer still holds, an opening flag and the content leave whole. -/
theorem test_no_part_of_a_flag :
    let x := Port.arrive { relaying with held := List.replicate 3 .closing, upDelay := openingBits ++ List.replicate 32 (.content true) } .up
      (List.replicate 11 .flag)
    x.toCentre = List.replicate 3 .closing ++ openingBits ∧ x.held = List.replicate 3 (.content true) := by decide

theorem witness_SetPortTakesItsSettings :
    let s := withPort { restingPort with
      downRx := { restingPort.downRx with lifeSince := some 0 }, upRx := { restingPort.upRx with lifeSince := some 0 } }
    let t := withPort { relaying with quietSince := none }
    let u := withPort { restingPort with accept := true }
    s.ready ∧
    (∀ life ∈ [100, 149, 65535], (request [0, 5, 0, 0, BitVec.ofNat 8 (life / 256), BitVec.ofNat 8 (life % 256), 0, 255, 1, 3]).params =
      [BitVec.ofNat 8 (0 : PortId).val, BitVec.ofNat 8 5, 0, 0,
      BitVec.ofNat 8 (life / 256), BitVec.ofNat 8 (life % 256), 0, 255, BitVec.ofNat 8 1, BitVec.ofNat 8 3]) ∧
    ((max 100 (min 10000 149) + 50) / 100 * 100 = 100 ∧ (max 100 (min 10000 65535) + 50) / 100 * 100 = 10000) ∧
    LineRate.ofCode 5 = some .k2048 ∧ flagOfCode 1 = some true ∧ LatchInterval.ofCode 3 = some .s900 ∧
    (.k2048 ≠ (s.port 0).rate ∧ (s.port 0).state = .bypass ∧ (s.port 0).downRx.opening = none ∧ (s.port 0).upRx.opening = none ∧
      (s.port 0).accept = false ∧ (s.port 0).quietSince = none ∧ (s.port 0).downRx.lifeSince = some 0 ∧
      s.tb.instant < 0 + ms 100 ∧ (s.port 0).upRx.lifeSince = some 0) ∧
    (.k2048 ≠ (t.port 0).rate ∧ (t.port 0).state ≠ .bypass) ∧
    ((u.port 0).accept = true ∧ flagOfCode 0 = some false ∧ ∀ q, q ≠ 0 → (u.port q).accept = false) ∧
    8 ≤ (8 : Byte).toNat ∧ 6 ≤ (6 : Byte).toNat ∧ 2 ≤ (2 : Byte).toNat ∧ 4 ≤ (4 : Byte).toNat := by decide

/-- What SET PORT does at once: a frame cut by another rate, a quiet run that has lasted the new interval, and life timers past the new
timeout in both directions, over a table in order. -/
theorem witness_SetPortTakesItsSettings_atOnce :
    let late (x : Port) : State := silentPart.setPort 0 { x with
      downRx := { x.downRx with lifeSince := some 0 }, upRx := { x.upRx with lifeSince := some 0 } }
    let s := late { restingPort with upRx := { restingPort.upRx with opening := some (opened none [true]) } }
    let t := late { relaying with state := .leaving, quietSince := some 0 }
    let r (rate : Nat) := request [BitVec.ofNat 8 (0 : PortId).val, BitVec.ofNat 8 rate, 0, 0, BitVec.ofNat 8 (100 / 256),
      BitVec.ofNat 8 (100 % 256), 8, 2, BitVec.ofNat 8 1, BitVec.ofNat 8 3]
    (s.ready ∧ tableWf s.elements ∧ LineRate.ofCode 5 = some .k2048 ∧ .k2048 ≠ (s.port 0).rate ∧ (s.port 0).state = .bypass ∧
      (r 5).params = [BitVec.ofNat 8 (0 : PortId).val, BitVec.ofNat 8 5, 0, 0, BitVec.ofNat 8 (100 / 256),
        BitVec.ofNat 8 (100 % 256), 8, 2, BitVec.ofNat 8 1, BitVec.ofNat 8 3] ∧
      (s.port 0).upRx.inFrame = true ∧ 100 = (max 100 (min 10000 100) + 50) / 100 * 100 ∧ 2 = max 2 (min 50 (2 : Byte).toNat) ∧
      ∀ d ∈ directions, ((s.port 0).rx d).silent = false ∧ ((s.port 0).rx d).lifeSince = some 0 ∧ 0 + ms 100 ≤ s.tb.instant) ∧
    (t.ready ∧ (t.port 0).state = .leaving ∧ (t.port 0).quietSince = some 0 ∧ 0 + ms 2 ≤ t.tb.instant ∧
      (t.port 0).downRx.opening = none ∧ (t.port 0).upRx.opening = none) := by decide +kernel

theorem witness_JoinAndLeaveTable :
    part.ready ∧ (request [7]).params = [BitVec.ofNat 8 (7 : PortId).val] ∧ (part.port 7).state = .bypass ∧
    ((withPort { restingPort with state := .inline }).port 0).state = .inline ∧
    ((withPort { restingPort with state := .inline }).port 0).accept = false ∧
    ((withPort { restingPort with state := .joining }).port 0).state = .joining ∧
    ((withPort { restingPort with state := .leaving }).port 0).state = .leaving ∧
    ((withPort { restingPort with state := .inline, accept := true }).port 0).accept = true ∧
    (∀ q : PortId, q ≠ 0 → (part.port q).state = .inline → (part.port q).accept = false) ∧
    (∃ q : PortId, q ≠ 0 ∧ ((part.setPort 7 { restingPort with state := .inline, accept := true }).port q).state = .inline ∧
      ((part.setPort 7 { restingPort with state := .inline, accept := true }).port q).accept = true) ∧ 7 < (8 : Byte).toNat := by
  decide

theorem witness_LatchMovesTheCounters :
    ({ part with latchInterval := .manual } : State).ready ∧ (request []).params = [] ∧
    ({ part with latchInterval := .manual } : State).latchInterval = .manual ∧ part.latchInterval ≠ .manual ∧
    (part.port 0).joinSince = none := by decide

/-- A port in JOINING for 5 s of which 2 ms are counted. -/
theorem witness_LatchMovesTheCounters_joining :
    let s := (part.setTb lockedTb).setPort 0 { restingPort with state := .joining, joinSince := some 0, joinCredited := 2 }
    (s.port 0).joinSince = some 0 ∧ (s.tb.instant - 0) / ms 1 = 5000 := by decide

theorem witness_LoadWindowMapsItsRange :
    let x : Window := ⟨4065 / 8 * 8, 4094 / 8 * 8 + 7, 2016⟩
    let moving := { point (some 1) with sup := .commanded 2 (captureAt 0) 1 }
    part.ready ∧
    (request ([7, 3] ++ be 2 4065 ++ be 2 4094 ++ be 2 2016)).params =
      [BitVec.ofNat 8 (7 : PortId).val, BitVec.ofNat 8 (3 : LineId).val] ++ be 2 4065 ++ be 2 4094 ++ be 2 2016 ∧
    2016 + (x.limit - x.base) ≤ 2047 ∧ 2047 < 2017 + (x.limit - x.base) ∧
    ¬ part.overlaps 7 3 x ∧ ¬ part.touches (part.window 7 3) ∧ ¬ part.touches x ∧
    (part.setWindow 7 2 ⟨4088, 4095, 0⟩).overlaps 7 3 x ∧ (part.setWindow 0 0 ⟨0, 7, 2040⟩).overlaps 7 3 x ∧
    (part.setElement 2047 moving).touches x ∧ ((part.setWindow 7 3 ⟨0, 7, 0⟩).setElement 7 moving).touches ⟨0, 7, 0⟩ := by
  unfold State.overlaps State.touches
  decide +kernel

/-- A port and a window that name none. -/
theorem witness_LoadWindowMapsItsRange_range :
    part.ready ∧ 7 < (8 : Byte).toNat ∧ 3 < (4 : Byte).toNat ∧ (request [8, 0, 0, 0, 0, 7, 0, 0]).params = [8, 0, 0, 0, 0, 7, 0, 0] ∧
    (request [7, 4, 0, 0, 0, 7, 0, 0]).params = [7, 4, 0, 0, 0, 7, 0, 0] := by decide

theorem witness_WindowLoadRealignsRecords :
    silentPart.element 130 = some (point (some 1)) ∧ silentPart.element 5 = none ∧
    sameMapping (silentPart.mapping 130) ((silentPart.takeWindow 1 0 ⟨0, 7, 0⟩).mapping 130) = true ∧
    sameMapping (silentPart.mapping 130) ((silentPart.takeWindow 0 0 ⟨1024, 1031, 1000⟩).mapping 130) = false := by decide +kernel

theorem witness_LoadElementGivesDefaults :
    let s (e : Element) := part.setElement 2047 e
    part.ready ∧ part.element 2047 = none ∧
    (∀ k ∈ [Kind.point, .signal, .other], (request (be 2 2047 ++ [k.code])).params = be 2 2047 ++ [k.code]) ∧
    (∀ e, (s e).ready ∧ (s e).element 2047 = some e) ∧
    (request (be 2 2047 ++ [Kind.code .signal, 0, Selection.code .toStop,
        BitVec.ofNat 8 (Bool.toNat true + 2 * Bool.toNat true + 4 * Bool.toNat false), 9] ++ be 2 65535 ++ be 2 0)).params =
      be 2 2047 ++ [Kind.code .signal, 0, Selection.code .toStop,
        BitVec.ofNat 8 (Bool.toNat true + 2 * Bool.toNat true + 4 * Bool.toNat false), 9] ++ be 2 65535 ++ be 2 0 ∧
    ((point none).sup = .idle ∧ ({ point none with sup := .uncommanded 1 } : Element).sup ≠ .idle ∧
      signal.loaded.kind = .signal ∧ signal.loaded.timetabled = true ∧ signal.loaded.kind ≠ .point ∧ signal.refs = 0 ∧
      0 < ({ signal with refs := 1 } : Element).refs) ∧
    (2047 < ofBe [8, 0] ∧ 3 < (4 : Byte).toNat ∧ (0 : Byte).toNat = 0) ∧
    (ofBe [7, 255] ≤ 2047 ∧ (2 : Byte).getLsbD 1 = true ∧ (1 : Byte).toNat ≠ 2 ∧ (3 : Byte).toNat = 3) := by
  refine ⟨by decide, by decide, by decide, fun e => ⟨⟨rfl, rfl⟩, rfl⟩, by decide, by decide, by decide, by decide⟩

/-- The 3-octet form on a present record: supervised, of the same kind, referred to, of another kind. -/
theorem witness_LoadElementGivesDefaults_present :
    let s (e : Element) := part.setElement 2047 e
    (∀ e ∈ [{ signal with sup := .uncommanded 1 }, signal, { signal with refs := 1 }], (s e).ready ∧ (s e).element 2047 = some e ∧
      e.loaded.kind = .signal ∧ e.loaded.timetabled = true ∧ e.loaded.kind ≠ .other) ∧
    (request (be 2 2047 ++ [Kind.code .signal])).params = be 2 2047 ++ [Kind.code .signal] ∧
    (request (be 2 2047 ++ [Kind.code .other])).params = be 2 2047 ++ [Kind.code .other] := by decide

theorem witness_RemoveElementEmptiesOneRecord :
    let moving := { point (some 1) with sup := .commanded 2 (captureAt 0) 1 }
    silentPart.ready ∧ (request (be 2 2048)).params = be 2 2048 ∧ 2047 < 2048 ∧ silentPart.element 2047 = none ∧
    silentPart.element 130 = some (point (some 1)) ∧ (point (some 1)).sup = .idle ∧ (point (some 1)).refs = 0 ∧
    silentPart.decodeAddress 0 1026 = some 130 ∧
    (part.setElement 0 moving).element 0 = some moving ∧ moving.sup ≠ .idle ∧
    (part.setElement 0 { point none with refs := 1 }).element 0 = some { point none with refs := 1 } ∧
    0 < ({ point none with refs := 1 } : Element).refs := by decide +kernel

theorem witness_ClearStatisticsZeroesThem :
    silentPart.ready ∧ silentPart.element 130 = some (point (some 1)) ∧ silentPart.element 2047 = none ∧
    (request (be 2 130)).params = be 2 130 ∧ (request [255, 255]).params = [255, 255] ∧
    (request (be 2 2048)).params = be 2 2048 ∧ (request (be 2 65534)).params = be 2 65534 := by decide

theorem witness_ReportsMoveTheCandidate :
    let k : Candidate := ⟨2, 1, captureAt 0, 0, false, false, false⟩
    let e := { point (some 1) with candidate := some k, loaded := { (point none).loaded with confirm := 3 } }
    (point (some 1)).accepted = some (mapCode .point 1).1 ∧ e.accepted ≠ some (mapCode e.loaded.kind 2).1 ∧
    e.candidate = some k ∧ k.state = (mapCode e.loaded.kind 2).1 ∧ k.count + 1 < e.loaded.confirm ∧
    k.state ≠ (mapCode e.loaded.kind 3).1 ∧ (point (some 1)).candidate = none ∧ 1 < (point (some 1)).loaded.confirm := by decide

/-- The first and the last address of a window, those just outside it, one that leads to a present record and one to an empty one; the codes
at the bounds of R32. -/
theorem witness_ReportsMoveTheCandidate_reached :
    let w := silentPart.window 0 0
    (w.base ≤ 1024 ∧ 1024 ≤ w.limit ∧ w.base ≤ 1031 ∧ 1031 ≤ w.limit ∧
      ∀ a ∈ [1024, 1031], ∀ v, v ≠ 0 → a < (silentPart.window 0 v).base ∨ (silentPart.window 0 v).limit < a) ∧
    (∀ a ∈ [1023, 1032], ∀ v, a < (silentPart.window 0 v).base ∨ (silentPart.window 0 v).limit < a) ∧
    (silentPart.decodeAddress 0 1026 = some 130 ∧ silentPart.element 130 = some (point (some 1))) ∧
    silentPart.decodeAddress 0 1032 = none ∧ (silentPart.decodeAddress 0 1024 = some 128 ∧ silentPart.element 128 = none) ∧
    mapCode .point 4 = (4, false) ∧ mapCode .point 5 = (4, true) ∧ mapCode .point 0 = (4, true) ∧
    mapCode .signal 15 = (15, false) ∧ mapCode .signal 16 = (14, true) ∧ mapCode .other 255 = (255, false) := by decide +kernel

theorem witness_AcceptanceDatesTheChange :
    let k : Candidate := ⟨2, 1, captureAt 0, 0, false, false, false⟩
    let e := { point (some 1) with candidate := some k }
    e.accepted ≠ some (mapCode e.loaded.kind 2).1 ∧ e.candidate = some k ∧ k.state = (mapCode e.loaded.kind 2).1 ∧
    e.loaded.confirm ≤ k.count + 1 ∧
    (signal.accepted ≠ some (mapCode signal.loaded.kind 3).1 ∧ signal.candidate = none ∧ signal.loaded.confirm ≤ 1) ∧
    (signal.loaded.selection = .all ∧ signal.loaded.timetabled = true ∧ signal.accepted = some 0 ∧ 13 < 14 ∧
      ({ signal.loaded with selection := .toStop } : Loaded).selection = .toStop ∧
      ({ signal.loaded with selection := .toProceed } : Loaded).selection = .toProceed ∧
      ({ signal.loaded with kind := .other } : Loaded).kind = .other ∧ (point none).accepted = none) := by decide

theorem witness_CommandTelegramsReachTheRecord :
    (point (some 1)).stale = false ∧ (point (some 1)).loaded.kind = .point ∧ signal.loaded.kind = .signal ∧
    ({ point (some 1) with stale := true } : Element).stale = true ∧ inCommandSet .point 3 = false ∧ inCommandSet .signal 14 = false ∧
    ({ (point none).loaded with kind := .other } : Loaded).kind = .other := by decide

theorem witness_CommandTelegramsReachTheRecord_reached :
    (silentPart.decodeAddress 0 1026 = some 130 ∧ silentPart.element 130 = some (point (some 1))) ∧
    silentPart.decodeAddress 0 1032 = none ∧ (silentPart.decodeAddress 0 1024 = some 128 ∧ silentPart.element 128 = none) ∧
    inCommandSet .point 2 = true ∧ inCommandSet .signal 13 = true := by decide +kernel

theorem witness_DatingSubtractsExactly :
    let t : TimeOfDay := ⟨0, 1, 5⟩
    (t.sec ≤ 86400 ∧ t.sec < 86400 ∧ t.nanos < 1000000000 ∧ ((1000000005 : Nat) : Int) ≤ t.linear + 0 ∧
      (t.linear : Int) + 0 < ((1000000006 : Nat) : Int)) ∧
    ((some ⟨65534, .insert⟩ : Option Leap) = some ⟨65534, .insert⟩ ∧ (65534 : Day).toNat < 65535 ∧
      (dateBack (some ⟨65534, .insert⟩) ⟨65535, 0, 0⟩ 1).tod.sec = 86400) := by decide

theorem witness_PointCommandTable :
    (point (some 2)).sup = .idle ∧ (point (some 2)).accepted = some 2 ∧ (point none).accepted = none ∧
    (point (some 1)).accepted = some 1 ∧ (point (some 1)).accepted ≠ some 2 ∧ (point (some 3)).accepted = some 3 ∧
    ({ point (some 1) with sup := .commanded 2 (captureAt 0) 1 } : Element).sup = .commanded 2 (captureAt 0) 1 ∧
    ({ point (some 1) with sup := .travelling 2 (captureAt 0) 1 } : Element).sup = .travelling 2 (captureAt 0) 1 ∧
    ({ point (some 1) with sup := .overdue 2 (captureAt 0) } : Element).sup = .overdue 2 (captureAt 0) ∧
    ({ point (some 1) with sup := .uncommanded 2 } : Element).sup = .uncommanded 2 := by decide

/-- A change to a state, FIRST REPORT or not. -/
def change (new : Nat) (first : Bool) : Change := ⟨0, some 1, new, first, false, ⟨⟨1, 0, 0⟩, .traceable⟩, false, false, 0, 0⟩

theorem witness_PointAnswerTable :
    ({ point (some 2) with sup := .commanded 2 (captureAt 0) 1 } : Element).sup = .commanded 2 (captureAt 0) 1 ∧
    ({ point (some 2) with sup := .travelling 2 (captureAt 0) 1 } : Element).sup = .travelling 2 (captureAt 0) 1 ∧
    ({ point (some 2) with sup := .overdue 2 (captureAt 0) } : Element).sup = .overdue 2 (captureAt 0) ∧
    (change 2 false).new = 2 ∧ (change 3 false).new = 3 ∧ (change 4 true).new = 4 ∧
    ((operateTime (change 2 false).origin (captureAt 0) 0).ms ≤ (point none).loaded.slowThreshold ∧
      (point none).loaded.slowThreshold < (operateTime 6001000000 (captureAt 0) 0).ms) ∧
    ((change 1 false).first = false ∧ (change 1 false).new = 1 ∧ (change 1 false).new ≠ 2) ∧
    ((change 1 true).first = true ∧ (change 1 true).new = 1) ∧
    ((point (some 1)).sup = .idle ∧ (change 3 false).silence = false ∧ (change 3 false).old = some 1 ∧ (change 2 false).new = 3 - 1) ∧
    ({ point (some 1) with sup := .uncommanded 1 } : Element).sup = .uncommanded 1 := by decide

/-- Operate times at the bounds of R80. -/
theorem witness_PointAnswerTable_times :
    (∀ n ∈ [-1, 0, 65535999999, 65536000000], (n : Int) = n - (((captureAt 0).elapsed : Int) + 0 * 1000)) ∧
    operateTime (-1) (captureAt 0) 0 = ⟨0, true⟩ ∧ operateTime 0 (captureAt 0) 0 = ⟨0, false⟩ ∧
    operateTime 65535999999 (captureAt 0) 0 = ⟨65535, false⟩ ∧ operateTime 65536000000 (captureAt 0) 0 = ⟨65535, false⟩ := by
  decide

theorem witness_SignalTables :
    signal.sup = .idle ∧ signal.accepted = some 0 ∧ signal.accepted ≠ some 13 ∧
    ({ signal with sup := .ordered 13 (captureAt 0) 1 } : Element).sup = .ordered 13 (captureAt 0) 1 ∧
    ({ signal with sup := .overdue 0 (captureAt 0) } : Element).sup = .overdue 0 (captureAt 0) ∧
    (change 13 false).new = 13 ∧ (change 14 true).new = 14 ∧ (change 15 false).new = 15 ∧ (change 0 false).new = 0 ∧
    ({ change 1 false with old := some 0 } : Change).old = some 0 ∧ (change 1 false).old ≠ some 0 := by decide

theorem witness_DeadlineFailsTheSupervision :
    let e (x : Supervision) : Element := { point (some 1) with sup := x }
    (partAt 9).initialising = false ∧ ns 9 ≤ (partAt 9).tb.instant ∧
    ((partAt 9).setElement 2047 (e (.commanded 2 (captureAt 0) (ns 9)))).element 2047 = some (e (.commanded 2 (captureAt 0) (ns 9))) ∧
    ((partAt 9).setElement 0 (e (.travelling 2 (captureAt 0) (ns 9)))).element 0 = some (e (.travelling 2 (captureAt 0) (ns 9))) ∧
    ((partAt 9).setElement 0 (e (.ordered 2 (captureAt 0) (ns 9)))).element 0 = some (e (.ordered 2 (captureAt 0) (ns 9))) := by decide

theorem witness_ScalesAdvanceAndSlewRunsOut :
    let s := part.setTb { lockedTb with slew := 200, slewLeft := 5 }
    (Timebase.afterReset.todFrac < 4294967296 ∧ Timebase.afterReset.elapsedFrac < 4294967296 ∧
      ({ Timebase.afterReset with rate := 50000, slew := -500000 } : Timebase).lawful) ∧
    s.initialising = false ∧ s.tb.lawful ∧ 0 < s.tb.slewLeft ∧ s.tb.carryDue = false ∧ s.tb.todFrac < 4294967296 ∧
    s.tb.elapsedFrac < 4294967296 ∧ (s.tb.run s.tb.slewLeft).tod.nanos < 1000000000 ∧
    (s.tb.run s.tb.slewLeft).elapsed < 18446744073709551615 := by
  unfold Timebase.lawful
  decide

theorem witness_SecondBoundaryCarries :
    let s (sec : Nat) (a : Option Leap) := part.setTb { lockedTb with tod := ⟨19812, sec, 999999900⟩, armedLeap := a }
    (∀ sec a, (s sec a).initialising = false ∧ (s sec a).tb.lawful ∧ (s sec a).tb.tod.nanos < 1000000000 ∧
      (s sec a).latchInterval = .s60 ∧ (s sec a).tb.carryDue = false) ∧ autumnPart.tb.carryDue = true ∧
    ((s 86398 (some ⟨19812, .delete⟩)).tb.tod.sec = 86398 ∧
      (s 86398 (some ⟨19812, .delete⟩)).tb.armedLeap = some ⟨(s 86398 (some ⟨19812, .delete⟩)).tb.tod.day, .delete⟩) ∧
    ((s 86399 (some ⟨19812, .insert⟩)).tb.tod.sec = 86399 ∧
      (s 86399 (some ⟨19812, .insert⟩)).tb.armedLeap = some ⟨(s 86399 (some ⟨19812, .insert⟩)).tb.tod.day, .insert⟩) ∧
    ((s 86400 none).tb.armedLeap = none ∧ (s 86400 none).tb.tod.sec ≤ 86400 ∧ 86399 ≤ (s 86400 none).tb.tod.sec) ∧
    ((s 86398 none).tb.armedLeap = none ∧ (s 86398 none).tb.tod.sec < 86399) ∧
    (autumnPart.tb.scheduled = some ⟨19980, 3600, 60⟩ ∧ autumnPart.tb.setFlag = true ∧
      autumnPart.carry.tb.time.daySec.before ⟨19980, 3600⟩ = false ∧ autumnPart.carry.tb.time.daySec.before ⟨19980, 3601⟩ = true) ∧
    (after (.secondBoundary ⟨false, []⟩) (s 59 none)).tb.tod.sec % 60 = 0 ∧
    (after (.secondBoundary ⟨false, []⟩) (s 60 none)).tb.tod.sec % 60 ≠ 0 := by
  refine ⟨fun sec a => ⟨rfl, ?_, ?_, rfl, rfl⟩, rfl, by decide, by decide, by decide, by decide, by decide +kernel, by decide +kernel,
    by decide +kernel⟩
  · simp [Timebase.lawful, State.setTb, lockedTb, Timebase.afterReset]
  · show 999999900 < 1000000000
    decide

/-- A leap that is not due, each latch interval, a leap at its carry, and a boundary that is due with a schedule reached, not reached, and
without one. -/
theorem witness_SecondBoundaryCarries_due :
    let s (a : Option Leap) (i : LatchInterval) : State := { part.setTb { lockedTb with
      tod := ⟨19812, 899, 999999900⟩, armedLeap := a } with latchInterval := i }
    let t (sec : Nat) (k : LeapKind) := part.setTb { lockedTb with tod := ⟨19812, sec, 1000000000⟩, armedLeap := some ⟨19812, k⟩ }
    let u (c : Option ScheduledChange) (f : Bool) := autumnPart.setTb { autumnPart.tb with scheduled := c, setFlag := f }
    ((s (some ⟨19812, .insert⟩) .s1).tb.armedLeap ≠ some ⟨(s none .s1).tb.tod.day, .delete⟩ ∧
      (s (some ⟨19812, .insert⟩) .s1).tb.tod.sec ≠ 86399) ∧
    (∀ i ∈ [LatchInterval.s1, .s60, .s900], ((s none i).latchInterval = i ∧
      (after (.secondBoundary ⟨false, []⟩) (s none i)).tb.tod.sec % 900 = 0 ∧
      (after (.secondBoundary ⟨false, []⟩) (s none i)).latchSeq = 1)) ∧ (s none .manual).latchInterval = .manual ∧
    ((t 86398 .delete).tb.armedLeap = some ⟨(t 86398 .delete).tb.tod.day, .delete⟩ ∧ (t 86398 .delete).tb.tod.sec = 86398) ∧
    ((t 86399 .insert).tb.armedLeap = some ⟨(t 86399 .insert).tb.tod.day, .insert⟩ ∧ (t 86399 .insert).tb.tod.sec = 86399) ∧
    (∀ c ∈ [none, some ⟨19980, 3600, 60⟩, some ⟨19980, 3601, 60⟩], ∀ f, (u c f).initialising = false ∧ (u c f).tb.carryDue = true ∧
      (u c f).tb.scheduled = c ∧ (u c f).tb.setFlag = f) ∧
    ((u none true).carry.tb.time.daySec.before ⟨19980, 3600⟩ = false ∧
      (u none true).carry.tb.time.daySec.before ⟨19980, 3601⟩ = true) := by decide +kernel

/-- R137: at a boundary a following line takes its new target by a decision, and a HALTED one takes it alone. -/
theorem test_boundary_retargets :
    let s := (autumnPart.setTb { autumnPart.tb with scheduled := none, tod := ⟨19980, 3659, 1000000050⟩ }).setLine 0
      { runningLine with state := .halted }
    let l (k : LineId) := (after (.secondBoundary ⟨false, []⟩) s).line k
    (l 1).target = some 181 ∧ (l 1).state = .catchingUp ∧ (l 0).target = some 181 ∧ (l 0).state = .halted := by decide +kernel

theorem witness_PulseAppliesTheLoop :
    let s (loop : LoopState) (good bad nanos : Nat) (fast : Bool) := part.setTb { lockedTb with
      loop := loop, good := good, bad := bad, fastReturn := fast, tod := ⟨19812, 28800, nanos⟩ }
    (part.setTb lockedTb).tb.tod.nanos < 1000000000 ∧ (part.setTb lockedTb).initialising = false ∧
    ((part.setTb { lockedTb with lastPulse := some (ns 4500000001) }).tb.lastPulse = some (ns 4500000001) ∧
      (part.setTb lockedTb).tb.instant < ns 4500000001 + ms 500) ∧
    ((part.setTb lockedTb).tb.acceptsPulse = true ∧ (part.setTb lockedTb).tb.label = none) ∧
    (∀ l g b n f, (s l g b n f).tb.loop = l ∧ (s l g b n f).tb.good = g ∧ (s l g b n f).tb.bad = b) ∧
    ((phaseError (s .locked 0 2 80001 false).tb.time).natAbs = 80001 ∧ 4 * (20 * 1000) < 80001 ∧ 3 ≤ min 255 (2 + 1)) ∧
    ((phaseError (s .acquiring 7 0 20000 false).tb.time).natAbs = 20000 ∧ 20000 ≤ 20 * 1000 ∧ 8 ≤ min 255 (7 + 1)) ∧
    ((s .holdover 0 0 300 true).tb.fastReturn = true ∧ (s .holdover 0 0 300 false).tb.fastReturn = false ∧
      20 * 1000 < (phaseError (s .holdover 0 0 20001 false).tb.time).natAbs) ∧
    (part.tb.loop = .free ∧ part.tb.acceptsPulse = true ∧ part.tb.label = none) ∧
    (let u := part.setTb { lockedTb with label := some ⟨19812, 28800, .none⟩, steps := 2 }
     u.tb.label = some ⟨19812, 28800, .none⟩ ∧ u.tb.time.nanos = 300 ∧ ¬ u.tb.stepThreshold * 1000 < (-300 : Int).natAbs ∧ 0 < 3) ∧
    (let u (day : Day) := part.setTb { lockedTb with label := some ⟨day, 28800, .insert⟩ }
     (u 19812).tb.acceptsPulse = true ∧ (u 19812).tb.label = some ⟨19812, 28800, .insert⟩ ∧
      dayDiff (u 19812).tb.tod.day 19812 ≤ 0 ∧ 0 < dayDiff (u 19811).tb.tod.day 19811) := by
  refine ⟨by decide, by decide, by decide, by decide, fun l g b n f => ⟨rfl, rfl, rfl⟩, by decide, by decide, by decide, by decide,
    by decide, by decide⟩

theorem witness_FirstLabelSetsTheTime :
    let s := part.setTb { part.tb with label := some ⟨19812, 2700, .none⟩ }
    let t := part.setTb { lockedTb with label := some ⟨19812, 28802, .none⟩, steps := 2 }
    (s.initialising = false ∧ s.tb.acceptsPulse = true ∧ s.tb.loop = .free ∧ s.tb.label = some ⟨19812, 2700, .none⟩ ∧
      s.tb.armedLeap = none) ∧
    (t.initialising = false ∧ t.tb.acceptsPulse = true ∧ t.tb.loop = .locked ∧ t.tb.label = some ⟨19812, 28802, .none⟩ ∧
      t.tb.armedLeap = none ∧ 2 ≤ t.tb.steps ∧ t.tb.stepThreshold * 1000 < (((((19812 : Day).toNat : Int) - t.tb.time.day.toNat) * 86400 +
        ((28802 : Int) - t.tb.time.sec)) * 1000000000 - t.tb.time.nanos).natAbs) ∧ t.tb.setFlag = true ∧
    DaySec.before ⟨19812, 28802⟩ ⟨19812, 28802⟩ = false ∧ DaySec.before ⟨19812, 28802⟩ ⟨19812, 28803⟩ = true := by decide

/-- A set and a step with each fate of an armed leap: none, executed at the landing, discarded, and kept. -/
theorem witness_FirstLabelSetsTheTime_leaps :
    let s (tb : Timebase) (l : Label) (a : Option Leap) := part.setTb { tb with label := some l, armedLeap := a, steps := 2 }
    let far (l : Label) := part.tb.stepThreshold * 1000 < ((((l.day.toNat : Int) - lockedTb.time.day.toNat) * 86400 +
      ((l.sec : Int) - lockedTb.time.sec)) * 1000000000 - lockedTb.time.nanos).natAbs
    (∀ tb ∈ [part.tb, lockedTb, { lockedTb with loop := .acquiring }],
      ∀ x ∈ ([(⟨19812, 28802, .none⟩, none), (⟨19813, 86400, .none⟩, some ⟨19813, .insert⟩),
        (⟨19814, 5, .none⟩, some ⟨19813, .delete⟩), (⟨19812, 28802, .none⟩, some ⟨19813, .insert⟩)] : List (Label × Option Leap)),
      (s tb x.1 x.2).initialising = false ∧ (s tb x.1 x.2).tb.acceptsPulse = true ∧ (s tb x.1 x.2).tb.label = some x.1 ∧
      (s tb x.1 x.2).tb.armedLeap = x.2 ∧ x.1.announcement = .none ∧ 2 ≤ (s tb x.1 x.2).tb.steps ∧ (s tb x.1 x.2).tb.loop = tb.loop ∧
      far x.1) ∧
    (dayDiff 19812 19813 ≤ 0 ∧ 0 < dayDiff 19814 19813 ∧ ¬ 0 < dayDiff 19812 19813) ∧
    (let u (c : Option ScheduledChange) := part.setTb { lockedTb with scheduled := c }
     (u none).tb.scheduled = none ∧ part.tb.setFlag = false ∧ (u (some ⟨19812, 28801, 60⟩)).tb.setFlag = true ∧
      (u (some ⟨19812, 28801, 60⟩)).tb.time.daySec.before ⟨19812, 28801⟩ = true ∧
      (u (some ⟨19812, 28800, 60⟩)).tb.time.daySec.before ⟨19812, 28800⟩ = false) := by decide

theorem witness_MissesEnterHoldoverAndDegrade :
    let s := part.setTb lockedTb
    let t := part.setTb { lockedTb with misses := 1 }
    let u := part.setTb { lockedTb with loop := .holdover, holdoverSince := some 0, elapsed := 3600000000000 }
    (s.initialising = false ∧ s.tb.nextNote = some (secs 5) ∧ secs 5 ≤ s.tb.instant ∧ s.tb.loop = .locked ∧
      s.tb.label = none ∧ s.tb.misses = 0) ∧
    (t.initialising = false ∧ t.tb.nextNote = some (secs 5) ∧ secs 5 ≤ t.tb.instant ∧ t.tb.loop = .locked ∧
      t.tb.label = none ∧ t.tb.misses = 1) ∧
    (u.initialising = false ∧ 60 ≤ u.tb.holdoverLimit ∧ u.tb.limitDue = true) := by decide

/-- A note in every loop state, with a pending label and without, at the first and the second note, with fast return pending and not. -/
theorem witness_MissesEnterHoldoverAndDegrade_notes :
    let s (l : LoopState) (m : Nat) (f : Bool) (b : Option Label) := part.setTb { lockedTb with
      loop := l, misses := m, fastReturn := f, label := b }
    ∀ l ∈ [LoopState.free, .acquiring, .locked, .holdover], ∀ m ∈ [0, 1, 65535], ∀ f,
      ∀ b ∈ ([none, some ⟨19812, 28801, .none⟩] : List (Option Label)),
      (s l m f b).initialising = false ∧ (s l m f b).tb.nextNote = some (secs 5) ∧ secs 5 ≤ (s l m f b).tb.instant ∧
      (s l m f b).tb.loop = l ∧ (s l m f b).tb.misses = m ∧ (s l m f b).tb.fastReturn = f ∧ (s l m f b).tb.label = b := by decide

theorem witness_TimeMarkAndSetTimebase :
    part.ready ∧ 86398 < 86399 ∧
    (request (be 2 (19812 : Day).toNat ++ be 3 86398 ++ [0])).params = be 2 (19812 : Day).toNat ++ be 3 86398 ++ [0] ∧ Announcement.code .none = 0 ∧ 86400 < 86401 ∧
    part.tb.loop ≠ .holdover ∧
    (request ([0, 255] ++ be 2 65535 ++ be 4 0 ++ be 4 4294967295)).params =
      [0, 255] ++ be 2 65535 ++ be 4 0 ++ be 4 4294967295 := by decide

/-- The boundary seconds of TIME MARK with each leap, a code that names no announcement, and SET TIMEBASE in HOLDOVER below, at and above
the age, DEGRADED in force and not. -/
theorem witness_TimeMarkAndSetTimebase_bounds :
    let s (a : Option Leap) := part.setTb { part.tb with armedLeap := a }
    let t (d : Bool) := part.setTb { lockedTb with
      loop := .holdover, holdoverSince := some 0, elapsed := 100000000000, degraded := d }
    ((s (some ⟨7, .insert⟩)).ready ∧ (s (some ⟨7, .insert⟩)).tb.armedLeap = some ⟨7, .insert⟩ ∧
      (s (some ⟨7, .delete⟩)).tb.armedLeap = some ⟨7, .delete⟩ ∧ (s none).tb.armedLeap ≠ some ⟨7, .insert⟩ ∧
      (s none).tb.armedLeap ≠ some ⟨7, .delete⟩ ∧ Announcement.none ≠ .insert ∧ Announcement.insert ≠ .delete) ∧
    (∀ a ∈ [Announcement.none, .insert, .delete], ∀ sec ∈ [86399, 86400],
      (request (be 2 7 ++ be 3 sec ++ [a.code])).params = be 2 (7 : Day).toNat ++ be 3 sec ++ [a.code]) ∧
    (request [0, 7, 0, 0, 1, 3]).params = [0, 7, 0, 0, 1, 3] ∧ 3 ≤ (3 : Byte).toNat ∧
    (∀ d, (t d).ready ∧ (t d).tb.loop = .holdover ∧ (t d).tb.degraded = d ∧ (t d).tb.holdoverAge = 100) ∧
    max 60 (min 86400 99) ≤ 100 ∧ max 60 (min 86400 100) ≤ 100 ∧ 100 < max 60 (min 86400 101) := by decide

/-- R53: an announcement code that names none is refused with RANGE. -/
theorem test_unknown_announcement : replyTo (.timeMark (request [0, 7, 0, 0, 1, 3])) part = some (.refused .range) := by decide +kernel

/-- R40: a selection code that names none is refused with RANGE. -/
theorem test_unknown_selection :
    replyTo (.loadElement (request [0, 5, 1, 2, 4, 0, 0, 0, 0, 0, 0])) part = some (.refused .range) := by decide +kernel

theorem witness_RelockRestartsTheLoop : (part.setTb lockedTb).ready ∧ (request []).params = [] := by decide

theorem witness_SetCivilOffsetChangesTheOffset :
    part.ready ∧ part.tb.civilOffset ≠ 15 * (-48) ∧ part.tb.civilOffset ≠ 15 * 56 ∧ part.tb.scheduled = none ∧
    (∀ l, (part.line l).state = .unset ∨ (part.line l).state = .halted) ∧
    (request (beSigned 2 (15 * (-48)))).params = beSigned 2 (15 * (-48)) ∧ part.tb.setFlag = false ∧
    (request ([1] ++ be 2 (65535 : Day).toNat ++ be 3 86399 ++ beSigned 2 (15 * 56))).params =
      [1] ++ be 2 (65535 : Day).toNat ++ be 3 86399 ++ beSigned 2 (15 * 56) ∧
    ((part.setTb lockedTb).ready ∧ (part.setTb lockedTb).tb.setFlag = true ∧ (part.setTb lockedTb).tb.civilOffset ≠ 15 * 56 ∧
      (part.setTb lockedTb).tb.time.daySec.before ⟨19812, 28800⟩ = false ∧
      (part.setTb lockedTb).tb.time.daySec.before ⟨19812, 28801⟩ = true ∧
      ∀ l, ((part.setTb lockedTb).line l).state = .unset) := by decide

/-- Offsets that are clamped and rounded, an instant behind and one ahead of a time that is set, codes and a second of day that are refused,
and a line that follows a target that changes. -/
theorem witness_SetCivilOffsetChangesTheOffset_adjusted :
    let s := (part.setTb lockedTb).setLine 0 runningLine
    (s.ready ∧ s.tb.setFlag = true ∧ (s.line 0).state = .running ∧
      (s.line 0).target ≠ Timebase.target { s.tb with civilOffset := 840 } (s.line 0).period) ∧
    (840 : Int) = 15 * roundDiv (clampInt (-720) 840 32767) 15 ∧ (-15 : Int) = 15 * roundDiv (clampInt (-720) 840 (-8)) 15 ∧
    (request (beSigned 2 (-8) ++ [0])).params = beSigned 2 (-8) ++ [0] ∧
    (∀ sec ∈ [28800, 28801], (request (beSigned 2 32767 ++ [1] ++ be 2 (19812 : Day).toNat ++ be 3 sec ++ beSigned 2 (-8))).params =
      beSigned 2 32767 ++ [1] ++ be 2 (19812 : Day).toNat ++ be 3 sec ++ beSigned 2 (-8)) ∧
    s.tb.time.daySec.before ⟨19812, 28800⟩ = false ∧ s.tb.time.daySec.before ⟨19812, 28801⟩ = true ∧
    2 ≤ (2 : Byte).toNat ∧ (request [0, 60, 2]).params = [0, 60, 2] ∧ 86399 < ofBe [1, 0x51, 0x80] ∧
    (request [1, 77, 100, 1, 0x51, 0x80, 0, 60]).params = [1, 77, 100, 1, 0x51, 0x80, 0, 60] := by decide +kernel

/-- R65, R66: 68 minutes are taken as 75, halves of a quarter of an hour away from zero, and −800 as −720. -/
theorem test_offset_adjusted :
    replyTo (.setCivilOffset (request (beSigned 2 68))) part = some (.adjusted (beSigned 2 75 ++ beSigned 2 75 ++ absent 7 ++ [0])) ∧
    replyTo (.setCivilOffset (request (beSigned 2 (-800)))) part =
      some (.adjusted (beSigned 2 (-720) ++ beSigned 2 (-720) ++ absent 7 ++ [0])) := by decide +kernel

theorem witness_BankStatesByRequest :
    let s (x : BankState) : State := { part with bankB := bankIn x }
    part.ready ∧ (part.bank .bankB).state = .empty ∧ ((s .loading).bank .bankB).state = .loading ∧
    (request ([BankId.bankB.code] ++ be 2 (19812 : Day).toNat ++ be 3 86399)).params =
      [BankId.bankB.code] ++ be 2 (19812 : Day).toNat ++ be 3 86399 ∧
    (((s .loading).bank .bankB).entries ≠ [] ∧ ((s .loading).bank BankId.bankB.other).state ≠ .armed) ∧
    ((s .armed).bank .bankB).state = .armed ∧ ((s .armed).bank .bankB).state ≠ .loading ∧
    ((s .armed).bank .bankB).state ≠ .empty ∧ (request [BankId.bankB.code]).params = [BankId.bankB.code] := by decide

/-- A bank in every state, with entries and without, beside another one ARMED; codes and seconds that are refused. -/
theorem witness_BankStatesByRequest_states :
    let s (x : BankState) : State := { part with bankA := bankIn .armed, bankB := bankIn x }
    (∀ x ∈ [BankState.empty, .loading, .armed, .active, .retiring], ∀ b ∈ [BankId.bankA, .bankB], (s x).ready ∧ (request [b.code]).params = [b.code] ∧
      ((s x).bank .bankB).state = x ∧ ((s x).bank BankId.bankB.other).state = .armed) ∧
    (({ part with bankB := { bankIn .loading with entries := [] } } : State).bank .bankB).entries = [] ∧
    (request [2]).params = [2] ∧ 2 ≤ (2 : Byte).toNat ∧ (request [0, 0, 0, 1, 0x51, 0x80]).params = [0, 0, 0, 1, 0x51, 0x80] ∧
    86399 < ofBe [1, 0x51, 0x80] := by decide

/-- R112, R113: CLEAR BANK of a LOADING bank lowers the count of the signal its entry names. -/
theorem test_clear_bank_lowers_counts :
    let s := ({ part with bankB := bankIn .loading }).setElement 140 { signal with refs := 1 }
    (after (.clearBank (request [1])) s).element 140 = some signal ∧
    (after (.clearBank (request [1])) s).bankB.state = .empty := by decide +kernel

theorem witness_LoadEntryAppendsAndRefers :
    let s := ({ part with bankB := { bankIn .loading with entries := [] } }.setElement 2047 signal).setElement 0 (point (some 1))
    let items : List RouteItem := [⟨0, 2⟩]
    s.ready ∧ items.length ≤ 6 ∧ (items.map RouteItem.point).Nodup ∧ (s.bank .bankB).state = .loading ∧
    (s.bank .bankB).entries.length < 3072 ∧
    s.element 2047 = some signal ∧ signal.loaded.kind = .signal ∧ signal.loaded.timetabled = true ∧ signal.refs < 65535 ∧
    (∀ i ∈ items, i.point ≤ 2047 ∧ (i.position = 1 ∨ i.position = 2)) ∧
    s.element 0 = some (point (some 1)) ∧ (point (some 1)).loaded.kind = .point ∧ (point (some 1)).refs < 65535 ∧
    (∀ x ∈ (s.bank .bankB).entries, x.openTime ≤ 100799 - 3600) ∧
    (request ([BankId.bankB.code] ++ be 2 2047 ++ be 3 100799 ++ be 2 3600 ++ be 2 7200 ++ be 4 (9 : BitVec 32).toNat ++
        items.flatMap (fun i => be 2 i.point ++ [BitVec.ofNat 8 i.position]))).params =
      [BankId.bankB.code] ++ be 2 2047 ++ be 3 100799 ++ be 2 3600 ++ be 2 7200 ++ be 4 (9 : BitVec 32).toNat ++
        items.flatMap (fun i => be 2 i.point ++ [BitVec.ofNat 8 i.position]) := by decide

/-- One state and entry for each row of the table of R111. -/
theorem witness_LoadEntryAppendsAndRefers_refusals :
    let s (x : Bank) := ({ part with bankB := x }.setElement 2047 signal).setElement 0 (point (some 1))
    let loading (es : List Entry) : Bank := { bankIn .loading with entries := es }
    (∀ code ∈ [(1 : Byte), 2], ∀ signal ∈ [2047, 2048], ∀ time ∈ [100799, 100800], ∀ early ∈ [3600, 3601, 65535],
      ∀ items ∈ ([[], [⟨0, 2⟩], [⟨0, 3⟩], [⟨2048, 1⟩], [⟨0, 1⟩, ⟨0, 2⟩]] : List (List RouteItem)),
      (request ([code] ++ be 2 signal ++ be 3 time ++ be 2 early ++ be 2 7201 ++ be 4 (9 : BitVec 32).toNat ++
          items.flatMap (fun i => be 2 i.point ++ [BitVec.ofNat 8 i.position]))).params =
        [code] ++ be 2 signal ++ be 3 time ++ be 2 early ++ be 2 7201 ++ be 4 (9 : BitVec 32).toNat ++
          items.flatMap (fun i => be 2 i.point ++ [BitVec.ofNat 8 i.position])) ∧
    (∀ x ∈ [BankState.empty, .armed, .active, .retiring], ((s (bankIn x)).bank .bankB).state = x ∧ x ≠ .loading) ∧
    ((s (loading [entry])).ready ∧ ((s (loading [entry])).bank .bankB).state = .loading ∧
      ((s (loading [entry])).bank .bankB).entries.getLast? = some entry ∧ 19380 - 1 < entry.openTime ∧
      entry.openTime ≤ 100799 - 3600) ∧
    (∀ x, (s (loading [])).element 0 = some x → x.loaded.kind ≠ .signal ∨ x.loaded.timetabled = false) ∧
    (∀ x, (s (loading [])).element 2047 = some x → x.loaded.kind ≠ .point) ∧
    (¬ ([⟨0, 1⟩, ⟨0, 2⟩].map RouteItem.point).Nodup ∧ (s (loading [])).element 2047 = some signal ∧
      (s (loading [])).element 0 = some (point (some 1))) := by
  refine ⟨by decide +kernel, by decide, by decide, ?_, ?_, by decide⟩ <;> (intro x h; cases h; decide)

/-- A LOADING bank that is full. -/
theorem witness_LoadEntryAppendsAndRefers_full :
    (({ part with bankB := { bankIn .loading with entries := List.replicate 3072 entry } } : State).bank .bankB).state = .loading ∧
    3072 ≤ (({ part with bankB := { bankIn .loading with entries := List.replicate 3072 entry } } : State).bank .bankB).entries.length := by
  refine ⟨rfl, ?_⟩
  show 3072 ≤ (List.replicate 3072 entry).length
  rw [List.length_replicate]

/-- The part on day 19812 at 03:00:00 and so many seconds, with a bank A in a state, whose start is 03:00:00. -/
def timetabled (state : BankState) (seconds : Nat) (e : Entry) : State :=
  { part.setTb { lockedTb with tod := ⟨19812, 10800 + seconds, 0⟩ } with bankA := { bankIn state with entries := [e] } }

theorem witness_CheckerActivatesWalksAndRetires :
    let s := timetabled .armed 0 entry
    let t := timetabled .active 19380 entry
    let u := { timetabled .active 0 { entry with status := .opened } with openList := [⟨.bankA, 0⟩] }
    let v (e : Entry) := { (timetabled .active 0 e) with bankA := { bankIn .active with start := some ⟨19810, 0⟩, entries := [e] } }
    (s.bankA.state = .armed ∧ 0 ≤ s.bankTimeNow .bankA ∧ s.tb.setFlag = true) ∧ part.tb.setFlag = false ∧
    ((t.bank .bankA).state = .active ∧ (t.bank .bankA).entries[0]? = some entry ∧ (entry.openTime : Int) ≤ t.bankTimeNow .bankA ∧
      t.bankTimeNow .bankA ≤ entry.closeTime ∧ entry.status = .pending ∧
      t.openList.length + (t.bank .bankA).entries.length ≤ 256) ∧
    ((u.closePassed 1).openList = [⟨.bankA, 0⟩] ∧ ((u.closePassed 1).entry ⟨.bankA, 0⟩).isSome = true) ∧
    (((v entry).bank .bankA).state = .active ∧ 100800 ≤ (v entry).bankTimeNow .bankA ∧ ((v entry).bank .bankA).count .opened = 0 ∧
      0 < ((v { entry with status := .opened }).bank .bankA).count .opened) := by decide +kernel

/-- Two banks with an OPEN entry each, bank A in a state and at a bank time, in the order of their close instants. -/
def twoBanks (state : BankState) (seconds : Nat) : State :=
  { timetabled state seconds { entry with status := .opened } with
    bankB := { bankIn .retiring with start := some ⟨19812, 10799⟩, entries := [{ entry with status := .opened }] }
    openList := [⟨.bankB, 0⟩, ⟨.bankA, 0⟩] }

theorem witness_CheckerActivatesWalksAndRetires_order :
    (twoBanks .active 19400).startsNear ∧ (twoBanks .active 19400).openListSorted ∧ (twoBanks .active 19400).openList.length < 256 ∧
    (twoBanks .active 19400).entry ⟨.bankA, 0⟩ = some { entry with status := .opened } ∧
    (twoBanks .active 19400).entry ⟨.bankB, 0⟩ = some { entry with status := .opened } ∧
    ((twoBanks .active 19400).bank .bankA).start = some ⟨19812, 10800⟩ ∧
    ((twoBanks .active 19400).bank .bankB).start = some ⟨19812, 10799⟩ := by
  refine ⟨⟨fun b x h => ?_, fun x y hx hy => ?_⟩, ?_, by decide⟩
  · cases b <;> cases h <;> decide
  · cases hx
    cases hy
    decide
  · unfold State.openListSorted
    decide

/-- An activation beside an ACTIVE bank and beside none; the advance on entries that open, that have passed, and that find the list full; the
closing of a head of either bank. -/
theorem witness_CheckerActivatesWalksAndRetires_cases :
    let s (other : BankState) := { timetabled .armed 0 entry with bankB := bankIn other }
    let t (n : Nat) (k : Nat) := { timetabled .active k entry with openList := List.replicate n ⟨.bankB, 0⟩ }
    (∀ o ∈ [BankState.active, .empty], ((s o).bank .bankA).state = .armed ∧ 0 ≤ (s o).bankTimeNow .bankA ∧ (s o).tb.setFlag = true ∧
      ∀ e ∈ ((s o).bank .bankA).entries, e.status = .pending ∨ e.status = .cancelled) ∧
    (∀ k ∈ [19380, 19800], ((t 0 k).bank .bankA).entries[0]? = some entry ∧ (entry.openTime : Int) ≤ (t 0 k).bankTimeNow .bankA ∧
      (t 0 k).bankTimeNow .bankA ≤ (entry.closeTime : Int) ∧ (t 0 k).openList.length + ((t 0 k).bank .bankA).entries.length ≤ 256) ∧
    ((entry.closeTime : Int) < (t 0 19801).bankTimeNow .bankA ∧ (t 0 19379).bankTimeNow .bankA < (entry.openTime : Int) ∧
      ¬ (t 256 19400).openList.length + ((t 256 19400).bank .bankA).entries.length ≤ 256) ∧
    (let u := twoBanks .active 19799
     u.bankTimeNow .bankB ≤ entry.closeTime ∧ u.openList = ⟨.bankB, 0⟩ :: [⟨.bankA, 0⟩] ∧
      (entry.closeTime : Int) < (twoBanks .active 19800).bankTimeNow .bankB ∧ (u.bank .bankB).state = .retiring ∧
      (u.bank .bankB).count .opened = 1) ∧
    (let u := { twoBanks .active 19801 with openList := [⟨.bankA, 0⟩] }
     u.openList = ⟨.bankA, 0⟩ :: [] ∧ (u.bank .bankA).state ≠ .retiring ∧ (entry.closeTime : Int) < u.bankTimeNow .bankA) := by
  decide +kernel

/-- R118, R120: the head whose close instant has passed closes MISSED, and the RETIRING bank that loses its last OPEN entry is emptied; the
other entry stays. -/
theorem test_head_closes_missed :
    let s := State.closePassed 2 (twoBanks .active 19800)
    s.openList = [⟨.bankA, 0⟩] ∧ s.bankB = Bank.afterReset ∧ s.journal.records.length = 2 := by decide +kernel

theorem witness_ClearingMatchesAnOpenEntry :
    let e : Entry := { entry with status := .opened }
    let s : State := { timetabled .active 0 e with
      bankA := { bankIn .active with entries := [e, { e with scheduled := 19499 }] }, openList := [⟨.bankA, 0⟩, ⟨.bankA, 1⟩] }
    let p (x : Element) := s.setElement 131 x
    (∀ b, (part.bank b).state ≠ .active ∧ (part.bank b).state ≠ .retiring) ∧ (s.bank .bankA).state = .active ∧
    (∀ r ∈ s.openList, ∀ x, s.entry r = some x → x.signal ≠ 139) ∧
    (⟨.bankA, 0⟩ ∈ s.openList ∧ s.entry ⟨.bankA, 0⟩ = some e ∧ e.signal = 140 ∧ (s.bank .bankA).state ≠ .retiring) ∧
    (s.openList = [⟨.bankA, 0⟩, ⟨.bankA, 1⟩] ∧ s.entry ⟨.bankA, 1⟩ = some { e with scheduled := 19499 } ∧
      (s.bank .bankA).start = some ⟨19812, 10800⟩ ∧ e.scheduled ≤ 100799) ∧
    (e.route[0]? = some ⟨131, 1⟩ ∧ (p (point (some 1))).shows ⟨131, 1⟩ 1 ∧ (p (point (some 2))).shows ⟨131, 1⟩ 2 ∧
      ¬ (p { point (some 1) with stale := true }).verifies ⟨131, 1⟩) := by
  refine ⟨fun b => by cases b <;> decide, by decide, ?_, by decide, by decide, ⟨by decide, ⟨_, rfl, rfl, rfl, rfl⟩, ⟨_, rfl, rfl, rfl, rfl⟩, ?_⟩⟩
  · intro r hr x hx
    simp only [List.mem_cons, List.not_mem_nil, or_false] at hr
    rcases hr with rfl | rfl <;> cases hx <;> decide
  · rintro ⟨v, f, hf, hs, -⟩
    cases hf
    cases hs

/-- A winner of a RETIRING bank, among others and alone, of two banks with scheduled instants that differ and that agree, and a route of
which some points show another end. -/
theorem witness_ClearingMatchesAnOpenEntry_retiring :
    let e : Entry := { entry with status := .opened }
    let s (n : Nat) : State := { twoBanks .active 0 with
      bankA := { bankIn .active with entries := [e], order := some 2 }
      bankB := { bankIn .retiring with start := some ⟨19812, n⟩, entries := [e], order := some 1 } }
    let item : RouteItem → Bool := fun i => i.point = 131
    (∀ n ∈ [10799, 10800], ((s n).bank .bankB).state = .retiring ∧ ((s n).bank .bankB).count .opened = 1 ∧
      (s n).winner 140 = some ⟨.bankB, 0⟩ ∧ (s n).entry ⟨.bankB, 0⟩ = some e ∧ e.status = .opened) ∧
    2 ≤ Bank.count { bankIn .retiring with entries := [e, e] } .opened ∧
    dayDiff 19812 19812 * 86400 + (((10799 : Nat) : Int) - (10800 : Nat)) + ((e.scheduled : Int) - e.scheduled) < 0 ∧
    (∀ i ∈ e.route, item i = true ↔ ∃ v, ((s 0).setElement 131 (point (some 2))).shows i v ∧ v ≠ i.position) := by
  refine ⟨by decide, by decide, by decide, ?_⟩
  intro i hi
  cases List.mem_singleton.mp hi
  exact ⟨fun _ => ⟨2, ⟨_, rfl, rfl, rfl, rfl⟩, by decide⟩, fun _ => by decide⟩

theorem witness_CancelAndAbandonCloseEntries :
    let isOpen : Entry := { entry with status := .opened }
    let s (x : BankState) (l : List Entry) : State := { part with bankB := { bankIn x with entries := l } }
    (s .active [entry]).ready ∧ (request [1, 0, 0]).params = [BankId.bankB.code, 0, 0] ∧
    ((s .active [entry]).bank .bankB).entries[ofBe [0, 0]]? = some entry ∧
    ((s .active [entry]).bank .bankB).entries[ofBe [0, 1]]? = none ∧ entry.status = .pending ∧
    ((s .active [entry]).bank .bankB).state ≠ .retiring ∧
    (((s .retiring [isOpen, isOpen]).bank .bankB).entries[ofBe [0, 0]]? = some isOpen ∧ isOpen.status = .opened ∧
      2 ≤ ((s .retiring [isOpen, isOpen]).bank .bankB).count .opened) ∧
    (((s .retiring [isOpen]).bank .bankB).state = .retiring ∧ ((s .retiring [isOpen]).bank .bankB).count .opened = 1) ∧
    ({ entry with status := .missed } : Entry).status.final = true ∧ (request [1]).params = [BankId.bankB.code] ∧
    ((s .active [entry]).bank .bankB).state = .active ∧ ((s .armed [entry]).bank .bankB).state ≠ .active := by
  decide

theorem witness_CancelAndAbandonCloseEntries_codes :
    part.ready ∧ 2 ≤ (2 : Byte).toNat ∧ (request [2, 0, 0]).params = [2, 0, 0] ∧ (request [2]).params = [2] := by decide

theorem witness_ResetTablesEmptiesTheTables :
    let s : State := { part with bankA := bankIn .active }
    let t (c : Option (Closings × Closings)) : State :=
      { s with service := ⟨[], some ⟨70, request []⟩, some ⟨request [], 0, c⟩⟩ }
    s.ready ∧ (request []).params = [] ∧ (s.bankA.state = .empty → s.bankA = Bank.afterReset) ∧
    (s.bankB.state = .empty → s.bankB = Bank.afterReset) ∧
    ((t none).initialising = false ∧ (t none).service.resetting = some ⟨request [], 0, none⟩) ∧
    (t (some (⟨0, 1⟩, ⟨0, 0⟩))).service.resetting = some ⟨request [], 0, some (⟨0, 1⟩, ⟨0, 0⟩)⟩ ∧ (2 : Byte) ≠ 70 ∧
    request [1] ≠ request [] := by decide

/-- Records under supervision in a table in order, beside two banks of which one is not EMPTY. -/
theorem witness_ResetTablesEmptiesTheTables_records :
    let moving := { point (some 1) with sup := .overdue 2 (captureAt 0) }
    let s : State := { (silentPart.setElement 131 moving).setElement 128 moving with bankB := bankIn .active }
    s.ready ∧ tableWf s.elements ∧ s.supervised = [(128, moving), (131, moving)] ∧ s.bankA.state = .empty ∧
    s.bankB.state ≠ .empty := by decide +kernel

/-- R171, R181: RESET TABLES pauses after its first step, and a request taken then finds the tables empty. -/
theorem test_reset_tables_pauses :
    let s := (silentPart.setElement 130 { point (some 1) with sup := .overdue 2 (captureAt 0) }).takeReset (request []) true
    s.element 130 = some (point (some 1)) ∧ s.service.inHand = some ⟨70, request []⟩ ∧
    (after (.readStatus (request [1])) s).element 130 = none ∧
    (after (.readStatus (request [1])) s).service = ⟨[], none, none⟩ := by decide +kernel

theorem witness_DecisionsAndImpulseStarts :
    let x (d t : Nat) : Line := { runningLine with position := d, target := some t }
    (∀ d ∈ [0, 719], ∀ t ∈ [0, 629, 630, 719], (x d t).target = some t ∧ t < (x d t).period.steps ∧
      (x d t).position < (x d t).period.steps ∧ (x d t).impulse = none ∧ (x d t).waitWindow ≤ 360) ∧
    (x 0 630).period.steps - (x 0 630).waitSteps ≤ (630 + (x 0 630).period.steps - 0) % (x 0 630).period.steps ∧
    ((0 + (x 0 0).period.steps - 0) % (x 0 0).period.steps = 0 ∧ 0 < (x 0 0).period.steps - (x 0 0).waitSteps) ∧
    (0 + (x 719 0).period.steps - 719) % (x 719 0).period.steps = 1 ∧
    (2 ≤ (629 + (x 0 629).period.steps - 0) % (x 0 629).period.steps ∧
      (629 + (x 0 629).period.steps - 0) % (x 0 629).period.steps < (x 0 629).period.steps - (x 0 629).waitSteps) := by decide

/-- Every pair of a state left and a state entered, by the lag, with the time of an impulse and without a target. -/
theorem witness_DecisionsAndImpulseStarts_notes :
    let x (y : LineState) (t : Nat) : Line := { runningLine with state := y, target := some t }
    (∀ y ∈ [LineState.running, .catchingUp, .waiting, .fault, .halted, .unset],
      ((x y 179).decision 0).line.state = .running ∧ ((x y 178).decision 0).line.state = .waiting ∧
      ((x y 190).decision 0).line.state = .catchingUp ∧ (x y 179).state = y) ∧
    (({ runningLine with target := none } : Line).target = none) ∧ (runningLine.begin .step 0).impulse ≠ none := by decide

theorem witness_DecisionsAndImpulseStarts_starts :
    let s := (partAt 9).setLine 3 { runningLine with nextStart := some (ns 9) }
    let t := (partAt 9).setLine 3 { runningLine with state := .fault, nextProbe := some (ns 9) }
    (s.initialising = false ∧ (s.line 3).impulse = none ∧ ns 9 ≤ s.tb.instant ∧ (s.line 3).nextStart = some (ns 9)) ∧
    ((t.line 3).impulse = none ∧ (t.line 3).state = .fault ∧ (t.line 3).nextProbe = some (ns 9) ∧ (t.line 3).lastStart = none) := by
  decide

theorem witness_SampleAndEndOfAnImpulse :
    let i (k : Purpose) (j : Option Sense) : Impulse := ⟨k, .positive, 0, ms 600, j⟩
    let s (t : Nat) (k : Purpose) (j : Option Sense) (f : Option FaultKind) := (partAt t).setLine 0 { runningLine with
      impulse := some (i k j), faultKind := f }
    let probing (f : FaultKind) (t : Option Nat) (j : Sense) := (partAt 600000000).setLine 0 { runningLine with
      impulse := some (i .probe (some j)), state := .fault, faultKind := some f, target := t }
    let halting (j : Option Sense) := (partAt 600000000).setLine 0 { runningLine with
      impulse := some (i .step j), haltPending := true }
    (∀ k f, (s 300000000 k none f).initialising = false ∧ ((s 300000000 k none f).line 0).impulse = some (i k none) ∧
      (i k none).judged = none ∧ ((s 300000000 k none f).line 0).haltPending = false ∧
      ((s 300000000 k none f).line 0).faultKind = f ∧
      (i k none).start + ((i k none).finish - (i k none).start) / 2 ≤ (s 300000000 k none f).tb.instant) ∧
    (∀ j, ((s 600000000 .step (some j) none).line 0).impulse = some (i .step (some j)) ∧
      (i .step (some j)).finish ≤ (s 600000000 .step (some j) none).tb.instant ∧ (i .step (some j)).judged = some j) ∧
    (∀ f t j, ((probing f t j).line 0).impulse = some (i .probe (some j)) ∧ ((probing f t j).line 0).state = .fault ∧
      ((probing f t j).line 0).haltPending = false ∧ ((probing f t j).line 0).target = t ∧
      ((probing f t j).line 0).faultKind = some f ∧ ms 600 ≤ (probing f t j).tb.instant) ∧
    (∀ j, ((halting j).line 0).impulse = some (i .step j) ∧ ((halting j).line 0).haltPending = true ∧
      ms 600 ≤ (halting j).tb.instant) := by
  have half : 0 + (ms 600 - 0) / 2 ≤ ns 300000000 + 0 := by decide
  have whole : ms 600 ≤ ns 600000000 + 0 := by decide
  exact ⟨fun k f => ⟨rfl, rfl, rfl, rfl, rfl, by cases k <;> exact half⟩, fun j => ⟨rfl, whole, rfl⟩,
    fun f t j => ⟨rfl, rfl, rfl, rfl, rfl, whole⟩, fun j => ⟨rfl, rfl, whole⟩⟩

/-- Halt pending in a step impulse and in a probe, with each result. -/
theorem witness_SampleAndEndOfAnImpulse_halting :
    let s (k : Purpose) (j : Option Sense) (f : Option FaultKind) := (partAt 600000000).setLine 0 { runningLine with
      impulse := some ⟨k, .positive, 0, ms 600, j⟩, state := .fault, faultKind := f, haltPending := true }
    ∀ k ∈ [Purpose.step, .probe], ∀ j ∈ [none, some Sense.healthy, some .below], ∀ f ∈ [none, some FaultKind.opened, some .short],
      (s k j f).initialising = false ∧ ((s k j f).line 0).impulse = some ⟨k, .positive, 0, ms 600, j⟩ ∧
      ((s k j f).line 0).haltPending = true ∧ ms 600 ≤ (s k j f).tb.instant ∧ 0 + (ms 600 - 0) / 2 ≤ (s k j f).tb.instant := by decide +kernel

/-- R142, R143: a probe judged LOW on a line halted during it leaves the line HALTED with its new fault kind and no next probe. -/
theorem test_halted_probe :
    let s := after (.impulseEnd 0) ((partAt 600000000).setLine 0 { runningLine with
      impulse := some ⟨.probe, .positive, 0, ms 600, some .below⟩, state := .fault, faultKind := some .short, haltPending := true })
    (s.line 0).state = .halted ∧ (s.line 0).faultKind = some .opened ∧ (s.line 0).haltPending = false ∧
    (s.line 0).nextProbe = none ∧ s.journal.records.length = 2 := by decide +kernel

/-- R142: a good probe of a line whose target is one step ahead clears the fault and leaves the line RUNNING at its target. -/
theorem test_good_probe :
    let s := (partAt 600000000).setLine 0 { runningLine with
      impulse := some ⟨.probe, .positive, 0, ms 600, some .healthy⟩, state := .fault, faultKind := some .short, target := some 180 }
    ((after (.impulseEnd 0) s).line 0).state = .running ∧ ((after (.impulseEnd 0) s).line 0).faultKind = none ∧
    ((after (.impulseEnd 0) s).line 0).lag = some 0 := by decide +kernel

theorem witness_LineRequestsOnARestingLine :
    let halted := { runningLine with state := .halted, target := none }
    let s := part.setLine 3 halted
    let t := part.setLine 3 runningLine
    let u := part.setLine 3 { runningLine with impulse := some ⟨.step, .positive, 0, ms 600, none⟩ }
    (request ([BitVec.ofNat 8 (3 : LineId).val, Period.code .p1440] ++ be 2 (50 * 40) ++ be 2 (50 * 200) ++ be 2 360 ++ be 2 600)).params =
      [BitVec.ofNat 8 (3 : LineId).val, Period.code .p1440] ++ be 2 (50 * 40) ++ be 2 (50 * 200) ++ be 2 360 ++ be 2 600 ∧
    (s.ready ∧ (s.line 3).state = .halted ∧ (s.line 3).period = .p720 ∧ (s.line 3).period ≠ .p1440 ∧ (s.line 3).impulse = none ∧
      719 < (s.line 3).period.steps ∧ (s.line 3).faultKind = none ∧ (s.line 3).target = none ∧ (s.line 3).haltPending = false) ∧
    ((t.line 3).state = .running ∧ (t.line 3).impulse = none ∧ (u.line 3).state = .running ∧ (u.line 3).impulse ≠ none) ∧
    (part.line 3).state = .unset ∧ (request [3]).params = [BitVec.ofNat 8 (3 : LineId).val] ∧
    (let x (t : Nat) : Line := { runningLine with state := .halted, target := some t }
     ((x 180).decision 0).line.state = .running ∧ ((x 178).decision 0).line.state = .waiting ∧
      ((x 190).decision 0).line.state = .catchingUp ∧ (x 180).faultKind = none ∧ (x 180).state = .halted) ∧
    (({ halted with faultKind := some .short } : Line).faultKind = some .short ∧
      ({ runningLine with haltPending := true } : Line).state ≠ .halted ∧ ({ runningLine with haltPending := true } : Line).state ≠ .unset) := by
  decide

/-- SET LINE and SET POSITION on a line of each state, in an impulse and not; HALT in each state; the values that are refused. -/
theorem witness_LineRequestsOnARestingLine_states :
    let i : Impulse := ⟨.step, .positive, 0, ms 600, none⟩
    let s (y : LineState) (j : Option Impulse) (b : Option Nat) := part.setLine 3 { runningLine with
      state := y, impulse := j, probeBase := b, faultKind := if y = .fault then some .short else none }
    (∀ y ∈ [LineState.running, .catchingUp, .waiting, .fault, .halted, .unset], ∀ j ∈ [none, some i], ∀ b ∈ [none, some 9],
      (s y j b).ready ∧ ((s y j b).line 3).state = y ∧ ((s y j b).line 3).impulse = j ∧ ((s y j b).line 3).probeBase = b ∧
      ((s y j b).line 3).period = .p720) ∧
    (∀ width ∈ [0, 624, 625, 65535], (request ([BitVec.ofNat 8 (3 : LineId).val, Period.code .p720] ++ be 2 width ++ be 2 65535 ++
        be 2 361 ++ be 2 0)).params =
      [BitVec.ofNat 8 (3 : LineId).val, Period.code .p720] ++ be 2 width ++ be 2 65535 ++ be 2 361 ++ be 2 0) ∧
    (∀ d ∈ [0, 719, 720], (request ([3] ++ be 2 d ++ [Polarity.code .negative])).params =
      [BitVec.ofNat 8 (3 : LineId).val] ++ be 2 d ++ [Polarity.code .negative]) ∧
    (runningLine.period.steps ≤ 720 ∧ 719 < runningLine.period.steps ∧ 4 ≤ (4 : Byte).toNat ∧ 2 ≤ (2 : Byte).toNat) := by decide

/-- R135: SET POSITION takes a line out of UNSET by the decision. -/
theorem test_set_position_leaves_unset :
    let s := part.setLine 3 { Line.afterReset with target := some 180 }
    ((after (.setPosition (request [3, 0, 179, 0])) s).line 3).state = .running ∧
    ((after (.setPosition (request [3, 0, 179, 0])) s).line 3).position = 179 := by decide +kernel

/-- A journal whose counter stands at 3, with so many records. -/
def journalOf (n : Nat) : Journal :=
  { Journal.afterReset with
    next := 3, records := List.replicate n ⟨0, ⟨2, ⟨⟨0, 0, 0⟩, .unset⟩, false, false, .uncommanded 0 .movement⟩⟩ }

theorem witness_SequenceNumbersAreJudged :
    part.ready ∧ (request [0, 0, 0, 2]).params = [0, 0, 0, 2] ∧ ((3 : SeqNo) - (journalOf 5).next).toNat < 2147483648 ∧
    (¬ ((2 : SeqNo) - (journalOf 5).next).toNat < 2147483648 ∧ 1 ≤ ((journalOf 5).next - 2).toNat ∧
      ((journalOf 5).next - 0xFFFFFFFE).toNat ≤ (journalOf 5).fill) ∧
    (¬ ((0xFFFFFFFD : SeqNo) - (journalOf 5).next).toNat < 2147483648 ∧
      ¬ (1 ≤ ((journalOf 5).next - 0xFFFFFFFD).toNat ∧ ((journalOf 5).next - 0xFFFFFFFD).toNat ≤ (journalOf 5).fill)) ∧
    (journalOf 0).fill = 0 ∧ (journalOf 5).place 3 = .ahead ∧ (journalOf 5).place 0xFFFFFFFD = .behind ∧
    (journalOf 5).place 2 = .held := by decide

/-- A record of the class MOVEMENT at a level. -/
def offerAt (level : Nat) : Offer := ⟨level, ⟨⟨0, 0, 0⟩, .unset⟩, false, false, .uncommanded 0 .movement⟩

theorem witness_AdmissionLossAndGap :
    let g : Gap := ⟨⟨1, 0, 0, 0, 0, 0, 0⟩, ⟨⟨0, 0, 0⟩, .unset⟩, ⟨⟨0, 0, 0⟩, .unset⟩⟩
    ((Journal.afterReset).classes.get (classOf (offerAt 7).body)).enabled = true ∧ (journalOf 5).gap = none ∧
    ({ journalOf 5 with gap := some g } : Journal).gap = some g ∧
    ((journalOf 3839).fill < 3840 ∧ ¬ (journalOf 0).reserve ≤ (offerAt 5).level ∧ (journalOf 0).reserve ≤ (offerAt 6).level) ∧
    (3840 ≤ (journalOf 3840).fill ∧ (journalOf 3838).fill + 1 < 3840 ∧ 3840 ≤ (journalOf 3839).fill + 1) ∧
    (((journalOf 0).classes.set .movement ⟨5, false⟩).get (classOf (offerAt 7).body)).enabled = false := by
  refine ⟨by decide, by decide, by decide, ?_, ?_, by decide⟩ <;>
    simp only [Journal.fill, journalOf, List.length_replicate] <;> decide

/-- A raised reserve level with more than 3,840 records below it. -/
theorem witness_JournalSettingsAndRelease_raised :
    (({ journalOf 3841 with reserve := 2 } : Journal).reserve < 3) ∧
    3840 < ({ journalOf 3841 with reserve := 2 } : Journal).records.countP (fun x => decide (x.offer.level < 3)) := by
  refine ⟨by decide, ?_⟩
  simp only [journalOf]
  rw [List.countP_replicate]
  decide

theorem witness_JournalSettingsAndRelease :
    let s := part.setJournal (journalOf 5)
    s.ready ∧ (request [6, 8, 1]).params = [6, 8, 1] ∧ JournalClass.ofCode (6 : Byte).toNat = some .clock ∧
    JournalClass.state ≠ .clock ∧ flagOfCode (1 : Byte).toNat = some true ∧ 6 < (7 : Byte).toNat ∧ (0 : Byte).toNat = 0 ∧
    (request ([255] ++ be 2 4097 ++ [7])).params = [255] ++ be 2 4097 ++ [7] ∧ 7 = max 1 (min 7 (7 : Byte).toNat) ∧
    (s.journal.reserve < 7 ∧ s.journal.records.countP (fun x => decide (x.offer.level < 7)) ≤ 3840) ∧ (request [0, 0, 0, 2]).params = [0, 0, 0, 2] ∧ s.journal.place (seqOf [0, 0, 0, 2]) = .held ∧
    s.journal.gap = none ∧
    (s.setJournal { s.journal with gap := some ⟨⟨1, 0, 0, 0, 0, 0, 0⟩, ⟨⟨0, 0, 0⟩, .unset⟩, ⟨⟨0, 0, 0⟩, .unset⟩⟩ }).journal.gap =
      some ⟨⟨1, 0, 0, 0, 0, 0, 0⟩, ⟨⟨0, 0, 0⟩, .unset⟩, ⟨⟨0, 0, 0⟩, .unset⟩⟩ := by decide

/-- Codes and an enable octet that name none, at the ends of their ranges. -/
theorem witness_JournalSettingsAndRelease_codes :
    part.ready ∧ (∀ c ∈ [7, 255, 0], (6 < (c : Byte).toNat ∨ c.toNat = 0) ∧ (request [c, 8, 1]).params = [c, 8, 1]) ∧
    (∀ e ∈ [2, 255], 2 ≤ (e : Byte).toNat ∧ (request [6, 0, e]).params = [6, 0, e]) := by decide

/-- The ALERT output by each of its three conditions, and low. -/
theorem witness_JournalSettingsAndRelease_alert :
    (∃ x ∈ ({ journalOf 1 with threshold := 2 } : Journal).records, 2 ≤ x.offer.level) ∧
    ({ journalOf 5 with watermark := 5 } : Journal).watermark ≤ ({ journalOf 5 with watermark := 5 } : Journal).records.length ∧
    ({ journalOf 0 with gap := some ⟨⟨1, 0, 0, 0, 0, 0, 0⟩, ⟨⟨0, 0, 0⟩, .unset⟩, ⟨⟨0, 0, 0⟩, .unset⟩⟩ } : Journal).alert = true ∧
    (journalOf 5).alert = false := by decide

/-! ### The laws that every step keeps: the state after a power-up meets each, and steps -/

theorem witness_TimebaseLawsAreKept :
    State.reset.tb.lawful ∧ State.reset.tb.inDay ∧ ∃ t, step State.reset = .next t :=
  ⟨by simp [Timebase.lawful, State.reset, State.afterReset, Timebase.afterReset],
    by simp [Timebase.inDay, State.reset, State.afterReset, Timebase.afterReset], ⟨_, rfl⟩⟩

theorem witness_OnlyDeviceResetTurnsBack :
    (∀ c k, Instr.slewSpent ≠ .deviceReset c k) ∧ (∃ t, exec .slewSpent (part.setTb lockedTb) = .next t) ∧
    (part.setTb lockedTb).tb.setFlag = true ∧ (part.setTb lockedTb).pending = [] ∧ ∃ t, step (part.setTb lockedTb) = .next t :=
  ⟨fun _ _ h => (by cases h), ⟨_, rfl⟩, rfl, rfl, ⟨_, rfl⟩⟩

theorem witness_JournalLawsAreKept :
    State.reset.journal.consecutive ∧ State.reset.journal.withinReserve ∧ ∃ t, step State.reset = .next t := by
  refine ⟨?_, ?_, ⟨_, rfl⟩⟩
  · intro k r h
    simp [State.reset, State.afterReset, Journal.afterReset] at h
  · simp [Journal.withinReserve, Journal.fill, Journal.below, State.reset, State.afterReset, Journal.afterReset]

theorem witness_BankLawAndElementTableAreKept :
    State.reset.banksLawful ∧ (∃ t, step State.reset = .next t) ∧ tableWf silentPart.elements ∧ ∃ t, step silentPart = .next t := by
  refine ⟨?_, ⟨_, rfl⟩, by decide, ⟨_, rfl⟩⟩
  simp [State.banksLawful, State.reset, State.afterReset, Bank.afterReset]

/-- The banks, the windows and the records of parts that hold OPEN entries, an open window and a stale record. -/
theorem witness_BankLawAndElementTableAreKept_held :
    (twoBanks .active 19400).retiringLawful ∧ (∃ t, step (twoBanks .active 19400) = .next t) ∧
    (twoBanks .active 19400).openListLawful ∧ silentPart.windowsLawful ∧
    (silentPart.setElement 130 { point (some 1) with stale := true }).staleLawful ∧ ∃ t, step silentPart = .next t := by
  refine ⟨fun b h => ?_, ⟨_, rfl⟩, ⟨fun r => ?_, fun b => ?_⟩, ⟨?_, ?_⟩, fun i e h hs => ?_, ⟨_, rfl⟩⟩
  · cases b
    · exact absurd h (by decide)
    · decide
  · rcases r with ⟨b, n⟩
    cases b <;> cases n with
    | zero => decide
    | succ n => simp [State.entry, State.bank, twoBanks, timetabled, bankIn]
  · cases b <;> decide
  · decide
  · unfold State.overlaps
    decide
  · have : lookup [(130, { point (some 1) with stale := true })] i = some e := h
    simp only [lookup] at this
    split at this <;> cases this
    rfl

theorem witness_ReferenceCountsStayTrue : State.reset.refsLawful ∧ ∃ t, step State.reset = .next t := by
  refine ⟨?_, ⟨_, rfl⟩⟩
  simp [State.refsLawful, Bank.lawful, Bank.naming, State.element, lookup, State.reset, State.afterReset, Bank.afterReset]

theorem witness_CapacitiesAndSettingsAreKept :
    part.queuesBounded ∧ part.positionsLawful ∧ part.someAccepts ∧ part.backlogLawful ∧ ∃ t, step part = .next t := by
  refine ⟨?_, ?_, ⟨0, rfl⟩, ?_, ⟨_, rfl⟩⟩
  · unfold State.queuesBounded
    decide
  · unfold State.positionsLawful
    decide
  · exact ⟨by decide, fun b => by cases b <;> decide⟩

end Sys2Proof.Tests
end

