-- ==== Sys2Proof/Proofs/Octets.lean ====
section
/-! PROOFS. Sys2Proof/Proofs/Octets.lean: the frame check that a sender appends (R5, R185), the lengths of the reported octets
(Chapter 10), and the length of a frame on the line (R16). -/

namespace Sys2Proof.Machine

/-! ## The frame check (R5, R185) -/

/-- The register is linear: what a register `x` leaves of the complement of its own low bit is a step of the other part on a one. -/
theorem crcStep_complement (x c : BitVec 16) : crcStep (x ^^^ c) (!x.getLsbD 0) = (x >>> 1) ^^^ crcStep c true := by
  have hshift : (x ^^^ c) >>> 1 = (x >>> 1) ^^^ (c >>> 1) := BitVec.ushiftRight_xor_distrib x c 1
  unfold crcStep
  rw [hshift, BitVec.getLsbD_xor]
  cases x.getLsbD 0 <;> cases c.getLsbD 0 <;> simp [BitVec.xor_assoc]

/-- The complement of a register, sent low bit first, shifts the register out and leaves what as many ones leave. -/
theorem crc_complement (r c : BitVec 16) (n k : Nat) (h : n + k ≤ 16) :
    ((List.range' k n).map (~~~r).getLsbD).foldl crcStep ((r >>> k) ^^^ c) =
      (r >>> (k + n)) ^^^ (List.replicate n true).foldl crcStep c := by
  induction n generalizing k c with
  | zero => rfl
  | succ n ih =>
    have hbit : (~~~r).getLsbD k = !(r >>> k).getLsbD 0 := by
      rw [BitVec.getLsbD_not, BitVec.getLsbD_ushiftRight, decide_eq_true (show k < 16 by omega)]
      rfl
    rw [List.range'_succ, List.map_cons, List.foldl_cons, hbit, crcStep_complement, ← BitVec.shiftRight_add,
      ih (crcStep c true) (k + 1) (by omega), List.replicate_succ, List.foldl_cons,
      show k + 1 + n = k + (n + 1) by omega]

/-- Sixteen ones leave the residue of R185 in an empty register. -/
theorem crc_residue : (List.replicate 16 true).foldl crcStep 0#16 = 0xF0B8#16 := by
  simp [List.replicate, crcStep]

/-- Settles O8: behind the octets the register takes its own complement, and what is left does not depend on it. -/
theorem sentCheckIsGood : Obligations.SentCheckIsGood := by
  intro octets
  have h := crc_complement (crc (bitsOf octets)) 0#16 16 0 (by omega)
  have hout : crc (bitsOf octets) >>> 16 = 0#16 := by
    ext i hi
    simp [BitVec.getLsbD_of_ge]
  have hgood : crc (contentOf octets) = 0xF0B8#16 := by
    unfold contentOf
    rw [crc, List.foldl_append, ← crc, List.range_eq_range']
    rw [BitVec.ushiftRight_zero, BitVec.xor_zero, Nat.zero_add, hout] at h
    exact h.trans (by rw [crc_residue, BitVec.zero_xor])
  simp [checkGood, hgood]

/-! ## Lengths of fields (R184) -/

@[simp] theorem be_length (n v : Nat) : (be n v).length = n := by
  induction n with
  | zero => rfl
  | succ n ih => simp [be, ih]

@[simp] theorem beSigned_length (n : Nat) (v : Int) : (beSigned n v).length = n := be_length n _

@[simp] theorem absent_length (n : Nat) : (absent n).length = n := List.length_replicate

theorem optional_length {α : Type} {n : Nat} {f : α → List Byte} (h : ∀ x, (f x).length = n) (x : Option α) :
    (optional n f x).length = n := by
  cases x with
  | none => exact absent_length n
  | some x => exact h x

theorem padTo_length (n : Nat) (l : List Byte) (h : l.length ≤ n) : (padTo n l).length = n := by
  simp [padTo]
  omega

@[simp] theorem daySecOctets_length (day : Day) (sec : Nat) : (daySecOctets day sec).length = 5 := by simp [daySecOctets]

@[simp] theorem Stamp.octets_length (t : Stamp) : t.octets.length = 8 := by simp [Stamp.octets]

@[simp] theorem Dated.octets_length (x : Dated) : x.octets.length = 9 := by simp [Dated.octets]

@[simp] theorem deviationOctets_length (r : Option MatchResult) : (deviationOctets r).length = 2 := by simp [deviationOctets]

/-! ## Lengths of what the part reports (Chapter 10) -/

theorem Gap.octets_length (g : Gap) : g.octets.length = 32 := by simp [Gap.octets, Body.octets]

/-- Every body but that of a GAP fits into the 10 octets of a record (section 10.4). -/
theorem Body.octets_length (b : Body) : b.octets.length ≤ match b with | .gap .. => 34 | _ => 10 := by
  cases b with
  | movementOutcome i outcome target shown time => cases time <;> simp [Body.octets]
  | timebase event old => cases old <;> simp [Body.octets]
  | _ => simp [Body.octets]

/-- A record takes 24 octets, and a GAP 48 (section 10.4). -/
theorem JournalRecord.octets_length (r : JournalRecord) : r.octets.length = if r.isGap then 48 else 24 := by
  have hb := r.offer.body.octets_length
  unfold JournalRecord.octets JournalRecord.isGap Body.field
  cases h : r.offer.body <;> rw [h] at hb <;> simp [padTo_length _ _ hb]

/-- READ JOURNAL returns two records or one GAP at most, 48 octets (R161). -/
theorem readFrom_octets_length (l : List JournalRecord) : ((readFrom l).flatMap JournalRecord.octets).length ≤ 48 := by
  match l with
  | [] => simp [readFrom]
  | [r] =>
    simp only [readFrom, List.flatMap_cons, List.flatMap_nil, List.append_nil, JournalRecord.octets_length]
    split <;> omega
  | r :: r' :: rest =>
    cases h : r.isGap <;> cases h' : r'.isGap <;> simp [readFrom, h, h', JournalRecord.octets_length]

theorem Journal.read_octets_length (j : Journal) (n : SeqNo) : ((j.read n).flatMap JournalRecord.octets).length ≤ 48 := by
  unfold Journal.read
  split
  · exact readFrom_octets_length _
  · simp
  · exact readFrom_octets_length _

theorem Journal.readData_length (j : Journal) (n : SeqNo) : (j.readData n).length ≤ 53 := by
  have h := j.read_octets_length n
  simp only [Journal.readData, List.length_append, List.length_cons, List.length_nil, be_length]
  omega

@[simp] theorem mappingOctets_length (m : Option Mapping) : (mappingOctets m).length = 4 := by
  cases m <;> simp [mappingOctets]

@[simp] theorem Loaded.octets_length (l : Loaded) : l.octets.length = 8 := by simp [Loaded.octets]

@[simp] theorem Statistics.octets_length (x : Statistics) : x.octets.length = 14 := by simp [Statistics.octets]

theorem State.elementData_length (s : State) (i : Nat) : (s.elementData i).length ≤ 47 := by
  unfold State.elementData
  split
  · simp [Element.octets, optional_length Dated.octets_length]
  · simp

theorem State.headerData_length (s : State) (b : BankId) : (s.headerData b).length = 11 := by
  have h : ∀ t : DaySec, (daySecOctets t.day t.sec).length = 5 := fun t => daySecOctets_length t.day t.sec
  simp [State.headerData, optional_length h]

theorem RouteItem.octets_flatMap_length (l : List RouteItem) : (l.flatMap RouteItem.octets).length = 3 * l.length := by
  induction l with
  | nil => rfl
  | cons x l ih =>
    simp [RouteItem.octets, ih]
    omega

/-- An entry takes 51 octets, its route list being no longer than 6 items (R108, R131). -/
theorem Entry.octets_length (e : Entry) (h : e.route.length ≤ 6) : e.octets.length = 51 := by
  have hr : (padTo 18 (e.route.flatMap RouteItem.octets)).length = 18 := by
    apply padTo_length
    rw [RouteItem.octets_flatMap_length]
    omega
  simp only [Entry.octets, List.length_append, hr, optional_length Dated.octets_length, be_length, deviationOctets_length,
    List.length_cons, List.length_nil]

theorem State.portSettings_length (s : State) (p : PortId) : (s.portSettings p).length = 9 := by simp [State.portSettings]

theorem Timebase.settings_length (tb : Timebase) : tb.settings.length = 12 := by simp [Timebase.settings]

theorem ScheduledChange.octets_length (c : ScheduledChange) : c.octets.length = 7 := by simp [ScheduledChange.octets]

theorem Label.octets_length (l : Label) : l.octets.length = 6 := by simp [Label.octets]

theorem Leap.octets_length (l : Leap) : l.octets.length = 3 := by simp [Leap.octets]

theorem Journal.settings_length (j : Journal) : j.settings.length = 4 := by simp [Journal.settings]

/-- The sections of READ STATUS that take no number (R179). -/
theorem State.plainSection_length (s : State) (code : Nat) (data : List Byte) (h : s.plainSection code = some data) :
    data.length ≤ 57 := by
  have hd : s.deviceSection.length = 38 := by simp [State.deviceSection, Eight.toList, Four.toList]
  have ht : s.tb.loopSection.length ≤ 57 := by
    simp [Timebase.loopSection, optional_length Label.octets_length, optional_length Leap.octets_length]
  have hs : s.tb.settingsSection.length ≤ 57 := by
    simp [Timebase.settingsSection, optional_length ScheduledChange.octets_length, Timebase.settings_length]
  have hb : s.timetableSection.length = 24 := by simp [State.timetableSection, State.headerData_length]
  have hr : s.journal.recordSection.length ≤ 57 := by
    have hn : ∀ n : SeqNo, (be 4 n.toNat).length = 4 := fun n => be_length 4 _
    simp [Journal.recordSection, optional_length hn, optional_length Gap.octets_length]
  have hj : s.journal.settingsSection.length ≤ 57 := by
    simp [Journal.settingsSection, ClassSetting.octets, Journal.settings_length]
  unfold State.plainSection at h
  split at h <;> cases h <;> omega

theorem State.portSection_length (s : State) (p : PortId) : (s.portSection p).length = 16 := by
  simp [State.portSection, State.portSettings_length]

theorem Line.timings_length (x : Line) : x.timings.length = 8 := by simp [Line.timings]

theorem Line.lineSection_length (x : Line) : x.lineSection.length = 20 := by simp [Line.lineSection, Line.timings_length]

theorem DirCounters.octets_length (c : DirCounters) : c.octets.length = 36 := by simp [DirCounters.octets]

theorem PortCounters.octets_length (c : PortCounters) : c.octets.length = 24 := by simp [PortCounters.octets]

/-! ## Lengths on the line (section 1.1, R16) -/

theorem bitsOf_length (l : List Byte) : (bitsOf l).length = 8 * l.length := by
  induction l with
  | nil => rfl
  | cons o l ih =>
    simp only [bitsOf, List.flatMap_cons, List.length_append, List.length_cons] at ih ⊢
    rw [ih]
    simp [octetBits]
    omega

theorem contentOf_length (octets : List Byte) : (contentOf octets).length = 8 * octets.length + 16 := by
  simp [contentOf, bitsOf_length]

/-- A response frame has six octets besides its status, reason or data, the two of the check included (section 10.3). -/
theorem responseContent_length (t : Straps) (r : Response) :
    (contentOf (responseOctets t r)).length = 8 * r.reply.octets.length + 48 := by
  rw [contentOf_length]
  simp [responseOctets, headerOctets]
  omega

/-- One zero is inserted for every five bits at most; `n` ones count towards the first. -/
theorem stuff_length (bits : List Bool) (n : Nat) (h : n ≤ 4) : 5 * (stuff n bits).length ≤ 6 * bits.length + n := by
  induction bits generalizing n with
  | nil => simp [stuff]
  | cons b bits ih =>
    cases b with
    | false =>
      have := ih 0 (by omega)
      simp only [stuff, List.length_cons]
      omega
    | true =>
      simp only [stuff]
      split
      · have := ih 0 (by omega)
        simp only [List.length_cons]
        omega
      · have := ih (n + 1) (by omega)
        simp only [List.length_cons]
        omega

/-- A frame of 64 octets of content at most takes no more than 630 bit times, flags included (R16). -/
theorem frameBits_length (content : List Bool) (h : content.length ≤ 512) : (frameBits content).length ≤ 630 := by
  have := stuff_length content 0 (by omega)
  simp [frameBits, contentBits, openingBits, closingBits, stuff]
  omega

end Sys2Proof.Machine
end

