-- ==== Sys2Proof/Proofs/Capacities.lean ====
section
/-! PROOFS. Sys2Proof/Proofs/Capacities.lean: what each block's operations keep of the capacities and the settings of O59: one relation
between a part before and after for a port, a clock line, a bank and the state, each reflexive and transitive. -/

namespace Sys2Proof.Machine

/-! ## Ports -/

/-- Backlog and bits to send lie within 630, and every response that waits within 58 octets behind its tag (R15, R16). -/
def Port.backlogLawful (x : Port) : Prop :=
  x.backlog + x.sending.length ≤ 630 ∧ ∀ r ∈ x.responses, r.reply.octets.length ≤ 58

/-- The capacity of the response queue and the backlog are kept. -/
structure Port.KeepsQueues (x y : Port) : Prop where
  responses : x.responses.length ≤ 4 → y.responses.length ≤ 4
  backlog : x.backlogLawful → y.backlogLawful

/-- What every operation of a port but SET PORT keeps: its queues, and the accept flag. -/
structure Port.Keeps (x y : Port) : Prop extends Port.KeepsQueues x y where
  accept : y.accept = x.accept

theorem Port.Keeps.refl (x : Port) : x.Keeps x := ⟨⟨id, id⟩, rfl⟩

theorem Port.KeepsQueues.trans {x y z : Port} (h : x.KeepsQueues y) (k : y.KeepsQueues z) : x.KeepsQueues z :=
  ⟨k.responses ∘ h.responses, k.backlog ∘ h.backlog⟩

theorem Port.Keeps.trans {x y z : Port} (h : x.Keeps y) (k : y.Keeps z) : x.Keeps z :=
  ⟨h.toKeepsQueues.trans k.toKeepsQueues, k.accept.trans h.accept⟩

/-- The fields of a port in whose terms the capacities are stated. -/
def Port.capacities (x : Port) : Bool × List Response × List LineBit × List LineBit :=
  (x.accept, x.responses, x.held, x.sending)

theorem Port.Keeps.of_capacities {x y : Port} (h : y.capacities = x.capacities) : x.Keeps y := by
  simp only [Port.capacities, Prod.mk.injEq] at h
  obtain ⟨ha, hr, hh, hs⟩ := h
  exact ⟨⟨by rw [hr]; exact id, by simp only [Port.backlogLawful, Port.backlog, hr, hh, hs]; exact id⟩, ha⟩

/-- The relay keeps a port when buffer and bits to send do not grow together. -/
theorem Port.RelayOnly.keeps {x y : Port} (h : x.RelayOnly y)
    (hb : y.held.length + y.sending.length ≤ x.held.length + x.sending.length) : x.Keeps y := by
  have hr : y.responses = x.responses := by rw [h.eq]
  refine ⟨⟨by rw [hr]; exact id, ?_⟩, by rw [h.eq]⟩
  rintro ⟨hx, hc⟩
  refine ⟨?_, by rw [hr]; exact hc⟩
  simp only [Port.backlog] at hx ⊢
  omega

theorem Port.upBit_bounded (x : Port) (b : LineBit) :
    (x.upBit b).held.length + (x.upBit b).sending.length ≤ x.held.length + x.sending.length := by
  unfold Port.upBit
  split
  · exact x.relayUp_bounded b
  · exact Port.relayUp_bounded _ _

theorem Port.foldl_upBit_bounded (bits : List LineBit) (x : Port) :
    (bits.foldl Port.upBit x).held.length + (bits.foldl Port.upBit x).sending.length ≤ x.held.length + x.sending.length := by
  induction bits generalizing x with
  | nil => exact Nat.le_refl _
  | cons b bits ih => exact Nat.le_trans (ih (x.upBit b)) (x.upBit_bounded b)

theorem Port.downBit_buffer (x : Port) (b : LineBit) :
    (x.downBit b).held = x.held ∧ (x.downBit b).sending = x.sending := by
  unfold Port.downBit
  split <;> exact ⟨rfl, rfl⟩

theorem Port.foldl_downBit_buffer (bits : List LineBit) (x : Port) :
    (bits.foldl Port.downBit x).held = x.held ∧ (bits.foldl Port.downBit x).sending = x.sending := by
  induction bits generalizing x with
  | nil => exact ⟨rfl, rfl⟩
  | cons b bits ih =>
    obtain ⟨hh, hs⟩ := ih (x.downBit b)
    obtain ⟨kh, ks⟩ := x.downBit_buffer b
    exact ⟨hh.trans kh, hs.trans ks⟩

/-- Backlog and bits to send together never grow with the bits that arrive (R16, R17). -/
theorem Port.arrive_bounded (x : Port) (d : Direction) (bits : List LineBit) :
    (x.arrive d bits).held.length + (x.arrive d bits).sending.length ≤ x.held.length + x.sending.length := by
  unfold Port.arrive
  split
  · cases d with
    | down =>
      obtain ⟨hh, hs⟩ := Port.foldl_downBit_buffer bits x
      show (bits.foldl Port.downBit x).held.length + (bits.foldl Port.downBit x).sending.length ≤ _
      rw [hh, hs]
    | up => exact Port.foldl_upBit_bounded bits x
  · split
    · cases d <;> exact Nat.le_refl _
    · exact Nat.le_refl _

theorem Port.keeps_arrive (x : Port) (d : Direction) (bits : List LineBit) : x.Keeps (x.arrive d bits) :=
  (x.arrive_only d bits).keeps (x.arrive_bounded d bits)

theorem Port.idleUntil_bounded (idle : LineBit) (stop : Port → Bool) (n : Nat) (x : Port) :
    (x.idleUntil idle stop n).held.length + (x.idleUntil idle stop n).sending.length ≤ x.held.length + x.sending.length := by
  induction n generalizing x with
  | zero => exact Nat.le_refl _
  | succ n ih =>
    unfold Port.idleUntil
    split
    · exact Nat.le_refl _
    · exact Nat.le_trans (ih _) (x.upBit_bounded idle)

theorem Port.keeps_awaitUp (x : Port) (idle : LineBit) (stop : Port → Bool) : x.Keeps (x.awaitUp idle stop) := by
  refine (x.awaitUp_only idle stop).keeps ?_
  unfold Port.awaitUp
  split
  · exact Port.idleUntil_bounded idle stop 700 x
  · exact Nat.le_refl _

theorem Port.keeps_setRx (x : Port) (d : Direction) (r : Receiver) : x.Keeps (x.setRx d r) :=
  .of_capacities (by cases d <;> rfl)

theorem Port.keeps_countDir (x : Port) (d : Direction) (f : DirCounters → DirCounters) : x.Keeps (x.countDir d f) :=
  .of_capacities rfl

theorem Port.keeps_countPort (x : Port) (f : PortCounters → PortCounters) : x.Keeps (x.countPort f) :=
  .of_capacities rfl

theorem Port.keeps_requiet (x : Port) (now : Nat) : x.Keeps (x.requiet now) := .of_capacities rfl

theorem Port.keeps_turn (x : Port) (d : Direction) (f : LineBit → LineBit) (n : Nat) : x.Keeps (x.turn d f n) :=
  .of_capacities (by cases d <;> rfl)

theorem Port.keeps_blank (x : Port) (d : Direction) (n : Nat) : x.Keeps (x.blank d n) := x.keeps_turn d _ n

theorem Port.keeps_endFrame (x : Port) (now : Nat) (d : Direction) (k : FrameClass) : x.Keeps (x.endFrame now d k) :=
  ((x.keeps_countDir d _).trans (Port.keeps_setRx _ d _)).trans (Port.keeps_requiet _ now)

theorem Port.keeps_forgetFlag (x : Port) (d : Direction) : x.Keeps (x.forgetFlag d) := by
  unfold Port.forgetFlag
  split
  · exact (x.keeps_blank d 8).trans (Port.keeps_setRx _ d _)
  · exact .refl x

theorem Port.keeps_cutFrame (x : Port) (now : Nat) (d : Direction) : x.Keeps (x.cutFrame now d) := by
  unfold Port.cutFrame
  split
  · exact x.keeps_endFrame now d .abort
  · exact x.keeps_forgetFlag d

theorem Port.keeps_arriveOpening (x : Port) (d : Direction) (shared : Bool) : x.Keeps (x.arriveOpening d shared) := by
  unfold Port.arriveOpening
  split
  · exact x.keeps_turn d _ 8
  · exact x.keeps_arrive d _

theorem Port.keeps_beginFrame (x : Port) (o : Opening) : x.Keeps (x.beginFrame o) := by
  refine .of_capacities ?_
  unfold Port.beginFrame
  split <;> rfl

theorem Port.keeps_creditJoining (x : Port) (now : Nat) : x.Keeps (x.creditJoining now) := by
  refine .of_capacities ?_
  unfold Port.creditJoining
  split <;> rfl

theorem Port.keeps_latch (x : Port) (now : Nat) : x.Keeps (x.latch now) :=
  (x.keeps_creditJoining now).trans (.of_capacities rfl)

theorem Port.keeps_beginTransfer (x : Port) (now : Nat) : x.Keeps (x.beginTransfer now) := by
  refine .of_capacities ?_
  unfold Port.beginTransfer
  split <;> rfl

theorem Port.keeps_settleQuiet (x : Port) (now : Nat) : x.Keeps (x.settleQuiet now) := by
  unfold Port.settleQuiet
  split
  · exact x.keeps_beginTransfer now
  · exact .refl x

theorem Port.keeps_endTransfer (x : Port) (now : Nat) : x.Keeps (x.endTransfer now) := by
  unfold Port.endTransfer
  split
  · exact (x.keeps_creditJoining now).trans (.of_capacities rfl)
  · exact .of_capacities rfl
  · exact .refl x

theorem Port.keeps_enterJoining (x : Port) (now : Nat) : x.Keeps (x.enterJoining now) := .of_capacities rfl

theorem Port.keeps_enterLeaving (x : Port) (now : Nat) : x.Keeps (x.enterLeaving now) := .of_capacities rfl

theorem Port.keeps_endInitialising (x : Port) (now : Nat) (joinen : Bool) : x.Keeps (x.endInitialising now joinen) := by
  refine .of_capacities ?_
  unfold Port.endInitialising
  split <;> rfl

theorem Port.keeps_endInsertion (x : Port) : x.Keeps x.endInsertion := .of_capacities rfl

/-- A response of at most 58 octets behind its tag goes out in 630 bit times at most, and an insertion begins with an empty buffer (R16). -/
theorem Port.keeps_beginInsertion (x : Port) (t : Straps) (h : x.held = []) : x.Keeps (x.beginInsertion t) := by
  unfold Port.beginInsertion
  split
  case h_2 => exact .refl x
  case h_1 r rest hr =>
    refine ⟨⟨fun hl => ?_, fun ⟨_, hc⟩ => ⟨?_, fun q hq => hc q (by rw [hr]; exact List.mem_cons_of_mem _ hq)⟩⟩, rfl⟩
    · rw [hr, List.length_cons] at hl
      exact Nat.le_of_succ_le hl
    · have hlen : (responseContent t r).length ≤ 512 := by
        have := hc r (by rw [hr]; exact List.mem_cons_self)
        rw [responseContent, responseContent_length]
        omega
      simpa [Port.backlog, h] using frameBits_length _ hlen

/-- A response joins the queue only where it holds fewer than 4 (R15). -/
theorem Port.queueResponse_length (x : Port) (r : Response) (h : x.responses.length ≤ 4) :
    (x.queueResponse r).responses.length ≤ 4 := by
  unfold Port.queueResponse
  split
  · rename_i hroom
    simp only [Bool.and_eq_true, decide_eq_true_eq] at hroom
    simp
    omega
  · exact h

theorem Port.queueResponse_accept (x : Port) (r : Response) : (x.queueResponse r).accept = x.accept := by
  unfold Port.queueResponse
  split <;> rfl

/-- A response that is short enough may be offered to the queue (R15, R16). -/
theorem Port.keeps_queueResponse (x : Port) (r : Response) (h : x.backlogLawful → r.reply.octets.length ≤ 58) :
    x.Keeps (x.queueResponse r) := by
  refine ⟨⟨x.queueResponse_length r, fun hx => ?_⟩, x.queueResponse_accept r⟩
  unfold Port.queueResponse
  split
  · refine ⟨hx.1, fun q hq => ?_⟩
    rcases List.mem_append.1 hq with hq | hq
    · exact hx.2 q hq
    · rw [List.mem_singleton.1 hq]
      exact h hx
  · exact (x.keeps_countPort _).backlog hx

/-! ## Clock lines -/

/-- What a line's operations keep: the position on its dial (R133). -/
def Line.Keeps (x y : Line) : Prop := x.position < x.period.steps → y.position < y.period.steps

theorem Line.Keeps.refl (x : Line) : x.Keeps x := id

theorem Line.Keeps.trans {x y z : Line} (h : x.Keeps y) (k : y.Keeps z) : x.Keeps z := k ∘ h

theorem Period.steps_pos (p : Period) : 0 < p.steps := by cases p <;> decide

theorem Line.keeps_retarget (x : Line) (t : Option Nat) (now : Nat) : x.Keeps (x.retarget t now).line := by
  unfold Line.retarget
  split
  · exact .refl x
  · split <;> exact id

theorem Line.keeps_begin (x : Line) (purpose : Purpose) (now : Nat) : x.Keeps (x.begin purpose now) := id

/-- A step of the dials is taken modulo their number of steps (R140). -/
theorem Line.keeps_succeed (x : Line) (i : Impulse) (now : Nat) : x.Keeps (x.succeed i now).line := by
  intro _
  have hmod : (x.position + 1) % x.period.steps < x.period.steps := Nat.mod_lt _ x.period.steps_pos
  unfold Line.succeed LineStep.after
  cases i.purpose <;> dsimp only <;> split <;> exact hmod

theorem Line.keeps_fail (x : Line) (i : Impulse) (kind : FaultKind) (ended : Nat) : x.Keeps (x.fail i kind ended).line := by
  unfold Line.fail LineStep.after
  dsimp only
  split <;> exact id

theorem Line.keeps_sample (x : Line) (i : Impulse) (sense : Sense) (now : Nat) : x.Keeps (x.sample i sense now).line := by
  cases sense with
  | above => exact x.keeps_fail i .short now
  | healthy => exact id
  | below => exact id

theorem Line.keeps_finish (x : Line) (i : Impulse) (now : Nat) : x.Keeps (x.finish i now).line := by
  unfold Line.finish
  split
  · exact x.keeps_fail i .opened _
  · exact x.keeps_succeed i now

theorem Line.keeps_halt (x : Line) : x.Keeps x.halt.line := by
  unfold Line.halt
  split
  · exact .refl x
  · split <;> exact id

theorem Line.keeps_run (x : Line) (now : Nat) : x.Keeps (x.run now).line := by
  unfold Line.run LineStep.after
  split
  · split <;> exact id
  · exact id

theorem Line.keeps_place (x : Line) (position : Nat) (polarity : Polarity) (now : Nat) (h : position < x.period.steps) :
    x.Keeps (x.place position polarity now).line := by
  intro _
  unfold Line.place LineStep.after
  dsimp only
  split <;> exact h

theorem Line.keeps_setTimings (x : Line) (t : LineTimings) (now : Nat) : x.Keeps (x.setTimings t now).line := by
  unfold Line.setTimings
  dsimp only
  split
  · exact id
  · split
    · exact id
    · split
      · split <;> exact id
      · exact id

theorem Line.keeps_setPeriod (x : Line) (p : Period) (t : LineTimings) (target : Option Nat) :
    x.Keeps (x.setPeriod p t target).line := fun _ => p.steps_pos

/-! ## Banks -/

/-- No route list of the bank is longer than 6 items (R108). -/
def Bank.routesShort (x : Bank) : Prop := ∀ e ∈ x.entries, e.route.length ≤ 6

theorem Bank.routesShort_set {x : Bank} (h : x.routesShort) (i : Nat) (e : Entry) (he : e.route.length ≤ 6) :
    Bank.routesShort { x with entries := x.entries.set i e } := by
  intro e' h'
  rcases List.mem_or_eq_of_mem_set h' with h' | rfl
  · exact h e' h'
  · exact he

theorem Bank.routesShort_afterReset : Bank.afterReset.routesShort := by
  intro e he
  exact absurd he (by simp [Bank.afterReset])

/-! ## The state -/

/-- Every route list of either bank. -/
def State.routesShort (s : State) : Prop := ∀ b, (s.bank b).routesShort

/-- What every step keeps (O59). -/
structure State.Keeps (s t : State) : Prop where
  queues : s.queuesBounded → t.queuesBounded
  positions : s.positionsLawful → t.positionsLawful
  accepts : s.someAccepts → t.someAccepts
  backlog : s.backlogLawful → t.backlogLawful

theorem State.Keeps.refl (s : State) : s.Keeps s := ⟨id, id, id, id⟩

theorem State.Keeps.trans {s t u : State} (h : s.Keeps t) (k : t.Keeps u) : s.Keeps u :=
  ⟨k.queues ∘ h.queues, k.positions ∘ h.positions, k.accepts ∘ h.accepts, k.backlog ∘ h.backlog⟩

/-- The backlog law, port by port and bank by bank. -/
theorem State.backlogLawful_iff (s : State) : s.backlogLawful ↔ (∀ p, (s.port p).backlogLawful) ∧ s.routesShort := by
  have hlen (r : Response) : (contentOf (responseOctets s.straps r)).length ≤ 512 ↔ r.reply.octets.length ≤ 58 := by
    rw [responseContent_length]
    omega
  simp only [State.backlogLawful, hlen, Port.backlogLawful, State.routesShort, Bank.routesShort]

/-- A step keeps the state when it keeps each of its parts. -/
theorem State.Keeps.of_parts {s t : State} (hq : s.service.queue.length ≤ 8 → t.service.queue.length ≤ 8)
    (ho : s.openList.length ≤ 256 → t.openList.length ≤ 256) (hp : ∀ p, (s.port p).Keeps (t.port p))
    (hl : ∀ l, (s.line l).Keeps (t.line l)) (hb : s.routesShort → t.routesShort) : s.Keeps t where
  queues := fun ⟨h1, h2, h3⟩ => ⟨hq h1, fun p => (hp p).responses (h2 p), ho h3⟩
  positions := fun h l => hl l (h l)
  accepts := fun ⟨p, h⟩ => ⟨p, (hp p).accept.trans h⟩
  backlog := by
    rw [State.backlogLawful_iff, State.backlogLawful_iff]
    exact fun ⟨h1, h2⟩ => ⟨fun p => (hp p).backlog (h1 p), hb h2⟩

/-- The parts of the state in whose terms the capacities are stated. -/
def State.capacities (s : State) : List Queued × List EntryRef × Eight Port × Four Line × Bank × Bank :=
  (s.service.queue, s.openList, s.ports, s.lines, s.bankA, s.bankB)

theorem State.Keeps.of_capacities {s t : State} (h : t.capacities = s.capacities) : s.Keeps t := by
  simp only [State.capacities, Prod.mk.injEq] at h
  obtain ⟨hq, ho, hp, hl, hA, hB⟩ := h
  have hb : ∀ b, t.bank b = s.bank b := fun b => by cases b <;> assumption
  refine .of_parts (by rw [hq]; exact id) (by rw [ho]; exact id) (fun p => ?_) (fun l => ?_) (fun h b => ?_)
  · rw [State.port, State.port, hp]
    exact .refl _
  · rw [State.line, State.line, hl]
    exact .refl _
  · rw [hb]
    exact h b

theorem State.Keeps.foldl {α : Type} {f : State → α → State} (h : ∀ (s : State) a, s.Keeps (f s a)) (l : List α) (s : State) :
    s.Keeps (l.foldl f s) := by
  induction l generalizing s with
  | nil => exact .refl s
  | cons a l ih => exact (h s a).trans (ih (f s a))

/-! ## Updates of one part of the state -/

variable (s : State)

theorem State.keeps_setTb (tb : Timebase) : s.Keeps (s.setTb tb) := .of_capacities rfl
theorem State.keeps_setJournal (j : Journal) : s.Keeps (s.setJournal j) := .of_capacities rfl
theorem State.keeps_offer (o : Offer) : s.Keeps (s.offer o) := .of_capacities rfl
theorem State.keeps_report (b : Body) : s.Keeps (s.report b) := .of_capacities rfl
theorem State.keeps_setElement (i : Nat) (e : Element) : s.Keeps (s.setElement i e) := .of_capacities rfl
theorem State.keeps_removeElement (i : Nat) : s.Keeps (s.removeElement i) := .of_capacities rfl

/-- A port may be replaced by one whose queues are kept, as long as some accept flag stays set. -/
theorem State.keeps_setPort_of_accepts {p : PortId} {x : Port} (h : (s.port p).KeepsQueues x)
    (ha : s.someAccepts → (s.setPort p x).someAccepts) : s.Keeps (s.setPort p x) := by
  have hport (q : PortId) : (s.port q).KeepsQueues ((s.setPort p x).port q) := by
    by_cases hq : q = p
    · subst hq
      rw [State.port_setPort_same]
      exact h
    · rw [State.port_setPort_other s p q x hq]
      exact ⟨id, id⟩
  refine ⟨fun ⟨h1, h2, h3⟩ => ⟨h1, fun q => (hport q).responses (h2 q), h3⟩, id, ha, ?_⟩
  rw [State.backlogLawful_iff, State.backlogLawful_iff]
  exact fun ⟨h1, h2⟩ => ⟨fun q => (hport q).backlog (h1 q), h2⟩

theorem State.keeps_setPort {p : PortId} {x : Port} (h : (s.port p).Keeps x) : s.Keeps (s.setPort p x) := by
  refine s.keeps_setPort_of_accepts h.toKeepsQueues fun ⟨q, hq⟩ => ⟨q, ?_⟩
  by_cases hqp : q = p
  · subst hqp
    rw [State.port_setPort_same]
    exact h.accept.trans hq
  · rw [State.port_setPort_other s p q x hqp]
    exact hq

theorem State.keeps_setLine {l : LineId} {x : Line} (h : (s.line l).Keeps x) : s.Keeps (s.setLine l x) := by
  refine .of_parts id id (fun q => .refl _) (fun k => ?_) id
  by_cases hk : k = l
  · subst hk
    rw [State.line_setLine_same]
    exact h
  · rw [State.line_setLine_other s l k x hk]
    exact .refl _

theorem State.bank_setBank (b c : BankId) (x : Bank) : (s.setBank b x).bank c = if c = b then x else s.bank c := by
  cases b <;> cases c <;> rfl

theorem State.keeps_setBank {b : BankId} {x : Bank} (h : s.routesShort → x.routesShort) : s.Keeps (s.setBank b x) := by
  refine .of_parts (by simp) (by simp) (fun q => by simp [Port.Keeps.refl]) (fun l => by simp [Line.Keeps.refl]) (fun hs c => ?_)
  rw [State.bank_setBank]
  split
  · exact h hs
  · exact hs c

theorem State.keeps_setOpenList {l : List EntryRef} (h : s.openList.length ≤ 256 → l.length ≤ 256) : s.Keeps (s.setOpenList l) :=
  .of_parts id h (fun _ => .refl _) (fun _ => .refl _) id

theorem State.keeps_mapPorts {f : PortId → Port → Port} (h : ∀ p (x : Port), x.Keeps (f p x)) :
    s.Keeps { s with ports := s.ports.mapIdx f } := by
  refine .of_parts id id (fun p => ?_) (fun _ => .refl _) id
  simp only [State.port, Eight.get_mapIdx]
  exact h p _

theorem State.keeps_reportAll (bodies : List Body) : s.Keeps (s.reportAll bodies) :=
  .foldl (fun s b => s.keeps_report b) bodies s

theorem State.keeps_applySupervised (i : Nat) (r : Supervised) : s.Keeps (s.applySupervised i r) :=
  (s.keeps_setElement i r.element).trans (.foldl (fun s o => s.keeps_offer o) r.offers _)

theorem Service.take_queue_length (v : Service) : v.take.queue.length ≤ v.queue.length := by
  rcases v.take_cases with h | ⟨q, rest, -, hq, h⟩
  · rw [h]
  · rw [h, hq]
    exact Nat.le_succ _

theorem Service.finish_queue_length (v : Service) (q : Queued) : (v.finish q).queue.length ≤ v.queue.length := by
  rcases v.finish_cases q with h | ⟨-, h⟩
  · rw [h]
  · rw [h, List.length_tail]
    exact Nat.sub_le _ _

theorem State.keeps_setService {v : Service} (h : v.queue.length ≤ s.service.queue.length) : s.Keeps { s with service := v } :=
  .of_parts (Nat.le_trans h) id (fun _ => .refl _) (fun _ => .refl _) id

theorem State.keeps_take : s.Keeps { s with service := s.service.take } := s.keeps_setService s.service.take_queue_length

theorem State.keeps_taking (code : Byte) (r : Request) : s.Keeps (s.taking code r) :=
  s.keeps_setService (s.service.finish_queue_length _)

theorem State.keeps_setCondition (p : PortId) (d : Direction) (c : LinkCondition) (raised : Bool) :
    s.Keeps (s.setCondition p d c raised) :=
  (s.keeps_setPort (Port.keeps_setRx _ d _)).trans (State.keeps_report _ _)

end Sys2Proof.Machine
end

