-- ==== Sys2Proof/Proofs/CapacitiesOfBlocks.lean ====
section
/-! PROOFS. Sys2Proof/Proofs/CapacitiesOfBlocks.lean: the checker, the clock lines, the timebase, the passage of time, the tracker and the
reception of frames keep the capacities and the settings of O59. -/

namespace Sys2Proof.Machine

variable (s : State)

/-! ## The timetable checker -/

theorem State.keeps_adjustRefs (f : Nat → Nat) (i : Nat) : s.Keeps (s.adjustRefs f i) := by
  unfold State.adjustRefs
  split
  · exact s.keeps_setElement i _
  · exact .refl s

theorem State.keeps_raiseRefs (e : Entry) : s.Keeps (s.raiseRefs e) := .foldl (fun s i => s.keeps_adjustRefs raise16 i) e.names s

theorem State.keeps_lowerRefs (entries : List Entry) : s.Keeps (s.lowerRefs entries) :=
  .foldl (fun s (e : Entry) => State.Keeps.foldl (fun s i => s.keeps_adjustRefs (fun n => n - 1) i) e.names s) entries s

theorem State.keeps_emptyBank (b : BankId) : s.Keeps (s.emptyBank b) :=
  (s.keeps_lowerRefs _).trans (State.keeps_setBank _ fun _ => Bank.routesShort_afterReset)

/-- The route list of an entry that a bank holds. -/
theorem State.route_of_entry {s : State} {r : EntryRef} {e : Entry} (h : s.entry r = some e) (hs : s.routesShort) :
    e.route.length ≤ 6 := hs r.bank e (List.mem_of_getElem? h)

theorem State.keeps_setEntry (r : EntryRef) {e : Entry} (h : s.routesShort → e.route.length ≤ 6) : s.Keeps (s.setEntry r e) :=
  s.keeps_setBank fun hs => Bank.routesShort_set (hs r.bank) r.index e (h hs)

theorem State.keeps_settleBank (b : BankId) : s.Keeps (s.settleBank b) := by
  unfold State.settleBank
  split
  · exact (s.keeps_emptyBank b).trans (State.keeps_report _ _)
  · exact .refl s

theorem State.keeps_closeEntry (r : EntryRef) (status : EntryStatus) (dated : Dated) (ageLimit clamped : Bool)
    (result : Option MatchResult) : s.Keeps (s.closeEntry r status dated ageLimit clamped result) := by
  unfold State.closeEntry
  split
  · exact .refl s
  · rename_i e he
    have hentry : s.Keeps (s.setEntry r { e with status := status, closing := some dated, result := result }) :=
      s.keeps_setEntry r fun hs => State.route_of_entry (e := e) he hs
    refine ((hentry.trans (State.keeps_setOpenList _ fun h => ?_)).trans (State.keeps_offer _ _)).trans
      (State.keeps_settleBank _ r.bank)
    simp only [State.setEntry, State.setBank_openList] at h
    exact Nat.le_trans (List.length_filter_le _ _) h

theorem State.keeps_closeOwn (r : EntryRef) (status : EntryStatus) : s.Keeps (s.closeOwn r status) :=
  s.keeps_closeEntry r status _ _ _ _

theorem State.insertRef_length (r : EntryRef) (l : List EntryRef) : (s.insertRef r l).length = l.length + 1 := by
  induction l with
  | nil => rfl
  | cons x l ih =>
    unfold State.insertRef
    split
    · rfl
    · simp [ih]

/-- An entry joins the open list only where it holds fewer than 256 references (R122). -/
theorem State.keeps_openEntry (r : EntryRef) {e : Entry} (h : s.routesShort → e.route.length ≤ 6) : s.Keeps (s.openEntry r e) := by
  unfold State.openEntry
  split
  · rename_i hroom
    refine (s.keeps_setEntry r (e := { e with status := .opened }) h).trans (State.keeps_setOpenList _ fun _ => ?_)
    rw [State.insertRef_length]
    simpa [State.setEntry] using hroom
  · exact s.keeps_closeOwn r .openListFull

theorem State.keeps_advance (b : BankId) (passed : EntryStatus) (n : Nat) (w : Walked) :
    w.state.Keeps (State.advance b passed n w).state := by
  induction n generalizing w with
  | zero => exact .refl _
  | succ n ih =>
    unfold State.advance
    dsimp only
    split
    · exact .refl _
    · rename_i e he
      have hmem : e ∈ (w.state.bank b).entries := List.mem_of_getElem? he
      have hnext : w.state.Keeps (w.state.setBank b { w.state.bank b with nextToOpen := (w.state.bank b).nextToOpen + 1 }) :=
        State.keeps_setBank _ fun hs => hs b
      have hroute : (w.state.setBank b { w.state.bank b with nextToOpen := (w.state.bank b).nextToOpen + 1 }).routesShort →
          e.route.length ≤ 6 := by
        intro hs
        have := hs b
        rw [State.bank_setBank, if_pos rfl] at this
        exact this e hmem
      split
      · exact .refl _
      · split
        · exact hnext.trans (ih ⟨_, _, _⟩)
        · split
          · exact (hnext.trans (State.keeps_closeOwn _ _ passed)).trans (ih ⟨_, _, _⟩)
          · exact (hnext.trans (State.keeps_openEntry _ _ hroute)).trans (ih ⟨_, _, _⟩)

theorem State.keeps_walkBank (b : BankId) (passed : EntryStatus) : s.Keeps (s.walkBank b passed).state :=
  State.keeps_advance b passed _ ⟨s, 0, 0⟩

theorem State.keeps_closePassed (n : Nat) : s.Keeps (State.closePassed n s) := by
  induction n generalizing s with
  | zero => exact .refl s
  | succ n ih =>
    unfold State.closePassed
    split
    · exact .refl s
    · split
      · exact .refl s
      · split
        · exact (s.keeps_closeOwn _ .missed).trans (ih _)
        · exact .refl s

theorem State.keeps_retire (b : BankId) : s.Keeps (s.retire b) := by
  refine ((s.keeps_setBank fun hs => ?_).trans (State.keeps_report _ _)).trans (State.keeps_settleBank _ b)
  intro e he
  obtain ⟨e', he', rfl⟩ := List.mem_map.1 he
  have := hs b e' he'
  split <;> exact this

theorem State.keeps_activate (b : BankId) : s.Keeps (s.activate b) := by
  have hother : s.Keeps (if (s.bank b.other).state = .active then s.retire b.other else s) := by
    split
    · exact s.keeps_retire b.other
    · exact .refl s
  refine State.Keeps.trans (State.Keeps.trans (hother.trans ?_) (State.keeps_walkBank _ b .lateActivation)) (State.keeps_report _ _)
  exact State.keeps_setBank _ fun hs => hs b

theorem State.keeps_judgeActivation (b : BankId) : s.Keeps (s.judgeActivation b) := by
  unfold State.judgeActivation
  split
  · exact s.keeps_activate b
  · exact .refl s

theorem State.keeps_walkActive (b : BankId) : s.Keeps (s.walkActive b) := by
  unfold State.walkActive
  split
  · exact s.keeps_walkBank b .missed
  · exact .refl s

theorem State.keeps_judgeEnd (b : BankId) : s.Keeps (s.judgeEnd b) := by
  unfold State.judgeEnd
  split
  · exact s.keeps_retire b
  · exact .refl s

theorem State.keeps_walk : s.Keeps s.walk := by
  have hactivate := State.Keeps.foldl (fun s b => s.keeps_judgeActivation b) bankIds s
  have hwalk := State.Keeps.foldl (fun s b => s.keeps_walkActive b) bankIds (bankIds.foldl State.judgeActivation s)
  have hclose := State.keeps_closePassed (bankIds.foldl State.walkActive (bankIds.foldl State.judgeActivation s))
    (bankIds.foldl State.walkActive (bankIds.foldl State.judgeActivation s)).openList.length
  exact ((hactivate.trans hwalk).trans hclose).trans (State.Keeps.foldl (fun s b => s.keeps_judgeEnd b) bankIds _)

theorem State.keeps_clearing (c : Change) : s.Keeps (s.clearing c) := by
  unfold State.clearing
  split
  · split
    · split
      · exact s.keeps_closeEntry _ _ _ _ _ _
      · exact .refl s
    · exact s.keeps_offer _
  · exact .refl s

/-! ## The clock lines -/

theorem State.keeps_applyLine (l : LineId) {r : LineStep} (h : (s.line l).Keeps r.line) : s.Keeps (s.applyLine l r) :=
  (s.keeps_setLine h).trans (State.keeps_reportAll _ _)

theorem State.keeps_startLine (l : LineId) : s.Keeps (s.startLine l) := s.keeps_setLine (Line.keeps_begin _ _ _)

theorem State.keeps_finishLine (l : LineId) : s.Keeps (s.finishLine l) := by
  unfold State.finishLine
  split
  · exact s.keeps_applyLine l (Line.keeps_finish _ _ _)
  · exact .refl s

theorem State.keeps_sampleLine (l : LineId) (sense : Sense) : s.Keeps (s.sampleLine l sense) := by
  unfold State.sampleLine
  split
  · exact s.keeps_applyLine l (Line.keeps_sample _ _ _ _)
  · exact .refl s

theorem State.keeps_retargetLine (l : LineId) : s.Keeps (s.retargetLine l) := s.keeps_applyLine l (Line.keeps_retarget _ _ _)

theorem State.keeps_retargetLines : s.Keeps s.retargetLines := .foldl (fun s l => s.keeps_retargetLine l) lineIds s

theorem State.keeps_turnLine (l : LineId) : s.Keeps (s.turnLine l) := by
  unfold State.turnLine
  split
  · exact s.keeps_finishLine l
  · split
    · exact s.keeps_startLine l
    · exact .refl s

/-! ## The civil offset, boundaries and steps -/

theorem State.keeps_reportTb (event : TimebaseEvent) : s.Keeps (s.reportTb event) := s.keeps_report _

theorem State.keeps_changeOffset (new : Int) : s.Keeps (s.changeOffset new) := by
  unfold State.changeOffset
  dsimp only
  split
  · exact (s.keeps_setTb _).trans (State.keeps_retargetLines _)
  · exact ((s.keeps_setTb _).trans (State.keeps_report _ _)).trans (State.keeps_retargetLines _)

theorem State.keeps_judgeOffset : s.Keeps s.judgeOffset := by
  unfold State.judgeOffset
  split
  · exact (s.keeps_setTb _).trans (State.keeps_changeOffset _ _)
  · exact .refl s

theorem State.keeps_handToLines (o : BoundaryOrder) : s.Keeps (s.handToLines o) := by
  unfold State.handToLines
  split
  · exact s.keeps_retargetLines
  · split
    · exact (s.keeps_judgeOffset.trans (.foldl (fun s l => s.keeps_turnLine l) o.between _)).trans (State.keeps_retargetLines _)
    · exact (s.keeps_retargetLines.trans (.foldl (fun s l => s.keeps_turnLine l) o.between _)).trans (State.keeps_judgeOffset _)

theorem State.keeps_endSecond (pd : PortId × Direction) : s.Keeps (s.endSecond pd) := by
  unfold State.endSecond
  dsimp only
  split
  · exact (s.keeps_setPort ((Port.keeps_countDir _ _ _).trans (Port.keeps_setRx _ _ _))).trans
      (State.keeps_setCondition _ _ _ _ _)
  · exact s.keeps_setPort ((Port.keeps_countDir _ _ _).trans (Port.keeps_setRx _ _ _))

theorem State.keeps_endSeconds : s.Keeps s.endSeconds := .foldl (fun s pd => s.keeps_endSecond pd) receivers s

theorem State.keeps_latch : s.Keeps s.latch :=
  (s.keeps_mapPorts fun _ x => x.keeps_latch s.tb.instant).trans (.of_capacities rfl)

theorem State.keeps_latchAt (sec : Nat) : s.Keeps (s.latchAt sec) := by
  unfold State.latchAt
  split
  · split
    · exact s.keeps_latch
    · exact .refl s
  · exact .refl s

theorem State.keeps_carry : s.Keeps s.carry := by
  unfold State.carry
  dsimp only
  split
  · exact (s.keeps_setTb _).trans (State.keeps_reportTb _ _)
  · exact s.keeps_setTb _

theorem State.keeps_boundary (o : BoundaryOrder) : s.Keeps (s.boundary o) :=
  (((s.keeps_carry.trans (State.keeps_endSeconds _)).trans (State.keeps_latchAt _ _)).trans (State.keeps_walk _)).trans
    (State.keeps_handToLines _ o)

theorem State.keeps_boundaryOrder : s.Keeps s.boundaryOrder.2 := by
  refine .of_capacities ?_
  unfold State.boundaryOrder
  split <;> rfl

theorem State.keeps_stepEvent : s.Keeps s.stepEvent :=
  ((s.keeps_boundaryOrder.trans (State.keeps_endSeconds _)).trans (State.keeps_walk _)).trans (State.keeps_handToLines _ _)

theorem State.keeps_takeBoundary : s.Keeps s.takeBoundary := s.keeps_boundaryOrder.trans (State.keeps_boundary _ _)

/-! ## The passage of time -/

theorem State.keeps_toBoundary (o : BoundaryOrder) : s.Keeps (s.toBoundary o) := by
  unfold State.toBoundary
  split
  · exact s.keeps_boundary o
  · exact (s.keeps_setTb _).trans (State.keeps_boundary _ o)

theorem State.keeps_passTo (n t : Nat) : s.Keeps (State.passTo n t s) := by
  induction n generalizing s with
  | zero => exact .refl s
  | succ n ih =>
    unfold State.passTo
    split
    · exact .refl s
    · split
      · exact s.keeps_takeBoundary.trans (ih _)
      · exact (s.keeps_setTb _).trans (ih _)

theorem State.keeps_await (t : Option Nat) : s.Keeps (s.await t) := by
  cases t with
  | none => exact .refl s
  | some t => exact s.keeps_passTo _ t

/-! ## Pulses, misses and the holdover limit -/

theorem State.keeps_leapAfterMove (day : Day) : s.Keeps (s.leapAfterMove day) := by
  unfold State.leapAfterMove
  split
  · exact .refl s
  · split
    · exact (s.keeps_setTb _).trans (State.keeps_reportTb _ _)
    · split
      · exact (s.keeps_setTb _).trans (State.keeps_reportTb _ _)
      · exact .refl s

theorem State.keeps_moveTime (l : Label) (event : TimebaseEvent) : s.Keeps (s.moveTime l event) :=
  (((s.keeps_setTb _).trans (State.keeps_leapAfterMove _ _)).trans (State.keeps_report _ _)).trans (State.keeps_stepEvent _)

theorem State.keeps_armLeap (label : Option Label) : s.Keeps (s.armLeap label) := by
  have hact (day : Day) (kind : LeapKind) : s.Keeps (if 0 < dayDiff s.tb.time.day day then s.reportTb .leapDiscarded
      else s.setTb { s.tb with armedLeap := some ⟨day, kind⟩ }) := by
    split
    · exact s.keeps_reportTb _
    · exact s.keeps_setTb _
  unfold State.armLeap
  dsimp only
  split
  · exact .refl s
  · split
    · exact .refl s
    · exact hact _ .insert
    · exact hact _ .delete

theorem State.keeps_pulseInFree (label : Option Label) : s.Keeps (s.pulseInFree label) := by
  unfold State.pulseInFree
  split
  · exact .refl s
  · exact (s.keeps_setTb _).trans (State.keeps_moveTime _ _ _)

theorem State.keeps_judgeLock : s.Keeps s.judgeLock := by
  unfold State.judgeLock
  split
  · exact (s.keeps_setTb _).trans (State.keeps_reportTb _ _)
  · exact .refl s

theorem State.keeps_judgeLockLost : s.Keeps s.judgeLockLost := by
  unfold State.judgeLockLost
  split
  · exact (s.keeps_setTb _).trans (State.keeps_reportTb _ _)
  · exact .refl s

theorem State.keeps_judgeReturn (e : Int) : s.Keeps (s.judgeReturn e) := by
  unfold State.judgeReturn
  split
  · split
    · exact (s.keeps_setTb _).trans (State.keeps_reportTb _ _)
    · exact s.keeps_setTb _
  · exact (s.keeps_setTb _).trans (State.keeps_reportTb _ _)

theorem State.keeps_pulseTests (tb : Timebase) (e : Int) : s.Keeps (s.pulseTests tb e) := by
  unfold State.pulseTests
  cases tb.loop with
  | free => exact s.keeps_setTb _
  | acquiring => exact (s.keeps_setTb _).trans (State.keeps_judgeLock _)
  | locked => exact (s.keeps_setTb _).trans (State.keeps_judgeLockLost _)
  | holdover => exact (s.keeps_setTb _).trans (State.keeps_judgeReturn _ e)

theorem State.keeps_pulseInLoop (label : Option Label) (e : Int) : s.Keeps (s.pulseInLoop label e) := by
  unfold State.pulseInLoop
  dsimp only
  split
  · split
    · exact (s.keeps_setTb _).trans (State.keeps_moveTime _ _ _)
    · exact s.keeps_pulseTests _ e
  · exact s.keeps_pulseTests _ e

theorem State.keeps_pulse : s.Keeps s.pulse := by
  unfold State.pulse
  dsimp only
  split
  · have harm := (s.keeps_setTb s.tb.takePulse).trans (State.keeps_armLeap _ s.tb.label)
    split
    · exact harm.trans (State.keeps_pulseInFree _ _)
    · exact harm.trans (State.keeps_pulseInLoop _ _ _)
  · exact s.keeps_setTb _

theorem State.keeps_missNote : s.Keeps s.missNote := by
  unfold State.missNote
  dsimp only
  split
  · exact s.keeps_setTb _
  · split
    · exact s.keeps_setTb _
    · exact (s.keeps_setTb _).trans (State.keeps_reportTb _ _)
    · exact (s.keeps_setTb _).trans (State.keeps_reportTb _ _)
    · split <;> exact s.keeps_setTb _

theorem State.keeps_degrade : s.Keeps s.degrade := (s.keeps_setTb _).trans (State.keeps_reportTb _ _)

theorem State.keeps_judgeLimit : s.Keeps s.judgeLimit := by
  unfold State.judgeLimit
  split
  · split
    · exact s.keeps_degrade
    · split
      · exact (s.keeps_setTb _).trans (State.keeps_reportTb _ _)
      · exact .refl s
  · exact .refl s

theorem State.keeps_relock : s.Keeps s.relock := (s.keeps_setTb _).trans (State.keeps_reportTb _ _)

/-! ## The element tracker -/

theorem State.keeps_superviseChange (e : Element) (c : Change) : s.Keeps (s.superviseChange e c) := by
  unfold State.superviseChange
  cases e.loaded.kind with
  | point => exact s.keeps_applySupervised _ _
  | signal => exact s.keeps_applySupervised _ _
  | other => exact .refl s

theorem State.keeps_accept (p : PortId) (i : Nat) (e : Element) (k : Candidate) : s.Keeps (s.accept p i e k) := by
  unfold State.accept
  dsimp only
  have hset := s.keeps_setElement i (acceptCandidate s.tb.recentLeap (s.port p).latency i e k).1
  have hall (u : State) (e' : Element) (c : Change) (h : s.Keeps u) :
      s.Keeps (if isClearing e' c then (u.superviseChange e' c).clearing c else u.superviseChange e' c) := by
    split
    · exact (h.trans (u.keeps_superviseChange e' c)).trans (State.keeps_clearing _ c)
    · exact h.trans (u.keeps_superviseChange e' c)
  apply hall
  split
  · exact hset.trans (State.keeps_offer _ _)
  · exact hset

theorem State.keeps_takeReport (p : PortId) (i : Nat) (e : Element) (r : Report) : s.Keeps (s.takeReport p i e r) := by
  unfold State.takeReport
  dsimp only
  split
  · exact s.keeps_setElement i _
  · split
    · exact s.keeps_accept p i _ _
    · exact s.keeps_setElement i _

theorem State.keeps_takeCommand (i : Nat) (e : Element) (code : Nat) (c : Capture) : s.Keeps (s.takeCommand i e code c) := by
  unfold State.takeCommand
  dsimp only
  have hset := s.keeps_setElement i
    { e with undefinedSeen := e.undefinedSeen || !inCommandSet e.loaded.kind code, lastCommand := some code }
  have hall (u : State) (h : s.Keeps u) (b : Bool) (f g : Supervised) :
      s.Keeps (if b then (match e.loaded.kind with
        | .point => u.applySupervised i f
        | .signal => u.applySupervised i g
        | .other => u) else u) := by
    split
    · cases e.loaded.kind with
      | point => exact h.trans (u.keeps_applySupervised i f)
      | signal => exact h.trans (u.keeps_applySupervised i g)
      | other => exact h
    · exact h
  apply hall
  split
  · exact hset.trans (State.keeps_offer _ _)
  · exact hset

theorem State.keeps_countUnmapped (p : PortId) (d : Direction) : s.Keeps (s.countUnmapped p d) :=
  s.keeps_setPort (Port.keeps_countDir _ d _)

theorem State.keeps_countMisdirected (p : PortId) (d : Direction) : s.Keeps (s.countMisdirected p d) :=
  s.keeps_setPort (Port.keeps_countDir _ d _)

theorem State.keeps_trackReport (p : PortId) (a : Nat) (r : Report) : s.Keeps (s.trackReport p a r) := by
  unfold State.trackReport
  split
  · exact s.keeps_takeReport p _ _ r
  · exact s.keeps_countUnmapped p .up

theorem State.keeps_trackCommand (p : PortId) (a code : Nat) (c : Capture) : s.Keeps (s.trackCommand p a code c) := by
  unfold State.trackCommand
  split
  · exact s.keeps_takeCommand _ _ code c
  · exact s.keeps_countUnmapped p .down

theorem State.keeps_interpret (p : PortId) (d : Direction) (octets : List Byte) (c : Capture) :
    s.Keeps (s.interpret p d octets c) := by
  unfold State.interpret
  dsimp only
  split
  · exact s.keeps_trackCommand p _ _ c
  · exact s.keeps_countMisdirected p .up
  · exact s.keeps_countMisdirected p .down
  · exact s.keeps_trackReport p _ _
  · exact s.keeps_countMisdirected p .down
  · exact s.keeps_trackReport p _ _
  · exact .refl s

theorem State.keeps_markStale (i : Nat) : s.Keeps (s.markStale i) := by
  unfold State.markStale
  split
  · exact .refl s
  · exact s.keeps_applySupervised i _

theorem State.keeps_raiseSilent (p : PortId) (d : Direction) : s.Keeps (s.raiseSilent p d) := by
  unfold State.raiseSilent
  cases d with
  | down => exact s.keeps_setCondition p .down .silent true
  | up => exact (s.keeps_setCondition p .up .silent true).trans (.foldl (fun s i => s.keeps_markStale i) _ _)

theorem State.keeps_settleLife (p : PortId) (d : Direction) : s.Keeps (s.settleLife p d) := by
  unfold State.settleLife
  split
  · exact s.keeps_raiseSilent p d
  · exact .refl s

/-! ## The reception of frames -/

theorem State.keeps_openFrame (p : PortId) (d : Direction) (shared : Bool) : s.Keeps (s.openFrame p d shared) :=
  s.keeps_setPort (((Port.keeps_forgetFlag _ d).trans (Port.keeps_arriveOpening _ d shared)).trans
    ((Port.keeps_setRx _ d _).trans (Port.keeps_requiet _ _)))

theorem State.keeps_beginFrame (p : PortId) (o : Opening) : s.Keeps (s.beginFrame p o) := s.keeps_setPort (Port.keeps_beginFrame _ o)

theorem State.keeps_frameContent (p : PortId) (d : Direction) (o : Opening) (bits : List Bool) :
    s.Keeps (s.frameContent p d o bits) := by
  unfold State.frameContent
  refine s.keeps_setPort (Port.Keeps.trans (Port.Keeps.trans ?_ (Port.keeps_arrive _ d _)) (Port.keeps_setRx _ d _))
  split
  · exact Port.keeps_blank _ d _
  · exact .refl _

theorem State.keeps_strayBits (p : PortId) (d : Direction) (stray : List Bool) (bits : List LineBit) :
    s.Keeps (s.strayBits p d stray bits) :=
  s.keeps_setPort ((Port.keeps_arrive _ d bits).trans ((Port.keeps_setRx _ d _).trans (Port.keeps_requiet _ _)))

theorem State.keeps_strayContent (p : PortId) (d : Direction) (bits : List Bool) : s.Keeps (s.strayContent p d bits) :=
  s.keeps_strayBits p d _ _

theorem State.keeps_takeContent (p : PortId) (d : Direction) (bits : List Bool) : s.Keeps (s.takeContent p d bits) := by
  unfold State.takeContent
  split
  · exact s.keeps_strayContent p d bits
  · split
    · exact .refl s
    · exact (s.keeps_beginFrame p _).trans (State.keeps_frameContent _ p d _ bits)

theorem State.keeps_restartLife (p : PortId) (d : Direction) : s.Keeps (s.restartLife p d) := by
  unfold State.restartLife
  dsimp only
  have hrx (r : Receiver) := s.keeps_setPort (p := p) (Port.keeps_setRx _ d r)
  split
  · exact (hrx _).trans (State.keeps_setCondition _ p d _ _)
  · exact hrx _

theorem State.keeps_countCheckFailure (p : PortId) (d : Direction) : s.Keeps (s.countCheckFailure p d) := by
  unfold State.countCheckFailure
  dsimp only
  have hrx (r : Receiver) := s.keeps_setPort (p := p) (Port.keeps_setRx _ d r)
  split
  · exact (hrx _).trans (State.keeps_setCondition _ p d _ _)
  · exact hrx _

theorem State.keeps_discardTelegram (p : PortId) : s.Keeps (s.discardTelegram p) := s.keeps_setPort (Port.keeps_countPort _ _)

/-- A request joins the queue only where it holds fewer than 8 (R170). -/
theorem State.keeps_takeRequest (p : PortId) (octets : List Byte) : s.Keeps (s.takeRequest p octets) := by
  unfold State.takeRequest
  split
  · rename_i hroom
    refine (s.keeps_setPort (p := p) (Port.keeps_countPort _ _)).trans (.of_parts (fun _ => ?_) id (fun _ => .refl _)
      (fun _ => .refl _) id)
    refine Nat.le_trans (Service.take_queue_length _) ?_
    simpa using hroom
  · exact s.keeps_discardTelegram p

theorem State.keeps_judgeRemoval (p : PortId) (d : Direction) (k : FrameClass) (o : Opening) :
    s.Keeps (s.judgeRemoval p d k o) := by
  unfold State.judgeRemoval
  dsimp only
  split
  · split
    · exact s.keeps_takeRequest p _
    · exact s.keeps_discardTelegram p
  · split
    · exact s.keeps_discardTelegram p
    · exact .refl s

/-- The flag or abort that delimits a frame arrives, and the frame ends in its class (R5). -/
def State.endFrame (s : State) (p : PortId) (d : Direction) (aborted : Bool) (o : Opening) : State :=
  s.setPort p (((s.port p).arriveOf d o (if aborted then abortBits else closingBits)).endFrame s.tb.instant d
    (classify aborted o.content))

/-- What the class of a frame does to its receiver: a valid one restarts the life timer (R19), a check failure counts (R21). -/
def State.judgeClass (s : State) (p : PortId) (d : Direction) (k : FrameClass) : State :=
  match k with
  | .valid => s.restartLife p d
  | .checkFailure => s.countCheckFailure p d
  | _ => s

/-- A delimited frame is ended, judged by its class, judged for its removal, and then interpreted unless it collided. -/
theorem State.delimit_eq (p : PortId) (d : Direction) (aborted : Bool) (o : Opening) :
    s.delimit p d aborted o =
      (let u := ((s.endFrame p d aborted o).judgeClass p d (classify aborted o.content)).judgeRemoval p d
        (classify aborted o.content) o
      if classify aborted o.content = .valid ∧ o.collided = false then
        u.interpret p d (telegramOctets o.content) o.capture
      else u) := by
  unfold State.delimit State.judgeClass State.endFrame
  cases classify aborted o.content <;> rfl

theorem State.keeps_endFrame (p : PortId) (d : Direction) (aborted : Bool) (o : Opening) : s.Keeps (s.endFrame p d aborted o) :=
  s.keeps_setPort ((Port.keeps_arrive _ d _).trans (Port.keeps_endFrame _ s.tb.instant d _))

theorem State.keeps_judgeClass (p : PortId) (d : Direction) (k : FrameClass) : s.Keeps (s.judgeClass p d k) := by
  cases k with
  | valid => exact s.keeps_restartLife p d
  | checkFailure => exact s.keeps_countCheckFailure p d
  | _ => exact .refl s

theorem State.keeps_delimit (p : PortId) (d : Direction) (aborted : Bool) (o : Opening) : s.Keeps (s.delimit p d aborted o) := by
  rw [State.delimit_eq]
  dsimp only
  have hall := ((s.keeps_endFrame p d aborted o).trans (State.keeps_judgeClass _ p d (classify aborted o.content))).trans
    (State.keeps_judgeRemoval _ p d (classify aborted o.content) o)
  split
  · exact hall.trans (State.keeps_interpret _ p d _ _)
  · exact hall

theorem State.keeps_idleFlags (p : PortId) (d : Direction) (bits : List LineBit) : s.Keeps (s.idleFlags p d bits) :=
  s.keeps_setPort (((Port.keeps_forgetFlag _ d).trans (Port.keeps_arrive _ d bits)).trans (Port.keeps_requiet _ _))

theorem State.keeps_closeFrame (p : PortId) (d : Direction) (aborted : Bool) (o : Opening) (rest : List Bool) :
    s.Keeps (s.closeFrame p d aborted o rest) := by
  unfold State.closeFrame
  split
  · exact s.keeps_idleFlags p d _
  · exact ((s.keeps_beginFrame p o).trans (State.keeps_frameContent _ p d o rest)).trans (State.keeps_delimit _ p d aborted _)

theorem State.keeps_takeEnd (p : PortId) (d : Direction) (aborted : Bool) (rest : List Bool) :
    s.Keeps (s.takeEnd p d aborted rest) := by
  unfold State.takeEnd
  split
  · exact (s.keeps_strayContent p d rest).trans (State.keeps_strayBits _ p d _ _)
  · exact s.keeps_closeFrame p d aborted _ rest

theorem State.keeps_takeIdle (p : PortId) (d : Direction) (bits : List LineBit) : s.Keeps (s.takeIdle p d bits) := by
  unfold State.takeIdle
  split
  · exact s.keeps_strayBits p d _ bits
  · split
    · exact s.keeps_idleFlags p d bits
    · exact s.keeps_strayBits p d _ bits

theorem State.keeps_receive (p : PortId) (d : Direction) (part : FramePart) : s.Keeps (s.receive p d part) := by
  cases part with
  | idle marks n => exact s.keeps_takeIdle p d _
  | opening shared => exact s.keeps_openFrame p d shared
  | content bits => exact s.keeps_takeContent p d bits
  | closed rest => exact s.keeps_takeEnd p d false rest
  | aborted rest => exact s.keeps_takeEnd p d true rest

end Sys2Proof.Machine
end

