-- ==== Sys2Proof/Proofs/CapacitiesOfSteps.lean ====
section
/-! PROOFS. Sys2Proof/Proofs/CapacitiesOfSteps.lean: the requests and their responses, RESET TABLES and every command keep the capacities
and the settings, and with them a step (O59). -/

namespace Sys2Proof.Machine

variable (s : State)

/-! ## Requests -/

/-- What a request keeps: the state it leaves, and a reply short enough for the longest response (R16). -/
structure Served.Keeps (s : State) (a : Served) : Prop where
  state : s.Keeps a.state
  reply : s.backlogLawful → a.reply.octets.length ≤ 58

theorem Served.keeps_refuse (reason : Reason) : Served.Keeps s (refuse s reason) :=
  ⟨.refl s, fun _ => by simp [refuse, Reply.octets]⟩

theorem Served.keeps_answer {s t : State} {data : List Byte} (h : s.Keeps t) (hd : data.length ≤ 57) :
    Served.Keeps s (answer t data) :=
  ⟨h, fun _ => Nat.succ_le_succ hd⟩

theorem Served.keeps_answerTaken {s t : State} {changed : Bool} {data : List Byte} (h : s.Keeps t) (hd : data.length ≤ 57) :
    Served.Keeps s (answerTaken t changed data) := by
  refine ⟨h, fun _ => ?_⟩
  cases changed <;> exact Nat.succ_le_succ hd

theorem State.respond_port_same (code : Byte) (r : Request) (a : Reply) :
    (s.respond code r a).port r.port = ((s.port r.port).queueResponse ⟨code, r.tag, a⟩).requiet s.tb.instant :=
  s.port_setPort_same r.port _

theorem State.respond_accept (code : Byte) (r : Request) (a : Reply) (p : PortId) :
    ((s.respond code r a).port p).accept = (s.port p).accept := by
  by_cases hp : p = r.port
  · rw [hp, State.respond_port_same]
    exact Port.queueResponse_accept _ _
  · rw [State.respond_port_other s code r a p hp]

theorem State.respond_responses_length (code : Byte) (r : Request) (a : Reply) (p : PortId)
    (h : (s.port p).responses.length ≤ 4) : ((s.respond code r a).port p).responses.length ≤ 4 := by
  by_cases hp : p = r.port
  · rw [hp] at h ⊢
    rw [State.respond_port_same]
    exact Port.queueResponse_length _ _ h
  · rw [State.respond_port_other s code r a p hp]
    exact h

/-- A response keeps the state when it is short enough in a state that meets the law of the backlog (R15, R171). -/
theorem State.keeps_respond {s u : State} (h : s.Keeps u) (code : Byte) (r : Request) {a : Reply}
    (ha : s.backlogLawful → a.octets.length ≤ 58) : s.Keeps (u.respond code r a) := by
  refine ⟨fun hs => ?_, h.positions, fun hs => ?_, fun hs => ?_⟩
  · obtain ⟨hq, hp, ho⟩ := h.queues hs
    exact ⟨Nat.le_trans u.service.take_queue_length hq, fun p => u.respond_responses_length code r a p (hp p), ho⟩
  · obtain ⟨p, hp⟩ := h.accepts hs
    exact ⟨p, (u.respond_accept code r a p).trans hp⟩
  · have hport := (Port.keeps_queueResponse (u.port r.port) ⟨code, r.tag, a⟩ fun _ => ha hs).trans
      (Port.keeps_requiet _ u.tb.instant)
    exact ((u.keeps_setPort hport).trans (State.keeps_take _)).backlog (h.backlog hs)

/-! ## RESET TABLES (R47, R181) -/

theorem State.keeps_abandonAll : s.Keeps s.abandonAll := by
  refine .foldl (fun s i => ?_) _ s
  unfold State.abandonSupervision
  split
  · exact .refl s
  · exact s.keeps_applySupervised i _

theorem State.keeps_resetBanks : s.Keeps s.resetBanks := by
  refine (State.Keeps.foldl (fun s b => ?_) bankIds s).trans (State.keeps_setOpenList _ fun _ => Nat.zero_le _)
  unfold State.resetBank
  dsimp only
  split
  · exact .refl s
  · exact (s.keeps_report _).trans (State.keeps_emptyBank _ b)

theorem State.applySupervised_service (i : Nat) (r : Supervised) : (s.applySupervised i r).service = s.service :=
  List.foldlRecOn (motive := fun u => u.service = (s.setElement i r.element).service) r.offers State.offer rfl
    fun u hu o _ => (u.offer_service o).trans hu

theorem State.abandonAll_service : s.abandonAll.service = s.service := by
  refine List.foldlRecOn (motive := fun u => u.service = s.service) _ State.abandonSupervision rfl fun u hu i _ => ?_
  unfold State.abandonSupervision
  split
  · exact hu
  · rw [State.applySupervised_service, hu]

theorem State.keeps_setResetting (g : Option Resetting) : s.Keeps (s.setResetting g) := .of_capacities rfl

theorem State.keeps_beginReset (r : Request) : s.Keeps (s.beginReset r) := by
  have habandon := (s.keeps_taking 70 r).trans (State.keeps_abandonAll _)
  refine habandon.trans (.of_parts (fun hq => ?_) id (fun _ => .refl _) (fun _ => .refl _) id)
  rw [State.abandonAll_service] at hq
  show ((s.taking 70 r).service.hold ⟨70, r⟩).queue.length ≤ 8
  unfold Service.hold
  split <;> exact hq

theorem Closings.octets_length (c : Closings) : c.octets.length = 4 := by simp [Closings.octets]

theorem Resetting.octets_length (g : Resetting) (a b : Closings) : (g.octets a b).length = 10 := by
  simp [Resetting.octets, Closings.octets_length]

theorem State.keeps_continueReset (g : Resetting) : s.Keeps (s.continueReset g) := by
  unfold State.continueReset
  split
  · exact s.keeps_resetBanks.trans (State.keeps_setResetting _ _)
  · refine State.keeps_respond (State.Keeps.trans ?_ (State.keeps_taking _ 70 g.request)) 70 g.request fun _ => ?_
    · exact .of_capacities rfl
    · simp [Reply.octets, Resetting.octets_length]

theorem State.keeps_finishReset : s.Keeps s.finishReset := by
  unfold State.finishReset
  split
  · exact .refl s
  · split
    · exact (s.keeps_continueReset _).trans (State.keeps_continueReset _ _)
    · exact s.keeps_continueReset _

theorem State.keeps_takeReset (r : Request) (pause : Bool) : s.Keeps (s.takeReset r pause) := by
  have hfirst : s.Keeps (match s.service.resetting with
      | some g => if g.request = r then s.continueReset g else s.finishReset.beginReset r
      | none => s.beginReset r) := by
    split
    · split
      · exact s.keeps_continueReset _
      · exact s.keeps_finishReset.trans (State.keeps_beginReset _ r)
    · exact s.keeps_beginReset r
  unfold State.takeReset
  dsimp only
  split
  · exact hfirst
  · exact hfirst.trans (State.keeps_finishReset _)

/-- A request that keeps every state keeps the state that serves it (R171). -/
theorem State.keeps_serve (code : Byte) (r : Request) {f : List Byte → State → Served}
    (hf : ∀ params u, Served.Keeps u (f params u)) : s.Keeps (s.serve code r f) := by
  unfold State.serve
  split
  · exact .refl s
  · have htaking := s.keeps_finishReset.trans (State.keeps_taking _ code r)
    obtain ⟨hstate, hreply⟩ := hf r.params (s.finishReset.taking code r)
    exact State.keeps_respond (htaking.trans hstate) code r fun hs => hreply (htaking.backlog hs)

/-! ## Reading requests -/

theorem State.keeps_reqIdentify (params : List Byte) : Served.Keeps s (reqIdentify params s) := by
  unfold reqIdentify
  split
  · exact Served.keeps_answer (.refl s) (by simp [State.identifyData])
  · exact Served.keeps_refuse s _

theorem State.keeps_reqReadStatus (params : List Byte) : Served.Keeps s (reqReadStatus params s) := by
  unfold reqReadStatus
  split
  · split
    · rename_i data h
      exact Served.keeps_answer (.refl s) (s.plainSection_length _ data h)
    · exact Served.keeps_refuse s _
  · split
    · split
      · exact Served.keeps_answer (.refl s) (by rw [State.portSection_length]; decide)
      · exact Served.keeps_refuse s _
    · split
      · exact Served.keeps_answer (.refl s) (by rw [Line.lineSection_length]; decide)
      · exact Served.keeps_refuse s _
    · exact Served.keeps_refuse s _
  · exact Served.keeps_refuse s _

theorem State.counterGroup_length (p : PortId) (group : Nat) (data : List Byte) (h : s.counterGroup p group = some data) :
    data.length ≤ 57 := by
  unfold State.counterGroup at h
  split at h <;> cases h <;> simp [DirCounters.octets_length, PortCounters.octets_length]

theorem State.keeps_reqReadCounters (params : List Byte) : Served.Keeps s (reqReadCounters params s) := by
  unfold reqReadCounters
  split
  · split
    · split
      · rename_i data h
        exact Served.keeps_answer (.refl s) (s.counterGroup_length _ _ data h)
      · exact Served.keeps_refuse s _
    · exact Served.keeps_refuse s _
  · exact Served.keeps_refuse s _

theorem State.keeps_reqReadElement (params : List Byte) : Served.Keeps s (reqReadElement params s) := by
  unfold reqReadElement
  split
  · split
    · exact Served.keeps_refuse s _
    · exact Served.keeps_answer (.refl s) (Nat.le_trans (s.elementData_length _) (by decide))
  · exact Served.keeps_refuse s _

/-- The response of READ ENTRY is short because no route list is longer than 6 items (R108, R131). -/
theorem State.keeps_reqReadEntry (params : List Byte) : Served.Keeps s (reqReadEntry params s) := by
  unfold reqReadEntry
  split
  · split
    · split
      · rename_i e he
        refine ⟨.refl s, fun hs => ?_⟩
        have hroute := State.route_of_entry he ((State.backlogLawful_iff s).1 hs).2
        simp [answer, Reply.octets, e.octets_length hroute]
      · exact Served.keeps_answer (.refl s) (by rw [State.headerData_length]; decide)
    · exact Served.keeps_refuse s _
  · exact Served.keeps_refuse s _

theorem State.keeps_reqReadJournal (params : List Byte) : Served.Keeps s (reqReadJournal params s) := by
  unfold reqReadJournal
  split
  · exact Served.keeps_answer (.refl s) (Nat.le_trans (s.journal.readData_length _) (by decide))
  · exact Served.keeps_refuse s _

/-! ## Requests on ports -/

/-- SET PORT gives a port its accept flag and keeps its queues (R22). -/
theorem Port.keepsQueues_takeSettings (x : Port) (now : Nat) (t : PortSettings) : x.KeepsQueues (x.takeSettings now t) := by
  have hcut : x.Keeps (if t.rate = x.rate then x else (x.cutFrame now .down).cutFrame now .up) := by
    split
    · exact .refl x
    · exact (x.keeps_cutFrame now .down).trans (Port.keeps_cutFrame _ now .up)
  refine hcut.toKeepsQueues.trans (Port.KeepsQueues.trans ⟨?_, ?_⟩ (Port.keeps_settleQuiet _ now).toKeepsQueues)
  · exact id
  · exact id

theorem Port.takeSettings_accept (x : Port) (now : Nat) (t : PortSettings) : (x.takeSettings now t).accept = t.accept :=
  (Port.keeps_settleQuiet _ now).accept

theorem State.otherAccepts_iff (p : PortId) : s.otherAccepts p = true ↔ ∃ q, q ≠ p ∧ (s.port q).accept = true := by
  have hall (q : PortId) : q ∈ portIds := by fin_cases q <;> decide
  simp [State.otherAccepts, hall]

/-- The clearing of the last accept flag is refused, so that some port goes on accepting (R175). -/
theorem State.someAccepts_setPort {p : PortId} {x : Port}
    (h : ¬ ((s.port p).accept = true ∧ x.accept = false ∧ s.otherAccepts p = false)) (hs : s.someAccepts) :
    (s.setPort p x).someAccepts := by
  by_cases hx : x.accept = true
  · exact ⟨p, by rw [State.port_setPort_same]; exact hx⟩
  · obtain ⟨q, hq, hacc⟩ : ∃ q, q ≠ p ∧ (s.port q).accept = true := by
      obtain ⟨q, hacc⟩ := hs
      by_cases hq : q = p
      · subst hq
        rw [← State.otherAccepts_iff]
        simpa [hacc, hx] using h
      · exact ⟨q, hq, hacc⟩
    exact ⟨q, by rw [State.port_setPort_other s p q x hq]; exact hacc⟩

theorem State.keeps_setPortSettings (p : PortId) (t : PortSettings) (latch : LatchInterval) :
    Served.Keeps s (s.setPortSettings p t latch) := by
  unfold State.setPortSettings
  dsimp only
  split
  · exact Served.keeps_refuse s _
  · split
    · exact Served.keeps_refuse s _
    · rename_i hlast
      have hset : s.Keeps (s.setPort p ((s.port p).takeSettings s.tb.instant t)) :=
        s.keeps_setPort_of_accepts (Port.keepsQueues_takeSettings _ _ t)
          (s.someAccepts_setPort (by rw [Port.takeSettings_accept]; exact hlast))
      have hlatch : s.Keeps { s.setPort p ((s.port p).takeSettings s.tb.instant t) with latchInterval := latch } :=
        hset.trans (.of_capacities rfl)
      exact Served.keeps_answerTaken ((hlatch.trans (State.keeps_settleLife _ p .down)).trans (State.keeps_settleLife _ p .up))
        (by rw [State.portSettings_length]; decide)

theorem State.keeps_reqSetPort (params : List Byte) : Served.Keeps s (reqSetPort params s) := by
  unfold reqSetPort
  split
  · split
    · exact s.keeps_setPortSettings _ _ _
    · exact Served.keeps_refuse s _
  · exact Served.keeps_refuse s _

theorem State.keeps_answerPort {s t : State} (p : PortId) (h : s.Keeps t) : Served.Keeps s (t.answerPort p) :=
  Served.keeps_answer h (by simp)

theorem State.keeps_joinPort (p : PortId) : Served.Keeps s (s.joinPort p) := by
  unfold State.joinPort
  split
  · exact State.keeps_answerPort p (s.keeps_setPort (Port.keeps_enterJoining _ _))
  · exact State.keeps_answerPort p (.refl s)
  all_goals exact Served.keeps_refuse s _

theorem State.keeps_reqJoin (params : List Byte) : Served.Keeps s (reqJoin params s) := by
  unfold reqJoin
  split
  · split
    · exact s.keeps_joinPort _
    · exact Served.keeps_refuse s _
  · exact Served.keeps_refuse s _

theorem State.keeps_leavePort (p : PortId) : Served.Keeps s (s.leavePort p) := by
  unfold State.leavePort
  split
  · exact State.keeps_answerPort p (.refl s)
  · split
    · exact Served.keeps_refuse s _
    · exact State.keeps_answerPort p (s.keeps_setPort (Port.keeps_enterLeaving _ _))
  all_goals exact Served.keeps_refuse s _

theorem State.keeps_reqLeave (params : List Byte) : Served.Keeps s (reqLeave params s) := by
  unfold reqLeave
  split
  · split
    · exact s.keeps_leavePort _
    · exact Served.keeps_refuse s _
  · exact Served.keeps_refuse s _

theorem State.keeps_reqLatchCounters (params : List Byte) : Served.Keeps s (reqLatchCounters params s) := by
  unfold reqLatchCounters
  split
  · split
    · exact Served.keeps_answer s.keeps_latch (by simp)
    · exact Served.keeps_refuse s _
  · exact Served.keeps_refuse s _

/-! ## Requests on windows and elements -/

theorem Window.octets_length (x : Window) : x.octets.length = 6 := by simp [Window.octets]

theorem State.keeps_takeWindow (p : PortId) (w : LineId) (x : Window) : s.Keeps (s.takeWindow p w x) := .of_capacities rfl

theorem State.keeps_loadWindow (p : PortId) (w : LineId) (given : Window) : Served.Keeps s (s.loadWindow p w given) := by
  have hlen (x : Window) : x.octets.length ≤ 57 := by rw [Window.octets_length]; decide
  unfold State.loadWindow
  split
  · exact Served.keeps_refuse s _
  · split
    · unfold State.closeWindow
      split
      · exact Served.keeps_refuse s _
      · exact Served.keeps_answer (s.keeps_takeWindow p w _) (hlen _)
    · unfold State.openWindow
      dsimp only
      split
      · exact Served.keeps_refuse s _
      · split
        · exact Served.keeps_refuse s _
        · split
          · exact Served.keeps_refuse s _
          · split
            · exact Served.keeps_refuse s _
            · exact Served.keeps_answerTaken (s.keeps_takeWindow p w _) (hlen _)

theorem State.keeps_reqLoadWindow (params : List Byte) : Served.Keeps s (reqLoadWindow params s) := by
  unfold reqLoadWindow
  split
  · split
    · exact s.keeps_loadWindow _ _ _
    · exact Served.keeps_refuse s _
  · exact Served.keeps_refuse s _

theorem State.keeps_loadElement (i : Nat) (kind : Kind) (g : GivenFields) : Served.Keeps s (s.loadElement i kind g) := by
  have hdone (e : Element) (changed : Bool) (l : Loaded) :
      Served.Keeps s (answerTaken (s.setElement i e) changed (kind.code :: l.octets)) :=
    Served.keeps_answerTaken (s.keeps_setElement i e) (by simp)
  unfold State.loadElement
  dsimp only
  split
  · exact Served.keeps_refuse s _
  · split
    · exact hdone _ _ _
    · split
      · exact hdone _ _ _
      · exact Served.keeps_refuse s _

theorem State.keeps_reqLoadElement (params : List Byte) : Served.Keeps s (reqLoadElement params s) := by
  unfold reqLoadElement
  split
  · split
    · split
      · exact Served.keeps_refuse s _
      · exact s.keeps_loadElement _ _ _
    · exact Served.keeps_refuse s _
  · split
    · split
      · exact Served.keeps_refuse s _
      · exact s.keeps_loadElement _ _ _
    · exact Served.keeps_refuse s _
  · exact Served.keeps_refuse s _

theorem State.keeps_reqRemoveElement (params : List Byte) : Served.Keeps s (reqRemoveElement params s) := by
  unfold reqRemoveElement State.removeRecord
  split
  · split
    · exact Served.keeps_refuse s _
    · split
      · exact Served.keeps_answer (.refl s) (by simp)
      · split
        · exact Served.keeps_refuse s _
        · split
          · exact Served.keeps_refuse s _
          · exact Served.keeps_answer (s.keeps_removeElement _) (by simp)
  · exact Served.keeps_refuse s _

theorem State.keeps_reqClearStatistics (params : List Byte) : Served.Keeps s (reqClearStatistics params s) := by
  unfold reqClearStatistics
  split
  · dsimp only
    split
    · exact Served.keeps_answer (.of_capacities rfl) (by simp)
    · split
      · exact Served.keeps_refuse s _
      · split
        · exact Served.keeps_refuse s _
        · exact Served.keeps_answer (s.keeps_setElement _ _) (by simp)
  · exact Served.keeps_refuse s _

/-! ## Requests on the timebase -/

theorem Timebase.sincePulse_length (tb : Timebase) : tb.sincePulse.length = 8 := by
  have h (t : Nat) : (be 8 ((tb.instant - t) / ms 1)).length = 8 := be_length 8 _
  exact optional_length h _

theorem State.keeps_reqTimeMark (params : List Byte) : Served.Keeps s (reqTimeMark params s) := by
  unfold reqTimeMark
  split
  · split
    · exact Served.keeps_refuse s _
    · dsimp only
      split
      · exact Served.keeps_refuse s _
      · exact Served.keeps_answer (s.keeps_setTb _) (by simp [Label.octets_length, Timebase.sincePulse_length])
  · exact Served.keeps_refuse s _

theorem State.keeps_reqSetTimebase (params : List Byte) : Served.Keeps s (reqSetTimebase params s) := by
  unfold reqSetTimebase
  split
  · exact Served.keeps_answerTaken ((s.keeps_setTb _).trans (State.keeps_judgeLimit _))
      (by rw [Timebase.settings_length]; decide)
  · exact Served.keeps_refuse s _

theorem State.keeps_reqRelock (params : List Byte) : Served.Keeps s (reqRelock params s) := by
  unfold reqRelock
  split
  · exact Served.keeps_answer s.keeps_relock (by simp)
  · exact Served.keeps_refuse s _

theorem State.keeps_takeSchedule (a : ScheduleAction) : s.Keeps (s.takeSchedule a).1 := by
  unfold State.takeSchedule
  split
  · exact .refl s
  · exact s.keeps_setTb _
  · exact (s.keeps_setTb _).trans (State.keeps_judgeOffset _)

theorem ScheduleAction.octets_length (a : ScheduleAction) : a.octets.length ≤ 8 := by
  cases a <;> simp [ScheduleAction.octets]

theorem offsetOctets_length (now : Option Int) : (offsetOctets now).length ≤ 2 := by
  cases now <;> simp [offsetOctets]

theorem State.keeps_setCivilOffset (now : Option Int) (a : ScheduleAction) : Served.Keeps s (s.setCivilOffset now a) := by
  have hnow : s.Keeps (match now with
      | some v => s.changeOffset (takeOffset v)
      | none => s) := by
    split
    · exact s.keeps_changeOffset _
    · exact .refl s
  refine Served.keeps_answerTaken (hnow.trans (State.keeps_takeSchedule _ a)) ?_
  have ha := a.octets_length
  have ho := offsetOctets_length now
  simp [optional_length ScheduledChange.octets_length]
  omega

theorem State.keeps_reqSetCivilOffset (params : List Byte) : Served.Keeps s (reqSetCivilOffset params s) := by
  have hcancel (now : Option Int) (action : Nat) : Served.Keeps s (s.cancelForm now action) := by
    unfold State.cancelForm
    split
    · exact s.keeps_setCivilOffset now _
    · exact Served.keeps_refuse s _
    · exact Served.keeps_refuse s _
  have hchange (now : Option Int) (action : Nat) (day : Day) (sec : Nat) (offset : Int) :
      Served.Keeps s (s.changeForm now action day sec offset) := by
    unfold State.changeForm
    split
    · split
      · exact Served.keeps_refuse s _
      · exact s.keeps_setCivilOffset now _
    · exact Served.keeps_refuse s _
    · exact Served.keeps_refuse s _
  unfold reqSetCivilOffset
  split
  · exact s.keeps_setCivilOffset _ _
  · exact hcancel _ _
  · exact s.keeps_setCivilOffset _ _
  · exact hcancel _ _
  · exact hchange _ _ _ _ _
  · exact hchange _ _ _ _ _
  · exact Served.keeps_refuse s _

/-! ## Requests on banks -/

theorem State.keeps_bankRequest {f : BankId → State → Served} (h : ∀ b, Served.Keeps s (f b s)) (params : List Byte) :
    Served.Keeps s (bankRequest f params s) := by
  unfold bankRequest
  split
  · split
    · exact h _
    · exact Served.keeps_refuse s _
  · exact Served.keeps_refuse s _

theorem State.keeps_reqLoadHeader (params : List Byte) : Served.Keeps s (reqLoadHeader params s) := by
  unfold reqLoadHeader
  split
  · split
    · split
      · exact Served.keeps_refuse s _
      · unfold State.loadHeader
        dsimp only
        split
        · exact Served.keeps_answer (s.keeps_setBank fun _ e he => absurd he List.not_mem_nil) (by simp)
        · exact Served.keeps_answer (s.keeps_setBank fun hs => hs _) (by simp)
        · exact Served.keeps_refuse s _
    · exact Served.keeps_refuse s _
  · exact Served.keeps_refuse s _

/-- An entry is loaded with 6 route items at most (R111). -/
theorem State.keeps_loadEntry (b : BankId) (e : Entry) (changed : Bool) : Served.Keeps s (s.loadEntry b e changed) := by
  unfold State.loadEntry
  dsimp only
  split
  · exact Served.keeps_refuse s _
  split
  · exact Served.keeps_refuse s _
  split
  · exact Served.keeps_refuse s _
  rename_i hrange
  have hroute : e.route.length ≤ 6 := by
    simp only [Entry.outOfRange, Bool.or_eq_true, decide_eq_true_eq] at hrange
    omega
  split
  · exact Served.keeps_refuse s _
  split
  · exact Served.keeps_refuse s _
  split
  · exact Served.keeps_refuse s _
  refine Served.keeps_answerTaken ((s.keeps_setBank fun hs e' he' => ?_).trans (State.keeps_raiseRefs _ e)) ?_
  · rcases List.mem_append.1 he' with he' | he'
    · exact hs b e' he'
    · rw [List.mem_singleton.1 he']
      exact hroute
  · simp only [Entry.loadedOctets, List.length_append, be_length, RouteItem.octets_flatMap_length]
    omega

theorem State.keeps_reqLoadEntry (params : List Byte) : Served.Keeps s (reqLoadEntry params s) := by
  unfold reqLoadEntry
  split
  · split
    · exact Served.keeps_refuse s _
    · split
      · exact Served.keeps_refuse s _
      · split
        · exact Served.keeps_refuse s _
        · exact s.keeps_loadEntry _ _ _
  · exact Served.keeps_refuse s _

theorem State.keeps_answerBank {s t : State} (b : BankId) (h : s.Keeps t) : Served.Keeps s (t.answerBank b) :=
  Served.keeps_answer h (by simp)

theorem State.keeps_armBank (b : BankId) : Served.Keeps s (State.armBank b s) := by
  unfold State.armBank
  dsimp only
  split
  · exact Served.keeps_refuse s _
  · exact State.keeps_answerBank b (s.keeps_setBank fun hs => hs b)

theorem State.keeps_disarmBank (b : BankId) : Served.Keeps s (State.disarmBank b s) := by
  unfold State.disarmBank
  dsimp only
  split
  · exact State.keeps_answerBank b (s.keeps_setBank fun hs => hs b)
  · exact Served.keeps_refuse s _

theorem State.keeps_abandonBank (b : BankId) : Served.Keeps s (State.abandonBank b s) := by
  unfold State.abandonBank
  dsimp only
  split
  · refine Served.keeps_answer (((s.keeps_setOpenList fun h => ?_).trans (State.keeps_report _ _)).trans
      (State.keeps_emptyBank _ b)) (by simp)
    exact Nat.le_trans (List.length_filter_le _ _) h
  · exact Served.keeps_refuse s _

theorem State.keeps_clearBank (b : BankId) : Served.Keeps s (State.clearBank b s) := by
  unfold State.clearBank
  split
  · exact State.keeps_answerBank b (.refl s)
  · exact State.keeps_answerBank b (s.keeps_emptyBank b)
  · exact Served.keeps_refuse s _

theorem State.keeps_reqCancelEntry (params : List Byte) : Served.Keeps s (reqCancelEntry params s) := by
  unfold reqCancelEntry State.cancelEntry
  split
  · split
    · split
      · exact Served.keeps_refuse s _
      · split
        · exact Served.keeps_refuse s _
        · exact Served.keeps_answer (s.keeps_closeOwn _ _) (by simp)
    · exact Served.keeps_refuse s _
  · exact Served.keeps_refuse s _

/-! ## Requests on clock lines and the journal -/

theorem State.keeps_reqSetLine (params : List Byte) : Served.Keeps s (reqSetLine params s) := by
  unfold reqSetLine
  split
  · split
    · unfold State.setLineSettings
      dsimp only
      split
      · exact Served.keeps_refuse s _
      · refine Served.keeps_answerTaken (s.keeps_applyLine _ ?_) (by simp [Line.timings_length])
        split
        · exact Line.keeps_setTimings _ _ _
        · exact Line.keeps_setPeriod _ _ _ _
    · exact Served.keeps_refuse s _
  · exact Served.keeps_refuse s _

/-- A position that is set lies on the dial (R145). -/
theorem State.keeps_reqSetPosition (params : List Byte) : Served.Keeps s (reqSetPosition params s) := by
  unfold reqSetPosition
  split
  · split
    · unfold State.setPosition
      dsimp only
      split
      · exact Served.keeps_refuse s _
      · rename_i hrange
        split
        · exact Served.keeps_refuse s _
        · exact Served.keeps_answer (s.keeps_applyLine _ (Line.keeps_place _ _ _ _ (Nat.lt_of_not_le hrange))) (by simp)
    · exact Served.keeps_refuse s _
  · exact Served.keeps_refuse s _

theorem State.keeps_lineRequest {f : Line → State → LineStep} (h : ∀ x, Line.Keeps x (f x s).line) (params : List Byte) :
    Served.Keeps s (lineRequest f params s) := by
  unfold lineRequest
  split
  · split
    · exact Served.keeps_refuse s _
    · split
      · exact Served.keeps_refuse s _
      · exact Served.keeps_answer (s.keeps_applyLine _ (h _)) (by simp)
  · exact Served.keeps_refuse s _

theorem State.keeps_reqSetClass (params : List Byte) : Served.Keeps s (reqSetClass params s) := by
  unfold reqSetClass
  split
  · split
    · exact Served.keeps_answerTaken (s.keeps_setJournal _) (by simp [ClassSetting.octets])
    · exact Served.keeps_refuse s _
  · exact Served.keeps_refuse s _

theorem State.keeps_reqSetAlert (params : List Byte) : Served.Keeps s (reqSetAlert params s) := by
  unfold reqSetAlert
  split
  · dsimp only
    split
    · exact Served.keeps_refuse s _
    · exact Served.keeps_answerTaken (s.keeps_setJournal _) (by simp [Journal.settings_length])
  · exact Served.keeps_refuse s _

theorem State.keeps_reqRelease (params : List Byte) : Served.Keeps s (reqRelease params s) := by
  unfold reqRelease
  split
  · exact Served.keeps_answer (s.keeps_setJournal _) (by simp [Journal.releaseData])
  · exact Served.keeps_refuse s _

/-! ## Events on the ports -/

theorem State.keeps_completeQuiet (p : PortId) (state : PortState) : s.Keeps (s.completeQuiet p state) := by
  unfold State.completeQuiet
  dsimp only
  split
  · exact (s.keeps_await _).trans (State.keeps_setPort _ (Port.keeps_beginTransfer _ _))
  · exact s.keeps_await _

theorem State.keeps_endInitialising : s.Keeps s.endInitialising :=
  (s.keeps_mapPorts fun _ x => x.keeps_endInitialising s.tb.instant s.straps.joinen).trans (.of_capacities rfl)

/-- An insertion begins with an empty buffer (R16). -/
theorem Port.held_of_mayInsert {x : Port} (h : x.mayInsert = true) : x.held = [] := by
  simp only [Port.mayInsert, Bool.and_eq_true, List.isEmpty_iff] at h
  exact h.1.2

theorem Port.keeps_awaitIf (x : Port) (c : Bool) (idle : LineBit) (stop : Port → Bool) :
    x.Keeps (if c then x.awaitUp idle stop else x) := by
  split
  · exact x.keeps_awaitUp idle stop
  · exact .refl x

/-! ## Every command -/

@[simp] theorem State.afterReset_port (pending : List Instr) (cause : ResetCause) (straps : Straps) (choices : Nat) (p : PortId) :
    (State.afterReset pending cause straps choices).port p = Port.afterReset straps p := by
  simp [State.port, State.afterReset]

@[simp] theorem State.afterReset_line (pending : List Instr) (cause : ResetCause) (straps : Straps) (choices : Nat) (l : LineId) :
    (State.afterReset pending cause straps choices).line l = Line.afterReset := by
  simp [State.line, State.afterReset]

@[simp] theorem State.afterReset_bank (pending : List Instr) (cause : ResetCause) (straps : Straps) (choices : Nat) (b : BankId) :
    (State.afterReset pending cause straps choices).bank b = Bank.afterReset := by
  cases b <;> rfl

/-- A device reset gives a part with empty queues, dials at 0 and P0 accepting (R7, R14, R133). -/
theorem State.afterReset_lawful (pending : List Instr) (cause : ResetCause) (straps : Straps) (choices : Nat) :
    (State.afterReset pending cause straps choices).queuesBounded ∧ (State.afterReset pending cause straps choices).positionsLawful ∧
    (State.afterReset pending cause straps choices).someAccepts ∧ (State.afterReset pending cause straps choices).backlogLawful := by
  refine ⟨⟨Nat.zero_le _, fun p => ?_, Nat.zero_le _⟩, fun l => ?_, ⟨0, ?_⟩, ?_⟩
  · rw [State.afterReset_port]
    exact Nat.zero_le _
  · rw [State.afterReset_line]
    decide
  · rw [State.afterReset_port]
    rfl
  · rw [State.backlogLawful_iff]
    refine ⟨fun p => ?_, fun b => ?_⟩
    · rw [State.afterReset_port]
      exact ⟨Nat.zero_le _, fun r hr => absurd hr List.not_mem_nil⟩
    · rw [State.afterReset_bank]
      exact Bank.routesShort_afterReset

theorem State.keeps_afterReset (pending : List Instr) (cause : ResetCause) (straps : Straps) (choices : Nat) :
    s.Keeps (State.afterReset pending cause straps choices) := by
  obtain ⟨hqueues, hpositions, haccepts, hbacklog⟩ := State.afterReset_lawful pending cause straps choices
  exact ⟨fun _ => hqueues, fun _ => hpositions, fun _ => haccepts, fun _ => hbacklog⟩

/-- An event that keeps the state outside INITIALISING keeps it. -/
theorem State.keeps_event {t : State} (h : s.Keeps t) : s.Keeps (if s.initialising then s else t) := by
  split
  · exact .refl s
  · exact h

/-- An event that waits for its instant, and then acts where it is due. -/
theorem State.keeps_awaited (instant : Option Nat) {due : Prop} [Decidable due] {t : State} (h : (s.await instant).Keeps t) :
    s.Keeps (if due then t else s.await instant) := by
  split
  · exact (s.keeps_await instant).trans h
  · exact s.keeps_await instant

/-- An event that replaces one port where it is due. -/
theorem State.keeps_setPortIf {due : Prop} [Decidable due] {p : PortId} {x : Port} (h : due → (s.port p).Keeps x) :
    s.Keeps (if due then s.setPort p x else s) := by
  split
  · rename_i hdue
    exact s.keeps_setPort (h hdue)
  · exact .refl s

theorem State.keeps_setPending (l : List Instr) : s.Keeps { s with pending := l } := .of_capacities rfl

theorem State.keeps_setChoices (n : Nat) : s.Keeps { s with choices := n } := .of_capacities rfl

/-- Every command answers a next state and keeps the capacities and the settings. -/
theorem exec_keeps (i : Instr) : ∃ t, exec i s = .next t ∧ s.Keeps t := by
  cases i with
  | deviceReset cause straps => exact ⟨_, rfl, s.keeps_afterReset _ _ _ _⟩
  | endOfInitialising =>
    refine ⟨_, rfl, ?_⟩
    split
    · exact (s.keeps_await _).trans (State.keeps_endInitialising _)
    · exact .refl s
  | frameReceived p d part => exact ⟨_, rfl, s.keeps_event (s.keeps_receive p d part)⟩
  | lossOfSignalRaised p d =>
    refine ⟨_, rfl, s.keeps_event ?_⟩
    dsimp only
    split
    · exact .refl s
    · exact s.keeps_setCondition p d _ _
  | lossOfSignalCleared p d =>
    refine ⟨_, rfl, s.keeps_event ?_⟩
    dsimp only
    split
    · exact s.keeps_setCondition p d _ _
    · exact .refl s
  | lifeTimeout p d => exact ⟨_, rfl, s.keeps_event (s.keeps_awaited _ (State.keeps_raiseSilent _ p d))⟩
  | joiningQuietRunComplete p => exact ⟨_, rfl, s.keeps_event (s.keeps_completeQuiet p _)⟩
  | leavingQuietRunComplete p => exact ⟨_, rfl, s.keeps_event (s.keeps_completeQuiet p _)⟩
  | relayTransferEnd p => exact ⟨_, rfl, s.keeps_event (s.keeps_awaited _ (State.keeps_setPort _ (Port.keeps_endTransfer _ _)))⟩
  | insertionBegin p =>
    exact ⟨_, rfl, s.keeps_event (s.keeps_setPortIf fun hmay => ((Port.keeps_awaitIf _ _ _ _).trans
      (Port.keeps_beginInsertion _ _ (Port.held_of_mayInsert hmay))).trans (Port.keeps_requiet _ _))⟩
  | insertionEnd p marks =>
    exact ⟨_, rfl, s.keeps_event (s.keeps_setPortIf fun _ => ((Port.keeps_awaitIf _ _ _ _).trans
      (Port.keeps_endInsertion _)).trans (Port.keeps_requiet _ _))⟩
  | backlogDrained p =>
    exact ⟨_, rfl, s.keeps_event (s.keeps_setPortIf fun _ => (Port.keeps_awaitUp _ _ _).trans (Port.keeps_requiet _ _))⟩
  | referencePulse => exact ⟨_, rfl, s.keeps_event s.keeps_pulse⟩
  | missNote => exact ⟨_, rfl, s.keeps_event (s.keeps_awaited _ (State.keeps_missNote _))⟩
  | holdoverLimitReached => exact ⟨_, rfl, s.keeps_event (s.keeps_awaited _ (State.keeps_degrade _))⟩
  | slewSpent => exact ⟨_, rfl, s.keeps_event (s.keeps_await _)⟩
  | secondBoundary order => exact ⟨_, rfl, s.keeps_event (s.keeps_toBoundary order)⟩
  | deadlineExpiry i =>
    refine ⟨_, rfl, s.keeps_event (s.keeps_awaited _ ?_)⟩
    unfold State.expireRecord
    split
    · exact .refl _
    · exact State.keeps_applySupervised _ i _
  | impulseStart l => exact ⟨_, rfl, s.keeps_event (s.keeps_awaited _ (State.keeps_startLine _ l))⟩
  | probeStart l => exact ⟨_, rfl, s.keeps_event (s.keeps_awaited _ (State.keeps_setLine _ (Line.keeps_begin _ _ _)))⟩
  | impulseSample l sense => exact ⟨_, rfl, s.keeps_event (s.keeps_awaited _ (State.keeps_sampleLine _ l sense))⟩
  | impulseEnd l => exact ⟨_, rfl, s.keeps_event (s.keeps_awaited _ (State.keeps_finishLine _ l))⟩
  | unknownRequestCode code r =>
    refine ⟨_, rfl, ?_⟩
    split
    · exact .refl s
    · exact s.keeps_serve code r fun _ u => Served.keeps_refuse u _
  | resetTables r =>
    refine ⟨_, rfl, ?_⟩
    split
    · exact .refl s
    · split
      · exact (s.keeps_setChoices _).trans (State.keeps_takeReset _ r _)
      · exact s.keeps_serve 70 r fun _ u => Served.keeps_refuse u _
  | identify r => exact ⟨_, rfl, s.keeps_serve 1 r fun params u => u.keeps_reqIdentify params⟩
  | readStatus r => exact ⟨_, rfl, s.keeps_serve 2 r fun params u => u.keeps_reqReadStatus params⟩
  | setPort r => exact ⟨_, rfl, s.keeps_serve 10 r fun params u => u.keeps_reqSetPort params⟩
  | join r => exact ⟨_, rfl, s.keeps_serve 11 r fun params u => u.keeps_reqJoin params⟩
  | leave r => exact ⟨_, rfl, s.keeps_serve 12 r fun params u => u.keeps_reqLeave params⟩
  | readCounters r => exact ⟨_, rfl, s.keeps_serve 13 r fun params u => u.keeps_reqReadCounters params⟩
  | latchCounters r => exact ⟨_, rfl, s.keeps_serve 14 r fun params u => u.keeps_reqLatchCounters params⟩
  | loadWindow r => exact ⟨_, rfl, s.keeps_serve 20 r fun params u => u.keeps_reqLoadWindow params⟩
  | loadElement r => exact ⟨_, rfl, s.keeps_serve 21 r fun params u => u.keeps_reqLoadElement params⟩
  | removeElement r => exact ⟨_, rfl, s.keeps_serve 22 r fun params u => u.keeps_reqRemoveElement params⟩
  | readElement r => exact ⟨_, rfl, s.keeps_serve 23 r fun params u => u.keeps_reqReadElement params⟩
  | clearStatistics r => exact ⟨_, rfl, s.keeps_serve 24 r fun params u => u.keeps_reqClearStatistics params⟩
  | timeMark r => exact ⟨_, rfl, s.keeps_serve 30 r fun params u => u.keeps_reqTimeMark params⟩
  | setTimebase r => exact ⟨_, rfl, s.keeps_serve 31 r fun params u => u.keeps_reqSetTimebase params⟩
  | relock r => exact ⟨_, rfl, s.keeps_serve 32 r fun params u => u.keeps_reqRelock params⟩
  | setCivilOffset r => exact ⟨_, rfl, s.keeps_serve 33 r fun params u => u.keeps_reqSetCivilOffset params⟩
  | loadHeader r => exact ⟨_, rfl, s.keeps_serve 40 r fun params u => u.keeps_reqLoadHeader params⟩
  | loadEntry r => exact ⟨_, rfl, s.keeps_serve 41 r fun params u => u.keeps_reqLoadEntry params⟩
  | arm r => exact ⟨_, rfl, s.keeps_serve 42 r fun params u => u.keeps_bankRequest (u.keeps_armBank ·) params⟩
  | disarm r => exact ⟨_, rfl, s.keeps_serve 43 r fun params u => u.keeps_bankRequest (u.keeps_disarmBank ·) params⟩
  | abandon r => exact ⟨_, rfl, s.keeps_serve 44 r fun params u => u.keeps_bankRequest (u.keeps_abandonBank ·) params⟩
  | clearBank r => exact ⟨_, rfl, s.keeps_serve 45 r fun params u => u.keeps_bankRequest (u.keeps_clearBank ·) params⟩
  | cancelEntry r => exact ⟨_, rfl, s.keeps_serve 46 r fun params u => u.keeps_reqCancelEntry params⟩
  | readEntry r => exact ⟨_, rfl, s.keeps_serve 47 r fun params u => u.keeps_reqReadEntry params⟩
  | setLine r => exact ⟨_, rfl, s.keeps_serve 50 r fun params u => u.keeps_reqSetLine params⟩
  | setPosition r => exact ⟨_, rfl, s.keeps_serve 51 r fun params u => u.keeps_reqSetPosition params⟩
  | halt r => exact ⟨_, rfl, s.keeps_serve 52 r fun params u => u.keeps_lineRequest (fun x => x.keeps_halt) params⟩
  | run r => exact ⟨_, rfl, s.keeps_serve 53 r fun params u => u.keeps_lineRequest (fun x => x.keeps_run _) params⟩
  | setClass r => exact ⟨_, rfl, s.keeps_serve 60 r fun params u => u.keeps_reqSetClass params⟩
  | setAlert r => exact ⟨_, rfl, s.keeps_serve 61 r fun params u => u.keeps_reqSetAlert params⟩
  | readJournal r => exact ⟨_, rfl, s.keeps_serve 62 r fun params u => u.keeps_reqReadJournal params⟩
  | release r => exact ⟨_, rfl, s.keeps_serve 63 r fun params u => u.keeps_reqRelease params⟩

/-! ## A step -/

theorem State.keeps_queueEvent (i : Instr) : s.Keeps (s.queueEvent i) := by
  unfold State.queueEvent
  split
  · exact s.keeps_boundaryOrder.trans (.of_capacities rfl)
  · exact .of_capacities rfl

theorem State.keeps_choose (l : List Instr) : s.Keeps (s.choose l) := by
  unfold State.choose
  split
  · exact .refl s
  · exact s.keeps_queueEvent _
  · exact (s.keeps_setChoices _).trans (State.keeps_queueEvent _ _)

/-- A step of a part on which no command waits keeps it (log entry 2). -/
theorem State.keeps_idle : s.Keeps s.idle := by
  have htake : s.Keeps (if s.initialising then s else { s with service := s.service.take }) := by
    split
    · exact .refl s
    · exact s.keeps_take
  unfold State.idle
  dsimp only
  split
  · exact htake.trans (State.keeps_setTb _ _)
  · exact htake.trans (State.keeps_choose _ _)

theorem step_keeps {s t : State} (h : step s = .next t) : s.Keeps t := by
  unfold step at h
  split at h
  · cases h
    exact s.keeps_idle
  · rename_i c rest _
    obtain ⟨u, hu, hk⟩ := exec_keeps { s with pending := rest } c
    rw [hu] at h
    cases h
    exact (s.keeps_setPending rest).trans hk

/-- Settles O59: every operation of every command keeps the capacities and the settings, part by part. -/
theorem capacitiesAndSettingsAreKept : Obligations.CapacitiesAndSettingsAreKept :=
  ⟨fun _ _ hs h => (step_keeps h).queues hs, fun _ _ hs h => (step_keeps h).positions hs,
    fun _ _ hs h => (step_keeps h).accepts hs, fun _ _ hs h => (step_keeps h).backlog hs⟩

end Sys2Proof.Machine
end

