-- ==== Sys2Proof/Proofs/Reset.lean ====
section
/-! PROOFS. Sys2Proof/Proofs/Reset.lean: the device reset and the laws that the state after it meets, INITIALISING and its end, and what a
part does on which no command waits (O2 to O4, O60). -/

namespace Sys2Proof.Machine

/-! ## The state after a device reset -/

@[simp] theorem State.afterReset_window (pending : List Instr) (cause : ResetCause) (straps : Straps) (choices : Nat)
    (p : PortId) (w : LineId) : (State.afterReset pending cause straps choices).window p w = Window.closed := by
  simp [State.window, State.afterReset]

/-- Settles O4: each block is read in the state after the reset. -/
theorem deviceResetGivesResetValues : Obligations.DeviceResetGivesResetValues := by
  intro c t s
  refine ⟨_, rfl, rfl, rfl, rfl, rfl, rfl, rfl, fun p => ?_, rfl, rfl, fun p w => ?_, ?_⟩
  · rw [State.afterReset_port]
    exact ⟨rfl, rfl, rfl, rfl, rfl, rfl, rfl, rfl, rfl, rfl, rfl, rfl, rfl, rfl, rfl, rfl, rfl, rfl, rfl, rfl, rfl, rfl, rfl,
      rfl, rfl, rfl, rfl⟩
  · rw [State.afterReset_window]
    rfl
  · simp [State.afterReset_line]
    simp [State.afterReset, Timebase.afterReset, Timebase.holdoverAge, Bank.afterReset, Line.afterReset, Journal.afterReset]

/-- A closed window meets no other. -/
theorem Window.closed_not_open : ¬ Window.closed.base ≤ Window.closed.limit := by decide

/-- Settles O60: the blocks after a reset are empty, closed or at rest. -/
theorem resetMeetsTheLaws : Obligations.ResetMeetsTheLaws := by
  obtain ⟨hqueues, hpositions, haccepts, hbacklog⟩ := State.afterReset_lawful [] .powerUp ⟨false, false, true, 0⟩ 0
  have hbank (b : BankId) : State.reset.bank b = Bank.afterReset := State.afterReset_bank _ _ _ _ b
  have hwindow (p : PortId) (w : LineId) : State.reset.window p w = Window.closed := State.afterReset_window _ _ _ _ p w
  have hnaming (i : Nat) : Bank.afterReset.naming i = 0 := rfl
  refine ⟨⟨by decide, by decide, by decide, by decide⟩, ⟨by decide, fun l hl => absurd hl (by simp [State.reset, State.afterReset, Timebase.afterReset])⟩,
    fun k r hr => absurd hr (by simp [State.reset, State.afterReset, Journal.afterReset]), ⟨by decide, by decide, by decide, by decide⟩, by decide, ?_, ?_,
    hqueues, hpositions, haccepts, hbacklog, fun b hb => ?_, ⟨fun r => ?_, fun b _ _ => ?_⟩, ⟨fun p w h => ?_, fun p w h => ?_⟩,
    fun i e he => absurd he (by simp [State.element, State.reset, State.afterReset, lookup])⟩
  · exact ⟨fun h => absurd h.1 (by decide), fun h => absurd h.1 (by decide)⟩
  · have hlawful : Bank.afterReset.lawful :=
      ⟨by decide, fun _ => rfl, fun e he => absurd he (by simp [Bank.afterReset])⟩
    exact ⟨hlawful, hlawful, fun g hg => absurd hg (by simp [State.reset, State.afterReset]), fun i => rfl⟩
  · rw [hbank] at hb
    exact absurd hb (by decide)
  · rw [State.entry, hbank]
    rfl
  · rw [hbank]
    rfl
  · rw [hwindow] at h
    exact absurd h Window.closed_not_open
  · rw [hwindow] at h
    exact absurd h.1 Window.closed_not_open

/-! ## INITIALISING (R7, R166) -/

/-- Every command but a device reset and the end of INITIALISING is an event or a request, which INITIALISING does not take. -/
theorem exec_initialising (i : Instr) (s : State) (h : s.initialising = true) (hend : i ≠ .endOfInitialising)
    (hreset : ∀ c t, i ≠ .deviceReset c t) : exec i s = .next s := by
  have hserve (code : Byte) (r : Request) (f : List Byte → State → Served) : Host.Outcome.next (s.serve code r f) =
      (.next s : Outcome) := by rw [State.serve_initialising s code r f h]
  have hevent (t : State) : Host.Outcome.next (if s.initialising then s else t) = (.next s : Outcome) := by rw [if_pos h]
  cases i with
  | deviceReset c t => exact absurd rfl (hreset c t)
  | endOfInitialising => exact absurd rfl hend
  | unknownRequestCode code r =>
    show Host.Outcome.next (if knownRequestCodes.contains code then s else s.serve code r fun _ s => refuse s .unknown) = _
    rw [State.serve_initialising s code r _ h, ite_self]
  | resetTables _ | frameReceived _ _ _ | lossOfSignalRaised _ _ | lossOfSignalCleared _ _ | lifeTimeout _ _ | joiningQuietRunComplete _
  | leavingQuietRunComplete _ | relayTransferEnd _ | insertionBegin _ | insertionEnd _ _ | backlogDrained _ | referencePulse
  | missNote | holdoverLimitReached | slewSpent | secondBoundary _ | deadlineExpiry _ | impulseStart _ | probeStart _
  | impulseSample _ _ | impulseEnd _ => exact hevent _
  | _ => exact hserve _ _ _

/-- A port at the end of INITIALISING with JOINEN low. -/
theorem Port.endInitialising_bypass (x : Port) (now : Nat) :
    x.endInitialising now false = { x with
      state := .bypass
      downRx := { x.downRx with lifeSince := some now }
      upRx := { x.upRx with lifeSince := some now } } := rfl

/-- A port at the end of INITIALISING with JOINEN high. -/
theorem Port.endInitialising_joining (x : Port) (now : Nat) :
    x.endInitialising now true = { x with
      state := .joining
      downRx := { x.downRx with lifeSince := some now }
      upRx := { x.upRx with lifeSince := some now }
      joinSince := some now
      joinCredited := 0
      quietSince := if x.transferEnd = none ∧ x.downRx.idle = true ∧ x.upRx.idle = true then some now else none } := by
  have hidle : Port.quietHolds { x with
      state := .joining
      downRx := { x.downRx with lifeSince := some now }
      upRx := { x.upRx with lifeSince := some now }
      joinSince := some now
      joinCredited := 0
      quietSince := none } = (x.transferEnd.isNone && (x.downRx.idle && x.upRx.idle)) := rfl
  simp [Port.endInitialising, Port.enterJoining, Port.requiet, hidle]

/-- Settles O3: each command is refused its effect by the event or the request that it is; the end acts on the ports and the journal. -/
theorem initialisingTakesNothingUntilItsEnd : Obligations.InitialisingTakesNothingUntilItsEnd := by
  refine ⟨fun i s h hend hreset => exec_initialising i s h hend hreset, fun s t hinit ht hj => ?_⟩
  have hnow : exec .endOfInitialising s = .next s.endInitialising := by
    have hs : s.initialising = true := by simp [State.initialising, hinit]
    show Host.Outcome.next (if s.initialising then (s.await s.initEnd).endInitialising else s) = _
    rw [if_pos hs, hinit, State.await_reached s t ht]
  have hport (p : PortId) : s.endInitialising.port p = (s.port p).endInitialising s.tb.instant s.straps.joinen := by
    simp [State.endInitialising, State.recordingStart, State.port, State.offer, State.setJournal]
  have hjournal : s.endInitialising.journal = s.journal.offer s.tb.now
      ⟨7, s.tb.now, false, false, .recordingStart (ResetCause.startCause s.resetCause)⟩ := rfl
  refine ⟨_, hnow, rfl, fun p => ⟨fun hlow => ?_, fun hhigh => ?_⟩, ?_, rfl⟩
  · rw [hport, hlow, Port.endInitialising_bypass]
  · rw [hport, hhigh, Port.endInitialising_joining]
  · rw [hjournal, hj]
    rfl

/-! ## A part on which no command waits (log entry 2) -/

/-- A unit that holds a request, or whose queue is empty, takes nothing (R171). -/
theorem Service.take_busy (v : Service) (h : v.inHand ≠ none ∨ v.queue = []) : v.take = v := by
  rcases v.take_cases with h' | ⟨q, rest, hnone, hq, -⟩
  · exact h'
  · rcases h with h | h
    · exact absurd hnone h
    · rw [h] at hq
      cases hq

/-- A step with no command waiting, outside INITIALISING, is that of the part whose unit has taken its next request. -/
theorem step_idle (s : State) (hp : s.pending = []) : step s = .next s.idle := by
  simp [step, hp]

theorem State.idle_eq (s : State) (h : s.initialising = false) :
    s.idle = (match ({ s with service := s.service.take } : State).due with
      | [] => ({ s with service := s.service.take } : State).setTb s.tb.cycle
      | events => ({ s with service := s.service.take } : State).choose events) := by
  simp only [State.idle, h]
  rfl

/-- In INITIALISING no request is taken (R7). -/
theorem State.idle_initialising (s : State) (h : s.initialising = true) :
    s.idle = (match s.due with
      | [] => s.setTb s.tb.cycle
      | events => s.choose events) := by
  unfold State.idle
  rw [if_pos h] <;> rfl

/-- The same where the unit takes nothing. -/
theorem State.idle_busy (s : State) (h : s.initialising = false) (hv : s.service.inHand ≠ none ∨ s.service.queue = []) :
    s.idle = (match s.due with
      | [] => s.setTb s.tb.cycle
      | events => s.choose events) := by
  rw [State.idle_eq s h, Service.take_busy _ hv]

/-- No event is queued under another command than its own, but the boundary, whose operand is a free choice. -/
theorem State.queueEvent_other (s : State) (i : Instr) (h : ∀ o, i ≠ .secondBoundary o) :
    s.queueEvent i = { s with pending := [i] } := by
  cases i with
  | secondBoundary o => exact absurd rfl (h o)
  | _ => rfl

theorem decodeRequest_ne_boundary (code : Byte) (r : Request) (o : BoundaryOrder) : decodeRequest code r ≠ .secondBoundary o := by
  unfold decodeRequest
  split <;> exact Instr.noConfusion

theorem State.initEnd_none (s : State) (h : s.initialising = false) : s.initEnd = none := by
  simpa [State.initialising] using h

/-- The command of the request in hand is due (R171). -/
theorem State.due_inHand (s : State) (h : s.initialising = false) (q : Queued) (hq : s.service.inHand = some q) :
    decodeRequest q.code q.request ∈ s.due := by
  simp [State.due, State.initEnd_none s h, State.dueEvents, State.serviceDue, hq]

/-- Of several events that are due one is queued (log entry 6). -/
theorem State.choose_several (s : State) (i j : Instr) (rest : List Instr) :
    ∃ k ∈ i :: j :: rest, s.choose (i :: j :: rest) = State.queueEvent { s with choices := s.choices + 1 } k := by
  have hlt : Config.pick s.choices % ((j :: rest).length + 1) < (i :: j :: rest).length := Nat.mod_lt _ (Nat.succ_pos _)
  refine ⟨_, ?_, rfl⟩
  rw [List.getD_eq_getElem _ _ hlt]
  exact List.getElem_mem hlt

/-- The part outside INITIALISING when exactly one command is due that needs no free choice. -/
theorem State.idle_one (s : State) (h : s.initialising = false) (hv : s.service.inHand ≠ none ∨ s.service.queue = []) (i : Instr)
    (hdue : s.due = [i]) (hi : ∀ o, i ≠ .secondBoundary o) : s.idle = { s with pending := [i] } := by
  rw [State.idle_busy s h hv, hdue]
  exact State.queueEvent_other s i hi

/-- Settles O2: by the number of events that are due, after the idle unit has taken its request. -/
theorem idlePartKeepsTime : Obligations.IdlePartKeepsTime := by
  refine ⟨fun s hp hs => ⟨fun hv => ⟨fun hdue => ?_, fun i hdue hi => ?_, fun o hdue => ⟨fun hnone => ?_, fun c hc => ?_⟩,
    fun i j rest hdue => ?_⟩, fun q hq => ⟨s.due_inHand hs q hq, fun hdue => ?_⟩, fun q rest g hg => ?_⟩, fun s t hp ht => ?_⟩
  · rw [step_idle s hp, State.idle_busy s hs hv, hdue]
  · rw [step_idle s hp, State.idle_one s hs hv i hdue hi]
  · rw [step_idle s hp, State.idle_busy s hs hv, hdue]
    simp [State.choose, State.queueEvent, State.boundaryOrder, hnone]
  · rw [step_idle s hp, State.idle_busy s hs hv, hdue]
    simp [State.choose, State.queueEvent, State.boundaryOrder, hc]
  · obtain ⟨k, hk, hchoose⟩ := s.choose_several i j rest
    rw [step_idle s hp, State.idle_busy s hs hv, hdue]
    exact ⟨k, hk, congrArg Host.Outcome.next hchoose⟩
  · have hhand : s.service.inHand ≠ none := by simp [hq]
    rw [step_idle s hp, State.idle_one s hs (.inl hhand) _ hdue (decodeRequest_ne_boundary q.code q.request)]
  · have htake : s.service.take = ⟨rest, some q, g⟩ := by rw [hg]; rfl
    have hhand : ({ s with service := ⟨rest, some q, g⟩ } : State).service.inHand ≠ none := by simp
    have hstep : step s = step { s with service := ⟨rest, some q, g⟩ } := by
      rw [step_idle s hp, step_idle { s with service := ⟨rest, some q, g⟩ } hp, State.idle_eq s hs,
        State.idle_busy { s with service := ⟨rest, some q, g⟩ } hs (.inl hhand), htake]
    refine ⟨hstep, fun hdue => ?_⟩
    rw [hstep, step_idle { s with service := ⟨rest, some q, g⟩ } hp,
      State.idle_one { s with service := ⟨rest, some q, g⟩ } hs (.inl hhand) _ hdue (decodeRequest_ne_boundary q.code q.request)]
  · have hs : s.initialising = true := by simp [State.initialising, ht]
    have hdue : s.due = dueIf (decide (t ≤ s.tb.instant)) .endOfInitialising := by simp only [State.due, ht]
    refine ⟨fun hlt => ?_, fun hle => ?_⟩
    · rw [step_idle s hp, State.idle_initialising s hs, hdue, decide_eq_false (Nat.not_le.2 hlt)]
      rfl
    · rw [step_idle s hp, State.idle_initialising s hs, hdue, decide_eq_true hle]
      rfl

end Sys2Proof.Machine
end

