-- ==== Sys2Proof/Proofs/Requests.lean ====
section
/-! PROOFS. Sys2Proof/Proofs/Requests.lean: responses (O6), the reading requests (O7), LOSS OF SIGNAL (O13), JOIN and LEAVE (O19), and the
latch of the counters (O20). -/

namespace Sys2Proof.Machine

variable (s : State)

/-! ## Responses (R15, R171) -/

theorem Port.queueResponse_joins (x : Port) (r : Response) (hf : x.forwards = true) (hroom : x.responses.length < 4) :
    x.queueResponse r = { x with responses := x.responses ++ [r] } := by
  simp [Port.queueResponse, hf, hroom]

theorem Port.queueResponse_discarded (x : Port) (r : Response) (h : x.forwards = false ∨ 4 ≤ x.responses.length) :
    x.queueResponse r = x.countPort fun c => { c with respDiscarded := raise32 c.respDiscarded } := by
  rcases h with h | h <;> simp [Port.queueResponse, h]

/-- An idle unit takes the head of its queue (R171). -/
theorem Service.take_idle (q : Queued) (rest : List Queued) (g : Option Resetting) :
    Service.take ⟨q :: rest, none, g⟩ = ⟨rest, some q, g⟩ := rfl

/-- Settles O6: the response queue of the port decides, and the rest of the state is the frame of `respond`. -/
theorem responseJoinsOrIsDiscarded : Obligations.ResponseJoinsOrIsDiscarded := by
  intro s code r a
  refine ⟨fun hf hroom => ?_, fun h => ?_, fun q hq => s.respond_port_other code r a q hq, fun q rest g hv => ?_, fun h => ?_, rfl⟩
  · rw [State.respond_port_same, Port.queueResponse_joins _ _ hf hroom]
    exact ⟨rfl, rfl⟩
  · rw [State.respond_port_same, Port.queueResponse_discarded _ _ h]
    exact ⟨rfl, rfl⟩
  · rw [State.respond_service, hv, Service.take_idle]
  · rw [State.respond_service, Service.take_busy _ h.symm]

/-! ## Numbers that requests carry -/

@[simp] theorem portOf_ofNat (p : PortId) : portOf (BitVec.ofNat 8 p.val) = some p := by
  fin_cases p <;> rfl

@[simp] theorem lineOf_ofNat (l : LineId) : lineOf (BitVec.ofNat 8 l.val) = some l := by
  fin_cases l <;> rfl

@[simp] theorem BankId.ofCode_code (b : BankId) : BankId.ofCode b.code.toNat = some b := by
  cases b <;> rfl

theorem portOf_out_of_range (b : Byte) (h : 7 < b.toNat) : portOf b = none := by
  simp [portOf]
  omega

/-! ## Requests that are carried out at once -/

@[simp] theorem State.taking_entry (code : Byte) (r : Request) (e : EntryRef) : (s.taking code r).entry e = s.entry e := rfl

@[simp] theorem State.taking_otherInlineAccepts (code : Byte) (r : Request) (p : PortId) :
    (s.taking code r).otherInlineAccepts p = s.otherInlineAccepts p := rfl

/-- A request whose meaning answers this state with this reply (R171 to R173). -/
theorem State.serve_of_meaning (s : State) (h : s.ready) (code : Byte) (r : Request) {f : List Byte → State → Served} {t : State}
    {a : Reply} (hf : f r.params (s.taking code r) = ⟨t, a⟩) : s.serve code r f = t.respond code r a := by
  rw [State.serve_eq s code r f h.1 h.2, hf]

/-- Settles O7: the function of each reading request answers the state that it has been given. -/
theorem readingChangesNothing : Obligations.ReadingChangesNothing := by
  intro s r hs
  have hnext {code : Byte} {f : List Byte → State → Served} {t : State} {a : Reply}
      (hf : f r.params (s.taking code r) = ⟨t, a⟩) :
      (Host.Outcome.next (s.serve code r f) : Outcome) = .next (t.respond code r a) :=
    congrArg Host.Outcome.next (s.serve_of_meaning hs code r hf)
  refine ⟨fun hp => hnext (by rw [hp]; rfl), fun hp => hnext (by rw [hp]; rfl), fun p hp => hnext ?_,
    fun hp => hnext (by rw [hp]; rfl), fun hp => hnext (by rw [hp]; rfl), fun hp => hnext (by rw [hp]; rfl), fun l hp => hnext ?_,
    fun hp => hnext (by rw [hp]; rfl), fun hp => hnext (by rw [hp]; rfl),
    fun p => ⟨fun hp => hnext ?_, fun hp => hnext ?_, fun hp => hnext ?_⟩, fun i1 i0 hp hi => hnext ?_,
    fun b i1 i0 hp => ⟨fun e he => hnext ?_, fun he => hnext ?_⟩, fun n3 n2 n1 n0 hp => hnext (by rw [hp]; rfl)⟩
  · rw [hp]
    simp [reqReadStatus, answer]
  · rw [hp]
    simp [reqReadStatus, answer]
  · rw [hp]
    simp [reqReadCounters, State.counterGroup, answer]
  · rw [hp]
    simp [reqReadCounters, State.counterGroup, answer]
  · rw [hp]
    simp [reqReadCounters, State.counterGroup, answer]
  · rw [hp]
    simp [reqReadElement, answer, Nat.not_lt.2 hi]
  · rw [hp]
    have hentry : s.entry ⟨b, ofBe [i1, i0]⟩ = some e := he
    simp [reqReadEntry, answer, hentry]
  · rw [hp]
    have hentry : s.entry ⟨b, ofBe [i1, i0]⟩ = none := he
    simp [reqReadEntry, answer, hentry]

/-! ## Link conditions (section 1.6) -/

/-- A condition that is raised or cleared changes its receiver, and writes its record (section 1.6). -/
theorem State.setCondition_eq (p : PortId) (d : Direction) (c : LinkCondition) (raised : Bool) :
    s.setCondition p d c raised =
      (s.setPort p ((s.port p).setRx d (((s.port p).rx d).setCondition c raised))).withRecord (s.levelOf .link)
        (.linkCondition p d c raised) := rfl

theorem exec_lossOfSignalRaised (p : PortId) (d : Direction) : exec (.lossOfSignalRaised p d) s =
    s.event fun s => if ((s.port p).rx d).los then s else s.setCondition p d .lossOfSignal true := rfl

theorem exec_lossOfSignalCleared (p : PortId) (d : Direction) : exec (.lossOfSignalCleared p d) s =
    s.event fun s => if ((s.port p).rx d).los then s.setCondition p d .lossOfSignal false else s := rfl

/-- Settles O13: either edge sets the condition of its receiver, with its record. -/
theorem lossOfSignalIsRecorded : Obligations.LossOfSignalIsRecorded := by
  intro s p hs
  have hraised (d : Direction) (h : ((s.port p).rx d).los = false) :
      exec (.lossOfSignalRaised p d) s = .next (s.setCondition p d .lossOfSignal true) := by
    simp [exec_lossOfSignalRaised, State.event_eq s _ hs, h]
  have hcleared (d : Direction) (h : ((s.port p).rx d).los = true) :
      exec (.lossOfSignalCleared p d) s = .next (s.setCondition p d .lossOfSignal false) := by
    simp [exec_lossOfSignalCleared, State.event_eq s _ hs, h]
  exact ⟨hraised .down, hcleared .down, hraised .up, hcleared .up⟩

/-! ## JOIN and LEAVE (R9) -/

theorem State.otherInlineAccepts_iff (p : PortId) :
    s.otherInlineAccepts p = true ↔ ∃ q, q ≠ p ∧ (s.port q).state = .inline ∧ (s.port q).accept = true := by
  have hall (q : PortId) : q ∈ portIds := by fin_cases q <;> decide
  simp [State.otherInlineAccepts, hall, and_assoc, and_comm]

theorem reqJoin_port (p : PortId) : reqJoin [BitVec.ofNat 8 p.val] s = s.joinPort p := by
  simp [reqJoin]

theorem reqLeave_port (p : PortId) : reqLeave [BitVec.ofNat 8 p.val] s = s.leavePort p := by
  simp [reqLeave]

/-- Settles O19: row by row of the table of R9. -/
theorem joinAndLeaveTable : Obligations.JoinAndLeaveTable := by
  refine ⟨fun s b r hs hp hb => ?_, fun s p r hs hp => ?_⟩
  · have hport := portOf_out_of_range b hb
    refine ⟨congrArg Host.Outcome.next (s.serve_of_meaning hs 11 r ?_), congrArg Host.Outcome.next (s.serve_of_meaning hs 12 r ?_)⟩
    · simp [hp, reqJoin, hport, refuse]
    · simp [hp, reqLeave, hport, refuse]
  · have hjoin {t : State} {a : Reply} (h : (s.taking 11 r).joinPort p = ⟨t, a⟩) : exec (.join r) s = .next (t.respond 11 r a) :=
      congrArg Host.Outcome.next (s.serve_of_meaning hs 11 r (by rw [hp, reqJoin_port, h]))
    have hleave {t : State} {a : Reply} (h : (s.taking 12 r).leavePort p = ⟨t, a⟩) : exec (.leave r) s = .next (t.respond 12 r a) :=
      congrArg Host.Outcome.next (s.serve_of_meaning hs 12 r (by rw [hp, reqLeave_port, h]))
    have hleaving (x : Port) (now : Nat) : (x.enterLeaving now).state = .leaving := rfl
    have hjoining (x : Port) (now : Nat) : (x.enterJoining now).state = .joining := rfl
    refine ⟨fun h => hjoin ?_, fun h => hjoin ?_, fun h => hjoin ?_, fun h hlast => hleave ?_, fun h => hleave ?_,
      fun h => hleave ?_, fun h hacc hlast => hleave ?_⟩
    · simp [State.joinPort, h, State.answerPort, answer, hjoining, PortState.code]
    · simp [State.joinPort, h, State.answerPort, answer, PortState.code]
    · rcases h with h | h <;> simp [State.joinPort, h, refuse]
    · have hfree : ((s.port p).accept && !s.otherInlineAccepts p) = false := by
        rcases hlast with hacc | hex
        · simp [hacc]
        · simp [(s.otherInlineAccepts_iff p).2 hex]
      simp [State.leavePort, h, hfree, State.answerPort, answer, hleaving, PortState.code]
    · simp [State.leavePort, h, State.answerPort, answer, PortState.code]
    · rcases h with h | h <;> simp [State.leavePort, h, refuse]
    · have hnone : s.otherInlineAccepts p = false := by
        rw [Bool.eq_false_iff, Ne, State.otherInlineAccepts_iff]
        rintro ⟨q, hq, hinline, hq'⟩
        rw [hlast q hq hinline] at hq'
        cases hq'
      simp [State.leavePort, h, hacc, hnone, refuse]

/-! ## The latch of the counters (R10, R24) -/

theorem Port.creditJoining_none (x : Port) (now : Nat) (h : x.joinSince = none) : x.creditJoining now = x := by
  simp [Port.creditJoining, h]

theorem saturate_eq (max v n : Nat) : saturate max v n = min max (v + n) := by
  unfold saturate
  split <;> omega

/-- The JOINING milliseconds brought up to an instant (R10). -/
theorem Port.creditJoining_some (x : Port) (now t : Nat) (h : x.joinSince = some t) :
    x.creditJoining now = { x with
      joinCredited := (now - t) / ms 1
      live := { x.live with port := { x.live.port with
        joiningMs := min 4294967295 (x.live.port.joiningMs + ((now - t) / ms 1 - x.joinCredited)) } } } := by
  simp [Port.creditJoining, h, Port.countPort, saturate_eq]

theorem State.latch_port (p : PortId) : s.latch.port p = (s.port p).latch s.tb.instant := by
  simp [State.latch, State.port]

/-- Settles O20: port by port, with and without JOINING milliseconds to bring up. -/
theorem latchMovesTheCounters : Obligations.LatchMovesTheCounters := by
  intro s r hs hp
  refine ⟨fun hm => congrArg Host.Outcome.next (s.serve_of_meaning hs 14 r ?_),
    fun hm => congrArg Host.Outcome.next (s.serve_of_meaning hs 14 r ?_), fun p => ?_, rfl⟩
  · rw [hp]
    show (if s.latchInterval = .manual then answer (s.taking 14 r).latch _ else _) = _
    rw [if_pos hm]
    rfl
  · rw [hp]
    show (if s.latchInterval = .manual then _ else refuse (s.taking 14 r) .state) = _
    rw [if_neg hm]
    rfl
  · rw [State.latch_port]
    unfold Port.latch
    cases hj : (s.port p).joinSince with
    | none =>
      rw [Port.creditJoining_none _ _ hj]
      exact ⟨rfl, rfl, rfl, fun _ => rfl, fun t n ht _ => by cases ht⟩
    | some t =>
      rw [Port.creditJoining_some _ _ t hj]
      refine ⟨rfl, rfl, rfl, (fun h => nomatch h), fun t' n ht hn => ?_⟩
      cases ht
      rw [hn]

end Sys2Proof.Machine
end

