-- ==== Sys2Proof/Proofs/Reception.lean ====
section
/-! PROOFS. Sys2Proof/Proofs/Reception.lean: one rule for each operation of the reception of a frame: what it makes of its port, the relay's
own fields apart from the rest (R5, R10 to R14, R17). -/

namespace Sys2Proof.Machine

variable (x y z : Port)

/-! ## Receivers of a port -/

@[simp] theorem Port.rx_setRx_same (d : Direction) (r : Receiver) : (x.setRx d r).rx d = r := by cases d <;> rfl

theorem Port.rx_setRx_other (d e : Direction) (r : Receiver) (h : e ≠ d) : (x.setRx d r).rx e = x.rx e := by
  cases d <;> cases e <;> first | rfl | exact absurd rfl h

@[simp] theorem Port.setRx_setRx (d : Direction) (r q : Receiver) : (x.setRx d r).setRx d q = x.setRx d q := by cases d <;> rfl

@[simp] theorem Port.setRx_rx (d : Direction) : x.setRx d (x.rx d) = x := by cases d <;> rfl

@[simp] theorem Port.setRx_live (d : Direction) (r : Receiver) : (x.setRx d r).live = x.live := by cases d <;> rfl
@[simp] theorem Port.setRx_state (d : Direction) (r : Receiver) : (x.setRx d r).state = x.state := by cases d <;> rfl
@[simp] theorem Port.setRx_transferEnd (d : Direction) (r : Receiver) : (x.setRx d r).transferEnd = x.transferEnd := by
  cases d <;> rfl
@[simp] theorem Port.setRx_errorThreshold (d : Direction) (r : Receiver) : (x.setRx d r).errorThreshold = x.errorThreshold := by
  cases d <;> rfl
@[simp] theorem Port.setRx_quietSince (d : Direction) (r : Receiver) : (x.setRx d r).quietSince = x.quietSince := by
  cases d <;> rfl
@[simp] theorem Port.setRx_forwards (d : Direction) (r : Receiver) : (x.setRx d r).forwards = x.forwards := by cases d <;> rfl
@[simp] theorem Port.setRx_accept (d : Direction) (r : Receiver) : (x.setRx d r).accept = x.accept := by cases d <;> rfl

@[simp] theorem Port.countDir_rx (d e : Direction) (f : DirCounters → DirCounters) : (x.countDir d f).rx e = x.rx e := by
  cases e <;> rfl

@[simp] theorem Port.countPort_rx (e : Direction) (f : PortCounters → PortCounters) : (x.countPort f).rx e = x.rx e := by
  cases e <;> rfl

@[simp] theorem Counters.dir_setDir_same (c : Counters) (d : Direction) (v : DirCounters) : (c.setDir d v).dir d = v := by
  cases d <;> rfl

@[simp] theorem Counters.setDir_port (c : Counters) (d : Direction) (v : DirCounters) : (c.setDir d v).port = c.port := by
  cases d <;> rfl

@[simp] theorem Port.countDir_live_dir (d : Direction) (f : DirCounters → DirCounters) :
    (x.countDir d f).live.dir d = f (x.live.dir d) := Counters.dir_setDir_same _ d _

@[simp] theorem Port.countDir_live_port (d : Direction) (f : DirCounters → DirCounters) :
    (x.countDir d f).live.port = x.live.port := Counters.setDir_port _ d _

@[simp] theorem Port.countPort_live_dir (d : Direction) (f : PortCounters → PortCounters) :
    (x.countPort f).live.dir d = x.live.dir d := by cases d <;> rfl

/-! ## The relay's own fields -/

/-- The port with the relay's own fields of another. -/
def Port.withRelay (x y : Port) : Port :=
  { x with
    sending := y.sending, held := y.held, downDelay := y.downDelay, upDelay := y.upDelay, upFlags := y.upFlags,
    markRun := y.markRun, skipping := y.skipping, toField := y.toField, toCentre := y.toCentre }

theorem Port.RelayOnly.eq_withRelay {x y : Port} (h : x.RelayOnly y) : y = x.withRelay y := h.eq

@[simp] theorem Port.withRelay_self : x.withRelay x = x := rfl
@[simp] theorem Port.withRelay_withRelay : (x.withRelay y).withRelay z = x.withRelay z := rfl
@[simp] theorem Port.withRelay_of_withRelay : x.withRelay (y.withRelay z) = x.withRelay z := rfl

@[simp] theorem Port.withRelay_rx (d : Direction) : (x.withRelay y).rx d = x.rx d := by cases d <;> rfl

theorem Port.withRelay_setRx (d : Direction) (r : Receiver) : (x.withRelay y).setRx d r = (x.setRx d r).withRelay y := by
  cases d <;> rfl

@[simp] theorem Port.setRx_withRelay (d : Direction) (r : Receiver) : x.withRelay (y.setRx d r) = x.withRelay y := by
  cases d <;> rfl

theorem Port.withRelay_downBit (b : LineBit) : (x.withRelay y).downBit b = x.withRelay (y.downBit b) := by
  rcases h : y.downDelay with _ | ⟨out, rest⟩ <;> simp [Port.downBit, Port.withRelay, h]

theorem Port.withRelay_relayUp (b : LineBit) : (x.withRelay y).relayUp b = x.withRelay (y.relayUp b) := by
  have hsending : (x.withRelay y).sending = y.sending := rfl
  have hheld : (x.withRelay y).held = y.held := rfl
  unfold Port.relayUp
  rw [hsending, hheld]
  split <;> rfl

theorem Port.withRelay_upBit (b : LineBit) : (x.withRelay y).upBit b = x.withRelay (y.upBit b) := by
  have hdelay : (x.withRelay y).upDelay = y.upDelay := rfl
  unfold Port.upBit
  rw [hdelay]
  split
  · exact x.withRelay_relayUp y b
  · exact x.withRelay_relayUp { y with upDelay := _ } _

theorem Port.withRelay_foldl {f : Port → LineBit → Port} (h : ∀ (y : Port) b, f (x.withRelay y) b = x.withRelay (f y b))
    (bits : List LineBit) : bits.foldl f (x.withRelay y) = x.withRelay (bits.foldl f y) := by
  induction bits generalizing y with
  | nil => rfl
  | cons b bits ih => rw [List.foldl_cons, h, ih, List.foldl_cons]

/-- Arriving bits look at nothing of a port but its relay and whether it forwards or joins (R8, R13). -/
theorem Port.withRelay_arrive (d : Direction) (bits : List LineBit) (hs : x.state = y.state) (ht : x.transferEnd = y.transferEnd) :
    (x.withRelay y).arrive d bits = x.withRelay (y.arrive d bits) := by
  have hf : (x.withRelay y).forwards = y.forwards := by simp [Port.forwards, Port.withRelay, hs, ht]
  have hj : (x.withRelay y).state = y.state := hs
  unfold Port.arrive
  rw [hf, hj]
  split
  · cases d
    · exact Port.withRelay_foldl x y x.withRelay_downBit bits
    · exact Port.withRelay_foldl x y x.withRelay_upBit bits
  · split
    · cases d <;> rfl
    · rfl

theorem Port.withRelay_turn (d : Direction) (f : LineBit → LineBit) (n : Nat) :
    (x.withRelay y).turn d f n = x.withRelay (y.turn d f n) := by cases d <;> rfl

theorem Port.turn_only (d : Direction) (f : LineBit → LineBit) (n : Nat) : x.RelayOnly (x.turn d f n) := by
  cases d <;> exact ⟨rfl⟩

theorem Port.arriveOf_only (d : Direction) (o : Opening) (bits : List LineBit) : x.RelayOnly (x.arriveOf d o bits) :=
  x.arrive_only d _

theorem Port.RelayOnly.state {x y : Port} (h : x.RelayOnly y) : y.state = x.state := by rw [h.eq]
theorem Port.RelayOnly.transferEnd {x y : Port} (h : x.RelayOnly y) : y.transferEnd = x.transferEnd := by rw [h.eq]
theorem Port.RelayOnly.live {x y : Port} (h : x.RelayOnly y) : y.live = x.live := by rw [h.eq]
theorem Port.RelayOnly.rx {x y : Port} (h : x.RelayOnly y) (d : Direction) : y.rx d = x.rx d := by
  rw [h.eq]
  cases d <;> rfl
theorem Port.RelayOnly.forwards {x y : Port} (h : x.RelayOnly y) : y.forwards = x.forwards := by
  simp [Port.forwards, h.state, h.transferEnd]

/-! ## The frame in reception -/

/-- A collision is counted at the first content of a frame that opened in a transfer (R12). -/
def Port.collide (x : Port) (o : Opening) : Port :=
  { x with live := { x.live with port := { x.live.port with
      collisions := if o.collided = true ∧ o.content = [] then raise32 x.live.port.collisions else x.live.port.collisions } } }

theorem Port.beginFrame_eq (o : Opening) : x.beginFrame o = { x.collide o with quietSince := none } := by
  unfold Port.beginFrame Port.collide
  split <;> rfl

theorem Port.collide_of_not (o : Opening) (h : o.collided = false ∨ o.content ≠ []) : x.collide o = x := by
  have hno : ¬ (o.collided = true ∧ o.content = []) := by
    rintro ⟨hc, he⟩
    rcases h with h | h
    · rw [hc] at h
      cases h
    · exact h he
  simp [Port.collide, hno]

@[simp] theorem Port.collide_rx (o : Opening) (d : Direction) : (x.collide o).rx d = x.rx d := by cases d <;> rfl
@[simp] theorem Port.collide_live_dir (o : Opening) (d : Direction) : (x.collide o).live.dir d = x.live.dir d := by
  cases d <;> rfl

/-- What arrives of a frame with its next content: a removal that this content decides takes the bits still in the delay (R14). -/
def Port.receiveContent (x : Port) (d : Direction) (o o' : Opening) (bits : List Bool) : Port :=
  (if o'.removed && !o.removed then x.blank d o.bitsSoFar else x).arriveOf d o' (contentBits o.content bits)

theorem Port.receiveContent_only (d : Direction) (o o' : Opening) (bits : List Bool) :
    x.RelayOnly (x.receiveContent d o o' bits) := by
  unfold Port.receiveContent
  refine Port.RelayOnly.trans ?_ (Port.arriveOf_only _ d o' _)
  split
  · exact x.turn_only d _ _
  · exact .refl x

theorem Port.withRelay_receiveContent (d : Direction) (o o' : Opening) (bits : List Bool) (hs : x.state = y.state)
    (ht : x.transferEnd = y.transferEnd) :
    (x.withRelay y).receiveContent d o o' bits = x.withRelay (y.receiveContent d o o' bits) := by
  unfold Port.receiveContent
  split
  · rw [Port.blank, Port.withRelay_turn]
    exact x.withRelay_arrive _ d _ (hs.trans (y.turn_only d _ _).state.symm) (ht.trans (y.turn_only d _ _).transferEnd.symm)
  · exact x.withRelay_arrive y d _ hs ht

variable (s : State)

/-- The beginning of a frame changes nothing that a removal is decided on. -/
theorem State.extend_beginFrame (p : PortId) (d : Direction) (o o' : Opening) (bits : List Bool) :
    (s.beginFrame p o').extend p d o bits = s.extend p d o bits := by
  have hforwards : ((s.port p).beginFrame o').forwards = (s.port p).forwards := by rw [Port.beginFrame_eq]; rfl
  have haccept : ((s.port p).beginFrame o').accept = (s.port p).accept := by rw [Port.beginFrame_eq]; rfl
  cases d <;>
    simp [State.extend, State.removalOf, State.decideRemoval, State.beginFrame, hforwards, haccept]

/-- A port that has taken more content of a frame (R12 to R14). -/
theorem State.beginFrame_frameContent (p : PortId) (d : Direction) (o : Opening) (bits : List Bool) :
    (s.beginFrame p o).frameContent p d o bits = s.setPort p
      ((({ (s.port p).collide o with quietSince := none } : Port).setRx d
        { (s.port p).rx d with opening := some (s.extend p d o bits) }).withRelay
          ((s.port p).receiveContent d o (s.extend p d o bits) bits)) := by
  have hport : (s.beginFrame p o).port p = { (s.port p).collide o with quietSince := none } := by
    rw [State.beginFrame, State.port_setPort_same, Port.beginFrame_eq]
  have hcontent := Port.withRelay_receiveContent { (s.port p).collide o with quietSince := none } (s.port p) d o
    (s.extend p d o bits) bits rfl rfl
  have hrx : ({ (s.port p).collide o with quietSince := none } : Port).rx d = (s.port p).rx d := by cases d <;> rfl
  unfold State.frameContent
  rw [State.extend_beginFrame, hport]
  show (s.beginFrame p o).setPort p ((Port.receiveContent { (s.port p).collide o with quietSince := none } d o
    (s.extend p d o bits) bits).setRx d { (Port.receiveContent { (s.port p).collide o with quietSince := none } d o
    (s.extend p d o bits) bits).rx d with opening := some (s.extend p d o bits) }) = _
  have hown : ({ (s.port p).collide o with quietSince := none } : Port) =
      ({ (s.port p).collide o with quietSince := none } : Port).withRelay (s.port p) := rfl
  rw [hown, hcontent, Port.withRelay_setRx, Port.withRelay_rx, hrx, State.beginFrame, State.setPort_setPort]
  rfl

/-- What arrives of a frame with the rest of its content and the flag or abort that delimits it (R5, R13, R14). -/
def Port.receiveEnd (x : Port) (d : Direction) (aborted : Bool) (o o' : Opening) (rest : List Bool) : Port :=
  (x.receiveContent d o o' rest).arriveOf d o' (if aborted then abortBits else closingBits)

/-- A quiet run that has ended, and begins anew where its conditions hold (R10, R11). -/
def Port.renewQuiet (x : Port) (now : Nat) : Port := { x with quietSince := if x.quietHolds then some now else none }

@[simp] theorem Port.renewQuiet_rx (now : Nat) (d : Direction) : (x.renewQuiet now).rx d = x.rx d := by cases d <;> rfl
@[simp] theorem Port.renewQuiet_live (now : Nat) : (x.renewQuiet now).live = x.live := rfl
@[simp] theorem Port.renewQuiet_state (now : Nat) : (x.renewQuiet now).state = x.state := rfl
@[simp] theorem Port.renewQuiet_forwards (now : Nat) : (x.renewQuiet now).forwards = x.forwards := rfl
@[simp] theorem Port.renewQuiet_errorThreshold (now : Nat) : (x.renewQuiet now).errorThreshold = x.errorThreshold := rfl
@[simp] theorem Port.withRelay_live : (x.withRelay y).live = x.live := rfl
@[simp] theorem Port.withRelay_state : (x.withRelay y).state = x.state := rfl
@[simp] theorem Port.withRelay_forwards : (x.withRelay y).forwards = x.forwards := rfl
@[simp] theorem Port.withRelay_errorThreshold : (x.withRelay y).errorThreshold = x.errorThreshold := rfl
@[simp] theorem Port.collide_state (o : Opening) : (x.collide o).state = x.state := rfl
@[simp] theorem Port.collide_forwards (o : Opening) : (x.collide o).forwards = x.forwards := rfl
@[simp] theorem Port.collide_errorThreshold (o : Opening) : (x.collide o).errorThreshold = x.errorThreshold := rfl
@[simp] theorem Port.countDir_state (d : Direction) (f : DirCounters → DirCounters) : (x.countDir d f).state = x.state := rfl
@[simp] theorem Port.countDir_forwards (d : Direction) (f : DirCounters → DirCounters) :
    (x.countDir d f).forwards = x.forwards := rfl
@[simp] theorem Port.countDir_errorThreshold (d : Direction) (f : DirCounters → DirCounters) :
    (x.countDir d f).errorThreshold = x.errorThreshold := rfl

/-- A port whose frame has ended: counted in its class, nothing in reception, the relay's own fields apart (R5, R12). -/
def Port.closed (x : Port) (d : Direction) (k : FrameClass) (o : Opening) : Port :=
  (((x.collide o).countDir d fun c => c.countClass k)).setRx d { x.rx d with opening := none }

/-- The port at the end of a frame: the relay's own fields by the bits that have arrived, and a quiet run that may begin (R5, R10). -/
def State.closedPort (s : State) (p : PortId) (d : Direction) (aborted : Bool) (o : Opening) (rest : List Bool) : Port :=
  (((s.port p).closed d (classify aborted (o.content ++ rest)) o).withRelay
    ((s.port p).receiveEnd d aborted o (s.extend p d o rest) rest)).renewQuiet s.tb.instant

@[simp] theorem State.extend_content (p : PortId) (d : Direction) (o : Opening) (bits : List Bool) :
    (s.extend p d o bits).content = o.content ++ bits := rfl
@[simp] theorem State.extend_collided (p : PortId) (d : Direction) (o : Opening) (bits : List Bool) :
    (s.extend p d o bits).collided = o.collided := rfl
@[simp] theorem State.extend_capture (p : PortId) (d : Direction) (o : Opening) (bits : List Bool) :
    (s.extend p d o bits).capture = o.capture := rfl

/-- The end of a frame, the relay's own fields apart. -/
theorem Port.endFrame_setRx_withRelay (now : Nat) (d : Direction) (k : FrameClass) (r : Receiver) :
    ((x.setRx d r).withRelay y).endFrame now d k =
      (((x.countDir d fun c => c.countClass k).setRx d { r with opening := none }).withRelay y).requiet now := by
  cases d <;> rfl

theorem Port.countDir_setRx_withRelay_quiet (d e : Direction) (f : DirCounters → DirCounters) (r : Receiver) (q : Option Nat) :
    ((({ x with quietSince := q } : Port).countDir d f).setRx e r).withRelay y =
      { ((x.countDir d f).setRx e r).withRelay y with quietSince := q } := by
  cases e <;> rfl

theorem State.endFrame_frameContent (p : PortId) (d : Direction) (aborted : Bool) (o : Opening) (rest : List Bool) :
    ((s.beginFrame p o).frameContent p d o rest).endFrame p d aborted (s.extend p d o rest) =
      s.setPort p (s.closedPort p d aborted o rest) := by
  have hstate : (({ (s.port p).collide o with quietSince := none } : Port).setRx d
        { (s.port p).rx d with opening := some (s.extend p d o rest) }).state =
      ((s.port p).receiveContent d o (s.extend p d o rest) rest).state := by
    rw [Port.setRx_state, ((s.port p).receiveContent_only d o _ rest).state]
    rfl
  have htransfer : (({ (s.port p).collide o with quietSince := none } : Port).setRx d
        { (s.port p).rx d with opening := some (s.extend p d o rest) }).transferEnd =
      ((s.port p).receiveContent d o (s.extend p d o rest) rest).transferEnd := by
    rw [Port.setRx_transferEnd, ((s.port p).receiveContent_only d o _ rest).transferEnd]
    rfl
  rw [State.beginFrame_frameContent, State.endFrame, State.port_setPort_same, State.setPort_setPort, Port.arriveOf,
    Port.withRelay_arrive _ _ d _ hstate htransfer]
  rw [Port.endFrame_setRx_withRelay, Port.countDir_setRx_withRelay_quiet]
  rfl

/-- A frame that ends, of which more than a flag has come, is counted on its port, judged by its class, judged for its removal, and
interpreted unless it collided (R5, R12, R14, R18). -/
theorem State.closeFrame_eq (p : PortId) (d : Direction) (aborted : Bool) (o : Opening) (rest : List Bool)
    (h : aborted = true ∨ o.content ++ rest ≠ []) :
    s.closeFrame p d aborted o rest =
      (let k := classify aborted (o.content ++ rest)
      let u := ((s.setPort p (s.closedPort p d aborted o rest)).judgeClass p d k).judgeRemoval p d k (s.extend p d o rest)
      if k = .valid ∧ o.collided = false then u.interpret p d (telegramOctets (o.content ++ rest)) o.capture else u) := by
  have hframe : ¬ (aborted = false ∧ o.content ++ rest = []) := by
    rintro ⟨ha, he⟩
    rcases h with h | h
    · rw [ha] at h
      cases h
    · exact h he
  unfold State.closeFrame
  rw [if_neg hframe, State.delimit_eq, State.endFrame_frameContent]
  rfl

/-! ## Classes (R5) -/

theorem classify_runt (content : List Bool) (h : content.length ≤ 47) : classify false content = .runt := by
  simp [classify]
  omega

theorem classify_oversize (content : List Bool) (h : 512 < content.length) : classify false content = .oversize := by
  simp [classify, h]
  omega

theorem classify_length {content : List Bool} (h : classify false content = .valid ∨ classify false content = .checkFailure) :
    48 ≤ content.length := by
  by_contra hlt
  rw [classify_runt content (by omega)] at h
  rcases h with h | h <;> cases h

theorem ne_nil_of_classify {content : List Bool} (h : classify false content = .valid ∨ classify false content = .checkFailure) :
    content ≠ [] := by
  rintro rfl
  exact absurd (classify_length h) (by decide)

/-! ## The removal of a frame (R14) -/

theorem octetsOf_take_sixteen (bits : List Bool) (h : 16 ≤ bits.length) :
    ∃ a b, octetsOf (bits.take 16) = [a, b] ∧ octetsOf bits = a :: b :: octetsOf (bits.drop 16) := by
  match bits, h with
  | b0 :: b1 :: b2 :: b3 :: b4 :: b5 :: b6 :: b7 :: c0 :: c1 :: c2 :: c3 :: c4 :: c5 :: c6 :: c7 :: rest, _ =>
    exact ⟨_, _, rfl, rfl⟩

theorem octetsOf_length (n : Nat) (bits : List Bool) (h : 8 * n ≤ bits.length) : n ≤ (octetsOf bits).length := by
  induction n generalizing bits with
  | zero => exact Nat.zero_le _
  | succ n ih =>
    match bits, h with
    | b0 :: b1 :: b2 :: b3 :: b4 :: b5 :: b6 :: b7 :: rest, h =>
      have := ih rest (by simp only [List.length_cons] at h; omega)
      simpa [octetsOf] using this
    | [], h | [_], h | [_, _], h | [_, _, _], h | [_, _, _, _], h | [_, _, _, _, _], h | [_, _, _, _, _, _], h
    | [_, _, _, _, _, _, _], h => exact absurd h (by simp only [List.length_cons, List.length_nil]; omega)

/-- The header of a telegram is in its first 16 bits, whatever follows. -/
theorem serviceHeader_take (t : Straps) (content : List Bool) (h : 48 ≤ content.length) :
    serviceHeader t (octetsOf (content.take 16)) = serviceHeader t (telegramOctets content) := by
  obtain ⟨a, b, htake, hall⟩ := octetsOf_take_sixteen content (by omega)
  have hlen := octetsOf_length 4 (content.drop 16) (by rw [List.length_drop]; omega)
  obtain ⟨c, e, l, hl⟩ : ∃ c e l, octetsOf (content.drop 16) = c :: e :: l := by
    match octetsOf (content.drop 16), hlen with
    | c :: e :: l, _ => exact ⟨c, e, l, rfl⟩
  have htelegram : ∃ l', telegramOctets content = a :: b :: l' := by
    refine ⟨((c :: e :: l).dropLast).dropLast, ?_⟩
    rw [telegramOctets, hall, hl]
    match l with
    | [] => rfl
    | _ :: _ => rfl
  obtain ⟨l', hl'⟩ := htelegram
  rw [htake, hl']
  rfl

/-- An UP frame is never removed on a decision of its own (R14). -/
theorem State.extend_removal_up (p : PortId) (o : Opening) (bits : List Bool) :
    (s.extend p .up o bits).removal = o.removal := by
  cases h : o.removal <;> simp [State.extend, State.removalOf, State.decideRemoval, h]

/-- A decision once made stands. -/
theorem State.extend_removal_some (p : PortId) (d : Direction) (o : Opening) (bits : List Bool) (r : Removal)
    (h : o.removal = some r) : (s.extend p d o bits).removal = some r := by
  simp [State.extend, State.removalOf, h]

/-- The decision on a DOWN frame's first two octets (R14). -/
theorem State.extend_removal_down (p : PortId) (o : Opening) (bits : List Bool) (h : o.removal = none) :
    (s.extend p .down o bits).removal =
      if 16 ≤ (o.content ++ bits).length ∧ (s.port p).forwards = true ∧ o.collided = false then
        some ⟨serviceHeader s.straps (octetsOf ((o.content ++ bits).take 16)), (s.port p).accept⟩ else none := by
  by_cases hl : 16 ≤ (o.content ++ bits).length
  · cases hf : (s.port p).forwards <;> cases hc : o.collided <;>
      simp [State.extend, State.removalOf, State.decideRemoval, h, hf, hc]
  · have hl' : ¬ 16 ≤ o.content.length + bits.length := by simpa using hl
    simp [State.extend, State.removalOf, h, hl']

/-- Whether a frame is being removed after its next content. -/
theorem State.extend_removed (p : PortId) (d : Direction) (o : Opening) (bits : List Bool) :
    (s.extend p d o bits).removed = true ↔ (∃ a, o.removal = some ⟨true, a⟩) ∨ (o.removal = none ∧ d = .down ∧
      16 ≤ (o.content ++ bits).length ∧ (s.port p).forwards = true ∧ o.collided = false ∧
      serviceHeader s.straps (octetsOf ((o.content ++ bits).take 16)) = true) := by
  cases h : o.removal with
  | some r =>
    obtain ⟨b, a⟩ := r
    rw [Opening.removed, State.extend_removal_some s p d o bits _ h]
    cases b <;> simp
  | none =>
    cases d with
    | up =>
      rw [Opening.removed, State.extend_removal_up, h]
      simp
    | down =>
      rw [Opening.removed, State.extend_removal_down s p o bits h]
      split
      · rename_i hif
        obtain ⟨hl, hf, hc⟩ := hif
        simp only [List.length_append] at hl
        simp [hl, hf, hc]
      · rename_i hif
        simp only [Option.any_none, Bool.false_eq_true, false_iff]
        rintro (⟨a, ha⟩ | ⟨-, -, hl, hf, hc, -⟩)
        · cases ha
        · exact hif ⟨hl, hf, hc⟩

theorem exec_frameReceived (p : PortId) (d : Direction) (part : FramePart) :
    exec (.frameReceived p d part) s = s.event fun s => s.receive p d part := rfl

theorem exec_frameReceived_eq (p : PortId) (d : Direction) (part : FramePart) (h : s.initialising = false) :
    exec (.frameReceived p d part) s = .next (s.receive p d part) := by
  rw [exec_frameReceived, State.event_eq s _ h]

end Sys2Proof.Machine
end

