-- ==== Sys2Proof/Proofs/Delimited.lean ====
section
/-! PROOFS. Sys2Proof/Proofs/Delimited.lean: what a frame does at its end: its class, the life timer, the error rate, the judgement of its
removal and its interpretation (R5, R8, R12, R14, R18, R19, R21). -/

namespace Sys2Proof.Machine

variable (s : State) (p : PortId) (d : Direction)

/-! ## The port of a frame that has ended -/

@[simp] theorem State.closedPort_rx_same (aborted : Bool) (o : Opening) (rest : List Bool) :
    (s.closedPort p d aborted o rest).rx d = { (s.port p).rx d with opening := none } := by
  simp [State.closedPort, Port.closed]

theorem State.closedPort_rx_other (aborted : Bool) (o : Opening) (rest : List Bool) (e : Direction) (h : e ≠ d) :
    (s.closedPort p d aborted o rest).rx e = (s.port p).rx e := by
  simp [State.closedPort, Port.closed, Port.rx_setRx_other _ d e _ h]

theorem State.closedPort_live (aborted : Bool) (o : Opening) (rest : List Bool) :
    (s.closedPort p d aborted o rest).live =
      (((s.port p).collide o).countDir d fun c => c.countClass (classify aborted (o.content ++ rest))).live := by
  simp [State.closedPort, Port.closed]

theorem State.closedPort_live_dir (aborted : Bool) (o : Opening) (rest : List Bool) :
    (s.closedPort p d aborted o rest).live.dir d = ((s.port p).live.dir d).countClass (classify aborted (o.content ++ rest)) := by
  rw [State.closedPort_live, Port.countDir_live_dir, Port.collide_live_dir]

theorem State.closedPort_live_port (aborted : Bool) (o : Opening) (rest : List Bool) :
    (s.closedPort p d aborted o rest).live.port = { (s.port p).live.port with
      collisions := if o.collided = true ∧ o.content = [] then raise32 (s.port p).live.port.collisions
        else (s.port p).live.port.collisions } := by
  rw [State.closedPort_live, Port.countDir_live_port]
  rfl

@[simp] theorem State.closedPort_state (aborted : Bool) (o : Opening) (rest : List Bool) :
    (s.closedPort p d aborted o rest).state = (s.port p).state := by
  simp [State.closedPort, Port.closed]

@[simp] theorem State.closedPort_forwards (aborted : Bool) (o : Opening) (rest : List Bool) :
    (s.closedPort p d aborted o rest).forwards = (s.port p).forwards := by
  simp [State.closedPort, Port.closed]

@[simp] theorem State.closedPort_errorThreshold (aborted : Bool) (o : Opening) (rest : List Bool) :
    (s.closedPort p d aborted o rest).errorThreshold = (s.port p).errorThreshold := by
  simp [State.closedPort, Port.closed]

/-- In BYPASS the end of a frame has no effect on its port but the count (R8). -/
theorem State.closedPort_bypass (aborted : Bool) (o : Opening) (rest : List Bool) (hb : (s.port p).state = .bypass)
    (hr : o.removal = none) (hc : o.collided = false ∨ o.content ≠ []) :
    s.closedPort p d aborted o rest =
      { ((s.port p).countDir d fun c => c.countClass (classify aborted (o.content ++ rest))).setRx d
          { (s.port p).rx d with opening := none } with quietSince := none } := by
  have hforwards : (s.port p).forwards = false := by simp [Port.forwards, hb]
  have hsilent (bits : List LineBit) : (s.port p).arrive d bits = s.port p :=
    Port.arrive_silent _ d bits hforwards (by rw [hb]; decide)
  have hremoved : (s.extend p d o rest).removed = false := by
    rw [Bool.eq_false_iff, Ne, State.extend_removed, hr, hforwards]
    simp
  have hend : (s.port p).receiveEnd d aborted o (s.extend p d o rest) rest = s.port p := by
    simp [Port.receiveEnd, Port.receiveContent, Port.arriveOf, hremoved, hsilent]
  have hquiet (x : Port) (h : x.state = .bypass) : x.renewQuiet s.tb.instant = { x with quietSince := none } := by
    simp [Port.renewQuiet, Port.quietHolds, h]
  unfold State.closedPort
  rw [hend, hquiet _ (by simp [Port.closed, hb]), Port.closed, Port.collide_of_not _ o hc]
  cases d <;> rfl

/-! ## The class of a frame (R5, R19, R21) -/

/-- A valid frame restarts the life timer, and clears a raised SILENT with its record (R19). -/
theorem State.restartLife_eq : s.restartLife p d =
    (s.setPort p ((s.port p).setRx d { (s.port p).rx d with lifeSince := some s.tb.instant, silent := false })).setJournal
      (if ((s.port p).rx d).silent then (s.withRecord (s.levelOf .link) (.linkCondition p d .silent false)).journal
        else s.journal) := by
  unfold State.restartLife
  dsimp only
  split
  next h =>
    rw [State.setCondition_eq, State.setPort_setPort, State.port_setPort_same, Port.setRx_setRx, Port.rx_setRx_same,
      Receiver.setCondition, Bool.or_false]
    rfl
  next h =>
    rw [Bool.not_eq_true] at h
    conv_rhs => rw [← h]
    rfl

/-- Whether a check failure raises ERROR RATE: the count of the second reaches the threshold, and it is not raised yet (R21). -/
def Port.raisesErrorRate (x : Port) (d : Direction) : Bool :=
  decide (x.errorThreshold ≤ (x.rx d).checkFails + 1) && !(x.rx d).errorRate

/-- A receiver after a check failure (R21). -/
def Port.failedRx (x : Port) (d : Direction) : Receiver :=
  { x.rx d with
    checkFails := (x.rx d).checkFails + 1
    reached := (x.rx d).reached || decide (x.errorThreshold ≤ (x.rx d).checkFails + 1)
    errorRate := (x.rx d).errorRate || x.raisesErrorRate d
    cleanRun := if x.raisesErrorRate d then 0 else (x.rx d).cleanRun }

/-- A check failure raises the count of the second, and ERROR RATE with its record at the threshold (R21). -/
theorem State.countCheckFailure_eq : s.countCheckFailure p d =
    (s.setPort p ((s.port p).setRx d ((s.port p).failedRx d))).setJournal
      (if (s.port p).raisesErrorRate d then (s.withRecord (s.levelOf .link) (.linkCondition p d .errorRate true)).journal
        else s.journal) := by
  show (if (s.port p).raisesErrorRate d = true then _ else _) = _
  unfold Port.failedRx
  split
  next h =>
    rw [State.setCondition_eq, State.setPort_setPort, State.port_setPort_same, Port.setRx_setRx, Port.rx_setRx_same, h,
      Bool.or_true]
    rfl
  next h =>
    rw [Bool.not_eq_true] at h
    rw [h, Bool.or_false]
    rfl

theorem State.judgeClass_other (k : FrameClass) (h : k = .abort ∨ k = .runt ∨ k = .oversize) : s.judgeClass p d k = s := by
  rcases h with rfl | rfl | rfl <;> rfl

/-! ## The judgement of a removal (R14) -/

/-- A frame of another class than valid is discarded where it is removed, and otherwise left alone (R14). -/
theorem State.judgeRemoval_invalid (k : FrameClass) (o : Opening) (hk : k ≠ .valid) :
    s.judgeRemoval p d k o = if o.removed then s.discardTelegram p else s := by
  simp [State.judgeRemoval, hk]

theorem State.judgeRemoval_kept (k : FrameClass) (o : Opening) (h : o.removed = false)
    (hd : d = .up ∨ o.collided = true ∨ serviceHeader s.straps (telegramOctets o.content) = false) : s.judgeRemoval p d k o = s := by
  unfold State.judgeRemoval
  rw [h]
  simp only [Bool.false_eq_true, if_false, ite_eq_right_iff]
  rintro ⟨-, rfl, hc, -, hh⟩
  rw [hc, hh] at hd
  simp at hd

theorem State.judgeRemoval_discarded (k : FrameClass) (o : Opening) (h : o.removal = some ⟨true, false⟩) :
    s.judgeRemoval p d k o = s.discardTelegram p := by
  simp [State.judgeRemoval, Opening.removed, h]

theorem State.judgeRemoval_taken (o : Opening) (h : o.removal = some ⟨true, true⟩) :
    s.judgeRemoval p d .valid o = s.takeRequest p (telegramOctets o.content) := by
  unfold State.judgeRemoval Opening.removed
  rw [h]
  rfl

theorem State.judgeRemoval_outside (o : Opening) (h : o.removed = false) (hc : o.collided = false)
    (hf : (s.port p).forwards = false) (hh : serviceHeader s.straps (telegramOctets o.content) = true) :
    s.judgeRemoval p .down .valid o = s.discardTelegram p := by
  unfold State.judgeRemoval
  rw [h]
  simp [hc, hf, hh]

/-! ## The interpretation (R18) -/

section Interpretation

variable (octets : List Byte) (c : Capture)

theorem State.interpret_command (h : telegramKind octets = 1) :
    s.interpret p .down octets c = s.trackCommand p (telegramAddress octets) (octets.getD 2 0).toNat c := by
  simp [State.interpret, h]

theorem State.interpret_status (h : telegramKind octets = 2) :
    s.interpret p .up octets c = s.trackReport p (telegramAddress octets)
      ⟨(octets.getD 2 0).toNat, (telegramAge octets).1, (telegramAge octets).2, c⟩ := by
  simp [State.interpret, h]

theorem State.interpret_cyclic (h : telegramKind octets = 3) :
    s.interpret p .up octets c = s.trackReport p (telegramAddress octets) ⟨(octets.getD 2 0).toNat, 0, false, c⟩ := by
  simp [State.interpret, h]

theorem State.interpret_misdirected
    (h : (d = .up ∧ telegramKind octets = 1) ∨ (d = .down ∧ (telegramKind octets = 2 ∨ telegramKind octets = 3))) :
    s.interpret p d octets c = s.countMisdirected p d := by
  rcases h with ⟨rfl, h⟩ | ⟨rfl, h | h⟩ <;> simp [State.interpret, h]

theorem State.interpret_other (h1 : telegramKind octets ≠ 1) (h2 : telegramKind octets ≠ 2) (h3 : telegramKind octets ≠ 3) :
    s.interpret p d octets c = s := by
  unfold State.interpret
  dsimp only
  split
  · exact absurd ‹_› h1
  · exact absurd ‹_› h1
  · exact absurd ‹_› h2
  · exact absurd ‹_› h2
  · exact absurd ‹_› h3
  · exact absurd ‹_› h3
  · rfl

end Interpretation

theorem kind_of_serviceHeader {t : Straps} {octets : List Byte} (h : serviceHeader t octets = true) : telegramKind octets = 12 := by
  simp only [serviceHeader, Bool.and_eq_true, beq_iff_eq] at h
  exact h.1

/-! ## Frames that end -/

/-- A frame that the part does not remove: no removal is decided on it, or the decision was to let it pass, and its first octets decide
none. -/
theorem State.not_removed (o : Opening) (rest : List Bool) (hr : o.removal = none ∨ ∃ a, o.removal = some ⟨false, a⟩)
    (hl : 48 ≤ (o.content ++ rest).length)
    (hd : d = .up ∨ o.collided = true ∨ serviceHeader s.straps (telegramOctets (o.content ++ rest)) = false) :
    (s.extend p d o rest).removed = false := by
  rw [Bool.eq_false_iff, Ne, State.extend_removed, serviceHeader_take _ _ hl]
  rintro (⟨a, ha⟩ | ⟨-, rfl, -, -, hc, hh⟩)
  · rcases hr with hr | ⟨b, hr⟩ <;> rw [ha] at hr <;> simp at hr
  · rw [hc, hh] at hd
    simp at hd

/-- The state once a valid frame has been counted and its life timer restarted (R5, R19). -/
def State.validated (o : Opening) (rest : List Bool) : State :=
  (s.setPort p ((s.closedPort p d false o rest).setRx d
    { (s.port p).rx d with opening := none, lifeSince := some s.tb.instant, silent := false })).setJournal
    (if ((s.port p).rx d).silent then (s.withRecord (s.levelOf .link) (.linkCondition p d .silent false)).journal else s.journal)

theorem State.judgeClass_valid (o : Opening) (rest : List Bool) :
    (s.setPort p (s.closedPort p d false o rest)).judgeClass p d .valid = s.validated p d o rest := by
  show (s.setPort p (s.closedPort p d false o rest)).restartLife p d = _
  rw [State.restartLife_eq, State.port_setPort_same, State.setPort_setPort, State.closedPort_rx_same]
  rfl

theorem State.validated_port_same (o : Opening) (rest : List Bool) :
    (s.validated p d o rest).port p = (s.closedPort p d false o rest).setRx d
      { (s.port p).rx d with opening := none, lifeSince := some s.tb.instant, silent := false } := by
  rw [State.validated, State.setJournal_port, State.port_setPort_same]

theorem State.validated_port_other (o : Opening) (rest : List Bool) (q : PortId) (h : q ≠ p) :
    (s.validated p d o rest).port q = s.port q := by
  rw [State.validated, State.setJournal_port, State.port_setPort_other _ _ _ _ h]

/-- A valid frame that the part does not remove is interpreted unless it collided (R12, R18). -/
theorem State.closeFrame_valid (o : Opening) (rest : List Bool) (hk : classify false (o.content ++ rest) = .valid)
    (hr : o.removal = none ∨ ∃ a, o.removal = some ⟨false, a⟩)
    (hd : d = .up ∨ o.collided = true ∨ serviceHeader s.straps (telegramOctets (o.content ++ rest)) = false) :
    s.closeFrame p d false o rest =
      if o.collided = false then
        (s.validated p d o rest).interpret p d (telegramOctets (o.content ++ rest)) o.capture
      else s.validated p d o rest := by
  have hremoved := s.not_removed p d o rest hr (classify_length (.inl hk)) hd
  have hkept : (s.validated p d o rest).judgeRemoval p d .valid (s.extend p d o rest) = s.validated p d o rest :=
    State.judgeRemoval_kept _ p d _ _ hremoved hd
  rw [State.closeFrame_eq s p d false o rest (.inr (ne_nil_of_classify (.inl hk)))]
  dsimp only
  rw [hk, State.judgeClass_valid, hkept]
  simp

theorem State.receive_closed (o : Opening) (rest : List Bool) (h : ((s.port p).rx d).opening = some o) :
    s.receive p d (.closed rest) = s.closeFrame p d false o rest := by
  simp [State.receive, State.takeEnd, h]

theorem State.receive_aborted (o : Opening) (rest : List Bool) (h : ((s.port p).rx d).opening = some o) :
    s.receive p d (.aborted rest) = s.closeFrame p d true o rest := by
  simp [State.receive, State.takeEnd, h]

/-- The removal of a frame that its port counts and nothing else judges (R5, R14). -/
theorem State.closeFrame_other (aborted : Bool) (o : Opening) (rest : List Bool) (h : aborted = true ∨ o.content ++ rest ≠ [])
    (k : FrameClass) (hk : classify aborted (o.content ++ rest) = k) (hother : k = .abort ∨ k = .runt ∨ k = .oversize) :
    s.closeFrame p d aborted o rest =
      if (s.extend p d o rest).removed then (s.setPort p (s.closedPort p d aborted o rest)).discardTelegram p
      else s.setPort p (s.closedPort p d aborted o rest) := by
  have hvalid : k ≠ .valid := by
    rintro rfl
    simp at hother
  rw [State.closeFrame_eq s p d aborted o rest h]
  dsimp only
  rw [hk, State.judgeClass_other _ p d k hother, if_neg (fun hv => hvalid hv.1), State.judgeRemoval_invalid _ p d k _ hvalid]

end Sys2Proof.Machine
end

