-- ==== Sys2Proof/Proofs/Frames.lean ====
section
/-! PROOFS. Sys2Proof/Proofs/Frames.lean: openings, content and ends of frames, and what a valid frame is taken for (R5, R12, R14, R18). -/

namespace Sys2Proof.Machine

section Facts

variable (s : State) (p : PortId) (d : Direction)

/-! ## Openings (R5, R71) -/

theorem Port.arriveOpening_only (x : Port) (shared : Bool) : x.RelayOnly (x.arriveOpening d shared) := by
  unfold Port.arriveOpening
  split
  · exact x.turn_only d _ 8
  · exact x.arrive_only d _

/-- All that a flag forgotten can change: the relay's delay, and the frame it might have opened. -/
theorem Port.forgetFlag_eq (x : Port) :
    x.forgetFlag d = (x.setRx d { x.rx d with opening := ((x.forgetFlag d).rx d).opening }).withRelay (x.forgetFlag d) := by
  unfold Port.forgetFlag
  split
  · cases d <;> rfl
  · cases d <;> rfl

/-- The port as an opening flag finds its line. -/
def Port.opened (x : Port) (d : Direction) (shared : Bool) : Port := (x.forgetFlag d).arriveOpening d shared

theorem Port.opened_eq (x : Port) (shared : Bool) :
    x.opened d shared =
      (x.setRx d { x.rx d with opening := ((x.forgetFlag d).rx d).opening }).withRelay (x.opened d shared) := by
  calc x.opened d shared = (x.forgetFlag d).withRelay (x.opened d shared) :=
        (Port.arriveOpening_only d (x.forgetFlag d) shared).eq_withRelay
    _ = _ := congrArg (·.withRelay (x.opened d shared)) (Port.forgetFlag_eq d x)

/-- An opening flag arrives: the bits of the relay apart, its receiver has an opening, and a quiet run goes on (R5, R71). -/
theorem State.openFrame_eq (shared : Bool) :
    s.openFrame p d shared = s.setPort p ((((s.port p).setRx d { (s.port p).rx d with
      opening := some ⟨s.tb.capture, (s.port p).transferEnd.isSome, none, []⟩, stray := [] }).withRelay
        ((s.port p).opened d shared)).requiet s.tb.instant) := by
  show s.setPort p ((((s.port p).opened d shared).setRx d { ((s.port p).opened d shared).rx d with
    opening := some ⟨s.tb.capture, ((s.port p).opened d shared).transferEnd.isSome, none, []⟩, stray := [] }).requiet
      s.tb.instant) = _
  generalize h : (s.port p).opened d shared = y
  have hy := Port.opened_eq d (s.port p) shared
  rw [h] at hy
  generalize ((s.port p).forgetFlag d).rx d = r at hy
  rw [hy]
  cases d <;> rfl

@[simp] theorem Port.requiet_rx (x : Port) (now : Nat) : (x.requiet now).rx d = x.rx d := by cases d <;> rfl
@[simp] theorem Port.requiet_live (x : Port) (now : Nat) : (x.requiet now).live = x.live := rfl

/-! ## Content (R14) -/

theorem State.removalOf_eq (o : Opening) (content : List Bool) :
    s.removalOf p d o content = o.removal.or (
      if 16 ≤ content.length ∧ d = .down ∧ (s.port p).forwards = true ∧ o.collided = false then
        some ⟨serviceHeader s.straps (octetsOf (content.take 16)), (s.port p).accept⟩
      else none) := by
  unfold State.removalOf State.decideRemoval
  congr 1
  by_cases hl : 16 ≤ content.length
  · cases d with
    | up => simp [hl]
    | down => cases (s.port p).forwards <;> cases o.collided <;> simp [hl]
  · simp [hl]

theorem State.receive_content (o : Opening) (b : Bool) (bits : List Bool) (h : ((s.port p).rx d).opening = some o) :
    s.receive p d (.content (b :: bits)) = (s.beginFrame p o).frameContent p d o (b :: bits) := by
  simp [State.receive, State.takeContent, h]

/-! ## Ends (R5) -/

/-- An end that neither the life timer nor the error rate takes note of changes its port alone, and is counted in its class. -/
theorem State.closeFrame_other_port (aborted : Bool) (o : Opening) (rest : List Bool) (h : aborted = true ∨ o.content ++ rest ≠ [])
    (k : FrameClass) (hk : classify aborted (o.content ++ rest) = k) (hother : k = .abort ∨ k = .runt ∨ k = .oversize) :
    ∃ x : Port, s.closeFrame p d aborted o rest = s.setPort p x ∧ x.live.dir d = ((s.port p).live.dir d).countClass k ∧
      x.live.port.collisions = if o.collided = true ∧ o.content = [] then raise32 (s.port p).live.port.collisions
        else (s.port p).live.port.collisions := by
  have hdir := s.closedPort_live_dir p d aborted o rest
  have hport := congrArg PortCounters.collisions (s.closedPort_live_port p d aborted o rest)
  rw [hk] at hdir
  rw [State.closeFrame_other s p d aborted o rest h k hk hother]
  split
  · refine ⟨_, by rw [State.discardTelegram, State.setPort_setPort, State.port_setPort_same], ?_, ?_⟩
    · rw [Port.countPort_live_dir, hdir]
    · exact hport
  · exact ⟨_, rfl, hdir, hport⟩

theorem State.not_removed_of_not_forwards (o : Opening) (rest : List Bool) (hr : o.removal = none)
    (hf : (s.port p).forwards = false) : (s.extend p d o rest).removed = false := by
  rw [Bool.eq_false_iff, Ne, State.extend_removed, hr, hf]
  simp

theorem Port.not_forwards_of_bypass {x : Port} (h : x.state = .bypass) : x.forwards = false := by simp [Port.forwards, h]

theorem State.closeFrame_other_bypass (aborted : Bool) (o : Opening) (rest : List Bool)
    (h : aborted = true ∨ o.content ++ rest ≠ []) (k : FrameClass) (hk : classify aborted (o.content ++ rest) = k)
    (hother : k = .abort ∨ k = .runt ∨ k = .oversize) (hb : (s.port p).state = .bypass) (hr : o.removal = none)
    (hc : o.collided = false ∨ o.content ≠ []) :
    s.closeFrame p d aborted o rest = s.setPort p
      { ((s.port p).countDir d fun c => c.countClass k).setRx d { (s.port p).rx d with opening := none } with
        quietSince := none } := by
  rw [State.closeFrame_other s p d aborted o rest h k hk hother,
    s.not_removed_of_not_forwards p d o rest hr (Port.not_forwards_of_bypass hb), State.closedPort_bypass s p d aborted o rest hb hr hc,
    hk]
  rfl

/-- What a valid frame is taken for, by its kind and direction (the table of R18). -/
theorem interpretation_table {s v : State} {part : FramePart} {octets : List Byte} {c : Capture}
    (h : d = .up ∨ serviceHeader s.straps octets = false →
      exec (.frameReceived p d part) s = .next (v.interpret p d octets c)) :
    (d = .up → telegramKind octets = 2 → exec (.frameReceived p .up part) s =
      .next (v.trackReport p (telegramAddress octets)
        ⟨(octets.getD 2 0).toNat, (telegramAge octets).1, (telegramAge octets).2, c⟩)) ∧
    (d = .up → telegramKind octets = 3 → exec (.frameReceived p .up part) s =
      .next (v.trackReport p (telegramAddress octets) ⟨(octets.getD 2 0).toNat, 0, false, c⟩)) ∧
    (d = .down → telegramKind octets = 1 → exec (.frameReceived p .down part) s =
      .next (v.trackCommand p (telegramAddress octets) (octets.getD 2 0).toNat c)) ∧
    ((d = .up ∧ telegramKind octets = 1) ∨ (d = .down ∧ (telegramKind octets = 2 ∨ telegramKind octets = 3)) →
      exec (.frameReceived p d part) s =
        .next (v.setPort p ((v.port p).countDir d fun c => { c with misdirected := raise32 c.misdirected }))) ∧
    (telegramKind octets ≠ 1 → telegramKind octets ≠ 2 → telegramKind octets ≠ 3 →
      d = .up ∨ serviceHeader s.straps octets = false → exec (.frameReceived p d part) s = .next v) := by
  have hheader (hk : telegramKind octets ≠ 12) : serviceHeader s.straps octets = false := by
    rw [Bool.eq_false_iff]
    exact fun hh => hk (kind_of_serviceHeader hh)
  refine ⟨?_, ?_, ?_, ?_, ?_⟩
  · rintro rfl hk
    rw [h (.inl rfl), State.interpret_status _ _ _ _ hk]
  · rintro rfl hk
    rw [h (.inl rfl), State.interpret_cyclic _ _ _ _ hk]
  · rintro rfl hk
    rw [h (.inr (hheader (by omega))), State.interpret_command _ _ _ _ hk]
  · intro hk
    rw [h (.inr (hheader (by omega))), State.interpret_misdirected _ _ _ _ _ hk, State.countMisdirected]
  · intro h1 h2 h3 hd
    rw [h hd, State.interpret_other _ _ _ _ _ h1 h2 h3]

/-- Only the ports and the journal move when a valid frame is counted. -/
theorem State.validated_only (o : Opening) (rest : List Bool) :
    s.validated p d o rest =
      { s with ports := (s.validated p d o rest).ports, journal := (s.validated p d o rest).journal } := rfl

theorem State.validated_journal (o : Opening) (rest : List Bool) :
    (s.validated p d o rest).journal = (if ((s.port p).rx d).silent then
      (s.withRecord (s.levelOf .link) (.linkCondition p d .silent false)).journal else s.journal) := rfl

/-- The port of a valid frame that did not collide, but for the relay's own fields and the quiet run. -/
theorem State.validated_port (o : Opening) (rest : List Bool) (hk : classify false (o.content ++ rest) = .valid)
    (hc : o.collided = false) :
    (s.validated p d o rest).port p =
      { (((s.port p).countDir d fun c => { c with valid := raise32 c.valid }).setRx d
          { (s.port p).rx d with opening := none, lifeSince := some s.tb.instant, silent := false }).withRelay
          ((s.validated p d o rest).port p) with quietSince := ((s.validated p d o rest).port p).quietSince } := by
  rw [State.validated_port_same, State.closedPort, Port.closed, Port.collide_of_not _ o (.inl hc), hk]
  generalize (s.port p).receiveEnd d false o (s.extend p d o rest) rest = y
  cases d <;> rfl

theorem State.validated_bypass (o : Opening) (rest : List Bool) (hk : classify false (o.content ++ rest) = .valid)
    (hb : (s.port p).state = .bypass) (hc : o.collided = false) (hr : o.removal = none) :
    s.validated p d o rest = (s.setPort p
      { ((s.port p).countDir d fun c => { c with valid := raise32 c.valid }).setRx d
        { (s.port p).rx d with opening := none, lifeSince := some s.tb.instant, silent := false } with quietSince := none }).setJournal
      (if ((s.port p).rx d).silent then
        (s.withRecord (s.levelOf .link) (.linkCondition p d .silent false)).journal else s.journal) := by
  rw [State.validated, State.closedPort_bypass s p d false o rest hb hr (.inl hc), hk]
  cases d <;> rfl

/-- In BYPASS a valid frame restarts the life timer, and then clears a raised SILENT with its record (R19). -/
theorem State.validated_bypass_cleared (o : Opening) (rest : List Bool) (hk : classify false (o.content ++ rest) = .valid)
    (hb : (s.port p).state = .bypass) (hc : o.collided = false) (hr : o.removal = none) :
    (let w := s.setPort p { ((s.port p).countDir d fun c => { c with valid := raise32 c.valid }).setRx d
        { (s.port p).rx d with opening := none, lifeSince := some s.tb.instant } with quietSince := none }
      if ((s.port p).rx d).silent then
        (w.setPort p ((w.port p).setRx d { (w.port p).rx d with silent := false })).withRecord (s.levelOf .link)
          (.linkCondition p d .silent false)
      else w) = s.validated p d o rest := by
  rw [State.validated_bypass s p d o rest hk hb hc hr]
  dsimp only
  rw [State.port_setPort_same, State.setPort_setPort]
  generalize s.port p = x
  cases hsilent : (x.rx d).silent with
  | true => cases d <;> rfl
  | false =>
    have hclear : { x.rx d with opening := none, lifeSince := some s.tb.instant, silent := false } =
        { x.rx d with opening := none, lifeSince := some s.tb.instant } := by rw [← hsilent]
    rw [hclear]
    cases d <;> rfl

end Facts

/-- Settles O9: the port of each part of a frame, its class at the end, and the table of R18 for a valid frame. -/
theorem framesAreCountedAndInterpreted : Obligations.FramesAreCountedAndInterpreted := by
  refine ⟨?_, ?_, ?_, ?_, ?_, ?_⟩
  case refine_1 =>
    intro s p d shared hs
    refine ⟨_, exec_frameReceived_eq s p d _ hs, ?_, ?_, ?_, ?_⟩ <;> simp only [State.receive, State.openFrame_eq]
    · rw [State.port_setPort_same]
    · rw [State.port_setPort_same, Port.requiet_rx, Port.withRelay_rx, Port.rx_setRx_same]
      rfl
    · intro e he
      rw [State.port_setPort_same, Port.requiet_rx, Port.withRelay_rx, Port.rx_setRx_other _ _ _ _ he]
    · rw [State.port_setPort_same, Port.requiet_live, Port.withRelay_live, Port.setRx_live]
  case refine_2 =>
    intro s p d o b bits hs ho
    refine ⟨_, exec_frameReceived_eq s p d _ hs, ?_, ?_, ?_, ?_⟩ <;>
      rw [s.receive_content p d o b bits ho, State.beginFrame_frameContent, State.port_setPort_same]
    · rw [Port.withRelay_rx, Port.rx_setRx_same, State.extend, State.removalOf_eq]
    · intro e he
      rw [Port.withRelay_rx, Port.rx_setRx_other _ _ _ _ he]
      cases e <;> rfl
    · rw [Port.withRelay_live, Port.setRx_live]
      rfl
  case refine_3 =>
    intro s p d o rest hs ho
    have hexec (aborted : Bool) : exec (.frameReceived p d (if aborted then .aborted rest else .closed rest)) s =
        .next (s.closeFrame p d aborted o rest) := by
      rw [exec_frameReceived_eq s p d _ hs]
      cases aborted
      · exact congrArg _ (s.receive_closed p d o rest ho)
      · exact congrArg _ (s.receive_aborted p d o rest ho)
    have hcount (aborted : Bool) (h : aborted = true ∨ o.content ++ rest ≠ []) (k : FrameClass)
        (hk : classify aborted (o.content ++ rest) = k) (hother : k = .abort ∨ k = .runt ∨ k = .oversize) :
        ∃ u : State, exec (.frameReceived p d (if aborted then .aborted rest else .closed rest)) s = .next u ∧
          u = s.setPort p (u.port p) ∧ (u.port p).live.dir d = ((s.port p).live.dir d).countClass k ∧
          (u.port p).live.port.collisions = if o.collided = true ∧ o.content = [] then raise32 (s.port p).live.port.collisions
            else (s.port p).live.port.collisions := by
      obtain ⟨x, hx, hdir, hcol⟩ := s.closeFrame_other_port p d aborted o rest h k hk hother
      refine ⟨s.setPort p x, (hexec aborted).trans (congrArg _ hx), ?_, ?_, ?_⟩ <;> rw [State.port_setPort_same]
      · exact hdir
      · exact hcol
    have hne (hlong : 512 < (o.content ++ rest).length) : o.content ++ rest ≠ [] := by
      intro he
      rw [he] at hlong
      exact absurd hlong (by decide)
    refine ⟨?_, ?_, ?_, ?_⟩
    · obtain ⟨u, hu, hport, hdir, hcol⟩ := hcount true (.inl rfl) .abort rfl (.inl rfl)
      exact ⟨u, hu, hport, by rw [hdir]; rfl, hcol⟩
    · intro hcontent hshort
      obtain ⟨u, hu, hport, hdir, hcol⟩ := hcount false (.inr hcontent) .runt (classify_runt _ hshort) (.inr (.inl rfl))
      exact ⟨u, hu, hport, by rw [hdir]; rfl, hcol⟩
    · intro hlong
      obtain ⟨u, hu, hport, hdir, hcol⟩ := hcount false (.inr (hne hlong)) .oversize (classify_oversize _ hlong) (.inr (.inr rfl))
      exact ⟨u, hu, hport, by rw [hdir]; rfl, hcol⟩
    · intro hb hr hc
      refine ⟨?_, ?_, ?_⟩
      · exact (hexec true).trans (congrArg _ (s.closeFrame_other_bypass p d true o rest (.inl rfl) .abort rfl (.inl rfl) hb hr hc))
      · intro hcontent hshort
        exact (hexec false).trans (congrArg _ (s.closeFrame_other_bypass p d false o rest (.inr hcontent) .runt
          (classify_runt _ hshort) (.inr (.inl rfl)) hb hr hc))
      · intro hlong
        exact (hexec false).trans (congrArg _ (s.closeFrame_other_bypass p d false o rest (.inr (hne hlong)) .oversize
          (classify_oversize _ hlong) (.inr (.inr rfl)) hb hr hc))
  case refine_4 =>
    intro s p d o rest octets w v hs hb ho hc hr hk hoctets hw hv
    have hv' : v = s.validated p d o rest := by rw [hv, hw, s.validated_bypass_cleared p d o rest hk hb hc hr]
    subst hoctets
    refine interpretation_table p d fun hd => ?_
    rw [exec_frameReceived_eq s p d _ hs, s.receive_closed p d o rest ho, s.closeFrame_valid p d o rest hk (.inl hr)
      (hd.imp id .inr), if_pos hc, hv']
  case refine_5 =>
    intro s p d o rest octets hs ho hc hr hk hoctets hd
    subst hoctets
    have htable := interpretation_table p d (s := s) (v := s.validated p d o rest) (part := .closed rest)
      (octets := telegramOctets (o.content ++ rest)) (c := o.capture) fun hd => by
        rw [exec_frameReceived_eq s p d _ hs, s.receive_closed p d o rest ho, s.closeFrame_valid p d o rest hk hr
          (hd.imp id .inr), if_pos hc]
    obtain ⟨hstatus, hcyclic, hcommand, hmisdirected, hother⟩ := htable
    exact ⟨_, s.validated_only p d o rest, s.validated_port_other p d o rest, s.validated_port p d o rest hk hc,
      s.validated_journal p d o rest, hstatus, hcyclic, hcommand, hmisdirected, fun h1 h2 h3 => hother h1 h2 h3 hd⟩
  case refine_6 =>
    intro s p d o rest hs ho hc hr hk
    refine ⟨s.validated p d o rest, ?_, s.validated_only p d o rest, s.validated_port_other p d o rest, ?_, ?_,
      s.validated_journal p d o rest⟩
    · rw [exec_frameReceived_eq s p d _ hs, s.receive_closed p d o rest ho, s.closeFrame_valid p d o rest hk hr (.inr (.inl hc)), hc]
      rfl
    · rw [State.validated_port_same, Port.setRx_live, State.closedPort_live_dir, hk]
      rfl
    · rw [State.validated_port_same, Port.setRx_live, State.closedPort_live_port, hc]
      simp

end Sys2Proof.Machine
end

