-- ==== Sys2Proof/Proofs/Scopes.lean ====
section
/-! PROOFS. Sys2Proof/Proofs/Scopes.lean: what the tracker, the supervisor and the checker can reach, and what a frame on one port can reach
(the opening of Chapter 1). -/

namespace Sys2Proof.Machine

/-! ## Tracker, supervisor and checker -/

/-- Only the element table, the banks, the open list and the journal move. -/
structure State.TablesOnly (s t : State) : Prop where
  eq : t = { s with
    elements := t.elements, bankA := t.bankA, bankB := t.bankB, openList := t.openList, journal := t.journal }

theorem State.TablesOnly.refl (s : State) : s.TablesOnly s := ⟨rfl⟩

theorem State.TablesOnly.trans {s t u : State} (h : s.TablesOnly t) (k : t.TablesOnly u) : s.TablesOnly u := by
  obtain ⟨h⟩ := h
  obtain ⟨k⟩ := k
  constructor
  rw [k, h]

theorem State.TablesOnly.foldl {α : Type} {f : State → α → State} (h : ∀ (s : State) a, s.TablesOnly (f s a)) (l : List α)
    (s : State) : s.TablesOnly (l.foldl f s) := by
  induction l generalizing s with
  | nil => exact .refl s
  | cons a l ih => exact (h s a).trans (ih _)

section Facts

variable (s : State)

theorem State.tablesOnly_offer (o : Offer) : s.TablesOnly (s.offer o) := ⟨rfl⟩
theorem State.tablesOnly_report (b : Body) : s.TablesOnly (s.report b) := ⟨rfl⟩
theorem State.tablesOnly_setElement (i : Nat) (e : Element) : s.TablesOnly (s.setElement i e) := ⟨rfl⟩
theorem State.tablesOnly_setOpenList (l : List EntryRef) : s.TablesOnly (s.setOpenList l) := ⟨rfl⟩
theorem State.tablesOnly_setBank (b : BankId) (x : Bank) : s.TablesOnly (s.setBank b x) := by cases b <;> exact ⟨rfl⟩

theorem State.tablesOnly_applySupervised (i : Nat) (r : Supervised) : s.TablesOnly (s.applySupervised i r) :=
  (s.tablesOnly_setElement i r.element).trans (.foldl State.tablesOnly_offer r.offers _)

theorem State.tablesOnly_adjustRefs (f : Nat → Nat) (i : Nat) : s.TablesOnly (s.adjustRefs f i) := by
  unfold State.adjustRefs
  split
  · exact s.tablesOnly_setElement i _
  · exact .refl s

theorem State.tablesOnly_emptyBank (b : BankId) : s.TablesOnly (s.emptyBank b) :=
  (State.TablesOnly.foldl (fun s (e : Entry) => State.TablesOnly.foldl (fun s i => s.tablesOnly_adjustRefs (fun n => n - 1) i)
    e.names s) (s.bank b).entries s).trans (State.tablesOnly_setBank _ b _)

theorem State.tablesOnly_settleBank (b : BankId) : s.TablesOnly (s.settleBank b) := by
  unfold State.settleBank
  split
  · exact (s.tablesOnly_emptyBank b).trans (State.tablesOnly_report _ _)
  · exact .refl s

theorem State.tablesOnly_closeEntry (r : EntryRef) (status : EntryStatus) (dated : Dated) (ageLimit clamped : Bool)
    (result : Option MatchResult) : s.TablesOnly (s.closeEntry r status dated ageLimit clamped result) := by
  unfold State.closeEntry
  split
  · exact .refl s
  · exact (((s.tablesOnly_setBank r.bank _).trans (State.tablesOnly_setOpenList _ _)).trans (State.tablesOnly_offer _ _)).trans
      (State.tablesOnly_settleBank _ r.bank)

theorem State.tablesOnly_clearing (c : Change) : s.TablesOnly (s.clearing c) := by
  unfold State.clearing
  split
  · split
    · split
      · exact s.tablesOnly_closeEntry _ _ _ _ _ _
      · exact .refl s
    · exact s.tablesOnly_offer _
  · exact .refl s

theorem State.tablesOnly_superviseChange (e : Element) (c : Change) : s.TablesOnly (s.superviseChange e c) := by
  unfold State.superviseChange
  dsimp only
  split
  · exact s.tablesOnly_applySupervised _ _
  · exact s.tablesOnly_applySupervised _ _
  · exact .refl s

theorem State.tablesOnly_accept (p : PortId) (i : Nat) (e : Element) (k : Candidate) : s.TablesOnly (s.accept p i e k) := by
  have hselected : ∀ (e' : Element) (c : Change) (o : Offer),
      s.TablesOnly (if selects e' c.old c.new then (s.setElement i e').offer o else s.setElement i e') := by
    intro e' c o
    split
    · exact (s.tablesOnly_setElement i e').trans (State.tablesOnly_offer _ o)
    · exact s.tablesOnly_setElement i e'
  unfold State.accept
  dsimp only
  split
  · exact ((hselected _ _ _).trans (State.tablesOnly_superviseChange _ _ _)).trans (State.tablesOnly_clearing _ _)
  · exact (hselected _ _ _).trans (State.tablesOnly_superviseChange _ _ _)

theorem State.tablesOnly_takeReport (p : PortId) (i : Nat) (e : Element) (r : Report) : s.TablesOnly (s.takeReport p i e r) := by
  unfold State.takeReport
  dsimp only
  split
  · exact s.tablesOnly_setElement i _
  · split
    · exact s.tablesOnly_accept p i _ _
    · exact s.tablesOnly_setElement i _

theorem State.tablesOnly_takeCommand (i : Nat) (e : Element) (code : Nat) (c : Capture) :
    s.TablesOnly (s.takeCommand i e code c) := by
  have hseen (e' : Element) (b : Bool) (o : Offer) :
      s.TablesOnly (if b then (s.setElement i e').offer o else s.setElement i e') := by
    split
    · exact (s.tablesOnly_setElement i e').trans (State.tablesOnly_offer _ o)
    · exact s.tablesOnly_setElement i e'
  unfold State.takeCommand
  dsimp only
  split
  · split
    · exact (hseen _ _ _).trans (State.tablesOnly_applySupervised _ _ _)
    · exact (hseen _ _ _).trans (State.tablesOnly_applySupervised _ _ _)
    · exact hseen _ _ _
  · exact hseen _ _ _

/-- All that the interpretation of a telegram can do: count on its port, or reach the tables and the journal. -/
theorem State.interpret_cases (p : PortId) (d : Direction) (octets : List Byte) (c : Capture) :
    (∃ e f, s.interpret p d octets c = s.setPort p ((s.port p).countDir e f)) ∨ s.TablesOnly (s.interpret p d octets c) := by
  have hcommand (a code : Nat) :
      (∃ e f, s.trackCommand p a code c = s.setPort p ((s.port p).countDir e f)) ∨ s.TablesOnly (s.trackCommand p a code c) := by
    unfold State.trackCommand
    split
    · exact .inr (s.tablesOnly_takeCommand _ _ code c)
    · exact .inl ⟨_, _, rfl⟩
  have hreport (a : Nat) (r : Report) :
      (∃ e f, s.trackReport p a r = s.setPort p ((s.port p).countDir e f)) ∨ s.TablesOnly (s.trackReport p a r) := by
    unfold State.trackReport
    split
    · exact .inr (s.tablesOnly_takeReport p _ _ r)
    · exact .inl ⟨_, _, rfl⟩
  unfold State.interpret
  dsimp only
  split
  · exact hcommand _ _
  · exact .inl ⟨_, _, rfl⟩
  · exact .inl ⟨_, _, rfl⟩
  · exact hreport _ _
  · exact .inl ⟨_, _, rfl⟩
  · exact hreport _ _
  · exact .inr (.refl s)

end Facts

/-! ## One port -/

/-- Of the ports only one moves; of the service unit the queue, and its hand where it held nothing; the timebase, the lines, the windows
and the rest stay. -/
structure State.OnPort (p : PortId) (s t : State) : Prop where
  others : ∀ q, q ≠ p → t.port q = s.port q
  rest : t = { s with
    ports := t.ports, elements := t.elements, bankA := t.bankA, bankB := t.bankB, openList := t.openList, journal := t.journal,
    service := t.service }
  hand : ∀ q, s.service.inHand = some q → t.service.inHand = some q
  resetting : t.service.resetting = s.service.resetting

section Facts

variable {p : PortId}

theorem State.OnPort.refl (s : State) : State.OnPort p s s := ⟨fun _ _ => rfl, rfl, fun _ => id, rfl⟩

theorem State.OnPort.trans {s t u : State} (h : State.OnPort p s t) (k : State.OnPort p t u) : State.OnPort p s u where
  others q hq := (k.others q hq).trans (h.others q hq)
  rest := by
    rw [k.rest, h.rest]
  hand q hq := k.hand q (h.hand q hq)
  resetting := k.resetting.trans h.resetting

theorem State.TablesOnly.onPort {s t : State} (h : s.TablesOnly t) : State.OnPort p s t := by
  rw [h.eq]
  exact ⟨fun _ _ => rfl, rfl, fun _ => id, rfl⟩

variable (s : State) (d : Direction)

theorem State.onPort_setPort (x : Port) : State.OnPort p s (s.setPort p x) :=
  ⟨fun q hq => s.port_setPort_other p q x hq, rfl, fun _ => id, rfl⟩

theorem State.onPort_setJournal (j : Journal) : State.OnPort p s (s.setJournal j) := ⟨fun _ _ => rfl, rfl, fun _ => id, rfl⟩

theorem State.onPort_judgeClass (k : FrameClass) : State.OnPort p s (s.judgeClass p d k) := by
  cases k with
  | valid =>
    show State.OnPort p s (s.restartLife p d)
    rw [State.restartLife_eq]
    exact (s.onPort_setPort _).trans (State.onPort_setJournal _ _)
  | checkFailure =>
    show State.OnPort p s (s.countCheckFailure p d)
    rw [State.countCheckFailure_eq]
    exact (s.onPort_setPort _).trans (State.onPort_setJournal _ _)
  | _ => exact .refl s

/-- A request in hand stays there, and an idle unit goes on with nothing else of its own (R171). -/
theorem Service.take_inHand (v : Service) (q : Queued) (h : v.inHand = some q) : v.take.inHand = some q := by
  rw [Service.take_busy v (.inl (by rw [h]; exact nofun)), h]

theorem State.onPort_takeRequest (octets : List Byte) : State.OnPort p s (s.takeRequest p octets) := by
  unfold State.takeRequest
  split
  · refine ⟨fun q hq => s.port_setPort_other p q _ hq, rfl, fun q hq => ?_, ?_⟩
    · exact Service.take_inHand _ q hq
    · exact Service.take_resetting _
  · exact s.onPort_setPort _

theorem State.onPort_judgeRemoval (k : FrameClass) (o : Opening) : State.OnPort p s (s.judgeRemoval p d k o) := by
  unfold State.judgeRemoval
  dsimp only
  split
  · split
    · exact s.onPort_takeRequest _
    · exact s.onPort_setPort _
  · split
    · exact s.onPort_setPort _
    · exact .refl s

theorem State.onPort_interpret (octets : List Byte) (c : Capture) : State.OnPort p s (s.interpret p d octets c) := by
  rcases s.interpret_cases p d octets c with ⟨e, f, h⟩ | h
  · rw [h]
    exact s.onPort_setPort _
  · exact h.onPort

theorem State.onPort_delimit (aborted : Bool) (o : Opening) : State.OnPort p s (s.delimit p d aborted o) := by
  have hjudged : State.OnPort p s (((s.endFrame p d aborted o).judgeClass p d (classify aborted o.content)).judgeRemoval p d
      (classify aborted o.content) o) :=
    ((s.onPort_setPort _).trans (State.onPort_judgeClass _ d _)).trans (State.onPort_judgeRemoval _ d _ o)
  rw [State.delimit_eq]
  dsimp only
  split
  · exact hjudged.trans (State.onPort_interpret _ d _ _)
  · exact hjudged

theorem State.onPort_takeEnd (aborted : Bool) (rest : List Bool) : State.OnPort p s (s.takeEnd p d aborted rest) := by
  unfold State.takeEnd
  split
  · exact (s.onPort_setPort _).trans (State.onPort_setPort _ _)
  · unfold State.closeFrame
    split
    · exact s.onPort_setPort _
    · exact ((s.onPort_setPort _).trans (State.onPort_setPort _ _)).trans (State.onPort_delimit _ d aborted _)

theorem State.onPort_receive (part : FramePart) : State.OnPort p s (s.receive p d part) := by
  cases part with
  | idle marks n =>
    show State.OnPort p s (s.takeIdle p d _)
    unfold State.takeIdle
    split
    · exact s.onPort_setPort _
    · split <;> exact s.onPort_setPort _
  | opening shared => exact s.onPort_setPort _
  | content bits =>
    show State.OnPort p s (s.takeContent p d bits)
    unfold State.takeContent
    split
    · exact s.onPort_setPort _
    · split
      · exact .refl s
      · exact (s.onPort_setPort _).trans (State.onPort_setPort _ _)
  | closed rest => exact s.onPort_takeEnd d false rest
  | aborted rest => exact s.onPort_takeEnd d true rest

end Facts

/-- Settles O12: every operation of the reception keeps to its port, the tables, the journal and the request queue. -/
theorem frameTouchesOnePort : Obligations.FrameTouchesOnePort := by
  intro s u p d part hu
  have hframe : State.OnPort p s u := by
    rw [exec_frameReceived, State.event] at hu
    cases hu
    split
    · exact .refl s
    · exact s.onPort_receive d part
  obtain ⟨hothers, hrest, hhand, hresetting⟩ := hframe
  refine ⟨hothers, ?_, ?_, ?_, ?_, ?_, ?_, ?_, ?_, hhand, hresetting, ?_⟩ <;> rw [hrest]

end Sys2Proof.Machine
end

