-- ==== Sys2Proof/Proofs/Streams.lean ====
section
/-! PROOFS. Sys2Proof/Proofs/Streams.lean: the stream of one direction, that is the bits sent and those still in the delay, and what each
part of a frame adds to it (R5, R13, R14). -/

namespace Sys2Proof.Machine

/-! ## Inserted zeros (section 1.1) -/

/-- The ones just sent, after more content. -/
def onesAfter : Nat → List Bool → Nat
  | n, [] => n
  | _, false :: rest => onesAfter 0 rest
  | n, true :: rest => if n = 4 then onesAfter 0 rest else onesAfter (n + 1) rest

theorem stuff_append (n : Nat) (a b : List Bool) : stuff n (a ++ b) = stuff n a ++ stuff (onesAfter n a) b := by
  induction a generalizing n with
  | nil => rfl
  | cons x a ih =>
    cases x with
    | false => simp [stuff, onesAfter, ih]
    | true =>
      simp only [List.cons_append, stuff, onesAfter]
      split <;> simp [ih]

theorem contentBits_eq (before bits : List Bool) :
    contentBits before bits = (stuff (onesAfter 0 before) bits).map .content := by
  simp [contentBits, stuff_append]

@[simp] theorem contentBits_nil (before : List Bool) : contentBits before [] = [] := by simp [contentBits]

theorem contentBits_append (before a b : List Bool) :
    contentBits before (a ++ b) = contentBits before a ++ contentBits (before ++ a) b := by
  have hones : onesAfter 0 (before ++ a) = onesAfter (onesAfter 0 before) a := by
    generalize 0 = n
    induction before generalizing n with
    | nil => rfl
    | cons x before ih =>
      cases x with
      | false => exact ih 0
      | true =>
        simp only [List.cons_append, onesAfter]
        split <;> exact ih _
  simp [contentBits_eq, stuff_append, hones]

/-! ## The stream of a direction -/

/-- The bits sent in a direction: DOWN to the field, UP to the centre. -/
def Port.sent (x : Port) : Direction → List LineBit
  | .down => x.toField
  | .up => x.toCentre

/-- The bits of a direction in the 40-bit delay (R13). -/
def Port.delay (x : Port) : Direction → List LineBit
  | .down => x.downDelay
  | .up => x.upDelay

/-- The bits sent and those in the delay, in the order of their arrival. -/
def Port.stream (x : Port) (d : Direction) : List LineBit := x.sent d ++ x.delay d

/-- Whether what arrives leaves as it came: the port forwards, and UP it holds nothing back (R13, R16, R17). -/
def Port.Passes (x : Port) (d : Direction) : Prop := x.forwards = true ∧ (d = .down ∨ (x.sending = [] ∧ x.held = []))

/-- Bits that have passed a port that passes them on. -/
structure Port.Passed (d : Direction) (bits : List LineBit) (x y : Port) : Prop where
  stream : y.stream d = x.stream d ++ bits
  delay : (y.delay d).length = (x.delay d).length
  other : ∀ e, e ≠ d → y.sent e = x.sent e
  passes : y.Passes d

theorem Port.Passed.trans {d : Direction} {a b : List LineBit} {x y z : Port} (h : x.Passed d a y) (k : y.Passed d b z) :
    x.Passed d (a ++ b) z where
  stream := by rw [k.stream, h.stream, List.append_assoc]
  delay := k.delay.trans h.delay
  other e he := (k.other e he).trans (h.other e he)
  passes := k.passes

section Ports

variable (x y : Port) (d : Direction)

theorem Port.passed_downBit (b : LineBit) (h : x.Passes .down) : x.Passed .down [b] (x.downBit b) where
  stream := x.downBit_stream b
  delay := by
    rcases hd : x.downDelay with _ | ⟨out, rest⟩ <;> simp [Port.downBit, Port.delay, hd]
  other e he := by
    cases e with
    | down => exact absurd rfl he
    | up => rcases hd : x.downDelay with _ | ⟨out, rest⟩ <;> simp [Port.downBit, Port.sent, hd]
  passes := ⟨(x.downBit_only b).forwards.trans h.1, .inl rfl⟩

/-- With nothing of a response and nothing held, the bit out of the delay is sent (R13). -/
theorem Port.relayUp_free (b : LineBit) (hs : x.sending = []) (hh : x.held = []) :
    x.relayUp b = { x with
      markRun := marksAfter x.markRun b, skipping := x.skips b, toCentre := x.toCentre ++ [b],
      upFlags := flagsAfter x.upFlags b } := by
  simp only [Port.relayUp, Port.sendCentre, hs, hh]

theorem Port.passed_upBit (b : LineBit) (h : x.Passes .up) : x.Passed .up [b] (x.upBit b) := by
  obtain ⟨hf, hup⟩ := h
  obtain ⟨hs, hh⟩ : x.sending = [] ∧ x.held = [] := hup.resolve_left nofun
  have hforwards : (x.upBit b).forwards = true := (x.upBit_only b).forwards.trans hf
  have hother (y : Port) (hy : y.toField = x.toField) : ∀ e, e ≠ Direction.up → y.sent e = x.sent e := by
    intro e he
    cases e with
    | up => exact absurd rfl he
    | down => exact hy
  unfold Port.upBit at hforwards ⊢
  split at hforwards
  next hd =>
    rw [x.relayUp_free b hs hh] at hforwards ⊢
    exact ⟨by simp [Port.stream, Port.sent, Port.delay, hd], by simp [Port.delay, hd], hother _ rfl, hforwards, .inr ⟨hs, hh⟩⟩
  next out rest hd =>
    rw [Port.relayUp_free { x with upDelay := rest ++ [b] } out hs hh] at hforwards ⊢
    exact ⟨by simp [Port.stream, Port.sent, Port.delay, hd], by simp [Port.delay, hd], hother _ rfl, hforwards, .inr ⟨hs, hh⟩⟩

theorem Port.passed_foldl {f : Port → LineBit → Port} (hf : ∀ (x : Port) b, x.Passes d → x.Passed d [b] (f x b))
    (bits : List LineBit) (h : x.Passes d) : x.Passed d bits (bits.foldl f x) := by
  induction bits generalizing x with
  | nil => exact ⟨by simp, rfl, fun _ _ => rfl, h⟩
  | cons b bits ih => exact (hf x b h).trans (ih _ (hf x b h).passes)

/-- What arrives on a port that passes it on leaves in its order, the delay between (R13). -/
theorem Port.passed_arrive (bits : List LineBit) (h : x.Passes d) : x.Passed d bits (x.arrive d bits) := by
  unfold Port.arrive
  rw [if_pos h.1]
  cases d with
  | down => exact x.passed_foldl .down Port.passed_downBit bits h
  | up => exact x.passed_foldl .up Port.passed_upBit bits h

@[simp] theorem Port.setRx_sent (e : Direction) (r : Receiver) : (x.setRx e r).sent d = x.sent d := by cases d <;> cases e <;> rfl
@[simp] theorem Port.setRx_delay (e : Direction) (r : Receiver) : (x.setRx e r).delay d = x.delay d := by cases d <;> cases e <;> rfl
@[simp] theorem Port.requiet_sent (now : Nat) : (x.requiet now).sent d = x.sent d := by cases d <;> rfl
@[simp] theorem Port.requiet_delay (now : Nat) : (x.requiet now).delay d = x.delay d := by cases d <;> rfl
@[simp] theorem Port.renewQuiet_sent (now : Nat) : (x.renewQuiet now).sent d = x.sent d := by cases d <;> rfl
@[simp] theorem Port.renewQuiet_delay (now : Nat) : (x.renewQuiet now).delay d = x.delay d := by cases d <;> rfl
@[simp] theorem Port.withRelay_sent : (x.withRelay y).sent d = y.sent d := by cases d <;> rfl
@[simp] theorem Port.withRelay_delay : (x.withRelay y).delay d = y.delay d := by cases d <;> rfl

theorem Port.passes_setRx (e : Direction) (r : Receiver) : (x.setRx e r).Passes d ↔ x.Passes d := by cases e <;> rfl

/-! ## Turned bits (R5, R14) -/

@[simp] theorem Port.turn_sent (e : Direction) (f : LineBit → LineBit) (n : Nat) : (x.turn d f n).sent e = x.sent e := by
  cases d <;> cases e <;> rfl

theorem Port.turn_delay (f : LineBit → LineBit) (n : Nat) :
    (x.turn d f n).delay d = (x.delay d).take ((x.delay d).length - n) ++ ((x.delay d).drop ((x.delay d).length - n)).map f := by
  cases d <;> rfl

theorem Port.turn_passes (f : LineBit → LineBit) (n : Nat) : (x.turn d f n).Passes d ↔ x.Passes d := by cases d <;> rfl

theorem LineBit.asFlag_eq : LineBit.asFlag = fun b => if b = .closing then .closing else .flag := by
  funext b
  cases b <;> simp [LineBit.asFlag]

theorem LineBit.asOpening_eq : LineBit.asOpening = fun b => if b = .flag then .opening else b := by
  funext b
  cases b <;> simp [LineBit.asOpening]

/-- A flag forgotten leaves as one of idle (R5). -/
theorem Port.forgetFlag_pending (c : Capture) (k : Bool) (m : Option Removal) (h : (x.rx d).opening = some ⟨c, k, m, []⟩) :
    x.forgetFlag d = (x.turn d LineBit.asFlag 8).setRx d { x.rx d with opening := none } := by
  simp [Port.forgetFlag, h, Port.blank]

theorem Port.forgetFlag_settled (h : (x.rx d).opening = none ∨ (x.rx d).inFrame = true) : x.forgetFlag d = x := by
  unfold Port.forgetFlag
  split
  next hr =>
    rw [Receiver.inFrame, hr] at h
    simp at h
  next => rfl

@[simp] theorem Port.forgetFlag_sent (e : Direction) : (x.forgetFlag d).sent e = x.sent e := by
  unfold Port.forgetFlag
  split
  · rw [Port.setRx_sent, Port.blank, Port.turn_sent]
  · rfl

theorem Port.forgetFlag_passes (h : x.Passes d) : (x.forgetFlag d).Passes d := by
  unfold Port.forgetFlag
  split
  · exact (Port.passes_setRx _ d d _).mpr ((x.turn_passes d _ _).mpr h)
  · exact h

/-! ## What a part of a frame adds -/

theorem Port.receiveContent_kept {o o' : Opening} (bits : List Bool) (h : o'.removed = false) :
    x.receiveContent d o o' bits = x.arrive d (contentBits o.content bits) := by
  simp [Port.receiveContent, Port.arriveOf, h]

theorem Port.receiveEnd_kept (aborted : Bool) {o o' : Opening} (rest : List Bool) (h : o'.removed = false) :
    x.receiveEnd d aborted o o' rest =
      (x.arrive d (contentBits o.content rest)).arrive d (if aborted then abortBits else closingBits) := by
  rw [Port.receiveEnd, Port.receiveContent_kept x d rest h]
  simp [Port.arriveOf, h]

/-- The rest of a frame that is not removed, and the flag or abort behind it, leave as they came (R13, R14). -/
theorem Port.passed_receiveEnd (aborted : Bool) {o o' : Opening} (rest : List Bool) (h : o'.removed = false) (hp : x.Passes d) :
    x.Passed d (contentBits o.content rest ++ if aborted then abortBits else closingBits) (x.receiveEnd d aborted o o' rest) := by
  rw [Port.receiveEnd_kept x d aborted rest h]
  have hcontent := x.passed_arrive d (contentBits o.content rest) hp
  exact hcontent.trans (Port.passed_arrive _ d _ hcontent.passes)

end Ports

/-! ## The port behind a frame -/

/-- A port of which only the counters and one receiver have moved. -/
def Port.CountsOnly (d : Direction) (x y : Port) : Prop := ∃ r live, y = { x.setRx d r with live := live }

section CountsOnly

variable (s : State) (p : PortId) (d : Direction) {x y z : Port}

theorem Port.CountsOnly.refl (x : Port) : x.CountsOnly d x := ⟨x.rx d, x.live, by rw [Port.setRx_rx]⟩

theorem Port.CountsOnly.trans (h : x.CountsOnly d y) (k : y.CountsOnly d z) : x.CountsOnly d z := by
  obtain ⟨r, live, rfl⟩ := h
  obtain ⟨q, live', rfl⟩ := k
  exact ⟨q, live', by cases d <;> rfl⟩

theorem Port.CountsOnly.sent (h : x.CountsOnly d y) (e : Direction) : y.sent e = x.sent e := by
  obtain ⟨r, live, rfl⟩ := h
  cases d <;> cases e <;> rfl

theorem Port.CountsOnly.delay (h : x.CountsOnly d y) (e : Direction) : y.delay e = x.delay e := by
  obtain ⟨r, live, rfl⟩ := h
  cases d <;> cases e <;> rfl

theorem Port.countsOnly_setRx (x : Port) (r : Receiver) : x.CountsOnly d (x.setRx d r) := ⟨r, x.live, by cases d <;> rfl⟩

theorem Port.countsOnly_countPort (x : Port) (f : PortCounters → PortCounters) : x.CountsOnly d (x.countPort f) :=
  ⟨x.rx d, (x.countPort f).live, by rw [Port.setRx_rx]; rfl⟩

theorem Port.countsOnly_countDir (x : Port) (e : Direction) (f : DirCounters → DirCounters) : x.CountsOnly d (x.countDir e f) :=
  ⟨x.rx d, (x.countDir e f).live, by rw [Port.setRx_rx]; rfl⟩

theorem State.countsOnly_judgeClass (k : FrameClass) : (s.port p).CountsOnly d ((s.judgeClass p d k).port p) := by
  cases k with
  | valid =>
    show (s.port p).CountsOnly d ((s.restartLife p d).port p)
    rw [State.restartLife_eq, State.setJournal_port, State.port_setPort_same]
    exact Port.countsOnly_setRx d _ _
  | checkFailure =>
    show (s.port p).CountsOnly d ((s.countCheckFailure p d).port p)
    rw [State.countCheckFailure_eq, State.setJournal_port, State.port_setPort_same]
    exact Port.countsOnly_setRx d _ _
  | _ => exact .refl d _

theorem State.countsOnly_discardTelegram : (s.port p).CountsOnly d ((s.discardTelegram p).port p) := by
  rw [State.discardTelegram, State.port_setPort_same]
  exact Port.countsOnly_countPort d _ _

theorem State.takeRequest_port_same (octets : List Byte) :
    (s.takeRequest p octets).port p = (s.port p).countPort (if s.service.queue.length < 8 then
      fun c => { c with taken := raise32 c.taken } else fun c => { c with discarded := raise32 c.discarded }) := by
  unfold State.takeRequest State.discardTelegram
  split
  · exact State.port_setPort_same s p _
  · exact State.port_setPort_same s p _

theorem State.countsOnly_judgeRemoval (k : FrameClass) (o : Opening) :
    (s.port p).CountsOnly d ((s.judgeRemoval p d k o).port p) := by
  unfold State.judgeRemoval
  dsimp only
  split
  · split
    · rw [State.takeRequest_port_same]
      exact Port.countsOnly_countPort d _ _
    · exact s.countsOnly_discardTelegram p d
  · split
    · exact s.countsOnly_discardTelegram p d
    · exact .refl d _

theorem State.TablesOnly.port {s t : State} (h : s.TablesOnly t) (q : PortId) : t.port q = s.port q := by
  rw [h.eq]
  rfl

theorem State.countsOnly_interpret (octets : List Byte) (c : Capture) :
    (s.port p).CountsOnly d ((s.interpret p d octets c).port p) := by
  rcases s.interpret_cases p d octets c with ⟨e, f, h⟩ | h
  · rw [h, State.port_setPort_same]
    exact Port.countsOnly_countDir d _ e f
  · rw [h.port]
    exact .refl d _

/-- A frame that ends leaves its port as its end found it, but for its receiver and the counters. -/
theorem State.closeFrame_port (aborted : Bool) (o : Opening) (rest : List Bool) (h : aborted = true ∨ o.content ++ rest ≠ []) :
    (s.closedPort p d aborted o rest).CountsOnly d ((s.closeFrame p d aborted o rest).port p) := by
  rw [State.closeFrame_eq s p d aborted o rest h]
  dsimp only
  generalize classify aborted (o.content ++ rest) = k
  generalize hu : ((s.setPort p (s.closedPort p d aborted o rest)).judgeClass p d k).judgeRemoval p d k (s.extend p d o rest) = u
  have hjudged : (s.closedPort p d aborted o rest).CountsOnly d (u.port p) := by
    have hclass := State.countsOnly_judgeClass (s.setPort p (s.closedPort p d aborted o rest)) p d k
    rw [State.port_setPort_same] at hclass
    rw [← hu]
    exact hclass.trans d (State.countsOnly_judgeRemoval _ p d k _)
  split
  · exact hjudged.trans d (State.countsOnly_interpret u p d _ _)
  · exact hjudged

/-- The stream behind a frame is that of the bits that its end brought. -/
theorem State.closeFrame_stream (aborted : Bool) (o : Opening) (rest : List Bool) (h : aborted = true ∨ o.content ++ rest ≠ [])
    (e : Direction) :
    ((s.closeFrame p d aborted o rest).port p).stream e =
      ((s.port p).receiveEnd d aborted o (s.extend p d o rest) rest).stream e := by
  have hport := s.closeFrame_port p d aborted o rest h
  rw [Port.stream, hport.sent, hport.delay, State.closedPort, Port.renewQuiet_sent, Port.renewQuiet_delay, Port.withRelay_sent,
    Port.withRelay_delay, Port.stream]

end CountsOnly

end Sys2Proof.Machine
end

