-- ==== Sys2Proof/Proofs/Passage.lean ====
section
/-! PROOFS. Sys2Proof/Proofs/Passage.lean: what arrives leaves in its order, part by part of every frame that is not removed (R5, R13, R14). -/

namespace Sys2Proof.Machine

section Facts

variable (s : State) (p : PortId) (d : Direction)

/-- Bits outside a frame leave as they came (R13). -/
theorem State.strayBits_stream (stray : List Bool) (bits : List LineBit) (h : (s.port p).Passes d) :
    s.strayBits p d stray bits = s.setPort p ((s.strayBits p d stray bits).port p) ∧
      (((s.strayBits p d stray bits).port p).rx d).stray = stray ∧
      ((s.strayBits p d stray bits).port p).stream d = (s.port p).stream d ++ bits ∧
      ((s.strayBits p d stray bits).port p).Passes d := by
  have hpassed := (s.port p).passed_arrive d bits h
  unfold State.strayBits
  dsimp only
  rw [State.port_setPort_same]
  refine ⟨rfl, ?_, ?_, ?_⟩
  · rw [Port.requiet_rx, Port.rx_setRx_same]
  · rw [Port.stream, Port.requiet_sent, Port.requiet_delay, Port.setRx_sent, Port.setRx_delay, ← Port.stream, hpassed.stream]
  · exact (Port.passes_setRx _ d d _).mpr hpassed.passes

theorem State.idleFlags_port (bits : List LineBit) :
    (s.idleFlags p d bits).port p = (((s.port p).forgetFlag d).arrive d bits).requiet s.tb.instant := by
  rw [State.idleFlags, State.port_setPort_same]

/-- A frame of which nothing is removed by its next content: none is decided on, and the content decides none. -/
theorem State.extend_kept (o : Opening) (bits : List Bool)
    (h : (∃ a, o.removal = some ⟨false, a⟩) ∨ (o.removal = none ∧ (d = .up ∨ (o.content ++ bits).length < 16 ∨ o.collided = true ∨
      serviceHeader s.straps (octetsOf ((o.content ++ bits).take 16)) = false))) :
    (s.extend p d o bits).removed = false := by
  rw [Bool.eq_false_iff, Ne, State.extend_removed]
  rintro (⟨a, ha⟩ | ⟨hr, rfl, hl, -, hc, hh⟩)
  · rcases h with ⟨b, hb⟩ | ⟨hr, -⟩
    · rw [ha] at hb
      simp at hb
    · rw [ha] at hr
      cases hr
  · rcases h with ⟨b, hb⟩ | ⟨-, hd | hd | hd | hd⟩
    · rw [hr] at hb
      cases hb
    · cases hd
    · omega
    · rw [hc] at hd
      cases hd
    · rw [hh] at hd
      cases hd

/-- A frame that is not removed leaves with the flag or abort behind it (R13). -/
theorem State.frame_stream (aborted : Bool) (o : Opening) (rest : List Bool) (hs : s.initialising = false)
    (ho : ((s.port p).rx d).opening = some o) (hp : (s.port p).Passes d) (hkept : (s.extend p d o rest).removed = false)
    (h : aborted = true ∨ o.content ++ rest ≠ []) :
    ∃ u : State, exec (.frameReceived p d (if aborted then .aborted rest else .closed rest)) s = .next u ∧
      (u.port p).stream d = (s.port p).stream d ++ contentBits o.content rest ++ (if aborted then abortBits else closingBits) := by
  refine ⟨s.closeFrame p d aborted o rest, ?_, ?_⟩
  · rw [exec_frameReceived_eq s p d _ hs]
    cases aborted
    · exact congrArg _ (s.receive_closed p d o rest ho)
    · exact congrArg _ (s.receive_aborted p d o rest ho)
  · rw [State.closeFrame_stream s p d aborted o rest h, ((s.port p).passed_receiveEnd d aborted rest hkept hp).stream,
      List.append_assoc]

/-- Content of a frame that is not removed leaves as it arrives (R13). -/
theorem State.content_stream (o : Opening) (bits : List Bool) (hs : s.initialising = false)
    (ho : ((s.port p).rx d).opening = some o) (hp : (s.port p).Passes d) (hkept : (s.extend p d o bits).removed = false) :
    ∃ u : State, exec (.frameReceived p d (.content bits)) s = .next u ∧ u = s.setPort p (u.port p) ∧
      (u.port p).stream d = (s.port p).stream d ++ contentBits o.content bits := by
  refine ⟨_, exec_frameReceived_eq s p d _ hs, ?_⟩
  cases bits with
  | nil =>
    have hnil : s.receive p d (.content []) = s := by simp [State.receive, State.takeContent, ho]
    rw [hnil, State.setPort_port, contentBits_nil, List.append_nil]
    exact ⟨rfl, rfl⟩
  | cons b bits =>
    rw [s.receive_content p d o b bits ho, State.beginFrame_frameContent, State.port_setPort_same]
    refine ⟨rfl, ?_⟩
    rw [Port.stream, Port.withRelay_sent, Port.withRelay_delay, Port.receiveContent_kept _ d _ hkept, ← Port.stream,
      ((s.port p).passed_arrive d _ hp).stream]

/-- Content outside a frame leaves as it arrives, and so does the flag or abort behind it (R5, R13). -/
theorem State.stray_stream (bits : List Bool) (hs : s.initialising = false) (ho : ((s.port p).rx d).opening = none)
    (hp : (s.port p).Passes d) :
    (∃ u : State, exec (.frameReceived p d (.content bits)) s = .next u ∧ u = s.setPort p (u.port p) ∧
      ((u.port p).rx d).stray = ((s.port p).rx d).stray ++ bits ∧
      (u.port p).stream d = (s.port p).stream d ++ contentBits ((s.port p).rx d).stray bits) ∧
    ∀ aborted : Bool, ∃ u : State, exec (.frameReceived p d (if aborted then .aborted bits else .closed bits)) s = .next u ∧
      ((u.port p).rx d).stray = [] ∧ (u.port p).stream d = (s.port p).stream d ++ contentBits ((s.port p).rx d).stray bits ++
        strayEnd aborted (((s.port p).rx d).stray ++ bits) := by
  have hcontent : s.receive p d (.content bits) = s.strayContent p d bits := by simp [State.receive, State.takeContent, ho]
  obtain ⟨hset, hstray, hstream, hpasses⟩ :=
    s.strayBits_stream p d (((s.port p).rx d).stray ++ bits) (contentBits ((s.port p).rx d).stray bits) hp
  refine ⟨⟨_, exec_frameReceived_eq s p d _ hs, ?_⟩, fun aborted => ⟨_, exec_frameReceived_eq s p d _ hs, ?_⟩⟩
  · rw [hcontent]
    exact ⟨hset, hstray, hstream⟩
  · have hend : s.receive p d (if aborted then .aborted bits else .closed bits) =
        (s.strayContent p d bits).strayBits p d [] (strayEnd aborted (((s.port p).rx d).stray ++ bits)) := by
      cases aborted <;> simp [State.receive, State.takeEnd, ho]
    obtain ⟨-, hnone, hend', -⟩ := State.strayBits_stream (s.strayContent p d bits) p d []
      (strayEnd aborted (((s.port p).rx d).stray ++ bits)) hpasses
    rw [hend]
    exact ⟨hnone, by rw [hend', State.strayContent, hstream]⟩

/-- The port as an opening flag finds its line, as far as the relay goes. -/
theorem State.openFrame_relay (shared : Bool) :
    s.openFrame p d shared = s.setPort p ((s.openFrame p d shared).port p) ∧
      (∀ e, ((s.openFrame p d shared).port p).sent e = ((s.port p).opened d shared).sent e) ∧
      ∀ e, ((s.openFrame p d shared).port p).delay e = ((s.port p).opened d shared).delay e := by
  rw [State.openFrame_eq, State.port_setPort_same]
  refine ⟨rfl, fun e => ?_, fun e => ?_⟩
  · rw [Port.requiet_sent, Port.withRelay_sent]
  · rw [Port.requiet_delay, Port.withRelay_delay]

theorem Port.opened_own (x : Port) : x.opened d false = (x.forgetFlag d).arrive d openingBits := rfl
theorem Port.opened_shared (x : Port) : x.opened d true = (x.forgetFlag d).turn d LineBit.asOpening 8 := rfl

/-- Behind a flag of its own, a frame opens with eight bits more (R5). -/
theorem Port.opened_own_stream (x : Port) (h : x.Passes d) :
    (x.opened d false).stream d = (x.forgetFlag d).stream d ++ openingBits ∧
      ∀ e, e ≠ d → (x.opened d false).sent e = x.sent e := by
  have hpassed := Port.passed_arrive _ d openingBits (x.forgetFlag_passes d h)
  rw [Port.opened_own]
  exact ⟨hpassed.stream, fun e he => (hpassed.other e he).trans (x.forgetFlag_sent d e)⟩

/-- A flag shared with what came before becomes the opening flag where it stands (R5). -/
theorem Port.opened_shared_delay (x : Port) (h : ((x.forgetFlag d).delay d).length = 40) :
    (∀ e, (x.opened d true).sent e = x.sent e) ∧
      (x.opened d true).delay d = ((x.forgetFlag d).delay d).take 32 ++ (((x.forgetFlag d).delay d).drop 32).map LineBit.asOpening := by
  refine ⟨fun e => ?_, ?_⟩
  · rw [Port.opened_shared, Port.turn_sent, Port.forgetFlag_sent]
  · rw [Port.opened_shared, Port.turn_delay, h]

/-- The delay once the flag that came last is known to have opened no frame (R5). -/
theorem Port.forgetFlag_delay (x : Port) (c : Capture) (k : Bool) (m : Option Removal)
    (h : (x.rx d).opening = some ⟨c, k, m, []⟩) (hl : (x.delay d).length = 40) :
    (x.forgetFlag d).delay d = (x.delay d).take 32 ++ ((x.delay d).drop 32).map LineBit.asFlag := by
  rw [Port.forgetFlag_pending x d c k m h, Port.setRx_delay, Port.turn_delay, hl]

theorem Port.passes_up_of_free {x : Port} (hf : x.forwards = true) (hs : x.sending = []) (hh : x.held = []) : x.Passes .up :=
  ⟨hf, .inr ⟨hs, hh⟩⟩

end Facts

/-- Settles O11: the stream of each direction behind idle, openings, content and ends. -/
theorem relayPassesBitsInOrder : Obligations.RelayPassesBitsInOrder := by
  refine ⟨?_, ?_, ?_, ?_, ?_, ?_, ?_, ?_, contentBits_append⟩
  case refine_1 =>
    intro x bits
    refine ⟨fun hf hj => ⟨x.arrive_silent .down bits hf hj, x.arrive_silent .up bits hf hj⟩,
      fun hj => ⟨x.arrive_joining .down bits hj, x.arrive_joining .up bits hj⟩, fun hf => ?_, fun hf hs hh => ?_⟩
    · have hpassed := x.passed_arrive .down bits ⟨hf, .inl rfl⟩
      exact ⟨hpassed.stream, hpassed.delay, hpassed.other .up nofun⟩
    · have hpassed := x.passed_arrive .up bits (Port.passes_up_of_free hf hs hh)
      exact ⟨hpassed.stream, hpassed.delay, hpassed.other .down nofun⟩
  case refine_2 =>
    intro s p marks n hs hf
    refine ⟨fun ho => ?_, fun c k m ho hl => ?_⟩
    · refine ⟨_, exec_frameReceived_eq s p .down _ hs, ?_⟩
      have hidle : s.receive p .down (.idle marks n) = s.strayBits p .down [] (List.replicate n (if marks then .mark else .flag)) := by
        show s.takeIdle p .down _ = _
        unfold State.takeIdle
        split
        · rfl
        next o hsome =>
          have hframe : o.content ≠ [] := by
            rintro he
            have hsome' : (s.port p).downRx.opening = some o := hsome
            rcases ho with ho | ho
            · rw [ho] at hsome'
              cases hsome'
            · simp [Receiver.inFrame, hsome', he] at ho
          exact if_neg hframe
      obtain ⟨hset, -, hstream, -⟩ :=
        s.strayBits_stream p .down [] (List.replicate n (if marks then .mark else .flag)) ⟨hf, .inl rfl⟩
      rw [hidle]
      exact ⟨hset, hstream⟩
    · refine ⟨_, exec_frameReceived_eq s p .down _ hs, ?_⟩
      have hidle : s.receive p .down (.idle marks n) = s.idleFlags p .down (List.replicate n (if marks then .mark else .flag)) := by
        have ho' : ((s.port p).rx .down).opening = some ⟨c, k, m, []⟩ := ho
        simp [State.receive, State.takeIdle, ho']
      have hpassed := Port.passed_arrive _ .down (List.replicate n (if marks then .mark else .flag))
        ((s.port p).forgetFlag_passes .down ⟨hf, .inl rfl⟩)
      have hrx : (((s.port p).forgetFlag .down).rx .down).opening = none := by
        rw [Port.forgetFlag_pending _ .down c k m ho, Port.rx_setRx_same]
      have hport := s.idleFlags_port p .down (List.replicate n (if marks then .mark else .flag))
      rw [hidle]
      refine ⟨?_, ?_, ?_⟩
      · rw [hport]
        rfl
      · rw [hport]
        exact (congrArg Receiver.opening ((Port.arrive_only _ .down _).rx .down)).trans hrx
      · have hstream := hpassed.stream
        rw [Port.stream, Port.stream, Port.forgetFlag_sent, Port.forgetFlag_delay .down _ c k m ho hl, LineBit.asFlag_eq,
          ← List.append_assoc] at hstream
        rw [hport]
        exact hstream
  case refine_3 =>
    intro s p o rest a hs hf ho hr hne
    have hkept := s.extend_kept p .down o rest (.inl ⟨a, hr⟩)
    exact ⟨s.frame_stream p .down false o rest hs ho ⟨hf, .inl rfl⟩ hkept (.inr hne),
      s.frame_stream p .down true o rest hs ho ⟨hf, .inl rfl⟩ hkept (.inl rfl)⟩
  case refine_4 =>
    intro s p o rest hs hf ho hr hd
    have hkept := s.extend_kept p .down o rest (.inr ⟨hr, .inr hd⟩)
    exact ⟨fun hne => s.frame_stream p .down false o rest hs ho ⟨hf, .inl rfl⟩ hkept (.inr hne),
      s.frame_stream p .down true o rest hs ho ⟨hf, .inl rfl⟩ hkept (.inl rfl)⟩
  case refine_5 =>
    intro s p o rest hs hf hsend hheld ho hr hne
    have hkept := s.extend_kept p .up o rest (.inr ⟨hr, .inl rfl⟩)
    have hp := Port.passes_up_of_free hf hsend hheld
    exact ⟨s.frame_stream p .up false o rest hs ho hp hkept (.inr hne), s.frame_stream p .up true o rest hs ho hp hkept (.inl rfl)⟩
  case refine_6 =>
    intro s p bits hs hf
    have hflags (d : Direction) : strayEnd false (((s.port p).rx d).stray ++ bits) =
        List.replicate 8 (if ((s.port p).rx d).stray ++ bits = [] then .flag else .closing) := by
      unfold strayEnd
      split
      next h => cases h
      · split <;> rfl
    refine ⟨fun ho => ?_, fun ho hsend hheld => ?_⟩
    · obtain ⟨hcontent, hend⟩ := s.stray_stream p .down bits hs ho ⟨hf, .inl rfl⟩
      obtain ⟨u, hu, hstray, hstream⟩ := hend false
      exact ⟨hcontent, u, hu, hstray, hstream.trans (by rw [hflags]; rfl)⟩
    · obtain ⟨hcontent, hend⟩ := s.stray_stream p .up bits hs ho (Port.passes_up_of_free hf hsend hheld)
      obtain ⟨u, hu, hstray, hstream⟩ := hend false
      exact ⟨hcontent, ⟨u, hu, hstray, hstream.trans (by rw [hflags]; rfl)⟩, hend true⟩
  case refine_7 =>
    intro s p hs hf
    have hown (d : Direction) (hp : (s.port p).Passes d)
        (ho : ((s.port p).rx d).opening = none ∨ ((s.port p).rx d).inFrame = true) :
        ((s.openFrame p d false).port p).stream d = (s.port p).stream d ++ openingBits := by
      obtain ⟨-, hsent, hdelay⟩ := s.openFrame_relay p d false
      rw [Port.stream, hsent, hdelay, ← Port.stream, ((s.port p).opened_own_stream d hp).1, (s.port p).forgetFlag_settled d ho]
    have hshared (d : Direction) (ho : ((s.port p).rx d).opening = none ∨ ((s.port p).rx d).inFrame = true)
        (hl : ((s.port p).delay d).length = 40) :
        ((s.openFrame p d true).port p).sent d = (s.port p).sent d ∧
          ((s.openFrame p d true).port p).delay d = ((s.port p).delay d).take 32 ++
            (((s.port p).delay d).drop 32).map (fun b => if b = .flag then .opening else b) := by
      obtain ⟨-, hsent, hdelay⟩ := s.openFrame_relay p d true
      have hflag := (s.port p).forgetFlag_settled d ho
      obtain ⟨hsent', hdelay'⟩ := (s.port p).opened_shared_delay d (by rw [hflag]; exact hl)
      rw [hsent, hdelay, hsent', hdelay', hflag, LineBit.asOpening_eq]
      exact ⟨rfl, rfl⟩
    refine ⟨fun shared => ⟨_, exec_frameReceived_eq s p .down _ hs, (s.openFrame_relay p .down shared).1, ?_, ?_, ?_⟩,
      fun shared hsend hheld ho => ⟨_, exec_frameReceived_eq s p .up _ hs, (s.openFrame_relay p .up shared).1, ?_, ?_, ?_⟩⟩
    · obtain ⟨-, hsent, -⟩ := s.openFrame_relay p .down shared
      refine (hsent .up).trans ?_
      cases shared with
      | false => exact ((s.port p).opened_own_stream .down ⟨hf, .inl rfl⟩).2 .up nofun
      | true => rw [Port.opened_shared, Port.turn_sent, Port.forgetFlag_sent]; rfl
    · intro ho
      refine ⟨?_, ?_⟩
      · rintro rfl
        exact hown .down ⟨hf, .inl rfl⟩ ho
      · rintro rfl hl
        exact hshared .down ho hl
    · intro c k m ho hl
      have hflag := (s.port p).forgetFlag_delay .down c k m ho hl
      obtain ⟨-, hsent, hdelay⟩ := s.openFrame_relay p .down shared
      refine ⟨?_, ?_⟩
      · rintro rfl
        have hstream := ((s.port p).opened_own_stream .down ⟨hf, .inl rfl⟩).1
        rw [Port.stream, Port.stream, ← hsent, ← hdelay, Port.forgetFlag_sent, hflag, LineBit.asFlag_eq, ← List.append_assoc] at hstream
        exact hstream
      · rintro rfl
        have hlen : (((s.port p).forgetFlag .down).delay .down).length = 40 := by
          have hl' : ((s.port p).delay .down).length = 40 := hl
          rw [hflag]
          simp [hl']
        obtain ⟨hsent', hdelay'⟩ := (s.port p).opened_shared_delay .down hlen
        refine ⟨(hsent .down).trans (hsent' .down), (hdelay .down).trans (hdelay'.trans ?_)⟩
        have hl' : ((s.port p).delay .down).length = 40 := hl
        have hturned : LineBit.asOpening ∘ LineBit.asFlag = fun b => if b = .closing then .closing else .opening := by
          funext b
          cases b <;> simp [LineBit.asOpening, LineBit.asFlag]
        rw [hflag, List.take_append_of_le_length (by simp [hl']), List.drop_append_of_le_length (by simp [hl'])]
        simp [hturned, Port.delay]
    · obtain ⟨-, hsent, -⟩ := s.openFrame_relay p .up shared
      refine (hsent .down).trans ?_
      cases shared with
      | false => exact ((s.port p).opened_own_stream .up (Port.passes_up_of_free hf hsend hheld)).2 .down nofun
      | true => rw [Port.opened_shared, Port.turn_sent, Port.forgetFlag_sent]; rfl
    · rintro rfl
      exact hown .up (Port.passes_up_of_free hf hsend hheld) ho
    · rintro rfl hl
      exact hshared .up ho hl
  case refine_8 =>
    intro s p o bits hs hf
    refine ⟨fun ho hr => ?_, fun ho hr hsend hheld => ?_⟩
    · exact s.content_stream p .down o bits hs ho ⟨hf, .inl rfl⟩
        (s.extend_kept p .down o bits (hr.imp id fun ⟨h, k⟩ => ⟨h, .inr k⟩))
    · exact s.content_stream p .up o bits hs ho (Port.passes_up_of_free hf hsend hheld) (s.extend_kept p .up o bits (.inr ⟨hr, .inl rfl⟩))

end Sys2Proof.Machine
end

