-- ==== Sys2Proof/Proofs/Removal.lean ====
section
/-! PROOFS. Sys2Proof/Proofs/Removal.lean: service telegrams for the part: their removal, and what becomes of them (R8, R14, R170). -/

namespace Sys2Proof.Machine

section Facts

variable (s : State) (p : PortId)

/-! ## The place of a removed frame (R14) -/

/-- Flags arrive in the place of what is removed, where the port does not join. -/
theorem Port.arriveOf_removed (x : Port) (o : Opening) (bits : List LineBit) (ho : o.removed = true) (hj : x.state ≠ .joining) :
    ∃ m, (x.arriveOf .down o bits).stream .down = x.stream .down ++ List.replicate m .flag ∧
      (x.forwards = true → m = bits.length) := by
  unfold Port.arriveOf
  rw [if_pos ho]
  by_cases hf : x.forwards = true
  · exact ⟨bits.length, (x.passed_arrive .down _ ⟨hf, .inl rfl⟩).stream, fun _ => rfl⟩
  · rw [x.arrive_silent .down _ (by simpa using hf) hj]
    exact ⟨0, by simp, fun h => absurd h hf⟩

/-- The delay with the bits of a frame that begins to be removed turned into flags, its closing flags staying (R14). -/
def takenBack (n : Nat) (delay : List LineBit) : List LineBit :=
  delay.take n ++ (delay.drop n).map fun b => if b = .closing then .closing else .flag

theorem Port.blank_stream (x : Port) (o : Opening) (h : x.downDelay.length = 40) :
    (x.blank .down o.bitsSoFar).stream .down =
      x.toField ++ takenBack (32 - (contentBits [] o.content).length) x.downDelay := by
  have hn : 40 - o.bitsSoFar = 32 - (contentBits [] o.content).length := by
    unfold Opening.bitsSoFar
    omega
  have hl : (x.delay .down).length = 40 := h
  rw [Port.stream, Port.blank, Port.turn_sent, Port.turn_delay, hl, hn, LineBit.asFlag_eq]
  rfl

/-- Content that decides a removal takes back what is still in the delay (R14). -/
theorem Port.receiveContent_decides (x : Port) (o o' : Opening) (bits : List Bool) (ho : o.removed = false) (ho' : o'.removed = true)
    (hf : x.forwards = true) (hl : x.downDelay.length = 40) :
    (x.receiveContent .down o o' bits).stream .down =
      x.toField ++ takenBack (32 - (contentBits [] o.content).length) x.downDelay ++
        List.replicate (contentBits o.content bits).length .flag := by
  have hblank : (x.blank .down o.bitsSoFar).forwards = true := (x.turn_only .down _ _).forwards.trans hf
  have hj : (x.blank .down o.bitsSoFar).state ≠ .joining := by
    intro hj
    simp [Port.forwards, hj] at hblank
  obtain ⟨m, hstream, hm⟩ := Port.arriveOf_removed _ o' (contentBits o.content bits) ho' hj
  unfold Port.receiveContent
  rw [ho, ho']
  simp only [Bool.not_false, Bool.and_self, if_true]
  rw [hstream, hm hblank, x.blank_stream o hl]

theorem Port.receiveContent_removed (x : Port) (o o' : Opening) (bits : List Bool) (ho : o.removed = true) (ho' : o'.removed = true)
    (hj : x.state ≠ .joining) :
    ∃ m, (x.receiveContent .down o o' bits).stream .down = x.stream .down ++ List.replicate m .flag := by
  obtain ⟨m, hstream, -⟩ := x.arriveOf_removed o' (contentBits o.content bits) ho' hj
  unfold Port.receiveContent
  rw [ho, ho']
  exact ⟨m, hstream⟩

/-- The line behind a removed frame: what was in the delay before it, and flags (R14). -/
theorem Port.receiveEnd_removed (x : Port) (aborted : Bool) (o o' : Opening) (rest : List Bool) (n : Nat) (ho' : o'.removed = true)
    (hj : x.state ≠ .joining) (hn : n = (if o.removal = none then 32 - (contentBits [] o.content).length else 40))
    (h : (∃ a, o.removal = some ⟨true, a⟩) ∨ (o.removal = none ∧ x.forwards = true))
    (hl : x.downDelay.length = 40 ∨ o.removal ≠ none) :
    ∃ m, (x.receiveEnd .down aborted o o' rest).stream .down = x.toField ++ x.downDelay.take n ++
      (x.downDelay.drop n).map (fun b => if n < 40 ∧ b ≠ .closing then .flag else b) ++ List.replicate m .flag := by
  have hcontent : ∃ m, (x.receiveContent .down o o' rest).stream .down = x.toField ++ x.downDelay.take n ++
      (x.downDelay.drop n).map (fun b => if n < 40 ∧ b ≠ .closing then .flag else b) ++ List.replicate m .flag := by
    rcases h with ⟨a, hr⟩ | ⟨hr, hf⟩
    · obtain ⟨m, hm⟩ := x.receiveContent_removed o o' rest (by simp [Opening.removed, hr]) ho' hj
      have hn' : n = 40 := by simpa [hr] using hn
      refine ⟨m, hm.trans ?_⟩
      subst hn'
      simp [Port.stream, Port.sent, Port.delay]
    · have hl' : x.downDelay.length = 40 := hl.resolve_right fun hne => hne hr
      have hn' : n = 32 - (contentBits [] o.content).length := by simpa [hr] using hn
      have hturned : (fun b : LineBit => if n < 40 ∧ b ≠ .closing then LineBit.flag else b) =
          fun b => if b = .closing then .closing else .flag := by
        have hlt : n < 40 := by omega
        funext b
        cases b <;> simp [hlt]
      refine ⟨(contentBits o.content rest).length, (x.receiveContent_decides o o' rest (by simp [Opening.removed, hr]) ho' hf hl').trans ?_⟩
      rw [hturned, ← hn', takenBack, ← List.append_assoc]
  obtain ⟨m, hm⟩ := hcontent
  obtain ⟨k, hk, -⟩ := Port.arriveOf_removed (x.receiveContent .down o o' rest) o' (if aborted then abortBits else closingBits) ho'
    (by rw [(x.receiveContent_only .down o o' rest).state]; exact hj)
  refine ⟨m + k, ?_⟩
  rw [Port.receiveEnd, hk, hm, List.append_assoc _ (List.replicate m _), List.replicate_append_replicate]

/-! ## The request queue (R170) -/

theorem State.takeRequest_eq (octets : List Byte) :
    s.takeRequest p octets =
      { s.setPort p ((s.port p).countPort (if s.service.queue.length < 8 then
          fun c => { c with taken := raise32 c.taken } else fun c => { c with discarded := raise32 c.discarded })) with
        service := if s.service.queue.length < 8 then Service.take { s.service with
          queue := s.service.queue ++ [⟨octets.getD 2 0, ⟨p, octets.getD 3 0, octets.drop 4⟩⟩] } else s.service } := by
  unfold State.takeRequest State.discardTelegram
  split <;> rfl

/-- The judgement of a class other than valid: a check failure alone is more than a count (R5, R21). -/
theorem State.judgeClass_invalid (d : Direction) (k : FrameClass) (hk : k ≠ .valid) :
    s.judgeClass p d k =
      (s.setPort p ((s.port p).setRx d (if k = .checkFailure then (s.port p).failedRx d else (s.port p).rx d))).setJournal
        (if k == .checkFailure && (s.port p).raisesErrorRate d then
          (s.withRecord (s.levelOf .link) (.linkCondition p d .errorRate true)).journal else s.journal) := by
  cases k with
  | valid => exact absurd rfl hk
  | checkFailure => exact s.countCheckFailure_eq p d
  | _ =>
    simp only [reduceCtorEq, if_false, Port.setRx_rx, State.setPort_port]
    rfl

theorem State.setJournal_setPort (j : Journal) (x : Port) : (s.setJournal j).setPort p x = (s.setPort p x).setJournal j := rfl

/-- The removal decision stands at the end of the frame as its content made it (R14). -/
theorem State.extend_removal_decided (o : Opening) (rest : List Bool) (accepted : Bool)
    (h : o.removal = some ⟨true, accepted⟩ ∨ (o.removal = none ∧ o.collided = false ∧ (s.port p).forwards = true ∧
      o.content.length < 16 ∧ 16 ≤ (o.content ++ rest).length ∧ accepted = (s.port p).accept ∧
      serviceHeader s.straps (octetsOf ((o.content ++ rest).take 16)) = true)) :
    (s.extend p .down o rest).removal = some ⟨true, accepted⟩ := by
  rcases h with h | ⟨hr, hc, hf, -, hl, ha, hh⟩
  · exact s.extend_removal_some p .down o rest _ h
  · rw [s.extend_removal_down p o rest hr, if_pos ⟨hl, hf, hc⟩, hh, ha]

/-- A valid frame that is removed is offered to the request queue, or discarded; a service telegram is not interpreted (R14, R18). -/
theorem State.closeFrame_removed_valid (o : Opening) (rest : List Bool) (accepted : Bool)
    (hremoval : (s.extend p .down o rest).removal = some ⟨true, accepted⟩) (hk : classify false (o.content ++ rest) = .valid)
    (hkind : telegramKind (telegramOctets (o.content ++ rest)) = 12) :
    s.closeFrame p .down false o rest =
      if accepted = true then (s.validated p .down o rest).takeRequest p (telegramOctets (o.content ++ rest))
      else (s.validated p .down o rest).discardTelegram p := by
  have hjudged : (s.validated p .down o rest).judgeRemoval p .down .valid (s.extend p .down o rest) =
      if accepted = true then (s.validated p .down o rest).takeRequest p (telegramOctets (o.content ++ rest))
      else (s.validated p .down o rest).discardTelegram p := by
    cases accepted with
    | true => exact State.judgeRemoval_taken _ p .down _ hremoval
    | false => exact State.judgeRemoval_discarded _ p .down _ _ hremoval
  rw [State.closeFrame_eq s p .down false o rest (.inr (ne_nil_of_classify (.inl hk)))]
  dsimp only
  rw [hk, State.judgeClass_valid, hjudged, State.interpret_other _ _ _ _ _ (by omega) (by omega) (by omega), ite_self]

/-- The state behind a valid frame that is removed: its service unit and one counter of its port tell which way it went (R14, R170). -/
theorem State.removed_valid (o : Opening) (rest : List Bool) (accepted : Bool)
    (hremoval : (s.extend p .down o rest).removal = some ⟨true, accepted⟩) (hk : classify false (o.content ++ rest) = .valid)
    (hkind : telegramKind (telegramOctets (o.content ++ rest)) = 12) :
    s.closeFrame p .down false o rest =
      { (s.validated p .down o rest).setPort p (((s.validated p .down o rest).port p).countPort
          (if accepted = true ∧ s.service.queue.length < 8 then fun c => { c with taken := raise32 c.taken }
          else fun c => { c with discarded := raise32 c.discarded })) with
        service := if accepted = true ∧ s.service.queue.length < 8 then Service.take { s.service with
          queue := s.service.queue ++ [⟨(telegramOctets (o.content ++ rest)).getD 2 0,
            ⟨p, (telegramOctets (o.content ++ rest)).getD 3 0, (telegramOctets (o.content ++ rest)).drop 4⟩⟩] } else s.service } := by
  rw [s.closeFrame_removed_valid p o rest accepted hremoval hk hkind]
  have hservice : (s.validated p .down o rest).service = s.service := rfl
  cases accepted with
  | true =>
    rw [if_pos rfl, State.takeRequest_eq, hservice]
    simp only [true_and]
  | false =>
    simp only [Bool.false_eq_true, false_and, if_false]
    rfl

theorem State.validated_live_dir (d : Direction) (o : Opening) (rest : List Bool) (hk : classify false (o.content ++ rest) = .valid) :
    ((s.validated p d o rest).port p).live.dir d =
      { (s.port p).live.dir d with valid := raise32 ((s.port p).live.dir d).valid } := by
  rw [State.validated_port_same, Port.setRx_live, State.closedPort_live_dir, hk]
  rfl

theorem State.validated_live_port (d : Direction) (o : Opening) (rest : List Bool) :
    ((s.validated p d o rest).port p).live.port = { (s.port p).live.port with
      collisions := if o.collided = true ∧ o.content = [] then raise32 (s.port p).live.port.collisions
        else (s.port p).live.port.collisions } := by
  rw [State.validated_port_same, Port.setRx_live, State.closedPort_live_port]

theorem State.validated_rx (d : Direction) (o : Opening) (rest : List Bool) :
    ((s.validated p d o rest).port p).rx d =
      { (s.port p).rx d with opening := none, lifeSince := some s.tb.instant, silent := false } := by
  rw [State.validated_port_same, Port.rx_setRx_same]

@[simp] theorem Port.countPort_live_port (x : Port) (f : PortCounters → PortCounters) :
    (x.countPort f).live.port = f x.live.port := rfl

theorem Port.countPort_live (x : Port) (f : PortCounters → PortCounters) :
    (x.countPort f).live = { x.live with port := f x.live.port } := rfl

theorem State.closedPort_raises (d : Direction) (aborted : Bool) (o : Opening) (rest : List Bool) :
    (s.closedPort p d aborted o rest).raisesErrorRate d = (s.port p).raisesErrorRate d := by
  simp [Port.raisesErrorRate]

theorem State.closedPort_failedRx (d : Direction) (aborted : Bool) (o : Opening) (rest : List Bool) :
    (s.closedPort p d aborted o rest).failedRx d = { (s.port p).failedRx d with opening := none } := by
  simp [Port.failedRx, State.closedPort_raises]

/-- The state behind a frame of another class than valid: counted in its class, and discarded where it is removed (R14, R21). -/
theorem State.closeFrame_invalid (d : Direction) (aborted : Bool) (o : Opening) (rest : List Bool)
    (h : aborted = true ∨ o.content ++ rest ≠ []) (k : FrameClass) (hk : classify aborted (o.content ++ rest) = k)
    (hinvalid : k ≠ .valid) :
    s.closeFrame p d aborted o rest =
      (s.setPort p (((s.closedPort p d aborted o rest).setRx d
        (if k = .checkFailure then { (s.port p).failedRx d with opening := none }
          else { (s.port p).rx d with opening := none })).countPort
        (if (s.extend p d o rest).removed then fun c => { c with discarded := raise32 c.discarded } else id))).setJournal
        (if k == .checkFailure && (s.port p).raisesErrorRate d then
          (s.withRecord (s.levelOf .link) (.linkCondition p d .errorRate true)).journal else s.journal) := by
  rw [State.closeFrame_eq s p d aborted o rest h]
  dsimp only
  rw [hk, if_neg (fun hv => hinvalid hv.1), State.judgeRemoval_invalid _ p d k _ hinvalid,
    State.judgeClass_invalid _ p d k hinvalid, State.port_setPort_same, State.closedPort_raises, State.closedPort_failedRx,
    State.closedPort_rx_same, State.discardTelegram, State.setJournal_port, State.setPort_setPort, State.port_setPort_same,
    State.setJournal_setPort, State.setPort_setPort]
  split <;> rfl

/-- On a port that does not forward, a valid service telegram for the part is discarded (R8). -/
theorem State.closeFrame_outside (o : Opening) (rest : List Bool) (hf : (s.port p).forwards = false) (hc : o.collided = false)
    (hr : o.removal = none) (hk : classify false (o.content ++ rest) = .valid)
    (hh : serviceHeader s.straps (telegramOctets (o.content ++ rest)) = true) :
    s.closeFrame p .down false o rest = (s.validated p .down o rest).discardTelegram p := by
  have hforwards : ((s.validated p .down o rest).port p).forwards = false := by
    rw [State.validated_port_same, Port.setRx_forwards, State.closedPort_forwards, hf]
  have hkind := kind_of_serviceHeader hh
  rw [State.closeFrame_eq s p .down false o rest (.inr (ne_nil_of_classify (.inl hk)))]
  dsimp only
  rw [hk, State.judgeClass_valid,
    State.judgeRemoval_outside _ p (s.extend p .down o rest) (s.not_removed_of_not_forwards p .down o rest hr hf) hc hforwards hh,
    State.interpret_other _ _ _ _ _ (by omega) (by omega) (by omega), ite_self]

/-- A port that does not forward sends nothing (R8, R13). -/
theorem Port.arrive_sent (x : Port) (d e : Direction) (bits : List LineBit) (hf : x.forwards = false) :
    (x.arrive d bits).sent e = x.sent e := by
  unfold Port.arrive
  rw [if_neg (by simp [hf])]
  split
  · cases d <;> cases e <;> rfl
  · rfl

end Facts

/-- Settles O10: the removal by the content, the judgement at the end in each class, and ports that do not forward. -/
theorem removedRequestJoinsTheQueue : Obligations.RemovedRequestJoinsTheQueue := by
  refine ⟨?_, ?_, ?_, ?_⟩
  case refine_1 =>
    intro s p c before bits n hs hf ho hl hbefore hbits hh hn
    subst hn
    have ho' : ((s.port p).rx .down).opening = some ⟨c, false, none, before⟩ := ho
    have hremoval : (s.extend p .down ⟨c, false, none, before⟩ bits).removal = some ⟨true, (s.port p).accept⟩ :=
      s.extend_removal_decided p _ bits _ (.inr ⟨rfl, rfl, hf, hbefore, hbits, rfl, hh⟩)
    have hremoved : (s.extend p .down ⟨c, false, none, before⟩ bits).removed = true := by simp [Opening.removed, hremoval]
    obtain ⟨b, bits, rfl⟩ : ∃ b l, bits = b :: l := by
      cases bits with
      | nil => simp at hbits; omega
      | cons b l => exact ⟨b, l, rfl⟩
    refine ⟨_, exec_frameReceived_eq s p .down _ hs, ?_, ?_, ?_⟩ <;>
      rw [s.receive_content p .down _ b bits ho', State.beginFrame_frameContent, State.port_setPort_same]
    · have hstream := (s.port p).receiveContent_decides ⟨c, false, none, before⟩ _ (b :: bits) rfl hremoved hf hl
      rw [takenBack, ← List.append_assoc] at hstream
      exact hstream
    · have hrx := Port.withRelay_rx (({ (s.port p).collide ⟨c, false, none, before⟩ with quietSince := none } : Port).setRx .down
        { (s.port p).rx .down with opening := some (s.extend p .down ⟨c, false, none, before⟩ (b :: bits)) })
        ((s.port p).receiveContent .down ⟨c, false, none, before⟩ (s.extend p .down ⟨c, false, none, before⟩ (b :: bits)) (b :: bits))
        .down
      rw [Port.rx_setRx_same] at hrx
      refine (congrArg Receiver.opening hrx).trans ?_
      rw [← hremoval]
      rfl
  case refine_2 =>
    intro s p o rest accepted n hs ho h hn
    have ho' : ((s.port p).rx .down).opening = some o := ho
    have hremoval := s.extend_removal_decided p o rest accepted h
    have hremoved : (s.extend p .down o rest).removed = true := by simp [Opening.removed, hremoval]
    have hstream (aborted : Bool) (hend : aborted = true ∨ o.content ++ rest ≠ []) (hj : (s.port p).state ≠ .joining)
        (hl : (s.port p).downDelay.length = 40 ∨ o.removal ≠ none) :
        ∃ m, ((s.closeFrame p .down aborted o rest).port p).stream .down = (s.port p).toField ++ (s.port p).downDelay.take n ++
          ((s.port p).downDelay.drop n).map (fun b => if n < 40 ∧ b ≠ .closing then .flag else b) ++ List.replicate m .flag := by
      rw [State.closeFrame_stream s p .down aborted o rest hend]
      exact (s.port p).receiveEnd_removed aborted o _ rest n hremoved hj hn
        (h.imp (fun h => ⟨accepted, h⟩) fun ⟨hr, _, hf, _⟩ => ⟨hr, hf⟩) hl
    refine ⟨fun hk hkind => ?_, fun part k raised hpart hinvalid hraised => ?_⟩
    · have hu := s.removed_valid p o rest accepted hremoval hk hkind
      have hcounters := s.validated_live_port p .down o rest
      have hreceive := (exec_frameReceived_eq s p .down _ hs).trans (congrArg _ (s.receive_closed p .down o rest ho'))
      have honport := State.onPort_receive (p := p) s .down (.closed rest)
      have hend := hstream false (.inr (ne_nil_of_classify (.inl hk)))
      rw [s.receive_closed p .down o rest ho'] at honport
      have hport : (s.closeFrame p .down false o rest).port p = ((s.validated p .down o rest).port p).countPort
          (if accepted = true ∧ s.service.queue.length < 8 then fun c => { c with taken := raise32 c.taken }
          else fun c => { c with discarded := raise32 c.discarded }) := by
        rw [hu]
        exact State.port_setPort_same _ p _
      refine ⟨_, hreceive, fun ha hroom => ?_, fun hfull => ?_, ?_, ?_, ?_, hend, honport.others, ?_⟩
      · rw [hport, hu, if_pos ⟨ha, hroom⟩, if_pos ⟨ha, hroom⟩]
        exact ⟨rfl, by rw [Port.countPort_live_port, hcounters], by rw [Port.countPort_live_port, hcounters]⟩
      · have hno : ¬ (accepted = true ∧ s.service.queue.length < 8) := by
          rintro ⟨ha, hroom⟩
          rcases hfull with hfull | hfull
          · rw [ha] at hfull
            cases hfull
          · omega
        rw [hport, hu, if_neg hno, if_neg hno]
        exact ⟨rfl, by rw [Port.countPort_live_port, hcounters], by rw [Port.countPort_live_port, hcounters]⟩
      · rw [hport]
        exact (Port.countPort_live_dir _ .down _).trans (s.validated_live_dir p .down o rest hk)
      · rw [hport]
        exact (Port.countPort_rx _ .down _).trans (s.validated_rx p .down o rest)
      · rw [hu]
        rfl
      · rw [hu]
        rfl
    · obtain ⟨aborted, hend, rfl, hk⟩ : ∃ aborted : Bool, (aborted = true ∨ o.content ++ rest ≠ []) ∧
          part = (if aborted then .aborted rest else .closed rest) ∧ classify aborted (o.content ++ rest) = k := by
        rcases hpart with ⟨rfl, hne, hk⟩ | ⟨rfl, hk⟩
        · exact ⟨false, .inr hne, rfl, hk.symm⟩
        · exact ⟨true, .inl rfl, rfl, hk.symm⟩
      have hu := s.closeFrame_invalid p .down aborted o rest hend k hk hinvalid
      rw [if_pos hremoved] at hu
      have hexec : exec (.frameReceived p .down (if aborted then .aborted rest else .closed rest)) s =
          .next (s.closeFrame p .down aborted o rest) := by
        rw [exec_frameReceived_eq s p .down _ hs]
        cases aborted
        · exact congrArg _ (s.receive_closed p .down o rest ho')
        · exact congrArg _ (s.receive_aborted p .down o rest ho')
      have hport := congrArg (·.port p) hu
      simp only [State.setJournal_port, State.port_setPort_same] at hport
      have hcounters := s.closedPort_live_port p .down aborted o rest
      have hraised' : raised = (k == .checkFailure && (s.port p).raisesErrorRate .down) := by
        rw [hraised, Bool.and_assoc]
        rfl
      refine ⟨_, hexec, ?_, ?_, ?_, ?_, ?_, hstream aborted hend, ?_, ?_⟩
      · rw [hport, Port.countPort_live_port, Port.setRx_live, hcounters]
      · rw [hport, Port.countPort_live_port, Port.setRx_live, hcounters]
      · rw [hport]
        refine (Port.countPort_live_dir _ .down _).trans ?_
        rw [Port.setRx_live, State.closedPort_live_dir, hk]
        cases k with
        | valid => exact absurd rfl hinvalid
        | _ => rfl
      · rw [hport]
        refine (Port.countPort_rx _ .down _).trans ?_
        rw [Port.rx_setRx_same, hraised']
        cases k <;> rfl
      · rw [hu, hraised']
        rfl
      · intro q hq
        rw [hu, State.setJournal_port, State.port_setPort_other _ _ _ _ hq]
      · rw [hu]
        rfl
  case refine_3 =>
    intro s p o rest hs hf ho hc hr hk hh
    have ho' : ((s.port p).rx .down).opening = some o := ho
    have hu := s.closeFrame_outside p o rest hf hc hr hk hh
    have hport : (s.closeFrame p .down false o rest).port p =
        ((s.validated p .down o rest).port p).countPort fun c => { c with discarded := raise32 c.discarded } := by
      rw [hu, State.discardTelegram, State.port_setPort_same]
    refine ⟨_, (exec_frameReceived_eq s p .down _ hs).trans (congrArg _ (s.receive_closed p .down o rest ho')),
      ?_, ?_, ?_, ?_, ?_, ?_, ?_⟩
    · rw [hport]
      exact s.validated_rx p .down o rest
    · rw [hport]
      refine (Port.countPort_rx _ .up _).trans ?_
      rw [State.validated_port_same, Port.rx_setRx_other _ .down .up _ nofun]
      exact s.closedPort_rx_other p .down false o rest .up nofun
    · rw [hport]
      refine Eq.trans (b := ((s.validated p .down o rest).port p).sent .down) rfl ?_
      rw [State.validated_port_same, Port.setRx_sent, State.closedPort, Port.renewQuiet_sent, Port.withRelay_sent,
        Port.receiveEnd_kept _ _ _ _ (s.not_removed_of_not_forwards p .down o rest hr hf), Port.arrive_sent,
        Port.arrive_sent _ _ _ _ hf]
      · rfl
      · rw [(Port.arrive_only _ .down _).forwards, hf]
    · rw [hport]
      have hlive : ((s.validated p .down o rest).port p).live =
          { (s.port p).live with down := { (s.port p).live.down with valid := raise32 (s.port p).live.down.valid } } := by
        rw [State.validated_port_same, Port.setRx_live, State.closedPort_live, Port.collide_of_not _ o (.inl hc), hk]
        rfl
      rw [Port.countPort_live, hlive]
    · rw [hu]
      rfl
    · intro q hq
      rw [hu, State.discardTelegram, State.port_setPort_other _ _ _ _ hq, State.validated_port_other _ _ _ _ _ _ hq]
    · rw [hu]
      rfl
  case refine_4 =>
    intro s p o rest hs hb ho hc hr hk hh
    have ho' : ((s.port p).rx .down).opening = some o := ho
    have hf := Port.not_forwards_of_bypass hb
    rw [exec_frameReceived_eq s p .down _ hs, s.receive_closed p .down o rest ho', s.closeFrame_outside p o rest hf hc hr hk hh,
      State.validated_bypass s p .down o rest hk hb hc hr, State.discardTelegram, State.setJournal_port, State.port_setPort_same,
      State.setJournal_setPort, State.setPort_setPort]
    generalize s.port p = x
    rfl

end Sys2Proof.Machine
end

