-- ==== Sys2Proof/Proofs/ErrorRate.lean ====
section
/-! PROOFS. Sys2Proof/Proofs/ErrorRate.lean: the count of check failures and the judgement of a second (R21). -/

namespace Sys2Proof.Machine

section Facts

variable (s : State) (p : PortId) (d : Direction)

theorem Port.raisesErrorRate_iff (x : Port) :
    x.raisesErrorRate d = true ↔ x.errorThreshold ≤ (x.rx d).checkFails + 1 ∧ (x.rx d).errorRate = false := by
  simp [Port.raisesErrorRate]

/-- A check failure on a port in BYPASS (R8, R21). -/
theorem State.closeFrame_checkFailure_bypass (o : Opening) (rest : List Bool) (hb : (s.port p).state = .bypass)
    (hr : o.removal = none) (hc : o.collided = false ∨ o.content ≠ []) (hk : classify false (o.content ++ rest) = .checkFailure) :
    s.closeFrame p d false o rest =
      (s.setPort p { ((s.port p).countDir d fun c => { c with checkFails := raise32 c.checkFails }).setRx d
          { (s.port p).failedRx d with opening := none } with quietSince := none }).setJournal
        (if (s.port p).raisesErrorRate d then
          (s.withRecord (s.levelOf .link) (.linkCondition p d .errorRate true)).journal else s.journal) := by
  rw [s.closeFrame_invalid p d false o rest (.inr (ne_nil_of_classify (.inr hk))) _ hk nofun,
    s.not_removed_of_not_forwards p d o rest hr (Port.not_forwards_of_bypass hb), s.closedPort_bypass p d false o rest hb hr hc, hk]
  generalize s.port p = x
  cases d <;> rfl

/-- The end of a second, the clearing of ERROR RATE apart (R21). -/
theorem State.endSecond_eq (run : Nat) (hrun : ((s.port p).rx d).runAfter (s.port p).errorThreshold = run) :
    s.endSecond (p, d) =
      (let counted := (s.port p).countDir d fun c => { c with
        errored := if 0 < ((s.port p).rx d).checkFails then raise32 c.errored else c.errored
        silentSecs := if ((s.port p).rx d).silentSeen then raise32 c.silentSecs else c.silentSecs }
      let t := s.setPort p (counted.setRx d { (s.port p).rx d with
        checkFails := 0, reached := false, cleanRun := run, silentSeen := ((s.port p).rx d).silent })
      if ((s.port p).rx d).errorRate = true ∧ run = 10 then t.setCondition p d .errorRate false else t) := by
  unfold State.endSecond
  dsimp only
  rw [hrun]

end Facts

/-- Settles O15: a check failure in BYPASS and in every state, and the end of a second. -/
theorem errorRateIsJudgedBySeconds : Obligations.ErrorRateIsJudgedBySeconds := by
  refine ⟨?_, ?_, ?_⟩
  case refine_1 =>
    intro s p d o rest hs hb ho hr hc hk
    have hexec : exec (.frameReceived p d (.closed rest)) s = .next (s.closeFrame p d false o rest) :=
      (exec_frameReceived_eq s p d _ hs).trans (congrArg _ (s.receive_closed p d o rest ho))
    rw [hexec, s.closeFrame_checkFailure_bypass p d o rest hb hr hc hk]
    refine ⟨fun h => ?_, fun hreached hrate => ?_⟩
    · have hraises : (s.port p).raisesErrorRate d = false := by
        rw [Bool.eq_false_iff, Ne, Port.raisesErrorRate_iff]
        rintro ⟨hreached, hrate⟩
        rcases h with h | h
        · omega
        · rw [hrate] at h
          cases h
      rw [Port.failedRx, hraises, Bool.or_false]
      rfl
    · have hraises : (s.port p).raisesErrorRate d = true := ((s.port p).raisesErrorRate_iff d).mpr ⟨hreached, hrate⟩
      rw [Port.failedRx, hraises, Bool.or_true, decide_eq_true hreached, Bool.or_true]
      rfl
  case refine_2 =>
    intro s p d o rest raised hs ho hk hraised
    have hraises : (s.port p).raisesErrorRate d = raised := by
      rw [Bool.eq_iff_iff, Port.raisesErrorRate_iff, hraised]
    have hu := s.closeFrame_invalid p d false o rest (.inr (ne_nil_of_classify (.inr hk))) _ hk nofun
    have hport := congrArg (·.port p) hu
    simp only [State.setJournal_port, State.port_setPort_same] at hport
    refine ⟨_, (exec_frameReceived_eq s p d _ hs).trans (congrArg _ (s.receive_closed p d o rest ho)), ?_, ?_, ?_, ?_, ?_⟩
    · rw [hu]
      rfl
    · intro q hq
      rw [hu, State.setJournal_port, State.port_setPort_other _ _ _ _ hq]
    · rw [hport, Port.countPort_rx, Port.rx_setRx_same, if_pos trivial, Port.failedRx, hraises]
    · rw [hport, Port.countPort_live_dir, Port.setRx_live, State.closedPort_live_dir, hk]
      rfl
    · rw [hu, hraises]
      rfl
  case refine_3 =>
    intro s p d run hrun counted
    have hsecond := s.endSecond_eq p d run hrun.symm
    refine ⟨fun h => ?_, fun hrate hten => ?_⟩
    · rw [hsecond]
      refine if_neg ?_
      rintro ⟨hrate, hten⟩
      rcases h with h | h
      · rw [h] at hrate
        cases hrate
      · omega
    · rw [hsecond]
      dsimp only
      rw [if_pos ⟨hrate, hten⟩, State.setCondition_eq, State.setPort_setPort, State.port_setPort_same, Port.setRx_setRx,
        Port.rx_setRx_same, hten]
      rfl

end Sys2Proof.Machine
end

