-- ==== Sys2Proof/Proofs/QuietRuns.lean ====
section
/-! PROOFS. Sys2Proof/Proofs/QuietRuns.lean: quiet runs, and the relay transfers that they begin (R5, R10 to R13). -/

namespace Sys2Proof.Machine

section Facts

variable (s : State) (p : PortId) (d : Direction)

/-! ## Completed runs and ended transfers -/

/-- At the instant of a completed run the event judges the port as it stands (R10, R11). -/
theorem State.completeQuiet_reached (state : PortState) (t : Nat) (hq : (s.port p).quietSince = some t)
    (ht : t + ms (s.port p).quiet ≤ s.tb.instant) :
    s.completeQuiet p state =
      if (s.port p).state = state ∧ (s.port p).quietDone s.tb.instant = true then
        s.setPort p ((s.port p).beginTransfer s.tb.instant)
      else s := by
  have hawait : s.await (s.quietInstant p state) = s := by
    unfold State.quietInstant
    split
    · rw [hq]
      exact s.await_reached _ ht
    · rfl
  unfold State.completeQuiet
  rw [hawait]

theorem Port.quietDone_iff (x : Port) (now t : Nat) (hq : x.quietSince = some t) :
    x.quietDone now = true ↔ x.downRx.opening = none ∧ x.upRx.opening = none ∧ t + ms x.quiet ≤ now := by
  simp [Port.quietDone, hq, and_assoc]

theorem exec_quietRunComplete (hs : s.initialising = false) :
    exec (.joiningQuietRunComplete p) s = .next (s.completeQuiet p .joining) ∧
      exec (.leavingQuietRunComplete p) s = .next (s.completeQuiet p .leaving) :=
  ⟨s.event_eq (fun s => s.completeQuiet p .joining) hs, s.event_eq (fun s => s.completeQuiet p .leaving) hs⟩

theorem exec_relayTransferEnd_reached (hs : s.initialising = false) (t : Nat) (h : (s.port p).transferEnd = some t)
    (ht : t ≤ s.tb.instant) :
    exec (.relayTransferEnd p) s = .next (s.setPort p ((s.port p).endTransfer s.tb.instant)) := by
  have hexec : exec (.relayTransferEnd p) s = s.event fun s =>
      if (((s.await (s.port p).transferEnd).port p).transferDone (s.await (s.port p).transferEnd).tb.instant) = true then
        (s.await (s.port p).transferEnd).setPort p
          (((s.await (s.port p).transferEnd).port p).endTransfer (s.await (s.port p).transferEnd).tb.instant)
      else s.await (s.port p).transferEnd := rfl
  rw [hexec, State.event_eq s _ hs, h, s.await_reached t ht, if_pos]
  simp [Port.transferDone, h, ht]

/-- The JOINING milliseconds touch nothing but their counter (R10). -/
theorem Port.creditJoining_only (x : Port) (now : Nat) :
    ∃ live credited, x.creditJoining now = { x with live := live, joinCredited := credited } := by
  unfold Port.creditJoining
  split
  · exact ⟨_, _, rfl⟩
  · exact ⟨x.live, x.joinCredited, rfl⟩

/-! ## What a quiet run asks for -/

/-- The conditions of a quiet run survive what the relay does, while nothing is held back and the line stays idle (R10, R11). -/
theorem Port.quietHolds_setRx (x y : Port) (r : Receiver) (h : x.quietHolds = true) (hr : r.idle = true)
    (hheld : x.state = .leaving → x.held = [] → y.held = []) : ((x.setRx d r).withRelay y).quietHolds = true := by
  have hidle : x.idle = true → ((x.setRx d r).withRelay y).idle = true := by
    intro hi
    simp only [Port.idle, Bool.and_eq_true] at hi ⊢
    cases d
    · exact ⟨hr, hi.2⟩
    · exact ⟨hi.1, hr⟩
  have hsame : ((x.setRx d r).withRelay y).state = x.state ∧ ((x.setRx d r).withRelay y).transferEnd = x.transferEnd ∧
      ((x.setRx d r).withRelay y).responses = x.responses ∧ ((x.setRx d r).withRelay y).inserting = x.inserting := by
    cases d <;> exact ⟨rfl, rfl, rfl, rfl⟩
  obtain ⟨hstate, htransfer, hresponses, hinserting⟩ := hsame
  have hheld' : ((x.setRx d r).withRelay y).held = y.held := by cases d <;> rfl
  unfold Port.quietHolds at h ⊢
  rw [hstate]
  split at h
  · simp only [Bool.and_eq_true] at h ⊢
    rw [htransfer]
    exact ⟨h.1, hidle h.2⟩
  · next hl =>
    simp only [Bool.and_eq_true, List.isEmpty_iff] at h ⊢
    obtain ⟨⟨⟨⟨ht, hi⟩, hq⟩, hn⟩, hh⟩ := h
    rw [htransfer, hresponses, hinserting, hheld']
    exact ⟨⟨⟨⟨ht, hidle hi⟩, hq⟩, hn⟩, hheld hl hh⟩
  · cases h

theorem Port.quietHolds_idle {x : Port} (h : x.quietHolds = true) : (x.rx d).idle = true := by
  have hidle : x.idle = true := by
    unfold Port.quietHolds at h
    split at h
    · simp only [Bool.and_eq_true] at h
      exact h.2
    · simp only [Bool.and_eq_true] at h
      exact h.1.1.1.2
    · cases h
  simp only [Port.idle, Bool.and_eq_true] at hidle
  cases d
  · exact hidle.1
  · exact hidle.2

theorem Receiver.idle_iff (r : Receiver) : r.idle = true ↔ (∀ o, r.opening = some o → o.content = []) ∧ r.stray = [] := by
  cases h : r.opening <;> simp [Receiver.idle, Receiver.inFrame, h]

theorem Receiver.not_idle_of_stray (r : Receiver) (h : r.stray ≠ []) : r.idle = false := by
  rw [Bool.eq_false_iff, Ne, Receiver.idle_iff]
  exact fun hi => h hi.2

theorem Port.requiet_quietSince (x : Port) (now : Nat) :
    (x.requiet now).quietSince = if x.quietHolds then some (x.quietSince.getD now) else none := rfl

theorem Port.not_quietHolds {x : Port} (h : (x.rx d).idle = false) : x.quietHolds = false := by
  rw [Bool.eq_false_iff]
  intro hq
  rw [Port.quietHolds_idle d hq] at h
  cases h

/-! ## The port behind bits outside a frame -/

theorem Port.upBit_sending_nil (x : Port) (b : LineBit) (h : x.sending = []) : (x.upBit b).sending = [] := by
  have hrelay (y : Port) (c : LineBit) (hy : y.sending = []) : (y.relayUp c).sending = [] := by
    unfold Port.relayUp
    rw [hy]
    split
    next hr => cases hr
    all_goals rfl
  unfold Port.upBit
  split
  · exact hrelay x b h
  · exact hrelay _ _ h

/-- Where nothing of a response is to be sent, what arrives leaves it so (R16). -/
theorem Port.arrive_sending_nil (x : Port) (bits : List LineBit) (h : x.sending = []) : (x.arrive d bits).sending = [] := by
  have hdown (y : Port) (hy : y.sending = []) (b : LineBit) : (y.downBit b).sending = [] := by
    unfold Port.downBit
    split <;> exact hy
  unfold Port.arrive
  split
  · cases d
    · exact List.foldlRecOn bits Port.downBit h fun y hy b _ => hdown y hy b
    · exact List.foldlRecOn bits Port.upBit h fun y hy b _ => y.upBit_sending_nil b hy
  · split
    · cases d <;> exact h
    · exact h

/-- Where nothing is held besides, nothing is held then either (R17). -/
theorem Port.arrive_held_nil (x : Port) (bits : List LineBit) (hs : x.sending = []) (hh : x.held = []) :
    (x.arrive d bits).held = [] := by
  have hbound := x.arrive_bounded d bits
  rw [hs, hh] at hbound
  simp only [List.length_nil, Nat.add_zero, Nat.le_zero, Nat.add_eq_zero_iff, List.length_eq_zero_iff] at hbound
  exact hbound.1

theorem State.strayBits_eq (stray : List Bool) (bits : List LineBit) :
    s.strayBits p d stray bits = s.setPort p ((((s.port p).setRx d { (s.port p).rx d with stray := stray }).withRelay
      ((s.port p).arrive d bits)).requiet s.tb.instant) := by
  unfold State.strayBits
  have honly := ((s.port p).arrive_only d bits).eq_withRelay
  generalize (s.port p).arrive d bits = y at honly ⊢
  dsimp only
  rw [honly]
  cases d <;> rfl

theorem State.idleFlags_eq (bits : List LineBit) :
    s.idleFlags p d bits = s.setPort p ((((s.port p).setRx d { (s.port p).rx d with
      opening := (((s.port p).forgetFlag d).rx d).opening }).withRelay (((s.port p).forgetFlag d).arrive d bits)).requiet
        s.tb.instant) := by
  have hbits : ((s.port p).forgetFlag d).arrive d bits = ((s.port p).setRx d { (s.port p).rx d with
      opening := (((s.port p).forgetFlag d).rx d).opening }).withRelay (((s.port p).forgetFlag d).arrive d bits) :=
    calc ((s.port p).forgetFlag d).arrive d bits
        = ((s.port p).forgetFlag d).withRelay (((s.port p).forgetFlag d).arrive d bits) :=
          (Port.arrive_only _ d bits).eq_withRelay
      _ = _ := congrArg (·.withRelay (((s.port p).forgetFlag d).arrive d bits)) (Port.forgetFlag_eq d (s.port p))
  unfold State.idleFlags
  rw [hbits]
  rfl

theorem Port.forgetFlag_buffer (x : Port) : (x.forgetFlag d).sending = x.sending ∧ (x.forgetFlag d).held = x.held := by
  unfold Port.forgetFlag
  split <;> cases d <;> exact ⟨rfl, rfl⟩

/-- A flag forgotten is followed by no content. -/
theorem Port.forgetFlag_opening (x : Port) (o : Opening) (h : ((x.forgetFlag d).rx d).opening = some o) :
    (x.rx d).opening = some o := by
  unfold Port.forgetFlag at h
  split at h
  · rw [Port.rx_setRx_same] at h
    cases h
  · exact h

/-! ## A run that goes on -/

/-- A port in a quiet run since an instant, with nothing of a response to be sent (R10, R11). -/
structure Port.QuietRun (t : Nat) (x : Port) : Prop where
  holds : x.quietHolds = true
  sending : x.sending = []
  since : x.quietSince = some t

/-- Whether an operation leaves the quiet run of a port going on, and its counters as they were, and touches nothing else. -/
def State.KeepsRun (s u : State) (p : PortId) (t : Nat) : Prop :=
  ∃ y : Port, u = s.setPort p y ∧ y.QuietRun t ∧ y.live = (s.port p).live

theorem State.KeepsRun.trans {s t u : State} {p : PortId} {n : Nat} (h : s.KeepsRun t p n) (k : t.KeepsRun u p n) :
    s.KeepsRun u p n := by
  obtain ⟨y, rfl, -, hlive⟩ := h
  obtain ⟨z, rfl, hz, hlive'⟩ := k
  rw [State.port_setPort_same] at hlive'
  exact ⟨z, s.setPort_setPort p y z, hz, hlive'.trans hlive⟩

/-- The run goes on through a change of the relay and of one receiver whose line stays idle. -/
theorem State.keepsRun_requiet {s : State} {p : PortId} {t : Nat} (h : (s.port p).QuietRun t) (r : Receiver) (y : Port)
    (hr : r.idle = true) (hsending : y.sending = []) (hheld : (s.port p).held = [] → y.held = []) :
    s.KeepsRun (s.setPort p ((((s.port p).setRx d r).withRelay y).requiet s.tb.instant)) p t := by
  obtain ⟨hholds, -, hsince⟩ := h
  have hq := (s.port p).quietHolds_setRx d y r hholds hr fun _ => hheld
  have hsince' : (((s.port p).setRx d r).withRelay y).quietSince = some t :=
    ((s.port p).setRx_quietSince d r).trans hsince
  refine ⟨_, rfl, ⟨hq, hsending, ?_⟩, ?_⟩
  · rw [Port.requiet_quietSince, hq, hsince']
    rfl
  · rw [Port.requiet_live, Port.withRelay_live, Port.setRx_live]

theorem State.keepsRun_strayBits {s : State} {p : PortId} {t : Nat} (h : (s.port p).QuietRun t) (bits : List LineBit) :
    s.KeepsRun (s.strayBits p d [] bits) p t := by
  have hidle := (Receiver.idle_iff _).mp (Port.quietHolds_idle d h.holds)
  rw [State.strayBits_eq]
  exact State.keepsRun_requiet d h _ _ ((Receiver.idle_iff _).mpr ⟨hidle.1, rfl⟩) ((s.port p).arrive_sending_nil d bits h.sending)
    fun hh => (s.port p).arrive_held_nil d bits h.sending hh

theorem State.keepsRun_idleFlags {s : State} {p : PortId} {t : Nat} (h : (s.port p).QuietRun t) (bits : List LineBit) :
    s.KeepsRun (s.idleFlags p d bits) p t := by
  have hidle := (Receiver.idle_iff _).mp (Port.quietHolds_idle d h.holds)
  obtain ⟨hsending, hheld⟩ := (s.port p).forgetFlag_buffer d
  rw [State.idleFlags_eq]
  refine State.keepsRun_requiet d h _ _ ((Receiver.idle_iff _).mpr ⟨?_, hidle.2⟩)
    (Port.arrive_sending_nil d _ bits (hsending.trans h.sending))
    fun hh => Port.arrive_held_nil d _ bits (hsending.trans h.sending) (hheld.trans hh)
  exact fun o ho => hidle.1 o ((s.port p).forgetFlag_opening d o ho)

theorem State.keepsRun_openFrame {s : State} {p : PortId} {t : Nat} (h : (s.port p).QuietRun t) (shared : Bool) :
    s.KeepsRun (s.openFrame p d shared) p t := by
  obtain ⟨hsending, hheld⟩ := (s.port p).forgetFlag_buffer d
  have hopened : ((s.port p).opened d shared).sending = [] ∧ ((s.port p).held = [] → ((s.port p).opened d shared).held = []) := by
    unfold Port.opened Port.arriveOpening
    split
    · cases d <;> exact ⟨hsending.trans h.sending, hheld.trans⟩
    · exact ⟨Port.arrive_sending_nil d _ _ (hsending.trans h.sending),
        fun hh => Port.arrive_held_nil d _ _ (hsending.trans h.sending) (hheld.trans hh)⟩
  rw [State.openFrame_eq]
  refine State.keepsRun_requiet d h _ _ ((Receiver.idle_iff _).mpr ⟨?_, rfl⟩) hopened.1 hopened.2
  rintro o ho
  cases ho
  rfl

/-- Idle of any kind, a flag that may open a frame and a flag that ends nothing keep the run (R5, R10, R11). -/
theorem State.keepsRun_receive {s : State} {p : PortId} {t : Nat} (h : (s.port p).QuietRun t) (part : FramePart)
    (hpart : (∃ marks n, part = .idle marks n) ∨ (∃ shared, part = .opening shared) ∨ part = .closed []) :
    s.KeepsRun (s.receive p d part) p t := by
  have hidle := (Receiver.idle_iff _).mp (Port.quietHolds_idle d h.holds)
  rcases hpart with ⟨marks, n, rfl⟩ | ⟨shared, rfl⟩ | rfl
  · show s.KeepsRun (s.takeIdle p d _) p t
    unfold State.takeIdle
    split
    · exact State.keepsRun_strayBits d h _
    · next o ho =>
      rw [if_pos (hidle.1 o ho)]
      exact State.keepsRun_idleFlags d h _
  · exact State.keepsRun_openFrame d h shared
  · show s.KeepsRun (s.takeEnd p d false []) p t
    unfold State.takeEnd
    split
    · have hcontent : s.strayContent p d [] = s.strayBits p d [] [] := by
        unfold State.strayContent
        dsimp only
        rw [hidle.2]
        rfl
      have hfirst := State.keepsRun_strayBits d h []
      obtain ⟨y, hy, hrun, -⟩ := id hfirst
      rw [hcontent]
      refine hfirst.trans (State.keepsRun_strayBits d ?_ _)
      rw [hy, State.port_setPort_same]
      exact hrun
    · next o ho =>
      unfold State.closeFrame
      rw [if_pos ⟨rfl, by rw [hidle.1 o ho]; rfl⟩]
      exact State.keepsRun_idleFlags d h _

/-! ## Content outside a frame -/

theorem State.receive_stray (bits : List Bool) (ho : ((s.port p).rx d).opening = none) :
    s.receive p d (.content bits) = s.strayContent p d bits := by
  simp [State.receive, State.takeContent, ho]

/-- Content outside a frame ends a quiet run (R10, R11). -/
theorem State.strayBits_content (stray : List Bool) (bits : List LineBit) (h : stray ≠ []) :
    ∃ y : Port, s.strayBits p d stray bits = s.setPort p y ∧ y.quietSince = none ∧ (y.rx d).stray = stray ∧
      (y.rx d).idle = false ∧ y.live = (s.port p).live := by
  rw [State.strayBits_eq]
  have hrx (now : Nat) (y : Port) :
      ((((s.port p).setRx d { (s.port p).rx d with stray := stray }).withRelay y).requiet now).rx d =
        { (s.port p).rx d with stray := stray } := by
    rw [Port.requiet_rx, Port.withRelay_rx, Port.rx_setRx_same]
  have hidle : ({ (s.port p).rx d with stray := stray } : Receiver).idle = false := Receiver.not_idle_of_stray _ h
  refine ⟨_, rfl, ?_, ?_, ?_, ?_⟩
  · rw [Port.requiet_quietSince, Port.not_quietHolds d (by rw [Port.withRelay_rx, Port.rx_setRx_same]; exact hidle)]
    rfl
  · rw [hrx]
  · rw [hrx]
    exact hidle
  · rw [Port.requiet_live, Port.withRelay_live, Port.setRx_live]

/-- Content outside a frame and then the flag or abort behind it: a run that was going on has ended, and begins anew (R10, R11). -/
theorem State.strayBits_twice (stray : List Bool) (bits bits' : List LineBit) (h : stray ≠ []) :
    (s.strayBits p d stray bits).strayBits p d [] bits' =
      s.setPort p ((((s.port p).setRx d { (s.port p).rx d with stray := [] }).withRelay
        (((s.port p).arrive d bits).arrive d bits')).renewQuiet s.tb.instant) := by
  have honly := (s.port p).arrive_only d bits
  have hidle : ((((s.port p).setRx d { (s.port p).rx d with stray := stray }).withRelay ((s.port p).arrive d bits)).rx d).idle =
      false := by
    rw [Port.withRelay_rx, Port.rx_setRx_same]
    exact Receiver.not_idle_of_stray _ h
  have hfirst : s.strayBits p d stray bits = s.setPort p
      (({ (s.port p).setRx d { (s.port p).rx d with stray := stray } with quietSince := none } : Port).withRelay
        ((s.port p).arrive d bits)) := by
    rw [State.strayBits_eq, Port.requiet, Port.not_quietHolds d hidle]
    rfl
  have harrive := Port.withRelay_arrive ({ (s.port p).setRx d { (s.port p).rx d with stray := stray } with quietSince := none })
    ((s.port p).arrive d bits) d bits' ((Port.setRx_state _ d _).trans honly.state.symm)
    ((Port.setRx_transferEnd _ d _).trans honly.transferEnd.symm)
  rw [hfirst, State.strayBits_eq, State.port_setPort_same, State.setPort_setPort, harrive]
  generalize ((s.port p).arrive d bits).arrive d bits' = z
  generalize (s.port p).arrive d bits = y
  generalize s.port p = x
  cases d <;> rfl

/-- The conditions of a quiet run, once the line of one direction is idle (R10, R11). -/
theorem Port.quietHolds_of_idle (x : Port) (r : Receiver) (hr : r.idle = true) (htransfer : x.transferEnd = none)
    (hothers : ∀ e, e ≠ d → (x.rx e).idle = true)
    (hstate : x.state = .joining ∨ (x.state = .leaving ∧ x.responses = [] ∧ x.inserting = none ∧ x.held = [])) :
    (x.setRx d r).quietHolds = true := by
  have hidle : (x.setRx d r).idle = true := by
    rw [Port.idle, Bool.and_eq_true]
    cases d
    · exact ⟨hr, hothers .up nofun⟩
    · exact ⟨hothers .down nofun, hr⟩
  have hparts : (x.setRx d r).responses = x.responses ∧ (x.setRx d r).inserting = x.inserting ∧ (x.setRx d r).held = x.held := by
    cases d <;> exact ⟨rfl, rfl, rfl⟩
  obtain ⟨hresponses, hinserting, hheld⟩ := hparts
  rcases hstate with hj | ⟨hl, hq, hn, hh⟩
  · simp [Port.quietHolds, hj, htransfer, hidle]
  · simp [Port.quietHolds, hl, htransfer, hidle, hresponses, hinserting, hheld, hq, hn, hh]

end Facts

/-- Settles O16: completed runs, ended transfers, and what keeps and ends a run. -/
theorem relayTransferFromQuietRunToEnd : Obligations.RelayTransferFromQuietRunToEnd := by
  refine ⟨?_, ?_, ?_, ?_, ?_⟩
  case refine_1 =>
    intro s p t hs hq ht
    obtain ⟨hjoining, hleaving⟩ := exec_quietRunComplete s p hs
    rw [hjoining, hleaving, s.completeQuiet_reached p _ t hq ht, s.completeQuiet_reached p _ t hq ht]
    refine ⟨fun hd hu => ⟨fun hstate => ?_, fun hstate htransfer => ?_⟩, fun hopen => ?_⟩
    · rw [if_pos ⟨hstate, ((s.port p).quietDone_iff _ t hq).mpr ⟨hd, hu, ht⟩⟩]
      have hf : (s.port p).forwards = false := by simp [Port.forwards, hstate]
      simp [Port.beginTransfer, hf, Port.idleDelays, hstate]
    · rw [if_pos ⟨hstate, ((s.port p).quietDone_iff _ t hq).mpr ⟨hd, hu, ht⟩⟩]
      have hf : (s.port p).forwards = true := by simp [Port.forwards, hstate, htransfer]
      have hreleased : (PortState.leaving == PortState.joining) = false := rfl
      simp [Port.beginTransfer, hf, Port.endRelay, hstate, hreleased]
    · have hno : ¬ (s.port p).quietDone s.tb.instant = true := by
        rw [Port.quietDone_iff _ _ t hq]
        rintro ⟨hd, hu, -⟩
        exact hopen.elim (fun h => h hd) fun h => h hu
      rw [if_neg fun h => hno h.2, if_neg fun h => hno h.2]
      exact ⟨rfl, rfl⟩
  case refine_2 =>
    intro s p t hs htransfer ht
    rw [exec_relayTransferEnd_reached s p hs t htransfer ht]
    refine ⟨fun hstate => ?_, fun hstate => by simp [Port.endTransfer, hstate]⟩
    obtain ⟨live, credited, hcredit⟩ := (s.port p).creditJoining_only s.tb.instant
    have hend : (s.port p).endTransfer s.tb.instant =
        { ({ s.port p with live := live, joinCredited := credited } : Port).startRelay with
          state := .inline, transferEnd := none, joinSince := none, joinCredited := 0 } := by
      simp [Port.endTransfer, hstate, hcredit]
    refine ⟨_, rfl, ?_⟩
    rw [State.port_setPort_same, hend]
    exact ⟨rfl, rfl, rfl, rfl, rfl, rfl, rfl, fun q hq => s.port_setPort_other p q _ hq, rfl⟩
  case refine_3 =>
    intro s p d t part hs hholds hsending hsince hpart
    obtain ⟨y, hy, hrun, hlive⟩ := State.keepsRun_receive d ⟨hholds, hsending, hsince⟩ part hpart
    refine ⟨_, exec_frameReceived_eq s p d part hs, ?_⟩
    rw [hy, State.port_setPort_same]
    exact ⟨rfl, hrun.since, hlive⟩
  case refine_4 =>
    intro s p d o b bits hs ho
    refine ⟨_, exec_frameReceived_eq s p d _ hs, ?_⟩
    rw [s.receive_content p d o b bits ho, State.beginFrame_frameContent, State.port_setPort_same]
    refine ⟨rfl, ?_, ?_⟩
    · exact Port.setRx_quietSince _ d _
    · rw [Port.withRelay_live, Port.setRx_live]
      rfl
  case refine_5 =>
    intro s p d b bits rest hs ho
    refine ⟨?_, fun hstray htransfer hothers hstate => ?_⟩
    · obtain ⟨y, hy, hsince, -, hidle, hlive⟩ := s.strayBits_content p d (((s.port p).rx d).stray ++ b :: bits)
        (contentBits ((s.port p).rx d).stray (b :: bits)) (by simp)
      refine ⟨_, exec_frameReceived_eq s p d _ hs, ?_⟩
      rw [s.receive_stray p d _ ho, State.strayContent, hy, State.port_setPort_same]
      exact ⟨rfl, hsince, hidle, hlive⟩
    · have hone (bits : List LineBit) :
          ∃ y : Port, (s.strayContent p d rest).strayBits p d [] bits = s.setPort p y ∧ y.quietSince = some s.tb.instant ∧
            y.live = (s.port p).live := by
        refine ⟨_, s.strayBits_twice p d _ _ bits hstray, ?_, ?_⟩
        · have hidle : ({ (s.port p).rx d with stray := [] } : Receiver).idle = true :=
            (Receiver.idle_iff _).mpr ⟨fun o h => absurd (ho.symm.trans h) nofun, rfl⟩
          have hquiet := (s.port p).quietHolds_of_idle d _ hidle htransfer hothers
            (hstate.imp id fun ⟨hl, hq, hn, _, hh⟩ => ⟨hl, hq, hn, hh⟩)
          have hholds := Port.quietHolds_setRx d _ (((s.port p).arrive d (contentBits ((s.port p).rx d).stray rest)).arrive d bits) _
            hquiet hidle fun hl hh => by
              rw [Port.setRx_state] at hl
              obtain ⟨-, -, -, hsending, hheld⟩ := hstate.resolve_left (by rw [hl]; exact nofun)
              exact Port.arrive_held_nil d _ _ (Port.arrive_sending_nil d _ _ hsending)
                (Port.arrive_held_nil d _ _ hsending hheld)
          rw [Port.setRx_setRx] at hholds
          rw [Port.renewQuiet, hholds]
          rfl
        · rw [Port.renewQuiet_live, Port.withRelay_live, Port.setRx_live]
      have hreceive (aborted : Bool) : exec (.frameReceived p d (if aborted then .aborted rest else .closed rest)) s =
          .next ((s.strayContent p d rest).strayBits p d [] (strayEnd aborted (((s.port p).rx d).stray ++ rest))) := by
        rw [exec_frameReceived_eq s p d _ hs]
        cases aborted <;> simp [State.receive, State.takeEnd, ho]
      have hend (aborted : Bool) : ∃ u : State,
          exec (.frameReceived p d (if aborted then .aborted rest else .closed rest)) s = .next u ∧ u = s.setPort p (u.port p) ∧
            (u.port p).quietSince = some s.tb.instant ∧ (u.port p).live = (s.port p).live := by
        obtain ⟨y, hy, hsince, hlive⟩ := hone (strayEnd aborted (((s.port p).rx d).stray ++ rest))
        refine ⟨_, hreceive aborted, ?_⟩
        rw [hy, State.port_setPort_same]
        exact ⟨rfl, hsince, hlive⟩
      exact ⟨hend false, hend true⟩

end Sys2Proof.Machine
end

