-- ==== Sys2Proof/Proofs/Insertion.lean ====
section
/-! PROOFS. Sys2Proof/Proofs/Insertion.lean: the insertion of responses and the buffer behind them (R11, R16, R17). -/

namespace Sys2Proof.Machine

section Facts

variable (x : Port)

/-! ## Waiting on the UP line (log entry 5) -/

theorem Port.awaitUp_reached (idle : LineBit) (stop : Port → Bool) (h : stop x = true) : x.awaitUp idle stop = x := by
  have hidle : Port.idleUntil idle stop 700 x = x := by
    unfold Port.idleUntil
    rw [if_pos h]
  unfold Port.awaitUp
  rw [hidle, ite_self]

/-- A frame in reception, and content outside one, bring their own bits (R16, R17). -/
theorem Port.awaitUp_busy (idle : LineBit) (stop : Port → Bool) (h : x.upRx.opening ≠ none ∨ x.upRx.stray ≠ []) :
    x.awaitUp idle stop = x := by
  unfold Port.awaitUp
  rw [if_neg]
  simp only [Bool.and_eq_true, Option.isNone_iff_eq_none, List.isEmpty_iff]
  rintro ⟨⟨ho, hs⟩, -⟩
  exact h.elim (fun h => h ho) fun h => h hs

theorem Port.mayInsert_iff : x.mayInsert = true ↔
    x.forwards = true ∧ x.responses ≠ [] ∧ x.inserting = none ∧ x.held = [] ∧ 16 ≤ x.upFlags := by
  simp [Port.mayInsert, and_assoc]

theorem exec_insertionBegin (s : State) (p : PortId) (hs : s.initialising = false) (y : Port)
    (hy : (if (s.port p).insertionWaits then (s.port p).awaitUp .flag Port.mayInsert else s.port p) = y) :
    exec (.insertionBegin p) s =
      .next (if y.mayInsert then s.setPort p ((y.beginInsertion s.straps).requiet s.tb.instant) else s) := by
  subst hy
  exact s.event_eq _ hs

theorem exec_insertionEnd (s : State) (p : PortId) (marks : Bool) (hs : s.initialising = false) (r : Response)
    (hr : (s.port p).inserting = some r) (hsending : (s.port p).sending = []) :
    exec (.insertionEnd p marks) s = .next (s.setPort p ((s.port p).endInsertion.requiet s.tb.instant)) := by
  have hexec : exec (.insertionEnd p marks) s = s.event fun s =>
      let x := if (s.port p).inserting.isSome then
        (s.port p).awaitUp (if marks then .mark else .flag) fun x => x.sending.isEmpty else s.port p
      if x.insertionDone then s.setPort p (x.endInsertion.requiet s.tb.instant) else s := rfl
  have hwait (idle : LineBit) : (s.port p).awaitUp idle (fun x => x.sending.isEmpty) = s.port p :=
    (s.port p).awaitUp_reached idle _ (by simp [hsending])
  rw [hexec, s.event_eq _ hs]
  dsimp only
  rw [hwait, ite_self, if_pos (by simp [Port.insertionDone, hr, hsending])]

theorem exec_backlogDrained (s : State) (p : PortId) (hs : s.initialising = false) (y : Port)
    (hy : (s.port p).awaitUp .flag (fun x => x.held.isEmpty) = y) :
    exec (.backlogDrained p) s =
      .next (if (s.port p).sending.isEmpty && !(s.port p).held.isEmpty && y.held.isEmpty then
        s.setPort p (y.requiet s.tb.instant) else s) := by
  subst hy
  exact s.event_eq _ hs

/-! ## One bit time (R16, R17) -/

theorem Port.skips_iff (b : LineBit) :
    x.skips b = true ↔ b = .opening ∧ (x.skipping = true ∨ List.replicate 8 .closing <:+ x.held) := by
  simp [Port.skips, closingBits]

theorem Port.kept_eq (b : LineBit) : x.kept b = match b with
    | .content _ => [b]
    | .closing => [b]
    | .opening => if x.skips .opening then [] else [b]
    | .mark => if x.held ≠ [] ∧ x.markRun < 7 then [b] else []
    | .flag => [] := by
  unfold Port.kept Port.stores
  cases b with
  | opening => cases x.skips .opening <;> rfl
  | mark => by_cases hh : x.held = [] <;> simp [hh]
  | _ => rfl

/-- While anything of a response or of the buffer is to be sent, the next of it leaves, and the bit from the delay joins the tail. -/
theorem Port.relayUp_busy (b c : LineBit) (l : List LineBit) (h : x.sending ++ x.held = c :: l) :
    (x.relayUp b).sending ++ (x.relayUp b).held = l ++ x.kept b ∧ (x.relayUp b).toCentre = x.toCentre ++ [c] ∧
      (x.relayUp b).skipping = x.skips b ∧ ∃ front, (x.relayUp b).held = front ++ x.kept b := by
  unfold Port.relayUp
  split
  next r rest hs =>
    rw [hs, List.cons_append, List.cons.injEq] at h
    obtain ⟨rfl, rfl⟩ := h
    exact ⟨by simp [Port.sendCentre], rfl, rfl, x.held, rfl⟩
  next r rest hs hh =>
    rw [hs, hh, List.nil_append, List.cons.injEq] at h
    obtain ⟨rfl, rfl⟩ := h
    exact ⟨by simp [Port.sendCentre, hs], rfl, rfl, rest, rfl⟩
  next hs hh =>
    rw [hs, hh] at h
    cases h

theorem Port.relayUp_delay (b : LineBit) : (x.relayUp b).upDelay = x.upDelay := by
  unfold Port.relayUp
  split <;> rfl

/-- The relay looks at no bit of the delay but the one that comes out of it. -/
theorem Port.upBit_cons (b out : LineBit) (rest : List LineBit) (h : x.upDelay = out :: rest) :
    x.upBit b = { x with upDelay := rest ++ [b] }.relayUp out := by
  unfold Port.upBit
  split
  next hn => rw [h] at hn; cases hn
  next o r hc =>
    rw [h, List.cons.injEq] at hc
    obtain ⟨rfl, rfl⟩ := hc
    rfl

/-! ## Content of a frame while something is to be sent (R17) -/

/-- Content and closing flags that come out of the delay while a response goes out are held whole and in order. -/
theorem Port.foldl_upBit_held (bits : List LineBit) (hdelay : x.upDelay ≠ []) (hl : bits.length ≤ x.sending.length)
    (h : ∀ b ∈ (x.upDelay ++ bits).take bits.length, b = .closing ∨ ∃ v, b = .content v) :
    (bits.foldl Port.upBit x).held = x.held ++ (x.upDelay ++ bits).take bits.length ∧
    (bits.foldl Port.upBit x).sending = x.sending.drop bits.length ∧
    (bits.foldl Port.upBit x).toCentre = x.toCentre ++ x.sending.take bits.length ∧
    (bits.foldl Port.upBit x).upDelay = (x.upDelay ++ bits).drop bits.length := by
  induction bits generalizing x with
  | nil => simp
  | cons b bits ih =>
    obtain ⟨out, rest, hd⟩ : ∃ out rest, x.upDelay = out :: rest := by
      cases hd : x.upDelay with
      | nil => exact absurd hd hdelay
      | cons out rest => exact ⟨out, rest, rfl⟩
    obtain ⟨r, more, hs⟩ : ∃ r more, x.sending = r :: more := by
      cases hs : x.sending with
      | nil => rw [hs] at hl; simp at hl
      | cons r more => exact ⟨r, more, rfl⟩
    have hkept : x.kept out = [out] := by
      rw [Port.kept_eq]
      rcases h out (by simp [hd]) with rfl | ⟨v, rfl⟩ <;> rfl
    have hbit : ∃ upFlags markRun skipping, x.upBit b = { x with
        sending := more, held := x.held ++ [out], upDelay := rest ++ [b], toCentre := x.toCentre ++ [r], upFlags := upFlags,
        markRun := markRun, skipping := skipping } := by
      rw [x.upBit_cons b out rest hd, ← hkept]
      simp only [Port.relayUp, hs, Port.sendCentre]
      exact ⟨_, _, _, rfl⟩
    obtain ⟨upFlags, markRun, skipping, hbit⟩ := hbit
    have hih := ih (x.upBit b) (by rw [hbit]; simp) (by rw [hbit]; rw [hs] at hl; simpa using hl) (by
      intro c hc
      rw [hbit] at hc
      refine h c ?_
      rw [hd]
      simp only [List.length_cons, List.cons_append, List.take_succ_cons, List.mem_cons]
      right
      simpa using hc)
    obtain ⟨hheld, hsending, hcentre, hdelay'⟩ := hih
    rw [List.foldl_cons, hheld, hsending, hcentre, hdelay', hbit]
    simp [hd, hs]

/-! ## An opening flag behind the buffer (log entry 48) -/

section Opening

variable (b : LineBit) (rest : List LineBit) (c : LineBit) (l : List LineBit)

theorem Port.upBit_busy (out : LineBit) (hd : x.upDelay = out :: rest) (h : x.sending ++ x.held = c :: l) :
    (x.upBit b).sending ++ (x.upBit b).held = l ++ x.kept out ∧ (x.upBit b).toCentre = x.toCentre ++ [c] ∧
      (x.upBit b).skipping = x.skips out ∧ (∃ front, (x.upBit b).held = front ++ x.kept out) ∧
      (x.upBit b).upDelay = rest ++ [b] := by
  rw [x.upBit_cons b out rest hd]
  obtain ⟨hrest, hcentre, hskips, hfront⟩ := Port.relayUp_busy { x with upDelay := rest ++ [b] } out c l h
  exact ⟨hrest, hcentre, hskips, hfront, Port.relayUp_delay _ _⟩

end Opening

theorem Port.delay_of_openings {n : Nat} (h : x.upDelay.take (n + 1) = List.replicate (n + 1) .opening) :
    ∃ rest, x.upDelay = .opening :: rest ∧ rest.take n = List.replicate n .opening := by
  cases hd : x.upDelay with
  | nil => rw [hd] at h; simp [List.replicate_succ] at h
  | cons out rest =>
    rw [hd, List.take_succ_cons, List.replicate_succ, List.cons.injEq] at h
    exact ⟨rest, by rw [h.1], h.2⟩

/-- An opening flag that the buffer leaves out, from its first bit to its last (log entry 48). -/
theorem Port.foldl_upBit_skipped (bits : List LineBit) (hopening : x.upDelay.take bits.length = List.replicate bits.length .opening)
    (hskips : x.skips .opening = true) (hl : bits.length ≤ (x.sending ++ x.held).length) :
    (bits.foldl Port.upBit x).sending ++ (bits.foldl Port.upBit x).held = (x.sending ++ x.held).drop bits.length ∧
    (bits.foldl Port.upBit x).toCentre = x.toCentre ++ (x.sending ++ x.held).take bits.length := by
  induction bits generalizing x with
  | nil => simp
  | cons b bits ih =>
    obtain ⟨rest, hd, hrest⟩ := x.delay_of_openings hopening
    obtain ⟨c, l, hcl⟩ := List.exists_cons_of_length_pos (l := x.sending ++ x.held) (by rw [List.length_cons] at hl; omega)
    obtain ⟨hbusy, hcentre, hskipping, -, hdelay⟩ := x.upBit_busy b rest c l .opening hd hcl
    have hkept : x.kept .opening = [] := by rw [Port.kept_eq]; simp [hskips]
    rw [hkept, List.append_nil] at hbusy
    have hlen : bits.length ≤ rest.length := by
      have := congrArg List.length hrest
      simpa using this
    have hih := ih (x.upBit b) (by rw [hdelay, List.take_append_of_le_length hlen, hrest])
      ((Port.skips_iff _ _).mpr ⟨rfl, .inl (hskipping.trans hskips)⟩) (by rw [hbusy]; rw [hcl] at hl; simpa using hl)
    rw [List.foldl_cons, hih.1, hih.2, hbusy, hcentre, hcl]
    simp

/-- An opening flag that the buffer stores, whole. -/
theorem Port.foldl_upBit_stored (bits : List LineBit) (hopening : x.upDelay.take bits.length = List.replicate bits.length .opening)
    (hskips : x.skips .opening = false) (hne : x.sending ++ x.held ≠ []) :
    (bits.foldl Port.upBit x).sending ++ (bits.foldl Port.upBit x).held =
      (x.sending ++ x.held ++ List.replicate bits.length LineBit.opening).drop bits.length ∧
    (bits.foldl Port.upBit x).toCentre =
      x.toCentre ++ (x.sending ++ x.held ++ List.replicate bits.length LineBit.opening).take bits.length := by
  induction bits generalizing x with
  | nil => simp
  | cons b bits ih =>
    obtain ⟨rest, hd, hrest⟩ := x.delay_of_openings hopening
    obtain ⟨c, l, hcl⟩ := List.exists_cons_of_ne_nil hne
    obtain ⟨hbusy, hcentre, hskipping, ⟨front, hfront⟩, hdelay⟩ := x.upBit_busy b rest c l .opening hd hcl
    have hkept : x.kept .opening = [.opening] := by rw [Port.kept_eq]; simp [hskips]
    rw [hkept] at hbusy hfront
    have hlen : bits.length ≤ rest.length := by
      have := congrArg List.length hrest
      simpa using this
    have hnext : (x.upBit b).skips .opening = false := by
      rw [Bool.eq_false_iff, Ne, Port.skips_iff, hskipping, hskips, hfront]
      rintro ⟨-, h | h⟩
      · cases h
      · have hlast := List.IsSuffix.getLast h (by simp)
        simp at hlast
    have hih := ih (x.upBit b) (by rw [hdelay, List.take_append_of_le_length hlen, hrest]) hnext (by rw [hbusy]; simp)
    rw [List.foldl_cons, hih.1, hih.2, hbusy, hcentre, hcl]
    simp [List.replicate_succ]

/-! ## The draining of the buffer (R17) -/

/-- What is held, and what may come to be held of the bits in the delay. -/
def Port.toDrain (x : Port) : Nat := x.held.length + x.upDelay.countP fun b => b ≠ .flag

theorem Port.drain_step (c : LineBit) (l : List LineBit) (hs : x.sending = []) (hh : x.held = c :: l) :
    (x.upBit .flag).toDrain + 1 ≤ x.toDrain ∧ ∃ kept, (x.upBit .flag).held = l ++ kept ∧
      (x.upBit .flag).toCentre = x.toCentre ++ [c] := by
  have hcl : x.sending ++ x.held = c :: l := by rw [hs, hh, List.nil_append]
  have hsending := x.upBit_sending_nil .flag hs
  cases hd : x.upDelay with
  | nil =>
    have hbit : x.upBit .flag = x.relayUp .flag := by simp only [Port.upBit, hd]
    obtain ⟨hbusy, hcentre, -, -⟩ := x.relayUp_busy .flag c l hcl
    rw [hbit] at hsending ⊢
    rw [hsending, List.nil_append, Port.kept_eq] at hbusy
    refine ⟨?_, [], hbusy, hcentre⟩
    rw [Port.toDrain, Port.toDrain, hbusy, Port.relayUp_delay, hd, hh]
    simp
  | cons out rest =>
    obtain ⟨hbusy, hcentre, -, -, hdelay⟩ := x.upBit_busy .flag rest c l out hd hcl
    rw [hsending, List.nil_append] at hbusy
    refine ⟨?_, x.kept out, hbusy, hcentre⟩
    have hkept : (x.kept out).length ≤ if out = .flag then 0 else 1 := by
      rw [Port.kept_eq]
      cases out with
      | opening => dsimp only; split <;> simp
      | mark => dsimp only; split <;> simp
      | _ => simp
    rw [Port.toDrain, Port.toDrain, hbusy, hdelay, hd, hh, List.length_append, List.length_cons, List.countP_append,
      List.countP_cons]
    by_cases hflag : out = .flag
    · simp [hflag] at hkept ⊢
      omega
    · simp [hflag] at hkept ⊢
      omega

theorem Port.idleUntil_drains (n : Nat) (hs : x.sending = []) (hn : x.toDrain ≤ n) :
    (x.idleUntil .flag (fun y => y.held.isEmpty) n).held = [] ∧
      ∃ more, (x.idleUntil .flag (fun y => y.held.isEmpty) n).toCentre = x.toCentre ++ x.held ++ more := by
  induction n generalizing x with
  | zero =>
    have hheld : x.held = [] := by
      rw [← List.length_eq_zero_iff]
      unfold Port.toDrain at hn
      omega
    exact ⟨hheld, [], by simp [Port.idleUntil, hheld]⟩
  | succ n ih =>
    unfold Port.idleUntil
    cases hh : x.held with
    | nil => exact ⟨by simp [hh], [], by simp⟩
    | cons c l =>
      obtain ⟨hstep, kept, hheld, hcentre⟩ := x.drain_step c l hs hh
      obtain ⟨hdone, more, hmore⟩ := ih (x.upBit .flag) (x.upBit_sending_nil .flag hs) (by omega)
      refine ⟨hdone, kept ++ more, ?_⟩
      refine hmore.trans ?_
      rw [hheld, hcentre]
      simp

theorem Port.toDrain_le (h : x.held.length ≤ 640) (hd : x.upDelay.length = 40) : x.toDrain ≤ 700 := by
  have hcount := List.countP_le_length (p := fun b : LineBit => decide (b ≠ .flag)) (l := x.upDelay)
  unfold Port.toDrain
  omega

end Facts

/-- Settles O17: the conditions of an insertion, its bit times, its end, and the draining of the buffer. -/
theorem insertionAndBacklog : Obligations.InsertionAndBacklog := by
  refine ⟨?_, ?_, ?_, ?_, fun x d bits => x.arrive_bounded d bits⟩
  case refine_1 =>
    intro s p hs
    refine ⟨?_, ?_, ?_, ?_, ?_, ?_⟩
    · intro r rest hf hr hn hh hflags
      have hmay : (s.port p).mayInsert = true := (Port.mayInsert_iff _).mpr ⟨hf, by rw [hr]; simp, hn, hh, hflags⟩
      rw [exec_insertionBegin s p hs (s.port p) (by rw [Port.awaitUp_reached _ _ _ hmay, ite_self]), if_pos hmay]
      have hstate : (s.port p).state ≠ .joining := by
        intro hj
        simp [Port.forwards, hj] at hf
      have hquiet : ({ s.port p with
          responses := rest, inserting := some r, sending := frameBits (responseContent s.straps r) } : Port).quietHolds = false := by
        unfold Port.quietHolds
        split
        next hj => exact absurd hj hstate
        · simp
        · rfl
      simp only [Port.beginInsertion, hr, Port.requiet, hquiet]
      rfl
    · intro hbusy hwait
      have hno : ¬ (s.port p).mayInsert = true := by
        rw [Port.mayInsert_iff]
        rintro ⟨-, -, -, hh, hflags⟩
        rcases hwait with hwait | hwait
        · exact hwait hh
        · omega
      rw [exec_insertionBegin s p hs (s.port p) (by rw [Port.awaitUp_busy _ _ _ hbusy, ite_self]), if_neg hno]
    · intro r marks hr hsending hstate
      rw [exec_insertionEnd s p marks hs r hr hsending]
      simp [Port.requiet, Port.quietHolds, Port.endInsertion, Port.countPort, hstate]
    · intro r marks hr hsending hstate
      rw [exec_insertionEnd s p marks hs r hr hsending]
      have hquiet : (s.port p).endInsertion.quietHolds = true ↔ (s.port p).transferEnd = none ∧ (s.port p).responses = [] ∧
          (s.port p).held = [] ∧ (s.port p).downRx.idle = true ∧ (s.port p).upRx.idle = true := by
        simp [Port.quietHolds, Port.endInsertion, Port.countPort, Port.idle, hstate]
        tauto
      simp only [Port.requiet, hquiet]
      rfl
    · intro hbusy hheld
      rw [exec_backlogDrained s p hs (s.port p) (Port.awaitUp_busy _ _ _ hbusy), if_neg]
      simp [hheld]
    · intro hf ho hstray hsending hheld hlen hdelay
      obtain ⟨hdone, more, hmore⟩ := (s.port p).idleUntil_drains 700 hsending ((s.port p).toDrain_le hlen hdelay)
      have hwait : (s.port p).awaitUp .flag (fun x => x.held.isEmpty) =
          (s.port p).idleUntil .flag (fun x => x.held.isEmpty) 700 := by
        unfold Port.awaitUp
        rw [if_pos (by simp [ho, hstray, hf])]
      refine ⟨_, more, (exec_backlogDrained s p hs _ hwait).trans (congrArg _ (if_pos ?_)), ?_, ?_, ?_⟩
      · simp [hsending, hheld, hdone]
      · rw [State.port_setPort_same]
      · rw [State.port_setPort_same]
        exact List.length_eq_zero_iff.mpr hdone
      · rw [State.port_setPort_same]
        exact hmore
  case refine_2 =>
    intro x b kept skips hskips hkept
    have hskips' : skips = x.skips b := by rw [Bool.eq_iff_iff, hskips, Port.skips_iff]
    have hkept' : kept = x.kept b := by
      rw [hkept, Port.kept_eq, hskips']
      cases b <;> rfl
    subst hskips' hkept'
    refine ⟨fun r rest hs => ?_, fun h rest hs hh => ?_, fun hs hh => x.relayUp_free b hs hh⟩
    · simp only [Port.relayUp, Port.sendCentre, hs]
    · simp only [Port.relayUp, Port.sendCentre, hs, hh]
  case refine_3 =>
    intro x bits hf hdelay hl h
    have harrive : x.arrive .up bits = bits.foldl Port.upBit x := if_pos hf
    rw [harrive]
    exact x.foldl_upBit_held bits (by rintro hn; rw [hn] at hdelay; cases hdelay) hl h
  case refine_4 =>
    intro x bits kept hf hdelay hbits hopening hskipping hne hkept
    have harrive : x.arrive .up bits = bits.foldl Port.upBit x := if_pos hf
    rw [harrive]
    by_cases hsuffix : List.replicate 8 .closing <:+ x.held
    · have hlong := List.IsSuffix.length_le hsuffix
      rw [if_pos hsuffix] at hkept
      have hskipped := x.foldl_upBit_skipped bits (by rw [hbits]; exact hopening) ((x.skips_iff _).mpr ⟨rfl, .inr hsuffix⟩)
        (by rw [hbits, List.length_append]; simp at hlong; omega)
      rw [hbits] at hskipped
      rw [hkept, List.append_nil]
      exact hskipped
    · rw [if_neg hsuffix] at hkept
      have hstored := x.foldl_upBit_stored bits (by rw [hbits]; exact hopening) (by
        rw [Bool.eq_false_iff, Ne, Port.skips_iff, hskipping]
        rintro ⟨-, h | h⟩
        · cases h
        · exact hsuffix h) hne
      rw [hbits] at hstored
      rw [hkept]
      exact hstored

end Sys2Proof.Machine
end

