-- ==== Sys2Proof/Proofs/Silence.lean ====
section
/-! PROOFS. Sys2Proof/Proofs/Silence.lean: the raising of SILENT, and the stale marking of the records of a port (R19, R38, R100, R103). -/

namespace Sys2Proof.Machine

/-- A record that has become stale (R38, R100). -/
def Element.stalled (e : Element) : Element := { e with sup := .idle, candidate := none, lastCommand := none, stale := true }

/-- The journal after the INTERRUPTED outcome of a record that was under supervision, and as it was for any other (R100, R103). -/
def State.interruptedJournal (s : State) (i : Nat) (e : Element) : Journal :=
  if e.sup != .idle then
    (s.withRecord (s.elementLevel e .movement) (.movementOutcome i .interrupted (e.sup.target.getD 0) none none)).journal
  else s.journal

section Facts

variable (s : State)

theorem State.markStale_present (i : Nat) (e : Element) (h : s.element i = some e) :
    s.markStale i = (s.setElement i e.stalled).setJournal (s.interruptedJournal i e) := by
  unfold State.markStale
  rw [h]
  dsimp only
  unfold endSupervision State.interruptedJournal Element.stalled State.applySupervised
  cases hsup : e.sup <;> simp [hsup, Supervision.target] <;> rfl

theorem State.markStale_absent (i : Nat) (h : s.element i = none) : s.markStale i = s := by
  unfold State.markStale
  rw [h]

theorem State.element_markStale (i j : Nat) :
    (s.markStale i).element j = if j = i then (s.element j).map Element.stalled else s.element j := by
  split
  next hj =>
    subst hj
    cases he : s.element j with
    | none => rw [s.markStale_absent j he, he]; rfl
    | some e =>
      rw [s.markStale_present j e he]
      exact s.element_setElement_same j e.stalled
  next hj =>
    cases he : s.element i with
    | none => rw [s.markStale_absent i he]
    | some e =>
      rw [s.markStale_present i e he]
      exact s.element_setElement_other i j e.stalled hj

/-- The records named become stale, and no other changes (R38). -/
theorem State.element_foldl_markStale (l : List Nat) (j : Nat) :
    (l.foldl State.markStale s).element j = if j ∈ l then (s.element j).map Element.stalled else s.element j := by
  induction l generalizing s with
  | nil => simp
  | cons i l ih =>
    rw [List.foldl_cons, ih, State.element_markStale]
    by_cases hj : j = i
    · by_cases hl : j ∈ l
      · simp only [hj, if_true, List.mem_cons, true_or]
        rw [if_pos (hj ▸ hl), Option.map_map]
        rfl
      · simp only [hj, if_true, List.mem_cons, true_or]
        rw [if_neg (hj ▸ hl)]
    · simp [hj]

/-- The outcome records of a stale marking are those of the records under supervision, in the order of the marking (R100, R103). -/
theorem State.journal_foldl_markStale (l : List (Nat × Element)) (hl : (l.map Prod.fst).Nodup) (v w : State)
    (helements : ∀ x ∈ l, v.element x.1 = some x.2) (hlevel : ∀ c, v.levelOf c = s.levelOf c) (htb : v.tb = w.tb)
    (hjournal : v.journal = w.journal) :
    ((l.map Prod.fst).foldl State.markStale v).journal =
      ((l.filter fun x => x.2.sup != .idle).foldl (fun v x => v.withRecord (s.elementLevel x.2 .movement)
        (.movementOutcome x.1 .interrupted (x.2.sup.target.getD 0) none none)) w).journal := by
  induction l generalizing v w with
  | nil => exact hjournal
  | cons x l ih =>
    obtain ⟨i, e⟩ := x
    rw [List.map_cons, List.nodup_cons] at hl
    obtain ⟨hnew, hrest⟩ := hl
    have he : v.element i = some e := helements (i, e) (List.mem_cons_self ..)
    have hothers : ∀ x ∈ l, (v.markStale i).element x.1 = some x.2 := by
      intro x hx
      rw [State.element_markStale, if_neg]
      · exact helements x (List.mem_cons_of_mem _ hx)
      · intro hxi
        have hmem : x.1 ∈ l.map Prod.fst := List.mem_map_of_mem hx
        rw [hxi] at hmem
        exact hnew hmem
    have helementLevel : v.elementLevel e .movement = s.elementLevel e .movement := by
      rw [State.elementLevel, hlevel, State.elementLevel]
    have hmarked : (v.markStale i).journal = v.interruptedJournal i e := by
      rw [v.markStale_present i e he]
      rfl
    have htb' : (v.markStale i).tb = v.tb := by
      rw [v.markStale_present i e he]
      rfl
    have hlevel' (c : JournalClass) : (v.markStale i).levelOf c = s.levelOf c := by
      rw [← hlevel c, State.levelOf, hmarked, State.levelOf]
      unfold State.interruptedJournal
      split
      · rw [State.withRecord_journal, Journal.offer_classes]
      · rfl
    rw [List.map_cons, List.foldl_cons, List.filter_cons]
    cases hsup : e.sup != .idle with
    | true =>
      refine ih hrest _ _ hothers hlevel' (htb'.trans htb) ?_
      rw [hmarked, State.interruptedJournal, hsup, if_pos rfl, helementLevel, State.withRecord_journal, htb, hjournal]
      rfl
    | false =>
      refine ih hrest _ _ hothers hlevel' (htb'.trans htb) ?_
      rw [hmarked, State.interruptedJournal, hsup]
      exact hjournal

theorem lookup_of_mem {t : List (Nat × Element)} (h : tableWf t) {x : Nat × Element} (hx : x ∈ t) : lookup t x.1 = some x.2 := by
  obtain ⟨hsorted, -⟩ := h
  induction t with
  | nil => cases hx
  | cons y t ih =>
    obtain ⟨k, e⟩ := y
    rw [List.map_cons, List.pairwise_cons] at hsorted
    rcases List.mem_cons.mp hx with rfl | hx
    · simp [lookup]
    · have hlt := hsorted.1 x.1 (List.mem_map_of_mem hx)
      simp only [lookup]
      rw [if_neg (by omega)]
      exact ih hx hsorted.2

/-- A port's records, with their contents, in the order of the table. -/
def State.portRecords (s : State) (p : PortId) : List (Nat × Element) :=
  s.elements.filter fun x => (s.mapping x.1).any fun m => m.port == p

theorem State.recordsOf_eq (p : PortId) : s.recordsOf p = (s.portRecords p).map Prod.fst := by
  rw [State.recordsOf, State.portRecords, List.filter_map]
  rfl

theorem State.mem_recordsOf (p : PortId) (j : Nat) (e : Element) (h : s.element j = some e) :
    j ∈ s.recordsOf p ↔ (s.mapping j).any (fun m => m.port == p) = true := by
  have hkey : j ∈ s.elements.map Prod.fst := List.mem_map.mpr ⟨(j, e), mem_of_lookup h, rfl⟩
  simp only [State.recordsOf, List.mem_filter, hkey, true_and]

theorem State.not_mem_recordsOf (p : PortId) (j : Nat) (h : (s.mapping j).any (fun m => m.port == p) = false) :
    j ∉ s.recordsOf p := by
  simp [State.recordsOf, h]

/-- What the raising of UP SILENT makes of the records of a port (R38). -/
theorem State.raiseSilent_elements (p : PortId) :
    (∀ i e, s.element i = some e → (s.mapping i).any (fun m => m.port == p) = true →
      (s.raiseSilent p .up).element i = some e.stalled) ∧
    ∀ i, (s.mapping i).any (fun m => m.port == p) = false → (s.raiseSilent p .up).element i = s.element i := by
  have helement (i : Nat) : (s.raiseSilent p .up).element i =
      if i ∈ s.recordsOf p then (s.element i).map Element.stalled else s.element i :=
    State.element_foldl_markStale (s.setCondition p .up .silent true) (s.recordsOf p) i
  refine ⟨fun i e he hm => ?_, fun i hm => ?_⟩
  · rw [helement, if_pos ((s.mem_recordsOf p i e he).mpr hm), he]
    rfl
  · rw [helement, if_neg (s.not_mem_recordsOf p i hm)]

/-- The records that the raising of UP SILENT writes (R19, R100, R103). -/
theorem State.raiseSilent_journal (p : PortId) (hw : tableWf s.elements) :
    (s.raiseSilent p .up).journal = ((s.withRecord (s.levelOf .link) (.linkCondition p .up .silent true)).withOutcomes
      .interrupted (s.supervised.filter fun x => (s.mapping x.1).any fun m => m.port == p)).journal := by
  have hsub : (s.portRecords p).Sublist s.elements := List.filter_sublist
  have hnodup : ((s.portRecords p).map Prod.fst).Nodup :=
    (hw.1.sublist (hsub.map Prod.fst)).imp fun h => Nat.ne_of_lt h
  have hcommon : (s.supervised.filter fun x => (s.mapping x.1).any fun m => m.port == p) =
      (s.portRecords p).filter fun x => x.2.sup != .idle := by
    rw [State.supervised, State.portRecords, List.filter_filter, List.filter_filter]
    exact congrArg (List.filter · _) (funext fun x => Bool.and_comm _ _)
  show ((s.recordsOf p).foldl State.markStale (s.setCondition p .up .silent true)).journal = _
  rw [State.recordsOf_eq, hcommon]
  exact State.journal_foldl_markStale (s.withRecord (s.levelOf .link) (.linkCondition p .up .silent true)) _ hnodup _
    (s.withRecord (s.levelOf .link) (.linkCondition p .up .silent true))
    (fun x hx => lookup_of_mem hw (hsub.subset hx)) (fun _ => rfl) rfl rfl

/-- The supervisor's part leaves the banks alone. -/
theorem State.markStale_only (i : Nat) :
    s.markStale i = { s with elements := (s.markStale i).elements, journal := (s.markStale i).journal } := by
  cases he : s.element i with
  | none => rw [s.markStale_absent i he]
  | some e => rw [s.markStale_present i e he]; rfl

theorem State.foldl_markStale_only (l : List Nat) :
    l.foldl State.markStale s =
      { s with elements := (l.foldl State.markStale s).elements, journal := (l.foldl State.markStale s).journal } := by
  induction l generalizing s with
  | nil => rfl
  | cons i l ih =>
    have hrest := ih (s.markStale i)
    have hfirst := s.markStale_only i
    rw [List.foldl_cons]
    generalize l.foldl State.markStale (s.markStale i) = u at hrest ⊢
    generalize s.markStale i = m at hrest hfirst
    rw [hrest, hfirst]

theorem State.raiseSilent_only (p : PortId) (d : Direction) :
    s.raiseSilent p d = { s with
      ports := (s.setCondition p d .silent true).ports, elements := (s.raiseSilent p d).elements,
      journal := (s.raiseSilent p d).journal } := by
  cases d with
  | down => rfl
  | up => exact State.foldl_markStale_only (s.setCondition p .up .silent true) (s.recordsOf p)

theorem Port.setRx_silent (x : Port) (d : Direction) :
    (x.setRx d ((x.rx d).setCondition .silent true)) = x.setRx d { x.rx d with silent := true, silentSeen := true } := by
  rw [Receiver.setCondition, Bool.or_true]

theorem State.raiseSilent_down (p : PortId) :
    s.raiseSilent p .down = (s.setPort p { s.port p with
      downRx := { (s.port p).downRx with silent := true, silentSeen := true } }).withRecord (s.levelOf .link)
        (.linkCondition p .down .silent true) := by
  show s.setCondition p .down .silent true = _
  rw [State.setCondition_eq, Port.setRx_silent]
  rfl

theorem State.lifeDue_iff (p : PortId) (d : Direction) : s.lifeDue p d = true ↔ ((s.port p).rx d).silent = false ∧
    ∃ t, ((s.port p).rx d).lifeSince = some t ∧ t + ms (s.port p).lifeTimeout ≤ s.tb.instant := by
  cases h : ((s.port p).rx d).lifeSince <;> simp [State.lifeDue, h]

/-- The instant of a life timer that is due has been reached (R19). -/
theorem exec_lifeTimeout_due (p : PortId) (d : Direction) (hs : s.initialising = false) (h : s.lifeDue p d = true) :
    exec (.lifeTimeout p d) s = .next (s.raiseSilent p d) := by
  have hexec : exec (.lifeTimeout p d) s = s.event fun s =>
      if (s.await (s.lifeInstant p d)).lifeDue p d then (s.await (s.lifeInstant p d)).raiseSilent p d
      else s.await (s.lifeInstant p d) := rfl
  have hreached : s.await (s.lifeInstant p d) = s := by
    obtain ⟨hsilent, t, hsince, hdue⟩ := (s.lifeDue_iff p d).mp h
    rw [State.lifeInstant, hsilent, hsince]
    exact s.await_reached _ hdue
  rw [hexec, s.event_eq _ hs, hreached, if_pos h]

end Facts

/-- Settles O14: the raise in either direction, and the fold of the stale marking over the records of the port. -/
theorem lifeTimeoutRaisesSilent : Obligations.LifeTimeoutRaisesSilent := by
  intro s p hs
  refine ⟨fun h => ?_, fun h => ⟨_, exec_lifeTimeout_due s p .up hs h, ?_, ?_, ?_, ?_, ?_⟩⟩
  · rw [exec_lifeTimeout_due s p .down hs h, State.raiseSilent_down]
  · have hports := congrArg State.ports (s.raiseSilent_only p .up)
    refine hports.trans ?_
    show (s.setPort p ((s.port p).setRx .up (((s.port p).rx .up).setCondition .silent true))).ports = _
    rw [Port.setRx_silent]
    rfl
  · exact (s.raiseSilent_elements p).1
  · exact (s.raiseSilent_elements p).2
  · exact s.raiseSilent_journal p
  · have honly := s.raiseSilent_only p .up
    generalize s.raiseSilent p .up = u at honly ⊢
    rw [honly]

end Sys2Proof.Machine
end

