-- ==== Sys2Proof/Proofs/PortSettings.lean ====
section
/-! PROOFS. Sys2Proof/Proofs/PortSettings.lean: the request SET PORT, and what its settings do at once (R6, R10, R19, R22, R174, R175). -/

namespace Sys2Proof.Machine

/-! ## Values as taken (R1, R174) -/

theorem takeSetting_eq (lo hi step raw : Nat) (hlo : lo ≤ hi) :
    takeSetting lo hi step raw =
      ⟨(2 * max lo (min hi raw) + step) / (2 * step) * step, (2 * max lo (min hi raw) + step) / (2 * step) * step != raw⟩ := by
  have hclamp : clampNat lo hi raw = max lo (min hi raw) := by
    unfold clampNat
    split
    · omega
    · split <;> omega
  have hround (n : Nat) : (roundDiv (n : Int) step).toNat = (2 * n + step) / (2 * step) := by
    rw [roundDiv, if_neg (by omega), Int.natAbs_natCast, Int.toNat_natCast]
  unfold takeSetting
  rw [hclamp, hround]

theorem takeSetting_life (raw : Nat) :
    takeSetting 100 10000 100 raw =
      ⟨(max 100 (min 10000 raw) + 50) / 100 * 100, (max 100 (min 10000 raw) + 50) / 100 * 100 != raw⟩ := by
  have hvalue (n : Nat) : (2 * n + 100) / (2 * 100) = (n + 50) / 100 := by omega
  rw [takeSetting_eq 100 10000 100 raw (by omega), hvalue]

theorem takeSetting_unit (lo hi raw : Nat) (h : lo ≤ hi) :
    takeSetting lo hi 1 raw = ⟨max lo (min hi raw), max lo (min hi raw) != raw⟩ := by
  have hvalue (n : Nat) : (2 * n + 1) / (2 * 1) * 1 = n := by omega
  rw [takeSetting_eq lo hi 1 raw h, hvalue]

theorem takeSetting_threshold (o : Byte) : takeSetting 1 255 1 o.toNat = ⟨max 1 o.toNat, max 1 o.toNat != o.toNat⟩ := by
  have hvalue : max 1 (min 255 o.toNat) = max 1 o.toNat := by omega
  rw [takeSetting_unit 1 255 _ (by omega), hvalue]

theorem LineRate.ofCode_lt {n : Nat} {k : LineRate} (h : LineRate.ofCode n = some k) : n < 6 := by
  unfold LineRate.ofCode at h
  split at h
  case h_7 => cases h
  all_goals omega

theorem flagOfCode_lt {n : Nat} {a : Bool} (h : flagOfCode n = some a) : n < 2 := by
  unfold flagOfCode at h
  split at h
  case h_3 => cases h
  all_goals omega

theorem LatchInterval.ofCode_lt {n : Nat} {i : LatchInterval} (h : LatchInterval.ofCode n = some i) : n < 4 := by
  unfold LatchInterval.ofCode at h
  split at h
  case h_5 => cases h
  all_goals omega

theorem toNat_ofNat_of_lt {n : Nat} (h : n < 256) : (BitVec.ofNat 8 n).toNat = n := by
  rw [BitVec.toNat_ofNat]
  omega

/-- The settings that a SET PORT gives, as they are taken (R22, R174). -/
def settingsOf (k : LineRate) (latency given : Nat) (threshold quiet : Byte) (a : Bool) : PortSettings where
  rate := k
  latency := latency
  life := takeSetting 100 10000 100 given
  threshold := takeSetting 1 255 1 threshold.toNat
  quiet := takeSetting 2 50 1 quiet.toNat
  accept := a

theorem settingsOf_values (k : LineRate) (latency given : Nat) (threshold quiet : Byte) (a : Bool) :
    (settingsOf k latency given threshold quiet a).life.value = (max 100 (min 10000 given) + 50) / 100 * 100 ∧
    (settingsOf k latency given threshold quiet a).threshold.value = max 1 threshold.toNat ∧
    (settingsOf k latency given threshold quiet a).quiet.value = max 2 (min 50 quiet.toNat) := by
  simp only [settingsOf]
  rw [takeSetting_life, takeSetting_threshold, takeSetting_unit 2 50 _ (by omega)]
  exact ⟨rfl, rfl, rfl⟩

theorem settingsOf_changed (k : LineRate) (latency given life : Nat) (threshold quiet : Byte) (a : Bool)
    (hlife : life = (max 100 (min 10000 given) + 50) / 100 * 100) :
    ((settingsOf k latency given threshold quiet a).life.changed || (settingsOf k latency given threshold quiet a).threshold.changed ||
      (settingsOf k latency given threshold quiet a).quiet.changed) =
      decide (life ≠ given ∨ threshold.toNat = 0 ∨ quiet.toNat < 2 ∨ 50 < quiet.toNat) := by
  simp only [settingsOf]
  rw [takeSetting_life, takeSetting_threshold, takeSetting_unit 2 50 _ (by omega), ← hlife, Bool.eq_iff_iff]
  simp only [Bool.or_eq_true, bne_iff_ne, ne_eq, decide_eq_true_eq]
  omega

/-- The octets of a SET PORT whose codes name something (R22). -/
theorem reqSetPort_named (s : State) (p : PortId) (rate given accept latch : Nat) (lat1 lat0 threshold quiet : Byte) (k : LineRate)
    (a : Bool) (i : LatchInterval) (hgiven : given < 65536) (hk : LineRate.ofCode rate = some k) (ha : flagOfCode accept = some a)
    (hi : LatchInterval.ofCode latch = some i) :
    reqSetPort [BitVec.ofNat 8 p.val, BitVec.ofNat 8 rate, lat1, lat0, BitVec.ofNat 8 (given / 256), BitVec.ofNat 8 (given % 256),
      threshold, quiet, BitVec.ofNat 8 accept, BitVec.ofNat 8 latch] s =
        s.setPortSettings p (settingsOf k (ofBe [lat1, lat0]) given threshold quiet a) i := by
  have hrate := LineRate.ofCode_lt hk
  have haccept := flagOfCode_lt ha
  have hlatch := LatchInterval.ofCode_lt hi
  have hlife : ofBe [BitVec.ofNat 8 (given / 256), BitVec.ofNat 8 (given % 256)] = given := by
    simp only [ofBe, List.foldl_cons, List.foldl_nil]
    rw [toNat_ofNat_of_lt (by omega), toNat_ofNat_of_lt (by omega)]
    omega
  unfold reqSetPort
  dsimp only
  rw [portOf_ofNat, toNat_ofNat_of_lt (n := rate) (by omega), hk, toNat_ofNat_of_lt (n := accept) (by omega), ha,
    toNat_ofNat_of_lt (n := latch) (by omega), hi, hlife]
  rfl

/-- A code that names nothing (R22). -/
theorem reqSetPort_range (s : State) (port rate lat1 lat0 life1 life0 threshold quiet accept latch : Byte)
    (h : 8 ≤ port.toNat ∨ 6 ≤ rate.toNat ∨ 2 ≤ accept.toNat ∨ 4 ≤ latch.toNat) :
    reqSetPort [port, rate, lat1, lat0, life1, life0, threshold, quiet, accept, latch] s = refuse s .range := by
  unfold reqSetPort
  dsimp only
  split
  next p k a i hp hk ha hi =>
    have hrate := LineRate.ofCode_lt hk
    have haccept := flagOfCode_lt ha
    have hlatch := LatchInterval.ofCode_lt hi
    rw [portOf_out_of_range port (by omega)] at hp
    cases hp
  next => rfl

/-! ## Another rate (R6) -/

section Ports

variable (x : Port) (now : Nat) (d : Direction)

/-- All that the cutting of a frame can change. -/
theorem Port.cutFrame_eq :
    x.cutFrame now d = { (x.setRx d { x.rx d with opening := none }).withRelay (x.cutFrame now d) with
      live := (x.cutFrame now d).live, quietSince := (x.cutFrame now d).quietSince } := by
  unfold Port.cutFrame
  split
  · cases d <;> rfl
  next hframe =>
    unfold Port.forgetFlag
    split
    · cases d <;> rfl
    next hno =>
      have hnone : (x.rx d).opening = none := by
        cases ho : (x.rx d).opening with
        | none => rfl
        | some o =>
          obtain ⟨c, k, m, content⟩ := o
          cases content with
          | nil => exact absurd ho (hno c k m)
          | cons b bits => simp [Receiver.inFrame, ho] at hframe
      have hrx : { x.rx d with opening := none } = x.rx d := by rw [← hnone]
      rw [hrx, Port.setRx_rx]
      rfl

theorem Port.cutFrame_live :
    (x.cutFrame now d).live = if (x.rx d).inFrame then (x.countDir d fun c => { c with aborts := raise32 c.aborts }).live
      else x.live := by
  unfold Port.cutFrame
  split
  · rw [Port.endFrame, Port.requiet_live, Port.setRx_live]
    rfl
  · unfold Port.forgetFlag
    split
    · rw [Port.setRx_live, Port.blank, (x.turn_only d _ _).live]
    · rfl

/-- In BYPASS no quiet run begins (R10, R11). -/
theorem Port.cutFrame_quietSince (hb : x.state = .bypass) :
    (x.cutFrame now d).quietSince = none ∨ (x.cutFrame now d).quietSince = x.quietSince := by
  unfold Port.cutFrame
  split
  · left
    have hstate : ((x.countDir d fun c => c.countClass .abort).setRx d { x.rx d with opening := none }).state = .bypass := by
      rw [Port.setRx_state, Port.countDir_state, hb]
    rw [Port.endFrame, Port.requiet_quietSince, Port.quietHolds, hstate]
    rfl
  · right
    unfold Port.forgetFlag
    split
    · rw [Port.setRx_quietSince]
      cases d <;> rfl
    · rfl

@[simp] theorem Port.cutFrame_state : (x.cutFrame now d).state = x.state := by
  rw [Port.cutFrame_eq]
  exact x.setRx_state d _

@[simp] theorem Port.cutFrame_transferEnd : (x.cutFrame now d).transferEnd = x.transferEnd := by
  rw [Port.cutFrame_eq]
  exact x.setRx_transferEnd d _

@[simp] theorem Port.cutFrame_relay : (x.cutFrame now d).relay = x.relay := by
  rw [Port.cutFrame_eq]
  cases d <;> rfl

theorem Port.cutFrame_rx_same : (x.cutFrame now d).rx d = { x.rx d with opening := none } := by
  rw [Port.cutFrame_eq]
  generalize x.cutFrame now d = y
  cases d <;> rfl

theorem Port.cutFrame_rx_other (e : Direction) (h : e ≠ d) : (x.cutFrame now d).rx e = x.rx e := by
  rw [Port.cutFrame_eq]
  generalize x.cutFrame now d = y
  cases d <;> cases e <;> first | exact absurd rfl h | rfl

theorem Counters.dir_setDir_other (c : Counters) (e : Direction) (v : DirCounters) (h : e ≠ d) : (c.setDir d v).dir e = c.dir e := by
  cases d <;> cases e <;> first | exact absurd rfl h | rfl

theorem Port.countDir_live_other (e : Direction) (f : DirCounters → DirCounters) (h : e ≠ d) :
    (x.countDir d f).live.dir e = x.live.dir e := Counters.dir_setDir_other d _ e _ h

theorem Port.cutFrame_live_same : (x.cutFrame now d).live.dir d = { x.live.dir d with
    aborts := if (x.rx d).inFrame = true then raise32 (x.live.dir d).aborts else (x.live.dir d).aborts } := by
  rw [Port.cutFrame_live]
  split
  · rw [Port.countDir_live_dir]
  · rfl

theorem Port.cutFrame_live_other (e : Direction) (h : e ≠ d) : (x.cutFrame now d).live.dir e = x.live.dir e := by
  rw [Port.cutFrame_live]
  split
  · exact x.countDir_live_other d e _ h
  · rfl

theorem Port.cutFrame_live_port : (x.cutFrame now d).live.port = x.live.port := by
  rw [Port.cutFrame_live]
  split
  · exact x.countDir_live_port d _
  · rfl

/-- The port after a change of rate, or as it was with the same (R6). -/
def Port.withRate (x : Port) (now : Nat) (k : LineRate) : Port :=
  if k = x.rate then x else (x.cutFrame now .down).cutFrame now .up

variable (k : LineRate)

theorem Port.withRate_same (h : k = x.rate) : x.withRate now k = x := if_pos h

/-- With nothing in reception another rate cuts nothing. -/
theorem Port.withRate_idle (h : k ≠ x.rate → x.downRx.opening = none ∧ x.upRx.opening = none) : x.withRate now k = x := by
  unfold Port.withRate
  split
  · rfl
  next hk =>
    obtain ⟨hd, hu⟩ := h hk
    have hcut (e : Direction) (he : (x.rx e).opening = none) : x.cutFrame now e = x := by
      simp [Port.cutFrame, Receiver.inFrame, he, Port.forgetFlag]
    rw [hcut .down hd, hcut .up hu]

@[simp] theorem Port.withRate_state : (x.withRate now k).state = x.state := by
  unfold Port.withRate
  split <;> simp

@[simp] theorem Port.withRate_transferEnd : (x.withRate now k).transferEnd = x.transferEnd := by
  unfold Port.withRate
  split <;> simp

@[simp] theorem Port.withRate_relay : (x.withRate now k).relay = x.relay := by
  unfold Port.withRate
  split <;> simp

theorem Port.withRate_rx : (x.withRate now k).rx d = { x.rx d with
    opening := if k ≠ x.rate then none else (x.rx d).opening } := by
  unfold Port.withRate
  by_cases hk : k = x.rate
  · simp [hk]
  · rw [if_neg hk, if_pos hk]
    cases d with
    | down => rw [Port.cutFrame_rx_other _ _ .up .down nofun, Port.cutFrame_rx_same]
    | up => rw [Port.cutFrame_rx_same, Port.cutFrame_rx_other _ _ .down .up nofun]

theorem Port.withRate_live_dir : (x.withRate now k).live.dir d = { x.live.dir d with
    aborts := if k ≠ x.rate ∧ (x.rx d).inFrame = true then raise32 (x.live.dir d).aborts else (x.live.dir d).aborts } := by
  unfold Port.withRate
  by_cases hk : k = x.rate
  · simp [hk]
  · rw [if_neg hk]
    simp only [ne_eq, hk, not_false_eq_true, true_and]
    cases d with
    | down => rw [Port.cutFrame_live_other _ _ .up .down nofun, Port.cutFrame_live_same]
    | up => rw [Port.cutFrame_live_same, Port.cutFrame_live_other _ _ .down .up nofun, Port.cutFrame_rx_other _ _ .down .up nofun]

theorem Port.withRate_live_port : (x.withRate now k).live.port = x.live.port := by
  unfold Port.withRate
  split
  · rfl
  · rw [Port.cutFrame_live_port, Port.cutFrame_live_port]

theorem Port.withRate_quietSince (hb : k ≠ x.rate → x.state = .bypass) :
    (x.withRate now k).quietSince = none ∨ (x.withRate now k).quietSince = x.quietSince := by
  unfold Port.withRate
  split
  · exact .inr rfl
  next hk =>
    rcases Port.cutFrame_quietSince (x.cutFrame now .down) now .up (by rw [Port.cutFrame_state]; exact hb hk) with h | h
    · exact .inl h
    · rw [h]
      exact x.cutFrame_quietSince now .down (hb hk)

/-! ## The settings of a port (R10, R22) -/

/-- The beginning of a relay transfer, the relay's own fields apart (R10, R11). -/
theorem Port.beginTransfer_eq :
    x.beginTransfer now = { x.withRelay (x.beginTransfer now) with
      transferEnd := some (now + ms 5), relay := x.state == .joining, quietSince := none } := by
  unfold Port.beginTransfer
  split <;> rfl

variable (t : PortSettings)

/-- The port with its settings, before a completed quiet run is looked at (R22). -/
def Port.withSettings (x : Port) (now : Nat) (t : PortSettings) : Port :=
  { x.withRate now t.rate with
    rate := t.rate, latency := t.latency, lifeTimeout := t.life.value, errorThreshold := t.threshold.value,
    quiet := t.quiet.value, accept := t.accept }

theorem Port.takeSettings_settled (h : (x.withSettings now t).quietDone now = false) :
    x.takeSettings now t = x.withSettings now t := by
  show (x.withSettings now t).settleQuiet now = _
  rw [Port.settleQuiet, h]
  rfl

theorem Port.takeSettings_completed (h : (x.withSettings now t).quietDone now = true) :
    x.takeSettings now t = (x.withSettings now t).beginTransfer now := by
  show (x.withSettings now t).settleQuiet now = _
  rw [Port.settleQuiet, h]
  rfl

/-- The settings as taken, and what of the port a completed quiet run can move besides (R10, R22). -/
theorem Port.takeSettings_eq :
    x.takeSettings now t = { (x.withSettings now t).withRelay (x.takeSettings now t) with
      transferEnd := (x.takeSettings now t).transferEnd, relay := (x.takeSettings now t).relay,
      quietSince := (x.takeSettings now t).quietSince } := by
  cases h : (x.withSettings now t).quietDone now with
  | false =>
    rw [x.takeSettings_settled now t h]
    rfl
  | true =>
    rw [x.takeSettings_completed now t h, Port.beginTransfer_eq]
    rfl

theorem Port.takeSettings_rx : (x.takeSettings now t).rx d = (x.withRate now t.rate).rx d := by
  rw [Port.takeSettings_eq]
  generalize x.takeSettings now t = y
  cases d <;> rfl

theorem Port.takeSettings_live : (x.takeSettings now t).live = (x.withRate now t.rate).live := by
  rw [Port.takeSettings_eq]
  rfl

/-- No quiet run completes where none is under way or the interval has not passed (R10). -/
theorem Port.not_quietDone (hb : t.rate ≠ x.rate → x.state = .bypass)
    (h : x.quietSince = none ∨ ∃ n, x.quietSince = some n ∧ now < n + ms t.quiet.value) :
    (x.withSettings now t).quietDone now = false := by
  rw [Bool.eq_false_iff]
  intro hdone
  cases hq : (x.withSettings now t).quietSince with
  | none =>
    rw [Port.quietDone, hq] at hdone
    cases hdone
  | some n =>
    have hreached := ((Port.quietDone_iff _ now n hq).mp hdone).2.2
    have hreached' : n + ms t.quiet.value ≤ now := hreached
    have hsince : (x.withRate now t.rate).quietSince = some n := hq
    rcases x.withRate_quietSince now t.rate hb with hw | hw
    · rw [hsince] at hw
      cases hw
    · rw [hsince] at hw
      rcases h with h | ⟨m, hm, hlt⟩
      · rw [h] at hw
        cases hw
      · rw [hm] at hw
        cases hw
        omega

end Ports

end Sys2Proof.Machine
end

