-- ==== Sys2Proof/Proofs/SetPort.lean ====
section
/-! PROOFS. Sys2Proof/Proofs/SetPort.lean: the settings of a port together with the timers that they judge anew (R10, R19, R22, R38). -/

namespace Sys2Proof.Machine

/-! ## A timer that has already run (R19) -/

/-- A port of which SILENT is raised in a direction, or not (R19). -/
def Port.silenced (x : Port) (d : Direction) (raised : Bool) : Port :=
  if raised then x.setRx d { x.rx d with silent := true, silentSeen := true } else x

section Facts

variable (x : Port) (s : State) (p : PortId) (d : Direction)

theorem Port.silenced_eq (raised : Bool) : x.silenced d raised =
    x.setRx d { x.rx d with silent := ((x.silenced d raised).rx d).silent, silentSeen := ((x.silenced d raised).rx d).silentSeen } := by
  cases raised <;> cases d <;> rfl

theorem Port.silenced_rx_other (e : Direction) (raised : Bool) (h : e ≠ d) : (x.silenced d raised).rx e = x.rx e := by
  rw [Port.silenced_eq, Port.rx_setRx_other _ _ _ _ h]

theorem Port.silenced_silent (raised : Bool) : ((x.silenced d raised).rx d).silent = ((x.rx d).silent || raised) := by
  cases raised
  · rw [Bool.or_false]
    rfl
  · rw [Bool.or_true]
    cases d <;> rfl

theorem Port.silenced_opening (e : Direction) (raised : Bool) : ((x.silenced d raised).rx e).opening = (x.rx e).opening := by
  cases raised
  · rfl
  · cases d <;> cases e <;> rfl

theorem State.settleLife_port_same : (s.settleLife p d).port p = (s.port p).silenced d (s.lifeDue p d) := by
  unfold State.settleLife Port.silenced
  split
  · have hports := congrArg State.ports (s.raiseSilent_only p d)
    have hport : (s.raiseSilent p d).port p = (s.setCondition p d .silent true).port p := congrArg (·.get p) hports
    rw [hport, State.setCondition_eq, State.withRecord_port, State.port_setPort_same, Port.setRx_silent]
  · rfl

theorem State.settleLife_port_other (q : PortId) (h : q ≠ p) : (s.settleLife p d).port q = s.port q := by
  unfold State.settleLife
  split
  · have hports := congrArg State.ports (s.raiseSilent_only p d)
    have hport : (s.raiseSilent p d).port q = (s.setCondition p d .silent true).port q := congrArg (·.get q) hports
    rw [hport, State.setCondition_eq, State.withRecord_port, State.port_setPort_other _ _ _ _ h]
  · rfl

theorem State.settleLife_only : s.settleLife p d = { s with
    ports := (s.settleLife p d).ports, elements := (s.settleLife p d).elements, journal := (s.settleLife p d).journal } := by
  unfold State.settleLife
  split
  · have honly := s.raiseSilent_only p d
    generalize s.raiseSilent p d = u at honly ⊢
    rw [honly]
  · rfl

theorem State.settleLife_down_elements : (s.settleLife p .down).elements = s.elements := by
  unfold State.settleLife
  split <;> rfl

theorem State.settleLife_down_journal : (s.settleLife p .down).journal =
    if s.lifeDue p .down then (s.withRecord (s.levelOf .link) (.linkCondition p .down .silent true)).journal else s.journal := by
  unfold State.settleLife
  split <;> rfl

theorem State.mapping_congr {s t : State} (h : t.windows = s.windows) (i : Nat) : t.mapping i = s.mapping i := by
  unfold State.mapping State.window
  rw [h]

/-- Outcome records depend on the journal and the timebase alone. -/
theorem State.withOutcomes_congr {s t : State} (hjournal : t.journal = s.journal) (htb : t.tb = s.tb) (o : MoveOutcome)
    (l : List (Nat × Element)) : (t.withOutcomes o l).journal = (s.withOutcomes o l).journal := by
  have hfold (level : Nat × Element → Nat) (body : Nat × Element → Body) (v w : State) (hj : v.journal = w.journal)
      (ht : v.tb = w.tb) : (l.foldl (fun v x => v.withRecord (level x) (body x)) v).journal =
        (l.foldl (fun v x => v.withRecord (level x) (body x)) w).journal := by
    induction l generalizing v w with
    | nil => exact hj
    | cons x l ih =>
      refine ih _ _ ?_ ht
      rw [State.withRecord_journal, State.withRecord_journal, hj, ht]
  have hlevel (e : Element) : t.elementLevel e .movement = s.elementLevel e .movement := by
    unfold State.elementLevel State.levelOf
    rw [hjournal]
  unfold State.withOutcomes
  simp only [hlevel]
  exact hfold _ _ _ _ hjournal htb

/-! ## The state behind a SET PORT -/

/-- A port given its settings, and the latch interval. -/
def State.configure (s : State) (p : PortId) (t : PortSettings) (i : LatchInterval) : State :=
  { s.setPort p ((s.port p).takeSettings s.tb.instant t) with latchInterval := i }

/-- The state behind a SET PORT that is taken (R22). -/
def State.configured (s : State) (p : PortId) (t : PortSettings) (i : LatchInterval) : State :=
  ((s.configure p t i).settleLife p .down).settleLife p .up

variable (t : PortSettings) (i : LatchInterval)

theorem State.setPortSettings_taken (hrate : t.rate ≠ (s.port p).rate → (s.port p).state = .bypass)
    (haccept : t.accept = true ∨ (s.port p).accept = false ∨ ∃ q, q ≠ p ∧ (s.port q).accept = true) :
    s.setPortSettings p t i = ⟨s.configured p t i, taken (t.life.changed || t.threshold.changed || t.quiet.changed)
      ((s.configured p t i).portSettings p)⟩ := by
  unfold State.setPortSettings
  dsimp only
  rw [if_neg, if_neg]
  · rfl
  · rintro ⟨hold, hnew, hothers⟩
    rcases haccept with h | h | h
    · rw [hnew] at h
      cases h
    · rw [hold] at h
      cases h
    · rw [← State.otherAccepts_iff, hothers] at h
      cases h
  · rintro ⟨hk, hb⟩
    exact hb (hrate hk)

theorem State.setPortSettings_rate (hk : t.rate ≠ (s.port p).rate) (hb : (s.port p).state ≠ .bypass) :
    s.setPortSettings p t i = refuse s .state := if_pos ⟨hk, hb⟩

theorem State.setPortSettings_accept (hold : (s.port p).accept = true) (hnew : t.accept = false)
    (hothers : ∀ q, q ≠ p → (s.port q).accept = false) : s.setPortSettings p t i = refuse s .state := by
  have hnone : s.otherAccepts p = false := by
    rw [Bool.eq_false_iff, Ne, State.otherAccepts_iff]
    rintro ⟨q, hq, ha⟩
    rw [hothers q hq] at ha
    cases ha
  unfold State.setPortSettings
  dsimp only
  split
  · rfl
  · rw [if_pos ⟨hold, hnew, hnone⟩]

/-- Whether a timer has already run for the new timeout (R19). -/
theorem State.configure_lifeDue (d : Direction) : (s.configure p t i).lifeDue p d = true ↔ ((s.port p).rx d).silent = false ∧
    ∃ n, ((s.port p).rx d).lifeSince = some n ∧ n + ms t.life.value ≤ s.tb.instant := by
  have hport : (s.configure p t i).port p = (s.port p).takeSettings s.tb.instant t := State.port_setPort_same s p _
  have hlife : ((s.port p).takeSettings s.tb.instant t).lifeTimeout = t.life.value := by
    rw [Port.takeSettings_eq]
    rfl
  rw [State.lifeDue_iff, hport, Port.takeSettings_rx, Port.withRate_rx, hlife]
  rfl

theorem State.settled_lifeDue_up : ((s.configure p t i).settleLife p .down).lifeDue p .up = (s.configure p t i).lifeDue p .up := by
  have honly := (s.configure p t i).settleLife_only p .down
  have htb : ((s.configure p t i).settleLife p .down).tb = (s.configure p t i).tb := by rw [honly]
  rw [Bool.eq_iff_iff, State.lifeDue_iff, State.lifeDue_iff, State.settleLife_port_same, htb,
    Port.silenced_rx_other _ .down .up _ nofun]
  have hlife : (((s.configure p t i).port p).silenced .down ((s.configure p t i).lifeDue p .down)).lifeTimeout =
      ((s.configure p t i).port p).lifeTimeout := by
    rw [Port.silenced_eq]
    rfl
  rw [hlife]

theorem State.configured_port_same : (s.configured p t i).port p =
    (((s.port p).takeSettings s.tb.instant t).silenced .down ((s.configure p t i).lifeDue p .down)).silenced .up
      ((s.configure p t i).lifeDue p .up) := by
  have hport : (s.configure p t i).port p = (s.port p).takeSettings s.tb.instant t := State.port_setPort_same s p _
  rw [State.configured, State.settleLife_port_same, State.settleLife_port_same, State.settled_lifeDue_up, hport]

/-- The port with another receiver in both directions: what it has besides its lines. -/
def Port.lineless (x : Port) (r : Receiver) : Port := { x with downRx := r, upRx := r }

theorem Port.silenced_lineless (raised : Bool) (r : Receiver) : (x.silenced d raised).lineless r = x.lineless r := by
  cases raised <;> cases d <;> rfl

/-- Of the port the judgement of the timers changes the receivers alone. -/
theorem State.configured_fields (r : Receiver) :
    ((s.configured p t i).port p).lineless r = ((s.port p).takeSettings s.tb.instant t).lineless r := by
  rw [State.configured_port_same, Port.silenced_lineless, Port.silenced_lineless]

theorem State.configured_silent :
    (((s.configured p t i).port p).rx d).silent = (((s.port p).rx d).silent || (s.configure p t i).lifeDue p d) := by
  have hsilent : (((s.port p).takeSettings s.tb.instant t).rx d).silent = ((s.port p).rx d).silent := by
    rw [Port.takeSettings_rx, Port.withRate_rx]
  rw [State.configured_port_same, ← hsilent]
  cases d with
  | down => rw [Port.silenced_rx_other _ .up .down _ nofun, Port.silenced_silent]
  | up => rw [Port.silenced_silent, Port.silenced_rx_other _ .down .up _ nofun]

theorem State.configured_opening :
    (((s.configured p t i).port p).rx d).opening = if t.rate ≠ (s.port p).rate then none else ((s.port p).rx d).opening := by
  rw [State.configured_port_same, Port.silenced_opening, Port.silenced_opening, Port.takeSettings_rx, Port.withRate_rx]

theorem State.configured_port_other (q : PortId) (h : q ≠ p) : (s.configured p t i).port q = s.port q := by
  rw [State.configured, State.settleLife_port_other _ _ _ _ h, State.settleLife_port_other _ _ _ _ h]
  exact State.port_setPort_other s p q _ h

theorem State.configured_only : s.configured p t i = { s with
    ports := (s.configured p t i).ports, latchInterval := i, elements := (s.configured p t i).elements,
    journal := (s.configured p t i).journal } := by
  have hdown := (s.configure p t i).settleLife_only p .down
  have hup := ((s.configure p t i).settleLife p .down).settleLife_only p .up
  show ((s.configure p t i).settleLife p .down).settleLife p .up = { s with
    ports := (((s.configure p t i).settleLife p .down).settleLife p .up).ports, latchInterval := i,
    elements := (((s.configure p t i).settleLife p .down).settleLife p .up).elements,
    journal := (((s.configure p t i).settleLife p .down).settleLife p .up).journal }
  generalize ((s.configure p t i).settleLife p .down).settleLife p .up = u at hup ⊢
  generalize (s.configure p t i).settleLife p .down = w at hdown hup
  rw [hup, hdown]
  rfl

/-- Where no timer has run, the settings are all that changes. -/
theorem State.configured_quiet (hdown : (s.configure p t i).lifeDue p .down = false)
    (hup : (s.configure p t i).lifeDue p .up = false) : s.configured p t i = s.configure p t i := by
  have hfirst : (s.configure p t i).settleLife p .down = s.configure p t i := by rw [State.settleLife, hdown]; rfl
  rw [State.configured, hfirst, State.settleLife, hup]
  rfl

/-- The records behind a SET PORT: that of DOWN SILENT, if it is raised. -/
theorem State.configured_journal (hup : (s.configure p t i).lifeDue p .up = false) :
    (s.configured p t i).elements = s.elements ∧ (s.configured p t i).journal =
      if (s.configure p t i).lifeDue p .down then (s.withRecord (s.levelOf .link) (.linkCondition p .down .silent true)).journal
      else s.journal := by
  have hsecond : s.configured p t i = (s.configure p t i).settleLife p .down := by
    rw [State.configured, State.settleLife, State.settled_lifeDue_up, hup]
    rfl
  rw [hsecond]
  exact ⟨State.settleLife_down_elements _ p, State.settleLife_down_journal _ p⟩

/-- The records of the port, once UP SILENT is raised by a SET PORT (R38). -/
theorem State.configured_elements (hup : (s.configure p t i).lifeDue p .up = true) :
    (∀ j e, s.element j = some e → (s.mapping j).any (fun m => m.port == p) = true →
      (s.configured p t i).element j = some e.stalled) ∧
    ∀ j, (s.mapping j).any (fun m => m.port == p) = false → (s.configured p t i).element j = s.element j := by
  have hsecond : s.configured p t i = ((s.configure p t i).settleLife p .down).raiseSilent p .up := by
    rw [State.configured, State.settleLife, State.settled_lifeDue_up, hup]
    rfl
  have honly := (s.configure p t i).settleLife_only p .down
  have hwindows : ((s.configure p t i).settleLife p .down).windows = s.windows := by
    rw [honly]
    rfl
  have helement (j : Nat) : ((s.configure p t i).settleLife p .down).element j = s.element j := by
    unfold State.element
    rw [State.settleLife_down_elements]
    rfl
  have hall := ((s.configure p t i).settleLife p .down).raiseSilent_elements p
  simp only [State.mapping_congr hwindows, helement] at hall
  rw [hsecond]
  exact hall

/-- The records that a SET PORT writes, when it raises UP SILENT (R19, R100). -/
theorem State.configured_outcomes (hup : (s.configure p t i).lifeDue p .up = true) (hw : tableWf s.elements) (v : State)
    (hv : v = if (s.configure p t i).lifeDue p .down then s.withRecord (s.levelOf .link) (.linkCondition p .down .silent true)
      else s) :
    (s.configured p t i).journal = ((v.withRecord (s.levelOf .link) (.linkCondition p .up .silent true)).withOutcomes
      .interrupted (s.supervised.filter fun x => (s.mapping x.1).any fun m => m.port == p)).journal := by
  have hsecond : s.configured p t i = ((s.configure p t i).settleLife p .down).raiseSilent p .up := by
    rw [State.configured, State.settleLife, State.settled_lifeDue_up, hup]
    rfl
  have honly := (s.configure p t i).settleLife_only p .down
  have hwindows : ((s.configure p t i).settleLife p .down).windows = s.windows := by
    rw [honly]
    rfl
  have htb : ((s.configure p t i).settleLife p .down).tb = v.tb := by
    rw [honly, hv]
    split <;> rfl
  have helements : ((s.configure p t i).settleLife p .down).elements = s.elements := State.settleLife_down_elements _ p
  have hjournal : ((s.configure p t i).settleLife p .down).journal = v.journal := by
    rw [State.settleLife_down_journal, hv]
    split <;> rfl
  have hlevel : v.levelOf .link = s.levelOf .link := by
    rw [hv]
    split
    · rw [State.levelOf, State.withRecord_journal, Journal.offer_classes]
      rfl
    · rfl
  have hlevel' : ((s.configure p t i).settleLife p .down).levelOf .link = v.levelOf .link := by
    unfold State.levelOf
    rw [hjournal]
  have hall := ((s.configure p t i).settleLife p .down).raiseSilent_journal p (by rw [helements]; exact hw)
  simp only [State.mapping_congr hwindows, State.supervised, helements] at hall
  rw [hsecond, hall]
  refine State.withOutcomes_congr (s := v.withRecord (s.levelOf .link) _) (t := State.withRecord _ _ _) ?_ htb _ _
  rw [State.withRecord_journal, State.withRecord_journal, hjournal, htb, hlevel', hlevel]

end Facts

/-- Settles O18: the refusals, the settings alone, and the settings with all that they do at once. -/
theorem setPortTakesItsSettings : Obligations.SetPortTakesItsSettings := by
  refine ⟨?_, ?_, ?_⟩
  case refine_1 =>
    intro s r p rate given life accept latch lat1 lat0 threshold quiet k a i hs hgiven hparams hk ha hi hlife
    have hreq : reqSetPort r.params (s.taking 10 r) =
        (s.taking 10 r).setPortSettings p (settingsOf k (ofBe [lat1, lat0]) given threshold quiet a) i := by
      rw [hparams]
      exact reqSetPort_named _ p rate given accept latch lat1 lat0 threshold quiet k a i hgiven hk ha hi
    obtain ⟨hvalue, hthreshold, hquiet⟩ := settingsOf_values k (ofBe [lat1, lat0]) given threshold quiet a
    have hchanged := settingsOf_changed k (ofBe [lat1, lat0]) given life threshold quiet a hlife
    generalize ht : settingsOf k (ofBe [lat1, lat0]) given threshold quiet a = t at hreq hvalue hthreshold hquiet hchanged
    have hrate : t.rate = k := by rw [← ht]; rfl
    have haccept : t.accept = a := by rw [← ht]; rfl
    have hlatency : t.latency = ofBe [lat1, lat0] := by rw [← ht]; rfl
    rw [← hlife] at hvalue
    refine ⟨fun hne hb => ?_, fun hold hnew hothers => ?_, fun hfree haccepts hquietRun hdown hup => ?_⟩
    · exact congrArg Host.Outcome.next (s.serve_of_meaning hs 10 r
        (hreq.trans ((s.taking 10 r).setPortSettings_rate p t i (by rw [hrate]; exact hne) hb)))
    · exact congrArg Host.Outcome.next (s.serve_of_meaning hs 10 r
        (hreq.trans ((s.taking 10 r).setPortSettings_accept p t i hold (haccept.trans hnew) hothers)))
    · have hnotDue (d : Direction) (h : ∀ n, ((s.port p).rx d).lifeSince = some n → s.tb.instant < n + ms life) :
          ((s.taking 10 r).configure p t i).lifeDue p d = false := by
        rw [Bool.eq_false_iff, Ne, State.configure_lifeDue, hvalue]
        rintro ⟨-, n, hn, hreached⟩
        have hreached' : n + ms life ≤ s.tb.instant := hreached
        have hlater := h n hn
        omega
      have hdone : ((s.port p).withSettings s.tb.instant t).quietDone s.tb.instant = false := by
        refine Port.not_quietDone _ _ t (fun hne => (hfree (by rw [← hrate]; exact hne)).1) ?_
        rw [hquiet]
        cases hq : (s.port p).quietSince with
        | none => exact .inl rfl
        | some n => exact .inr ⟨n, rfl, hquietRun n hq⟩
      have hconfigured := (s.taking 10 r).configured_quiet p t i (hnotDue .down hdown) (hnotDue .up hup)
      have hsettings : (s.taking 10 r).setPortSettings p t i = _ := (s.taking 10 r).setPortSettings_taken p t i
        (fun hne => (hfree (by rw [← hrate]; exact hne)).1) (by rw [haccept]; exact haccepts)
      refine ⟨(s.taking 10 r).configured p t i,
        congrArg Host.Outcome.next (s.serve_of_meaning hs 10 r (hreq.trans (hsettings.trans (by rw [hchanged])))), ?_⟩
      · have htake : (s.port p).takeSettings s.tb.instant t = { s.port p with
            rate := k, latency := ofBe [lat1, lat0], lifeTimeout := life, errorThreshold := max 1 threshold.toNat,
            quiet := max 2 (min 50 quiet.toNat), accept := a } := by
          rw [Port.takeSettings_settled _ _ _ hdone, Port.withSettings, Port.withRate_idle, hrate, haccept, hlatency, hvalue,
            hthreshold, hquiet]
          exact fun hne => (hfree (by rw [← hrate]; exact hne)).2
        rw [hconfigured, State.configure, ← htake]
        rfl
  case refine_2 =>
    intro s r p rate given life accept latch wait lat1 lat0 threshold quiet k a i late v hs hgiven hparams hk ha hi hlife hwait hfree
      haccepts hlate hv
    have hreq : reqSetPort r.params (s.taking 10 r) =
        (s.taking 10 r).setPortSettings p (settingsOf k (ofBe [lat1, lat0]) given threshold quiet a) i := by
      rw [hparams]
      exact reqSetPort_named _ p rate given accept latch lat1 lat0 threshold quiet k a i hgiven hk ha hi
    obtain ⟨hvalue, hthreshold, hquiet⟩ := settingsOf_values k (ofBe [lat1, lat0]) given threshold quiet a
    have hchanged := settingsOf_changed k (ofBe [lat1, lat0]) given life threshold quiet a hlife
    generalize ht : settingsOf k (ofBe [lat1, lat0]) given threshold quiet a = t at hreq hvalue hthreshold hquiet hchanged
    have hrate : t.rate = k := by rw [← ht]; rfl
    have haccept : t.accept = a := by rw [← ht]; rfl
    have hlatency : t.latency = ofBe [lat1, lat0] := by rw [← ht]; rfl
    rw [← hlife] at hvalue
    rw [← hwait] at hquiet
    have hsettings := (s.taking 10 r).setPortSettings_taken p t i (by rw [hrate]; exact hfree) (by rw [haccept]; exact haccepts)
    have hdue (d : Direction) : ((s.taking 10 r).configure p t i).lifeDue p d = late d := by
      rw [Bool.eq_iff_iff, State.configure_lifeDue, hlate, hvalue]
      rfl
    refine ⟨(s.taking 10 r).configured p t i,
      congrArg Host.Outcome.next (s.serve_of_meaning hs 10 r (hreq.trans (hsettings.trans (by rw [hchanged])))), ?_⟩
    have hfields := (s.taking 10 r).configured_fields p t i (s.port p).downRx
    have hsettled := (s.port p).takeSettings_eq s.tb.instant t
    have hlive : (((s.taking 10 r).configured p t i).port p).live = ((s.port p).withRate s.tb.instant t.rate).live :=
      (congrArg Port.live hfields).trans (Port.takeSettings_live (s.port p) s.tb.instant t)
    refine ⟨?_, ?_, ?_, ?_, ?_, ?_, ?_, ?_, fun d => ⟨?_, ?_, ?_⟩, ?_, ?_, ?_, ?_, ?_, ?_⟩
    · exact (congrArg Port.rate hfields).trans ((congrArg Port.rate hsettled).trans hrate)
    · exact (congrArg Port.latency hfields).trans ((congrArg Port.latency hsettled).trans hlatency)
    · exact (congrArg Port.lifeTimeout hfields).trans ((congrArg Port.lifeTimeout hsettled).trans hvalue)
    · exact (congrArg Port.errorThreshold hfields).trans ((congrArg Port.errorThreshold hsettled).trans hthreshold)
    · exact (congrArg Port.quiet hfields).trans ((congrArg Port.quiet hsettled).trans hquiet)
    · exact (congrArg Port.accept hfields).trans ((congrArg Port.accept hsettled).trans haccept)
    · exact (congrArg Port.state hfields).trans ((congrArg Port.state hsettled).trans ((s.port p).withRate_state s.tb.instant t.rate))
    · exact fun q hq => (s.taking 10 r).configured_port_other p t i q hq
    · rw [State.configured_silent, hdue]
      rfl
    · rw [State.configured_opening, hrate]
      rfl
    · rw [hlive, Port.withRate_live_dir, hrate]
    · rw [hlive, Port.withRate_live_port]
    · intro n hsame hsince hreached hd hu
      have hkept : (s.port p).withRate s.tb.instant t.rate = s.port p := Port.withRate_same _ _ _ (hrate.trans hsame)
      have hdone : ((s.port p).withSettings s.tb.instant t).quietDone s.tb.instant = true := by
        refine (Port.quietDone_iff _ _ n ?_).mpr ⟨?_, ?_, ?_⟩ <;> rw [Port.withSettings, hkept]
        · exact hsince
        · exact hd
        · exact hu
        · rw [← hquiet] at hreached
          exact hreached
      have hbegun := Port.takeSettings_completed _ _ _ hdone
      rw [Port.beginTransfer_eq] at hbegun
      refine ⟨(congrArg Port.transferEnd hfields).trans (congrArg Port.transferEnd hbegun),
        (congrArg Port.relay hfields).trans ((congrArg Port.relay hbegun).trans ?_),
        (congrArg Port.quietSince hfields).trans (congrArg Port.quietSince hbegun)⟩
      rw [Port.withSettings, hkept]
      rfl
    · intro hwaits
      have hdone : ((s.port p).withSettings s.tb.instant t).quietDone s.tb.instant = false :=
        Port.not_quietDone _ _ t (by rw [hrate]; exact hfree) (by rw [hquiet]; exact hwaits)
      have hnone := Port.takeSettings_settled _ _ _ hdone
      exact ⟨(congrArg Port.transferEnd hfields).trans ((congrArg Port.transferEnd hnone).trans
          ((s.port p).withRate_transferEnd s.tb.instant t.rate)),
        (congrArg Port.relay hfields).trans ((congrArg Port.relay hnone).trans ((s.port p).withRate_relay s.tb.instant t.rate))⟩
    · intro hup
      obtain ⟨hstalled, hothers⟩ := (s.taking 10 r).configured_elements p t i ((hdue .up).trans hup)
      refine ⟨hstalled, hothers, fun hw => ?_⟩
      refine ((s.taking 10 r).configured_outcomes p t i ((hdue .up).trans hup) hw _ rfl).trans ?_
      refine State.withOutcomes_congr (s := v.withRecord (s.levelOf .link) (.linkCondition p .up .silent true))
        (t := State.withRecord _ _ _) ?_ ?_ _ _ <;> rw [hdue, hv]
      · cases late .down <;> rfl
      · cases late .down <;> rfl
    · intro hup
      obtain ⟨helements, hjournal⟩ := (s.taking 10 r).configured_journal p t i ((hdue .up).trans hup)
      refine ⟨helements, hjournal.trans ?_⟩
      rw [hdue, hv]
      split <;> rfl
    · exact (s.taking 10 r).configured_only p t i
  case refine_3 =>
    intro s r port rate lat1 lat0 life1 life0 threshold quiet accept latch hs hparams hrange
    refine congrArg Host.Outcome.next (s.serve_of_meaning hs 10 r ?_)
    rw [hparams, reqSetPort_range _ _ _ _ _ _ _ _ _ _ _ hrange]
    rfl

end Sys2Proof.Machine
end

