-- ==== Sys2Proof/Proofs/Cycles.lean ====
section
/-! PROOFS. Sys2Proof/Proofs/Cycles.lean: what a run of cycles adds to the time of day, and the number of cycles to the carry (R49, R50). -/

namespace Sys2Proof.Machine

theorem ceilDiv_le_iff {a b n : Nat} (h : 0 < b) : ceilDiv a b ≤ n ↔ a ≤ n * b := by
  unfold ceilDiv
  rw [← Nat.lt_succ_iff, Nat.div_lt_iff_lt_mul h, Nat.succ_mul]
  omega

section Facts

variable (tb : Timebase)

/-- The part of the second that has passed, in units of 2^-32 ns (R48). -/
def Timebase.passed : Nat := ns tb.tod.nanos + tb.todFrac

/-- What a run of cycles adds to either scale, the increment changing where the slew is spent (R49). -/
def Timebase.gain (n : Nat) : Nat :=
  if n ≤ tb.slewLeft then n * tb.inc
  else tb.slewLeft * tb.inc + (n - tb.slewLeft) * { tb with slewLeft := 0 }.inc

/-- The rate and the slew together stay far below the nominal increment (R49). -/
theorem Timebase.inc_pos (h : tb.lawful) : 0 < tb.inc := by
  obtain ⟨hr, hr', hs, hs'⟩ := h
  have hslew : -500000 ≤ tb.slewInForce ∧ tb.slewInForce ≤ 500000 := by
    unfold Timebase.slewInForce
    split
    · exact ⟨hs, hs'⟩
    · decide
  unfold Timebase.inc roundDiv
  split <;> omega

theorem Timebase.cycles_nanos (n : Nat) : (tb.cycles n).tod.nanos = (tb.passed + n * tb.inc) / 4294967296 := by
  simp only [Timebase.cycles, Timebase.passed, ns_eq]
  omega

theorem Timebase.cycles_passed (n : Nat) : (tb.cycles n).passed = tb.passed + n * tb.inc := by
  simp only [Timebase.cycles, Timebase.passed, ns_eq]
  omega

theorem Timebase.inc_cycles_slewLeft : (tb.cycles tb.slewLeft).inc = { tb with slewLeft := 0 }.inc := by
  simp [Timebase.inc, Timebase.slewInForce, Timebase.cycles]

theorem Timebase.run_nanos (n : Nat) : (tb.run n).tod.nanos = (tb.passed + tb.gain n) / 4294967296 := by
  unfold Timebase.run Timebase.gain
  split
  · exact tb.cycles_nanos n
  · rw [Timebase.cycles_nanos, Timebase.cycles_passed, Timebase.inc_cycles_slewLeft, Nat.add_assoc]

/-- The number of cycles for a need is the least whose gain meets it. -/
theorem Timebase.cyclesFor_le_iff (h : tb.lawful) (need m : Nat) : tb.cyclesFor need ≤ m ↔ need ≤ tb.gain m := by
  have hinc : 0 < tb.inc := tb.inc_pos h
  have hrest : 0 < ({ tb with slewLeft := 0 } : Timebase).inc := Timebase.inc_pos _ h
  have hfull := ceilDiv_le_iff (a := need) (n := tb.slewLeft) hinc
  have hm := ceilDiv_le_iff (a := need) (n := m) hinc
  unfold Timebase.cyclesFor Timebase.gain
  dsimp only
  by_cases hle : m ≤ tb.slewLeft
  · have hmul : m * tb.inc ≤ tb.slewLeft * tb.inc := Nat.mul_le_mul_right _ hle
    rw [if_pos hle]
    split
    · exact hm
    · have hafter := ceilDiv_le_iff (a := need - tb.slewLeft * tb.inc) (n := 0) hrest
      omega
  · rw [if_neg hle]
    by_cases hzero : tb.slewLeft = 0
    · have hsame : ({ tb with slewLeft := 0 } : Timebase) = tb := by rw [← hzero]
      rw [if_pos (.inl hzero), hsame, hzero, hm]
      simp
    · split
      · omega
      · have hafter := ceilDiv_le_iff (a := need - tb.slewLeft * tb.inc) (n := m - tb.slewLeft) hrest
        omega

/-- The cycles to the carry are the least run whose nanoseconds reach 10^9 (R50). -/
theorem Timebase.cyclesToCarry_le_iff (h : tb.lawful) (m : Nat) :
    tb.cyclesToCarry ≤ m ↔ 1000000000 ≤ (tb.run m).tod.nanos := by
  have hneed : tb.cyclesToCarry = tb.cyclesFor (secs 1 - tb.passed) := rfl
  rw [hneed, tb.cyclesFor_le_iff h, tb.run_nanos, secs_eq]
  omega

theorem Timebase.run_carryDue (n : Nat) (hn : 0 < n) (h : 1000000000 ≤ (tb.run n).tod.nanos) : (tb.run n).carryDue = true := by
  revert h
  unfold Timebase.run
  split
  · intro h
    simpa [Timebase.cycles, hn] using .inr h
  · intro h
    have hrest : 0 < n - tb.slewLeft := by omega
    rw [Timebase.cycles]
    simpa [hrest] using .inr h

theorem Timebase.run_zero_carryDue : (tb.run 0).carryDue = tb.carryDue := by
  simp [Timebase.run, Timebase.cycles]

theorem Timebase.run_zero_run_zero : (tb.run 0).run 0 = tb.run 0 := by
  have hmod (x : Nat) : x % 4294967296 / 4294967296 = 0 := Nat.div_eq_of_lt (Nat.mod_lt x (by decide))
  simp [Timebase.run, Timebase.cycles, laterElapsed_add, hmod]

@[simp] theorem Timebase.run_armedLeap (n : Nat) : (tb.run n).armedLeap = tb.armedLeap := by
  unfold Timebase.run; split <;> rfl

@[simp] theorem Timebase.run_recentLeap (n : Nat) : (tb.run n).recentLeap = tb.recentLeap := by
  unfold Timebase.run; split <;> rfl

end Facts

end Sys2Proof.Machine
end

