-- ==== Sys2Proof/Proofs/Boundary.lean ====
section
/-! PROOFS. Sys2Proof/Proofs/Boundary.lean: what a second boundary makes of the scales, the ports and the banks, up to the clock lines (R21,
R24, R50, R64). -/

namespace Sys2Proof.Machine

section Facts

variable (s : State)

/-! ## The walk of the checker moves the tables only -/

theorem State.tablesOnly_openEntry (r : EntryRef) (e : Entry) : s.TablesOnly (s.openEntry r e) := by
  unfold State.openEntry
  split
  · exact (s.tablesOnly_setBank r.bank _).trans (State.tablesOnly_setOpenList _ _)
  · exact s.tablesOnly_closeEntry r _ _ _ _ _

theorem State.tablesOnly_advance (b : BankId) (passed : EntryStatus) (n : Nat) (w : Walked) :
    w.state.TablesOnly (State.advance b passed n w).state := by
  induction n generalizing w with
  | zero => exact .refl _
  | succ n ih =>
    unfold State.advance
    dsimp only
    split
    · exact .refl _
    · have hnext : w.state.TablesOnly (w.state.setBank b { w.state.bank b with nextToOpen := (w.state.bank b).nextToOpen + 1 }) :=
        State.tablesOnly_setBank _ b _
      split
      · exact .refl _
      · split
        · exact hnext.trans (ih ⟨_, _, _⟩)
        · split
          · exact (hnext.trans (State.tablesOnly_closeEntry _ _ passed _ _ _ _)).trans (ih ⟨_, _, _⟩)
          · exact (hnext.trans (State.tablesOnly_openEntry _ _ _)).trans (ih ⟨_, _, _⟩)

theorem State.tablesOnly_walkBank (b : BankId) (passed : EntryStatus) : s.TablesOnly (s.walkBank b passed).state :=
  State.tablesOnly_advance b passed _ ⟨s, 0, 0⟩

theorem State.tablesOnly_closePassed (n : Nat) : s.TablesOnly (State.closePassed n s) := by
  induction n generalizing s with
  | zero => exact .refl s
  | succ n ih =>
    unfold State.closePassed
    split
    · exact .refl s
    · split
      · exact .refl s
      · split
        · exact (s.tablesOnly_closeEntry _ .missed _ _ _ _).trans (ih _)
        · exact .refl s

theorem State.tablesOnly_retire (b : BankId) : s.TablesOnly (s.retire b) :=
  ((s.tablesOnly_setBank b _).trans (State.tablesOnly_report _ _)).trans (State.tablesOnly_settleBank _ b)

theorem State.tablesOnly_activate (b : BankId) : s.TablesOnly (s.activate b) := by
  have hother : s.TablesOnly (if (s.bank b.other).state = .active then s.retire b.other else s) := by
    split
    · exact s.tablesOnly_retire b.other
    · exact .refl s
  exact ((hother.trans (State.tablesOnly_setBank _ b _)).trans (State.tablesOnly_walkBank _ b .lateActivation)).trans
    (State.tablesOnly_report _ _)

theorem State.tablesOnly_judgeActivation (b : BankId) : s.TablesOnly (s.judgeActivation b) := by
  unfold State.judgeActivation
  split
  · exact s.tablesOnly_activate b
  · exact .refl s

theorem State.tablesOnly_walkActive (b : BankId) : s.TablesOnly (s.walkActive b) := by
  unfold State.walkActive
  split
  · exact s.tablesOnly_walkBank b .missed
  · exact .refl s

theorem State.tablesOnly_judgeEnd (b : BankId) : s.TablesOnly (s.judgeEnd b) := by
  unfold State.judgeEnd
  split
  · exact s.tablesOnly_retire b
  · exact .refl s

theorem State.tablesOnly_walk : s.TablesOnly s.walk := by
  have hactivate := State.TablesOnly.foldl (fun s b => s.tablesOnly_judgeActivation b) bankIds s
  have hwalk := State.TablesOnly.foldl (fun s b => s.tablesOnly_walkActive b) bankIds (bankIds.foldl State.judgeActivation s)
  have hclose := State.tablesOnly_closePassed (bankIds.foldl State.walkActive (bankIds.foldl State.judgeActivation s))
    (bankIds.foldl State.walkActive (bankIds.foldl State.judgeActivation s)).openList.length
  exact ((hactivate.trans hwalk).trans hclose).trans (State.TablesOnly.foldl (fun s b => s.tablesOnly_judgeEnd b) bankIds _)

/-! ## The carry (R50, R64) -/

theorem Timebase.armedFor_iff (tb : Timebase) (day : Day) (kind : LeapKind) :
    tb.armedFor day = some kind ↔ tb.armedLeap = some ⟨day, kind⟩ := by
  unfold Timebase.armedFor
  cases tb.armedLeap with
  | none => simp
  | some a =>
    obtain ⟨d, k⟩ := a
    by_cases h : d = day <;> simp [h]

/-- A DELETE armed for the day takes its last second away (R64). -/
theorem Timebase.nextSecond_delete (tb : Timebase) (hsec : tb.tod.sec = 86398) (h : tb.armedLeap = some ⟨tb.tod.day, .delete⟩) :
    tb.nextSecond = (⟨tb.tod.day + 1, 0⟩, some .delete) := by
  simp [Timebase.nextSecond, Timebase.armedFor_iff, hsec, h]

/-- An INSERT armed for the day gives it one second more (R64). -/
theorem Timebase.nextSecond_insert (tb : Timebase) (hsec : tb.tod.sec = 86399) (h : tb.armedLeap = some ⟨tb.tod.day, .insert⟩) :
    tb.nextSecond = (⟨tb.tod.day, 86400⟩, some .insert) := by
  simp [Timebase.nextSecond, Timebase.armedFor_iff, hsec, h]

/-- A carry at which no leap is due (R50). -/
theorem Timebase.nextSecond_plain (tb : Timebase) (hd : tb.armedLeap ≠ some ⟨tb.tod.day, .delete⟩ ∨ tb.tod.sec ≠ 86398)
    (hi : tb.armedLeap ≠ some ⟨tb.tod.day, .insert⟩ ∨ tb.tod.sec ≠ 86399) :
    tb.nextSecond = (if 86399 ≤ tb.tod.sec then ⟨tb.tod.day + 1, 0⟩ else ⟨tb.tod.day, tb.tod.sec + 1⟩, none) := by
  have hdelete : ¬(tb.tod.sec = 86398 ∧ tb.armedFor tb.tod.day = some .delete) := by
    rw [Timebase.armedFor_iff]
    tauto
  have hinsert : ¬(tb.tod.sec = 86399 ∧ tb.armedFor tb.tod.day = some .insert) := by
    rw [Timebase.armedFor_iff]
    tauto
  unfold Timebase.nextSecond
  dsimp only
  rw [if_neg hdelete, if_neg hinsert]
  split <;> rfl

theorem State.carry_leap (kind : LeapKind) (h : s.tb.nextSecond.2 = some kind) :
    s.carry = (s.setTb (s.tb.carry.execLeap s.tb.tod.day kind)).reportTb kind.event := by
  unfold State.carry
  rw [h]

theorem State.carry_plain (h : s.tb.nextSecond.2 = none) : s.carry = s.setTb s.tb.carry := by
  unfold State.carry
  rw [h]

/-- Whatever the carry does of leaps, the scales and the schedule are those of the timebase's carry. -/
theorem State.carry_tb : ∃ armed recent, s.carry.tb = { s.tb.carry with armedLeap := armed, recentLeap := recent } := by
  unfold State.carry
  dsimp only
  split
  · exact ⟨_, _, rfl⟩
  · exact ⟨_, _, rfl⟩

/-- The carry moves the timebase and the journal only. -/
theorem State.carry_only : s.carry = { s with tb := s.carry.tb, journal := s.carry.journal } := by
  unfold State.carry
  dsimp only
  split <;> rfl

/-! ## The seconds of the ports and the latch (R21, R24) -/

/-- Only the ports and the journal move. -/
structure State.PortsOnly (s t : State) : Prop where
  eq : t = { s with ports := t.ports, journal := t.journal }

theorem State.endSecond_only (pd : PortId × Direction) : s.PortsOnly (s.endSecond pd) := by
  constructor
  unfold State.endSecond
  dsimp only
  split <;> rfl

theorem State.endSeconds_only : s.PortsOnly s.endSeconds := by
  unfold State.endSeconds
  generalize receivers = l
  induction l generalizing s with
  | nil => exact ⟨rfl⟩
  | cons pd l ih =>
    obtain ⟨hfirst⟩ := s.endSecond_only pd
    obtain ⟨hrest⟩ := ih (s.endSecond pd)
    constructor
    rw [List.foldl_cons, hrest, hfirst]

theorem State.latchAt_only (sec : Nat) :
    s.latchAt sec = { s with ports := (s.latchAt sec).ports, latchSeq := (s.latchAt sec).latchSeq } := by
  unfold State.latchAt
  split
  · split <;> rfl
  · rfl

/-- Whether a boundary into this second of day makes a latch (R24). -/
def LatchInterval.latches (i : LatchInterval) (sec : Nat) : Bool := i.seconds.any fun n => decide (sec % n = 0)

theorem State.latchAt_latchSeq (sec : Nat) :
    (s.latchAt sec).latchSeq = if s.latchInterval.latches sec then s.latchSeq + 1 else s.latchSeq := by
  unfold State.latchAt LatchInterval.latches
  cases s.latchInterval.seconds with
  | none => rfl
  | some n =>
    by_cases h : sec % n = 0
    · simp [h, State.latch]
    · simp [h]

/-- The state that a second boundary hands to the clock lines (R50). -/
def State.walked : State := (s.carry.endSeconds.latchAt s.carry.tb.tod.sec).walk

/-- Up to the clock lines a boundary leaves their part of the state as the carry does. -/
theorem State.walked_only : s.walked.tb = s.carry.tb ∧ s.walked.lines = s.lines ∧
    s.walked.ports = (s.carry.endSeconds.latchAt s.carry.tb.tod.sec).ports ∧
    s.walked.latchSeq = (s.carry.endSeconds.latchAt s.carry.tb.tod.sec).latchSeq := by
  obtain ⟨hseconds⟩ := s.carry.endSeconds_only
  have hlatch := s.carry.endSeconds.latchAt_only s.carry.tb.tod.sec
  obtain ⟨hwalk⟩ := (s.carry.endSeconds.latchAt s.carry.tb.tod.sec).tablesOnly_walk
  unfold State.walked
  refine ⟨?_, ?_, ?_, ?_⟩
  · rw [hwalk, hlatch, hseconds]
  · rw [hwalk, hlatch, hseconds, s.carry_only]
  · rw [hwalk]
  · rw [hwalk]

theorem State.walked_latchSeq :
    s.walked.latchSeq = if s.latchInterval.latches s.carry.tb.tod.sec then s.latchSeq + 1 else s.latchSeq := by
  obtain ⟨-, -, -, hseq⟩ := s.walked_only
  obtain ⟨hseconds⟩ := s.carry.endSeconds_only
  have hinterval : s.carry.endSeconds.latchInterval = s.latchInterval := by rw [hseconds, s.carry_only]
  have hbefore : s.carry.endSeconds.latchSeq = s.latchSeq := by rw [hseconds, s.carry_only]
  rw [hseq, State.latchAt_latchSeq, hinterval, hbefore]

end Facts

end Sys2Proof.Machine
end

