-- ==== Sys2Proof/Proofs/Targets.lean ====
section
/-! PROOFS. Sys2Proof/Proofs/Targets.lean: what reaches the clock lines at a second boundary: the turn of one line, the recomputation of the
targets, and the scheduled offset change (R66, R137, R150). -/

namespace Sys2Proof.Machine

/-! ## One line -/

theorem Line.finish_period (x : Line) (i : Impulse) (now : Nat) : (x.finish i now).line.period = x.period := by
  unfold Line.finish
  split
  · unfold Line.fail LineStep.after
    dsimp only
    split <;> rfl
  · unfold Line.succeed LineStep.after
    cases i.purpose <;> dsimp only <;> split <;> rfl

theorem Line.following_iff (x : Line) :
    x.state.following = true ↔ x.state = .running ∨ x.state = .catchingUp ∨ x.state = .waiting := by
  cases x.state <;> simp [LineState.following]

theorem Line.retarget_target (x : Line) (t : Option Nat) (now : Nat) : (x.retarget t now).line.target = t := by
  unfold Line.retarget
  split
  · assumption
  · dsimp only
    split <;> rfl

theorem Line.retarget_period (x : Line) (t : Option Nat) (now : Nat) : (x.retarget t now).line.period = x.period := by
  unfold Line.retarget
  split
  · rfl
  · dsimp only
    split <;> rfl

theorem Line.retarget_takesTarget (x : Line) (t : Option Nat) (now : Nat) : x.takesTarget (x.retarget t now).line t now := by
  refine ⟨fun h => ?_, fun h hf => ?_, fun h hf => ?_⟩
  · simp [Line.retarget, h]
  · simp [Line.retarget, h, x.following_iff.2 hf]
  · have hrest : x.state.following = false := by rcases hf with hf | hf | hf <;> rw [hf] <;> rfl
    simp [Line.retarget, h, hrest]

section Facts

variable (s : State)

/-! ## The lines in the state -/

/-- Only the clock lines and the journal move, and every line keeps its period. -/
structure State.LinesOnly (s t : State) : Prop where
  eq : t = { s with lines := t.lines, journal := t.journal }
  period : ∀ l, (t.line l).period = (s.line l).period

theorem State.LinesOnly.refl : s.LinesOnly s := ⟨rfl, fun _ => rfl⟩

theorem State.LinesOnly.trans {s t u : State} (h : s.LinesOnly t) (k : t.LinesOnly u) : s.LinesOnly u := by
  refine ⟨?_, fun l => (k.period l).trans (h.period l)⟩
  rw [k.eq, h.eq]

theorem State.LinesOnly.tb {s t : State} (h : s.LinesOnly t) : t.tb = s.tb := by
  rw [h.eq]

theorem State.LinesOnly.blocks {s t : State} (h : s.LinesOnly t) :
    t.bankA = s.bankA ∧ t.bankB = s.bankB ∧ t.ports = s.ports ∧ t.latchSeq = s.latchSeq := by
  rw [h.eq]
  exact ⟨rfl, rfl, rfl, rfl⟩

theorem State.LinesOnly.foldl {α : Type} {f : State → α → State} (h : ∀ (s : State) a, s.LinesOnly (f s a)) (l : List α)
    (s : State) : s.LinesOnly (l.foldl f s) := by
  induction l generalizing s with
  | nil => exact .refl s
  | cons a l ih => exact (h s a).trans (ih _)

theorem State.reportAll_journal (bodies : List Body) : ∃ j, s.reportAll bodies = s.setJournal j :=
  State.foldl_journal (fun _ _ => ⟨_, rfl⟩) s bodies

theorem State.applyLine_line_same (l : LineId) (r : LineStep) : (s.applyLine l r).line l = r.line := by
  obtain ⟨j, hj⟩ := (s.setLine l r.line).reportAll_journal (r.notes.map fun n => .clockLine l n.event n.fault n.position)
  rw [State.applyLine, hj, State.setJournal_line, State.line_setLine_same]

theorem State.applyLine_line_other (l k : LineId) (r : LineStep) (h : k ≠ l) : (s.applyLine l r).line k = s.line k := by
  obtain ⟨j, hj⟩ := (s.setLine l r.line).reportAll_journal (r.notes.map fun n => .clockLine l n.event n.fault n.position)
  rw [State.applyLine, hj, State.setJournal_line, State.line_setLine_other _ _ _ _ h]

theorem State.applyLine_only (l : LineId) (r : LineStep) (h : r.line.period = (s.line l).period) :
    s.LinesOnly (s.applyLine l r) := by
  constructor
  · obtain ⟨j, hj⟩ := (s.setLine l r.line).reportAll_journal (r.notes.map fun n => .clockLine l n.event n.fault n.position)
    rw [State.applyLine, hj]
    rfl
  · intro k
    by_cases hk : k = l
    · rw [hk, s.applyLine_line_same, h]
    · rw [s.applyLine_line_other l k r hk]

theorem State.turnLine_only (l : LineId) : s.LinesOnly (s.turnLine l) := by
  unfold State.turnLine
  split
  · unfold State.finishLine
    split
    · exact s.applyLine_only l _ (Line.finish_period _ _ _)
    · exact .refl s
  · split
    · exact s.applyLine_only l ⟨_, []⟩ rfl
    · exact .refl s

/-! ## The targets recomputed (R137) -/

theorem State.retargetLine_only (l : LineId) : s.LinesOnly (s.retargetLine l) :=
  s.applyLine_only l _ (Line.retarget_period _ _ _)

theorem State.retargetLines_only : s.LinesOnly s.retargetLines := .foldl (fun s l => s.retargetLine_only l) lineIds s

theorem State.foldl_retargetLine_line (k : LineId) (l : List LineId) (hl : l.Nodup) : (l.foldl State.retargetLine s).line k =
    if k ∈ l then ((s.line k).retarget (s.tb.target (s.line k).period) s.tb.instant).line else s.line k := by
  induction l generalizing s with
  | nil => rfl
  | cons a l ih =>
    obtain ⟨ha, hrest⟩ := List.nodup_cons.1 hl
    rw [List.foldl_cons, ih _ hrest, (s.retargetLine_only a).tb]
    by_cases hk : k = a
    · subst hk
      rw [if_neg ha, if_pos List.mem_cons_self, State.retargetLine, s.applyLine_line_same]
    · rw [State.retargetLine, s.applyLine_line_other _ _ _ hk]
      simp [hk]

theorem State.retargetLines_line (k : LineId) : s.retargetLines.line k =
    ((s.line k).retarget (s.tb.target (s.line k).period) s.tb.instant).line := by
  have hmem : k ∈ lineIds := by fin_cases k <;> decide
  rw [State.retargetLines, s.foldl_retargetLine_line k lineIds (by decide), if_pos hmem]

/-- Every line holds the target of its timebase (R137). -/
def State.onTarget : Prop := ∀ l, (s.line l).target = s.tb.target (s.line l).period

theorem State.retargetLines_onTarget : s.retargetLines.onTarget := by
  intro l
  rw [s.retargetLines_only.tb, s.retargetLines_only.period, s.retargetLines_line, Line.retarget_target]

/-! ## The scheduled offset change (R66) -/

/-- The timebase after the scheduled change to this offset is made (R66). -/
def Timebase.withOffset (tb : Timebase) (new : Int) : Timebase := { tb with scheduled := none, civilOffset := new }

theorem State.report_linesOnly (b : Body) : s.LinesOnly (s.report b) := ⟨rfl, fun _ => rfl⟩

theorem State.changeOffset_linesOnly (new : Int) :
    (s.setTb { s.tb with civilOffset := new }).LinesOnly (s.changeOffset new) ∧ (s.changeOffset new).onTarget := by
  unfold State.changeOffset
  dsimp only
  refine ⟨State.LinesOnly.trans ?_ (State.retargetLines_only _), State.retargetLines_onTarget _⟩
  split
  · exact .refl _
  · exact State.report_linesOnly _ _

theorem State.judgeOffset_some {new : Int} (h : s.tb.offsetDue = some new) :
    (s.setTb (s.tb.withOffset new)).LinesOnly s.judgeOffset ∧ s.judgeOffset.onTarget := by
  unfold State.judgeOffset
  rw [h]
  exact (s.setTb { s.tb with scheduled := none }).changeOffset_linesOnly new

theorem Timebase.offsetDue_none (tb : Timebase) (h : tb.scheduled = none ∨ tb.setFlag = false ∨
    ∃ c, tb.scheduled = some c ∧ tb.time.daySec.before ⟨c.day, c.sec⟩ = true) : tb.offsetDue = none := by
  unfold Timebase.offsetDue
  rcases h with h | h | ⟨c, hc, h⟩
  · rw [h]
  · rw [h]
    cases tb.scheduled <;> rfl
  · simp [hc, h]

theorem Timebase.offsetDue_some (tb : Timebase) (c : ScheduledChange) (hc : tb.scheduled = some c) (hset : tb.setFlag = true)
    (h : tb.time.daySec.before ⟨c.day, c.sec⟩ = false) : tb.offsetDue = some c.offset := by
  simp [Timebase.offsetDue, hc, hset, h]

/-! ## What is handed to the lines (R137, R150) -/

theorem State.handToLines_none (o : BoundaryOrder) (h : s.tb.offsetDue = none) : s.handToLines o = s.retargetLines := by
  simp [State.handToLines, h]

/-- Where an offset change is due, it is made whichever comes first, and the targets are those of the new offset. -/
theorem State.handToLines_some (o : BoundaryOrder) {new : Int} (h : s.tb.offsetDue = some new) :
    (s.setTb (s.tb.withOffset new)).LinesOnly (s.handToLines o) ∧ (s.handToLines o).onTarget := by
  have hturn (t : State) : t.LinesOnly (o.between.foldl State.turnLine t) := .foldl (fun s l => s.turnLine_only l) _ t
  unfold State.handToLines
  rw [h, if_neg (by simp)]
  split
  · obtain ⟨honly, -⟩ := s.judgeOffset_some h
    exact ⟨(honly.trans (hturn _)).trans (State.retargetLines_only _), State.retargetLines_onTarget _⟩
  · have hbefore := s.retargetLines_only.trans (hturn s.retargetLines)
    generalize o.between.foldl State.turnLine s.retargetLines = t at hbefore ⊢
    have htb := hbefore.tb
    obtain ⟨honly, htarget⟩ := t.judgeOffset_some (htb ▸ h)
    refine ⟨State.LinesOnly.trans ?_ honly, htarget⟩
    rw [htb]
    refine ⟨?_, hbefore.period⟩
    rw [hbefore.eq]
    rfl

theorem State.handToLines_onTarget (o : BoundaryOrder) : (s.handToLines o).onTarget := by
  cases h : s.tb.offsetDue with
  | none => exact s.handToLines_none o h ▸ s.retargetLines_onTarget
  | some new => exact (s.handToLines_some o h).2

/-- Whether an offset change is made or not, the lines are handed nothing else of the timebase. -/
theorem State.handToLines_only (o : BoundaryOrder) : ∃ offset scheduled,
    (s.setTb { s.tb with civilOffset := offset, scheduled := scheduled }).LinesOnly (s.handToLines o) := by
  cases h : s.tb.offsetDue with
  | none => exact ⟨_, _, s.handToLines_none o h ▸ s.retargetLines_only⟩
  | some new => exact ⟨_, _, (s.handToLines_some o h).1⟩

end Facts

end Sys2Proof.Machine
end

