-- ==== Sys2Proof/Proofs/SecondBoundary.lean ====
section
/-! PROOFS. Sys2Proof/Proofs/SecondBoundary.lean: a second boundary taken when it is due, and the run of the scales to one that is not (R49,
R50, R64, R66). -/

namespace Sys2Proof.Machine

section Facts

variable (s : State) (o : BoundaryOrder)

/-! ## The carry by its second -/

theorem State.carry_tb_leap {x : DaySec} {kind : LeapKind} (h : s.tb.nextSecond = (x, some kind)) :
    s.carry.tb.tod.day = x.day ∧ s.carry.tb.tod.sec = x.sec ∧ s.carry.tb.recentLeap = some ⟨s.tb.tod.day, kind⟩ ∧
      s.carry.tb.armedLeap = none := by
  have hkind : s.tb.nextSecond.2 = some kind := by rw [h]
  rw [s.carry_leap kind hkind]
  refine ⟨?_, ?_, rfl, rfl⟩
  · change s.tb.nextSecond.1.day = x.day
    rw [h]
  · change s.tb.nextSecond.1.sec = x.sec
    rw [h]

theorem State.carry_tb_plain {x : DaySec} (h : s.tb.nextSecond = (x, none)) :
    s.carry.tb.tod.day = x.day ∧ s.carry.tb.tod.sec = x.sec ∧ s.carry.tb.armedLeap = s.tb.armedLeap ∧
      s.carry.tb.recentLeap = s.tb.recentLeap := by
  have hkind : s.tb.nextSecond.2 = none := by rw [h]
  rw [s.carry_plain hkind]
  refine ⟨?_, ?_, rfl, rfl⟩
  · change s.tb.nextSecond.1.day = x.day
    rw [h]
  · change s.tb.nextSecond.1.sec = x.sec
    rw [h]

/-- The carry at a DELETE that is due (R64). -/
theorem State.carry_delete (hsec : s.tb.tod.sec = 86398) (harmed : s.tb.armedLeap = some ⟨s.tb.tod.day, .delete⟩) :
    s.carry.tb.tod.day = s.tb.tod.day + 1 ∧ s.carry.tb.tod.sec = 0 ∧ s.carry.tb.recentLeap = some ⟨s.tb.tod.day, .delete⟩ ∧
      s.carry.tb.armedLeap = none :=
  s.carry_tb_leap (s.tb.nextSecond_delete hsec harmed)

/-- The carry at an INSERT that is due (R64). -/
theorem State.carry_insert (hsec : s.tb.tod.sec = 86399) (harmed : s.tb.armedLeap = some ⟨s.tb.tod.day, .insert⟩) :
    s.carry.tb.tod.day = s.tb.tod.day ∧ s.carry.tb.tod.sec = 86400 ∧ s.carry.tb.recentLeap = some ⟨s.tb.tod.day, .insert⟩ ∧
      s.carry.tb.armedLeap = none :=
  s.carry_tb_leap (s.tb.nextSecond_insert hsec harmed)

/-- The carry at which no leap is due leaves the leaps as they are (R50, log entry 19). -/
theorem State.carry_no_leap (hd : s.tb.armedLeap ≠ some ⟨s.tb.tod.day, .delete⟩ ∨ s.tb.tod.sec ≠ 86398)
    (hi : s.tb.armedLeap ≠ some ⟨s.tb.tod.day, .insert⟩ ∨ s.tb.tod.sec ≠ 86399) :
    s.carry.tb.armedLeap = s.tb.armedLeap ∧ s.carry.tb.recentLeap = s.tb.recentLeap ∧
      (s.tb.tod.sec < 86399 → s.carry.tb.tod.day = s.tb.tod.day ∧ s.carry.tb.tod.sec = s.tb.tod.sec + 1) ∧
      (86399 ≤ s.tb.tod.sec → s.carry.tb.tod.day = s.tb.tod.day + 1 ∧ s.carry.tb.tod.sec = 0) := by
  obtain ⟨hday, hsec, harmed, hrecent⟩ := s.carry_tb_plain (s.tb.nextSecond_plain hd hi)
  refine ⟨harmed, hrecent, fun h => ?_, fun h => ?_⟩
  · rw [if_neg (by omega)] at hday hsec
    exact ⟨hday, hsec⟩
  · rw [if_pos h] at hday hsec
    exact ⟨hday, hsec⟩

theorem State.carry_nanos (h : 1000000000 ≤ s.tb.tod.nanos) : s.carry.tb.tod.nanos + 1000000000 = s.tb.tod.nanos := by
  obtain ⟨_, _, htb⟩ := s.carry_tb
  have hcarry : s.carry.tb.tod.nanos = s.tb.tod.nanos - 1000000000 := by
    rw [htb]
    exact if_pos h
  omega

/-- An executed leap has its record (R64, R68). -/
theorem State.carry_leap_record {kind : LeapKind} (h : s.tb.nextSecond.2 = some kind) :
    s.carry = (s.setTb s.carry.tb).withRecord (s.levelOf .time) (.timebase kind.event none) := by
  rw [s.carry_leap kind h]
  rfl

/-! ## The boundary as a whole -/

theorem State.boundary_eq : s.boundary o = s.walked.handToLines o := rfl

theorem State.boundary_tb : ∃ offset scheduled,
    (s.boundary o).tb = { s.carry.tb with civilOffset := offset, scheduled := scheduled } := by
  obtain ⟨offset, scheduled, h⟩ := s.walked.handToLines_only o
  refine ⟨offset, scheduled, ?_⟩
  rw [s.boundary_eq, ← s.walked_only.1]
  exact h.tb

/-- Behind the walk a boundary moves the lines, the schedule and the journal only. -/
theorem State.boundary_blocks : (s.boundary o).bankA = s.walked.bankA ∧ (s.boundary o).bankB = s.walked.bankB ∧
    (s.boundary o).ports = s.walked.ports ∧ (s.boundary o).latchSeq = s.walked.latchSeq := by
  obtain ⟨offset, scheduled, h⟩ := s.walked.handToLines_only o
  rw [s.boundary_eq]
  simpa using h.blocks

theorem State.boundary_tod : (s.boundary o).tb.tod = s.carry.tb.tod := by
  obtain ⟨_, _, htb⟩ := s.boundary_tb o
  rw [htb]

theorem State.boundary_latchSeq : (s.boundary o).latchSeq =
    if s.latchInterval.latches (s.boundary o).tb.tod.sec then s.latchSeq + 1 else s.latchSeq := by
  obtain ⟨-, -, -, hseq⟩ := s.boundary_blocks o
  rw [hseq, s.walked_latchSeq, s.boundary_tod o]

theorem State.walked_line (l : LineId) : s.walked.line l = s.line l := by
  obtain ⟨-, hlines, -, -⟩ := s.walked_only
  unfold State.line
  rw [hlines]

theorem State.walked_instant : s.walked.tb.instant = s.tb.instant := by
  obtain ⟨htb, -, -, -⟩ := s.walked_only
  obtain ⟨_, _, hcarry⟩ := s.carry_tb
  rw [htb, hcarry]
  rfl

/-- What of the schedule the offset change is judged by at the boundary (R66). -/
theorem State.walked_schedule : s.walked.tb.scheduled = s.tb.scheduled ∧ s.walked.tb.setFlag = s.tb.setFlag ∧
    s.walked.tb.civilOffset = s.tb.civilOffset ∧ s.walked.tb.time = s.carry.tb.time := by
  obtain ⟨htb, -, -, -⟩ := s.walked_only
  obtain ⟨_, _, hcarry⟩ := s.carry_tb
  refine ⟨?_, ?_, ?_, by rw [htb]⟩
  all_goals rw [htb, hcarry]; rfl

theorem State.boundary_target (l : LineId) : ((s.boundary o).line l).target = (s.boundary o).tb.target (s.line l).period ∧
    ((s.boundary o).line l).period = (s.line l).period := by
  obtain ⟨offset, scheduled, h⟩ := s.walked.handToLines_only o
  have hperiod : ((s.boundary o).line l).period = (s.line l).period := by
    rw [s.boundary_eq, h.period, State.setTb_line, s.walked_line]
  have htarget := s.walked.handToLines_onTarget o l
  rw [← s.boundary_eq, hperiod] at htarget
  exact ⟨htarget, hperiod⟩

/-- A scheduled change whose instant the new time has reached is made with the boundary (R66). -/
theorem State.boundary_offset_made (c : ScheduledChange) (hc : s.tb.scheduled = some c) (hset : s.tb.setFlag = true)
    (h : s.carry.tb.time.daySec.before ⟨c.day, c.sec⟩ = false) :
    (s.boundary o).tb.scheduled = none ∧ (s.boundary o).tb.civilOffset = c.offset := by
  obtain ⟨hsched, hflag, -, htime⟩ := s.walked_schedule
  have hdue := s.walked.tb.offsetDue_some c (hsched.trans hc) (hflag.trans hset) (htime.symm ▸ h)
  rw [s.boundary_eq, (s.walked.handToLines_some o hdue).1.tb]
  exact ⟨rfl, rfl⟩

/-- Where no change is made, the lines take the targets of the new time of day and nothing else (R137). -/
theorem State.boundary_offset_kept (h : s.tb.scheduled = none ∨ s.tb.setFlag = false ∨
      ∃ c, s.tb.scheduled = some c ∧ s.carry.tb.time.daySec.before ⟨c.day, c.sec⟩ = true) :
    (s.boundary o).tb.scheduled = s.tb.scheduled ∧ (s.boundary o).tb.civilOffset = s.tb.civilOffset ∧
      ∀ l, (s.line l).takesTarget ((s.boundary o).line l) ((s.boundary o).tb.target (s.line l).period) s.tb.instant := by
  obtain ⟨hsched, hflag, hoffset, htime⟩ := s.walked_schedule
  have hdue := s.walked.tb.offsetDue_none (by rw [hsched, hflag, htime]; exact h)
  rw [s.boundary_eq, s.walked.handToLines_none o hdue, s.walked.retargetLines_only.tb]
  refine ⟨hsched, hoffset, fun l => ?_⟩
  rw [State.retargetLines_line, s.walked_line, s.walked_instant]
  exact Line.retarget_takesTarget _ _ _

/-! ## A boundary that is due, and the run to one that is not -/

theorem exec_secondBoundary_due (hi : s.initialising = false) (h : s.tb.carryDue = true) :
    exec (.secondBoundary o) s = .next (s.boundary o) := by
  change s.event (fun s => s.toBoundary o) = _
  rw [State.event_eq _ _ hi, State.toBoundary, if_pos h]

theorem exec_secondBoundary_ahead (hi : s.initialising = false) (h : s.tb.carryDue = false) :
    exec (.secondBoundary o) s = .next ((s.setTb (s.tb.run s.tb.cyclesToCarry)).boundary o) := by
  change s.event (fun s => s.toBoundary o) = _
  rw [State.event_eq _ _ hi, State.toBoundary, if_neg (by simp [h])]

/-- Time that has run to the carry is at its boundary: the command takes it there at once, or after a run of no cycle (log entry 2). -/
theorem exec_secondBoundary_reached (hi : s.initialising = false) (h : s.tb.carryDue = false) (hl : s.tb.lawful) :
    exec (.secondBoundary o) (s.setTb (s.tb.run s.tb.cyclesToCarry)) =
      .next ((s.setTb (s.tb.run s.tb.cyclesToCarry)).boundary o) := by
  have hreach := (s.tb.cyclesToCarry_le_iff hl _).1 (Nat.le_refl _)
  rcases Nat.eq_zero_or_pos s.tb.cyclesToCarry with hzero | hpos
  · rw [hzero] at hreach ⊢
    have hsettled : (s.tb.run 0).cyclesToCarry ≤ 0 := by
      rw [Timebase.cyclesToCarry_le_iff _ (by simpa [Timebase.lawful] using hl), Timebase.run_zero_run_zero]
      exact hreach
    have hagain : (s.setTb (s.tb.run 0)).tb.run (s.setTb (s.tb.run 0)).tb.cyclesToCarry = s.tb.run 0 := by
      rw [State.setTb_tb, Nat.le_zero.1 hsettled, Timebase.run_zero_run_zero]
    rw [exec_secondBoundary_ahead (s.setTb (s.tb.run 0)) o hi (s.tb.run_zero_carryDue.trans h), hagain]
    rfl
  · exact exec_secondBoundary_due _ o hi (s.tb.run_carryDue _ hpos hreach)

end Facts

/-- Settles O35: the run to the carry, the carry with its leaps and its latch, and the boundary handed to the blocks. -/
theorem secondBoundaryCarries : Obligations.SecondBoundaryCarries := by
  unfold Obligations.SecondBoundaryCarries
  refine ⟨fun s o hi hdue hl _ _ => ?_, fun s kind event harmed hcase => ?_, fun s o hi hdue => ?_⟩
  · have hreach := (s.tb.cyclesToCarry_le_iff hl _).1 (Nat.le_refl _)
    have hahead := exec_secondBoundary_ahead s o hi hdue
    have hagain := exec_secondBoundary_reached s o hi hdue hl
    have hleast (m : Nat) (hm : m < s.tb.cyclesToCarry) : (s.tb.run m).tod.nanos < 1000000000 := by
      have := s.tb.cyclesToCarry_le_iff hl m
      omega
    generalize s.tb.cyclesToCarry = n at *
    have hdelete := (s.setTb (s.tb.run n)).carry_delete
    have hinsert := (s.setTb (s.tb.run n)).carry_insert
    have hplain := (s.setTb (s.tb.run n)).carry_no_leap
    have hlatch := (s.setTb (s.tb.run n)).boundary_latchSeq o
    obtain ⟨_, _, htb⟩ := (s.setTb (s.tb.run n)).boundary_tb o
    obtain ⟨_, _, hcarry⟩ := (s.setTb (s.tb.run n)).carry_tb
    refine ⟨_, n, hahead, hreach, hleast, ?_, ?_, ?_, fun hsec harmed => ?_, fun hsec harmed => ?_, fun hd hins => ?_,
      fun k hk => ?_, fun hmanual => ?_, hahead.trans hagain.symm⟩
    · rw [htb, hcarry]
      rfl
    · rw [htb]
      exact State.carry_nanos (s.setTb (s.tb.run n)) hreach
    · rw [htb, hcarry]
      rfl
    · rw [htb]
      simpa using hdelete (by simpa using hsec) (by simpa using harmed)
    · rw [htb]
      simpa using hinsert (by simpa using hsec) (by simpa using harmed)
    · rw [htb]
      simpa using hplain (by simpa using hd) (by simpa using hins)
    · have hlatches (sec : Nat) : s.latchInterval.latches sec = decide (sec % k = 0) := by
        rcases hk with ⟨h, rfl⟩ | ⟨h, rfl⟩ | ⟨h, rfl⟩ <;> rw [h] <;> rfl
      rw [State.setTb_latchInterval, hlatches] at hlatch
      exact ⟨fun h => by simpa [h] using hlatch, fun h => by simpa [h] using hlatch⟩
    · rw [State.setTb_latchInterval, hmanual] at hlatch
      exact hlatch
  · rcases hcase with ⟨rfl, hsec, rfl⟩ | ⟨rfl, hsec, rfl⟩
    · exact s.carry_leap_record (kind := .delete) (by rw [s.tb.nextSecond_delete hsec harmed])
    · exact s.carry_leap_record (kind := .insert) (by rw [s.tb.nextSecond_insert hsec harmed])
  · obtain ⟨hbankA, hbankB, hports, -⟩ := s.boundary_blocks o
    obtain ⟨_, _, htb⟩ := s.boundary_tb o
    obtain ⟨_, _, hcarry⟩ := s.carry_tb
    obtain ⟨-, -, hwalked, -⟩ := s.walked_only
    refine ⟨s.boundary o, exec_secondBoundary_due s o hi hdue, ?_, ?_, ?_, hbankA, hbankB, hports.trans hwalked,
      s.boundary_offset_made o, s.boundary_offset_kept o, s.boundary_target o⟩
    · rw [htb, hcarry]
      rfl
    · rw [htb, hcarry]
      rfl
    · rw [htb]

end Sys2Proof.Machine
end

