-- ==== Sys2Proof/Proofs/ElementTable.lean ====
section
/-! PROOFS. Sys2Proof/Proofs/ElementTable.lean: what the reference counts, the window loads and the supervisor do to the element table, and
how an index and an address are found in the windows (R26, R28, R29, R112). -/

namespace Sys2Proof.Machine

variable (s : State)

/-! ## Reference counts (R112) -/

/-- Of the state only the element table moves, and of a record only its reference count. -/
structure State.RefsOnly (s t : State) : Prop where
  only : t = { s with elements := t.elements }
  table : tableWf s.elements → tableWf t.elements
  record : ∀ i, ∃ f : Nat → Nat, t.element i = (s.element i).map fun e => { e with refs := f e.refs }

theorem State.RefsOnly.refl : s.RefsOnly s := ⟨rfl, id, fun _ => ⟨id, by simp⟩⟩

theorem State.RefsOnly.trans {s t u : State} (h : s.RefsOnly t) (k : t.RefsOnly u) : s.RefsOnly u where
  only := by
    rw [k.only, h.only]
  table := k.table ∘ h.table
  record i := by
    obtain ⟨f, hf⟩ := h.record i
    obtain ⟨g, hg⟩ := k.record i
    exact ⟨g ∘ f, by simp [hg, hf, Function.comp_def]⟩

theorem State.RefsOnly.foldl {α : Type} {f : State → α → State} (h : ∀ (s : State) a, s.RefsOnly (f s a)) (l : List α) (s : State) :
    s.RefsOnly (l.foldl f s) := by
  induction l generalizing s with
  | nil => exact .refl s
  | cons a l ih => exact (h s a).trans (ih _)

theorem State.element_adjustRefs (f : Nat → Nat) (i j : Nat) :
    (s.adjustRefs f i).element j = (s.element j).map fun e => if j = i then { e with refs := f e.refs } else e := by
  unfold State.adjustRefs
  by_cases hj : j = i
  · subst hj
    split <;> rename_i h <;> simp [h]
  · split
    · simp [State.element_setElement_other, hj]
    · simp [hj]

theorem State.refsOnly_adjustRefs (f : Nat → Nat) (i : Nat) : s.RefsOnly (s.adjustRefs f i) := by
  refine ⟨?_, fun h => ?_, fun j => ⟨if j = i then f else id, ?_⟩⟩
  · unfold State.adjustRefs
    split <;> rfl
  · unfold State.adjustRefs
    split
    · rename_i e he
      exact tableWf_insert i _ h (lookup_lt h he)
    · exact h
  · rw [State.element_adjustRefs]
    by_cases hj : j = i <;> simp [hj]

theorem State.refsOnly_raiseRefs (e : Entry) : s.RefsOnly (s.raiseRefs e) :=
  .foldl (fun s i => s.refsOnly_adjustRefs raise16 i) e.names s

theorem State.refsOnly_lowerRefs (entries : List Entry) : s.RefsOnly (s.lowerRefs entries) :=
  .foldl (fun s (e : Entry) => State.RefsOnly.foldl (fun s i => s.refsOnly_adjustRefs (fun n => n - 1) i) e.names s) entries s

/-- Each name takes one from the count of the record named. -/
theorem State.element_foldl_lower (names : List Nat) (j : Nat) :
    (names.foldl (State.adjustRefs fun n => n - 1) s).element j =
      (s.element j).map fun e => { e with refs := e.refs - names.count j } := by
  induction names generalizing s with
  | nil => simp
  | cons i names ih =>
    rw [List.foldl_cons, ih, State.element_adjustRefs, Option.map_map]
    congr 1
    funext e
    by_cases hj : j = i
    · subst hj
      simp [Nat.sub_sub, Nat.add_comm]
    · simp [hj, List.count_cons_of_ne (Ne.symm hj)]

/-- The entries of an emptied bank lower each count by the times that they name the record (R112). -/
theorem State.element_lowerRefs (entries : List Entry) (j : Nat) :
    (s.lowerRefs entries).element j =
      (s.element j).map fun e => { e with refs := e.refs - (entries.map fun e => e.names.count j).sum } := by
  unfold State.lowerRefs
  induction entries generalizing s with
  | nil => simp
  | cons e entries ih =>
    rw [List.foldl_cons, ih, State.element_foldl_lower, Option.map_map]
    simp [Function.comp_def, Nat.sub_sub]

/-- What becomes of the rest of the state when a bank is emptied (R112, R118). -/
theorem State.emptyBank_eq (b : BankId) :
    s.emptyBank b = { s.setBank b Bank.afterReset with elements := (s.emptyBank b).elements } := by
  have h := (s.refsOnly_lowerRefs (s.bank b).entries).only
  unfold State.emptyBank
  generalize s.lowerRefs (s.bank b).entries = t at h
  rw [h]
  cases b <;> rfl

theorem State.element_emptyBank (b : BankId) (j : Nat) :
    (s.emptyBank b).element j = (s.element j).map fun e => { e with refs := e.refs - (s.bank b).naming j } := by
  unfold State.emptyBank
  rw [State.setBank_element, State.element_lowerRefs]
  rfl

theorem State.bank_emptyBank (b c : BankId) : (s.emptyBank b).bank c = if c = b then Bank.afterReset else s.bank c := by
  rw [← State.bank_setBank, State.emptyBank_eq]
  cases c <;> rfl

theorem State.refsOnly_emptyBank (b : BankId) : (s.setBank b Bank.afterReset).RefsOnly (s.emptyBank b) := by
  refine ⟨s.emptyBank_eq b, fun h => ?_, fun i => ?_⟩
  · have := (s.refsOnly_lowerRefs (s.bank b).entries).table
    simp only [State.setBank_elements] at h
    simpa [State.emptyBank] using this h
  · rw [State.element_emptyBank, State.setBank_element]
    exact ⟨fun n => n - (s.bank b).naming i, rfl⟩

end Sys2Proof.Machine
end

