-- ==== Sys2Proof/Proofs/Windows.lean ====
section
/-! PROOFS. Sys2Proof/Proofs/Windows.lean: how the windows lead an address to an index and an index to its mapping, what LOAD WINDOW is
judged against, and what a window load does to the windows and the records (R26 to R29). -/

namespace Sys2Proof.Machine

/-! ## Looking through the windows -/

theorem mem_lineIds (w : LineId) : w ∈ lineIds := by fin_cases w <;> decide

theorem mem_windowIds (x : PortId × LineId) : x ∈ windowIds := by
  obtain ⟨p, w⟩ := x
  have hp : p ∈ portIds := by fin_cases p <;> decide
  exact List.mem_flatMap.2 ⟨p, hp, List.mem_map.2 ⟨w, mem_lineIds w, rfl⟩⟩

theorem Window.isOpen_iff (x : Window) : x.isOpen = true ↔ x.base ≤ x.limit := by simp [Window.isOpen]

theorem Window.holds_iff (x : Window) (a : Nat) : x.holds a = true ↔ x.base ≤ a ∧ a ≤ x.limit := by
  simp only [Window.holds, Bool.and_eq_true, Window.isOpen_iff, decide_eq_true_eq]
  omega

theorem Window.contains_iff (x : Window) (i : Nat) :
    x.contains i = true ↔ x.base ≤ x.limit ∧ x.tableBase ≤ i ∧ i ≤ x.tableBase + (x.limit - x.base) := by
  rw [Window.contains, Bool.and_eq_true, Bool.and_eq_true, Window.isOpen_iff, decide_eq_true_iff, decide_eq_true_iff, and_assoc]
  rfl

variable (s : State)

/-- The one window of a port that holds an address leads it to its index (R26, R29). -/
theorem State.decodeAddress_of_holds {p : PortId} {w : LineId} {a : Nat} (h : (s.window p w).holds a = true)
    (hother : ∀ v, v ≠ w → (s.window p v).holds a = false) :
    s.decodeAddress p a = some ((s.window p w).tableBase + (a - (s.window p w).base)) := by
  unfold State.decodeAddress
  cases hfind : lineIds.find? fun v => (s.window p v).holds a with
  | none => exact absurd h (List.find?_eq_none.1 hfind w (mem_lineIds w))
  | some v =>
    have hv : v = w := by
      by_contra hne
      have hholds := List.find?_some hfind
      rw [hother v hne] at hholds
      cases hholds
    rw [hv]
    rfl

theorem State.decodeAddress_none {p : PortId} {a : Nat} (h : ∀ v, (s.window p v).holds a = false) : s.decodeAddress p a = none := by
  simp [State.decodeAddress, h]

theorem sameMapping_self (m : Option Mapping) : sameMapping m m = true := by cases m <;> simp [sameMapping]

/-! ## What LOAD WINDOW is judged against (R27) -/

theorem State.mem_otherWindows {p : PortId} {w : LineId} {y : PortId × Window} :
    y ∈ s.otherWindows p w ↔ ∃ q v, (q, v) ≠ (p, w) ∧ y = (q, s.window q v) := by
  simp only [State.otherWindows, List.mem_map, List.mem_filter, bne_iff_ne]
  constructor
  · rintro ⟨⟨q, v⟩, ⟨-, hne⟩, rfl⟩
    exact ⟨q, v, hne, rfl⟩
  · rintro ⟨q, v, hne, rfl⟩
    exact ⟨(q, v), ⟨mem_windowIds _, hne⟩, rfl⟩

/-- The two tests of OVERLAP are what the law of the windows names (R27). -/
theorem State.overlaps_iff (p : PortId) (w : LineId) {x : Window} (hx : x.base ≤ x.limit) :
    s.overlaps p w x ↔ ((s.otherWindows p w).any fun y => y.1 == p && x.meetsAddress y.2) = true ∨
      ((s.otherWindows p w).any fun y => x.meetsIndex y.2) = true := by
  simp only [List.any_eq_true, State.mem_otherWindows, Window.meetsAddress, Window.meetsIndex, Bool.and_eq_true,
    Window.isOpen_iff, decide_eq_true_eq, beq_iff_eq, hx, true_and]
  constructor
  · rintro ⟨q, v, hne, hopen, ⟨hp, h1, h2⟩ | ⟨h1, h2⟩⟩
    · exact .inl ⟨_, ⟨q, v, hne, rfl⟩, hp, ⟨hopen, h1⟩, h2⟩
    · exact .inr ⟨_, ⟨q, v, hne, rfl⟩, ⟨hopen, h1⟩, h2⟩
  · rintro (⟨_, ⟨q, v, hne, rfl⟩, hp, ⟨hopen, h1⟩, h2⟩ | ⟨_, ⟨q, v, hne, rfl⟩, ⟨hopen, h1⟩, h2⟩)
    · exact ⟨q, v, hne, hopen, .inl ⟨hp, h1, h2⟩⟩
    · exact ⟨q, v, hne, hopen, .inr ⟨h1, h2⟩⟩

theorem Supervision.active_iff (x : Supervision) : x.active = true ↔ x ≠ .idle := by cases x <;> simp [Supervision.active]

/-- The test of BUSY is what the law of the windows names (R27). -/
theorem State.supervisedIn_iff (x : Window) : s.supervisedIn x = true ↔ s.touches x := by
  simp only [State.supervisedIn, State.touches, List.any_eq_true, Bool.and_eq_true, Window.contains_iff, Supervision.active_iff]
  constructor
  · rintro ⟨r, hr, ⟨hopen, h1, h2⟩, hsup⟩
    exact ⟨hopen, r, hr, hsup, h1, h2⟩
  · rintro ⟨hopen, r, hr, hsup, h1, h2⟩
    exact ⟨r, hr, ⟨hopen, h1, h2⟩, hsup⟩

/-- A window that touches no supervised record contains none. -/
theorem State.not_contains_of_not_touches {x : Window} {i : Nat} {e : Element} (h : ¬ s.touches x) (he : s.element i = some e)
    (hsup : e.sup ≠ .idle) : x.contains i = false := by
  by_contra hc
  rw [Bool.not_eq_false, Window.contains_iff] at hc
  obtain ⟨hopen, h1, h2⟩ := hc
  exact h ⟨hopen, (i, e), mem_of_lookup he, hsup, h1, h2⟩

/-! ## A window load -/

section Load

variable (p : PortId) (w : LineId) (x : Window)

theorem State.takeWindow_window_same : (s.takeWindow p w x).window p w = x := s.window_setWindow_same p w x

theorem State.takeWindow_window_other {q : PortId} {v : LineId} (h : (q, v) ≠ (p, w)) :
    (s.takeWindow p w x).window q v = s.window q v :=
  s.window_setWindow_other p q w v x h

/-- A window load moves the windows and the records only. -/
theorem State.takeWindow_only :
    s.takeWindow p w x = { s with windows := (s.takeWindow p w x).windows, elements := (s.takeWindow p w x).elements } := rfl

theorem State.element_takeWindow (i : Nat) :
    (s.takeWindow p w x).element i = (s.element i).map (s.realign (s.takeWindow p w x) i) := by
  simp only [State.element, State.takeWindow, lookup_mapRecords]
  rfl

/-- A window that contains the index neither before the load nor after it leaves its mapping (R28). -/
theorem State.mapping_takeWindow {i : Nat} (hold : (s.window p w).contains i = false) (hnew : x.contains i = false) :
    (s.takeWindow p w x).mapping i = s.mapping i := by
  have hwindow (y : PortId × LineId) : (s.takeWindow p w x).window y.1 y.2 = s.window y.1 y.2 ∨
      ((s.takeWindow p w x).window y.1 y.2).contains i = false ∧ (s.window y.1 y.2).contains i = false := by
    by_cases hy : y = (p, w)
    · rw [hy, State.takeWindow_window_same]
      exact .inr ⟨hnew, hold⟩
    · exact .inl (s.takeWindow_window_other p w x hy)
  have htest : (fun y : PortId × LineId => ((s.takeWindow p w x).window y.1 y.2).contains i) =
      fun y => (s.window y.1 y.2).contains i := by
    funext y
    rcases hwindow y with h | ⟨h1, h2⟩
    · rw [h]
    · rw [h1, h2]
  unfold State.mapping
  rw [htest]
  cases hfind : windowIds.find? fun y => (s.window y.1 y.2).contains i with
  | none => rfl
  | some y =>
    rcases hwindow y with h | ⟨-, h⟩
    · simp only [Option.map_some, h]
    · have hc := List.find?_some hfind
      rw [h] at hc
      cases hc

/-- A record under supervision is not realigned by a load that BUSY does not refuse (R27, R28). -/
theorem State.realign_supervised {i : Nat} {e : Element} (he : s.element i = some e) (hsup : e.sup ≠ .idle)
    (hold : ¬ s.touches (s.window p w)) (hnew : ¬ s.touches x) : s.realign (s.takeWindow p w x) i e = e := by
  have hmap := s.mapping_takeWindow p w x (s.not_contains_of_not_touches hold he hsup) (s.not_contains_of_not_touches hnew he hsup)
  unfold State.realign
  rw [hmap, sameMapping_self]
  rfl

theorem State.realign_sup (t : State) (i : Nat) (e : Element) : (s.realign t i e).sup = e.sup := by
  unfold State.realign
  split <;> rfl

end Load

/-- A window load that is not refused keeps the law of the windows (R26, R27). -/
theorem State.windowsLawful_takeWindow (p : PortId) (w : LineId) {x : Window}
    (hx : x.base ≤ x.limit → x.limit ≤ 4095 ∧ x.tableBase + (x.limit - x.base) ≤ 2047 ∧ ¬ s.overlaps p w x)
    (h : s.windowsLawful) : (s.takeWindow p w x).windowsLawful := by
  obtain ⟨hranges, hapart⟩ := h
  have hother (q : PortId) (v : LineId) (hne : (q, v) ≠ (p, w)) := s.takeWindow_window_other p w x hne
  have hsame := s.takeWindow_window_same p w x
  refine ⟨fun q v => ?_, fun q v => ?_⟩
  · by_cases hqv : (q, v) = (p, w)
    · cases hqv
      rw [hsame]
      exact fun hopen => ⟨(hx hopen).1, (hx hopen).2.1⟩
    · rw [hother q v hqv]
      exact hranges q v
  · rintro ⟨hopen, q', v', hne, hopen', hmeets⟩
    by_cases hqv : (q, v) = (p, w)
    · cases hqv
      rw [hother q' v' hne] at hopen' hmeets
      rw [hsame] at hopen hmeets
      exact (hx hopen).2.2 ⟨q', v', hne, hopen', hmeets⟩
    · rw [hother q v hqv] at hopen hmeets
      by_cases hqv' : (q', v') = (p, w)
      · cases hqv'
        rw [hsame] at hopen' hmeets
        refine (hx hopen').2.2 ⟨q, v, hqv, hopen, ?_⟩
        exact hmeets.imp (fun ⟨h, h1, h2⟩ => ⟨h.symm, h2, h1⟩) fun ⟨h1, h2⟩ => ⟨h2, h1⟩
      · rw [hother q' v' hqv'] at hopen' hmeets
        exact hapart q v ⟨hopen, q', v', hne, hopen', hmeets⟩

/-- A window load that is not refused marks no supervised record stale (R28, R38). -/
theorem State.staleLawful_takeWindow (p : PortId) (w : LineId) {x : Window} (hold : ¬ s.touches (s.window p w))
    (hnew : ¬ s.touches x) (h : s.staleLawful) : (s.takeWindow p w x).staleLawful := by
  intro i e' he' hstale
  rw [State.element_takeWindow, Option.map_eq_some_iff] at he'
  obtain ⟨e, he, rfl⟩ := he'
  by_contra hsup
  rw [State.realign_sup] at hsup
  rw [s.realign_supervised p w x he hsup hold hnew] at hstale
  exact hsup (h i e he hstale)

end Sys2Proof.Machine
end

