-- ==== Sys2Proof/Proofs/TableLaws.lean ====
section
/-! PROOFS. Sys2Proof/Proofs/TableLaws.lean: what it is to keep the laws of O57, and the updates of one table that keep them: records,
windows, and one bank with its references (R26, R30, R38, R107, R114, R118, R122). -/

namespace Sys2Proof.Machine

/-! ## Keeping the laws -/

/-- The laws of the windows and the records. -/
structure State.KeepsRecords (s t : State) : Prop where
  windows : s.windowsLawful → t.windowsLawful
  stale : s.staleLawful → t.staleLawful
  table : tableWf s.elements → tableWf t.elements

/-- The laws of the banks that hold between the closing of an entry and the settling of its bank as well. -/
structure State.KeepsOpen (s t : State) : Prop where
  banks : s.banksLawful → t.banksLawful
  openList : s.openListLawful → t.openListLawful

/-- What every step keeps (O57). -/
structure State.KeepsTables (s t : State) : Prop where
  records : s.KeepsRecords t
  opened : s.KeepsOpen t
  retiring : s.retiringLawful → t.retiringLawful

section Relations

variable {s t u : State}

theorem State.KeepsRecords.trans (h : s.KeepsRecords t) (k : t.KeepsRecords u) : s.KeepsRecords u :=
  ⟨k.windows ∘ h.windows, k.stale ∘ h.stale, k.table ∘ h.table⟩

theorem State.KeepsOpen.trans (h : s.KeepsOpen t) (k : t.KeepsOpen u) : s.KeepsOpen u :=
  ⟨k.banks ∘ h.banks, k.openList ∘ h.openList⟩

theorem State.KeepsTables.trans (h : s.KeepsTables t) (k : t.KeepsTables u) : s.KeepsTables u :=
  ⟨h.records.trans k.records, h.opened.trans k.opened, k.retiring ∘ h.retiring⟩

theorem State.overlaps_congr (h : t.windows = s.windows) : t.overlaps = s.overlaps := by
  funext p w x
  simp only [State.overlaps, State.window, h]

theorem State.windowsLawful_congr (h : t.windows = s.windows) : t.windowsLawful ↔ s.windowsLawful := by
  simp only [State.windowsLawful, State.overlaps_congr h, State.window, h]

theorem State.KeepsRecords.of_eq (hw : t.windows = s.windows) (he : t.elements = s.elements) : s.KeepsRecords t := by
  refine ⟨(State.windowsLawful_congr hw).2, fun h => ?_, fun h => ?_⟩
  · simpa only [State.staleLawful, State.element, he] using h
  · rw [he]
    exact h

/-- The parts of the state in whose terms the laws of the banks are stated. -/
def State.checkerPart (s : State) : Bank × Bank × List EntryRef := (s.bankA, s.bankB, s.openList)

theorem State.bank_of_checkerPart (h : t.checkerPart = s.checkerPart) : t.bank = s.bank := by
  simp only [State.checkerPart, Prod.mk.injEq] at h
  obtain ⟨hA, hB, -⟩ := h
  funext b
  cases b <;> assumption

theorem State.openList_of_checkerPart (h : t.checkerPart = s.checkerPart) : t.openList = s.openList := by
  simp only [State.checkerPart, Prod.mk.injEq] at h
  exact h.2.2

theorem State.KeepsOpen.of_eq (h : t.checkerPart = s.checkerPart) : s.KeepsOpen t := by
  have hbank := State.bank_of_checkerPart h
  refine ⟨fun hs => ?_, fun hs => ?_⟩
  · obtain ⟨hA, hB⟩ : t.bankA = s.bankA ∧ t.bankB = s.bankB := ⟨congrFun hbank .bankA, congrFun hbank .bankB⟩
    rw [State.banksLawful, hA, hB]
    exact hs
  · simpa only [State.openListLawful, State.entry, hbank, State.openList_of_checkerPart h] using hs

/-- What moves the records alone keeps the laws of the banks. -/
theorem State.KeepsTables.of_records (hc : t.checkerPart = s.checkerPart) (h : s.KeepsRecords t) : s.KeepsTables t := by
  refine ⟨h, .of_eq hc, fun hs b => ?_⟩
  rw [State.bank_of_checkerPart hc]
  exact hs b

/-- The windows, the records, the banks and the open list. -/
def State.tables (s : State) : Eight (Four Window) × List (Nat × Element) × Bank × Bank × List EntryRef :=
  (s.windows, s.elements, s.checkerPart)

theorem State.KeepsTables.of_tables (h : t.tables = s.tables) : s.KeepsTables t := by
  simp only [State.tables, Prod.mk.injEq] at h
  obtain ⟨hw, he, hc⟩ := h
  exact .of_records hc (.of_eq hw he)

end Relations

theorem State.KeepsTables.refl (s : State) : s.KeepsTables s := .of_tables rfl

theorem State.KeepsTables.foldl {α : Type} {f : State → α → State} (h : ∀ (s : State) a, s.KeepsTables (f s a)) (l : List α)
    (s : State) : s.KeepsTables (l.foldl f s) := by
  induction l generalizing s with
  | nil => exact .refl s
  | cons a l ih => exact (h s a).trans (ih _)

/-! ## Records -/

/-- The law of R38 for one record. -/
def Element.staleLawful (e : Element) : Prop := e.stale = true → e.sup = .idle

variable (s : State)

/-- A record may be put in place where its index is in the table's range and it meets the law of R38. -/
theorem State.keepsTables_setElement {i : Nat} {e : Element} (hi : tableWf s.elements → i < 2048)
    (he : s.staleLawful → e.staleLawful) : s.KeepsTables (s.setElement i e) := by
  refine .of_records rfl ⟨id, fun h j e' hj => ?_, fun h => tableWf_insert i e h (hi h)⟩
  by_cases hji : j = i
  · subst hji
    rw [State.element_setElement_same] at hj
    cases hj
    exact he h
  · rw [State.element_setElement_other s i j e hji] at hj
    exact h j e' hj

/-- A record may take the place of the present one. -/
theorem State.keepsTables_rewrite {i : Nat} {e e' : Element} (h : s.element i = some e)
    (he : e.staleLawful → e'.staleLawful) : s.KeepsTables (s.setElement i e') :=
  s.keepsTables_setElement (fun hw => lookup_lt hw h) fun hs => he (hs i e h)

theorem State.keepsTables_removeElement (i : Nat) : s.KeepsTables (s.removeElement i) := by
  refine .of_records rfl ⟨id, fun h j e' hj => ?_, tableWf_erase i⟩
  by_cases hji : j = i
  · subst hji
    rw [State.element_removeElement_same] at hj
    cases hj
  · rw [State.element_removeElement_other s i j hji] at hj
    exact h j e' hj

theorem State.keepsTables_offer (o : Offer) : s.KeepsTables (s.offer o) := .of_tables rfl

theorem State.keepsTables_report (b : Body) : s.KeepsTables (s.report b) := .of_tables rfl

/-- The records offered after a record is stored reach the journal alone. -/
theorem State.applySupervised_eq (i : Nat) (r : Supervised) :
    s.applySupervised i r = (s.setElement i r.element).setJournal (s.applySupervised i r).journal := by
  unfold State.applySupervised
  generalize s.setElement i r.element = t
  induction r.offers generalizing t with
  | nil => rfl
  | cons o l ih =>
    rw [List.foldl_cons, ih]
    rfl

theorem State.keepsTables_applySupervised {i : Nat} {r : Supervised} (hi : tableWf s.elements → i < 2048)
    (he : s.staleLawful → r.element.staleLawful) : s.KeepsTables (s.applySupervised i r) := by
  rw [State.applySupervised_eq]
  exact (s.keepsTables_setElement hi he).trans (.of_tables rfl)

/-- Reference counts are in no law of these. -/
theorem State.RefsOnly.keepsRecords {s t : State} (h : s.RefsOnly t) : s.KeepsRecords t := by
  have hw : t.windows = s.windows := by rw [h.only]
  refine ⟨(State.windowsLawful_congr hw).2, fun hs i e' he' => ?_, h.table⟩
  obtain ⟨f, hf⟩ := h.record i
  rw [hf, Option.map_eq_some_iff] at he'
  obtain ⟨e, he, rfl⟩ := he'
  exact hs i e he

end Sys2Proof.Machine
end

