-- ==== Sys2Proof/Proofs/TableLawsOfChecker.lean ====
section
/-! PROOFS. Sys2Proof/Proofs/TableLawsOfChecker.lean: the closing and opening of entries, the walk, and the activation and retirement of
banks keep the laws of O57 (R114, R116 to R122). -/

namespace Sys2Proof.Machine

/-! ## The OPEN entries of a bank -/

/-- How often the open list is to hold the entry at an index of a bank (R122). -/
def Bank.openAt (x : Bank) (i : Nat) : Nat :=
  match x.entries[i]? with
  | some e => if e.status = .opened then 1 else 0
  | none => 0

theorem Bank.openAt_of_entry {x : Bank} {i : Nat} {e : Entry} (h : x.entries[i]? = some e) :
    x.openAt i = if e.status = .opened then 1 else 0 := by
  simp only [Bank.openAt, h]

theorem Bank.openAt_congr {x y : Bank} (h : x.entries = y.entries) : x.openAt = y.openAt := by
  funext i
  simp only [Bank.openAt, h]

theorem Bank.count_opened_eq_zero (x : Bank) : x.count .opened = 0 ↔ ∀ i, x.openAt i = 0 := by
  simp only [Bank.count, List.countP_eq_zero, beq_iff_eq]
  constructor
  · intro h i
    unfold Bank.openAt
    split
    · rename_i e he
      rw [if_neg (h e (List.mem_of_getElem? he))]
    · rfl
  · intro h e he hopen
    obtain ⟨i, hi⟩ := List.mem_iff_getElem?.1 he
    have := h i
    rw [Bank.openAt_of_entry hi, if_pos hopen] at this
    cases this

theorem Bank.openAt_of_no_entries {x : Bank} (h : x.entries = []) (i : Nat) : x.openAt i = 0 := by
  simp [Bank.openAt, h]

/-- An entry rewritten counts by its new status, and the others as before. -/
theorem Bank.openAt_set {x : Bank} {i : Nat} {e : Entry} (h : x.entries[i]? = some e) (e' : Entry) (j : Nat) :
    Bank.openAt { x with entries := x.entries.set i e' } j =
      if j = i then (if e'.status = .opened then 1 else 0) else x.openAt j := by
  by_cases hj : j = i
  · subst hj
    have hlt := (List.getElem?_eq_some_iff.1 h).1
    rw [if_pos rfl]
    exact Bank.openAt_of_entry (by simp [hlt])
  · simp [Bank.openAt, Ne.symm hj, hj]

/-- Entries rewritten one by one, the OPEN ones among them staying OPEN and no other becoming it. -/
theorem Bank.openAt_map {x : Bank} {f : Entry → Entry} (h : ∀ e, (f e).status = .opened ↔ e.status = .opened) (y : Bank)
    (hy : y.entries = x.entries.map f) (i : Nat) : y.openAt i = x.openAt i := by
  simp only [Bank.openAt, hy, List.getElem?_map]
  cases x.entries[i]? with
  | none => rfl
  | some e => simp [h]

theorem Bank.openAt_append {x : Bank} {e : Entry} (h : e.status ≠ .opened) (y : Bank) (hy : y.entries = x.entries ++ [e]) (i : Nat) :
    y.openAt i = x.openAt i := by
  simp only [Bank.openAt, hy]
  by_cases hi : i < x.entries.length
  · rw [List.getElem?_append_left hi]
  · rw [List.getElem?_append_right (by omega), List.getElem?_eq_none (l := x.entries) (by omega)]
    cases hn : i - x.entries.length with
    | zero => simp [h]
    | succ n => simp

/-! ## The laws, bank by bank -/

/-- The law of R122 for the references of one bank. -/
structure State.openLawful (s : State) (b : BankId) : Prop where
  listed : ∀ i, s.openList.count ⟨b, i⟩ = (s.bank b).openAt i
  running : (s.bank b).state ≠ .active → (s.bank b).state ≠ .retiring → ∀ i, (s.bank b).openAt i = 0

theorem State.openListLawful_iff (s : State) : s.openListLawful ↔ ∀ b, s.openLawful b := by
  constructor
  · rintro ⟨hlisted, hrunning⟩ b
    exact ⟨fun i => hlisted ⟨b, i⟩, fun h1 h2 => (s.bank b).count_opened_eq_zero.1 (hrunning b h1 h2)⟩
  · intro h
    exact ⟨fun ⟨b, i⟩ => (h b).listed i, fun b h1 h2 => (s.bank b).count_opened_eq_zero.2 ((h b).running h1 h2)⟩

theorem State.banksLawful_iff (s : State) : s.banksLawful ↔
    ∀ b, ((s.bank b).state = .armed → (s.bank b.other).state ≠ .armed) ∧
      ((s.bank b).state = .active → (s.bank b.other).state ≠ .active) := by
  unfold State.banksLawful
  constructor
  · rintro ⟨h1, h2⟩ b
    cases b with
    | bankA => exact ⟨fun hA hB => h1 ⟨hA, hB⟩, fun hA hB => h2 ⟨hA, hB⟩⟩
    | bankB => exact ⟨fun hB hA => h1 ⟨hA, hB⟩, fun hB hA => h2 ⟨hA, hB⟩⟩
  · intro h
    exact ⟨fun ⟨hA, hB⟩ => (h .bankA).1 hA hB, fun ⟨hA, hB⟩ => (h .bankA).2 hA hB⟩

theorem BankId.other_ne (b : BankId) : b.other ≠ b := by cases b <;> decide

theorem BankId.eq_or_other (b c : BankId) : c = b ∨ c = b.other := by cases b <;> cases c <;> decide

theorem BankId.other_other (b : BankId) : b.other.other = b := by cases b <;> rfl

/-- What may become of one bank and its references while the other bank and the references to it stay. -/
structure State.BankMoves (b : BankId) (s t : State) : Prop where
  other : t.bank b.other = s.bank b.other
  listed : ∀ i, t.openList.count ⟨b.other, i⟩ = s.openList.count ⟨b.other, i⟩
  armed : (t.bank b).state = .armed → (s.bank b).state = .armed ∨ (s.bank b.other).state ≠ .armed
  active : (t.bank b).state = .active → (s.bank b).state = .active ∨ (s.bank b.other).state ≠ .active
  opened : s.openLawful b → t.openLawful b

theorem State.BankMoves.keepsOpen {b : BankId} {s t : State} (h : State.BankMoves b s t) : s.KeepsOpen t := by
  refine ⟨fun hs => ?_, fun hs => ?_⟩
  · rw [State.banksLawful_iff] at hs ⊢
    have hself : ((t.bank b).state = .armed → (t.bank b.other).state ≠ .armed) ∧
        ((t.bank b).state = .active → (t.bank b.other).state ≠ .active) := by
      rw [h.other]
      exact ⟨fun ha => (h.armed ha).elim (hs b).1 id, fun ha => (h.active ha).elim (hs b).2 id⟩
    intro c
    rcases b.eq_or_other c with rfl | rfl
    · exact hself
    · rw [b.other_other]
      exact ⟨fun h1 h2 => hself.1 h2 h1, fun h1 h2 => hself.2 h2 h1⟩
  · rw [State.openListLawful_iff] at hs ⊢
    intro c
    rcases b.eq_or_other c with rfl | rfl
    · exact h.opened (hs c)
    · obtain ⟨hlisted, hrunning⟩ := hs b.other
      refine ⟨fun i => ?_, ?_⟩
      · rw [h.listed, h.other]
        exact hlisted i
      · rw [h.other]
        exact hrunning

/-- The other bank keeps the law of R118 as it stands. -/
theorem State.retiringLawful_of_bank {b : BankId} {s t : State} (hother : t.bank b.other = s.bank b.other)
    (hself : (t.bank b).state = .retiring → 0 < (t.bank b).count .opened) (hs : s.retiringLawful) : t.retiringLawful := by
  intro c
  rcases b.eq_or_other c with rfl | rfl
  · exact hself
  · rw [hother]
    exact hs b.other

variable (s : State) (b : BankId)

@[simp] theorem State.offer_bank (o : Offer) : (s.offer o).bank b = s.bank b := by cases b <;> rfl
@[simp] theorem State.report_bank (body : Body) : (s.report body).bank b = s.bank b := by cases b <;> rfl
@[simp] theorem State.setOpenList_bank (l : List EntryRef) : (s.setOpenList l).bank b = s.bank b := by cases b <;> rfl

@[simp] theorem State.bank_setBank_same (x : Bank) : (s.setBank b x).bank b = x := by cases b <;> rfl

@[simp] theorem State.bank_setBank_other (x : Bank) : (s.setBank b x).bank b.other = s.bank b.other := by cases b <;> rfl

/-- A bank replaced by one with the same entries, whose state does not turn against the other bank's. -/
theorem State.bankMoves_setBank {x : Bank} (hentries : x.entries = (s.bank b).entries)
    (harmed : x.state = .armed → (s.bank b).state = .armed ∨ (s.bank b.other).state ≠ .armed)
    (hactive : x.state = .active → (s.bank b).state = .active ∨ (s.bank b.other).state ≠ .active)
    (hrunning : x.state ≠ .active → x.state ≠ .retiring → (s.bank b).state ≠ .active ∧ (s.bank b).state ≠ .retiring) :
    State.BankMoves b s (s.setBank b x) := by
  refine ⟨by simp, fun i => by simp, by simpa using harmed, by simpa using hactive, fun h => ⟨fun i => ?_, fun h1 h2 i => ?_⟩⟩
  · rw [State.bank_setBank_same, State.setBank_openList, Bank.openAt_congr hentries]
    exact h.listed i
  · rw [State.bank_setBank_same] at h1 h2 ⊢
    obtain ⟨k1, k2⟩ := hrunning h1 h2
    rw [Bank.openAt_congr hentries]
    exact h.running k1 k2 i

/-! ## Emptying and settling (R118) -/

/-- What an emptying does of the banks and the open list is the resetting of one bank. -/
theorem State.emptyBank_checkerPart : (s.emptyBank b).checkerPart = (s.setBank b Bank.afterReset).checkerPart := by
  rw [State.emptyBank_eq]
  rfl

theorem State.keepsRecords_setBank (x : Bank) : s.KeepsRecords (s.setBank b x) := .of_eq (by simp) (by simp)

theorem State.keepsRecords_emptyBank : s.KeepsRecords (s.emptyBank b) :=
  (s.keepsRecords_setBank b _).trans (s.refsOnly_emptyBank b).keepsRecords

/-- A bank without OPEN entries may be emptied. -/
theorem State.bankMoves_emptyBank (h : s.openLawful b → ∀ i, (s.bank b).openAt i = 0) : State.BankMoves b s (s.emptyBank b) := by
  have hbank (c : BankId) := s.bank_emptyBank b c
  have hlist := State.openList_of_checkerPart (s.emptyBank_checkerPart b)
  rw [State.setBank_openList] at hlist
  have hself := hbank b
  rw [if_pos rfl] at hself
  refine ⟨by rw [hbank, if_neg b.other_ne], fun i => by rw [hlist], ?_, ?_, fun ho => ⟨fun i => ?_, fun _ _ i => ?_⟩⟩
  · rw [hself]
    exact nofun
  · rw [hself]
    exact nofun
  · rw [hlist, hself, ho.listed, h ho i]
    rfl
  · rw [hself]
    rfl

theorem State.keepsTables_emptyBank (h : s.openLawful b → ∀ i, (s.bank b).openAt i = 0) : s.KeepsTables (s.emptyBank b) := by
  refine ⟨s.keepsRecords_emptyBank b, (s.bankMoves_emptyBank b h).keepsOpen, State.retiringLawful_of_bank (b := b) ?_ ?_⟩
  · rw [State.bank_emptyBank, if_neg b.other_ne]
  · rw [State.bank_emptyBank, if_pos rfl]
    exact nofun

/-- The settling of a bank leaves it alone, or empties it because the last OPEN entry of a RETIRING bank has closed (R118). -/
theorem State.settleBank_cases : s.settleBank b = s ∨
    ((s.bank b).state = .retiring ∧ (s.bank b).count .opened = 0 ∧
      s.settleBank b = (s.emptyBank b).report (.bank b .emptied 0 0)) := by
  unfold State.settleBank
  split
  · rename_i h
    exact .inr ⟨h.1, h.2, rfl⟩
  · exact .inl rfl

theorem State.keepsTables_settleBank : s.KeepsTables (s.settleBank b) := by
  rcases s.settleBank_cases b with h | ⟨-, hcount, h⟩
  · rw [h]
    exact .refl s
  · rw [h]
    exact (s.keepsTables_emptyBank b fun _ => (s.bank b).count_opened_eq_zero.1 hcount).trans (State.keepsTables_report _ _)

theorem State.bank_settleBank_other : (s.settleBank b).bank b.other = s.bank b.other := by
  rcases s.settleBank_cases b with h | ⟨-, -, h⟩
  · rw [h]
  · rw [h, State.report_bank, State.bank_emptyBank, if_neg b.other_ne]

/-- A settled bank meets the law of R118. -/
theorem State.retiring_settleBank (h : ((s.settleBank b).bank b).state = .retiring) :
    0 < ((s.settleBank b).bank b).count .opened := by
  unfold State.settleBank at h ⊢
  split at h
  · rw [State.report_bank, State.bank_emptyBank, if_pos rfl] at h
    cases h
  · rename_i hcond
    rw [if_neg hcond]
    exact Nat.pos_of_ne_zero fun hzero => hcond ⟨h, hzero⟩

/-- A bank that is not RETIRING is not touched by its settling. -/
theorem State.settleBank_of_not_retiring (h : (s.bank b).state ≠ .retiring) : s.settleBank b = s := by
  unfold State.settleBank
  rw [if_neg fun hcond => h hcond.1]

/-- A move of one bank that ends in its settling keeps the laws, whatever it has done to the law of R118 before. -/
theorem State.keepsTables_settled {t : State} (hrecords : s.KeepsRecords t) (hmoves : State.BankMoves b s t) :
    s.KeepsTables (t.settleBank b) :=
  ⟨hrecords.trans (t.keepsTables_settleBank b).records, hmoves.keepsOpen.trans (t.keepsTables_settleBank b).opened,
    State.retiringLawful_of_bank (b := b) ((t.bank_settleBank_other b).trans hmoves.other) (t.retiring_settleBank b)⟩

/-! ## Closing an entry -/

@[simp] theorem State.setEntry_bank_same (r : EntryRef) (e : Entry) :
    (s.setEntry r e).bank r.bank = { s.bank r.bank with entries := (s.bank r.bank).entries.set r.index e } :=
  s.bank_setBank_same r.bank _

@[simp] theorem State.setEntry_bank_other (r : EntryRef) (e : Entry) : (s.setEntry r e).bank r.bank.other = s.bank r.bank.other :=
  s.bank_setBank_other r.bank _

@[simp] theorem State.setEntry_openList (r : EntryRef) (e : Entry) : (s.setEntry r e).openList = s.openList :=
  s.setBank_openList r.bank _

theorem State.keepsRecords_setEntry (r : EntryRef) (e : Entry) (l : List EntryRef) :
    s.KeepsRecords ((s.setEntry r e).setOpenList l) :=
  .of_eq (s.setBank_windows r.bank _) (s.setBank_elements r.bank _)

/-- The state in which an entry has its final status and has left the open list, its bank not yet settled. -/
def State.entryClosed (s : State) (r : EntryRef) (e : Entry) : State :=
  (s.setEntry r e).setOpenList (s.openList.filter fun x => x != r)

theorem State.closeEntry_eq {r : EntryRef} {e : Entry} (h : s.entry r = some e) (status : EntryStatus) (dated : Dated)
    (ageLimit clamped : Bool) (result : Option MatchResult) :
    s.closeEntry r status dated ageLimit clamped result =
      ((s.entryClosed r { e with status := status, closing := some dated, result := result }).offer
        ⟨s.levelOf .timetable, dated, ageLimit, clamped, .timetableResult r.bank r.index e.reference status result⟩).settleBank
          r.bank := by
  unfold State.closeEntry
  rw [h]
  rfl

theorem State.bankMoves_entryClosed {r : EntryRef} {e e' : Entry} (h : s.entry r = some e) (hstatus : e'.status ≠ .opened) :
    State.BankMoves r.bank s (s.entryClosed r e') := by
  obtain ⟨b, i⟩ := r
  have hself : (s.entryClosed ⟨b, i⟩ e').bank b = { s.bank b with entries := (s.bank b).entries.set i e' } := by
    rw [State.entryClosed, State.setOpenList_bank]
    exact s.setEntry_bank_same ⟨b, i⟩ e'
  have hcount (c : BankId) (j : Nat) : (s.entryClosed ⟨b, i⟩ e').openList.count ⟨c, j⟩ =
      if (⟨c, j⟩ : EntryRef) = ⟨b, i⟩ then 0 else s.openList.count ⟨c, j⟩ := by
    show (s.openList.filter fun x => x != ⟨b, i⟩).count _ = _
    split
    · rename_i heq
      rw [heq]
      exact List.count_eq_zero.2 fun hmem => by simpa using (List.mem_filter.1 hmem).2
    · rename_i hne
      exact List.count_filter (by simpa using hne)
  have hother : (s.entryClosed ⟨b, i⟩ e').bank b.other = s.bank b.other := by
    rw [State.entryClosed, State.setOpenList_bank]
    exact s.setEntry_bank_other ⟨b, i⟩ e'
  refine ⟨hother, fun j => ?_, ?_, ?_, fun hs => ⟨fun j => ?_, ?_⟩⟩
  · rw [hcount, if_neg fun heq => b.other_ne (congrArg EntryRef.bank heq)]
  · rw [hself]
    exact .inl
  · rw [hself]
    exact .inl
  · rw [hcount, hself, Bank.openAt_set h, if_neg hstatus, hs.listed]
    simp
  · rw [hself]
    intro h1 h2 j
    rw [Bank.openAt_set h, if_neg hstatus, hs.running h1 h2]
    split <;> rfl

theorem State.BankMoves.offer {b : BankId} {s t : State} (h : State.BankMoves b s t) (o : Offer) : State.BankMoves b s (t.offer o) := by
  obtain ⟨hother, hlisted, harmed, hactive, hopened⟩ := h
  refine ⟨by simpa using hother, hlisted, by simpa using harmed, by simpa using hactive, fun hs => ?_⟩
  obtain ⟨hl, hr⟩ := hopened hs
  exact ⟨by simpa using hl, by simpa using hr⟩

theorem State.keepsTables_closeEntry (r : EntryRef) {status : EntryStatus} (hstatus : status ≠ .opened) (dated : Dated)
    (ageLimit clamped : Bool) (result : Option MatchResult) :
    s.KeepsTables (s.closeEntry r status dated ageLimit clamped result) := by
  cases h : s.entry r with
  | none =>
    unfold State.closeEntry
    rw [h]
    exact .refl s
  | some e =>
    rw [s.closeEntry_eq h]
    exact State.keepsTables_settled _ _ ((s.keepsRecords_setEntry r _ _).trans (State.keepsTables_offer _ _).records)
      ((s.bankMoves_entryClosed h hstatus).offer _)

theorem State.keepsTables_closeOwn (r : EntryRef) {status : EntryStatus} (hstatus : status ≠ .opened) :
    s.KeepsTables (s.closeOwn r status) :=
  s.keepsTables_closeEntry r hstatus _ _ _ _

/-- The closing of an entry leaves a bank that is ACTIVE as it is, but for the entry. -/
theorem State.closeOwn_bank_active (r : EntryRef) (status : EntryStatus) (h : (s.bank r.bank).state = .active) :
    ((s.closeOwn r status).bank r.bank).state = .active := by
  unfold State.closeOwn
  cases he : s.entry r with
  | none =>
    unfold State.closeEntry
    rw [he]
    exact h
  | some e =>
    have hbank (e' : Entry) (o : Offer) : (((s.entryClosed r e').offer o).bank r.bank).state = .active := by
      simpa [State.entryClosed] using h
    rw [s.closeEntry_eq he, State.settleBank_of_not_retiring _ _ (by rw [hbank]; decide), hbank]

/-! ## Opening an entry -/

theorem State.insertRef_perm (r : EntryRef) (l : List EntryRef) : (s.insertRef r l).Perm (r :: l) := by
  induction l with
  | nil => exact .refl _
  | cons x l ih =>
    unfold State.insertRef
    split
    · exact .refl _
    · exact (ih.cons x).trans (.swap r x l)

/-- The state in which an entry is OPEN and stands in the open list (R122). -/
def State.entryOpened (s : State) (r : EntryRef) (e : Entry) : State :=
  let s1 := s.setEntry r { e with status := .opened }
  s1.setOpenList (s1.insertRef r s1.openList)

theorem State.bankMoves_entryOpened {r : EntryRef} {e : Entry} (h : s.entry r = some e) (hstatus : e.status ≠ .opened)
    (hactive : (s.bank r.bank).state = .active) : State.BankMoves r.bank s (s.entryOpened r e) := by
  obtain ⟨b, i⟩ := r
  have hself : (s.entryOpened ⟨b, i⟩ e).bank b =
      { s.bank b with entries := (s.bank b).entries.set i { e with status := .opened } } := by
    rw [State.entryOpened, State.setOpenList_bank]
    exact s.setEntry_bank_same ⟨b, i⟩ _
  have hother : (s.entryOpened ⟨b, i⟩ e).bank b.other = s.bank b.other := by
    rw [State.entryOpened, State.setOpenList_bank]
    exact s.setEntry_bank_other ⟨b, i⟩ _
  have hcount (c : BankId) (j : Nat) : (s.entryOpened ⟨b, i⟩ e).openList.count ⟨c, j⟩ =
      s.openList.count ⟨c, j⟩ + if (⟨c, j⟩ : EntryRef) = ⟨b, i⟩ then 1 else 0 := by
    have hlist : (s.entryOpened ⟨b, i⟩ e).openList.Perm (⟨b, i⟩ :: s.openList) := by
      rw [← s.setEntry_openList ⟨b, i⟩ { e with status := .opened }]
      exact State.insertRef_perm _ _ _
    rw [hlist.count_eq, List.count_cons]
    by_cases heq : (⟨c, j⟩ : EntryRef) = ⟨b, i⟩
    · simp [heq]
    · rw [if_neg heq, if_neg fun hbeq => heq (eq_of_beq hbeq).symm]
  refine ⟨hother, fun j => ?_, ?_, ?_, fun hs => ⟨fun j => ?_, ?_⟩⟩
  · rw [hcount, if_neg fun heq => b.other_ne (congrArg EntryRef.bank heq)]
    rfl
  · rw [hself]
    exact .inl
  · rw [hself]
    exact .inl
  · rw [hcount, hself, Bank.openAt_set h, hs.listed]
    by_cases hj : j = i
    · subst hj
      rw [Bank.openAt_of_entry h, if_neg hstatus]
      simp
    · simp [hj]
  · rw [hself]
    exact fun h1 => absurd hactive h1

theorem State.openEntry_eq (r : EntryRef) (e : Entry) :
    s.openEntry r e = if s.openList.length < 256 then s.entryOpened r e else s.closeOwn r .openListFull := rfl

theorem State.entryOpened_state (r : EntryRef) (e : Entry) : ((s.entryOpened r e).bank r.bank).state = (s.bank r.bank).state := by
  rw [State.entryOpened, State.setOpenList_bank, State.setEntry_bank_same]

theorem State.keepsTables_openEntry {r : EntryRef} {e : Entry} (h : s.entry r = some e) (hstatus : e.status ≠ .opened)
    (hactive : (s.bank r.bank).state = .active) : s.KeepsTables (s.openEntry r e) := by
  rw [State.openEntry_eq]
  split
  · have hmoves := s.bankMoves_entryOpened h hstatus hactive
    refine ⟨s.keepsRecords_setEntry r _ _, hmoves.keepsOpen, State.retiringLawful_of_bank hmoves.other fun hretiring => ?_⟩
    rw [State.entryOpened_state, hactive] at hretiring
    cases hretiring
  · exact s.keepsTables_closeOwn r (by decide)

theorem State.openEntry_bank_active (r : EntryRef) (e : Entry) (h : (s.bank r.bank).state = .active) :
    ((s.openEntry r e).bank r.bank).state = .active := by
  rw [State.openEntry_eq]
  split
  · rw [State.entryOpened_state, h]
  · exact s.closeOwn_bank_active r _ h

/-! ## The walk (R116, R119 to R122) -/

/-- The walk past an entry changes the next-to-open position only. -/
theorem State.keepsTables_setBank {b : BankId} {x : Bank} (hmoves : State.BankMoves b s (s.setBank b x))
    (hretiring : s.retiringLawful → x.state = .retiring → 0 < x.count .opened) : s.KeepsTables (s.setBank b x) := by
  refine ⟨s.keepsRecords_setBank b x, hmoves.keepsOpen, fun hs => ?_⟩
  refine State.retiringLawful_of_bank (b := b) (by simp) ?_ hs
  rw [State.bank_setBank_same]
  exact hretiring hs

theorem State.keepsTables_pass (b : BankId) (n : Nat) : s.KeepsTables (s.setBank b { s.bank b with nextToOpen := n }) :=
  s.keepsTables_setBank (s.bankMoves_setBank b rfl .inl .inl fun h1 h2 => ⟨h1, h2⟩) fun hs h => hs b h

theorem State.keepsTables_advance (b : BankId) {passed : EntryStatus} (hpassed : passed ≠ .opened) (n : Nat) (w : Walked)
    (hactive : (w.state.bank b).state = .active) : w.state.KeepsTables (State.advance b passed n w).state := by
  induction n generalizing w with
  | zero => exact .refl _
  | succ n ih =>
    unfold State.advance
    dsimp only
    split
    · exact .refl _
    · rename_i e he
      have hpass := w.state.keepsTables_pass b ((w.state.bank b).nextToOpen + 1)
      have hbank : ((w.state.setBank b { w.state.bank b with nextToOpen := (w.state.bank b).nextToOpen + 1 }).bank b).state =
          .active := by
        rw [State.bank_setBank_same]
        exact hactive
      have hentry : (w.state.setBank b { w.state.bank b with nextToOpen := (w.state.bank b).nextToOpen + 1 }).entry
          ⟨b, (w.state.bank b).nextToOpen⟩ = some e := by
        rw [State.entry, State.bank_setBank_same]
        exact he
      split
      · exact .refl _
      · split
        · exact hpass.trans (ih ⟨_, _, _⟩ hbank)
        · rename_i hpending
          split
          · exact (hpass.trans (State.keepsTables_closeOwn _ _ hpassed)).trans
              (ih ⟨_, _, _⟩ (State.closeOwn_bank_active _ ⟨b, _⟩ _ hbank))
          · have hstatus : e.status ≠ .opened := fun hopened => hpending (by rw [hopened]; decide)
            exact (hpass.trans (State.keepsTables_openEntry _ hentry hstatus hbank)).trans
              (ih ⟨_, _, _⟩ (State.openEntry_bank_active _ ⟨b, _⟩ e hbank))

theorem State.keepsTables_walkActive (b : BankId) : s.KeepsTables (s.walkActive b) := by
  unfold State.walkActive
  split
  · rename_i h
    exact State.keepsTables_advance b (by decide) _ ⟨s, 0, 0⟩ h
  · exact .refl s

theorem State.keepsTables_closePassed (n : Nat) : s.KeepsTables (State.closePassed n s) := by
  induction n generalizing s with
  | zero => exact .refl s
  | succ n ih =>
    unfold State.closePassed
    split
    · exact .refl s
    · split
      · exact .refl s
      · split
        · exact (s.keepsTables_closeOwn _ (by decide)).trans (ih _)
        · exact .refl s

/-! ## Activation and retirement (R115 to R118) -/

/-- A bank as it retires: its PENDING entries close NOT OPENED (R117). -/
def Bank.retired (x : Bank) (now : Dated) : Bank :=
  { x with
    state := .retiring
    entries := x.entries.map fun e => if e.status = .pending then { e with status := .notOpened, closing := some now } else e
    nextToOpen := x.entries.length }

theorem State.retire_eq (b : BankId) :
    s.retire b = ((s.setBank b ((s.bank b).retired s.tb.now)).report
      (.bank b .retired ((s.bank b).count .pending) ((s.bank b).count .opened))).settleBank b := rfl

theorem State.bankMoves_retired (b : BankId) : State.BankMoves b s (s.setBank b ((s.bank b).retired s.tb.now)) := by
  have hopen : ((s.bank b).retired s.tb.now).openAt = (s.bank b).openAt := by
    funext i
    refine Bank.openAt_map (fun e => ?_) _ rfl i
    by_cases h : e.status = .pending <;> simp [h]
  refine ⟨by simp, fun i => by simp, ?_, ?_, fun hs => ⟨fun i => ?_, ?_⟩⟩
  · rw [State.bank_setBank_same]
    exact nofun
  · rw [State.bank_setBank_same]
    exact nofun
  · rw [State.bank_setBank_same, hopen]
    simpa using hs.listed i
  · rw [State.bank_setBank_same]
    exact fun _ h2 => absurd rfl h2

theorem State.keepsTables_retire (b : BankId) : s.KeepsTables (s.retire b) := by
  rw [State.retire_eq]
  exact State.keepsTables_settled _ _ (.of_eq (by simp) (by simp)) ((s.bankMoves_retired b).offer _)

/-- A bank that has retired is RETIRING or EMPTY (R117, R118). -/
theorem State.retire_not_active (b : BankId) : ((s.retire b).bank b).state ≠ .active := by
  rw [State.retire_eq]
  rcases State.settleBank_cases ((s.setBank b ((s.bank b).retired s.tb.now)).report
    (.bank b .retired ((s.bank b).count .pending) ((s.bank b).count .opened))) b with h | ⟨-, -, h⟩
  · rw [h, State.report_bank, State.bank_setBank_same]
    exact nofun
  · rw [h, State.report_bank, State.bank_emptyBank, if_pos rfl]
    exact nofun

/-- The other bank, retired when it was ACTIVE, is not ACTIVE beside the one that activates (R116). -/
theorem State.keepsTables_activate (b : BankId) : s.KeepsTables (s.activate b) := by
  unfold State.activate
  dsimp only
  have hother : ∃ t, t = (if (s.bank b.other).state = .active then s.retire b.other else s) ∧ s.KeepsTables t ∧
      (t.bank b.other).state ≠ .active := by
    refine ⟨_, rfl, ?_⟩
    split
    · exact ⟨s.keepsTables_retire b.other, s.retire_not_active b.other⟩
    · rename_i h
      exact ⟨.refl s, h⟩
  obtain ⟨t, ht, hkeeps, hnot⟩ := hother
  rw [← ht]
  obtain ⟨x, hx⟩ : ∃ x : Bank, x = { t.bank b with state := .active, order := some ((t.bank b.other).order.getD 0 + 1) } := ⟨_, rfl⟩
  have hset : t.KeepsTables (t.setBank b x) := by
    rw [hx]
    exact t.keepsTables_setBank (t.bankMoves_setBank b rfl nofun (fun _ => .inr hnot) fun h => absurd rfl h) fun _ => nofun
  have hactive : ((t.setBank b x).bank b).state = .active := by rw [State.bank_setBank_same, hx]
  rw [← hx]
  exact ((hkeeps.trans hset).trans (State.keepsTables_advance b (by decide) _ ⟨_, 0, 0⟩ hactive)).trans
    (State.keepsTables_report _ _)

theorem State.keepsTables_judgeActivation (b : BankId) : s.KeepsTables (s.judgeActivation b) := by
  unfold State.judgeActivation
  split
  · exact s.keepsTables_activate b
  · exact .refl s

theorem State.keepsTables_judgeEnd (b : BankId) : s.KeepsTables (s.judgeEnd b) := by
  unfold State.judgeEnd
  split
  · exact s.keepsTables_retire b
  · exact .refl s

theorem State.keepsTables_walk : s.KeepsTables s.walk := by
  have hactivate := State.KeepsTables.foldl (fun s b => s.keepsTables_judgeActivation b) bankIds s
  have hwalk := State.KeepsTables.foldl (fun s b => s.keepsTables_walkActive b) bankIds (bankIds.foldl State.judgeActivation s)
  have hclose := State.keepsTables_closePassed (bankIds.foldl State.walkActive (bankIds.foldl State.judgeActivation s))
    (bankIds.foldl State.walkActive (bankIds.foldl State.judgeActivation s)).openList.length
  exact ((hactivate.trans hwalk).trans hclose).trans
    (State.KeepsTables.foldl (fun s b => s.keepsTables_judgeEnd b) bankIds _)

theorem State.keepsTables_clearing (c : Change) : s.KeepsTables (s.clearing c) := by
  unfold State.clearing
  split
  · split
    · split
      · exact s.keepsTables_closeEntry _ (by decide) _ _ _ _
      · exact .refl s
    · exact s.keepsTables_offer _
  · exact .refl s

end Sys2Proof.Machine
end

