-- ==== Sys2Proof/Proofs/Tracker.lean ====
section
/-! PROOFS. Sys2Proof/Proofs/Tracker.lean: how a telegram reaches its record, and what the acceptance of a candidate and a command make of
the record, of the journal, and of the supervisor and the checker behind it (R29, R33 to R37). -/

namespace Sys2Proof.Machine

variable (s : State)

/-! ## The record that a telegram reaches (R29) -/

theorem State.reach_element {p : PortId} {a i : Nat} {e : Element} (h : s.reach p a = some (i, e)) : s.element i = some e := by
  unfold State.reach at h
  split at h
  · obtain ⟨e', he', heq⟩ := Option.map_eq_some_iff.1 h
    cases heq
    exact he'
  · cases h

theorem State.reach_present {p : PortId} {a i : Nat} {e : Element} (ha : s.decodeAddress p a = some i) (he : s.element i = some e) :
    s.reach p a = some (i, e) := by
  simp [State.reach, ha, he]

theorem State.reach_unmapped {p : PortId} {a : Nat}
    (h : s.decodeAddress p a = none ∨ ∃ i, s.decodeAddress p a = some i ∧ s.element i = none) : s.reach p a = none := by
  rcases h with h | ⟨i, h, he⟩
  · simp [State.reach, h]
  · simp [State.reach, h, he]

theorem State.trackReport_present {p : PortId} {a i : Nat} {e : Element} (ha : s.decodeAddress p a = some i)
    (he : s.element i = some e) (r : Report) : s.trackReport p a r = s.takeReport p i e r := by
  rw [State.trackReport, s.reach_present ha he]

theorem State.trackReport_unmapped {p : PortId} {a : Nat}
    (h : s.decodeAddress p a = none ∨ ∃ i, s.decodeAddress p a = some i ∧ s.element i = none) (r : Report) :
    s.trackReport p a r = s.countUnmapped p .up := by
  rw [State.trackReport, s.reach_unmapped h]

theorem State.trackCommand_present {p : PortId} {a i : Nat} {e : Element} (ha : s.decodeAddress p a = some i)
    (he : s.element i = some e) (code : Nat) (c : Capture) : s.trackCommand p a code c = s.takeCommand i e code c := by
  rw [State.trackCommand, s.reach_present ha he]

theorem State.trackCommand_unmapped {p : PortId} {a : Nat}
    (h : s.decodeAddress p a = none ∨ ∃ i, s.decodeAddress p a = some i ∧ s.element i = none) (code : Nat) (c : Capture) :
    s.trackCommand p a code c = s.countUnmapped p .down := by
  rw [State.trackCommand, s.reach_unmapped h]

/-! ## Acceptance (R34 to R36) -/

/-- The record after the acceptance of a candidate by a port's present latency (R34). -/
def State.acceptedRecord (s : State) (p : PortId) (i : Nat) (e : Element) (k : Candidate) : Element :=
  (acceptCandidate s.tb.recentLeap (s.port p).latency i e k).1

/-- The change that this acceptance hands on (R36). -/
def State.acceptedChange (s : State) (p : PortId) (i : Nat) (e : Element) (k : Candidate) : Change :=
  (acceptCandidate s.tb.recentLeap (s.port p).latency i e k).2

/-- The state with the accepted record stored and its STATE CHANGE offered where the selection names it (R35). -/
def State.storeChange (s : State) (i : Nat) (e : Element) (c : Change) (undef : Bool) : State :=
  if selects e c.old c.new then
    (s.setElement i e).offer (c.offer ((s.setElement i e).elementLevel e .state) (stateChange c undef))
  else s.setElement i e

theorem State.accept_eq (p : PortId) (i : Nat) (e : Element) (k : Candidate) :
    s.accept p i e k =
      (let e' := s.acceptedRecord p i e k
      let c := s.acceptedChange p i e k
      let t := (s.storeChange i e' c k.undefinedCode).superviseChange e' c
      if isClearing e' c then t.clearing c else t) := rfl

@[simp] theorem State.element_storeChange (i : Nat) (e : Element) (c : Change) (undef : Bool) :
    (s.storeChange i e c undef).element i = some e := by
  unfold State.storeChange
  split <;> simp

/-- One record has come of another by the supervisor: its supervision and its statistics have moved, nothing else (R85, R106). -/
def Element.moves (e' e : Element) : Prop := e' = { e with sup := e'.sup, stats := e'.stats }

theorem pointChangeIdle_moves (e : Element) (c : Change) : (pointChangeIdle e c).element.moves e := by
  unfold pointChangeIdle
  split
  · rfl
  · split
    · rfl
    · split
      · split
        · rfl
        · split <;> rfl
      · rfl

theorem pointChange_moves (level : Nat) (e : Element) (c : Change) : (pointChange level e c).element.moves e := by
  unfold pointChange
  cases e.sup with
  | idle => exact pointChangeIdle_moves e c
  | ordered t command d => rfl
  | uncommanded held =>
    dsimp only
    split
    · rfl
    · split <;> rfl
  | _ =>
    dsimp only
    split
    · rfl
    · split
      · rfl
      · split <;> rfl

theorem signalMiss_moves (level : Nat) (e : Element) (c : Change) (target : Nat) :
    (signalMiss level e c target).element.moves e := by
  unfold signalMiss
  split
  · rfl
  · split <;> rfl

theorem signalChange_moves (level : Nat) (e : Element) (c : Change) : (signalChange level e c).element.moves e := by
  unfold signalChange
  cases e.sup with
  | commanded t command d => rfl
  | travelling t command d => rfl
  | uncommanded held => rfl
  | idle =>
    dsimp only
    split
    · rfl
    · split <;> rfl
  | _ =>
    dsimp only
    split
    · rfl
    · exact signalMiss_moves level e c _

/-- A stored record that the supervisor and the checker have seen keeps all but its supervision, its statistics and its references. -/
theorem State.element_superviseChange {i : Nat} {e : Element} {c : Change} (h : s.element i = some e) (hi : c.element = i) :
    ∃ e', (s.superviseChange e c).element i = some e' ∧ e'.moves e := by
  have happly (r : Supervised) (hr : r.element.moves e) :
      ∃ e', (s.applySupervised c.element r).element i = some e' ∧ e'.moves e :=
    ⟨r.element, by rw [State.applySupervised_eq, State.setJournal_element, hi, State.element_setElement_same], hr⟩
  unfold State.superviseChange
  cases e.loaded.kind with
  | point => exact happly _ (pointChange_moves _ e c)
  | signal => exact happly _ (signalChange_moves _ e c)
  | other => exact ⟨e, h, rfl⟩

/-! ## Commands (R37) -/

/-- A record that a command has reached (R37). -/
def Element.commanded (e : Element) (code : Nat) : Element :=
  { e with undefinedSeen := e.undefinedSeen || !inCommandSet e.loaded.kind code, lastCommand := some code }

/-- The state with the commanded record stored and its COMMAND SEEN offered where the record dates commands (R37). -/
def State.storeCommand (s : State) (i : Nat) (e : Element) (code : Nat) (c : Capture) : State :=
  if e.loaded.dateCommands && e.lastCommand != some code then
    (s.setElement i (e.commanded code)).offer (c.offer ((s.setElement i (e.commanded code)).elementLevel (e.commanded code) .state)
      (.commandSeen i code e.stale !inCommandSet e.loaded.kind code))
  else s.setElement i (e.commanded code)

theorem State.takeCommand_eq (i : Nat) (e : Element) (code : Nat) (c : Capture) :
    s.takeCommand i e code c =
      (let t := s.storeCommand i e code c
      let level := t.elementLevel (e.commanded code) .movement
      if inCommandSet e.loaded.kind code && !e.stale then
        match e.loaded.kind with
        | .point => t.applySupervised i (pointCommand i level (e.commanded code) code c)
        | .signal => t.applySupervised i (signalCommand i level (e.commanded code) code c)
        | .other => t
      else t) := rfl

section Supervised

variable {i code : Nat} {e : Element} {c : Capture}

/-- A command to a stale record, outside the command set or to an OTHER record ends with the record (R37). -/
theorem State.takeCommand_unsupervised
    (h : e.stale = true ∨ inCommandSet e.loaded.kind code = false ∨ e.loaded.kind = .other) :
    s.takeCommand i e code c = s.storeCommand i e code c := by
  rw [State.takeCommand_eq]
  dsimp only
  split
  · rename_i hcond
    rw [Bool.and_eq_true, Bool.not_eq_true'] at hcond
    rcases h with h | h | h
    · rw [h] at hcond
      exact absurd hcond.2 (by decide)
    · rw [h] at hcond
      exact absurd hcond.1 (by decide)
    · rw [h]
  · rfl

variable (hfresh : e.stale = false) (hknown : inCommandSet e.loaded.kind code = true)

include hfresh hknown

theorem State.takeCommand_point (hkind : e.loaded.kind = .point) :
    s.takeCommand i e code c = (s.storeCommand i e code c).applySupervised i
      (pointCommand i ((s.storeCommand i e code c).elementLevel (e.commanded code) .movement) (e.commanded code) code c) := by
  rw [State.takeCommand_eq]
  dsimp only
  rw [if_pos (by rw [hknown, hfresh]; rfl), hkind]

theorem State.takeCommand_signal (hkind : e.loaded.kind = .signal) :
    s.takeCommand i e code c = (s.storeCommand i e code c).applySupervised i
      (signalCommand i ((s.storeCommand i e code c).elementLevel (e.commanded code) .movement) (e.commanded code) code c) := by
  rw [State.takeCommand_eq]
  dsimp only
  rw [if_pos (by rw [hknown, hfresh]; rfl), hkind]

end Supervised

@[simp] theorem State.element_storeCommand (i : Nat) (e : Element) (code : Nat) (c : Capture) :
    (s.storeCommand i e code c).element i = some (e.commanded code) := by
  unfold State.storeCommand
  split <;> simp

end Sys2Proof.Machine
end

