-- ==== Sys2Proof/Proofs/TableLawsOfEvents.lean ====
section
/-! PROOFS. Sys2Proof/Proofs/TableLawsOfEvents.lean: second boundaries, the passage of time, pulses, the element tracker and the reception
of frames keep the laws of O57. -/

namespace Sys2Proof.Machine

variable (s : State)

/-! ## Blocks that hold none of the tables -/

theorem State.keepsTables_setTb (tb : Timebase) : s.KeepsTables (s.setTb tb) := .of_tables rfl

theorem State.keepsTables_setPort (p : PortId) (x : Port) : s.KeepsTables (s.setPort p x) := .of_tables rfl

theorem State.keepsTables_setCondition (p : PortId) (d : Direction) (c : LinkCondition) (raised : Bool) :
    s.KeepsTables (s.setCondition p d c raised) := .of_tables rfl

theorem State.LinesOnly.keepsTables {s t : State} (h : s.LinesOnly t) : s.KeepsTables t := by
  rw [h.eq]
  exact .of_tables rfl

theorem State.PortsOnly.keepsTables {s t : State} (h : s.PortsOnly t) : s.KeepsTables t := by
  rw [h.eq]
  exact .of_tables rfl

/-- Whatever the step of a line, its records reach the journal alone. -/
theorem State.keepsTables_applyLine (l : LineId) (r : LineStep) : s.KeepsTables (s.applyLine l r) := by
  obtain ⟨j, hj⟩ := (s.setLine l r.line).reportAll_journal (r.notes.map fun n => .clockLine l n.event n.fault n.position)
  rw [State.applyLine, hj]
  exact .of_tables rfl

/-! ## Boundaries, steps and the passage of time -/

theorem State.keepsTables_carry : s.KeepsTables s.carry := by
  rw [s.carry_only]
  exact .of_tables rfl

theorem State.keepsTables_latchAt (sec : Nat) : s.KeepsTables (s.latchAt sec) := by
  rw [s.latchAt_only]
  exact .of_tables rfl

theorem State.keepsTables_handToLines (o : BoundaryOrder) : s.KeepsTables (s.handToLines o) := by
  obtain ⟨offset, scheduled, h⟩ := s.handToLines_only o
  exact (s.keepsTables_setTb _).trans h.keepsTables

theorem State.keepsTables_changeOffset (new : Int) : s.KeepsTables (s.changeOffset new) :=
  (s.keepsTables_setTb _).trans (s.changeOffset_linesOnly new).1.keepsTables

theorem State.keepsTables_judgeOffset : s.KeepsTables s.judgeOffset := by
  cases h : s.tb.offsetDue with
  | none =>
    unfold State.judgeOffset
    rw [h]
    exact .refl s
  | some new => exact (s.keepsTables_setTb _).trans (s.judgeOffset_some h).1.keepsTables

theorem State.keepsTables_boundary (o : BoundaryOrder) : s.KeepsTables (s.boundary o) :=
  (((s.keepsTables_carry.trans (State.endSeconds_only _).keepsTables).trans (State.keepsTables_latchAt _ _)).trans
    (State.keepsTables_walk _)).trans (State.keepsTables_handToLines _ o)

theorem State.keepsTables_boundaryOrder : s.KeepsTables s.boundaryOrder.2 := by
  unfold State.boundaryOrder
  split <;> exact .of_tables rfl

theorem State.keepsTables_stepEvent : s.KeepsTables s.stepEvent :=
  ((s.keepsTables_boundaryOrder.trans (State.endSeconds_only _).keepsTables).trans (State.keepsTables_walk _)).trans
    (State.keepsTables_handToLines _ _)

theorem State.keepsTables_toBoundary (o : BoundaryOrder) : s.KeepsTables (s.toBoundary o) := by
  unfold State.toBoundary
  split
  · exact s.keepsTables_boundary o
  · exact (s.keepsTables_setTb _).trans (State.keepsTables_boundary _ o)

theorem State.keepsTables_passTo (n t : Nat) : s.KeepsTables (State.passTo n t s) := by
  induction n generalizing s with
  | zero => exact .refl s
  | succ n ih =>
    unfold State.passTo
    split
    · exact .refl s
    · split
      · exact (s.keepsTables_boundaryOrder.trans (State.keepsTables_boundary _ _)).trans (ih _)
      · exact (s.keepsTables_setTb _).trans (ih _)

theorem State.keepsTables_await (t : Option Nat) : s.KeepsTables (s.await t) := by
  cases t with
  | none => exact .refl s
  | some t => exact s.keepsTables_passTo _ t

/-! ## Pulses, misses and the holdover limit -/

theorem State.keepsTables_moveTime (l : Label) (event : TimebaseEvent) : s.KeepsTables (s.moveTime l event) := by
  refine State.KeepsTables.trans (.of_tables ?_) (State.keepsTables_stepEvent _)
  rw [State.report]
  unfold State.leapAfterMove
  split
  · rfl
  · split
    · rfl
    · split <;> rfl

theorem State.keepsTables_armLeap (label : Option Label) : s.KeepsTables (s.armLeap label) := by
  refine .of_tables ?_
  unfold State.armLeap
  cases label with
  | none => rfl
  | some l =>
    dsimp only
    cases l.announcement with
    | none => rfl
    | insert => dsimp only; split <;> rfl
    | delete => dsimp only; split <;> rfl

theorem State.keepsTables_pulseInFree (label : Option Label) : s.KeepsTables (s.pulseInFree label) := by
  cases label with
  | none => exact .refl s
  | some l => exact (s.keepsTables_setTb _).trans (State.keepsTables_moveTime _ l .set)

theorem State.keepsTables_pulseTests (tb : Timebase) (e : Int) : s.KeepsTables (s.pulseTests tb e) := by
  refine .of_tables ?_
  unfold State.pulseTests
  cases tb.loop with
  | free => rfl
  | acquiring => dsimp only; unfold State.judgeLock; split <;> rfl
  | locked => dsimp only; unfold State.judgeLockLost; split <;> rfl
  | holdover =>
    dsimp only
    unfold State.judgeReturn
    split
    · split <;> rfl
    · rfl

theorem State.keepsTables_pulseInLoop (label : Option Label) (e : Int) : s.KeepsTables (s.pulseInLoop label e) := by
  unfold State.pulseInLoop
  cases label with
  | none => exact s.keepsTables_pulseTests _ e
  | some l =>
    dsimp only
    split
    · exact (s.keepsTables_setTb _).trans (State.keepsTables_moveTime _ l .step)
    · exact s.keepsTables_pulseTests _ e

theorem State.keepsTables_pulse : s.KeepsTables s.pulse := by
  unfold State.pulse
  dsimp only
  split
  · have harm := (s.keepsTables_setTb s.tb.takePulse).trans (State.keepsTables_armLeap _ s.tb.label)
    split
    · exact harm.trans (State.keepsTables_pulseInFree _ _)
    · exact harm.trans (State.keepsTables_pulseInLoop _ _ _)
  · exact s.keepsTables_setTb _

theorem State.keepsTables_missNote : s.KeepsTables s.missNote := by
  refine .of_tables ?_
  unfold State.missNote
  dsimp only
  split
  · rfl
  · split
    · rfl
    · rfl
    · rfl
    · split <;> rfl

theorem State.keepsTables_judgeLimit : s.KeepsTables s.judgeLimit := by
  refine .of_tables ?_
  unfold State.judgeLimit
  split
  · split
    · rfl
    · split <;> rfl
  · rfl

/-! ## The movement supervisor (R38, R85) -/

theorem Element.staleLawful_of_fresh {e : Element} (h : e.stale = false) : e.staleLawful := by
  intro hstale
  rw [h] at hstale
  cases hstale

theorem startPoint_stale (e : Element) (code : Nat) (c : Capture) : (startPoint e code c).stale = e.stale := by
  unfold startPoint
  dsimp only
  split
  · rfl
  · split
    · rfl
    · split <;> rfl

theorem startSignal_stale (e : Element) (aspect : Nat) (c : Capture) : (startSignal e aspect c).stale = e.stale := by
  unfold startSignal
  split <;> rfl

theorem pointCommand_stale (i level : Nat) (e : Element) (code : Nat) (c : Capture) :
    (pointCommand i level e code c).element.stale = e.stale := by
  unfold pointCommand
  cases e.sup with
  | idle => exact startPoint_stale e code c
  | uncommanded held => exact startPoint_stale e code c
  | ordered t command d => rfl
  | _ =>
    dsimp only
    split
    · rfl
    · exact startPoint_stale e code c

theorem signalCommand_stale (i level : Nat) (e : Element) (aspect : Nat) (c : Capture) :
    (signalCommand i level e aspect c).element.stale = e.stale := by
  unfold signalCommand
  cases e.sup with
  | idle => exact startSignal_stale e aspect c
  | commanded t command d => rfl
  | travelling t command d => rfl
  | uncommanded held => rfl
  | _ =>
    dsimp only
    split
    · rfl
    · exact startSignal_stale e aspect c

/-- A deadline finds a supervision under way, and its record is not stale then (R38, R91, R98). -/
theorem expire_staleLawful (i level : Nat) (now : Dated) {e : Element} (h : e.staleLawful) :
    (expire i level now e).element.staleLawful := by
  have hactive (hsup : e.sup ≠ .idle) (outcome : MoveOutcome) (t : Nat) (c : Capture) :
      (failSupervision i level now e outcome t c).element.staleLawful := fun hstale => absurd (h hstale) hsup
  unfold expire
  cases hsup : e.sup with
  | commanded t c d => exact hactive (by rw [hsup]; exact nofun) _ t c
  | travelling t c d => exact hactive (by rw [hsup]; exact nofun) _ t c
  | ordered t c d => exact hactive (by rw [hsup]; exact nofun) _ t c
  | _ => exact h

theorem endSupervision_sup (i level : Nat) (now : Dated) (e : Element) (outcome : MoveOutcome) :
    (endSupervision i level now e outcome).element.sup = .idle := by
  unfold endSupervision
  cases hsup : e.sup with
  | idle => exact hsup
  | _ => rfl

/-! ## The element tracker -/

/-- A supervised record takes the place of the present one. -/
theorem State.keepsTables_supervise {i : Nat} {e : Element} (h : s.element i = some e) {r : Supervised}
    (hr : e.staleLawful → r.element.staleLawful) : s.KeepsTables (s.applySupervised i r) :=
  s.keepsTables_applySupervised (fun hw => lookup_lt hw h) fun hs => hr (hs i e h)

theorem State.keepsTables_superviseChange {e : Element} {c : Change} (h : s.element c.element = some e) (hfresh : e.stale = false) :
    s.KeepsTables (s.superviseChange e c) := by
  unfold State.superviseChange
  cases e.loaded.kind with
  | point => exact s.keepsTables_supervise h fun _ => 
    Element.staleLawful_of_fresh ((congrArg Element.stale (pointChange_moves _ e c)).trans hfresh)
  | signal => exact s.keepsTables_supervise h fun _ => 
    Element.staleLawful_of_fresh ((congrArg Element.stale (signalChange_moves _ e c)).trans hfresh)
  | other => exact .refl s

theorem State.keepsTables_storeChange {i : Nat} {e e' : Element} (h : s.element i = some e) (hfresh : e'.stale = false) (c : Change)
    (undef : Bool) : s.KeepsTables (s.storeChange i e' c undef) := by
  have hset := s.keepsTables_rewrite h (e' := e') fun _ => Element.staleLawful_of_fresh hfresh
  unfold State.storeChange
  split
  · exact hset.trans (State.keepsTables_offer _ _)
  · exact hset

/-- The record is stored fresh, and its change then reaches the supervisor and the checker (R34, R36). -/
theorem State.keepsTables_accept (p : PortId) {i : Nat} {e e' : Element} (h : s.element i = some e) (k : Candidate) :
    s.KeepsTables (s.accept p i e' k) := by
  rw [State.accept_eq]
  dsimp only
  have hsup := (s.keepsTables_storeChange (e' := s.acceptedRecord p i e' k) h rfl (s.acceptedChange p i e' k) k.undefinedCode).trans
    (State.keepsTables_superviseChange _ (c := s.acceptedChange p i e' k) (State.element_storeChange _ _ _ _ _) rfl)
  split
  · exact hsup.trans (State.keepsTables_clearing _ _)
  · exact hsup

theorem State.keepsTables_takeReport (p : PortId) {i : Nat} {e : Element} (h : s.element i = some e) (r : Report) :
    s.KeepsTables (s.takeReport p i e r) := by
  unfold State.takeReport
  dsimp only
  split
  · exact s.keepsTables_rewrite h fun _ => Element.staleLawful_of_fresh rfl
  · split
    · exact s.keepsTables_accept p h _
    · exact s.keepsTables_rewrite h fun hlaw => hlaw

theorem State.keepsTables_storeCommand {i : Nat} {e : Element} (h : s.element i = some e) (code : Nat) (c : Capture) :
    s.KeepsTables (s.storeCommand i e code c) := by
  have hset := s.keepsTables_rewrite h (e' := e.commanded code) id
  unfold State.storeCommand
  split
  · exact hset.trans (State.keepsTables_offer _ _)
  · exact hset

theorem State.keepsTables_takeCommand {i : Nat} {e : Element} (h : s.element i = some e) (code : Nat) (c : Capture) :
    s.KeepsTables (s.takeCommand i e code c) := by
  have hstore := s.keepsTables_storeCommand h code c
  have hstored := s.element_storeCommand i e code c
  rw [State.takeCommand_eq]
  dsimp only
  split
  · rename_i hcond
    have hfresh : (e.commanded code).stale = false := by
      simp only [Bool.and_eq_true, Bool.not_eq_true'] at hcond
      exact hcond.2
    cases e.loaded.kind with
    | point => exact hstore.trans (State.keepsTables_supervise _ hstored fun _ =>
        Element.staleLawful_of_fresh ((pointCommand_stale _ _ _ _ _).trans hfresh))
    | signal => exact hstore.trans (State.keepsTables_supervise _ hstored fun _ =>
        Element.staleLawful_of_fresh ((signalCommand_stale _ _ _ _ _).trans hfresh))
    | other => exact hstore
  · exact hstore

theorem State.keepsTables_trackReport (p : PortId) (a : Nat) (r : Report) : s.KeepsTables (s.trackReport p a r) := by
  unfold State.trackReport
  split
  · rename_i h
    exact s.keepsTables_takeReport p (s.reach_element h) r
  · exact s.keepsTables_setPort p _

theorem State.keepsTables_trackCommand (p : PortId) (a code : Nat) (c : Capture) : s.KeepsTables (s.trackCommand p a code c) := by
  unfold State.trackCommand
  split
  · rename_i h
    exact s.keepsTables_takeCommand (s.reach_element h) code c
  · exact s.keepsTables_setPort p _

theorem State.keepsTables_interpret (p : PortId) (d : Direction) (octets : List Byte) (c : Capture) :
    s.KeepsTables (s.interpret p d octets c) := by
  unfold State.interpret
  dsimp only
  split
  · exact s.keepsTables_trackCommand p _ _ c
  · exact s.keepsTables_setPort p _
  · exact s.keepsTables_setPort p _
  · exact s.keepsTables_trackReport p _ _
  · exact s.keepsTables_setPort p _
  · exact s.keepsTables_trackReport p _ _
  · exact .refl s

theorem State.keepsTables_markStale (i : Nat) : s.KeepsTables (s.markStale i) := by
  unfold State.markStale
  split
  · exact .refl s
  · rename_i e he
    exact s.keepsTables_supervise he fun _ _ => endSupervision_sup _ _ _ e _

theorem State.keepsTables_raiseSilent (p : PortId) (d : Direction) : s.KeepsTables (s.raiseSilent p d) := by
  unfold State.raiseSilent
  cases d with
  | down => exact s.keepsTables_setCondition p .down .silent true
  | up => exact (s.keepsTables_setCondition p .up .silent true).trans (.foldl (fun s i => s.keepsTables_markStale i) _ _)

theorem State.keepsTables_settleLife (p : PortId) (d : Direction) : s.KeepsTables (s.settleLife p d) := by
  unfold State.settleLife
  split
  · exact s.keepsTables_raiseSilent p d
  · exact .refl s

theorem State.keepsTables_expireRecord (i : Nat) : s.KeepsTables (s.expireRecord i) := by
  unfold State.expireRecord
  split
  · exact .refl s
  · rename_i e he
    exact s.keepsTables_supervise he (expire_staleLawful _ _ _)

/-! ## The reception of frames -/

theorem State.keepsTables_judgeClass (p : PortId) (d : Direction) (k : FrameClass) : s.KeepsTables (s.judgeClass p d k) := by
  cases k with
  | valid =>
    show s.KeepsTables (s.restartLife p d)
    rw [State.restartLife_eq]
    exact .of_tables rfl
  | checkFailure =>
    show s.KeepsTables (s.countCheckFailure p d)
    rw [State.countCheckFailure_eq]
    exact .of_tables rfl
  | _ => exact .refl s

theorem State.keepsTables_judgeRemoval (p : PortId) (d : Direction) (k : FrameClass) (o : Opening) :
    s.KeepsTables (s.judgeRemoval p d k o) := by
  refine .of_tables ?_
  unfold State.judgeRemoval State.takeRequest
  dsimp only
  split
  · split
    · split <;> rfl
    · rfl
  · split <;> rfl

theorem State.keepsTables_delimit (p : PortId) (d : Direction) (aborted : Bool) (o : Opening) :
    s.KeepsTables (s.delimit p d aborted o) := by
  rw [State.delimit_eq]
  dsimp only
  have hall := (((s.keepsTables_setPort p _).trans (State.keepsTables_judgeClass (s.endFrame p d aborted o) p d
    (classify aborted o.content)))).trans (State.keepsTables_judgeRemoval _ p d (classify aborted o.content) o)
  split
  · exact hall.trans (State.keepsTables_interpret _ p d _ _)
  · exact hall

theorem State.keepsTables_receive (p : PortId) (d : Direction) (part : FramePart) : s.KeepsTables (s.receive p d part) := by
  have hend (aborted : Bool) (rest : List Bool) : s.KeepsTables (s.takeEnd p d aborted rest) := by
    unfold State.takeEnd State.closeFrame
    split
    · exact (s.keepsTables_setPort p _).trans (State.keepsTables_setPort _ p _)
    · split
      · exact s.keepsTables_setPort p _
      · exact ((s.keepsTables_setPort p _).trans (State.keepsTables_setPort _ p _)).trans
          (State.keepsTables_delimit ((s.beginFrame p _).frameContent p d _ rest) p d aborted _)
  cases part with
  | idle marks n =>
    show s.KeepsTables (s.takeIdle p d _)
    unfold State.takeIdle
    split
    · exact s.keepsTables_setPort p _
    · split <;> exact s.keepsTables_setPort p _
  | opening shared => exact s.keepsTables_setPort p _
  | content bits =>
    show s.KeepsTables (s.takeContent p d bits)
    unfold State.takeContent
    split
    · exact s.keepsTables_setPort p _
    · split
      · exact .refl s
      · exact (s.keepsTables_setPort p _).trans (State.keepsTables_setPort _ p _)
  | closed rest => exact hend false rest
  | aborted rest => exact hend true rest

end Sys2Proof.Machine
end

