-- ==== Sys2Proof/Proofs/TableLawsOfSteps.lean ====
section
/-! PROOFS. Sys2Proof/Proofs/TableLawsOfSteps.lean: the requests, RESET TABLES and every command keep the laws of the windows, the records,
the banks and the open list, and with them a step (O57). -/

namespace Sys2Proof.Machine

variable (s : State)

/-! ## RESET TABLES (R47, R101, R129) -/

theorem State.keepsTables_abandonAll : s.KeepsTables s.abandonAll := by
  refine .foldl (fun s i => ?_) _ s
  unfold State.abandonSupervision
  split
  · exact .refl s
  · rename_i e he
    exact s.keepsTables_supervise he fun _ _ => endSupervision_sup _ _ _ e _

/-- A bank that is not EMPTY is emptied by the second step (R129). -/
theorem State.bank_resetBank (b c : BankId) : (s.resetBank b).bank c =
    if c = b ∧ (s.bank b).state ≠ .empty then Bank.afterReset else s.bank c := by
  unfold State.resetBank
  dsimp only
  by_cases h : (s.bank b).state = .empty
  · simp [h]
  · simp [h, State.bank_emptyBank]

theorem State.keepsRecords_resetBank (b : BankId) : s.KeepsRecords (s.resetBank b) := by
  unfold State.resetBank
  dsimp only
  split
  · exact (State.KeepsTables.refl s).records
  · exact (s.keepsTables_report _).records.trans (State.keepsRecords_emptyBank _ b)

theorem State.resetBanks_eq : s.resetBanks = ((s.resetBank .bankA).resetBank .bankB).setOpenList [] := rfl

theorem State.bank_resetBanks (b : BankId) : s.resetBanks.bank b =
    if (s.bank b).state = .empty then s.bank b else Bank.afterReset := by
  rw [State.resetBanks_eq, State.setOpenList_bank, State.bank_resetBank, State.bank_resetBank, State.bank_resetBank]
  cases b with
  | bankA => simp only [reduceCtorEq, false_and, if_false, true_and, ne_eq, ite_not]
  | bankB => simp only [reduceCtorEq, false_and, if_false, true_and, ne_eq, ite_not]

/-- After the second step both banks are EMPTY, so that only an EMPTY bank that held an OPEN entry before could break a law. -/
theorem State.keepsTables_resetBanks : s.KeepsTables s.resetBanks := by
  have hempty (b : BankId) : (s.resetBanks.bank b).state = .empty := by
    rw [State.bank_resetBanks]
    split
    · assumption
    · rfl
  refine ⟨?_, ⟨fun _ => ?_, fun hs => ?_⟩, fun _ b hb => ?_⟩
  · rw [State.resetBanks_eq]
    exact ((s.keepsRecords_resetBank .bankA).trans (State.keepsRecords_resetBank _ .bankB)).trans (.of_eq rfl rfl)
  · rw [State.banksLawful_iff]
    intro b
    rw [hempty b]
    exact ⟨nofun, nofun⟩
  · rw [State.openListLawful_iff] at hs ⊢
    intro b
    have hnone (i : Nat) : (s.resetBanks.bank b).openAt i = 0 := by
      rw [State.bank_resetBanks]
      split
      · rename_i h
        exact (hs b).running (by rw [h]; decide) (by rw [h]; decide) i
      · rfl
    exact ⟨fun i => (hnone i).symm ▸ List.count_nil, fun _ _ => hnone⟩
  · rw [hempty b] at hb
    cases hb

theorem State.keepsTables_emptyTables : s.KeepsTables s.emptyTables := by
  have hclosed (p : PortId) (w : LineId) : s.emptyTables.window p w = Window.closed := by
    simp [State.emptyTables, State.window]
  refine .of_records rfl ⟨fun _ => ⟨fun p w h => ?_, fun p w h => ?_⟩, fun _ i e h => ?_, fun _ => ⟨List.Pairwise.nil, nofun⟩⟩
  · rw [hclosed] at h
    exact absurd h (by decide)
  · rw [hclosed] at h
    exact absurd h.1 (by decide)
  · cases h

theorem State.keepsTables_respond (code : Byte) (r : Request) (a : Reply) : s.KeepsTables (s.respond code r a) := .of_tables rfl

theorem State.keepsTables_taking (code : Byte) (r : Request) : s.KeepsTables (s.taking code r) := .of_tables rfl

theorem State.keepsTables_beginReset (r : Request) : s.KeepsTables (s.beginReset r) :=
  ((s.keepsTables_taking 70 r).trans (State.keepsTables_abandonAll _)).trans (.of_tables rfl)

theorem State.keepsTables_continueReset (g : Resetting) : s.KeepsTables (s.continueReset g) := by
  unfold State.continueReset
  split
  · exact s.keepsTables_resetBanks.trans (.of_tables rfl)
  · exact s.keepsTables_emptyTables.trans (.of_tables rfl)

theorem State.keepsTables_finishReset : s.KeepsTables s.finishReset := by
  unfold State.finishReset
  split
  · exact .refl s
  · split
    · exact (s.keepsTables_continueReset _).trans (State.keepsTables_continueReset _ _)
    · exact s.keepsTables_continueReset _

theorem State.keepsTables_takeReset (r : Request) (pause : Bool) : s.KeepsTables (s.takeReset r pause) := by
  have hfirst : s.KeepsTables (match s.service.resetting with
      | some g => if g.request = r then s.continueReset g else s.finishReset.beginReset r
      | none => s.beginReset r) := by
    split
    · split
      · exact s.keepsTables_continueReset _
      · exact s.keepsTables_finishReset.trans (State.keepsTables_beginReset _ r)
    · exact s.keepsTables_beginReset r
  unfold State.takeReset
  dsimp only
  split
  · exact hfirst
  · exact hfirst.trans (State.keepsTables_finishReset _)

/-- A request whose function keeps every state keeps the state that serves it (R171). -/
theorem State.keepsTables_serve (code : Byte) (r : Request) {f : List Byte → State → Served}
    (hf : ∀ params (u : State), u.KeepsTables (f params u).state) : s.KeepsTables (s.serve code r f) := by
  unfold State.serve
  split
  · exact .refl s
  · exact ((s.keepsTables_finishReset.trans (State.keepsTables_taking _ code r)).trans (hf _ _)).trans
      (State.keepsTables_respond _ code r _)

theorem State.KeepsTables.answerTaken {s t : State} (h : s.KeepsTables t) (changed : Bool) (data : List Byte) :
    s.KeepsTables (answerTaken t changed data).state := h

/-! ## Requests that hold none of the tables -/

theorem State.keepsTables_reqIdentify (params : List Byte) : s.KeepsTables (reqIdentify params s).state := by
  unfold reqIdentify
  split <;> exact .refl s

theorem State.keepsTables_reqReadStatus (params : List Byte) : s.KeepsTables (reqReadStatus params s).state := by
  unfold reqReadStatus
  split
  · split <;> exact .refl s
  · split
    · split <;> exact .refl s
    · split <;> exact .refl s
    · exact .refl s
  · exact .refl s

theorem State.keepsTables_reqReadCounters (params : List Byte) : s.KeepsTables (reqReadCounters params s).state := by
  unfold reqReadCounters
  split
  · split
    · split <;> exact .refl s
    · exact .refl s
  · exact .refl s

theorem State.keepsTables_reqReadElement (params : List Byte) : s.KeepsTables (reqReadElement params s).state := by
  unfold reqReadElement
  split
  · split <;> exact .refl s
  · exact .refl s

theorem State.keepsTables_reqReadEntry (params : List Byte) : s.KeepsTables (reqReadEntry params s).state := by
  unfold reqReadEntry
  split
  · split
    · split <;> exact .refl s
    · exact .refl s
  · exact .refl s

theorem State.keepsTables_reqReadJournal (params : List Byte) : s.KeepsTables (reqReadJournal params s).state := by
  unfold reqReadJournal
  split <;> exact .refl s

theorem State.keepsTables_reqJoin (params : List Byte) : s.KeepsTables (reqJoin params s).state := by
  unfold reqJoin State.joinPort
  split
  · split
    · split <;> exact .of_tables rfl
    · exact .refl s
  · exact .refl s

theorem State.keepsTables_reqLeave (params : List Byte) : s.KeepsTables (reqLeave params s).state := by
  unfold reqLeave State.leavePort
  split
  · split
    · split
      · exact .refl s
      · split <;> exact .of_tables rfl
      all_goals exact .refl s
    · exact .refl s
  · exact .refl s

theorem State.keepsTables_reqLatchCounters (params : List Byte) : s.KeepsTables (reqLatchCounters params s).state := by
  unfold reqLatchCounters
  split
  · split <;> exact .of_tables rfl
  · exact .refl s

theorem State.keepsTables_reqTimeMark (params : List Byte) : s.KeepsTables (reqTimeMark params s).state := by
  unfold reqTimeMark
  split
  · split
    · exact .refl s
    · dsimp only
      split <;> exact .of_tables rfl
  · exact .refl s

theorem State.keepsTables_reqSetTimebase (params : List Byte) : s.KeepsTables (reqSetTimebase params s).state := by
  unfold reqSetTimebase
  split
  · refine State.KeepsTables.answerTaken ?_ _ _
    exact (s.keepsTables_setTb _).trans (State.keepsTables_judgeLimit _)
  · exact .refl s

theorem State.keepsTables_reqRelock (params : List Byte) : s.KeepsTables (reqRelock params s).state := by
  unfold reqRelock
  split <;> exact .of_tables rfl

theorem State.keepsTables_setCivilOffset (now : Option Int) (a : ScheduleAction) : s.KeepsTables (s.setCivilOffset now a).state := by
  have hschedule (t : State) : t.KeepsTables (t.takeSchedule a).1 := by
    cases a with
    | keep => exact .refl t
    | cancel => exact t.keepsTables_setTb _
    | change day sec offset => exact (t.keepsTables_setTb _).trans (State.keepsTables_judgeOffset _)
  have hnow : s.KeepsTables (match now with
      | some v => s.changeOffset (takeOffset v)
      | none => s) := by
    split
    · exact s.keepsTables_changeOffset _
    · exact .refl s
  exact State.KeepsTables.answerTaken (hnow.trans (hschedule _)) _ _

theorem State.keepsTables_reqSetCivilOffset (params : List Byte) : s.KeepsTables (reqSetCivilOffset params s).state := by
  have hcancel (now : Option Int) (action : Nat) : s.KeepsTables (s.cancelForm now action).state := by
    unfold State.cancelForm
    split
    · exact s.keepsTables_setCivilOffset now _
    all_goals exact .refl s
  have hchange (now : Option Int) (action : Nat) (day : Day) (sec : Nat) (offset : Int) :
      s.KeepsTables (s.changeForm now action day sec offset).state := by
    unfold State.changeForm
    split
    · split
      · exact .refl s
      · exact s.keepsTables_setCivilOffset now _
    all_goals exact .refl s
  unfold reqSetCivilOffset
  split
  · exact s.keepsTables_setCivilOffset _ _
  · exact hcancel _ _
  · exact s.keepsTables_setCivilOffset _ _
  · exact hcancel _ _
  · exact hchange _ _ _ _ _
  · exact hchange _ _ _ _ _
  · exact .refl s

theorem State.keepsTables_reqSetLine (params : List Byte) : s.KeepsTables (reqSetLine params s).state := by
  unfold reqSetLine State.setLineSettings
  split
  · split
    · dsimp only
      split
      · exact .refl s
      · exact s.keepsTables_applyLine _ _
    · exact .refl s
  · exact .refl s

theorem State.keepsTables_reqSetPosition (params : List Byte) : s.KeepsTables (reqSetPosition params s).state := by
  unfold reqSetPosition State.setPosition
  split
  · split
    · dsimp only
      split
      · exact .refl s
      · split
        · exact .refl s
        · exact s.keepsTables_applyLine _ _
    · exact .refl s
  · exact .refl s

theorem State.keepsTables_lineRequest (f : Line → State → LineStep) (params : List Byte) :
    s.KeepsTables (lineRequest f params s).state := by
  unfold lineRequest
  split
  · split
    · exact .refl s
    · split
      · exact .refl s
      · exact s.keepsTables_applyLine _ _
  · exact .refl s

theorem State.keepsTables_reqSetClass (params : List Byte) : s.KeepsTables (reqSetClass params s).state := by
  unfold reqSetClass
  split
  · split <;> exact .of_tables rfl
  · exact .refl s

theorem State.keepsTables_reqSetAlert (params : List Byte) : s.KeepsTables (reqSetAlert params s).state := by
  unfold reqSetAlert
  split
  · dsimp only
    split <;> exact .of_tables rfl
  · exact .refl s

theorem State.keepsTables_reqRelease (params : List Byte) : s.KeepsTables (reqRelease params s).state := by
  unfold reqRelease
  split <;> exact .of_tables rfl

/-! ## Requests on ports, windows and elements -/

theorem State.keepsTables_reqSetPort (params : List Byte) : s.KeepsTables (reqSetPort params s).state := by
  unfold reqSetPort State.setPortSettings
  split
  · split
    · dsimp only
      split
      · exact .refl s
      · split
        · exact .refl s
        · refine State.KeepsTables.answerTaken ?_ _ _
          refine State.KeepsTables.trans (State.KeepsTables.trans ?_ (State.keepsTables_settleLife _ _ .down))
            (State.keepsTables_settleLife _ _ .up)
          exact .of_tables rfl
    · exact .refl s
  · exact .refl s

/-- A window load that no rule refuses (R27). -/
theorem State.keepsTables_takeWindow (p : PortId) (w : LineId) {x : Window}
    (hx : x.base ≤ x.limit → x.limit ≤ 4095 ∧ x.tableBase + (x.limit - x.base) ≤ 2047 ∧ ¬ s.overlaps p w x)
    (hold : ¬ s.touches (s.window p w)) (hnew : ¬ s.touches x) : s.KeepsTables (s.takeWindow p w x) :=
  .of_records rfl ⟨s.windowsLawful_takeWindow p w hx, s.staleLawful_takeWindow p w hold hnew, tableWf_mapRecords _⟩

theorem Window.closed_touches : ¬ s.touches Window.closed := fun h => absurd h.1 (by decide)

theorem State.keepsTables_closeWindow (p : PortId) (w : LineId) : s.KeepsTables (s.closeWindow p w).state := by
  unfold State.closeWindow
  split
  · exact .refl s
  · rename_i h
    rw [State.supervisedIn_iff] at h
    exact s.keepsTables_takeWindow p w (fun hopen => absurd hopen (by decide)) h (Window.closed_touches s)

theorem State.keepsTables_openWindow (p : PortId) (w : LineId) {given : Window} (hlimit : given.limit ≤ 4095)
    (hopen : given.base ≤ given.limit) : s.KeepsTables (s.openWindow p w given).state := by
  obtain ⟨x, hx⟩ : ∃ x : Window, x = ⟨given.base / 8 * 8, given.limit / 8 * 8 + 7, given.tableBase⟩ := ⟨_, rfl⟩
  have hbase : x.base ≤ x.limit := by
    rw [hx]
    dsimp only
    omega
  have hend : x.limit ≤ 4095 := by
    rw [hx]
    dsimp only
    omega
  unfold State.openWindow
  dsimp only
  rw [← hx]
  split
  · exact .refl s
  split
  · exact .refl s
  split
  · exact .refl s
  split
  · exact .refl s
  rename_i hindex haddress hmeets htouches
  rw [Bool.or_eq_true, State.supervisedIn_iff, State.supervisedIn_iff, not_or] at htouches
  refine s.keepsTables_takeWindow p w (fun _ => ⟨hend, Nat.le_of_not_lt hindex, ?_⟩) htouches.1 htouches.2
  rw [State.overlaps_iff s p w hbase, not_or]
  exact ⟨haddress, hmeets⟩

theorem State.keepsTables_reqLoadWindow (params : List Byte) : s.KeepsTables (reqLoadWindow params s).state := by
  unfold reqLoadWindow State.loadWindow
  split
  · split
    · split
      · exact .refl s
      · rename_i hrange
        split
        · exact s.keepsTables_closeWindow _ _
        · rename_i hopen
          exact s.keepsTables_openWindow _ _ (by omega) (Nat.le_of_not_lt hopen)
    · exact .refl s
  · exact .refl s

/-- A record that a LOAD ELEMENT rewrites is not under supervision, and so is the one that it leaves (R41, R42). -/
theorem rewriteElement_idle {e e' : Element} {l : Loaded} {silent : Bool} (h : rewriteElement e l silent = .ok e') :
    e'.sup = .idle := by
  unfold rewriteElement at h
  split at h
  · cases h
  · rename_i hsup
    rw [Supervision.active_iff, not_not] at hsup
    split at h
    · split at h
      · cases h
      · cases h
        exact hsup
    · split at h
      · cases h
      · cases h
        rfl

theorem State.keepsTables_loadElement {i : Nat} (hi : i < 2048) (kind : Kind) (g : GivenFields) :
    s.KeepsTables (s.loadElement i kind g).state := by
  have hset {e : Element} (he : e.sup = .idle) : s.KeepsTables (s.setElement i e) :=
    s.keepsTables_setElement (fun _ => hi) fun _ _ => he
  unfold State.loadElement
  dsimp only
  split
  · exact .refl s
  · split
    · exact hset rfl
    · split
      · rename_i h
        exact hset (rewriteElement_idle h)
      · exact .refl s

theorem State.keepsTables_reqLoadElement (params : List Byte) : s.KeepsTables (reqLoadElement params s).state := by
  unfold reqLoadElement
  split
  · split
    · split
      · exact .refl s
      · exact s.keepsTables_loadElement (by omega) _ _
    · exact .refl s
  · split
    · split
      · exact .refl s
      · exact s.keepsTables_loadElement (by omega) _ _
    · exact .refl s
  · exact .refl s

theorem State.keepsTables_reqRemoveElement (params : List Byte) : s.KeepsTables (reqRemoveElement params s).state := by
  unfold reqRemoveElement State.removeRecord
  split
  · split
    · exact .refl s
    · split
      · exact .refl s
      · split
        · exact .refl s
        · split
          · exact .refl s
          · exact s.keepsTables_removeElement _
  · exact .refl s

theorem State.keepsTables_reqClearStatistics (params : List Byte) : s.KeepsTables (reqClearStatistics params s).state := by
  unfold reqClearStatistics
  split
  · dsimp only
    split
    · refine .of_records rfl ⟨id, fun hs i e' he' => ?_, fun h => tableWf_mapRecords (fun _ e => e.cleared) h⟩
      rw [answer, State.element, lookup_mapRecords, Option.map_eq_some_iff] at he'
      obtain ⟨e, he, rfl⟩ := he'
      exact hs i e he
    · split
      · exact .refl s
      · split
        · exact .refl s
        · rename_i e he
          exact s.keepsTables_rewrite he id
  · exact .refl s

/-! ## Requests on banks -/

theorem State.RefsOnly.keepsTables {s t : State} (h : s.RefsOnly t) : s.KeepsTables t := by
  refine .of_records ?_ h.keepsRecords
  rw [h.only]
  rfl

theorem State.keepsTables_bankRequest {f : BankId → State → Served} (h : ∀ b, s.KeepsTables (f b s).state) (params : List Byte) :
    s.KeepsTables (bankRequest f params s).state := by
  unfold bankRequest
  split
  · split
    · exact h _
    · exact .refl s
  · exact .refl s

/-- A bank that runs neither before nor after and holds no OPEN entry more may be replaced (R110, R111, R114). -/
theorem State.keepsTables_setBank_resting {b : BankId} {x : Bank} (hbefore : (s.bank b).state ≠ .active ∧ (s.bank b).state ≠ .retiring)
    (hafter : x.state ≠ .active ∧ x.state ≠ .retiring) (harmed : x.state = .armed → (s.bank b.other).state ≠ .armed)
    (hopen : (∀ i, (s.bank b).openAt i = 0) → ∀ i, x.openAt i = 0) : s.KeepsTables (s.setBank b x) := by
  refine s.keepsTables_setBank ⟨by simp, fun i => by simp, ?_, ?_, fun hs => ?_⟩ fun _ h => absurd h hafter.2
  · rw [State.bank_setBank_same]
    exact fun h => .inr (harmed h)
  · rw [State.bank_setBank_same]
    exact fun h => absurd h hafter.1
  · have hnone := hs.running hbefore.1 hbefore.2
    refine ⟨fun i => ?_, fun _ _ i => ?_⟩
    · rw [State.setBank_openList, State.bank_setBank_same, hs.listed, hnone, hopen hnone]
    · rw [State.bank_setBank_same, hopen hnone]

theorem State.keepsTables_loadHeader (b : BankId) (start : DaySec) : s.KeepsTables (s.loadHeader b start).state := by
  unfold State.loadHeader
  dsimp only
  split
  · rename_i h
    exact s.keepsTables_setBank_resting (by rw [h]; decide) ⟨nofun, nofun⟩ nofun fun _ i => Bank.openAt_of_no_entries rfl i
  · rename_i h
    refine s.keepsTables_setBank_resting (by rw [h]; decide) (by rw [h]; decide) (by rw [h]; exact nofun) fun hs i => ?_
    rw [← hs i]
    exact congrFun (Bank.openAt_congr rfl) i
  · exact .refl s

theorem State.keepsTables_reqLoadHeader (params : List Byte) : s.KeepsTables (reqLoadHeader params s).state := by
  unfold reqLoadHeader
  split
  · split
    · split
      · exact .refl s
      · exact s.keepsTables_loadHeader _ _
    · exact .refl s
  · exact .refl s

theorem State.keepsTables_loadEntry (b : BankId) {e : Entry} (he : e.status = .pending) (changed : Bool) :
    s.KeepsTables (s.loadEntry b e changed).state := by
  unfold State.loadEntry
  dsimp only
  split
  · exact .refl s
  rename_i hloading
  rw [not_not] at hloading
  split
  · exact .refl s
  split
  · exact .refl s
  split
  · exact .refl s
  split
  · exact .refl s
  split
  · exact .refl s
  obtain ⟨x, hx⟩ : ∃ x : Bank, x = { s.bank b with entries := (s.bank b).entries ++ [e] } := ⟨_, rfl⟩
  have hset : s.KeepsTables (s.setBank b x) := by
    rw [hx]
    refine s.keepsTables_setBank_resting (by rw [hloading]; decide) (by rw [hloading]; decide) (by rw [hloading]; exact nofun)
      fun hs i => ?_
    rw [← hs i]
    exact Bank.openAt_append (by rw [he]; decide) _ rfl i
  rw [← hx]
  exact (hset.trans (State.refsOnly_raiseRefs _ e).keepsTables).answerTaken _ _

theorem State.keepsTables_reqLoadEntry (params : List Byte) : s.KeepsTables (reqLoadEntry params s).state := by
  unfold reqLoadEntry
  split
  · split
    · exact .refl s
    · split
      · exact .refl s
      · split
        · exact .refl s
        · exact s.keepsTables_loadEntry _ rfl _
  · exact .refl s

theorem State.keepsTables_armBank (b : BankId) : s.KeepsTables (State.armBank b s).state := by
  unfold State.armBank
  dsimp only
  split
  · exact .refl s
  · rename_i h
    push Not at h
    obtain ⟨hloading, -, hother⟩ := h
    refine s.keepsTables_setBank_resting (by rw [hloading]; decide) ⟨nofun, nofun⟩ (fun _ => hother) fun hs i => ?_
    rw [← hs i]
    exact congrFun (Bank.openAt_congr rfl) i

theorem State.keepsTables_disarmBank (b : BankId) : s.KeepsTables (State.disarmBank b s).state := by
  unfold State.disarmBank
  dsimp only
  split
  · rename_i harmed
    refine s.keepsTables_setBank_resting (by rw [harmed]; decide) ⟨nofun, nofun⟩ nofun fun hs i => ?_
    rw [← hs i]
    exact congrFun (Bank.openAt_congr rfl) i
  · exact .refl s

/-- The references of an abandoned bank leave the open list ahead of its entries (R128). -/
theorem State.keepsTables_abandonBank (b : BankId) : s.KeepsTables (State.abandonBank b s).state := by
  unfold State.abandonBank
  dsimp only
  split
  · show s.KeepsTables (State.emptyBank _ b)
    have hcount (c : BankId) (i : Nat) : (s.openList.filter fun r => r.bank != b).count ⟨c, i⟩ =
        if c = b then 0 else s.openList.count ⟨c, i⟩ := by
      split
      · rename_i hc
        exact List.count_eq_zero.2 fun hmem => by simpa [hc] using (List.mem_filter.1 hmem).2
      · rename_i hc
        exact List.count_filter (by simpa using hc)
    obtain ⟨t, ht⟩ : ∃ t : State, t = (s.setOpenList (s.openList.filter fun r => r.bank != b)).report
        (.bank b .abandoned ((s.bank b).count .opened) ((s.bank b).count .pending)) := ⟨_, rfl⟩
    have hbank (c : BankId) : (t.emptyBank b).bank c = if c = b then Bank.afterReset else s.bank c := by
      rw [State.bank_emptyBank, ht]
      simp
    have hlist : (t.emptyBank b).openList = s.openList.filter fun r => r.bank != b := by
      rw [State.openList_of_checkerPart (t.emptyBank_checkerPart b), ht]
      simp
    have hself : (t.emptyBank b).bank b = Bank.afterReset := by rw [hbank, if_pos rfl]
    have hother : (t.emptyBank b).bank b.other = s.bank b.other := by rw [hbank, if_neg b.other_ne]
    have hmoves : State.BankMoves b s (t.emptyBank b) := by
      refine ⟨hother, fun i => ?_, ?_, ?_, fun _ => ⟨fun i => ?_, fun _ _ i => ?_⟩⟩
      · rw [hlist, hcount, if_neg b.other_ne]
      · rw [hself]
        exact nofun
      · rw [hself]
        exact nofun
      · rw [hlist, hcount, if_pos rfl, hself]
        rfl
      · rw [hself]
        rfl
    rw [← ht]
    refine ⟨?_, hmoves.keepsOpen, State.retiringLawful_of_bank hother fun h => ?_⟩
    · refine State.KeepsRecords.trans (.of_eq ?_ ?_) (t.keepsRecords_emptyBank b)
      · rw [ht]
        rfl
      · rw [ht]
        rfl
    · rw [hself] at h
      cases h
  · exact .refl s

theorem State.keepsTables_clearBank (b : BankId) : s.KeepsTables (State.clearBank b s).state := by
  unfold State.clearBank
  split
  · exact .refl s
  · rename_i h
    exact s.keepsTables_emptyBank b fun hs => hs.running (by rw [h]; decide) (by rw [h]; decide)
  · exact .refl s

theorem State.keepsTables_reqCancelEntry (params : List Byte) : s.KeepsTables (reqCancelEntry params s).state := by
  unfold reqCancelEntry State.cancelEntry
  split
  · split
    · split
      · exact .refl s
      · split
        · exact .refl s
        · exact s.keepsTables_closeOwn _ (by decide)
    · exact .refl s
  · exact .refl s

/-! ## Every command -/

theorem State.keepsTables_setChoices (n : Nat) : s.KeepsTables { s with choices := n } := .of_tables rfl

theorem State.keepsTables_setPending (l : List Instr) : s.KeepsTables { s with pending := l } := .of_tables rfl

/-- An event that keeps the state outside INITIALISING keeps it. -/
theorem State.keepsTables_event {t : State} (h : s.KeepsTables t) : s.KeepsTables (if s.initialising then s else t) := by
  split
  · exact .refl s
  · exact h

/-- An event that waits for its instant, and then acts where it is due. -/
theorem State.keepsTables_awaited (instant : Option Nat) {due : Prop} [Decidable due] {t : State}
    (h : (s.await instant).KeepsTables t) : s.KeepsTables (if due then t else s.await instant) := by
  split
  · exact (s.keepsTables_await instant).trans h
  · exact s.keepsTables_await instant

/-- A device reset gives closed windows, no record, and two EMPTY banks (R7). -/
theorem State.keepsTables_afterReset (pending : List Instr) (cause : ResetCause) (straps : Straps) (choices : Nat) :
    s.KeepsTables (State.afterReset pending cause straps choices) := by
  obtain ⟨-, -, -, -, htable, hbanks, -, -, -, -, -, hretiring, hopen, hwindows, hstale⟩ := resetMeetsTheLaws
  have htables : (State.afterReset pending cause straps choices).tables = State.reset.tables := rfl
  have hkeeps := State.KeepsTables.of_tables htables
  exact ⟨⟨fun _ => hkeeps.records.windows hwindows, fun _ => hkeeps.records.stale hstale, fun _ => hkeeps.records.table htable⟩,
    ⟨fun _ => hkeeps.opened.banks hbanks, fun _ => hkeeps.opened.openList hopen⟩, fun _ => hkeeps.retiring hretiring⟩

theorem State.keepsTables_completeQuiet (p : PortId) (state : PortState) : s.KeepsTables (s.completeQuiet p state) :=
  s.keepsTables_awaited _ (State.keepsTables_setPort _ p _)

theorem State.keepsTables_ite {c : Prop} [Decidable c] {t u : State} (ht : s.KeepsTables t) (hu : s.KeepsTables u) :
    s.KeepsTables (if c then t else u) := by
  split
  · exact ht
  · exact hu

/-- Every command answers a next state and keeps the laws of the tables. -/
theorem exec_keepsTables (i : Instr) : ∃ t, exec i s = .next t ∧ s.KeepsTables t := by
  cases i with
  | deviceReset cause straps => exact ⟨_, rfl, s.keepsTables_afterReset _ _ _ _⟩
  | endOfInitialising => exact ⟨_, rfl, s.keepsTables_ite ((s.keepsTables_await _).trans (.of_tables rfl)) (.refl s)⟩
  | frameReceived p d part => exact ⟨_, rfl, s.keepsTables_event (s.keepsTables_receive p d part)⟩
  | lossOfSignalRaised p d => exact ⟨_, rfl, s.keepsTables_event (s.keepsTables_ite (.refl s) (s.keepsTables_setCondition p d _ _))⟩
  | lossOfSignalCleared p d => exact ⟨_, rfl, s.keepsTables_event (s.keepsTables_ite (s.keepsTables_setCondition p d _ _) (.refl s))⟩
  | lifeTimeout p d => exact ⟨_, rfl, s.keepsTables_event (s.keepsTables_awaited _ (State.keepsTables_raiseSilent _ p d))⟩
  | joiningQuietRunComplete p => exact ⟨_, rfl, s.keepsTables_event (s.keepsTables_completeQuiet p _)⟩
  | leavingQuietRunComplete p => exact ⟨_, rfl, s.keepsTables_event (s.keepsTables_completeQuiet p _)⟩
  | relayTransferEnd p => exact ⟨_, rfl, s.keepsTables_event (s.keepsTables_awaited _ (State.keepsTables_setPort _ p _))⟩
  | insertionBegin p => exact ⟨_, rfl, s.keepsTables_event (s.keepsTables_ite (s.keepsTables_setPort p _) (.refl s))⟩
  | insertionEnd p marks => exact ⟨_, rfl, s.keepsTables_event (s.keepsTables_ite (s.keepsTables_setPort p _) (.refl s))⟩
  | backlogDrained p => exact ⟨_, rfl, s.keepsTables_event (s.keepsTables_ite (s.keepsTables_setPort p _) (.refl s))⟩
  | referencePulse => exact ⟨_, rfl, s.keepsTables_event s.keepsTables_pulse⟩
  | missNote => exact ⟨_, rfl, s.keepsTables_event (s.keepsTables_awaited _ (State.keepsTables_missNote _))⟩
  | holdoverLimitReached => exact ⟨_, rfl, s.keepsTables_event (s.keepsTables_awaited _ (.of_tables rfl))⟩
  | slewSpent => exact ⟨_, rfl, s.keepsTables_event (s.keepsTables_await _)⟩
  | secondBoundary order => exact ⟨_, rfl, s.keepsTables_event (s.keepsTables_toBoundary order)⟩
  | deadlineExpiry i => exact ⟨_, rfl, s.keepsTables_event (s.keepsTables_awaited _ (State.keepsTables_expireRecord _ i))⟩
  | impulseStart l => exact ⟨_, rfl, s.keepsTables_event (s.keepsTables_awaited _ (.of_tables rfl))⟩
  | probeStart l => exact ⟨_, rfl, s.keepsTables_event (s.keepsTables_awaited _ (.of_tables rfl))⟩
  | impulseSample l sense =>
    refine ⟨_, rfl, s.keepsTables_event (s.keepsTables_awaited _ ?_)⟩
    unfold State.sampleLine
    split
    · exact State.keepsTables_applyLine _ l _
    · exact .refl _
  | impulseEnd l =>
    refine ⟨_, rfl, s.keepsTables_event (s.keepsTables_awaited _ ?_)⟩
    unfold State.finishLine
    split
    · exact State.keepsTables_applyLine _ l _
    · exact .refl _
  | unknownRequestCode code r =>
    exact ⟨_, rfl, s.keepsTables_ite (.refl s) (s.keepsTables_serve code r fun _ u => .refl u)⟩
  | resetTables r =>
    exact ⟨_, rfl, s.keepsTables_ite (.refl s) (s.keepsTables_ite
      ((s.keepsTables_setChoices _).trans (State.keepsTables_takeReset _ r _)) (s.keepsTables_serve 70 r fun _ u => .refl u))⟩
  | identify r => exact ⟨_, rfl, s.keepsTables_serve 1 r fun params u => u.keepsTables_reqIdentify params⟩
  | readStatus r => exact ⟨_, rfl, s.keepsTables_serve 2 r fun params u => u.keepsTables_reqReadStatus params⟩
  | setPort r => exact ⟨_, rfl, s.keepsTables_serve 10 r fun params u => u.keepsTables_reqSetPort params⟩
  | join r => exact ⟨_, rfl, s.keepsTables_serve 11 r fun params u => u.keepsTables_reqJoin params⟩
  | leave r => exact ⟨_, rfl, s.keepsTables_serve 12 r fun params u => u.keepsTables_reqLeave params⟩
  | readCounters r => exact ⟨_, rfl, s.keepsTables_serve 13 r fun params u => u.keepsTables_reqReadCounters params⟩
  | latchCounters r => exact ⟨_, rfl, s.keepsTables_serve 14 r fun params u => u.keepsTables_reqLatchCounters params⟩
  | loadWindow r => exact ⟨_, rfl, s.keepsTables_serve 20 r fun params u => u.keepsTables_reqLoadWindow params⟩
  | loadElement r => exact ⟨_, rfl, s.keepsTables_serve 21 r fun params u => u.keepsTables_reqLoadElement params⟩
  | removeElement r => exact ⟨_, rfl, s.keepsTables_serve 22 r fun params u => u.keepsTables_reqRemoveElement params⟩
  | readElement r => exact ⟨_, rfl, s.keepsTables_serve 23 r fun params u => u.keepsTables_reqReadElement params⟩
  | clearStatistics r => exact ⟨_, rfl, s.keepsTables_serve 24 r fun params u => u.keepsTables_reqClearStatistics params⟩
  | timeMark r => exact ⟨_, rfl, s.keepsTables_serve 30 r fun params u => u.keepsTables_reqTimeMark params⟩
  | setTimebase r => exact ⟨_, rfl, s.keepsTables_serve 31 r fun params u => u.keepsTables_reqSetTimebase params⟩
  | relock r => exact ⟨_, rfl, s.keepsTables_serve 32 r fun params u => u.keepsTables_reqRelock params⟩
  | setCivilOffset r => exact ⟨_, rfl, s.keepsTables_serve 33 r fun params u => u.keepsTables_reqSetCivilOffset params⟩
  | loadHeader r => exact ⟨_, rfl, s.keepsTables_serve 40 r fun params u => u.keepsTables_reqLoadHeader params⟩
  | loadEntry r => exact ⟨_, rfl, s.keepsTables_serve 41 r fun params u => u.keepsTables_reqLoadEntry params⟩
  | arm r => exact ⟨_, rfl, s.keepsTables_serve 42 r fun params u => u.keepsTables_bankRequest u.keepsTables_armBank params⟩
  | disarm r => exact ⟨_, rfl, s.keepsTables_serve 43 r fun params u => u.keepsTables_bankRequest u.keepsTables_disarmBank params⟩
  | abandon r => exact ⟨_, rfl, s.keepsTables_serve 44 r fun params u => u.keepsTables_bankRequest u.keepsTables_abandonBank params⟩
  | clearBank r => exact ⟨_, rfl, s.keepsTables_serve 45 r fun params u => u.keepsTables_bankRequest u.keepsTables_clearBank params⟩
  | cancelEntry r => exact ⟨_, rfl, s.keepsTables_serve 46 r fun params u => u.keepsTables_reqCancelEntry params⟩
  | readEntry r => exact ⟨_, rfl, s.keepsTables_serve 47 r fun params u => u.keepsTables_reqReadEntry params⟩
  | setLine r => exact ⟨_, rfl, s.keepsTables_serve 50 r fun params u => u.keepsTables_reqSetLine params⟩
  | setPosition r => exact ⟨_, rfl, s.keepsTables_serve 51 r fun params u => u.keepsTables_reqSetPosition params⟩
  | halt r => exact ⟨_, rfl, s.keepsTables_serve 52 r fun params u => u.keepsTables_lineRequest _ params⟩
  | run r => exact ⟨_, rfl, s.keepsTables_serve 53 r fun params u => u.keepsTables_lineRequest _ params⟩
  | setClass r => exact ⟨_, rfl, s.keepsTables_serve 60 r fun params u => u.keepsTables_reqSetClass params⟩
  | setAlert r => exact ⟨_, rfl, s.keepsTables_serve 61 r fun params u => u.keepsTables_reqSetAlert params⟩
  | readJournal r => exact ⟨_, rfl, s.keepsTables_serve 62 r fun params u => u.keepsTables_reqReadJournal params⟩
  | release r => exact ⟨_, rfl, s.keepsTables_serve 63 r fun params u => u.keepsTables_reqRelease params⟩

/-! ## A step -/

theorem State.keepsTables_queueEvent (i : Instr) : s.KeepsTables (s.queueEvent i) := by
  unfold State.queueEvent
  split
  · exact s.keepsTables_boundaryOrder.trans (.of_tables rfl)
  · exact .of_tables rfl

theorem State.keepsTables_choose (l : List Instr) : s.KeepsTables (s.choose l) := by
  unfold State.choose
  split
  · exact .refl s
  · exact s.keepsTables_queueEvent _
  · exact (s.keepsTables_setChoices _).trans (State.keepsTables_queueEvent _ _)

/-- A step of a part on which no command waits touches no table (log entry 2). -/
theorem State.keepsTables_idle : s.KeepsTables s.idle := by
  have htake : s.KeepsTables (if s.initialising then s else { s with service := s.service.take }) :=
    s.keepsTables_ite (.refl s) (.of_tables rfl)
  unfold State.idle
  dsimp only
  split
  · exact htake.trans (State.keepsTables_setTb _ _)
  · exact htake.trans (State.keepsTables_choose _ _)

theorem step_keepsTables {s t : State} (h : step s = .next t) : s.KeepsTables t := by
  unfold step at h
  split at h
  · cases h
    exact s.keepsTables_idle
  · rename_i c rest _
    obtain ⟨u, hu, hk⟩ := exec_keepsTables { s with pending := rest } c
    rw [hu] at h
    cases h
    exact (s.keepsTables_setPending rest).trans hk

/-- Settles O57: every operation of every command keeps the laws of the windows, the records, the banks and the open list. -/
theorem bankLawAndElementTableAreKept : Obligations.BankLawAndElementTableAreKept :=
  ⟨fun _ _ hs h => (step_keepsTables h).opened.banks hs, fun _ _ hs h => (step_keepsTables h).retiring hs,
    fun _ _ hs h => (step_keepsTables h).opened.openList hs, fun _ _ hs h => (step_keepsTables h).records.windows hs,
    fun _ _ hs h => (step_keepsTables h).records.stale hs, fun _ _ hs h => (step_keepsTables h).records.table hs⟩

end Sys2Proof.Machine
end

