-- ==== Sys2Proof/Proofs/ElementRequests.lean ====
section
/-! PROOFS. Sys2Proof/Proofs/ElementRequests.lean: LOAD WINDOW, REMOVE ELEMENT and CLEAR STATISTICS (R27, R28, R43, R45). -/

namespace Sys2Proof.Machine

/-! ## Numbers in two octets (R184) -/

theorem be_two (n : Nat) : be 2 n = [BitVec.ofNat 8 (n / 256), BitVec.ofNat 8 n] := by simp [be]

theorem ofBe_two {n : Nat} (h : n < 65536) : ofBe [BitVec.ofNat 8 (n / 256), BitVec.ofNat 8 n] = n := by
  simp only [ofBe, List.foldl_cons, List.foldl_nil, BitVec.toNat_ofNat]
  omega

variable (s : State)

/-- A request whose function answers this state with this reply, as a command (R171 to R173). -/
theorem State.next_serve (h : s.ready) (code : Byte) (r : Request) {f : List Byte → State → Served} {t : State} {a : Reply}
    (hf : f r.params (s.taking code r) = ⟨t, a⟩) :
    (Host.Outcome.next (s.serve code r f) : Outcome) = .next (t.respond code r a) :=
  congrArg Host.Outcome.next (s.serve_of_meaning h code r hf)

/-! ## REMOVE ELEMENT (R43) -/

theorem reqRemoveElement_eq {i : Nat} (hi : i ≤ 2047) : reqRemoveElement (be 2 i) s = s.removeRecord i := by
  rw [be_two, reqRemoveElement, ofBe_two (by omega), if_neg (by omega)]

/-- Settles O24: by the record of the index. -/
theorem removeElementEmptiesOneRecord : Obligations.RemoveElementEmptiesOneRecord := by
  intro s r i hs hi hp
  have hrequest (h : i ≤ 2047) : reqRemoveElement r.params (s.taking 22 r) = (s.taking 22 r).removeRecord i := by
    rw [hp, reqRemoveElement_eq _ h]
  refine ⟨fun h => s.next_serve hs 22 r ?_, fun h he => s.next_serve hs 22 r ?_, fun e h he => ⟨fun hsup => s.next_serve hs 22 r ?_,
    fun hsup hrefs => s.next_serve hs 22 r ?_, fun hsup hrefs => ⟨(s.taking 22 r).removeElement i, s.next_serve hs 22 r ?_, by simp,
    fun j hj => State.element_removeElement_other _ i j hj, fun p a ha => ⟨fun x => ?_, fun code c => ?_⟩, rfl⟩⟩⟩
  · rw [hp, be_two, reqRemoveElement, ofBe_two hi, if_pos h, refuse]
  · rw [hrequest h]
    simp [State.removeRecord, he, answer, flag]
  · rw [hrequest h]
    simp [State.removeRecord, he, refuse, (Supervision.active_iff e.sup).2 hsup]
  · rw [hrequest h]
    simp [State.removeRecord, he, refuse, hsup, hrefs, Supervision.active]
  · rw [hrequest h]
    simp [State.removeRecord, he, answer, hsup, hrefs, Supervision.active, flag]
  · exact State.trackReport_unmapped _ (.inr ⟨i, ha, by simp⟩) x
  · exact State.trackCommand_unmapped _ (.inr ⟨i, ha, by simp⟩) code c

/-! ## CLEAR STATISTICS (R45) -/

theorem reqClearStatistics_present {i : Nat} (hi : i ≤ 2047) {e : Element} (he : s.element i = some e) :
    reqClearStatistics (be 2 i) s = answer (s.setElement i e.cleared) (be 2 1) := by
  rw [be_two, reqClearStatistics, ofBe_two (by omega), if_neg (by omega), if_neg (by omega), he]

theorem reqClearStatistics_absent {i : Nat} (hi : i ≤ 2047) (he : s.element i = none) :
    reqClearStatistics (be 2 i) s = refuse s .state := by
  rw [be_two, reqClearStatistics, ofBe_two (by omega), if_neg (by omega), if_neg (by omega), he]

/-- Settles O25: one record, an empty one, an index between the table and the mark for all records, and all records. -/
theorem clearStatisticsZeroesThem : Obligations.ClearStatisticsZeroesThem := by
  intro s r i hs hi
  refine ⟨fun e hp he => s.next_serve hs 24 r ?_, fun hp he => s.next_serve hs 24 r ?_, fun j hj hj' hp => s.next_serve hs 24 r ?_,
    fun hp => ⟨{ s.taking 24 r with elements := mapRecords s.elements fun _ e => e.cleared }, s.next_serve hs 24 r ?_, fun j => ?_,
      rfl⟩⟩
  · rw [hp, reqClearStatistics_present _ hi ((s.taking_element 24 r i).trans he)]
    rfl
  · rw [hp, reqClearStatistics_absent _ hi ((s.taking_element 24 r i).trans he)]
    rfl
  · rw [hp, be_two, reqClearStatistics, ofBe_two (by omega), if_neg (by omega), if_pos hj, refuse]
  · rw [hp]
    rfl
  · simp only [State.element, lookup_mapRecords]
    rfl

/-! ## LOAD WINDOW (R27, R28) -/

/-- Settles O22: a load rewrites each present record by its mapping before and after. -/
theorem windowLoadRealignsRecords : Obligations.WindowLoadRealignsRecords := by
  intro s p w x i
  refine ⟨fun h => ?_, fun e he => ⟨fun hsame => ?_, fun hmoved => ?_⟩⟩
  · rw [State.element_takeWindow, h]
    rfl
  · rw [State.element_takeWindow, he, Option.map_some, State.realign, if_pos hsame]
  · rw [State.element_takeWindow, he, Option.map_some, State.realign, if_neg (by rw [hmoved]; decide)]

theorem reqLoadWindow_eq (p : PortId) (w : LineId) {base limit table : Nat} (hb : base < 65536) (hl : limit < 65536)
    (ht : table < 65536) :
    reqLoadWindow ([BitVec.ofNat 8 p.val, BitVec.ofNat 8 w.val] ++ be 2 base ++ be 2 limit ++ be 2 table) s =
      s.loadWindow p w ⟨base, limit, table⟩ := by
  simp only [be_two, List.cons_append, List.nil_append, reqLoadWindow, portOf_ofNat, lineOf_ofNat, ofBe_two hb, ofBe_two hl,
    ofBe_two ht]

/-- What OVERLAP and BUSY judge is not moved by the taking of the request. -/
theorem State.taking_overlaps (code : Byte) (r : Request) : (s.taking code r).overlaps = s.overlaps :=
  State.overlaps_congr (s.taking_windows code r)

theorem State.taking_touches (code : Byte) (r : Request) : (s.taking code r).touches = s.touches := rfl

theorem lineOf_out_of_range (b : Byte) (h : 3 < b.toNat) : lineOf b = none := by
  simp [lineOf]
  omega

section Open

variable {p : PortId} {w : LineId} {given x : Window} (hx : x = ⟨given.base / 8 * 8, given.limit / 8 * 8 + 7, given.tableBase⟩)

include hx

/-- The tests of a window that opens, on its rounded values (the second table of R27). -/
theorem State.openWindow_eq : s.openWindow p w given =
    if 2047 < x.lastIndex then refuse s .range
    else if (s.otherWindows p w).any fun y => y.1 == p && x.meetsAddress y.2 then refuse s .overlap
    else if (s.otherWindows p w).any fun y => x.meetsIndex y.2 then refuse s .overlap
    else if s.supervisedIn (s.window p w) || s.supervisedIn x then refuse s .busy
    else answerTaken (s.takeWindow p w x) (x != given) x.octets := by
  rw [hx]
  rfl

theorem State.openWindow_range (h : 2047 < x.lastIndex) : s.openWindow p w given = refuse s .range := by
  rw [s.openWindow_eq hx, if_pos h]

theorem State.openWindow_overlap (hopen : x.base ≤ x.limit) (h : x.lastIndex ≤ 2047) (ho : s.overlaps p w x) :
    s.openWindow p w given = refuse s .overlap := by
  rw [s.openWindow_eq hx, if_neg (Nat.not_lt.2 h)]
  split
  · rfl
  · rename_i haddress
    rw [if_pos (((s.overlaps_iff p w hopen).1 ho).resolve_left haddress)]

theorem State.openWindow_apart (hopen : x.base ≤ x.limit) (h : x.lastIndex ≤ 2047) (ho : ¬ s.overlaps p w x) :
    s.openWindow p w given = if s.supervisedIn (s.window p w) || s.supervisedIn x then refuse s .busy
      else answerTaken (s.takeWindow p w x) (x != given) x.octets := by
  obtain ⟨haddress, hindex⟩ := not_or.1 (mt (s.overlaps_iff p w hopen).2 ho)
  rw [s.openWindow_eq hx, if_neg (Nat.not_lt.2 h), if_neg haddress, if_neg hindex]

end Open

theorem State.loadWindow_range (p : PortId) (w : LineId) {given : Window}
    (h : 4095 < given.base ∨ 4095 < given.limit ∨ 2047 < given.tableBase) : s.loadWindow p w given = refuse s .range := if_pos h

theorem State.loadWindow_open (p : PortId) (w : LineId) {given : Window} (hopen : given.base ≤ given.limit)
    (hlimit : given.limit ≤ 4095) (htable : given.tableBase ≤ 2047) : s.loadWindow p w given = s.openWindow p w given := by
  unfold State.loadWindow
  rw [if_neg (by omega), if_neg (by omega)]

theorem State.loadWindow_close (p : PortId) (w : LineId) {given : Window} (hclose : given.limit < given.base)
    (hbase : given.base ≤ 4095) (htable : given.tableBase ≤ 2047) : s.loadWindow p w given = s.closeWindow p w := by
  unfold State.loadWindow
  rw [if_neg (by omega), if_pos hclose]

theorem State.closeWindow_busy {p : PortId} {w : LineId} (h : s.touches (s.window p w)) : s.closeWindow p w = refuse s .busy := by
  unfold State.closeWindow
  rw [if_pos ((s.supervisedIn_iff _).2 h)]

theorem State.closeWindow_free {p : PortId} {w : LineId} (h : ¬ s.touches (s.window p w)) :
    s.closeWindow p w = answer (s.takeWindow p w Window.closed) Window.closed.octets := by
  unfold State.closeWindow
  rw [if_neg (mt (s.supervisedIn_iff _).1 h)]

/-- Each address of an opened window leads to its index (R26, R29). -/
theorem State.decodeAddress_takeWindow {p : PortId} {w : LineId} {x : Window} (ho : ¬ s.overlaps p w x) {a : Nat}
    (hbase : x.base ≤ a) (hlimit : a ≤ x.limit) :
    (s.takeWindow p w x).decodeAddress p a = some (x.tableBase + (a - x.base)) := by
  have hsame := s.takeWindow_window_same p w x
  have h := State.decodeAddress_of_holds (s.takeWindow p w x) (p := p) (w := w) (a := a)
    (by rw [hsame, Window.holds_iff]; exact ⟨hbase, hlimit⟩) fun v hv => ?_
  · rw [h, hsame]
  · have hne : (p, v) ≠ (p, w) := fun heq => hv (congrArg Prod.snd heq)
    rw [s.takeWindow_window_other p w x hne, ← Bool.not_eq_true, Window.holds_iff]
    rintro ⟨h1, h2⟩
    exact ho ⟨p, v, hne, Nat.le_trans h1 h2, .inl ⟨rfl, Nat.le_trans hbase h2, Nat.le_trans h1 hlimit⟩⟩

/-- Settles O21: the bounds, the tests of a window that opens in their order, and the window that closes. -/
theorem loadWindowMapsItsRange : Obligations.LoadWindowMapsItsRange := by
  refine ⟨fun s r p w base limit table hs hp hb hl ht => ?_, fun s r port window b1 b0 l1 l0 t1 t0 hs hout hp =>
    s.next_serve hs 20 r ?_⟩
  · obtain ⟨u, hu⟩ : ∃ u, u = s.taking 20 r := ⟨_, rfl⟩
    have hrequest {a : Served} (h : u.loadWindow p w ⟨base, limit, table⟩ = a) :
        exec (.loadWindow r) s = .next (a.state.respond 20 r a.reply) := by
      refine s.next_serve hs 20 r ?_
      rw [hp, ← hu, reqLoadWindow_eq u p w hb hl ht, h]
    have hoverlaps : u.overlaps = s.overlaps := hu ▸ s.taking_overlaps 20 r
    have htouches : u.touches = s.touches := hu ▸ s.taking_touches 20 r
    have hwindow (q : PortId) (v : LineId) : u.window q v = s.window q v := hu ▸ s.taking_window 20 r q v
    rw [← hu, ← hoverlaps, ← htouches, ← hwindow]
    refine ⟨fun hrange => hrequest (u.loadWindow_range p w hrange), fun x hx hopen hlimit htable => ?_, fun hclose hbase htable =>
      ⟨fun h => hrequest ((u.loadWindow_close p w hclose hbase htable).trans (u.closeWindow_busy h)), fun h =>
        hrequest ((u.loadWindow_close p w hclose hbase htable).trans (u.closeWindow_free h))⟩⟩
    have hload := u.loadWindow_open p w (given := ⟨base, limit, table⟩) hopen hlimit htable
    have hlast : x.lastIndex = table + (x.limit - x.base) := by rw [hx]; rfl
    have hbase : x.base ≤ x.limit := by
      rw [hx]
      dsimp only
      omega
    rw [← hlast]
    refine ⟨fun h => hrequest (hload.trans (u.openWindow_range hx h)), fun h ho =>
      hrequest (hload.trans (u.openWindow_overlap hx hbase h ho)), fun h ho hbusy => ?_, fun h ho hold hnew => ?_⟩
    · refine hrequest (hload.trans ((u.openWindow_apart hx hbase h ho).trans (if_pos ?_)))
      rw [Bool.or_eq_true, State.supervisedIn_iff, State.supervisedIn_iff]
      exact hbusy
    · refine ⟨u.takeWindow p w x, ?_, rfl, u.takeWindow_window_same p w x, fun q v hne => ?_, fun a h1 h2 => ?_,
        u.takeWindow_only p w x⟩
      · have htaken : u.openWindow p w ⟨base, limit, table⟩ = answerTaken (u.takeWindow p w x) (x != ⟨base, limit, table⟩) x.octets := by
          refine (u.openWindow_apart hx hbase h ho).trans (if_neg ?_)
          rw [Bool.or_eq_true, State.supervisedIn_iff, State.supervisedIn_iff]
          exact not_or.2 ⟨hold, hnew⟩
        have hchanged : (x != ⟨base, limit, table⟩) = decide (base % 8 ≠ 0 ∨ limit % 8 ≠ 7) := by
          rw [hx, Bool.eq_iff_iff, bne_iff_ne, decide_eq_true_iff, ne_eq, Window.mk.injEq]
          omega
        have hoctets : x.octets = be 2 x.base ++ be 2 x.limit ++ be 2 table := by rw [hx]; rfl
        rw [← hchanged, ← hoctets]
        exact hrequest (hload.trans htaken)
      · rw [u.takeWindow_window_other p w x hne, hwindow]
      · rw [u.decodeAddress_takeWindow ho h1 h2, hx]
  · rw [hp]
    rcases hout with h | h
    · simp only [reqLoadWindow, portOf_out_of_range port h]
      rfl
    · simp only [reqLoadWindow, lineOf_out_of_range window h]
      cases portOf port <;> rfl

end Sys2Proof.Machine
end

