-- ==== Sys2Proof/Proofs/Telegrams.lean ====
section
/-! PROOFS. Sys2Proof/Proofs/Telegrams.lean: reports and commands at their records: the table of codes, the candidate, the acceptance with its
dating, and the commands (R26, R29, R32 to R37, R39). -/

namespace Sys2Proof.Machine

variable (s : State)

/-! ## Reports below K (R33, R39) -/

/-- A record that a report has reached, with the mark of an undefined code (R32). -/
def Element.reported (e : Element) (code : Nat) : Element :=
  { e with undefinedSeen := e.undefinedSeen || (mapCode e.loaded.kind code).2 }

theorem State.takeReport_accepted (p : PortId) (i : Nat) {e : Element} {r : Report}
    (h : e.accepted = some (mapCode e.loaded.kind r.code).1) :
    s.takeReport p i e r = s.setElement i { e.reported r.code with
      stale := false, candidate := none,
      stats := if e.candidate.isSome then { e.stats with flicker := raise16 e.stats.flicker } else e.stats } :=
  if_pos h

/-- A report of another state leads to the candidate that it starts or carries on, which is accepted at K (R33, R34). -/
theorem State.takeReport_other (p : PortId) (i : Nat) {e : Element} {r : Report}
    (h : e.accepted ≠ some (mapCode e.loaded.kind r.code).1) {k : Candidate}
    (hk : nextCandidate (e.reported r.code) (mapCode e.loaded.kind r.code).1 (mapCode e.loaded.kind r.code).2 r = k) :
    s.takeReport p i e r = if e.loaded.confirm ≤ k.count then s.accept p i (e.reported r.code) k
      else s.setElement i { e.reported r.code with candidate := some k } := by
  rw [← hk]
  exact if_neg h

/-- A report of the candidate's state carries it on (R33). -/
theorem nextCandidate_same {e : Element} {c : Candidate} {mapped : Nat} (he : e.candidate = some c) (hc : c.state = mapped)
    (undef : Bool) (r : Report) :
    nextCandidate e mapped undef r = { c with count := c.count + 1, undefinedCode := c.undefinedCode || undef } := by
  simp [nextCandidate, he, hc]

/-- A report of any other state starts a candidate (R33). -/
theorem nextCandidate_other {e : Element} {mapped : Nat} (h : ∀ c, e.candidate = some c → c.state ≠ mapped) (undef : Bool)
    (r : Report) : nextCandidate e mapped undef r = ⟨mapped, 1, r.capture, r.age, r.ageLimit, undef, e.stale⟩ := by
  unfold nextCandidate
  cases hc : e.candidate with
  | none => rfl
  | some c => simp [h c hc]

/-- The table of R32. -/
theorem mapCode_table (code : Nat) :
    (1 ≤ code → code ≤ 4 → mapCode .point code = (code, false)) ∧ (code = 0 ∨ 5 ≤ code → mapCode .point code = (4, true)) ∧
    (code ≤ 15 → mapCode .signal code = (code, false)) ∧ (16 ≤ code → mapCode .signal code = (14, true)) ∧
    mapCode .other code = (code, false) := by
  refine ⟨fun h1 h4 => if_pos ⟨h1, h4⟩, fun h => if_neg (by omega), fun h => if_pos h, fun h => if_neg (by omega), rfl⟩

theorem Window.not_holds {x : Window} {a : Nat} (h : a < x.base ∨ x.limit < a) : x.holds a = false := by
  rw [← Bool.not_eq_true, Window.holds_iff]
  omega

/-- Settles O26: the table of codes, the windows of the port, and a report at a record by its accepted state and its candidate. -/
theorem reportsMoveTheCandidate : Obligations.ReportsMoveTheCandidate := by
  refine ⟨mapCode_table, fun s p a => ⟨fun w h1 h2 hother => ?_, fun h => ?_⟩, fun s p a r => ⟨fun i e ha he => ?_, fun h => ?_⟩,
    fun s p i e r => ⟨fun h => ?_, fun h => ⟨fun c hc hstate hcount => ?_, fun hc hcount => ?_⟩⟩⟩
  · exact s.decodeAddress_of_holds ((Window.holds_iff _ a).2 ⟨h1, h2⟩) fun v hv => Window.not_holds (hother v hv)
  · exact s.decodeAddress_none fun v => Window.not_holds (h v)
  · exact s.trackReport_present ha he r
  · exact s.trackReport_unmapped h r
  · exact s.takeReport_accepted p i h
  · rw [s.takeReport_other p i h (nextCandidate_same (e := e.reported r.code) hc hstate _ r)]
    exact if_neg (Nat.not_le.2 hcount)
  · rw [s.takeReport_other p i h (nextCandidate_other (e := e.reported r.code) hc _ r)]
    exact if_neg (Nat.not_le.2 hcount)

/-! ## Acceptance (R34 to R36, R75 to R79) -/

/-- Of the records only reference counts may have moved. -/
def State.RefsMoved (s t : State) : Prop :=
  ∀ i, ∃ f : Nat → Nat, t.element i = (s.element i).map fun e => { e with refs := f e.refs }

theorem State.RefsMoved.of_eq {s t : State} (h : ∀ i, t.element i = s.element i) : s.RefsMoved t := fun i => ⟨id, by simp [h]⟩

theorem State.refsMoved_settleBank (b : BankId) : s.RefsMoved (s.settleBank b) := by
  rcases s.settleBank_cases b with h | ⟨-, -, h⟩
  · rw [h]
    exact .of_eq fun _ => rfl
  · rw [h]
    exact fun i => ⟨fun n => n - (s.bank b).naming i, by rw [State.report_element, State.element_emptyBank]⟩

theorem State.refsMoved_closeEntry (r : EntryRef) (status : EntryStatus) (dated : Dated) (ageLimit clamped : Bool)
    (result : Option MatchResult) : s.RefsMoved (s.closeEntry r status dated ageLimit clamped result) := by
  cases h : s.entry r with
  | none =>
    unfold State.closeEntry
    rw [h]
    exact .of_eq fun _ => rfl
  | some e =>
    rw [s.closeEntry_eq h]
    intro i
    obtain ⟨f, hf⟩ := State.refsMoved_settleBank _ r.bank i
    refine ⟨f, hf.trans ?_⟩
    rw [State.offer_element, State.entryClosed, State.setOpenList_element, State.setEntry, State.setBank_element]

theorem State.refsMoved_clearing (c : Change) : s.RefsMoved (s.clearing c) := by
  unfold State.clearing
  split
  · split
    · split
      · exact s.refsMoved_closeEntry _ _ _ _ _ _
      · exact .of_eq fun _ => rfl
    · exact .of_eq fun i => s.offer_element _ i
  · exact .of_eq fun _ => rfl

/-- The accepted record as it stands after the supervisor and the checker (R34, R85, R112). -/
theorem State.element_accept (p : PortId) (i : Nat) (e : Element) (k : Candidate) : ∃ e' sup stats refs,
    (s.accept p i e k).element i = some e' ∧
      e' = { s.acceptedRecord p i e k with sup := sup, stats := stats, refs := refs } := by
  obtain ⟨e₁, he₁, hmoves⟩ := State.element_superviseChange
    (s.storeChange i (s.acceptedRecord p i e k) (s.acceptedChange p i e k) k.undefinedCode)
    (s.element_storeChange i _ _ _) (c := s.acceptedChange p i e k) rfl
  rw [State.accept_eq]
  dsimp only
  split
  · obtain ⟨f, hf⟩ := State.refsMoved_clearing ((s.storeChange i (s.acceptedRecord p i e k) (s.acceptedChange p i e k)
      k.undefinedCode).superviseChange (s.acceptedRecord p i e k) (s.acceptedChange p i e k)) (s.acceptedChange p i e k) i
    refine ⟨_, e₁.sup, e₁.stats, f e₁.refs, by rw [hf, he₁]; rfl, ?_⟩
    rw [hmoves]
  · exact ⟨e₁, e₁.sup, e₁.stats, (s.acceptedRecord p i e k).refs, he₁, hmoves⟩

/-- The changes that the selection names (R35). -/
theorem selects_iff (e : Element) (old : Option Nat) (new : Nat) : selects e old new = true ↔
    old = none ∨ e.loaded.selection = .all ∨ (e.loaded.selection = .toStop ∧ new = 0) ∨
      (e.loaded.selection = .toProceed ∧ old = some 0 ∧ 1 ≤ new ∧ new ≤ 13) := by
  unfold selects
  cases old with
  | none => simp
  | some o => cases e.loaded.selection <;> simp [isProceed]

theorem isClearing_iff (e : Element) (c : Change) : isClearing e c = true ↔
    e.loaded.kind = .signal ∧ e.loaded.timetabled = true ∧ c.old = some 0 ∧ 1 ≤ c.new ∧ c.new ≤ 13 := by
  simp [isClearing, isProceed, and_assoc]

/-- The levels of the records written for an element depend on its override and the class table alone (R105). -/
theorem State.elementLevel_congr {s t : State} {e e' : Element} (hl : e'.loaded = e.loaded) (hc : t.levelOf = s.levelOf)
    (c : JournalClass) : t.elementLevel e' c = s.elementLevel e c := by
  rw [State.elementLevel, State.elementLevel, hl, hc]

theorem State.levelOf_setElement_offer (i : Nat) (e : Element) (o : Offer) : ((s.setElement i e).offer o).levelOf = s.levelOf := by
  funext c
  rw [State.levelOf_offer]
  rfl

theorem State.levelOf_storeChange (i : Nat) (e : Element) (c : Change) (undef : Bool) :
    (s.storeChange i e c undef).levelOf = s.levelOf := by
  unfold State.storeChange
  split
  · exact s.levelOf_setElement_offer i e _
  · rfl

/-- Settles O27: the report at K, the record that it leaves, and the change handed to the journal, the supervisor and the checker. -/
theorem acceptanceDatesTheChange : Obligations.AcceptanceDatesTheChange := by
  refine ⟨fun s p i e r h => ⟨fun c hc hstate hcount => ?_, fun hc hcount => ?_⟩, fun s p i e k => ?_,
    fun s p i e e' k c back t v hback he' hc hselected hother hv => ?_⟩
  · rw [s.takeReport_other p i h (nextCandidate_same (e := e.reported r.code) hc hstate _ r)]
    exact if_pos hcount
  · rw [s.takeReport_other p i h (nextCandidate_other (e := e.reported r.code) hc _ r)]
    exact if_pos hcount
  · obtain ⟨e', sup, stats, refs, hstored, heq⟩ := s.element_accept p i e k
    refine ⟨e', hstored, ?_⟩
    rw [heq]
    exact ⟨rfl, rfl, rfl, rfl, rfl, rfl⟩
  · have hrecord : s.acceptedRecord p i e k = e' := by
      rw [he', hback]
      rfl
    have hchange : s.acceptedChange p i e k = c := by
      rw [hc, hback]
      rfl
    have hloaded : e'.loaded = e.loaded := by rw [he']
    obtain ⟨hold, hnew⟩ : c.old = e.accepted ∧ c.new = k.state := by
      rw [hc]
      exact ⟨rfl, rfl⟩
    have hstore : s.storeChange i e' c k.undefinedCode = t := by
      unfold State.storeChange
      by_cases hsel : selects e' c.old c.new = true
      · rw [if_pos hsel]
        rw [selects_iff, hloaded, hold, hnew] at hsel
        rw [hselected hsel, State.elementLevel_congr (s := s) (t := s.setElement i e') hloaded rfl, hc]
        rfl
      · rw [if_neg hsel]
        rw [selects_iff, hloaded, hold, hnew] at hsel
        exact (hother hsel).symm
    have hlevel : t.elementLevel e' .movement = s.elementLevel e .movement :=
      State.elementLevel_congr hloaded (by rw [← hstore, State.levelOf_storeChange]) _
    have hindex : c.element = i := by rw [hc]
    have haccept : s.accept p i e k =
        if isClearing e' c then (t.superviseChange e' c).clearing c else t.superviseChange e' c := by
      rw [State.accept_eq]
      dsimp only
      rw [hrecord, hchange, hstore]
    have hclearing := isClearing_iff e' c
    rw [hloaded, hold, hnew] at hclearing
    have hquiet (h : ¬ (e.loaded.kind = .signal ∧ e.loaded.timetabled = true ∧ e.accepted = some 0 ∧ 1 ≤ k.state ∧ k.state ≤ 13)) :
        s.accept p i e k = t.superviseChange e' c := by rw [haccept, if_neg (mt hclearing.1 h)]
    have hsignal (h : e.loaded.kind = .signal) : t.superviseChange e' c = v := by
      rw [State.superviseChange, hloaded, h, hlevel, hindex, hv]
    refine ⟨fun hkind => ?_, fun hkind => ?_, fun hkind => ⟨fun h1 h2 h3 h4 => ?_, fun h => ?_⟩⟩
    · rw [hquiet (by rw [hkind]; exact fun h => nomatch h.1), State.superviseChange, hloaded, hkind]
    · rw [hquiet (by rw [hkind]; exact fun h => nomatch h.1), State.superviseChange, hloaded, hkind, hlevel, hindex]
    · rw [haccept, if_pos (hclearing.2 ⟨hkind, h1, h2, h3, h4⟩), hsignal hkind]
    · rw [hquiet, hsignal hkind]
      rintro ⟨-, h1, h2, h3, h4⟩
      rcases h with h | h | h | h
      · rw [h] at h1
        cases h1
      · exact h h2
      · omega
      · omega

/-! ## Commands (R37) -/

theorem inCommandSet_table (code : Nat) : (inCommandSet .point code = true ↔ code = 1 ∨ code = 2) ∧
    (inCommandSet .signal code = true ↔ code ≤ 13) ∧ inCommandSet .other code = true := by
  simp [inCommandSet, isEnd]

theorem State.levelOf_storeCommand (i : Nat) (e : Element) (code : Nat) (c : Capture) :
    (s.storeCommand i e code c).levelOf = s.levelOf := by
  unfold State.storeCommand
  split
  · exact s.levelOf_setElement_offer i _ _
  · rfl

/-- Settles O28: the command set, the record that a command reaches, and what it makes of it. -/
theorem commandTelegramsReachTheRecord : Obligations.CommandTelegramsReachTheRecord := by
  refine ⟨inCommandSet_table, fun s p a code c => ⟨fun i e ha he => s.trackCommand_present ha he code c, fun h =>
    s.trackCommand_unmapped h code c⟩, fun s i code e c => ?_⟩
  intro e' t
  have hstore : s.storeCommand i e code c = t := by
    unfold State.storeCommand
    by_cases h : e.loaded.dateCommands = true ∧ e.lastCommand ≠ some code
    · exact (if_pos (by simpa using h)).trans (if_pos h).symm
    · exact (if_neg (by simpa using h)).trans (if_neg h).symm
  have hlevel : t.elementLevel e' .movement = s.elementLevel e .movement :=
    State.elementLevel_congr rfl (by rw [← hstore, State.levelOf_storeCommand]) _
  obtain ⟨hpoint, hsignal, -⟩ := inCommandSet_table code
  refine ⟨fun h => ?_, fun hfresh hcode hkind => ?_, fun hfresh hcode hkind => ?_⟩
  · rw [s.takeCommand_unsupervised h, hstore]
  · rw [s.takeCommand_point hfresh (by rw [hkind]; exact hpoint.2 hcode) hkind, hstore, ← hlevel]
    rfl
  · rw [s.takeCommand_signal hfresh (by rw [hkind]; exact hsignal.2 hcode) hkind, hstore, ← hlevel]
    rfl

end Sys2Proof.Machine
end

