-- ==== Sys2Proof/Proofs/LoadElement.lean ====
section
/-! PROOFS. Sys2Proof/Proofs/LoadElement.lean: LOAD ELEMENT in its two forms (R30, R40 to R42, R186). -/

namespace Sys2Proof.Machine

/-! ## Codes -/

@[simp] theorem Kind.ofCode_code (kind : Kind) : Kind.ofCode kind.code.toNat = some kind := by
  cases kind <;> rfl

@[simp] theorem Selection.ofCode_code (selection : Selection) : Selection.ofCode selection.code.toNat = some selection := by
  cases selection <;> rfl

theorem Kind.ofCode_some {n : Nat} {kind : Kind} (h : Kind.ofCode n = some kind) : n = kind.code.toNat := by
  unfold Kind.ofCode at h
  split at h <;> cases h <;> rfl

theorem Kind.ofCode_none {n : Nat} (h : n = 0 ∨ 3 < n) : Kind.ofCode n = none := by
  unfold Kind.ofCode
  split
  case h_4 => rfl
  all_goals omega

theorem Selection.ofCode_none {n : Nat} (h : 3 < n) : Selection.ofCode n = Option.none := by
  unfold Selection.ofCode
  split
  case h_5 => rfl
  all_goals omega

theorem Kind.exists_ofCode {n : Nat} (hlow : 1 ≤ n) (hhigh : n ≤ 3) : ∃ kind, Kind.ofCode n = some kind := by
  interval_cases n <;> exact ⟨_, rfl⟩

theorem Selection.exists_ofCode {n : Nat} (h : n ≤ 3) : ∃ selection, Selection.ofCode n = some selection := by
  interval_cases n <;> exact ⟨_, rfl⟩

/-- The flags octet of the 11-octet form, bit by bit (R186). -/
theorem loadFlags_bits (a b c : Bool) :
    (BitVec.ofNat 8 (a.toNat + 2 * b.toNat + 4 * c.toNat)).getLsbD 0 = a ∧
    (BitVec.ofNat 8 (a.toNat + 2 * b.toNat + 4 * c.toNat)).getLsbD 1 = b ∧
    (BitVec.ofNat 8 (a.toNat + 2 * b.toNat + 4 * c.toNat)).getLsbD 2 = c := by
  revert a b c
  decide

/-! ## Fields as taken (R40, R186) -/

theorem takeOrDefault_changed (lo hi step default raw : Nat) :
    (takeOrDefault lo hi step default raw).changed = false ↔ raw = 0 ∨ (takeOrDefault lo hi step default raw).value = raw := by
  unfold takeOrDefault
  split
  · simp [*]
  · simp [takeSetting, *]

/-- K as taken (R30). -/
theorem takeConfirm (raw : Nat) :
    takeOrDefault 1 4 1 2 raw = ⟨if raw = 0 then 2 else min 4 raw, decide (4 < raw)⟩ := by
  unfold takeOrDefault
  split
  · simp [*]
  · rw [takeSetting_unit 1 4 raw (by omega), Taken.mk.injEq, Bool.eq_iff_iff, bne_iff_ne, decide_eq_true_iff]
    omega

/-- The override level as taken (R40). -/
theorem takeOverride (raw : Nat) : takeSetting 0 7 1 raw = ⟨min 7 raw, decide (7 < raw)⟩ := by
  rw [takeSetting_unit 0 7 raw (by omega), Taken.mk.injEq, Bool.eq_iff_iff, bne_iff_ne, decide_eq_true_iff]
  omega

/-- A limit or a threshold as taken. -/
theorem takeLimit (lo hi default raw : Nat) (h : lo ≤ hi) :
    (takeOrDefault lo hi 100 default raw).value = if raw = 0 then default else (max lo (min hi raw) + 50) / 100 * 100 := by
  unfold takeOrDefault
  split
  · rfl
  · rw [takeSetting_eq lo hi 100 raw h]
    dsimp only
    omega

theorem ignoredGiven_iff (default raw : Nat) : ignoredGiven default raw = false ↔ raw = 0 ∨ raw = default := by
  simp [ignoredGiven, Decidable.or_iff_not_imp_left]

theorem takeFields_kind (kind : Kind) (g : GivenFields) : (takeFields kind g).loaded.kind = kind := by
  cases kind <;> rfl

/-- The loaded fields of a kind: what the kind has as given, clamped and rounded, and the rest at its default (R40). -/
theorem takeFields_loaded (kind : Kind) (g : GivenFields) {limit threshold proving : Nat}
    (hlimit : limit = if g.first = 0 then 8000 else (max 500 (min 30000 g.first) + 50) / 100 * 100)
    (hthreshold : threshold = if g.slow = 0 then 6000 else (max 500 (min 30000 g.slow) + 50) / 100 * 100)
    (hproving : proving = if g.first = 0 then 1500 else (max 100 (min 5000 g.first) + 50) / 100 * 100) :
    (takeFields kind g).loaded =
      { kind := kind, confirm := if g.confirm = 0 then 2 else min 4 g.confirm,
        selection := if kind = .point then .all else g.selection, dateCommands := g.dateCommands, timetabled := g.timetabled,
        override := g.override.map fun v => min 7 v,
        operateLimit := if kind = .point then limit else 8000,
        slowThreshold := if kind = .point then min threshold limit else 6000,
        provingLimit := if kind = .signal then proving else 1500 } := by
  have hoverride : (g.override.map fun _ => min 7 (g.override.getD 0)) = g.override.map fun v => min 7 v := by
    cases g.override <;> rfl
  rw [hlimit, hthreshold, hproving]
  cases kind with
  | point => simp [takeFields, takePoint, takeConfirm, takeOverride, takeLimit, hoverride]
  | signal => simp [takeFields, takeSignal, takeConfirm, takeOverride, takeLimit, hoverride]
  | other => simp [takeFields, takeOther, takeConfirm, takeOverride, hoverride]

theorem overrideKept_iff (override : Option Nat) : decide (7 < override.getD 0) = false ↔ ∀ v ∈ override, v ≤ 7 := by
  cases override <;> simp

/-- DONE needs that nothing was clamped, rounded, replaced or ignored (R186). -/
theorem takePoint_changed (g : GivenFields) {limit threshold : Nat}
    (hlimit : limit = if g.first = 0 then 8000 else (max 500 (min 30000 g.first) + 50) / 100 * 100)
    (hthreshold : threshold = if g.slow = 0 then 6000 else (max 500 (min 30000 g.slow) + 50) / 100 * 100) :
    (takeFields .point g).changed = false ↔ g.confirm ≤ 4 ∧ (∀ v ∈ g.override, v ≤ 7) ∧
      g.selection = .all ∧ (g.first = 0 ∨ limit = g.first) ∧ (g.slow = 0 ∨ threshold = g.slow) ∧ threshold ≤ limit := by
  rw [hlimit, hthreshold, ← takeLimit 500 30000 _ _ (by omega), ← takeLimit 500 30000 _ _ (by omega), ← takeOrDefault_changed,
    ← takeOrDefault_changed, ← overrideKept_iff]
  simp only [takeFields, takePoint, takeConfirm, takeOverride, Bool.or_eq_false_iff, decide_eq_false_iff_not, bne_eq_false_iff_eq,
    Nat.not_lt]
  tauto

theorem takeSignal_changed (g : GivenFields) {proving : Nat}
    (hproving : proving = if g.first = 0 then 1500 else (max 100 (min 5000 g.first) + 50) / 100 * 100) :
    (takeFields .signal g).changed = false ↔ g.confirm ≤ 4 ∧ (∀ v ∈ g.override, v ≤ 7) ∧
      (g.first = 0 ∨ proving = g.first) ∧ (g.slow = 0 ∨ g.slow = 6000) := by
  rw [hproving, ← takeLimit 100 5000 _ _ (by omega), ← takeOrDefault_changed, ← overrideKept_iff, ← ignoredGiven_iff]
  simp only [takeFields, takeSignal, takeConfirm, takeOverride, Bool.or_eq_false_iff, decide_eq_false_iff_not, Nat.not_lt]
  tauto

theorem takeOther_changed (g : GivenFields) :
    (takeFields .other g).changed = false ↔ g.confirm ≤ 4 ∧ (∀ v ∈ g.override, v ≤ 7) ∧
      (g.first = 0 ∨ g.first = Config.otherFirstLimit) ∧ (g.slow = 0 ∨ g.slow = 6000) := by
  rw [← overrideKept_iff, ← ignoredGiven_iff, ← ignoredGiven_iff]
  simp only [takeFields, takeOther, takeConfirm, takeOverride, Bool.or_eq_false_iff, decide_eq_false_iff_not, Nat.not_lt]
  tauto

theorem breaksKind_iff (kind : Kind) (g : GivenFields) : breaksKind kind g = true ↔
    (g.timetabled = true ∧ kind ≠ .signal) ∨ (kind = .other ∧ (g.selection = .toStop ∨ g.selection = .toProceed)) := by
  simp [breaksKind]

/-! ## A present record (R41, R42) -/

section Rewrite

variable {e : Element} {l : Loaded} {silent : Bool}

theorem rewriteElement_busy (h : e.sup ≠ .idle) : rewriteElement e l silent = .error .busy :=
  if_pos ((Supervision.active_iff e.sup).2 h)

theorem rewriteElement_unsupervised (h : e.sup = .idle) : rewriteElement e l silent =
    if e.loaded.kind = l.kind then
      if e.loaded.kind = .signal ∧ e.loaded.timetabled = true ∧ l.timetabled = false ∧ 0 < e.refs then .error .inUse
      else .ok { e with loaded := l }
    else if 0 < e.refs then .error .inUse
    else .ok (freshElement l silent) :=
  if_neg (by rw [Supervision.active_iff, not_not]; exact h)

theorem rewriteElement_sameKind (h : e.sup = .idle) (hkind : e.loaded.kind = l.kind)
    (hrefs : l.kind = .signal → e.loaded.timetabled = true → l.timetabled = false → e.refs = 0) :
    rewriteElement e l silent = .ok { e with loaded := l } := by
  rw [rewriteElement_unsupervised h, if_pos hkind, if_neg]
  rintro ⟨hsignal, ht, hl, hpos⟩
  exact Nat.ne_of_gt hpos (hrefs (hkind ▸ hsignal) ht hl)

theorem rewriteElement_referenced (h : e.sup = .idle) (hkind : e.loaded.kind = l.kind) (hsignal : l.kind = .signal)
    (ht : e.loaded.timetabled = true) (hl : l.timetabled = false) (hrefs : 0 < e.refs) :
    rewriteElement e l silent = .error .inUse := by
  rw [rewriteElement_unsupervised h, if_pos hkind, if_pos ⟨hkind.trans hsignal, ht, hl, hrefs⟩]

theorem rewriteElement_otherReferenced (h : e.sup = .idle) (hkind : e.loaded.kind ≠ l.kind) (hrefs : 0 < e.refs) :
    rewriteElement e l silent = .error .inUse := by
  rw [rewriteElement_unsupervised h, if_neg hkind, if_pos hrefs]

theorem rewriteElement_otherKind (h : e.sup = .idle) (hkind : e.loaded.kind ≠ l.kind) (hrefs : e.refs = 0) :
    rewriteElement e l silent = .ok (freshElement l silent) := by
  rw [rewriteElement_unsupervised h, if_neg hkind, if_neg (by omega)]

end Rewrite

/-! ## The load -/

variable (s : State)

theorem State.loadElement_breaks (i : Nat) {kind : Kind} {g : GivenFields} (h : breaksKind kind g = true) :
    s.loadElement i kind g = refuse s .kind := if_pos h

theorem State.loadElement_absent {i : Nat} {kind : Kind} {g : GivenFields} (h : breaksKind kind g = false) (he : s.element i = none) :
    s.loadElement i kind g = answerTaken (s.setElement i (freshElement (takeFields kind g).loaded (s.silentPortOf i)))
      (takeFields kind g).changed (kind.code :: (takeFields kind g).loaded.octets) := by
  simp [State.loadElement, h, he]

theorem State.loadElement_rewritten {i : Nat} {kind : Kind} {g : GivenFields} {e e' : Element} (h : breaksKind kind g = false)
    (he : s.element i = some e) (hr : rewriteElement e (takeFields kind g).loaded (s.silentPortOf i) = .ok e') :
    s.loadElement i kind g =
      answerTaken (s.setElement i e') (takeFields kind g).changed (kind.code :: (takeFields kind g).loaded.octets) := by
  simp [State.loadElement, h, he, hr]

theorem State.loadElement_refused {i : Nat} {kind : Kind} {g : GivenFields} {e : Element} {reason : Reason}
    (h : breaksKind kind g = false) (he : s.element i = some e)
    (hr : rewriteElement e (takeFields kind g).loaded (s.silentPortOf i) = .error reason) :
    s.loadElement i kind g = refuse s reason := by
  simp [State.loadElement, h, he, hr]

/-! ## The request -/

/-- The 3-octet form. -/
theorem reqLoadElement_short {i : Nat} (hi : i ≤ 2047) (kind : Kind) :
    reqLoadElement (be 2 i ++ [kind.code]) s = s.loadElement i kind .defaults := by
  simp only [be_two, List.cons_append, List.nil_append, reqLoadElement, Kind.ofCode_code, ofBe_two (show i < 65536 by omega)]
  exact if_neg (by omega)

/-- The fields that the 11-octet form gives. -/
def givenFields (confirm override : Byte) (selection : Selection) (dateCommands timetabled given : Bool) (first slow : Nat) :
    GivenFields where
  confirm := confirm.toNat
  selection := selection
  dateCommands := dateCommands
  timetabled := timetabled
  override := if given then some override.toNat else none
  first := first
  slow := slow

theorem reqLoadElement_long {i first slow : Nat} (hi : i ≤ 2047) (hfirst : first < 65536) (hslow : slow < 65536) (kind : Kind)
    (confirm override : Byte) (selection : Selection) (dateCommands timetabled given : Bool) :
    reqLoadElement (be 2 i ++ [kind.code, confirm, selection.code,
        BitVec.ofNat 8 (dateCommands.toNat + 2 * timetabled.toNat + 4 * given.toNat), override] ++ be 2 first ++ be 2 slow) s =
      s.loadElement i kind (givenFields confirm override selection dateCommands timetabled given first slow) := by
  obtain ⟨hdate, htimetabled, hgiven⟩ := loadFlags_bits dateCommands timetabled given
  simp only [be_two, List.cons_append, List.nil_append, reqLoadElement, Kind.ofCode_code, Selection.ofCode_code,
    ofBe_two (show i < 65536 by omega), ofBe_two hfirst, ofBe_two hslow, hdate, htimetabled, hgiven]
  exact if_neg (by omega)

theorem reqLoadElement_short_range {i1 i0 kind : Byte} (h : 2047 < ofBe [i1, i0] ∨ kind.toNat = 0 ∨ 3 < kind.toNat) :
    reqLoadElement [i1, i0, kind] s = refuse s .range := by
  simp only [reqLoadElement]
  rcases hk : Kind.ofCode kind.toNat with _ | k
  · rfl
  · refine if_pos (h.resolve_right fun h => ?_)
    rw [Kind.ofCode_none h] at hk
    cases hk

theorem reqLoadElement_long_range {i1 i0 kind confirm selection flags override f1 f0 t1 t0 : Byte}
    (h : 2047 < ofBe [i1, i0] ∨ kind.toNat = 0 ∨ 3 < kind.toNat ∨ 3 < selection.toNat) :
    reqLoadElement [i1, i0, kind, confirm, selection, flags, override, f1, f0, t1, t0] s = refuse s .range := by
  simp only [reqLoadElement]
  rcases hk : Kind.ofCode kind.toNat with _ | k
  · rfl
  · rcases hx : Selection.ofCode selection.toNat with _ | x
    · rfl
    · refine if_pos (h.resolve_right ?_)
      rintro (h | h | h)
      · rw [Kind.ofCode_none (.inl h)] at hk
        cases hk
      · rw [Kind.ofCode_none (.inr h)] at hk
        cases hk
      · rw [Selection.ofCode_none h] at hx
        cases hx

theorem reqLoadElement_long_kind {i1 i0 kind confirm selection flags override f1 f0 t1 t0 : Byte}
    (hi : ofBe [i1, i0] ≤ 2047) (hlow : 1 ≤ kind.toNat) (hhigh : kind.toNat ≤ 3) (hselection : selection.toNat ≤ 3)
    (h : (flags.getLsbD 1 = true ∧ kind.toNat ≠ 2) ∨ (kind.toNat = 3 ∧ (selection.toNat = 1 ∨ selection.toNat = 2))) :
    reqLoadElement [i1, i0, kind, confirm, selection, flags, override, f1, f0, t1, t0] s = refuse s .kind := by
  obtain ⟨k, hk⟩ := Kind.exists_ofCode hlow hhigh
  obtain ⟨x, hx⟩ := Selection.exists_ofCode hselection
  have hbreaks : (flags.getLsbD 1 = true ∧ k ≠ .signal) ∨ (k = .other ∧ (x = .toStop ∨ x = .toProceed)) := by
    rcases h with ⟨hflag, hsignal⟩ | ⟨hother, hstop⟩
    · refine .inl ⟨hflag, fun h => hsignal ?_⟩
      rw [Kind.ofCode_some hk, h]
      rfl
    · rw [hother] at hk
      refine .inr ⟨(Option.some.inj hk).symm, hstop.imp (fun h => ?_) fun h => ?_⟩
      · rw [h] at hx
        exact (Option.some.inj hx).symm
      · rw [h] at hx
        exact (Option.some.inj hx).symm
  simp only [reqLoadElement, hk, hx]
  rw [if_neg (by omega)]
  exact s.loadElement_breaks _ ((breaksKind_iff _ _).2 hbreaks)

/-- The fields of the 3-octet form: every default, and nothing changed (R30). -/
theorem takeFields_defaults (kind : Kind) : takeFields kind .defaults =
    ⟨{ kind := kind, confirm := 2, selection := .all, dateCommands := false, timetabled := false, override := none,
       operateLimit := 8000, slowThreshold := 6000, provingLimit := 1500 }, false⟩ := by
  cases kind <;> rfl

/-- What the request answers on a present record `e`, where it loads `l`: the record stands first, kept or made anew (R41, R42). -/
structure State.LoadsOver (s : State) (r : Request) (i : Nat) (e : Element) (l : Loaded) (a : Reply) : Prop where
  busy : e.sup ≠ .idle → exec (.loadElement r) s = .next ((s.taking 21 r).respond 21 r (.refused .busy))
  kept : e.sup = .idle → e.loaded.kind = l.kind →
    (l.kind = .signal → e.loaded.timetabled = true → l.timetabled = false → e.refs = 0) →
    exec (.loadElement r) s = .next (((s.taking 21 r).setElement i { e with loaded := l }).respond 21 r a)
  referenced : e.sup = .idle → e.loaded.kind = l.kind → l.kind = .signal → e.loaded.timetabled = true → l.timetabled = false →
    0 < e.refs → exec (.loadElement r) s = .next ((s.taking 21 r).respond 21 r (.refused .inUse))
  otherReferenced : e.sup = .idle → e.loaded.kind ≠ l.kind → 0 < e.refs →
    exec (.loadElement r) s = .next ((s.taking 21 r).respond 21 r (.refused .inUse))
  anew : e.sup = .idle → e.loaded.kind ≠ l.kind → e.refs = 0 →
    exec (.loadElement r) s = .next (((s.taking 21 r).setElement i (freshElement l (s.silentPortOf i))).respond 21 r a)

section Request

variable {s} {r : Request} {i : Nat} {kind : Kind} {g : GivenFields} (hs : s.ready)
  (hrequest : reqLoadElement r.params (s.taking 21 r) = (s.taking 21 r).loadElement i kind g) (hfits : breaksKind kind g = false)

include hs hrequest hfits

theorem exec_loadElement_absent (he : s.element i = none) : exec (.loadElement r) s =
    .next (((s.taking 21 r).setElement i (freshElement (takeFields kind g).loaded (s.silentPortOf i))).respond 21 r
      (taken (takeFields kind g).changed (kind.code :: (takeFields kind g).loaded.octets))) :=
  s.next_serve hs 21 r (hrequest.trans ((s.taking 21 r).loadElement_absent hfits he))

theorem State.loadsOver {e : Element} (he : s.element i = some e) : s.LoadsOver r i e (takeFields kind g).loaded
    (taken (takeFields kind g).changed (kind.code :: (takeFields kind g).loaded.octets)) where
  busy h := s.next_serve hs 21 r (hrequest.trans (State.loadElement_refused _ hfits he (rewriteElement_busy h)))
  kept h hkind hrefs :=
    s.next_serve hs 21 r (hrequest.trans (State.loadElement_rewritten _ hfits he (rewriteElement_sameKind h hkind hrefs)))
  referenced h hkind hsignal ht hl hrefs :=
    s.next_serve hs 21 r (hrequest.trans (State.loadElement_refused _ hfits he (rewriteElement_referenced h hkind hsignal ht hl hrefs)))
  otherReferenced h hkind hrefs :=
    s.next_serve hs 21 r (hrequest.trans (State.loadElement_refused _ hfits he (rewriteElement_otherReferenced h hkind hrefs)))
  anew h hkind hrefs :=
    s.next_serve hs 21 r (hrequest.trans (State.loadElement_rewritten _ hfits he (rewriteElement_otherKind h hkind hrefs)))

end Request

/-- Settles O23: the 3-octet form on an empty and on a present record, the 11-octet form, and the codes that are refused. -/
theorem loadElementGivesDefaults : Obligations.LoadElementGivesDefaults := by
  have hdefaults (kind : Kind) : breaksKind kind .defaults = false := by cases kind <;> rfl
  refine ⟨fun s r i kind hs hi he hp => ?_, fun s r i kind e l a hs hi he hp ha hl => ?_,
    fun s r i kind confirm override selection dateCommands timetabled given first slow limit threshold proving l fresh hs hi hfirst
      hslow hp htimetabled hother hlimit hthreshold hproving hl hfresh => ?_,
    fun s r i1 i0 kind hs hp h => s.next_serve hs 21 r ?_,
    fun s r i1 i0 kind confirm selection flags override f1 f0 t1 t0 hs hp =>
      ⟨fun h => s.next_serve hs 21 r ?_, fun hi hlow hhigh hselection h => s.next_serve hs 21 r ?_⟩⟩
  · have hrequest := (congrArg (reqLoadElement · (s.taking 21 r)) hp).trans (reqLoadElement_short _ hi kind)
    have hexec := exec_loadElement_absent hs hrequest (hdefaults kind) he
    rw [takeFields_defaults] at hexec
    refine ⟨(s.taking 21 r).setElement i (freshElement _ (s.silentPortOf i)), hexec.trans ?_,
      State.element_setElement_same _ i _, fun j hj => State.element_setElement_other _ i j _ hj, rfl⟩
    cases kind <;> rfl
  · have hrequest := (congrArg (reqLoadElement · (s.taking 21 r)) hp).trans (reqLoadElement_short _ hi kind)
    have hover := State.loadsOver hs hrequest (hdefaults kind) he
    have hanswer : taken false (kind.code :: l.octets) = a := by
      rw [ha, hl]
      cases kind <;> rfl
    rw [takeFields_defaults, ← hl, hanswer] at hover
    have hkind : l.kind = kind := by rw [hl]
    have hplain : l.timetabled = false := by rw [hl]
    obtain ⟨busy, kept, referenced, otherReferenced, anew⟩ := hover
    rw [hkind] at kept referenced otherReferenced anew
    exact ⟨busy, fun h hk hrefs => kept h hk fun hsignal ht _ => hrefs hsignal ht, fun h hk hsignal ht =>
      referenced h hk hsignal ht hplain, otherReferenced, anew⟩
  · obtain ⟨g, hg⟩ : ∃ g, g = givenFields confirm override selection dateCommands timetabled given first slow := ⟨_, rfl⟩
    have hrequest : reqLoadElement r.params (s.taking 21 r) = (s.taking 21 r).loadElement i kind g := by
      rw [hp, hg, reqLoadElement_long _ hi hfirst hslow]
    have hfits : breaksKind kind g = false := by
      rw [← Bool.not_eq_true, breaksKind_iff, hg]
      rintro (⟨ht, hkind⟩ | ⟨hkind, hstop⟩)
      · exact hkind (htimetabled ht)
      · rcases hother hkind with h | h <;> simp [givenFields, h] at hstop
    have hloaded : (takeFields kind g).loaded = l := by
      rw [takeFields_loaded kind g (limit := limit) (threshold := threshold) (proving := proving) (by rw [hlimit, hg]; rfl)
        (by rw [hthreshold, hg]; rfl) (by rw [hproving, hg]; rfl), hl, hg]
      cases given <;> rfl
    have hkind : l.kind = kind := by rw [hl]
    have htimed : l.timetabled = timetabled := by rw [hl]
    have hnew : fresh = freshElement l (s.silentPortOf i) := hfresh
    refine ⟨(takeFields kind g).changed, ?_, fun he => ?_, fun e he => ?_⟩
    · have hover : (∀ v ∈ g.override, v ≤ 7) ↔ (given = true → override.toNat ≤ 7) := by
        rw [hg]
        cases given <;> simp [givenFields]
      rw [← hover]
      cases kind with
      | point =>
        rw [takePoint_changed g (limit := limit) (threshold := threshold) (by rw [hlimit, hg]; rfl) (by rw [hthreshold, hg]; rfl), hg]
        rfl
      | signal =>
        rw [takeSignal_changed g (proving := proving) (by rw [hproving, hg]; rfl), hg]
        rfl
      | other =>
        rw [takeOther_changed g, hg]
        rfl
    · rw [exec_loadElement_absent hs hrequest hfits he, hloaded, hnew]
    · obtain ⟨busy, kept, referenced, otherReferenced, anew⟩ := State.loadsOver hs hrequest hfits he
      rw [hloaded, hkind, htimed] at kept referenced
      rw [hloaded, hkind] at otherReferenced anew
      rw [← hnew] at anew
      exact ⟨busy, kept, referenced, otherReferenced, anew⟩
  · rw [hp, reqLoadElement_short_range _ h, refuse]
  · rw [hp, reqLoadElement_long_range _ h, refuse]
  · rw [hp, reqLoadElement_long_kind _ hi hlow hhigh hselection h, refuse]

end Sys2Proof.Machine
end

