-- ==== Sys2Proof/Proofs/ResetTables.lean ====
section
/-! PROOFS. Sys2Proof/Proofs/ResetTables.lean: the three steps of RESET TABLES, and how they follow one another (R47, R101, R129, R181). -/

namespace Sys2Proof.Machine

variable (s : State)

/-! ## The first step: every supervision closes (R101) -/

theorem State.abandonSupervision_absent {i : Nat} (h : s.element i = none) : s.abandonSupervision i = s := by
  rw [State.abandonSupervision, h]

theorem State.abandonSupervision_active {i : Nat} {e : Element} (he : s.element i = some e) (hsup : e.sup ≠ .idle) :
    s.abandonSupervision i = (s.withRecord (s.elementLevel e .movement)
      (.movementOutcome i .abandoned (e.sup.target.getD 0) none none)).setElement i { e with sup := .idle } := by
  rw [State.abandonSupervision, he]
  dsimp only
  unfold endSupervision State.applySupervised
  cases h : e.sup with
  | idle => exact absurd h hsup
  | _ => rfl

theorem State.element_abandonSupervision (i j : Nat) :
    (s.abandonSupervision i).element j = if j = i then (s.element j).map fun e => { e with sup := .idle } else s.element j := by
  cases he : s.element i with
  | none =>
    rw [s.abandonSupervision_absent he]
    split
    · rename_i hj
      rw [hj, he]
      rfl
    · rfl
  | some e =>
    rw [State.abandonSupervision, he]
    dsimp only
    rw [State.applySupervised_eq, State.setJournal_element]
    split
    · rename_i hj
      rw [hj, he, State.element_setElement_same]
      unfold endSupervision
      cases hsup : e.sup with
      | idle => exact congrArg some (show e = { e with sup := .idle } by rw [← hsup])
      | _ => rfl
    · rename_i hj
      exact State.element_setElement_other _ i j _ hj

theorem State.element_foldl_abandonSupervision (l : List Nat) (j : Nat) : (l.foldl State.abandonSupervision s).element j =
    if j ∈ l then (s.element j).map fun e => { e with sup := .idle } else s.element j := by
  induction l generalizing s with
  | nil => simp
  | cons i l ih =>
    rw [List.foldl_cons, ih, State.element_abandonSupervision]
    by_cases hj : j = i
    · subst hj
      cases s.element j <;> simp
    · simp [hj]

/-- Every record returns to IDLE: one that the step passes over was IDLE before (R101). -/
theorem State.element_abandonAll (j : Nat) : s.abandonAll.element j = (s.element j).map fun e => { e with sup := .idle } := by
  unfold State.abandonAll
  rw [State.element_foldl_abandonSupervision]
  split
  · rfl
  · rename_i hj
    cases he : s.element j with
    | none => rfl
    | some e =>
      have hsup : e.sup = .idle := by
        by_contra h
        exact hj (List.mem_map.2 ⟨(j, e), List.mem_filter.2 ⟨mem_of_lookup he, (Supervision.active_iff e.sup).2 h⟩, rfl⟩)
      exact congrArg some (show e = { e with sup := .idle } by rw [← hsup])

theorem State.withOutcomes_cons (o : MoveOutcome) (x : Nat × Element) (l : List (Nat × Element)) :
    s.withOutcomes o (x :: l) = (s.withRecord (s.elementLevel x.2 .movement)
      (.movementOutcome x.1 o (x.2.sup.target.getD 0) none none)).withOutcomes o l := by
  have hlevel (n : Nat) (b : Body) (e : Element) : (s.withRecord n b).elementLevel e .movement = s.elementLevel e .movement := by
    unfold State.elementLevel State.levelOf
    rw [State.withRecord_journal, Journal.offer_classes]
  unfold State.withOutcomes
  simp only [hlevel, List.foldl_cons]

theorem State.withOutcomes_levelOf (o : MoveOutcome) (l : List (Nat × Element)) (c : JournalClass) :
    (s.withOutcomes o l).levelOf c = s.levelOf c := by
  induction l generalizing s with
  | nil => rfl
  | cons x l ih =>
    rw [State.withOutcomes_cons, ih]
    unfold State.levelOf
    rw [State.withRecord_journal, Journal.offer_classes]

theorem State.withOutcomes_tb (o : MoveOutcome) (l : List (Nat × Element)) : (s.withOutcomes o l).tb = s.tb := by
  obtain ⟨j, hj⟩ := s.withOutcomes_journal o l
  rw [hj, State.setJournal_tb]

/-- The outcome records of records under supervision, in the order of the step (R101). -/
theorem State.journal_foldl_abandonSupervision (l : List (Nat × Element)) (hl : (l.map Prod.fst).Nodup)
    (hpresent : ∀ x ∈ l, s.element x.1 = some x.2) (hactive : ∀ x ∈ l, x.2.sup ≠ .idle) :
    ((l.map Prod.fst).foldl State.abandonSupervision s).journal = (s.withOutcomes .abandoned l).journal := by
  induction l generalizing s with
  | nil => rfl
  | cons x l ih =>
    rw [List.map_cons, List.nodup_cons] at hl
    obtain ⟨hnew, hrest⟩ := hl
    have hothers : ∀ y ∈ l, (s.abandonSupervision x.1).element y.1 = some y.2 := by
      intro y hy
      rw [State.element_abandonSupervision, if_neg fun (h : y.1 = x.1) => hnew (h ▸ List.mem_map_of_mem hy)]
      exact hpresent y (List.mem_cons_of_mem _ hy)
    have hhead := s.abandonSupervision_active (hpresent x (List.mem_cons_self ..)) (hactive x (List.mem_cons_self ..))
    rw [List.map_cons, List.foldl_cons, ih _ hrest hothers fun y hy => hactive y (List.mem_cons_of_mem _ hy), hhead,
      State.withOutcomes_cons]
    refine State.withOutcomes_congr ?_ ?_ _ l <;> rfl

theorem State.supervisedRecords_eq : s.supervisedRecords = s.supervised.map Prod.fst := by
  have hactive (x : Nat × Element) : x.2.sup.active = (x.2.sup != .idle) := by
    rw [Bool.eq_iff_iff, Supervision.active_iff, bne_iff_ne]
  unfold State.supervisedRecords State.supervised
  simp only [hactive]

theorem State.supervisedRecords_length : s.supervisedRecords.length = s.elements.countP fun x => x.2.sup.active := by
  rw [State.supervisedRecords, List.length_map, List.countP_eq_length_filter]

theorem State.journal_abandonAll (h : tableWf s.elements) :
    s.abandonAll.journal = (s.withOutcomes .abandoned s.supervised).journal := by
  have hsub : s.supervised.Sublist s.elements := List.filter_sublist
  unfold State.abandonAll
  rw [State.supervisedRecords_eq]
  exact s.journal_foldl_abandonSupervision _ ((h.1.sublist (hsub.map Prod.fst)).imp fun h => Nat.ne_of_lt h)
    (fun x hx => lookup_of_mem h (hsub.subset hx)) fun x hx => bne_iff_ne.1 (List.mem_filter.1 hx).2

theorem State.abandonAll_only :
    s.abandonAll = { s with elements := s.abandonAll.elements, journal := s.abandonAll.journal } := by
  refine List.foldlRecOn (b := s) (motive := fun u => u = { s with elements := u.elements, journal := u.journal })
    s.supervisedRecords State.abandonSupervision rfl fun u hu i _ => ?_
  cases he : u.element i with
  | none => rw [u.abandonSupervision_absent he, ← hu]
  | some e =>
    rw [State.abandonSupervision, he]
    dsimp only
    rw [State.applySupervised_eq]
    generalize (u.applySupervised i _).journal = j
    rw [hu]
    rfl

/-! ## The second step: the banks and the open list (R129) -/

theorem State.resetBank_empty {b : BankId} (h : (s.bank b).state = .empty) : s.resetBank b = s := if_pos h

theorem State.resetBank_loaded {b : BankId} (h : (s.bank b).state ≠ .empty) : s.resetBank b =
    (s.report (.bank b .tablesReset ((s.bank b).count .opened) ((s.bank b).count .pending))).emptyBank b := if_neg h

theorem State.resetBank_only (b : BankId) : s.resetBank b = { s with
    elements := (s.resetBank b).elements, bankA := (s.resetBank b).bankA, bankB := (s.resetBank b).bankB,
    journal := (s.resetBank b).journal } := by
  by_cases h : (s.bank b).state = .empty
  · rw [s.resetBank_empty h]
  · rw [s.resetBank_loaded h, State.emptyBank_eq]
    generalize (State.emptyBank _ b).elements = l
    cases b <;> rfl

theorem State.element_resetBank {b : BankId} (hempty : (s.bank b).state = .empty → s.bank b = Bank.afterReset) (j : Nat) :
    (s.resetBank b).element j = (s.element j).map fun e => { e with refs := e.refs - (s.bank b).naming j } := by
  by_cases h : (s.bank b).state = .empty
  · rw [s.resetBank_empty h, hempty h]
    cases s.element j <;> rfl
  · rw [s.resetBank_loaded h, State.element_emptyBank, State.report_element, State.report_bank]

/-- The BANK record of a bank that the second step empties, after what the journal of `a` holds (R129). -/
theorem State.journal_resetBank {a : State} (hjournal : s.journal = a.journal) (htb : a.tb = s.tb) (b : BankId) :
    (s.resetBank b).journal = (if (s.bank b).state = .empty then a else a.withRecord (s.levelOf .timetable)
      (.bank b .tablesReset ((s.bank b).count .opened) ((s.bank b).count .pending))).journal := by
  by_cases h : (s.bank b).state = .empty
  · rw [s.resetBank_empty h, if_pos h, hjournal]
  · rw [s.resetBank_loaded h, if_neg h, State.emptyBank_eq, State.withRecord_journal, htb, ← hjournal]
    cases b <;> rfl

theorem State.resetBank_levelOf (b : BankId) (c : JournalClass) : (s.resetBank b).levelOf c = s.levelOf c := by
  unfold State.levelOf
  rw [s.journal_resetBank rfl rfl]
  split
  · rfl
  · rw [State.withRecord_journal, Journal.offer_classes]

theorem State.resetBank_tb (b : BankId) : (s.resetBank b).tb = s.tb := by
  rw [State.resetBank_only]

theorem State.resetBanks_only : s.resetBanks = { s with
    elements := s.resetBanks.elements, bankA := s.resetBanks.bankA, bankB := s.resetBanks.bankB, openList := [],
    journal := s.resetBanks.journal } := by
  have hfirst := s.resetBank_only .bankA
  have hsecond := (s.resetBank .bankA).resetBank_only .bankB
  rw [State.resetBanks_eq]
  generalize (s.resetBank .bankA).resetBank .bankB = u at hsecond ⊢
  rw [hsecond, hfirst]
  rfl

theorem State.bank_resetBanks_empty {b : BankId} (hempty : (s.bank b).state = .empty → s.bank b = Bank.afterReset) :
    s.resetBanks.bank b = Bank.afterReset := by
  rw [State.bank_resetBanks]
  split
  · rename_i h
    exact hempty h
  · rfl

theorem State.element_resetBanks (hA : s.bankA.state = .empty → s.bankA = Bank.afterReset)
    (hB : s.bankB.state = .empty → s.bankB = Bank.afterReset) (j : Nat) : s.resetBanks.element j =
      (s.element j).map fun e => { e with refs := e.refs - s.bankA.naming j - s.bankB.naming j } := by
  have hbank : (s.resetBank .bankA).bank .bankB = s.bankB := s.bank_resetBank .bankA .bankB
  rw [State.resetBanks_eq, State.setOpenList_element, State.element_resetBank _ (by rw [hbank]; exact hB), hbank,
    s.element_resetBank (b := .bankA) hA, Option.map_map]
  rfl

/-- The records of the second step after what the journal of `a` holds, A before B (R129). -/
theorem State.journal_resetBanks {a b c : State} (hjournal : s.journal = a.journal) (htb : a.tb = s.tb)
    (hb : b = if s.bankA.state = .empty then a else a.withRecord (s.levelOf .timetable)
      (.bank .bankA .tablesReset (s.bankA.count .opened) (s.bankA.count .pending)))
    (hc : c = if s.bankB.state = .empty then b else b.withRecord (s.levelOf .timetable)
      (.bank .bankB .tablesReset (s.bankB.count .opened) (s.bankB.count .pending))) :
    s.resetBanks.journal = c.journal := by
  have hfirst : (s.resetBank .bankA).journal = b.journal := by
    rw [hb]
    exact s.journal_resetBank hjournal htb .bankA
  have htb' : b.tb = (s.resetBank .bankA).tb := by
    rw [hb, State.resetBank_tb]
    split <;> exact htb
  have hbank : (s.resetBank .bankA).bank .bankB = s.bankB := s.bank_resetBank .bankA .bankB
  have hsecond := (s.resetBank .bankA).journal_resetBank hfirst htb' .bankB
  rw [State.resetBanks_eq, State.setOpenList_journal, hsecond, hbank, State.resetBank_levelOf, hc]

/-! ## The third step, and the steps in a row (R47, R171, R181) -/

/-- The state of the third step before its response. -/
def State.tablesEmptied (s : State) (r : Request) : State :=
  ((s.emptyTables.recordingStart .tablesReset).setResetting none).taking 70 r

theorem State.tablesEmptied_window (r : Request) (p : PortId) (w : LineId) : (s.tablesEmptied r).window p w = ⟨4095, 0, 0⟩ := by
  show s.emptyTables.window p w = Window.closed
  simp [State.emptyTables, State.window]

theorem State.continueReset_last {g : Resetting} {a b : Closings} (h : g.closed = some (a, b)) :
    s.continueReset g = (s.tablesEmptied g.request).respond 70 g.request (.done (g.octets a b)) := by
  rw [State.continueReset, h]
  rfl

theorem State.continueReset_second {g : Resetting} (h : g.closed = none) : s.continueReset g =
    s.resetBanks.setResetting (some { g with closed := some (s.bankA.closings, s.bankB.closings) }) := by
  rw [State.continueReset, h]

/-- The second step and the third at once. -/
theorem State.finishReset_second {r : Request} {n : Nat} (h : s.service.resetting = some ⟨r, n, none⟩) : s.finishReset =
    ((s.continueReset ⟨r, n, none⟩).tablesEmptied r).respond 70 r
      (.done (Resetting.octets ⟨r, n, none⟩ s.bankA.closings s.bankB.closings)) := by
  rw [State.finishReset, h]
  exact State.continueReset_last _ rfl

theorem State.finishReset_last {g : Resetting} {a b : Closings} (h : s.service.resetting = some g) (hg : g.closed = some (a, b)) :
    s.finishReset = s.continueReset g := by
  rw [State.finishReset, h]
  dsimp only
  rw [hg]

theorem State.tablesEmptied_resetting (r r' : Request) (code : Byte) (a : Reply) :
    ((s.tablesEmptied r).respond code r' a).service.resetting = none := by
  rw [State.respond_service, Service.take_resetting]
  exact Service.finish_resetting _ _

/-- Once finished, no RESET TABLES is under way. -/
theorem State.finishReset_resetting : s.finishReset.service.resetting = none := by
  cases h : s.service.resetting with
  | none => rw [s.finishReset_none h, h]
  | some g =>
    obtain ⟨r, n, c⟩ := g
    cases c with
    | none =>
      rw [s.finishReset_second h]
      exact State.tablesEmptied_resetting ..
    | some c =>
      obtain ⟨a, b⟩ := c
      rw [s.finishReset_last h rfl, s.continueReset_last rfl]
      exact State.tablesEmptied_resetting ..

theorem State.finishReset_finishReset : s.finishReset.finishReset = s.finishReset :=
  State.finishReset_none _ s.finishReset_resetting

theorem State.tablesEmptied_initialising (r : Request) : (s.tablesEmptied r).initialising = s.initialising := rfl

theorem State.initialising_resetBanks : s.resetBanks.initialising = s.initialising := by
  rw [State.resetBanks_only]
  rfl

theorem State.initialising_finishReset : s.finishReset.initialising = s.initialising := by
  cases h : s.service.resetting with
  | none => rw [s.finishReset_none h]
  | some g =>
    obtain ⟨r, n, c⟩ := g
    cases c with
    | none =>
      rw [s.finishReset_second h, State.respond_initialising, State.tablesEmptied_initialising, s.continueReset_second rfl]
      exact s.initialising_resetBanks
    | some c =>
      obtain ⟨a, b⟩ := c
      rw [s.finishReset_last h rfl, s.continueReset_last rfl, State.respond_initialising, State.tablesEmptied_initialising]

/-! ## Where the request is taken -/

theorem State.takeReset_begin (h : s.service.resetting = none) (r : Request) (pause : Bool) :
    s.takeReset r pause = if pause then s.beginReset r else (s.beginReset r).finishReset := by
  rw [State.takeReset, h]

theorem State.takeReset_continue {g : Resetting} (h : s.service.resetting = some g) (pause : Bool) :
    s.takeReset g.request pause = if pause then s.continueReset g else (s.continueReset g).finishReset := by
  rw [State.takeReset, h]
  dsimp only
  rw [if_pos rfl]

/-- Another request first carries a RESET TABLES under way to its end (R171, log entry 13). -/
theorem State.takeReset_other {g : Resetting} (h : s.service.resetting = some g) {r : Request} (hr : r ≠ g.request) (pause : Bool) :
    s.takeReset r pause = s.finishReset.takeReset r pause := by
  rw [State.takeReset_begin _ s.finishReset_resetting, State.takeReset, h]
  dsimp only
  rw [if_neg hr.symm]

theorem State.serve_finishReset (h : s.initialising = false) (code : Byte) (r : Request) (f : List Byte → State → Served) :
    s.finishReset.serve code r f = s.serve code r f := by
  unfold State.serve
  rw [State.initialising_finishReset, h, State.finishReset_finishReset]
  rfl

/-- Every code but that of RESET TABLES is served as one step; one that names no request is not listed (R172, R186). -/
theorem exec_decodeRequest_served {code : Byte} (h : code ≠ 70) (r : Request) :
    ∃ c f, ∀ s : State, exec (decodeRequest code r) s = .next (s.serve c r f) := by
  unfold decodeRequest
  split
  case h_33 h70 => exact absurd (BitVec.eq_of_toNat_eq h70) h
  case h_34 =>
    have hunknown : knownRequestCodes.contains code = false := by
      rw [← Bool.not_eq_true, List.contains_iff_mem]
      intro hmem
      have hnumber : code.toNat ∈ knownRequestCodes.map BitVec.toNat := List.mem_map_of_mem hmem
      simp only [knownRequestCodes, List.map_cons, List.map_nil, List.mem_cons, List.not_mem_nil, or_false,
        BitVec.reduceToNat] at hnumber
      grind
    refine ⟨code, fun _ s => refuse s .unknown, fun s => ?_⟩
    show Host.Outcome.next (if knownRequestCodes.contains code then s else s.serve code r fun _ s => refuse s .unknown) = _
    rw [hunknown]
    rfl
  all_goals exact ⟨_, _, fun _ => rfl⟩

/-! ## What the steps leave -/

/-- The unit holds the request that it has taken, and lets it go at the end (R171). -/
theorem Service.finish_hold_finish {v : Service} (h : v.resetting = none) (q : Queued) :
    Service.finish { (v.finish q).hold q with resetting := none } q = v.finish q := by
  obtain ⟨queue, hand, resetting⟩ := v
  subst h
  by_cases hhand : hand = some q
  · simp [Service.finish, Service.hold, hhand]
  · cases hand with
    | none =>
      by_cases hhead : queue.head? = some q
      · simp [Service.finish, Service.hold, hhead]
      · simp [Service.finish, Service.hold, hhead]
    | some q' =>
      have hother : q' ≠ q := fun h => hhand (congrArg some h)
      simp [Service.finish, Service.hold, hother]

theorem State.beginReset_only (r : Request) : s.beginReset r = { s with
    elements := (s.beginReset r).elements, journal := (s.beginReset r).journal, service := (s.beginReset r).service } := by
  unfold State.beginReset
  dsimp only
  rw [State.abandonAll_only]
  rfl

theorem State.beginReset_resetting (r : Request) :
    (s.beginReset r).service.resetting = some ⟨r, s.elements.countP fun x => x.2.sup.active, none⟩ := by
  rw [← State.supervisedRecords_length]
  rfl

theorem State.element_beginReset (r : Request) (i : Nat) :
    (s.beginReset r).element i = (s.element i).map fun e => { e with sup := .idle } :=
  (s.taking 70 r).element_abandonAll i

theorem State.journal_beginReset (r : Request) (h : tableWf s.elements) :
    (s.beginReset r).journal = (s.withOutcomes .abandoned s.supervised).journal :=
  ((s.taking 70 r).journal_abandonAll h).trans (State.withOutcomes_congr (s := s) (t := s.taking 70 r) rfl rfl _ _)

theorem State.tablesEmptied_only (r : Request) : s.tablesEmptied r = { s with
    windows := (s.tablesEmptied r).windows, elements := [], journal := (s.tablesEmptied r).journal,
    service := Service.finish { s.service with resetting := none } ⟨70, r⟩ } := rfl

theorem State.tablesEmptied_journal (r : Request) : (s.tablesEmptied r).journal =
    s.journal.offer s.tb.now ⟨7, s.tb.now, false, false, .recordingStart .tablesReset⟩ := rfl

theorem State.continueReset_only (r : Request) (n : Nat) : s.continueReset ⟨r, n, none⟩ = { s with
    elements := s.resetBanks.elements, bankA := s.resetBanks.bankA, bankB := s.resetBanks.bankB, openList := [],
    journal := s.resetBanks.journal,
    service := { s.service with resetting := some ⟨r, n, some (s.bankA.closings, s.bankB.closings)⟩ } } := by
  rw [s.continueReset_second rfl]
  have h := s.resetBanks_only
  generalize s.resetBanks = u at h ⊢
  rw [h]
  rfl

/-- What the second and the third step leave together. -/
theorem State.lastSteps_only (r : Request) (n : Nat) : (s.continueReset ⟨r, n, none⟩).tablesEmptied r = { s with
    windows := ((s.continueReset ⟨r, n, none⟩).tablesEmptied r).windows, elements := [],
    bankA := ((s.continueReset ⟨r, n, none⟩).tablesEmptied r).bankA,
    bankB := ((s.continueReset ⟨r, n, none⟩).tablesEmptied r).bankB, openList := [],
    journal := ((s.continueReset ⟨r, n, none⟩).tablesEmptied r).journal,
    service := Service.finish { s.service with resetting := none } ⟨70, r⟩ } := by
  rw [State.tablesEmptied_only, State.continueReset_only]

theorem State.lastSteps_journal (r : Request) (n : Nat) : ((s.continueReset ⟨r, n, none⟩).tablesEmptied r).journal =
    s.resetBanks.journal.offer s.tb.now ⟨7, s.tb.now, false, false, .recordingStart .tablesReset⟩ := by
  rw [State.tablesEmptied_journal, State.continueReset_only]

theorem State.takeReset_second {r : Request} {n : Nat} (h : s.service.resetting = some ⟨r, n, none⟩) :
    s.takeReset r true = s.continueReset ⟨r, n, none⟩ := s.takeReset_continue h true

theorem State.takeReset_lastSteps {r : Request} {n : Nat} (h : s.service.resetting = some ⟨r, n, none⟩) :
    s.takeReset r false = ((s.continueReset ⟨r, n, none⟩).tablesEmptied r).respond 70 r
      (.done (Resetting.octets ⟨r, n, none⟩ s.bankA.closings s.bankB.closings)) := by
  have hresetting : (s.continueReset ⟨r, n, none⟩).service.resetting =
      some ⟨r, n, some (s.bankA.closings, s.bankB.closings)⟩ := by
    rw [State.continueReset_only]
  refine (s.takeReset_continue h false).trans ?_
  rw [if_neg (by decide), State.finishReset_last _ hresetting rfl, State.continueReset_last _ rfl]
  rfl

theorem State.takeReset_last {r : Request} {n : Nat} {a b : Closings} (h : s.service.resetting = some ⟨r, n, some (a, b)⟩)
    (pause : Bool) :
    s.takeReset r pause = (s.tablesEmptied r).respond 70 r (.done (Resetting.octets ⟨r, n, some (a, b)⟩ a b)) := by
  refine (s.takeReset_continue h pause).trans ?_
  rw [State.continueReset_last _ rfl, State.finishReset_none _ (State.tablesEmptied_resetting ..), ite_self]

/-- The banks after the last steps (R129). -/
theorem State.lastSteps_banks (r : Request) (n : Nat) (hA : s.bankA.state = .empty → s.bankA = Bank.afterReset)
    (hB : s.bankB.state = .empty → s.bankB = Bank.afterReset) :
    ((s.continueReset ⟨r, n, none⟩).tablesEmptied r).bankA = Bank.afterReset ∧
    ((s.continueReset ⟨r, n, none⟩).tablesEmptied r).bankB = Bank.afterReset := by
  rw [State.tablesEmptied_only, State.continueReset_only]
  exact ⟨s.bank_resetBanks_empty (b := .bankA) hA, s.bank_resetBanks_empty (b := .bankB) hB⟩

/-- Settles O47: the steps one by one and in a row, from where the request stands. -/
theorem resetTablesEmptiesTheTables : Obligations.ResetTablesEmptiesTheTables := by
  refine ⟨fun s r hinit hp => congrArg Host.Outcome.next ?_, fun s r hs hp hA hB => ?_, fun s r hs hp => ?_,
    fun s r n hinit hp hreset hA hB => ?_, fun s r n hinit hp hreset hA hB => ?_,
    fun s r n oa pa ob pb pause hinit hp hreset => ⟨s.tablesEmptied r, s.takeReset_last hreset pause, rfl, s.tablesEmptied_window r,
      rfl, s.tablesEmptied_journal r, s.tablesEmptied_only r⟩,
    fun s g code r hinit hreset => ⟨fun hcode => ?_, fun hr => s.takeReset_other hreset hr⟩⟩
  · rw [if_neg (by rw [hinit]; decide), if_pos hp]
  · obtain ⟨hinit, hnone⟩ := hs
    have hbegin := s.takeReset_begin hnone r false
    have honly := s.beginReset_only r
    have hresetting := s.beginReset_resetting r
    have hjournal := s.journal_beginReset r
    have hservice : Service.finish { (s.beginReset r).service with resetting := none } ⟨70, r⟩ = s.service.finish ⟨70, r⟩ :=
      Service.finish_hold_finish hnone ⟨70, r⟩
    generalize s.beginReset r = t at hbegin honly hresetting hjournal hservice
    generalize (s.elements.countP fun x => x.2.sup.active) = n at hresetting ⊢
    have hbankA : t.bankA = s.bankA := by rw [honly]
    have hbankB : t.bankB = s.bankB := by rw [honly]
    have htb : t.tb = s.tb := by rw [honly]
    obtain ⟨hemptyA, hemptyB⟩ := t.lastSteps_banks r n (by rw [hbankA]; exact hA) (by rw [hbankB]; exact hB)
    have hlast := t.lastSteps_only r n
    have hrecords := t.lastSteps_journal r n
    refine ⟨(t.continueReset ⟨r, n, none⟩).tablesEmptied r, ?_, rfl, State.tablesEmptied_window _ r, hemptyA, hemptyB,
      fun a b c ha hb hc hw => ?_, congrArg State.openList hlast, ?_⟩
    · rw [hbegin, if_neg (by decide), t.finishReset_second hresetting, hbankA, hbankB]
      rfl
    · have hlevel : t.levelOf .timetable = s.levelOf .timetable := by
        rw [State.levelOf, hjournal hw]
        exact s.withOutcomes_levelOf ..
      rw [hrecords, htb]
      refine congrArg (Journal.offer · _ _) (t.journal_resetBanks (a := a) (b := b) (by rw [hjournal hw, ha]) ?_ ?_ ?_)
      · rw [ha, State.withOutcomes_tb, htb]
      · rw [hbankA, hlevel, hb]
      · rw [hbankB, hlevel, hc]
    · generalize (t.continueReset ⟨r, n, none⟩).tablesEmptied r = u at hlast ⊢
      rw [hservice, honly] at hlast
      exact hlast
  · rw [s.takeReset_begin hs.2 r true]
    exact ⟨s.beginReset_resetting r, s.element_beginReset r, s.journal_beginReset r, s.beginReset_only r⟩
  · rw [s.takeReset_second hreset]
    have honly := s.continueReset_only r n
    generalize s.continueReset ⟨r, n, none⟩ = u at honly ⊢
    subst honly
    exact ⟨rfl, s.bank_resetBanks_empty (b := .bankA) hA, s.bank_resetBanks_empty (b := .bankB) hB, rfl,
      s.element_resetBanks hA hB, fun b c hb hc => s.journal_resetBanks rfl rfl hb hc, rfl⟩
  · obtain ⟨hemptyA, hemptyB⟩ := s.lastSteps_banks r n hA hB
    have hlast := s.lastSteps_only r n
    have hrecords := s.lastSteps_journal r n
    refine ⟨(s.continueReset ⟨r, n, none⟩).tablesEmptied r, s.takeReset_lastSteps hreset, rfl, State.tablesEmptied_window _ r,
      hemptyA, hemptyB, congrArg State.service hlast, fun b c hb hc => ?_, ?_⟩
    · rw [hrecords]
      exact congrArg (Journal.offer · _ _) (s.journal_resetBanks rfl rfl hb hc)
    · generalize (s.continueReset ⟨r, n, none⟩).tablesEmptied r = u at hlast ⊢
      rw [congrArg State.service hlast]
      exact hlast
  · obtain ⟨c, f, hserved⟩ := exec_decodeRequest_served hcode r
    rw [hserved, hserved, s.serve_finishReset hinit]

end Sys2Proof.Machine
end

