-- ==== Sys2Proof/Proofs/TimebaseLaws.lean ====
section
/-! PROOFS. Sys2Proof/Proofs/TimebaseLaws.lean: what it is to advance the timebase: its ranges kept, the elapsed scale not set back and the
set flag not cleared; boundaries, steps, the passage of time, pulses and misses advance it (R48 to R69, R147). -/

namespace Sys2Proof.Machine

/-! ## What a step may do to the timebase -/

/-- The laws of the rate, the slew and the second of day are kept (R48, R53, R55), the elapsed scale is not set back and the set flag is not
cleared (R51, R147). -/
structure Timebase.Advances (x y : Timebase) : Prop where
  lawful : x.lawful → y.lawful
  inDay : x.inDay → y.inDay
  elapsed : x.elapsed ≤ y.elapsed
  setFlag : x.setFlag = true → y.setFlag = true

theorem Timebase.Advances.trans {x y z : Timebase} (h : x.Advances y) (k : y.Advances z) : x.Advances z :=
  ⟨k.lawful ∘ h.lawful, k.inDay ∘ h.inDay, h.elapsed.trans k.elapsed, k.setFlag ∘ h.setFlag⟩

/-- The parts of the timebase in whose terms its laws are stated. -/
def Timebase.governed (tb : Timebase) : Int × Int × Nat × Option Label × Nat × Bool :=
  (tb.rate, tb.slew, tb.tod.sec, tb.label, tb.elapsed, tb.setFlag)

theorem Timebase.Advances.of_governed {x y : Timebase} (h : y.governed = x.governed) : x.Advances y := by
  simp only [Timebase.governed, Prod.mk.injEq] at h
  obtain ⟨hrate, hslew, hsec, hlabel, helapsed, hflag⟩ := h
  refine ⟨fun hx => ?_, fun hx => ?_, helapsed.ge, fun hx => hflag.trans hx⟩
  · rw [Timebase.lawful, hrate, hslew]
    exact hx
  · rw [Timebase.inDay, hsec, hlabel]
    exact hx

/-- A state that moves to another advances its timebase. -/
def State.Advances (s t : State) : Prop := s.tb.Advances t.tb

theorem State.Advances.trans {s t u : State} (h : s.Advances t) (k : t.Advances u) : s.Advances u := Timebase.Advances.trans h k

theorem State.Advances.of_tb {s t : State} (h : t.tb = s.tb) : s.Advances t := .of_governed (by rw [h])

theorem State.Advances.refl (s : State) : s.Advances s := .of_tb rfl

/-! ## Updates of the timebase -/

section Updates

variable (tb : Timebase)

theorem clampInt_bounds {lo hi : Int} (h : lo ≤ hi) (v : Int) : lo ≤ clampInt lo hi v ∧ clampInt lo hi v ≤ hi := by
  unfold clampInt
  split
  · exact ⟨Int.le_refl lo, h⟩
  · split <;> omega

theorem Timebase.advances_run (n : Nat) : tb.Advances (tb.run n) :=
  ⟨fun h => by simpa [Timebase.lawful] using h, fun h => by
    obtain ⟨_, _, _, _, _, _, hrun, -⟩ := tb.run_eq n
    rw [hrun]
    exact h, tb.run_elapsed_le n, fun h => by simpa using h⟩

theorem Timebase.advances_cycle : tb.Advances tb.cycle := ⟨id, id, le_laterElapsed _ _, id⟩

/-- A new second is one of its day, the inserted one included (R50). -/
theorem Timebase.nextSecond_sec (h : tb.tod.sec ≤ 86400) : tb.nextSecond.1.sec ≤ 86400 := by
  unfold Timebase.nextSecond
  dsimp only
  split
  · exact Nat.zero_le _
  · split
    · exact Nat.le_refl _
    · split
      · exact Nat.zero_le _
      · dsimp only
        omega

theorem Timebase.advances_carry : tb.Advances tb.carry :=
  ⟨id, fun ⟨hsec, hlabel⟩ => ⟨tb.nextSecond_sec hsec, hlabel⟩, Nat.le_refl _, id⟩

theorem Timebase.advances_dropLabel : tb.Advances { tb with label := none } :=
  ⟨id, fun h => ⟨h.1, nofun⟩, Nat.le_refl _, id⟩

theorem Timebase.advances_discardLabel : tb.Advances tb.discardLabel := by
  unfold Timebase.discardLabel
  split
  · exact tb.advances_dropLabel.trans (.of_governed rfl)
  · exact .of_governed rfl

theorem Timebase.advances_takePulse : tb.Advances tb.takePulse := tb.advances_dropLabel.trans (.of_governed rfl)

theorem Timebase.advances_stopSlew : tb.Advances tb.stopSlew :=
  ⟨fun ⟨hlow, hhigh, _, _⟩ => ⟨hlow, hhigh, (by decide : (-500000 : Int) ≤ 0), (by decide : (0 : Int) ≤ 500000)⟩, id,
    Nat.le_refl _, id⟩

/-- The loop arithmetic clamps the rate and the slew to their ranges (R55). -/
theorem Timebase.advances_loopArithmetic (e : Int) : tb.Advances (tb.loopArithmetic e) := by
  refine ⟨fun _ => ?_, id, Nat.le_refl _, id⟩
  obtain ⟨hrate, hrate'⟩ := clampInt_bounds (lo := -50000) (hi := 50000) (by decide)
    (tb.rate + roundDiv (clampInt (-500000000) 500000000 e) (2 ^ tb.gi))
  obtain ⟨hslew, hslew'⟩ := clampInt_bounds (lo := -500000) (hi := 500000) (by decide)
    (roundDiv (clampInt (-500000000) 500000000 e) (2 ^ tb.gp))
  exact ⟨hrate, hrate', hslew, hslew'⟩

end Updates

/-! ## Boundaries, steps and the passage of time -/

section States

variable (s : State)

theorem State.advances_carry : s.Advances s.carry := by
  obtain ⟨_, _, htb⟩ := s.carry_tb
  rw [State.Advances, htb]
  exact s.tb.advances_carry.trans (.of_governed rfl)

theorem State.advances_boundary (o : BoundaryOrder) : s.Advances (s.boundary o) := by
  obtain ⟨_, _, htb⟩ := s.boundary_tb o
  have hcarry : s.tb.Advances s.carry.tb := s.advances_carry
  rw [State.Advances, htb]
  exact hcarry.trans (.of_governed rfl)

theorem State.advances_setTb {tb : Timebase} (h : s.tb.Advances tb) : s.Advances (s.setTb tb) := h

theorem State.boundaryOrder_tb : s.boundaryOrder.2.tb = s.tb := by
  unfold State.boundaryOrder
  split <;> rfl

theorem State.advances_toBoundary (o : BoundaryOrder) : s.Advances (s.toBoundary o) := by
  unfold State.toBoundary
  split
  · exact s.advances_boundary o
  · exact (s.advances_setTb (s.tb.advances_run _)).trans (State.advances_boundary _ o)

theorem State.advances_passTo (n t : Nat) : s.Advances (State.passTo n t s) := by
  induction n generalizing s with
  | zero => exact .refl s
  | succ n ih =>
    unfold State.passTo
    split
    · exact .refl s
    · split
      · exact (State.Advances.of_tb s.boundaryOrder_tb).trans ((State.advances_boundary _ _).trans (ih _))
      · exact (s.advances_setTb (s.tb.advances_run _)).trans (ih _)

theorem State.advances_await (t : Option Nat) : s.Advances (s.await t) := by
  cases t with
  | none => exact .refl s
  | some t => exact s.advances_passTo _ t

/-- A step event moves the schedule and the civil offset only (R66, R69). -/
theorem State.stepEvent_tb : ∃ offset scheduled,
    s.stepEvent.tb = { s.tb with civilOffset := offset, scheduled := scheduled } := by
  obtain ⟨hseconds⟩ := s.boundaryOrder.2.endSeconds_only
  obtain ⟨hwalk⟩ := s.boundaryOrder.2.endSeconds.tablesOnly_walk
  have htb : s.boundaryOrder.2.endSeconds.walk.tb = s.tb := by rw [hwalk, hseconds, ← s.boundaryOrder_tb]
  obtain ⟨offset, scheduled, honly⟩ := s.boundaryOrder.2.endSeconds.walk.handToLines_only
    { s.boundaryOrder.1 with offsetFirst := false }
  rw [htb] at honly
  exact ⟨offset, scheduled, honly.tb⟩

theorem State.leapAfterMove_tb (day : Day) : ∃ armed recent,
    (s.leapAfterMove day).tb = { s.tb with armedLeap := armed, recentLeap := recent } := by
  unfold State.leapAfterMove
  split
  · exact ⟨_, _, rfl⟩
  · split
    · exact ⟨_, _, rfl⟩
    · split <;> exact ⟨_, _, rfl⟩

/-- A set or a step moves the time of day to its label, and beside it the leaps, the schedule and the civil offset only (R56, R57). -/
theorem State.moveTime_tb (l : Label) (event : TimebaseEvent) : ∃ armed recent offset scheduled, (s.moveTime l event).tb =
    { s.tb with
      tod := ⟨l.day, l.sec, 0⟩, todFrac := 0, armedLeap := armed, recentLeap := recent, civilOffset := offset,
      scheduled := scheduled } := by
  obtain ⟨armed, recent, hleap⟩ :=
    (s.setTb { s.tb with tod := ⟨l.day, l.sec, 0⟩, todFrac := 0 }).leapAfterMove_tb s.tb.tod.day
  obtain ⟨offset, scheduled, hstep⟩ := (((s.setTb { s.tb with tod := ⟨l.day, l.sec, 0⟩, todFrac := 0 }).leapAfterMove
    s.tb.tod.day).report (.timebase event (some s.tb.time))).stepEvent_tb
  refine ⟨armed, recent, offset, scheduled, hstep.trans ?_⟩
  rw [State.report_tb, hleap]
  rfl

/-- The label of a set or step is the one that was pending, whose second is in its range (R53). -/
theorem State.advances_moveTime {x : Timebase} {l : Label} (hlabel : x.label = some l) (h : x.Advances s.tb) (event : TimebaseEvent) :
    x.Advances (s.moveTime l event).tb := by
  obtain ⟨_, _, _, _, htb⟩ := s.moveTime_tb l event
  rw [htb]
  exact ⟨h.lawful, fun hx => ⟨hx.2 l hlabel, (h.inDay hx).2⟩, h.elapsed, h.setFlag⟩

/-! ## Pulses, misses and the holdover limit -/

theorem State.armLeap_tb (label : Option Label) : ∃ armed, (s.armLeap label).tb = { s.tb with armedLeap := armed } := by
  unfold State.armLeap
  cases label with
  | none => exact ⟨_, rfl⟩
  | some l =>
    dsimp only
    cases l.announcement with
    | none => exact ⟨_, rfl⟩
    | insert => dsimp only; split <;> exact ⟨_, rfl⟩
    | delete => dsimp only; split <;> exact ⟨_, rfl⟩

theorem State.advances_armLeap (label : Option Label) : s.Advances (s.armLeap label) := by
  obtain ⟨_, htb⟩ := s.armLeap_tb label
  rw [State.Advances, htb]
  exact .of_governed rfl

theorem State.pulseInFree_label (l : Label) : s.pulseInFree (some l) =
    (s.setTb { s.tb.zeroRuns with setFlag := true, loop := .acquiring, misses := 0 }).moveTime l .set := rfl

theorem State.advances_pulseInFree {x : Timebase} (h : x.Advances s.tb) : x.Advances (s.pulseInFree x.label).tb := by
  cases hlabel : x.label with
  | none => exact h
  | some l =>
    rw [State.pulseInFree_label]
    refine State.advances_moveTime _ hlabel ?_ .set
    exact ⟨h.lawful, h.inDay, h.elapsed, fun _ => rfl⟩

theorem State.advances_pulseTests (tb : Timebase) (e : Int) : tb.Advances (s.pulseTests tb e).tb := by
  refine (tb.advances_loopArithmetic e).trans (.of_governed ?_)
  unfold State.pulseTests
  cases tb.loop with
  | free => rfl
  | acquiring => dsimp only; unfold State.judgeLock; split <;> rfl
  | locked => dsimp only; unfold State.judgeLockLost; split <;> rfl
  | holdover =>
    dsimp only
    unfold State.judgeReturn
    split
    · split <;> rfl
    · rfl

theorem State.pulseInLoop_phase (e : Int) : s.pulseInLoop none e = s.pulseTests (s.tb.countPulse false e) e := rfl

theorem State.pulseInLoop_label (l : Label) (e : Int) : s.pulseInLoop (some l) e =
    if (s.tb.countPulse true e).loop ≠ .holdover ∧ 3 ≤ (s.tb.countPulse true e).steps then
      (s.setTb (s.tb.countPulse true e).stopSlew.zeroRuns).moveTime l .step
    else s.pulseTests (s.tb.countPulse true e) e := rfl

theorem Timebase.advances_countPulse (tb : Timebase) (labelled : Bool) (e : Int) : tb.Advances (tb.countPulse labelled e) :=
  .of_governed rfl

theorem Timebase.advances_zeroRuns (tb : Timebase) : tb.Advances tb.zeroRuns := .of_governed rfl

theorem State.advances_pulseInLoop {x : Timebase} (h : x.Advances s.tb) (e : Int) : x.Advances (s.pulseInLoop x.label e).tb := by
  have hcount (labelled : Bool) : x.Advances (s.tb.countPulse labelled e) := h.trans (s.tb.advances_countPulse labelled e)
  cases hlabel : x.label with
  | none =>
    rw [State.pulseInLoop_phase]
    exact (hcount false).trans (s.advances_pulseTests _ e)
  | some l =>
    rw [State.pulseInLoop_label]
    split
    · exact State.advances_moveTime _ hlabel
        (((hcount true).trans (Timebase.advances_stopSlew _)).trans (Timebase.advances_zeroRuns _)) .step
    · exact (hcount true).trans (s.advances_pulseTests _ e)

theorem State.advances_pulse : s.Advances s.pulse := by
  have hpulse : s.tb.Advances ((s.setTb s.tb.takePulse).armLeap s.tb.label).tb :=
    (s.advances_setTb s.tb.advances_takePulse).trans (State.advances_armLeap _ _)
  unfold State.pulse
  dsimp only
  split
  · split
    · exact State.advances_pulseInFree _ hpulse
    · exact State.advances_pulseInLoop _ hpulse _
  · exact Timebase.Advances.of_governed rfl

/-- The timebase as a miss note leaves it ahead of what the note does to the loop (R53, R59). -/
def Timebase.noted (tb : Timebase) : Timebase :=
  { tb.discardLabel with misses := saturate 65535 tb.misses 1, nextNote := tb.nextNote.map fun t => t + secs 1 }

theorem State.missNote_eq : s.missNote =
    if s.tb.noted.misses < 2 then s.setTb s.tb.noted
    else
      match s.tb.noted.loop with
      | .free => s.setTb s.tb.noted
      | .acquiring => (s.setTb s.tb.noted.enterHoldover).reportTb .holdover
      | .locked => (s.setTb s.tb.noted.enterHoldover).reportTb .holdover
      | .holdover =>
        if s.tb.noted.fastReturn then s.setTb { s.tb.noted.stopSlew with fastReturn := false } else s.setTb s.tb.noted := rfl

theorem Timebase.advances_enterHoldover (tb : Timebase) : tb.Advances tb.enterHoldover :=
  tb.advances_stopSlew.trans (.of_governed rfl)

theorem State.advances_missNote : s.Advances s.missNote := by
  have hnoted : s.tb.Advances s.tb.noted := s.tb.advances_discardLabel.trans (.of_governed rfl)
  rw [State.missNote_eq]
  split
  · exact hnoted
  · split
    · exact hnoted
    · exact hnoted.trans (Timebase.advances_enterHoldover _)
    · exact hnoted.trans (Timebase.advances_enterHoldover _)
    · split
      · exact (hnoted.trans (Timebase.advances_stopSlew _)).trans (.of_governed rfl)
      · exact hnoted

theorem State.advances_judgeLimit : s.Advances s.judgeLimit := by
  refine .of_governed ?_
  unfold State.judgeLimit
  split
  · split
    · rfl
    · split <;> rfl
  · rfl

theorem State.advances_changeOffset (new : Int) : s.Advances (s.changeOffset new) := by
  refine .of_governed ?_
  rw [(s.changeOffset_linesOnly new).1.tb]
  rfl

theorem State.advances_judgeOffset : s.Advances s.judgeOffset := by
  refine .of_governed ?_
  cases h : s.tb.offsetDue with
  | none => simp only [State.judgeOffset, h]
  | some new =>
    rw [(s.judgeOffset_some h).1.tb]
    rfl

end States

end Sys2Proof.Machine
end

