-- ==== Sys2Proof/Proofs/TimebaseLawsOfSteps.lean ====
section
/-! PROOFS. Sys2Proof/Proofs/TimebaseLawsOfSteps.lean: the requests, RESET TABLES, every command and a part left to itself advance the
timebase (O54, O55). -/

namespace Sys2Proof.Machine

section States

variable (s : State)

/-! ## Blocks that hold none of the timebase -/

theorem State.TablesOnly.tb {s t : State} (h : s.TablesOnly t) : t.tb = s.tb := by rw [h.eq]

theorem State.OnPort.tb {p : PortId} {s t : State} (h : State.OnPort p s t) : t.tb = s.tb := by rw [h.rest]

theorem State.applyLine_tb (l : LineId) (r : LineStep) : (s.applyLine l r).tb = s.tb := by
  obtain ⟨j, hj⟩ := (s.setLine l r.line).reportAll_journal (r.notes.map fun n => .clockLine l n.event n.fault n.position)
  rw [State.applyLine, hj]
  rfl

theorem State.sampleLine_tb (l : LineId) (sense : Sense) : (s.sampleLine l sense).tb = s.tb := by
  unfold State.sampleLine
  split
  · exact s.applyLine_tb l _
  · rfl

theorem State.finishLine_tb (l : LineId) : (s.finishLine l).tb = s.tb := by
  unfold State.finishLine
  split
  · exact s.applyLine_tb l _
  · rfl

theorem State.raiseSilent_tb (p : PortId) (d : Direction) : (s.raiseSilent p d).tb = s.tb := by rw [s.raiseSilent_only p d]

theorem State.settleLife_tb (p : PortId) (d : Direction) : (s.settleLife p d).tb = s.tb := by
  unfold State.settleLife
  split
  · exact s.raiseSilent_tb p d
  · rfl

theorem State.expireRecord_tb (i : Nat) : (s.expireRecord i).tb = s.tb := by
  unfold State.expireRecord
  split
  · rfl
  · exact (s.tablesOnly_applySupervised _ _).tb

theorem State.beginReset_tb (r : Request) : (s.beginReset r).tb = s.tb := by rw [s.beginReset_only r]

theorem State.continueReset_tb (g : Resetting) : (s.continueReset g).tb = s.tb := by
  unfold State.continueReset
  split
  · rw [State.setResetting_tb, s.resetBanks_only]
  · rfl

theorem State.finishReset_tb : s.finishReset.tb = s.tb := by
  unfold State.finishReset
  split
  · rfl
  · split
    · exact (State.continueReset_tb _ _).trans (s.continueReset_tb _)
    · exact s.continueReset_tb _

theorem State.takeReset_tb (r : Request) (pause : Bool) : (s.takeReset r pause).tb = s.tb := by
  have hfirst : (match s.service.resetting with
      | some g => if g.request = r then s.continueReset g else s.finishReset.beginReset r
      | none => s.beginReset r).tb = s.tb := by
    split
    · split
      · exact s.continueReset_tb _
      · exact (State.beginReset_tb _ r).trans s.finishReset_tb
    · exact s.beginReset_tb r
  unfold State.takeReset
  dsimp only
  split
  · exact hfirst
  · exact (State.finishReset_tb _).trans hfirst

/-! ## Requests that hold none of the timebase -/

theorem reqIdentify_tb (params : List Byte) : (reqIdentify params s).state.tb = s.tb := by
  unfold reqIdentify
  split <;> rfl

theorem reqReadStatus_tb (params : List Byte) : (reqReadStatus params s).state.tb = s.tb := by
  unfold reqReadStatus
  split
  · split <;> rfl
  · split
    · split <;> rfl
    · split <;> rfl
    · rfl
  · rfl

theorem reqReadCounters_tb (params : List Byte) : (reqReadCounters params s).state.tb = s.tb := by
  unfold reqReadCounters
  split
  · split
    · split <;> rfl
    · rfl
  · rfl

theorem reqReadElement_tb (params : List Byte) : (reqReadElement params s).state.tb = s.tb := by
  unfold reqReadElement
  split
  · split <;> rfl
  · rfl

theorem reqReadEntry_tb (params : List Byte) : (reqReadEntry params s).state.tb = s.tb := by
  unfold reqReadEntry
  split
  · split
    · split <;> rfl
    · rfl
  · rfl

theorem reqReadJournal_tb (params : List Byte) : (reqReadJournal params s).state.tb = s.tb := by
  unfold reqReadJournal
  split <;> rfl

theorem reqSetPort_tb (params : List Byte) : (reqSetPort params s).state.tb = s.tb := by
  unfold reqSetPort State.setPortSettings
  split
  · split
    · dsimp only
      split
      · rfl
      · split
        · rfl
        · exact (State.settleLife_tb _ _ .up).trans (State.settleLife_tb _ _ .down)
    · rfl
  · rfl

theorem reqJoin_tb (params : List Byte) : (reqJoin params s).state.tb = s.tb := by
  unfold reqJoin State.joinPort
  split
  · split
    · split <;> rfl
    · rfl
  · rfl

theorem reqLeave_tb (params : List Byte) : (reqLeave params s).state.tb = s.tb := by
  unfold reqLeave State.leavePort
  split
  · split
    · split
      · rfl
      · split <;> rfl
      all_goals rfl
    · rfl
  · rfl

theorem reqLatchCounters_tb (params : List Byte) : (reqLatchCounters params s).state.tb = s.tb := by
  unfold reqLatchCounters
  split
  · split <;> rfl
  · rfl

theorem State.openWindow_tb (p : PortId) (w : LineId) (given : Window) : (s.openWindow p w given).state.tb = s.tb := by
  unfold State.openWindow
  dsimp only
  split
  · rfl
  · split
    · rfl
    · split
      · rfl
      · split <;> rfl

theorem reqLoadWindow_tb (params : List Byte) : (reqLoadWindow params s).state.tb = s.tb := by
  unfold reqLoadWindow State.loadWindow State.closeWindow
  split
  · split
    · split
      · rfl
      · split
        · split <;> rfl
        · exact s.openWindow_tb _ _ _
    · rfl
  · rfl

theorem State.loadElement_tb (i : Nat) (kind : Kind) (g : GivenFields) : (s.loadElement i kind g).state.tb = s.tb := by
  unfold State.loadElement
  split
  · rfl
  · dsimp only
    split
    · rfl
    · split <;> rfl

theorem reqLoadElement_tb (params : List Byte) : (reqLoadElement params s).state.tb = s.tb := by
  unfold reqLoadElement
  split
  · split
    · split
      · rfl
      · exact s.loadElement_tb _ _ _
    · rfl
  · split
    · split
      · rfl
      · exact s.loadElement_tb _ _ _
    · rfl
  · rfl

theorem reqRemoveElement_tb (params : List Byte) : (reqRemoveElement params s).state.tb = s.tb := by
  unfold reqRemoveElement State.removeRecord
  split
  · split
    · rfl
    · split
      · rfl
      · split
        · rfl
        · split <;> rfl
  · rfl

theorem reqClearStatistics_tb (params : List Byte) : (reqClearStatistics params s).state.tb = s.tb := by
  unfold reqClearStatistics
  split
  · dsimp only
    split
    · rfl
    · split
      · rfl
      · split <;> rfl
  · rfl

theorem reqLoadHeader_tb (params : List Byte) : (reqLoadHeader params s).state.tb = s.tb := by
  unfold reqLoadHeader State.loadHeader
  split
  · split
    · split
      · rfl
      · dsimp only
        split
        · exact s.setBank_tb _ _
        · exact s.setBank_tb _ _
        · rfl
    · rfl
  · rfl

theorem State.loadEntry_tb (b : BankId) (e : Entry) (changed : Bool) : (s.loadEntry b e changed).state.tb = s.tb := by
  have hraised (x : Bank) : ((s.setBank b x).raiseRefs e).tb = s.tb := by
    rw [(State.refsOnly_raiseRefs _ e).only, State.setBank_tb]
  unfold State.loadEntry
  dsimp only
  split
  · rfl
  · split
    · rfl
    · split
      · rfl
      · split
        · rfl
        · split
          · rfl
          · split
            · rfl
            · exact hraised _

theorem reqLoadEntry_tb (params : List Byte) : (reqLoadEntry params s).state.tb = s.tb := by
  unfold reqLoadEntry
  split
  · split
    · rfl
    · split
      · rfl
      · split
        · rfl
        · exact s.loadEntry_tb _ _ _
  · rfl

theorem bankRequest_tb {f : BankId → State → Served} (h : ∀ b, (f b s).state.tb = s.tb) (params : List Byte) :
    (bankRequest f params s).state.tb = s.tb := by
  unfold bankRequest
  split
  · split
    · exact h _
    · rfl
  · rfl

theorem State.armBank_tb (b : BankId) : (State.armBank b s).state.tb = s.tb := by
  unfold State.armBank
  dsimp only
  split
  · rfl
  · exact s.setBank_tb b _

theorem State.disarmBank_tb (b : BankId) : (State.disarmBank b s).state.tb = s.tb := by
  unfold State.disarmBank
  dsimp only
  split
  · exact s.setBank_tb b _
  · rfl

theorem State.abandonBank_tb (b : BankId) : (State.abandonBank b s).state.tb = s.tb := by
  unfold State.abandonBank
  dsimp only
  split
  · exact (State.tablesOnly_emptyBank _ b).tb
  · rfl

theorem State.clearBank_tb (b : BankId) : (State.clearBank b s).state.tb = s.tb := by
  unfold State.clearBank
  split
  · rfl
  · exact (s.tablesOnly_emptyBank b).tb
  · rfl

theorem reqCancelEntry_tb (params : List Byte) : (reqCancelEntry params s).state.tb = s.tb := by
  unfold reqCancelEntry State.cancelEntry
  split
  · split
    · split
      · rfl
      · split
        · rfl
        · exact (s.tablesOnly_closeEntry _ _ _ _ _ _).tb
    · rfl
  · rfl

theorem reqSetLine_tb (params : List Byte) : (reqSetLine params s).state.tb = s.tb := by
  unfold reqSetLine State.setLineSettings
  split
  · split
    · dsimp only
      split
      · rfl
      · exact s.applyLine_tb _ _
    · rfl
  · rfl

theorem reqSetPosition_tb (params : List Byte) : (reqSetPosition params s).state.tb = s.tb := by
  unfold reqSetPosition State.setPosition
  split
  · split
    · dsimp only
      split
      · rfl
      · split
        · rfl
        · exact s.applyLine_tb _ _
    · rfl
  · rfl

theorem lineRequest_tb (f : Line → State → LineStep) (params : List Byte) : (lineRequest f params s).state.tb = s.tb := by
  unfold lineRequest
  split
  · split
    · rfl
    · split
      · rfl
      · exact s.applyLine_tb _ _
  · rfl

theorem reqSetClass_tb (params : List Byte) : (reqSetClass params s).state.tb = s.tb := by
  unfold reqSetClass
  split
  · split <;> rfl
  · rfl

theorem reqSetAlert_tb (params : List Byte) : (reqSetAlert params s).state.tb = s.tb := by
  unfold reqSetAlert
  split
  · dsimp only
    split <;> rfl
  · rfl

theorem reqRelease_tb (params : List Byte) : (reqRelease params s).state.tb = s.tb := by
  unfold reqRelease
  split <;> rfl

/-! ## Requests on the timebase -/

/-- A label that no rule refuses is in the range of its second (R53). -/
theorem State.advances_reqTimeMark (params : List Byte) : s.Advances (reqTimeMark params s).state := by
  unfold reqTimeMark
  split
  · split
    · exact .refl s
    · dsimp only
      split
      · exact .refl s
      · rename_i hbad
        refine s.tb.advances_discardLabel.trans ⟨id, fun h => ⟨h.1, fun l hl => ?_⟩, Nat.le_refl _, id⟩
        cases hl
        simp only [Timebase.badLabel, Bool.or_eq_true, decide_eq_true_eq, not_or] at hbad
        obtain ⟨⟨hsec, -⟩, -⟩ := hbad
        exact Nat.le_of_not_lt hsec
  · exact .refl s

theorem State.advances_reqSetTimebase (params : List Byte) : s.Advances (reqSetTimebase params s).state := by
  unfold reqSetTimebase
  split
  · refine State.Advances.trans ?_ (State.advances_judgeLimit _)
    exact s.advances_setTb (.of_governed rfl)
  · exact .refl s

/-- RELOCK zeroes the rate and the slew (R62). -/
theorem State.advances_reqRelock (params : List Byte) : s.Advances (reqRelock params s).state := by
  have hzero : (-50000 : Int) ≤ 0 ∧ (0 : Int) ≤ 50000 ∧ (-500000 : Int) ≤ 0 ∧ (0 : Int) ≤ 500000 := by decide
  unfold reqRelock
  split
  · exact ⟨fun _ => hzero, id, Nat.le_refl _, id⟩
  · exact .refl s

theorem State.advances_setCivilOffset (now : Option Int) (a : ScheduleAction) : s.Advances (s.setCivilOffset now a).state := by
  have hschedule (t : State) : t.Advances (t.takeSchedule a).1 := by
    cases a with
    | keep => exact .refl t
    | cancel => exact t.advances_setTb (.of_governed rfl)
    | change day sec offset =>
      refine State.Advances.trans ?_ (State.advances_judgeOffset _)
      exact t.advances_setTb (.of_governed rfl)
  have hnow : s.Advances (match now with
      | some v => s.changeOffset (takeOffset v)
      | none => s) := by
    split
    · exact s.advances_changeOffset _
    · exact .refl s
  exact hnow.trans (hschedule _)

theorem State.advances_reqSetCivilOffset (params : List Byte) : s.Advances (reqSetCivilOffset params s).state := by
  have hcancel (now : Option Int) (action : Nat) : s.Advances (s.cancelForm now action).state := by
    unfold State.cancelForm
    split
    · exact s.advances_setCivilOffset now _
    all_goals exact .refl s
  have hchange (now : Option Int) (action : Nat) (day : Day) (sec : Nat) (offset : Int) :
      s.Advances (s.changeForm now action day sec offset).state := by
    unfold State.changeForm
    split
    · split
      · exact .refl s
      · exact s.advances_setCivilOffset now _
    all_goals exact .refl s
  unfold reqSetCivilOffset
  split
  · exact s.advances_setCivilOffset _ _
  · exact hcancel _ _
  · exact s.advances_setCivilOffset _ _
  · exact hcancel _ _
  · exact hchange _ _ _ _ _
  · exact hchange _ _ _ _ _
  · exact .refl s

/-! ## Every command -/

/-- A request whose function advances every state advances the state that serves it (R171). -/
theorem State.advances_serve (code : Byte) (r : Request) {f : List Byte → State → Served}
    (hf : ∀ params (u : State), u.Advances (f params u).state) : s.Advances (s.serve code r f) := by
  unfold State.serve
  split
  · exact .refl s
  · have htaken : s.Advances (s.finishReset.taking code r) := .of_tb s.finishReset_tb
    exact htaken.trans (hf _ _)

/-- A request that leaves the timebase. -/
theorem State.advances_serve_tb (code : Byte) (r : Request) {f : List Byte → State → Served}
    (hf : ∀ params (u : State), (f params u).state.tb = u.tb) : s.Advances (s.serve code r f) :=
  s.advances_serve code r fun params u => .of_tb (hf params u)

theorem State.advances_ite {c : Prop} [Decidable c] {t u : State} (ht : s.Advances t) (hu : s.Advances u) :
    s.Advances (if c then t else u) := by
  split
  · exact ht
  · exact hu

/-- An event outside INITIALISING, where nothing happens (R7). -/
theorem State.advances_event {t : State} (h : s.Advances t) : s.Advances (if s.initialising then s else t) :=
  s.advances_ite (.refl s) h

/-- An event that waits for its instant, and then acts where it is due. -/
theorem State.advances_awaited (instant : Option Nat) {due : Prop} [Decidable due] {t : State}
    (h : (s.await instant).Advances t) : s.Advances (if due then t else s.await instant) :=
  s.advances_ite ((s.advances_await instant).trans h) (s.advances_await instant)

/-- An event that waits for its instant, and then leaves the timebase. -/
theorem State.advances_awaited_tb (instant : Option Nat) {due : Prop} [Decidable due] {t : State}
    (h : t.tb = (s.await instant).tb) : s.Advances (if due then t else s.await instant) := s.advances_awaited instant (.of_tb h)

/-- Every command but a device reset answers a next state whose timebase has advanced. -/
theorem exec_advances (i : Instr) (hreset : ∀ c k, i ≠ .deviceReset c k) : ∃ t, exec i s = .next t ∧ s.Advances t := by
  have hport (p : PortId) (x : Port) : s.Advances (s.setPort p x) := .of_tb rfl
  have hcondition (p : PortId) (d : Direction) (c : LinkCondition) (b : Bool) : s.Advances (s.setCondition p d c b) := .of_tb rfl
  cases i with
  | deviceReset cause straps => exact absurd rfl (hreset cause straps)
  | endOfInitialising => exact ⟨_, rfl, s.advances_ite ((s.advances_await _).trans (.of_tb rfl)) (.refl s)⟩
  | frameReceived p d part => exact ⟨_, rfl, s.advances_event (.of_tb (s.onPort_receive d part).tb)⟩
  | lossOfSignalRaised p d => exact ⟨_, rfl, s.advances_event (s.advances_ite (.refl s) (hcondition p d _ _))⟩
  | lossOfSignalCleared p d => exact ⟨_, rfl, s.advances_event (s.advances_ite (hcondition p d _ _) (.refl s))⟩
  | lifeTimeout p d => exact ⟨_, rfl, s.advances_event (s.advances_awaited_tb _ (State.raiseSilent_tb _ p d))⟩
  | joiningQuietRunComplete p => exact ⟨_, rfl, s.advances_event (s.advances_awaited_tb _ rfl)⟩
  | leavingQuietRunComplete p => exact ⟨_, rfl, s.advances_event (s.advances_awaited_tb _ rfl)⟩
  | relayTransferEnd p => exact ⟨_, rfl, s.advances_event (s.advances_awaited_tb _ rfl)⟩
  | insertionBegin p => exact ⟨_, rfl, s.advances_event (s.advances_ite (hport p _) (.refl s))⟩
  | insertionEnd p marks => exact ⟨_, rfl, s.advances_event (s.advances_ite (hport p _) (.refl s))⟩
  | backlogDrained p => exact ⟨_, rfl, s.advances_event (s.advances_ite (hport p _) (.refl s))⟩
  | referencePulse => exact ⟨_, rfl, s.advances_event s.advances_pulse⟩
  | missNote => exact ⟨_, rfl, s.advances_event (s.advances_awaited _ (State.advances_missNote _))⟩
  | holdoverLimitReached => exact ⟨_, rfl, s.advances_event (s.advances_awaited _ (Timebase.Advances.of_governed rfl))⟩
  | slewSpent => exact ⟨_, rfl, s.advances_event (s.advances_await _)⟩
  | secondBoundary order => exact ⟨_, rfl, s.advances_event (s.advances_toBoundary order)⟩
  | deadlineExpiry i => exact ⟨_, rfl, s.advances_event (s.advances_awaited_tb _ (State.expireRecord_tb _ i))⟩
  | impulseStart l => exact ⟨_, rfl, s.advances_event (s.advances_awaited_tb _ rfl)⟩
  | probeStart l => exact ⟨_, rfl, s.advances_event (s.advances_awaited_tb _ rfl)⟩
  | impulseSample l sense => exact ⟨_, rfl, s.advances_event (s.advances_awaited_tb _ (State.sampleLine_tb _ l sense))⟩
  | impulseEnd l => exact ⟨_, rfl, s.advances_event (s.advances_awaited_tb _ (State.finishLine_tb _ l))⟩
  | unknownRequestCode code r => exact ⟨_, rfl, s.advances_ite (.refl s) (s.advances_serve_tb code r fun _ _ => rfl)⟩
  | resetTables r =>
    exact ⟨_, rfl, s.advances_ite (.refl s) (s.advances_ite (.of_tb (State.takeReset_tb _ r _))
      (s.advances_serve_tb 70 r fun _ _ => rfl))⟩
  | timeMark r => exact ⟨_, rfl, s.advances_serve 30 r fun params u => u.advances_reqTimeMark params⟩
  | setTimebase r => exact ⟨_, rfl, s.advances_serve 31 r fun params u => u.advances_reqSetTimebase params⟩
  | relock r => exact ⟨_, rfl, s.advances_serve 32 r fun params u => u.advances_reqRelock params⟩
  | setCivilOffset r => exact ⟨_, rfl, s.advances_serve 33 r fun params u => u.advances_reqSetCivilOffset params⟩
  | identify r => exact ⟨_, rfl, s.advances_serve_tb 1 r fun params u => reqIdentify_tb u params⟩
  | readStatus r => exact ⟨_, rfl, s.advances_serve_tb 2 r fun params u => reqReadStatus_tb u params⟩
  | setPort r => exact ⟨_, rfl, s.advances_serve_tb 10 r fun params u => reqSetPort_tb u params⟩
  | join r => exact ⟨_, rfl, s.advances_serve_tb 11 r fun params u => reqJoin_tb u params⟩
  | leave r => exact ⟨_, rfl, s.advances_serve_tb 12 r fun params u => reqLeave_tb u params⟩
  | readCounters r => exact ⟨_, rfl, s.advances_serve_tb 13 r fun params u => reqReadCounters_tb u params⟩
  | latchCounters r => exact ⟨_, rfl, s.advances_serve_tb 14 r fun params u => reqLatchCounters_tb u params⟩
  | loadWindow r => exact ⟨_, rfl, s.advances_serve_tb 20 r fun params u => reqLoadWindow_tb u params⟩
  | loadElement r => exact ⟨_, rfl, s.advances_serve_tb 21 r fun params u => reqLoadElement_tb u params⟩
  | removeElement r => exact ⟨_, rfl, s.advances_serve_tb 22 r fun params u => reqRemoveElement_tb u params⟩
  | readElement r => exact ⟨_, rfl, s.advances_serve_tb 23 r fun params u => reqReadElement_tb u params⟩
  | clearStatistics r => exact ⟨_, rfl, s.advances_serve_tb 24 r fun params u => reqClearStatistics_tb u params⟩
  | loadHeader r => exact ⟨_, rfl, s.advances_serve_tb 40 r fun params u => reqLoadHeader_tb u params⟩
  | loadEntry r => exact ⟨_, rfl, s.advances_serve_tb 41 r fun params u => reqLoadEntry_tb u params⟩
  | arm r => exact ⟨_, rfl, s.advances_serve_tb 42 r fun params u => bankRequest_tb u u.armBank_tb params⟩
  | disarm r => exact ⟨_, rfl, s.advances_serve_tb 43 r fun params u => bankRequest_tb u u.disarmBank_tb params⟩
  | abandon r => exact ⟨_, rfl, s.advances_serve_tb 44 r fun params u => bankRequest_tb u u.abandonBank_tb params⟩
  | clearBank r => exact ⟨_, rfl, s.advances_serve_tb 45 r fun params u => bankRequest_tb u u.clearBank_tb params⟩
  | cancelEntry r => exact ⟨_, rfl, s.advances_serve_tb 46 r fun params u => reqCancelEntry_tb u params⟩
  | readEntry r => exact ⟨_, rfl, s.advances_serve_tb 47 r fun params u => reqReadEntry_tb u params⟩
  | setLine r => exact ⟨_, rfl, s.advances_serve_tb 50 r fun params u => reqSetLine_tb u params⟩
  | setPosition r => exact ⟨_, rfl, s.advances_serve_tb 51 r fun params u => reqSetPosition_tb u params⟩
  | halt r => exact ⟨_, rfl, s.advances_serve_tb 52 r fun params u => lineRequest_tb u _ params⟩
  | run r => exact ⟨_, rfl, s.advances_serve_tb 53 r fun params u => lineRequest_tb u _ params⟩
  | setClass r => exact ⟨_, rfl, s.advances_serve_tb 60 r fun params u => reqSetClass_tb u params⟩
  | setAlert r => exact ⟨_, rfl, s.advances_serve_tb 61 r fun params u => reqSetAlert_tb u params⟩
  | readJournal r => exact ⟨_, rfl, s.advances_serve_tb 62 r fun params u => reqReadJournal_tb u params⟩
  | release r => exact ⟨_, rfl, s.advances_serve_tb 63 r fun params u => reqRelease_tb u params⟩

theorem exec_advances_of_next {i : Instr} {t : State} (hreset : ∀ c k, i ≠ .deviceReset c k) (h : exec i s = .next t) :
    s.Advances t := by
  obtain ⟨u, hu, hadvances⟩ := exec_advances s i hreset
  rw [hu] at h
  cases h
  exact hadvances

/-! ## A step -/

theorem State.queueEvent_tb (i : Instr) : (s.queueEvent i).tb = s.tb := by
  unfold State.queueEvent
  split
  · exact s.boundaryOrder_tb
  · rfl

theorem State.choose_tb (l : List Instr) : (s.choose l).tb = s.tb := by
  unfold State.choose
  split
  · rfl
  · exact s.queueEvent_tb _
  · exact State.queueEvent_tb _ _

/-- A part left to itself makes one cycle at most (log entry 2). -/
theorem State.advances_idle : s.Advances s.idle := by
  have htake : s.Advances (if s.initialising then s else { s with service := s.service.take }) :=
    s.advances_ite (.refl s) (.of_tb rfl)
  unfold State.idle
  dsimp only
  split
  · exact htake.trans (State.advances_setTb _ (Timebase.advances_cycle _))
  · exact htake.trans (.of_tb (State.choose_tb _ _))

/-- The laws of the timebase at a step: a device reset gives a timebase that meets them, and every other command advances it. -/
theorem step_keeps_timebaseLaws {s t : State} (h : step s = .next t) :
    (s.tb.lawful → t.tb.lawful) ∧ (s.tb.inDay → t.tb.inDay) := by
  unfold step at h
  split at h
  · cases h
    exact ⟨s.advances_idle.lawful, s.advances_idle.inDay⟩
  · rename_i i rest _
    by_cases hreset : ∃ c k, i = .deviceReset c k
    · obtain ⟨c, k, rfl⟩ := hreset
      obtain ⟨hlawful, hinDay, -⟩ := resetMeetsTheLaws
      cases h
      exact ⟨fun _ => hlawful, fun _ => hinDay⟩
    · push Not at hreset
      have hadvances := exec_advances_of_next { s with pending := rest } hreset h
      exact ⟨hadvances.lawful, hadvances.inDay⟩

end States

/-- Settles O54: the advance of every command keeps the laws, and a device reset meets them. -/
theorem timebaseLawsAreKept : Obligations.TimebaseLawsAreKept :=
  ⟨fun _ _ hs h => (step_keeps_timebaseLaws h).1 hs, fun _ _ hs h => (step_keeps_timebaseLaws h).2 hs⟩

/-- Settles O55: the advance of every command, and of a part left to itself. -/
theorem onlyDeviceResetTurnsBack : Obligations.OnlyDeviceResetTurnsBack := by
  refine ⟨fun i s t hreset h => (exec_advances_of_next s hreset h).elapsed,
    fun i s t hreset h => (exec_advances_of_next s hreset h).setFlag, fun s t hp h => ?_⟩
  rw [step_idle s hp] at h
  cases h
  exact ⟨s.advances_idle.elapsed, s.advances_idle.setFlag⟩

end Sys2Proof.Machine
end

