-- ==== Sys2Proof/Proofs/Scales.lean ====
section
/-! PROOFS. Sys2Proof/Proofs/Scales.lean: many oscillator cycles at once are the cycles one by one, and time that runs to the
end of the slew (R49). -/

namespace Sys2Proof.Machine

section Cycles

variable (tb : Timebase)

/-! ## Many cycles at once -/

/-- The increment stays while the slew is in force throughout, or not at all (R49). -/
theorem Timebase.inc_cycles (m : Nat) (h : tb.slewLeft = 0 ∨ m < tb.slewLeft) : (tb.cycles m).inc = tb.inc := by
  have hforce : (tb.cycles m).slewInForce = tb.slewInForce := by
    unfold Timebase.slewInForce
    rcases h with h | h
    · simp [Timebase.cycles, h]
    · have hleft : 0 < tb.slewLeft - m := by omega
      have hall : 0 < tb.slewLeft := by omega
      simp [Timebase.cycles, hleft, hall]
  unfold Timebase.inc
  rw [hforce]
  rfl

theorem Timebase.cycle_eq_cycles : tb.cycle = tb.cycles 1 := by simp [Timebase.cycle, Timebase.cycles]

/-- Cycles at one increment add up. -/
theorem Timebase.cycles_cycles (m n : Nat) (h : (tb.cycles m).inc = tb.inc) : (tb.cycles m).cycles n = tb.cycles (m + n) := by
  have hadd (a : Nat) : (a + m * tb.inc) % 4294967296 + n * tb.inc + 4294967296 * ((a + m * tb.inc) / 4294967296) =
      a + (m + n) * tb.inc := by
    rw [Nat.add_mul]
    omega
  have hdiv (a : Nat) : (a + m * tb.inc) / 4294967296 + ((a + m * tb.inc) % 4294967296 + n * tb.inc) / 4294967296 =
      (a + (m + n) * tb.inc) / 4294967296 := by
    rw [← hadd a, Nat.add_mul_div_left _ _ (by decide), Nat.add_comm]
  have hmod (a : Nat) : ((a + m * tb.inc) % 4294967296 + n * tb.inc) % 4294967296 = (a + (m + n) * tb.inc) % 4294967296 := by
    rw [← hadd a, Nat.add_mul_mod_self_left]
  have hcarry : (decide (0 < m ∧ 1000000000 ≤ tb.tod.nanos + (tb.todFrac + m * tb.inc) / 4294967296) ||
      decide (0 < n ∧ 1000000000 ≤ tb.tod.nanos + (tb.todFrac + (m + n) * tb.inc) / 4294967296)) =
      decide (0 < m + n ∧ 1000000000 ≤ tb.tod.nanos + (tb.todFrac + (m + n) * tb.inc) / 4294967296) := by
    have hle := hdiv tb.todFrac
    rw [← Bool.decide_or, decide_eq_decide]
    rcases Nat.eq_zero_or_pos n with rfl | hn
    · simp
    · omega
  rw [Timebase.cycles, h]
  simp only [Timebase.cycles, Nat.add_assoc tb.tod.nanos, hmod, laterElapsed_add, hdiv, Bool.or_assoc, hcarry, Nat.sub_sub]

theorem Timebase.run_zero (ht : tb.todFrac < 4294967296) (he : tb.elapsedFrac < 4294967296) : tb.run 0 = tb := by
  have hlater : laterElapsed tb.elapsed 0 = tb.elapsed := by
    unfold laterElapsed
    omega
  simp [Timebase.run, Timebase.cycles, Nat.div_eq_of_lt, Nat.mod_eq_of_lt, ht, he, hlater]

/-- One cycle more, across the end of the slew as well. -/
theorem Timebase.run_succ (n : Nat) : tb.run (n + 1) = (tb.run n).cycle := by
  rw [Timebase.cycle_eq_cycles]
  unfold Timebase.run
  rcases Nat.lt_trichotomy n tb.slewLeft with hlt | rfl | hgt
  · rw [if_pos (by omega), if_pos (by omega), Timebase.cycles_cycles _ _ _ (tb.inc_cycles n (.inr hlt))]
  · rw [if_neg (by omega), if_pos (Nat.le_refl _), Nat.add_sub_cancel_left]
  · have hspent : (tb.cycles tb.slewLeft).slewLeft = 0 := Nat.sub_self _
    rw [if_neg (by omega), if_neg (by omega), Timebase.cycles_cycles _ _ _ (Timebase.inc_cycles _ _ (.inl hspent)),
      Nat.sub_add_comm (by omega)]

theorem Timebase.run_eq_iterate (ht : tb.todFrac < 4294967296) (he : tb.elapsedFrac < 4294967296) (n : Nat) :
    tb.run n = Timebase.cycle^[n] tb := by
  induction n with
  | zero => exact tb.run_zero ht he
  | succ n ih => rw [Function.iterate_succ_apply', ← ih, tb.run_succ]

/-- The rate and the slew together move the increment by 55 ppm at the most (R49, R55). -/
theorem Timebase.inc_bounds (h : tb.lawful) : 429496729600 - 236223201 ≤ tb.inc ∧ tb.inc ≤ 429496729600 + 236223201 := by
  obtain ⟨hr, hr', hs, hs'⟩ := h
  have hslew : -500000 ≤ tb.slewInForce ∧ tb.slewInForce ≤ 500000 := by
    unfold Timebase.slewInForce
    split
    · exact ⟨hs, hs'⟩
    · decide
  unfold Timebase.inc roundDiv
  split <;> omega

/-! ## The end of the slew -/

theorem Timebase.run_slewLeft : (tb.run tb.slewLeft).slewLeft = 0 := by
  rw [Timebase.run, if_pos (Nat.le_refl _)]
  exact Nat.sub_self _

/-- A need that the slew cycles left meet exactly takes just these cycles. -/
theorem Timebase.cyclesFor_slewLeft (h : tb.lawful) (hleft : 0 < tb.slewLeft) :
    tb.cyclesFor (tb.slewLeft * tb.inc) = tb.slewLeft := by
  have hgain (m : Nat) (hm : m ≤ tb.slewLeft) : tb.gain m = m * tb.inc := if_pos hm
  have hle := tb.cyclesFor_le_iff h (tb.slewLeft * tb.inc) tb.slewLeft
  have hlt := tb.cyclesFor_le_iff h (tb.slewLeft * tb.inc) (tb.slewLeft - 1)
  have hinc := tb.inc_pos h
  rw [hgain _ (Nat.le_refl _)] at hle
  rw [hgain _ (Nat.sub_le _ _), Nat.mul_le_mul_right_iff hinc] at hlt
  omega

/-- Short of its end, the elapsed scale advances by what the cycles add (R49, log entry 24). -/
theorem Timebase.instant_cycles (n : Nat) (h : (tb.cycles n).elapsed < 18446744073709551615) :
    (tb.cycles n).instant = tb.instant + n * tb.inc := by
  have helapsed : (tb.cycles n).elapsed = tb.elapsed + (tb.elapsedFrac + n * tb.inc) / 4294967296 := by
    simp only [Timebase.cycles, laterElapsed] at h ⊢
    omega
  rw [Timebase.instant_eq, Timebase.instant_eq, helapsed]
  show _ + (tb.elapsedFrac + n * tb.inc) % 4294967296 = _
  omega

/-- Time runs to an instant in one turn when no second boundary comes at or ahead of it. -/
theorem State.until_run (s : State) (t : Nat) (ht : s.tb.instant < t) (hcarry : s.tb.carryDue = false)
    (hfirst : s.tb.cyclesTo t ≤ s.tb.cyclesToCarry) (hreach : t ≤ (s.tb.run (s.tb.cyclesTo t)).instant) :
    s.until t = s.setTb (s.tb.run (s.tb.cyclesTo t)) := by
  unfold State.until
  rw [State.passTo, if_neg (Nat.not_le.mpr ht), hcarry, if_neg Bool.false_ne_true, Nat.min_eq_left hfirst, State.passTo]
  exact if_pos hreach

end Cycles

/-- Settles O34: a run of cycles is the cycles one by one, and the slew cycles left are the cycles to the end of the slew. -/
theorem scalesAdvanceAndSlewRunsOut : Obligations.ScalesAdvanceAndSlewRunsOut := by
  refine ⟨fun tb n ht he => tb.run_eq_iterate ht he n, fun tb h => tb.inc_bounds h, ?_⟩
  intro s hs hlaw hleft hcarry ht he hnanos helapsed
  have hrun : s.tb.run s.tb.slewLeft = s.tb.cycles s.tb.slewLeft := if_pos (Nat.le_refl _)
  have hinstant : (s.tb.run s.tb.slewLeft).instant = s.tb.instant + s.tb.slewLeft * s.tb.inc := by
    rw [hrun] at helapsed ⊢
    exact s.tb.instant_cycles _ helapsed
  have hto : s.tb.cyclesTo (s.tb.instant + s.tb.slewLeft * s.tb.inc) = s.tb.slewLeft := by
    rw [Timebase.cyclesTo, Nat.add_sub_cancel_left, s.tb.cyclesFor_slewLeft hlaw hleft]
  have hboundary : s.tb.slewLeft ≤ s.tb.cyclesToCarry := by
    have hiff := s.tb.cyclesToCarry_le_iff hlaw s.tb.slewLeft
    omega
  have hahead : 0 < s.tb.slewLeft * s.tb.inc := Nat.mul_pos hleft (s.tb.inc_pos hlaw)
  have huntil := s.until_run (s.tb.instant + s.tb.slewLeft * s.tb.inc) (by omega) hcarry (by rw [hto]; exact hboundary)
    (by rw [hto, hinstant])
  rw [← s.tb.run_eq_iterate ht he]
  refine ⟨?_, s.tb.run_slewLeft⟩
  rw [hto] at huntil
  have hspent : exec .slewSpent s = s.event fun s => s.await s.tb.slewInstant := rfl
  rw [← huntil, hspent, s.event_eq _ hs, Timebase.slewInstant, if_neg hleft.ne']
  rfl

end Sys2Proof.Machine
end

