-- ==== Sys2Proof/Proofs/Pulses.lean ====
section
/-! PROOFS. Sys2Proof/Proofs/Pulses.lean: what a pulse is taken for, and the loop arithmetic with the test of each loop state (R52 to R58, R61, R64). -/

namespace Sys2Proof.Machine

section Facts

variable (s : State)

/-! ## What a pulse is taken for (R52, R64) -/

/-- Between two seconds the time of day reads as it stands (R50). -/
theorem Timebase.time_eq_tod (tb : Timebase) (h : tb.tod.nanos < 1000000000) : tb.time = tb.tod := if_neg (Nat.not_le.mpr h)

theorem exec_referencePulse (h : s.initialising = false) : exec .referencePulse s = .next s.pulse := s.event_eq State.pulse h

theorem Timebase.acceptsPulse_eq_false (tb : Timebase) {t : Nat} (ht : tb.lastPulse = some t) (h : tb.instant < t + ms 500) :
    tb.acceptsPulse = false := by
  simp [Timebase.acceptsPulse, ht, h]

theorem State.pulse_spurious (h : s.tb.acceptsPulse = false) : s.pulse = s.setTb { s.tb with spurious := raise32 s.tb.spurious } :=
  if_neg (by simp [h])

theorem State.pulse_free (h : s.tb.acceptsPulse = true) (hloop : s.tb.loop = .free) :
    s.pulse = ((s.setTb s.tb.takePulse).armLeap s.tb.label).pulseInFree s.tb.label :=
  (if_pos h).trans (if_pos hloop)

theorem State.pulse_loop (h : s.tb.acceptsPulse = true) (hloop : s.tb.loop ≠ .free) :
    s.pulse = ((s.setTb s.tb.takePulse).armLeap s.tb.label).pulseInLoop s.tb.label (pulseError s.tb.label s.tb.time) :=
  (if_pos h).trans (if_neg hloop)

theorem Timebase.takePulse_unlabelled (tb : Timebase) (h : tb.label = none) :
    tb.takePulse = { tb with lastPulse := some tb.instant, nextNote := some (tb.instant + ms 1500) } := by
  simp [Timebase.takePulse, h]

theorem State.armLeap_unannounced (l : Label) (h : l.announcement = .none) : s.armLeap (some l) = s := by
  unfold State.armLeap
  simp [h]

/-- A label announces a leap of this kind (R53, R64). -/
def Label.announces (l : Label) (kind : LeapKind) : Prop :=
  (kind = .insert ∧ l.announcement = .insert) ∨ (kind = .delete ∧ l.announcement = .delete)

theorem State.armLeap_announced (l : Label) (kind : LeapKind) (h : l.announces kind) : s.armLeap (some l) =
    if 0 < dayDiff s.tb.time.day l.day then s.reportTb .leapDiscarded
    else s.setTb { s.tb with armedLeap := some ⟨l.day, kind⟩ } := by
  unfold State.armLeap
  rcases h with ⟨rfl, h⟩ | ⟨rfl, h⟩ <;> simp [h]

/-- The label with what it announces acted on. -/
def Label.silent (l : Label) : Label := { l with announcement := .none }

theorem State.moveTime_silent (l : Label) (event : TimebaseEvent) : s.moveTime l.silent event = s.moveTime l event := rfl

theorem State.pulseInFree_silent (l : Label) : s.pulseInFree (some l.silent) = s.pulseInFree (some l) := by
  rw [State.pulseInFree_label, State.pulseInFree_label, State.moveTime_silent]

theorem State.pulseInLoop_silent (l : Label) (e : Int) : s.pulseInLoop (some l.silent) e = s.pulseInLoop (some l) e := by
  rw [State.pulseInLoop_label, State.pulseInLoop_label, State.moveTime_silent]

/-- Once the leap that a label announces is acted on, its pulse is that of the label without it (R64). -/
theorem State.pulse_announced (v : State) {l : Label} (haccepts : s.tb.acceptsPulse = true) (hlabel : s.tb.label = some l)
    (hv : v.tb.acceptsPulse = s.tb.acceptsPulse ∧ v.tb.label = some l.silent ∧ v.tb.loop = s.tb.loop ∧ v.tb.time = s.tb.time)
    (harm : (s.setTb s.tb.takePulse).armLeap (some l) = v.setTb v.tb.takePulse) : s.pulse = v.pulse := by
  obtain ⟨haccepts', hlabel', hloop', htime⟩ := hv
  rw [haccepts] at haccepts'
  by_cases hloop : s.tb.loop = .free
  · rw [s.pulse_free haccepts hloop, v.pulse_free haccepts' (hloop'.trans hloop), hlabel, hlabel', harm,
      State.armLeap_unannounced _ _ rfl, State.pulseInFree_silent]
  · rw [s.pulse_loop haccepts hloop, v.pulse_loop haccepts' (by rwa [hloop']), hlabel, hlabel', harm,
      State.armLeap_unannounced _ _ rfl, State.pulseInLoop_silent, htime]
    rfl

/-- A label that announces a leap arms it ahead of what its pulse does, or has it discarded with its record (R64). -/
theorem State.pulse_announced_cases {l : Label} {kind : LeapKind} {t : State} (haccepts : s.tb.acceptsPulse = true)
    (hlabel : s.tb.label = some l) (hnanos : s.tb.tod.nanos < 1000000000) (hkind : l.announces kind)
    (ht : t = s.setTb { s.tb with label := some l.silent }) :
    (dayDiff s.tb.tod.day l.day ≤ 0 → s.pulse = (t.setTb { t.tb with armedLeap := some ⟨l.day, kind⟩ }).pulse) ∧
      (0 < dayDiff s.tb.tod.day l.day → s.pulse = (t.withRecord (s.levelOf .time) (.timebase .leapDiscarded none)).pulse) := by
  have htime := s.tb.time_eq_tod hnanos
  have hday : (s.setTb s.tb.takePulse).tb.time.day = s.tb.tod.day := congrArg TimeOfDay.day htime
  have harm := (s.setTb s.tb.takePulse).armLeap_announced l kind hkind
  rw [hday] at harm
  subst ht
  refine ⟨fun h => s.pulse_announced _ haccepts hlabel ⟨rfl, rfl, rfl, ?_⟩ ?_,
    fun h => s.pulse_announced _ haccepts hlabel ⟨rfl, rfl, rfl, rfl⟩ ?_⟩
  · rw [htime]
    exact Timebase.time_eq_tod _ hnanos
  · exact harm.trans (if_neg (by omega))
  · exact harm.trans (if_pos h)

/-! ## The loop (R54 to R58, R61) -/

/-- The timebase of an accepted pulse with the loop arithmetic applied to its error and the run counts brought up to date (R54 to R56). -/
def Timebase.looped (tb : Timebase) (e : Int) : Timebase :=
  (tb.takePulse.countPulse tb.label.isSome e).loopArithmetic e

theorem raise8_eq (n : Nat) : raise8 n = min 255 (n + 1) := by
  unfold raise8 saturate
  split <;> omega

section Judgements

variable (x : Timebase)

theorem State.judgeLock_cases : (x.good ≤ 7 → (s.setTb x).judgeLock = s.setTb x) ∧
    (8 ≤ x.good → (s.setTb x).judgeLock =
      (s.setTb { x with loop := .locked }).withRecord (s.levelOf .time) (.timebase .lock none)) :=
  ⟨fun h => if_neg (Nat.not_le.mpr (Nat.lt_succ_of_le h)), fun h => if_pos h⟩

theorem State.judgeLockLost_cases : (x.bad ≤ 2 → (s.setTb x).judgeLockLost = s.setTb x) ∧
    (3 ≤ x.bad → (s.setTb x).judgeLockLost = (s.setTb { x with loop := .acquiring, good := 0, bad := 0 }).withRecord
      (s.levelOf .time) (.timebase .lockLost none)) :=
  ⟨fun h => if_neg (Nat.not_le.mpr (Nat.lt_succ_of_le h)), fun h => if_pos h⟩

theorem State.judgeReturn_cases (e : Int) :
    (e.natAbs ≤ x.lockWindow * 1000 → x.fastReturn = false →
      (s.setTb x).judgeReturn e = s.setTb { x with fastReturn := true, good := 1 }) ∧
    (e.natAbs ≤ x.lockWindow * 1000 → x.fastReturn = true → (s.setTb x).judgeReturn e = (s.setTb { x with
      loop := .locked, good := 2, fastReturn := false, holdoverSince := none, degraded := false }).withRecord
        (s.levelOf .time) (.timebase .lock none)) ∧
    (x.lockWindow * 1000 < e.natAbs → (s.setTb x).judgeReturn e = (s.setTb { x with
      loop := .acquiring, good := 0, bad := 0, steps := 0, fastReturn := false, holdoverSince := none,
      degraded := false }).withRecord (s.levelOf .time) (.timebase .back none)) := by
  unfold State.judgeReturn
  refine ⟨fun h hf => ?_, fun h hf => ?_, fun h => ?_⟩
  · rw [State.setTb_tb, if_pos h, if_neg (by simp [hf])]
    rfl
  · rw [State.setTb_tb, if_pos h, if_pos hf]
    rfl
  · rw [State.setTb_tb, if_neg (Nat.not_le.mpr h)]
    rfl

end Judgements

/-- The step count after a pulse with this error: a phase-only one keeps it (R56). -/
def Timebase.stepsAfter (tb : Timebase) (e : Int) : Nat :=
  if tb.label.isSome then (if tb.stepThreshold * 1000 < e.natAbs then min 255 (tb.steps + 1) else 0) else tb.steps

theorem Timebase.countPulse_steps (tb : Timebase) (e : Int) : (tb.countPulse tb.label.isSome e).steps = tb.stepsAfter e := by
  simp only [Timebase.countPulse, Timebase.stepsAfter, raise8_eq]

theorem Timebase.looped_eq (tb : Timebase) (e : Int) : tb.looped e = { tb with
    slew := clampInt (-500000) 500000 (roundDiv (clampInt (-500000000) 500000000 e) (2 ^ tb.gp))
    rate := clampInt (-50000) 50000 (tb.rate + roundDiv (clampInt (-500000000) 500000000 e) (2 ^ tb.gi))
    slewLeft := 10000000
    good := if e.natAbs ≤ tb.lockWindow * 1000 then min 255 (tb.good + 1) else 0
    bad := if 4 * (tb.lockWindow * 1000) < e.natAbs then min 255 (tb.bad + 1) else 0
    steps := tb.stepsAfter e
    misses := 0
    label := none
    lastPulse := some tb.instant
    nextNote := some (tb.instant + ms 1500) } := by
  rw [← tb.countPulse_steps, ← raise8_eq, ← raise8_eq]
  rfl

/-- An accepted pulse outside FREE, its label announcing nothing and making no step, is judged in its loop state (R55 to R61). -/
theorem State.pulse_looped (haccepts : s.tb.acceptsPulse = true) (hloop : s.tb.loop ≠ .free)
    (hsilent : ∀ l, s.tb.label = some l → l.announcement = .none)
    (hstay : s.tb.label = none ∨ s.tb.loop = .holdover ∨ s.tb.stepsAfter (pulseError s.tb.label s.tb.time) < 3) :
    s.pulse = (s.setTb s.tb.takePulse).pulseTests (s.tb.takePulse.countPulse s.tb.label.isSome (pulseError s.tb.label s.tb.time))
      (pulseError s.tb.label s.tb.time) := by
  rw [s.pulse_loop haccepts hloop]
  cases hlabel : s.tb.label with
  | none => rfl
  | some l =>
    have hsteps := s.tb.countPulse_steps (pulseError s.tb.label s.tb.time)
    rw [hlabel] at hsteps hstay
    rw [State.armLeap_unannounced _ l (hsilent l hlabel), State.pulseInLoop_label]
    refine if_neg fun ⟨hhold, hstep⟩ => ?_
    rcases hstay with h | h | h
    · cases h
    · exact hhold h
    · exact absurd (hsteps ▸ hstep) (Nat.not_le.mpr h)

theorem State.pulseTests_acquiring (tb : Timebase) (e : Int) (h : tb.loop = .acquiring) :
    s.pulseTests tb e = (s.setTb (tb.loopArithmetic e)).judgeLock := by
  simp [State.pulseTests, h]

theorem State.pulseTests_locked (tb : Timebase) (e : Int) (h : tb.loop = .locked) :
    s.pulseTests tb e = (s.setTb (tb.loopArithmetic e)).judgeLockLost := by
  simp [State.pulseTests, h]

theorem State.pulseTests_holdover (tb : Timebase) (e : Int) (h : tb.loop = .holdover) :
    s.pulseTests tb e = (s.setTb (tb.loopArithmetic e)).judgeReturn e := by
  simp [State.pulseTests, h]

end Facts

/-- Settles O36: spurious, phase-only and announcing pulses, and the loop arithmetic with the tests of each loop state. -/
theorem pulseAppliesTheLoop : Obligations.PulseAppliesTheLoop := by
  refine ⟨fun tb => tb.time_eq_tod, fun s hi => ⟨fun t ht h => ?_, fun haccepts hlabel hloop => ?_,
    fun l kind t haccepts hlabel hnanos hkind ht => ?_, fun e steps base haccepts hcase hbase => ?_⟩⟩
  · rw [exec_referencePulse s hi, s.pulse_spurious (s.tb.acceptsPulse_eq_false ht h)]
  · rw [exec_referencePulse s hi, s.pulse_free haccepts hloop, hlabel, s.tb.takePulse_unlabelled hlabel]
    rfl
  · have ht' : t.initialising = false := by rw [ht]; exact hi
    obtain ⟨harmed, hdiscarded⟩ := s.pulse_announced_cases haccepts hlabel hnanos hkind ht
    rw [exec_referencePulse s hi, exec_referencePulse _ (by exact ht'), exec_referencePulse _ (by exact ht')]
    exact ⟨fun h => congrArg _ (harmed h), fun h => congrArg _ (hdiscarded h)⟩
  · obtain ⟨herror, hsteps, hsilent, hstay⟩ : e = pulseError s.tb.label s.tb.time ∧ steps = s.tb.stepsAfter e ∧
        (∀ l, s.tb.label = some l → l.announcement = .none) ∧
        (s.tb.label = none ∨ s.tb.loop = .holdover ∨ s.tb.stepsAfter e < 3) := by
      rcases hcase with ⟨hlabel, he, hs⟩ | ⟨l, hlabel, hann, hstay, he, hs⟩
      · simp [Timebase.stepsAfter, pulseError, hlabel, he, hs]
      · have hsteps : steps = s.tb.stepsAfter e := by simp [Timebase.stepsAfter, hlabel, hs]
        refine ⟨?_, hsteps, fun k hk => ?_, hsteps ▸ .inr hstay⟩
        · rw [hlabel]
          exact he
        · rw [hlabel, Option.some.injEq] at hk
          rwa [← hk]
    rw [hsteps, ← s.tb.looped_eq e] at hbase
    have hpulse (h : s.tb.loop ≠ .free) := s.pulse_looped haccepts h hsilent (herror ▸ hstay)
    rw [← herror] at hpulse
    rw [exec_referencePulse s hi, hbase]
    refine ⟨fun hloop => ?_, fun hloop => ?_, fun hloop => ?_⟩
    · have hjudged : s.pulse = (s.setTb (s.tb.looped e)).judgeLockLost :=
        (hpulse (by simp [hloop])).trans (State.pulseTests_locked _ _ e hloop)
      obtain ⟨hstays, hlost⟩ := s.judgeLockLost_cases (s.tb.looped e)
      rw [hjudged]
      exact ⟨fun h => congrArg _ (hstays h), fun h => congrArg _ (hlost h)⟩
    · have hjudged : s.pulse = (s.setTb (s.tb.looped e)).judgeLock :=
        (hpulse (by simp [hloop])).trans (State.pulseTests_acquiring _ _ e hloop)
      obtain ⟨hstays, hlocks⟩ := s.judgeLock_cases (s.tb.looped e)
      rw [hjudged]
      exact ⟨fun h => congrArg _ (hstays h), fun h => congrArg _ (hlocks h)⟩
    · have hjudged : s.pulse = (s.setTb (s.tb.looped e)).judgeReturn e :=
        (hpulse (by simp [hloop])).trans (State.pulseTests_holdover _ _ e hloop)
      obtain ⟨hfirst, hsecond, hback⟩ := s.judgeReturn_cases (s.tb.looped e) e
      rw [hjudged]
      exact ⟨fun h hf => congrArg _ (hfirst h hf), fun h hf => congrArg _ (hsecond h hf), fun h => congrArg _ (hback h)⟩

end Sys2Proof.Machine
end

