-- ==== Sys2Proof/Proofs/Choices.lean ====
section
/-! PROOFS. Sys2Proof/Proofs/Choices.lean: the seconds of the ports and the walk of the checker come out alike whatever free choices were made (log entry 7). -/

namespace Sys2Proof.Machine

/-- The state with another number of free choices made. -/
def State.chosen (s : State) (n : Nat) : State := { s with choices := n }

/-- An advance with another number of free choices made. -/
def Walked.chosen (w : Walked) (n : Nat) : Walked := { w with state := w.state.chosen n }

section Facts

variable (s : State) (n : Nat)

/-! ## The operations of the state -/

theorem State.bank_chosen (b : BankId) : (s.chosen n).bank b = s.bank b := rfl

theorem State.entry_chosen (r : EntryRef) : (s.chosen n).entry r = s.entry r := rfl

theorem State.element_chosen (i : Nat) : (s.chosen n).element i = s.element i := rfl

theorem State.openList_chosen : (s.chosen n).openList = s.openList := rfl

theorem State.setBank_chosen (b : BankId) (x : Bank) : (s.chosen n).setBank b x = (s.setBank b x).chosen n := by cases b <;> rfl

theorem State.setEntry_chosen (r : EntryRef) (e : Entry) : (s.chosen n).setEntry r e = (s.setEntry r e).chosen n :=
  s.setBank_chosen n r.bank _

theorem State.setOpenList_chosen (l : List EntryRef) : (s.chosen n).setOpenList l = (s.setOpenList l).chosen n := rfl

theorem State.offer_chosen (o : Offer) : (s.chosen n).offer o = (s.offer o).chosen n := rfl

theorem State.report_chosen (b : Body) : (s.chosen n).report b = (s.report b).chosen n := rfl

theorem State.ite_chosen (c : Prop) [Decidable c] (t : State) :
    (if c then s else t).chosen n = if c then s.chosen n else t.chosen n := apply_ite (State.chosen · n) c s t

theorem State.foldl_chosen {α : Type} {f : State → α → State} (hf : ∀ s n a, f (s.chosen n) a = (f s a).chosen n) (l : List α) :
    l.foldl f (s.chosen n) = (l.foldl f s).chosen n := by
  induction l generalizing s with
  | nil => rfl
  | cons a l ih => rw [List.foldl_cons, hf, ih, List.foldl_cons]

/-! ## The seconds of the ports (R21) -/

theorem State.endSecond_chosen (pd : PortId × Direction) : (s.chosen n).endSecond pd = (s.endSecond pd).chosen n := by
  unfold State.endSecond
  dsimp only
  rw [State.ite_chosen]
  rfl

theorem State.endSeconds_chosen : (s.chosen n).endSeconds = s.endSeconds.chosen n :=
  s.foldl_chosen n State.endSecond_chosen receivers

/-! ## The banks and the open list (R112, R118, R122) -/

theorem State.adjustRefs_chosen (f : Nat → Nat) (i : Nat) :
    State.adjustRefs f (s.chosen n) i = (State.adjustRefs f s i).chosen n := by
  unfold State.adjustRefs
  rw [State.element_chosen]
  cases s.element i <;> rfl

theorem State.lowerRefs_chosen (l : List Entry) : (s.chosen n).lowerRefs l = (s.lowerRefs l).chosen n :=
  s.foldl_chosen n (fun s n e => s.foldl_chosen n (fun s n i => s.adjustRefs_chosen n _ i) e.names) l

theorem State.emptyBank_chosen (b : BankId) : (s.chosen n).emptyBank b = (s.emptyBank b).chosen n := by
  rw [State.emptyBank, State.bank_chosen, State.lowerRefs_chosen, State.setBank_chosen, ← State.emptyBank]

theorem State.settleBank_chosen (b : BankId) : (s.chosen n).settleBank b = (s.settleBank b).chosen n := by
  rw [State.settleBank, State.settleBank, State.bank_chosen, State.emptyBank_chosen, State.report_chosen,
    State.ite_chosen]

theorem State.closeEntry_chosen (r : EntryRef) (status : EntryStatus) (dated : Dated) (ageLimit clamped : Bool)
    (result : Option MatchResult) : (s.chosen n).closeEntry r status dated ageLimit clamped result =
      (s.closeEntry r status dated ageLimit clamped result).chosen n := by
  unfold State.closeEntry
  rw [State.entry_chosen]
  cases s.entry r with
  | none => rfl
  | some e =>
    dsimp only
    rw [State.setEntry_chosen, State.setOpenList_chosen, State.offer_chosen, State.settleBank_chosen]
    rfl

theorem State.closeOwn_chosen (r : EntryRef) (status : EntryStatus) : (s.chosen n).closeOwn r status = (s.closeOwn r status).chosen n :=
  s.closeEntry_chosen n r status _ _ _ _

theorem State.insertRef_chosen (r : EntryRef) (l : List EntryRef) : (s.chosen n).insertRef r l = s.insertRef r l := by
  induction l with
  | nil => rfl
  | cons x l ih =>
    unfold State.insertRef
    rw [ih]
    rfl

theorem State.openEntry_chosen (r : EntryRef) (e : Entry) : (s.chosen n).openEntry r e = (s.openEntry r e).chosen n := by
  unfold State.openEntry
  rw [State.ite_chosen, State.closeOwn_chosen, State.setEntry_chosen]
  dsimp only
  rw [State.insertRef_chosen]
  rfl

/-! ## The walk (R115 to R121) -/

theorem State.advance_chosen (b : BankId) (passed : EntryStatus) (k : Nat) (w : Walked) :
    State.advance b passed k (w.chosen n) = (State.advance b passed k w).chosen n := by
  induction k generalizing w with
  | zero => rfl
  | succ k ih =>
    unfold State.advance
    have hstate : (w.chosen n).state = w.state.chosen n := rfl
    dsimp only
    rw [hstate, State.bank_chosen]
    cases (w.state.bank b).entries[(w.state.bank b).nextToOpen]? with
    | none => rfl
    | some e =>
      dsimp only
      rw [State.setBank_chosen, State.closeOwn_chosen, State.openEntry_chosen]
      simp only [apply_ite (Walked.chosen · n), ← ih]
      rfl

theorem State.walkBank_chosen (b : BankId) (passed : EntryStatus) : (s.chosen n).walkBank b passed = (s.walkBank b passed).chosen n :=
  State.advance_chosen n b passed _ ⟨s, 0, 0⟩

theorem State.closePassed_chosen (k : Nat) : State.closePassed k (s.chosen n) = (State.closePassed k s).chosen n := by
  induction k generalizing s with
  | zero => rfl
  | succ k ih =>
    unfold State.closePassed
    rw [State.openList_chosen]
    cases s.openList with
    | nil => rfl
    | cons r l =>
      dsimp only
      rw [State.entry_chosen]
      cases s.entry r with
      | none => rfl
      | some e =>
        dsimp only
        rw [State.closeOwn_chosen, ih, State.ite_chosen]
        rfl

theorem State.retire_chosen (b : BankId) : (s.chosen n).retire b = (s.retire b).chosen n := by
  unfold State.retire
  dsimp only
  rw [State.bank_chosen, State.setBank_chosen, State.report_chosen, State.settleBank_chosen]
  rfl

theorem State.activate_chosen (b : BankId) : (s.chosen n).activate b = (s.activate b).chosen n := by
  have hother : (if ((s.chosen n).bank b.other).state = .active then (s.chosen n).retire b.other else s.chosen n) =
      (if (s.bank b.other).state = .active then s.retire b.other else s).chosen n := by
    rw [State.retire_chosen, State.ite_chosen]
    rfl
  unfold State.activate
  dsimp only
  rw [hother, State.bank_chosen, State.bank_chosen, State.setBank_chosen, State.walkBank_chosen]
  rfl

theorem State.judgeActivation_chosen (b : BankId) : (s.chosen n).judgeActivation b = (s.judgeActivation b).chosen n := by
  unfold State.judgeActivation
  rw [State.activate_chosen, State.ite_chosen]
  rfl

theorem State.walkActive_chosen (b : BankId) : (s.chosen n).walkActive b = (s.walkActive b).chosen n := by
  unfold State.walkActive
  rw [State.walkBank_chosen, State.ite_chosen]
  rfl

theorem State.judgeEnd_chosen (b : BankId) : (s.chosen n).judgeEnd b = (s.judgeEnd b).chosen n := by
  unfold State.judgeEnd
  rw [State.retire_chosen, State.ite_chosen]
  rfl

theorem State.walk_chosen : (s.chosen n).walk = s.walk.chosen n := by
  unfold State.walk
  dsimp only
  rw [State.foldl_chosen _ _ State.judgeActivation_chosen, State.foldl_chosen _ _ State.walkActive_chosen,
    State.openList_chosen, State.closePassed_chosen, State.foldl_chosen _ _ State.judgeEnd_chosen]

end Facts

end Sys2Proof.Machine
end

