-- ==== Sys2Proof/Proofs/StepEvents.lean ====
section
/-! PROOFS. Sys2Proof/Proofs/StepEvents.lean: the step event, and the pulses that move the time of day to a label (R56, R57, R64, R66, R69, R137). -/

namespace Sys2Proof.Machine

section Facts

variable (s : State)

/-! ## The step event (R66, R69, R137) -/

theorem State.boundaryOrder_chosen : ∃ n, s.boundaryOrder.2 = s.chosen n := by
  unfold State.boundaryOrder
  split
  · exact ⟨_, rfl⟩
  · exact ⟨s.choices, rfl⟩

theorem State.line_chosen (n : Nat) (l : LineId) : (s.chosen n).line l = s.line l := rfl

theorem State.tb_chosen (n : Nat) : (s.chosen n).tb = s.tb := rfl

/-- The state that a step event hands to the clock lines (R69). -/
def State.stepped : State := s.endSeconds.walk

theorem State.stepEvent_eq : ∃ n o, s.stepEvent = (s.stepped.chosen n).handToLines o := by
  obtain ⟨n, hn⟩ := s.boundaryOrder_chosen
  refine ⟨n, { s.boundaryOrder.1 with offsetFirst := false }, ?_⟩
  rw [State.stepped, ← State.walk_chosen, ← State.endSeconds_chosen, ← hn]
  rfl

theorem State.stepped_only : s.stepped.tb = s.tb ∧ s.stepped.lines = s.lines ∧ s.stepped.ports = s.endSeconds.ports := by
  obtain ⟨hseconds⟩ := s.endSeconds_only
  obtain ⟨hwalk⟩ := s.endSeconds.tablesOnly_walk
  unfold State.stepped
  refine ⟨?_, ?_, ?_⟩
  · rw [hwalk, hseconds]
  · rw [hwalk, hseconds]
  · rw [hwalk]

theorem State.stepped_line (l : LineId) : s.stepped.line l = s.line l := by
  obtain ⟨-, hlines, -⟩ := s.stepped_only
  unfold State.line
  rw [hlines]

theorem State.LinesOnly.tables {s t : State} (h : s.LinesOnly t) : t.openList = s.openList ∧ t.elements = s.elements := by
  rw [h.eq]
  exact ⟨rfl, rfl⟩

/-- Whatever choices were made, what is handed to the lines moves the lines, the schedule and the journal beside their number only. -/
theorem State.handToLines_blocks (n : Nat) (o : BoundaryOrder) : ((s.chosen n).handToLines o).bankA = s.bankA ∧
    ((s.chosen n).handToLines o).bankB = s.bankB ∧ ((s.chosen n).handToLines o).openList = s.openList ∧
    ((s.chosen n).handToLines o).ports = s.ports ∧ ((s.chosen n).handToLines o).elements = s.elements := by
  obtain ⟨_, _, honly⟩ := (s.chosen n).handToLines_only o
  obtain ⟨hbankA, hbankB, hports, -⟩ := honly.blocks
  obtain ⟨hlist, helements⟩ := honly.tables
  exact ⟨hbankA, hbankB, hlist, hports, helements⟩

theorem State.stepEvent_blocks : s.stepEvent.bankA = s.stepped.bankA ∧ s.stepEvent.bankB = s.stepped.bankB ∧
    s.stepEvent.openList = s.stepped.openList ∧ s.stepEvent.ports = s.endSeconds.ports ∧
    s.stepEvent.elements = s.stepped.elements := by
  obtain ⟨n, o, heq⟩ := s.stepEvent_eq
  obtain ⟨-, -, hports⟩ := s.stepped_only
  rw [heq, ← hports]
  exact s.stepped.handToLines_blocks n o

theorem State.stepEvent_target (l : LineId) :
    (s.stepEvent.line l).target = s.stepEvent.tb.target (s.line l).period ∧ (s.stepEvent.line l).period = (s.line l).period := by
  obtain ⟨n, o, heq⟩ := s.stepEvent_eq
  obtain ⟨_, _, honly⟩ := (s.stepped.chosen n).handToLines_only o
  have hperiod : (s.stepEvent.line l).period = (s.line l).period := by
    rw [heq, honly.period, State.setTb_line, State.line_chosen, s.stepped_line]
  have htarget := (s.stepped.chosen n).handToLines_onTarget o l
  rw [← heq, hperiod] at htarget
  exact ⟨htarget, hperiod⟩

/-- Where no offset change is due, a step event gives every line its target and leaves the timebase (R137). -/
theorem State.stepEvent_offset_kept (h : s.tb.offsetDue = none) :
    s.stepEvent.tb = s.tb ∧ ∀ l, (s.line l).takesTarget (s.stepEvent.line l) (s.tb.target (s.line l).period) s.tb.instant := by
  obtain ⟨n, o, heq⟩ := s.stepEvent_eq
  obtain ⟨htb, -, -⟩ := s.stepped_only
  have hdue : (s.stepped.chosen n).tb.offsetDue = none := by rw [State.tb_chosen, htb, h]
  rw [heq, State.handToLines_none _ o hdue, (State.retargetLines_only _).tb, State.tb_chosen]
  refine ⟨htb, fun l => ?_⟩
  rw [State.retargetLines_line, State.line_chosen, s.stepped_line, State.tb_chosen, htb]
  exact Line.retarget_takesTarget _ _ _

/-- An offset change that is due is made with the step event (R66). -/
theorem State.stepEvent_offset_made {new : Int} (h : s.tb.offsetDue = some new) : s.stepEvent.tb = { s.tb with scheduled := none, civilOffset := new } := by
  obtain ⟨n, o, heq⟩ := s.stepEvent_eq
  obtain ⟨htb, -, -⟩ := s.stepped_only
  have hdue : (s.stepped.chosen n).tb.offsetDue = some new := by rw [State.tb_chosen, htb, h]
  obtain ⟨honly, -⟩ := (s.stepped.chosen n).handToLines_some o hdue
  rw [heq, honly.tb, State.setTb_tb, State.tb_chosen, htb, Timebase.withOffset]

/-! ## The time of day moved to a label (R56, R57, R64) -/

theorem State.leapAfterMove_levelOf (day : Day) (c : JournalClass) : (s.leapAfterMove day).levelOf c = s.levelOf c := by
  unfold State.leapAfterMove
  split
  · rfl
  · split
    · exact State.levelOf_report _ _ _
    · split
      · exact State.levelOf_report _ _ _
      · rfl

/-- The leap action, the SET or STEP record, which carries the old time of day, and the step event (R64, R68, R69, log entry 18). -/
theorem State.moveTime_eq (l : Label) (event : TimebaseEvent) : s.moveTime l event =
    (((s.setTb { s.tb with tod := ⟨l.day, l.sec, 0⟩, todFrac := 0 }).leapAfterMove s.tb.tod.day).withRecord (s.levelOf .time)
      (.timebase event (some s.tb.time))).stepEvent := by
  have hlevel := (s.setTb { s.tb with tod := ⟨l.day, l.sec, 0⟩, todFrac := 0 }).leapAfterMove_levelOf s.tb.tod.day .time
  rw [State.setTb_levelOf] at hlevel
  rw [← hlevel]
  rfl

/-- What a move of the time of day makes of an armed leap (R64). -/
theorem State.leapAfterMove_some (day : Day) (a : Leap) (h : s.tb.armedLeap = some a) : s.leapAfterMove day =
    if a.kind = .insert ∧ s.tb.tod.day = a.day ∧ s.tb.tod.sec = 86400 then
      (s.setTb { s.tb with armedLeap := none, recentLeap := some a }).withRecord (s.levelOf .time) (.timebase .leapInsert none)
    else if dayDiff day a.day ≤ 0 ∧ 0 < dayDiff s.tb.tod.day a.day then
      (s.setTb { s.tb with armedLeap := none }).withRecord (s.levelOf .time) (.timebase .leapDiscarded none)
    else s := by
  unfold State.leapAfterMove
  rw [h]
  rfl

theorem State.leapAfterMove_none (day : Day) (h : s.tb.armedLeap = none) : s.leapAfterMove day = s := by
  unfold State.leapAfterMove
  rw [h]

theorem Timebase.time_at_label (tb : Timebase) (l : Label) (h : tb.tod = ⟨l.day, l.sec, 0⟩) : tb.time = ⟨l.day, l.sec, 0⟩ := by
  rw [Timebase.time, h]
  rfl

/-- A scheduled offset change is judged by the label that the time of day moves to (R66). -/
theorem State.moveTime_schedule (l : Label) (event : TimebaseEvent) :
    (∀ c, s.tb.scheduled = some c → s.tb.setFlag = true → DaySec.before ⟨l.day, l.sec⟩ ⟨c.day, c.sec⟩ = false →
      (s.moveTime l event).tb.scheduled = none ∧ (s.moveTime l event).tb.civilOffset = c.offset) ∧
    (s.tb.scheduled = none ∨ (∃ c, s.tb.scheduled = some c ∧ DaySec.before ⟨l.day, l.sec⟩ ⟨c.day, c.sec⟩ = true) →
      (s.moveTime l event).tb.scheduled = s.tb.scheduled ∧ (s.moveTime l event).tb.civilOffset = s.tb.civilOffset) := by
  obtain ⟨armed, recent, htb⟩ := (s.setTb { s.tb with tod := ⟨l.day, l.sec, 0⟩, todFrac := 0 }).leapAfterMove_tb s.tb.tod.day
  rw [s.moveTime_eq]
  generalize (s.setTb { s.tb with tod := ⟨l.day, l.sec, 0⟩, todFrac := 0 }).leapAfterMove s.tb.tod.day = m at htb ⊢
  generalize hv : m.withRecord (s.levelOf .time) (.timebase event (some s.tb.time)) = v
  have hvtb : v.tb = { s.tb with tod := ⟨l.day, l.sec, 0⟩, todFrac := 0, armedLeap := armed, recentLeap := recent } := by
    rw [← hv]
    exact htb
  have htime : v.tb.time = ⟨l.day, l.sec, 0⟩ := v.tb.time_at_label l (by rw [hvtb])
  refine ⟨fun c hc hset hreached => ?_, fun h => ?_⟩
  · have hdue := v.tb.offsetDue_some c (by rw [hvtb]; exact hc) (by rw [hvtb]; exact hset) (by rw [htime]; exact hreached)
    rw [v.stepEvent_offset_made hdue]
    exact ⟨rfl, rfl⟩
  · have hdue := v.tb.offsetDue_none (by
      rw [hvtb]
      rcases h with h | ⟨c, hc, hahead⟩
      · exact .inl h
      · rw [hvtb] at htime
        exact .inr (.inr ⟨c, hc, by rw [htime]; exact hahead⟩))
    rw [(v.stepEvent_offset_kept hdue).1, hvtb]
    exact ⟨rfl, rfl⟩

/-! ## The pulses that move the time of day (R56, R57) -/

/-- The first labelled pulse in FREE (R57). -/
theorem State.pulse_sets {l : Label} (haccepts : s.tb.acceptsPulse = true) (hlabel : s.tb.label = some l)
    (hsilent : l.announcement = .none) (hloop : s.tb.loop = .free) : s.pulse =
      (s.setTb { s.tb with
        setFlag := true, loop := .acquiring, good := 0, bad := 0, steps := 0, misses := 0, label := none,
        lastPulse := some s.tb.instant, nextNote := some (s.tb.instant + ms 1500) }).moveTime l .set := by
  rw [s.pulse_free haccepts hloop, hlabel, State.armLeap_unannounced _ l hsilent, State.pulseInFree_label]
  rfl

/-- The third labelled pulse in a row whose error is beyond the step threshold (R56). -/
theorem State.pulse_steps {l : Label} (haccepts : s.tb.acceptsPulse = true) (hlabel : s.tb.label = some l)
    (hsilent : l.announcement = .none) (hloop : s.tb.loop = .acquiring ∨ s.tb.loop = .locked) (hsteps : 2 ≤ s.tb.steps)
    (hfar : s.tb.stepThreshold * 1000 < (labelledError l s.tb.time).natAbs) : s.pulse =
      (s.setTb { s.tb with
        slew := 0, slewLeft := 0, good := 0, bad := 0, steps := 0, misses := 0, label := none,
        lastPulse := some s.tb.instant, nextNote := some (s.tb.instant + ms 1500) }).moveTime l .step := by
  have hfree : s.tb.loop ≠ .free := by rcases hloop with h | h <;> simp [h]
  have hhold : s.tb.loop ≠ .holdover := by rcases hloop with h | h <;> simp [h]
  have hthird : 3 ≤ s.tb.stepsAfter (labelledError l s.tb.time) := by
    simp only [Timebase.stepsAfter, hlabel, Option.isSome_some, if_true, if_pos hfar]
    omega
  have hcount := s.tb.countPulse_steps (labelledError l s.tb.time)
  rw [hlabel] at hcount
  rw [s.pulse_loop haccepts hfree, hlabel, State.armLeap_unannounced _ l hsilent, State.pulseInLoop_label]
  refine (if_pos ⟨hhold, ?_⟩).trans rfl
  rw [← hcount] at hthird
  exact hthird

/-- The move of a pulse, in the timebase as the SET or STEP record finds it: an armed leap is acted on ahead of it (R64, log entry 18). -/
theorem State.moveTime_setTb (x y : Timebase) (l : Label) (event : TimebaseEvent) (w : State)
    (hy : y = { x with tod := ⟨l.day, l.sec, 0⟩, todFrac := 0 }) (hw : w = (s.setTb y).leapAfterMove x.tod.day) :
    (s.setTb x).moveTime l event =
      (w.withRecord (s.levelOf .time) (.timebase event (some x.time))).stepEvent := by
  rw [State.moveTime_eq, hw, hy]
  rfl

/-- What the first labelled pulse in FREE makes of the timebase (R57). -/
theorem State.pulse_sets_tb {l : Label} (haccepts : s.tb.acceptsPulse = true) (hlabel : s.tb.label = some l)
    (hsilent : l.announcement = .none) (hloop : s.tb.loop = .free) : ∃ armed recent offset scheduled, s.pulse.tb = { s.tb with
      tod := ⟨l.day, l.sec, 0⟩, todFrac := 0, setFlag := true, loop := .acquiring, good := 0, bad := 0, steps := 0, misses := 0,
      label := none, lastPulse := some s.tb.instant, nextNote := some (s.tb.instant + ms 1500), armedLeap := armed,
      recentLeap := recent, civilOffset := offset, scheduled := scheduled } := by
  rw [s.pulse_sets haccepts hlabel hsilent hloop]
  obtain ⟨armed, recent, offset, scheduled, htb⟩ := State.moveTime_tb _ l .set
  exact ⟨armed, recent, offset, scheduled, by rw [htb]; rfl⟩

/-- What a step makes of the timebase (R56). -/
theorem State.pulse_steps_tb {l : Label} (haccepts : s.tb.acceptsPulse = true) (hlabel : s.tb.label = some l)
    (hsilent : l.announcement = .none) (hloop : s.tb.loop = .acquiring ∨ s.tb.loop = .locked) (hsteps : 2 ≤ s.tb.steps)
    (hfar : s.tb.stepThreshold * 1000 < (labelledError l s.tb.time).natAbs) : ∃ armed recent offset scheduled,
      s.pulse.tb = { s.tb with
        tod := ⟨l.day, l.sec, 0⟩, todFrac := 0, slew := 0, slewLeft := 0, good := 0, bad := 0, steps := 0, misses := 0,
        label := none, lastPulse := some s.tb.instant, nextNote := some (s.tb.instant + ms 1500), armedLeap := armed,
        recentLeap := recent, civilOffset := offset, scheduled := scheduled } := by
  rw [s.pulse_steps haccepts hlabel hsilent hloop hsteps hfar]
  obtain ⟨armed, recent, offset, scheduled, htb⟩ := State.moveTime_tb _ l .step
  exact ⟨armed, recent, offset, scheduled, by rw [htb]; rfl⟩

end Facts

/-- Settles O37: SET and STEP move the time of day, act on an armed leap, and hand a step event on. -/
theorem firstLabelSetsTheTime : Obligations.FirstLabelSetsTheTime := by
  refine ⟨fun s l hi haccepts hlabel hsilent => ⟨fun hloop => ?_, fun hloop hsteps hfar => ?_⟩,
    fun s l event x y w hi haccepts hlabel hsilent hx hy hw => ?_, fun s u hu => ?_⟩
  · obtain ⟨_, _, _, _, htb⟩ := s.pulse_sets_tb haccepts hlabel hsilent hloop
    obtain ⟨hmade, -⟩ := State.moveTime_schedule _ l .set
    rw [← s.pulse_sets haccepts hlabel hsilent hloop] at hmade
    have hexec := exec_referencePulse s hi
    generalize s.pulse = u at hmade htb hexec
    refine ⟨u, hexec, ?_⟩
    rw [htb] at hmade ⊢
    exact ⟨rfl, rfl, rfl, rfl, rfl, rfl, rfl, rfl, rfl, rfl, rfl, rfl, rfl, fun c hc hreached => hmade c hc rfl hreached⟩
  · obtain ⟨_, _, _, _, htb⟩ := s.pulse_steps_tb haccepts hlabel hsilent hloop hsteps hfar
    obtain ⟨hmade, hkept⟩ := State.moveTime_schedule _ l .step
    rw [← s.pulse_steps haccepts hlabel hsilent hloop hsteps hfar] at hmade hkept
    have hexec := exec_referencePulse s hi
    generalize s.pulse = u at hmade hkept htb hexec
    refine ⟨u, hexec, ?_⟩
    rw [htb] at hmade hkept ⊢
    exact ⟨rfl, rfl, rfl, rfl, rfl, rfl, rfl, rfl, rfl, rfl, rfl, rfl, rfl, hmade, hkept⟩
  · have hleap : w = (s.setTb y).leapAfterMove s.tb.tod.day := by
      have htod : y.tod = ⟨l.day, l.sec, 0⟩ := by rcases hy with ⟨-, -, rfl⟩ | ⟨-, -, -, -, rfl⟩ <;> rw [hx]
      have harmed : y.armedLeap = s.tb.armedLeap := by rcases hy with ⟨-, -, rfl⟩ | ⟨-, -, -, -, rfl⟩ <;> rw [hx]
      rw [hw]
      cases ha : s.tb.armedLeap with
      | none => exact (State.leapAfterMove_none _ _ (harmed.trans ha)).symm
      | some a =>
        have hsome := (s.setTb y).leapAfterMove_some s.tb.tod.day a (harmed.trans ha)
        rw [State.setTb_tb, htod] at hsome
        exact hsome.symm
    rw [exec_referencePulse s hi]
    rcases hy with ⟨rfl, hloop, hy⟩ | ⟨rfl, hloop, hsteps, hfar, hy⟩
    · rw [s.pulse_sets haccepts hlabel hsilent hloop]
      refine congrArg _ (s.moveTime_setTb _ y l .set w ?_ hleap)
      rw [hy, hx]
    · rw [s.pulse_steps haccepts hlabel hsilent hloop hsteps hfar]
      refine congrArg _ (s.moveTime_setTb _ y l .step w ?_ hleap)
      rw [hy, hx]
  · obtain ⟨hbankA, hbankB, hlist, hports, helements⟩ := s.stepEvent_blocks
    rw [State.stepped] at hbankA hbankB hlist helements
    rw [hu]
    exact ⟨hbankA, hbankB, hlist, hports, helements, s.stepEvent_target,
      fun h => s.stepEvent_offset_kept (s.tb.offsetDue_none h),
      fun c hc hset h => s.stepEvent_offset_made (s.tb.offsetDue_some c hc hset h)⟩

end Sys2Proof.Machine
end

