-- ==== Sys2Proof/Proofs/Misses.lean ====
section
/-! PROOFS. Sys2Proof/Proofs/Misses.lean: miss notes, the holdover limit, and RELOCK (R53, R59 to R62). -/

namespace Sys2Proof.Machine

section Facts

variable (s : State)

/-! ## Miss notes (R53, R59, R61) -/

/-- What a miss note leaves ahead of what it does to the loop: the label discarded and counted, the miss counted, the next one timed. -/
theorem Timebase.noted_eq (tb : Timebase) {t : Nat} (ht : tb.nextNote = some t) : tb.noted = { tb with
    label := none, unusedLabels := if tb.label.isSome then raise32 tb.unusedLabels else tb.unusedLabels,
    misses := min 65535 (tb.misses + 1), nextNote := some (t + secs 1) } := by
  have hmisses : saturate 65535 tb.misses 1 = min 65535 (tb.misses + 1) := by
    unfold saturate
    split <;> omega
  rw [Timebase.noted, hmisses, ht, Timebase.discardLabel]
  cases hlabel : tb.label with
  | none => simp [hlabel]
  | some l => rfl

theorem Timebase.enterHoldover_age (tb : Timebase) : tb.enterHoldover.holdoverAge = 0 := by
  have hage : tb.enterHoldover.holdoverAge = min 4294967295 ((tb.instant - tb.instant) / secs 1) := rfl
  rw [hage, Nat.sub_self, Nat.zero_div, Nat.min_zero]

theorem exec_missNote (hi : s.initialising = false) : exec .missNote s = .next (if (s.await s.tb.missInstant).tb.missDue then
    (s.await s.tb.missInstant).missNote else s.await s.tb.missInstant) :=
  s.event_eq (fun s => if (s.await s.tb.missInstant).tb.missDue then
    (s.await s.tb.missInstant).missNote else s.await s.tb.missInstant) hi

/-- In FREE no miss is noted (R57). -/
theorem exec_missNote_free (hi : s.initialising = false) (hloop : s.tb.loop = .free) : exec .missNote s = .next s := by
  have hinstant : s.tb.missInstant = none := if_pos hloop
  rw [exec_missNote s hi, hinstant, State.await_none, if_neg (by simp [Timebase.missDue, hloop])]

/-- Outside FREE a miss whose instant is reached is noted (R59). -/
theorem exec_missNote_due {t : Nat} (hi : s.initialising = false) (ht : s.tb.nextNote = some t) (hreached : t ≤ s.tb.instant)
    (hloop : s.tb.loop ≠ .free) : exec .missNote s = .next s.missNote := by
  have hinstant : s.tb.missInstant = some t := (if_neg hloop).trans ht
  rw [exec_missNote s hi, hinstant, s.await_reached t hreached, if_pos (by simp [Timebase.missDue, hloop, ht, hreached])]

theorem State.missNote_first (h : s.tb.noted.misses < 2) : s.missNote = s.setTb s.tb.noted := by
  rw [State.missNote_eq, if_pos h]

/-- The second miss in ACQUIRING or LOCKED enters HOLDOVER (R59). -/
theorem State.missNote_enters (h : 2 ≤ s.tb.noted.misses) (hloop : s.tb.noted.loop = .acquiring ∨ s.tb.noted.loop = .locked) :
    s.missNote = (s.setTb s.tb.noted.enterHoldover).reportTb .holdover := by
  rw [State.missNote_eq, if_neg (Nat.not_lt.mpr h)]
  rcases hloop with hloop | hloop <;> rw [hloop]

/-- The second miss after a returning pulse clears fast return pending; in HOLDOVER the others are noted only (R61). -/
theorem State.missNote_holdover (h : 2 ≤ s.tb.noted.misses) (hloop : s.tb.noted.loop = .holdover) : s.missNote =
    if s.tb.noted.fastReturn then s.setTb { s.tb.noted.stopSlew with fastReturn := false } else s.setTb s.tb.noted := by
  rw [State.missNote_eq, if_neg (Nat.not_lt.mpr h), hloop]

/-! ## The holdover limit (R60) -/

/-- A limit that is due lies at or behind the present instant. -/
theorem Timebase.limitInstant_reached (tb : Timebase) (hlimit : 0 < tb.holdoverLimit) (hdue : tb.limitDue = true) :
    ∃ t, tb.limitInstant = some t ∧ t ≤ tb.instant := by
  simp only [Timebase.limitDue, Bool.and_eq_true, beq_iff_eq, Bool.not_eq_true', decide_eq_true_eq] at hdue
  obtain ⟨⟨hloop, hdegraded⟩, hage⟩ := hdue
  unfold Timebase.holdoverAge at hage
  cases hsince : tb.holdoverSince with
  | none =>
    rw [hsince] at hage
    exact absurd hage (Nat.not_le.mpr hlimit)
  | some t =>
    refine ⟨t + secs tb.holdoverLimit, by simp [Timebase.limitInstant, hloop, hdegraded, hsince], ?_⟩
    rw [hsince] at hage
    have hseconds : tb.holdoverLimit ≤ (tb.instant - t) / secs 1 := hage.trans (Nat.min_le_right _ _)
    rw [secs_eq] at hseconds ⊢
    omega

theorem exec_holdoverLimitReached_due (hi : s.initialising = false) (hlimit : 0 < s.tb.holdoverLimit) (hdue : s.tb.limitDue = true) :
    exec .holdoverLimitReached s = .next s.degrade := by
  have hexec : exec .holdoverLimitReached s = s.event fun s => if (s.await s.tb.limitInstant).tb.limitDue then
    (s.await s.tb.limitInstant).degrade else s.await s.tb.limitInstant := rfl
  obtain ⟨t, ht, hreached⟩ := s.tb.limitInstant_reached hlimit hdue
  rw [hexec, s.event_eq _ hi, ht, s.await_reached t hreached, if_pos hdue]

end Facts

/-- Settles O38: the note in FREE, the first and the second note in the other states, and the limit. -/
theorem missesEnterHoldoverAndDegrade : Obligations.MissesEnterHoldoverAndDegrade := by
  refine ⟨fun s t y hi ht hreached hy => ?_, fun s hi hlimit hdue => ?_⟩
  · rw [← s.tb.noted_eq ht] at hy
    subst hy
    have hcount : s.tb.noted.misses = min 65535 (s.tb.misses + 1) := by rw [s.tb.noted_eq ht]
    have hstate : s.tb.noted.loop = s.tb.loop ∧ s.tb.noted.fastReturn = s.tb.fastReturn := by
      rw [s.tb.noted_eq ht]
      exact ⟨rfl, rfl⟩
    obtain ⟨hloop', hfast⟩ := hstate
    have hfirst (h : s.tb.misses = 0) : s.missNote = s.setTb s.tb.noted := s.missNote_first (by omega)
    refine ⟨exec_missNote_free s hi, fun hloop => ?_, fun hloop => ?_⟩
    · rw [exec_missNote_due s hi ht hreached (by rcases hloop with h | h <;> simp [h])]
      refine ⟨fun h => congrArg _ (hfirst h), fun h => ⟨_, congrArg _ (s.missNote_enters (by omega) (hloop' ▸ hloop)), ?_⟩⟩
      have hinstant : s.tb.noted.instant = s.tb.instant := by rw [s.tb.noted_eq ht]; rfl
      have hnow : s.tb.noted.enterHoldover.now = ⟨s.tb.time.stamp, .holdover⟩ := by rw [s.tb.noted_eq ht]; rfl
      exact ⟨by rw [← hinstant]; rfl, s.tb.noted.enterHoldover_age, rfl, by rw [← hnow]; rfl, rfl⟩
    · rw [exec_missNote_due s hi ht hreached (by simp [hloop])]
      refine ⟨fun hf h => ?_, fun h => ?_⟩
      · rw [s.missNote_holdover (by omega) (hloop'.trans hloop), if_pos (hfast.trans hf)]
        rfl
      · by_cases hm : s.tb.misses = 0
        · rw [hfirst hm]
        · have hf := h.resolve_right hm
          rw [s.missNote_holdover (by omega) (hloop'.trans hloop), if_neg (by simp [hfast, hf])]
  · exact exec_holdoverLimitReached_due s hi (by omega) hdue

/-- Settles O40: RELOCK is carried out at once in every loop state. -/
theorem relockRestartsTheLoop : Obligations.RelockRestartsTheLoop := by
  intro s r hs hr
  have hcode : (s.taking 32 r).relock.tb.loop.code = if s.tb.setFlag then 1 else 0 := apply_ite LoopState.code _ _ _
  refine s.next_serve hs 32 r (f := reqRelock) ?_
  rw [hr, reqRelock, hcode]
  rfl

end Sys2Proof.Machine
end

