-- ==== Sys2Proof/Proofs/TimebaseRequests.lean ====
section
/-! PROOFS. Sys2Proof/Proofs/TimebaseRequests.lean: the numbers of a request, TIME MARK, and SET TIMEBASE (R53, R60, R63, R180, R184). -/

namespace Sys2Proof.Machine

/-! ## Octets of numbers (R184) -/

theorem foldl_be (k n acc : Nat) :
    (be k n).foldl (fun acc (o : Byte) => 256 * acc + o.toNat) acc = acc * 256 ^ k + n % 256 ^ k := by
  induction k generalizing acc with
  | zero => simp [be, Nat.mod_one]
  | succ k ih =>
    have hsplit : n % 256 ^ (k + 1) = n % 256 ^ k + 256 ^ k * (n / 256 ^ k % 256) := by rw [pow_succ, Nat.mod_mul]
    have hoctet : (BitVec.ofNat 8 (n / 256 ^ k)).toNat = n / 256 ^ k % 256 := BitVec.toNat_ofNat _ _
    rw [be, List.foldl_cons, ih, hoctet, hsplit, pow_succ]
    ring

theorem ofBe_be {k n : Nat} (h : n < 256 ^ k) : ofBe (be k n) = n := by
  rw [ofBe, foldl_be, Nat.mod_eq_of_lt h]
  simp

theorem be_three (n : Nat) : be 3 n = [BitVec.ofNat 8 (n / 65536), BitVec.ofNat 8 (n / 256), BitVec.ofNat 8 n] := by simp [be]

theorem be_four (n : Nat) :
    be 4 n = [BitVec.ofNat 8 (n / 16777216), BitVec.ofNat 8 (n / 65536), BitVec.ofNat 8 (n / 256), BitVec.ofNat 8 n] := by
  simp [be]

theorem ofBe_three {n : Nat} (h : n < 16777216) :
    ofBe [BitVec.ofNat 8 (n / 65536), BitVec.ofNat 8 (n / 256), BitVec.ofNat 8 n] = n := by
  rw [← be_three, ofBe_be h]

theorem ofBe_four {n : Nat} (h : n < 4294967296) :
    ofBe [BitVec.ofNat 8 (n / 16777216), BitVec.ofNat 8 (n / 65536), BitVec.ofNat 8 (n / 256), BitVec.ofNat 8 n] = n := by
  rw [← be_four, ofBe_be h]

/-- The two octets of a day give it back. -/
theorem ofBe_day (day : Day) : BitVec.ofNat 16 (ofBe [BitVec.ofNat 8 (day.toNat / 256), BitVec.ofNat 8 day.toNat]) = day := by
  rw [ofBe_two day.isLt, BitVec.ofNat_toNat, BitVec.setWidth_eq]

theorem Announcement.ofCode_code (a : Announcement) : Announcement.ofCode a.code.toNat = some a := by cases a <;> rfl

theorem Announcement.ofCode_none {n : Nat} (h : 3 ≤ n) : Announcement.ofCode n = Option.none := by
  unfold Announcement.ofCode
  split
  case h_4 => rfl
  all_goals omega

section Facts

variable (s : State)

/-! ## TIME MARK (R53, R180) -/

/-- The list of R53. -/
theorem Timebase.badLabel_iff (tb : Timebase) (day : Day) (sec : Nat) (a : Announcement) : tb.badLabel ⟨day, sec, a⟩ = true ↔
    86400 < sec ∨ (sec = 86400 ∧ tb.armedLeap ≠ some ⟨day, .insert⟩ ∧ a ≠ .insert) ∨
      (sec = 86399 ∧ (tb.armedLeap = some ⟨day, .delete⟩ ∨ a = .delete)) := by
  have hinsert := tb.armedFor_iff day .insert
  have hdelete := tb.armedFor_iff day .delete
  simp [Timebase.badLabel, Timebase.announces, hinsert, hdelete, or_assoc]

theorem Timebase.takeLabel_eq (tb : Timebase) (l : Label) : tb.takeLabel l = { tb with
    label := some l, unusedLabels := if tb.label.isSome then raise32 tb.unusedLabels else tb.unusedLabels } := by
  unfold Timebase.takeLabel Timebase.discardLabel
  split <;> rfl

theorem reqTimeMark_eq (day : Day) {sec : Nat} (hsec : sec < 16777216) (a : Announcement) :
    reqTimeMark (be 2 day.toNat ++ be 3 sec ++ [a.code]) s =
      if s.tb.badLabel ⟨day, sec, a⟩ then refuse s .range
      else answer (s.setTb (s.tb.takeLabel ⟨day, sec, a⟩))
        (Label.octets ⟨day, sec, a⟩ ++ [flag s.tb.label.isSome, s.tb.loop.code] ++ s.tb.sincePulse) := by
  rw [be_two, be_three]
  simp only [List.cons_append, List.nil_append, reqTimeMark, Announcement.ofCode_code, ofBe_day, ofBe_three hsec]

theorem reqTimeMark_range {code : Byte} (h : 3 ≤ code.toNat) (day1 day0 sec2 sec1 sec0 : Byte) :
    reqTimeMark [day1, day0, sec2, sec1, sec0, code] s = refuse s .range := by
  simp only [reqTimeMark, Announcement.ofCode_none h]

/-! ## SET TIMEBASE (R60, R63) -/

theorem State.judgeLimit_other (h : s.tb.loop ≠ .holdover) : s.judgeLimit = s := if_neg h

theorem State.judgeLimit_reached (hloop : s.tb.loop = .holdover) (hdegraded : s.tb.degraded = false)
    (h : s.tb.holdoverLimit ≤ s.tb.holdoverAge) : s.judgeLimit = s.degrade :=
  (if_pos hloop).trans (if_pos (by simp [Timebase.limitDue, hloop, hdegraded, h]))

theorem State.judgeLimit_ahead (hloop : s.tb.loop = .holdover) (hdegraded : s.tb.degraded = true)
    (h : s.tb.holdoverAge < s.tb.holdoverLimit) :
    s.judgeLimit = (s.setTb { s.tb with degraded := false }).reportTb .degradedCleared :=
  (if_pos hloop).trans ((if_neg (by simp [Timebase.limitDue, hdegraded])).trans (if_pos ⟨hdegraded, h⟩))

theorem State.judgeLimit_same (hloop : s.tb.loop = .holdover)
    (h : s.tb.degraded = true ↔ s.tb.holdoverLimit ≤ s.tb.holdoverAge) : s.judgeLimit = s := by
  have hnone : ¬s.tb.limitDue = true := by
    cases hd : s.tb.degraded <;> simp [Timebase.limitDue, hd] at h ⊢
    omega
  refine (if_pos hloop).trans ((if_neg hnone).trans (if_neg fun ⟨hd, hlt⟩ => ?_))
  exact absurd (h.1 hd) (Nat.not_le.mpr hlt)

/-- The limit moves no setting. -/
theorem State.judgeLimit_settings : s.judgeLimit.tb.settings = s.tb.settings := by
  unfold State.judgeLimit
  split
  · split
    · rfl
    · split <;> rfl
  · rfl

/-- The timebase with its five settings taken, each in its range (R63). -/
def Timebase.withSettings (tb : Timebase) (gp gi window threshold limit : Nat) : Timebase :=
  { tb with
    gp := min 10 gp, gi := max 2 (min 16 gi), lockWindow := max 1 (min 1000 window),
    stepThreshold := max 100 (min 100000 threshold), holdoverLimit := max 60 (min 86400 limit) }

/-- Whether any of the five settings is clamped (R174). -/
def settingsClamped (gp gi window threshold limit : Nat) : Bool :=
  min 10 gp != gp || max 2 (min 16 gi) != gi || max 1 (min 1000 window) != window ||
    max 100 (min 100000 threshold) != threshold || max 60 (min 86400 limit) != limit

theorem settingsClamped_eq_false (gp gi window threshold limit : Nat) : settingsClamped gp gi window threshold limit = false ↔
    gp ≤ 10 ∧ 2 ≤ gi ∧ gi ≤ 16 ∧ 1 ≤ window ∧ window ≤ 1000 ∧ 100 ≤ threshold ∧ threshold ≤ 100000 ∧ 60 ≤ limit ∧
      limit ≤ 86400 := by
  simp only [settingsClamped, Bool.or_eq_false_iff, bne_eq_false_iff_eq]
  omega

theorem reqSetTimebase_eq (gp gi : Byte) {window threshold limit : Nat} (hwindow : window < 65536)
    (hthreshold : threshold < 4294967296) (hlimit : limit < 4294967296) :
    reqSetTimebase ([gp, gi] ++ be 2 window ++ be 4 threshold ++ be 4 limit) s =
      answerTaken (s.setTb (s.tb.withSettings gp.toNat gi.toNat window threshold limit)).judgeLimit
        (settingsClamped gp.toNat gi.toNat window threshold limit)
        (s.tb.withSettings gp.toNat gi.toNat window threshold limit).settings := by
  rw [be_two, be_four, be_four]
  simp only [List.cons_append, List.nil_append, reqSetTimebase, ofBe_two hwindow, ofBe_four hthreshold, ofBe_four hlimit]
  rw [takeSetting_unit 0 10 gp.toNat (by decide), takeSetting_unit 2 16 gi.toNat (by decide),
    takeSetting_unit 1 1000 window (by decide), takeSetting_unit 100 100000 threshold (by decide),
    takeSetting_unit 60 86400 limit (by decide), Nat.zero_max]
  rfl

end Facts

/-- Settles O39: the label taken or refused, and the settings with what a new limit does in HOLDOVER. -/
theorem timeMarkAndSetTimebase : Obligations.TimeMarkAndSetTimebase := by
  refine ⟨fun s r day sec a hs hsec hr => ⟨fun hrange hinsert hdelete => ?_, fun hbad => ?_⟩,
    fun s r day1 day0 sec2 sec1 sec0 code hs hr hcode => ?_,
    fun s r gp gi window threshold limit y hs hwindow hthreshold hlimit hr hy => ?_⟩
  · have hgood : ¬s.tb.badLabel ⟨day, sec, a⟩ = true := by
      rw [Timebase.badLabel_iff]
      rintro (h | ⟨h, hnone, ha⟩ | ⟨h, hd⟩)
      · omega
      · exact (hinsert h).elim hnone ha
      · exact hd.elim (hdelete h).1 (hdelete h).2
    refine s.next_serve hs 30 r (f := reqTimeMark) ?_
    rw [hr, reqTimeMark_eq _ day hsec, State.taking_tb, if_neg hgood, Timebase.takeLabel_eq]
    rfl
  · refine s.next_serve hs 30 r (f := reqTimeMark) ?_
    rw [hr, reqTimeMark_eq _ day hsec, State.taking_tb, if_pos ((s.tb.badLabel_iff day sec a).2 hbad)]
    rfl
  · refine s.next_serve hs 30 r (f := reqTimeMark) ?_
    rw [hr, reqTimeMark_range _ hcode]
    rfl
  · have hreq := reqSetTimebase_eq (s.taking 31 r) gp gi hwindow hthreshold hlimit
    have hy' : (s.taking 31 r).tb.withSettings gp.toNat gi.toNat window threshold limit = y := hy.symm
    rw [hy'] at hreq
    have hsame : y.loop = s.tb.loop ∧ y.degraded = s.tb.degraded ∧ y.holdoverAge = s.tb.holdoverAge := by
      rw [hy]
      exact ⟨rfl, rfl, rfl⟩
    obtain ⟨hloop, hdegraded, hage⟩ := hsame
    refine ⟨((s.taking 31 r).setTb y).judgeLimit, _, s.next_serve hs 31 r (f := reqSetTimebase) ?_, fun h => ?_,
      fun h => ⟨fun hd hle => ?_, fun hd hlt => ?_, fun hiff => ?_⟩,
      settingsClamped_eq_false _ _ _ _ _⟩
    · rw [hr, hreq, State.judgeLimit_settings]
      rfl
    · exact State.judgeLimit_other _ (by rwa [State.setTb_tb, hloop])
    · exact State.judgeLimit_reached _ (hloop.trans h) (hdegraded.trans hd) (hle.trans_eq hage.symm)
    · exact State.judgeLimit_ahead _ (hloop.trans h) (hdegraded.trans hd) (hage.trans_lt hlt)
    · exact State.judgeLimit_same _ (hloop.trans h) (by rwa [State.setTb_tb, hdegraded, hage])

end Sys2Proof.Machine
end

