-- ==== Sys2Proof/Proofs/Decisions.lean ====
section
/-! PROOFS. Sys2Proof/Proofs/Decisions.lean: the records of the decisions that a recomputation of the targets makes, and a change of the civil offset (R66, R137, log entry 42). -/

namespace Sys2Proof.Machine

/-! ## The records of the decisions (R137, R148, log entry 42) -/

/-- The journal behind the CLOCK LINE records of one line, all of one instant. -/
def Journal.noted (j : Journal) (now : Dated) (level : Nat) (l : LineId) (notes : List LineNote) : Journal :=
  notes.foldl (fun j n => j.offer now ⟨level, now, false, false, .clockLine l n.event n.fault n.position⟩) j

theorem Journal.noted_classes (j : Journal) (now : Dated) (level : Nat) (l : LineId) (notes : List LineNote) :
    (j.noted now level l notes).classes = j.classes := by
  unfold Journal.noted
  induction notes generalizing j with
  | nil => rfl
  | cons n notes ih => rw [List.foldl_cons, ih, Journal.offer_classes]

/-- The notes of a recomputation are those of its decision, which a line makes that follows its target and whose target changes (R137). -/
theorem Line.retarget_notes (x : Line) (t : Option Nat) (now : Nat) : (x.retarget t now).notes =
    if x.state.following = true ∧ x.target ≠ t then (Line.decision { x with target := t } now).notes else [] := by
  unfold Line.retarget
  by_cases ht : x.target = t
  · simp [ht]
  · by_cases hf : x.state.following = true <;> simp [ht, hf]

section Facts

variable (s : State)

theorem State.foldl_withRecord (level : Nat) (l : LineId) (notes : List LineNote) :
    notes.foldl (fun (u : State) n => u.withRecord level (.clockLine l n.event n.fault n.position)) s =
      s.setJournal (s.journal.noted s.tb.now level l notes) := by
  unfold Journal.noted
  induction notes generalizing s with
  | nil => rfl
  | cons n notes ih =>
    rw [List.foldl_cons, ih]
    rfl

theorem State.reportAll_notes (l : LineId) (notes : List LineNote) :
    s.reportAll (notes.map fun n => .clockLine l n.event n.fault n.position) =
      s.setJournal (s.journal.noted s.tb.now (s.levelOf .clock) l notes) := by
  unfold State.reportAll Journal.noted
  induction notes generalizing s with
  | nil => rfl
  | cons n notes ih =>
    have hlevel := s.levelOf_report (.clockLine l n.event n.fault n.position) .clock
    rw [List.map_cons, List.foldl_cons, ih, hlevel]
    rfl

theorem State.applyLine_journal (l : LineId) (r : LineStep) :
    (s.applyLine l r).journal = s.journal.noted s.tb.now (s.levelOf .clock) l r.notes := by
  rw [State.applyLine, State.reportAll_notes]
  rfl

/-- The journal behind the records of the decisions on these lines under this timebase. -/
def State.decidedJournal (tb : Timebase) (l : List LineId) : Journal :=
  l.foldl (fun j k => j.noted s.tb.now (s.levelOf .clock) k
    ((s.line k).retarget (tb.target (s.line k).period) s.tb.instant).notes) s.journal

theorem State.decidedJournal_classes (tb : Timebase) (l : List LineId) : (s.decidedJournal tb l).classes = s.journal.classes := by
  unfold State.decidedJournal
  generalize s.journal = j
  induction l generalizing j with
  | nil => rfl
  | cons k l ih => rw [List.foldl_cons, ih, Journal.noted_classes]

theorem State.retargetLine_journal (l : LineId) : (s.retargetLine l).journal = s.journal.noted s.tb.now (s.levelOf .clock) l
    ((s.line l).retarget (s.tb.target (s.line l).period) s.tb.instant).notes := s.applyLine_journal l _

theorem State.foldl_retargetLine_journal (l : List LineId) (hl : l.Nodup) :
    (l.foldl State.retargetLine s).journal = s.decidedJournal s.tb l := by
  induction l generalizing s with
  | nil => rfl
  | cons a l ih =>
    obtain ⟨ha, hrest⟩ := List.nodup_cons.1 hl
    have htb : (s.retargetLine a).tb = s.tb := (s.retargetLine_only a).tb
    have hlevel : (s.retargetLine a).levelOf .clock = s.levelOf .clock := by
      unfold State.levelOf
      rw [s.retargetLine_journal, Journal.noted_classes]
    have hlines : ∀ k ∈ l, (s.retargetLine a).line k = s.line k := fun k hk =>
      s.applyLine_line_other a k _ fun h => ha (h ▸ hk)
    rw [List.foldl_cons, ih _ hrest]
    unfold State.decidedJournal
    rw [List.foldl_cons, htb, hlevel, s.retargetLine_journal]
    refine List.foldl_ext _ _ _ fun j k hk => ?_
    rw [hlines k hk]

/-- The decision on one line under this timebase: its records, where the line follows its target and the target changes. -/
def State.decideLine (tb : Timebase) (v : State) (l : LineId) : State :=
  if (s.line l).state.following = true ∧ (s.line l).target ≠ tb.target (s.line l).period then
    (Line.decision { s.line l with target := tb.target (s.line l).period } s.tb.instant).notes.foldl
      (fun u n => u.withRecord (s.levelOf .clock) (.clockLine l n.event n.fault n.position)) v
  else v

theorem State.withDecisions_eq_foldl (tb : Timebase) : s.withDecisions tb = lineIds.foldl (s.decideLine tb) s := rfl

theorem State.decideLine_eq (tb : Timebase) (v : State) (l : LineId) : s.decideLine tb v l =
    v.setJournal (v.journal.noted v.tb.now (s.levelOf .clock) l
      ((s.line l).retarget (tb.target (s.line l).period) s.tb.instant).notes) := by
  rw [State.decideLine, Line.retarget_notes]
  split
  · exact State.foldl_withRecord v _ l _
  · rfl

theorem State.withDecisions_eq_setJournal (tb : Timebase) : s.withDecisions tb = s.setJournal (s.decidedJournal tb lineIds) := by
  have hfold (l : List LineId) (v : State) (hv : v.tb = s.tb) : l.foldl (s.decideLine tb) v =
      v.setJournal (l.foldl (fun j k => j.noted s.tb.now (s.levelOf .clock) k
        ((s.line k).retarget (tb.target (s.line k).period) s.tb.instant).notes) v.journal) := by
    induction l generalizing v with
    | nil => rfl
    | cons k l ih =>
      have htb : (s.decideLine tb v k).tb = s.tb := by rw [State.decideLine_eq]; exact hv
      rw [List.foldl_cons, List.foldl_cons, ih _ htb, State.decideLine_eq, hv]
      rfl
  exact hfold lineIds s rfl

theorem State.retargetLines_journal : s.retargetLines.journal = s.decidedJournal s.tb lineIds :=
  s.foldl_retargetLine_journal lineIds (by decide)

/-- Lines at rest make no decision. -/
theorem State.withDecisions_at_rest (tb : Timebase) (h : ∀ l, (s.line l).state = .unset ∨ (s.line l).state = .halted) :
    s.withDecisions tb = s := by
  have hline (v : State) (l : LineId) : s.decideLine tb v l = v :=
    if_neg fun ⟨hf, _⟩ => by rcases h l with h | h <;> simp [h, LineState.following] at hf
  have hfold (l : List LineId) (v : State) : l.foldl (s.decideLine tb) v = v := by
    induction l with
    | nil => rfl
    | cons k l ih => rw [List.foldl_cons, hline, ih]
  exact hfold lineIds s

/-! ## A change of the civil offset (R66, R137) -/

/-- The state in which a change of the civil offset leaves its record ahead of those of the decisions (log entry 42). -/
def State.withOffsetChange (new : Int) : State :=
  if s.tb.civilOffset = new then s else s.withRecord (s.levelOf .time) (.offsetChange s.tb.civilOffset new)

/-- The state `t` is the state `s` after a change of the civil offset to `new` with this schedule. -/
structure State.TakesOffset (s t : State) (scheduled : Option ScheduledChange) (new : Int) : Prop where
  tb : t.tb = { s.tb with civilOffset := new, scheduled := scheduled }
  lines : ∀ l, (s.line l).takesTarget (t.line l) (t.tb.target (s.line l).period) s.tb.instant
  journal : t.journal = ((s.withOffsetChange new).withDecisions t.tb).journal
  only : t = { s with tb := t.tb, lines := t.lines, journal := t.journal }

theorem State.withOffsetChange_journal (new : Int) : ∃ j, s.withOffsetChange new = s.setJournal j := by
  unfold State.withOffsetChange
  split
  · exact ⟨s.journal, rfl⟩
  · exact ⟨_, rfl⟩

/-- The change is made with this schedule: records, decisions and targets do not depend on the schedule. -/
theorem State.takesOffset_changeOffset (scheduled : Option ScheduledChange) (new : Int) :
    s.TakesOffset ((s.setTb { s.tb with scheduled := scheduled }).changeOffset new) scheduled new := by
  have hstate : (s.setTb { s.tb with scheduled := scheduled }).changeOffset new =
      ((s.withOffsetChange new).setTb { s.tb with civilOffset := new, scheduled := scheduled }).retargetLines := by
    unfold State.changeOffset State.withOffsetChange
    dsimp only [State.setTb_tb]
    by_cases h : s.tb.civilOffset = new
    · rw [if_pos h, if_pos h]
      rfl
    · rw [if_neg h, if_neg h]
      rfl
  obtain ⟨j, hj⟩ := s.withOffsetChange_journal new
  rw [hstate, hj]
  have honly := ((s.setJournal j).setTb { s.tb with civilOffset := new, scheduled := scheduled }).retargetLines_only
  refine ⟨honly.tb, fun l => ?_, ?_, ?_⟩
  · rw [honly.tb, State.retargetLines_line]
    exact Line.retarget_takesTarget _ _ _
  · rw [honly.tb, hj, State.retargetLines_journal, State.withDecisions_eq_setJournal]
    rfl
  · rw [honly.tb]
    exact honly.eq

end Facts

end Sys2Proof.Machine
end

