-- ==== Sys2Proof/Proofs/CivilOffset.lean ====
section
/-! PROOFS. Sys2Proof/Proofs/CivilOffset.lean: SET CIVIL OFFSET in its six forms (R65, R66, R186). -/

namespace Sys2Proof.Machine

/-! ## Signed numbers of a request (R184) -/

/-- The value of two octets in two's complement, as the octets carry it. -/
def twos (v : Int) : Nat := (v % 65536).toNat

theorem beSigned_two (v : Int) : beSigned 2 v = [BitVec.ofNat 8 (twos v / 256), BitVec.ofNat 8 (twos v)] := be_two (twos v)

theorem signedOfBe_twos {v : Int} (hlow : -32768 ≤ v) (hhigh : v < 32768) :
    signedOfBe (BitVec.ofNat 8 (twos v / 256)) (BitVec.ofNat 8 (twos v)) = v := by
  have hlt : twos v < 65536 := by
    unfold twos
    omega
  rw [signedOfBe, ofBe_two hlt, BitVec.toInt_eq_toNat_bmod, BitVec.toNat_ofNat, Int.bmod_def]
  unfold twos
  omega

/-- An offset in its range and on its step is taken as it is (R65). -/
theorem takeOffset_step {v : Int} (hlow : -48 ≤ v) (hhigh : v ≤ 56) : takeOffset (15 * v) = 15 * v := by
  have hclamp : clampInt (-720) 840 (15 * v) = 15 * v := by
    unfold clampInt
    rw [if_neg (by omega), if_neg (by omega)]
  rw [takeOffset, hclamp, roundDiv]
  split <;> omega

section Facts

variable (s : State)

/-! ## The forms of the request (R65, R186) -/

/-- The state behind the offset for now, when one is given (R65). -/
def State.offsetNow : Option Int → State
  | some v => s.changeOffset (takeOffset v)
  | none => s

/-- The offset for now acts, and then the schedule part (R65, R186). -/
theorem State.setCivilOffset_eq (now : Option Int) (action : ScheduleAction) {t : State} {made : Bool}
    (h : (s.offsetNow now).takeSchedule action = (t, made)) : s.setCivilOffset now action =
      ⟨t, taken ((now.any fun v => takeOffset v != v) || action.changed) (offsetOctets now ++ action.octets ++
        beSigned 2 t.tb.civilOffset ++ optional 7 ScheduledChange.octets t.tb.scheduled ++ [flag made])⟩ := by
  cases now with
  | none =>
    have hschedule : s.takeSchedule action = (t, made) := h
    unfold State.setCivilOffset
    dsimp only
    rw [hschedule]
    rfl
  | some v =>
    have hschedule : (s.changeOffset (takeOffset v)).takeSchedule action = (t, made) := h
    unfold State.setCivilOffset
    dsimp only
    rw [hschedule]
    rfl

theorem Timebase.offsetDue_scheduled (tb : Timebase) (c : ScheduledChange) : ({ tb with scheduled := some c } : Timebase).offsetDue =
    if tb.setFlag && !(tb.time.daySec.before ⟨c.day, c.sec⟩) then some c.offset else none := rfl

theorem State.takeSchedule_change (day : Day) (sec : Nat) (x : Int) {tb : Timebase}
    (htb : tb = { s.tb with scheduled := some ⟨day, sec, takeOffset x⟩ }) :
    s.takeSchedule (.change day sec x) = ((s.setTb tb).judgeOffset, tb.offsetDue.isSome) := by
  rw [htb]
  rfl

theorem State.judgeOffset_none (h : s.tb.offsetDue = none) : s.judgeOffset = s := by
  rw [State.judgeOffset, h]

theorem State.judgeOffset_made {new : Int} (h : s.tb.offsetDue = some new) :
    s.judgeOffset = (s.setTb { s.tb with scheduled := none }).changeOffset new := by
  rw [State.judgeOffset, h]

/-- A change whose instant lies ahead, or that comes before the time of day is set, is scheduled (R66). -/
theorem State.takeSchedule_ahead (day : Day) (sec : Nat) (x : Int)
    (h : s.tb.setFlag = false ∨ s.tb.time.daySec.before ⟨day, sec⟩ = true) : s.takeSchedule (.change day sec x) =
      (s.setTb { s.tb with scheduled := some ⟨day, sec, takeOffset x⟩ }, false) := by
  have hdue := s.tb.offsetDue_scheduled ⟨day, sec, takeOffset x⟩
  rw [if_neg (by rcases h with h | h <;> simp [h])] at hdue
  rw [s.takeSchedule_change day sec x rfl, State.judgeOffset_none _ hdue, hdue]
  rfl

/-- A change whose instant has passed is made at the request (R66). -/
theorem State.takeSchedule_passed (day : Day) (sec : Nat) (x : Int) (hset : s.tb.setFlag = true)
    (h : s.tb.time.daySec.before ⟨day, sec⟩ = false) : s.takeSchedule (.change day sec x) =
      ((s.setTb { s.tb with scheduled := none }).changeOffset (takeOffset x), true) := by
  have hdue := s.tb.offsetDue_scheduled ⟨day, sec, takeOffset x⟩
  rw [if_pos (by simp [hset, h])] at hdue
  rw [s.takeSchedule_change day sec x rfl, State.judgeOffset_made _ hdue, hdue]
  rfl

theorem State.cancelForm_range (now : Option Int) {action : Nat} (h : 2 ≤ action) : s.cancelForm now action = refuse s .range := by
  match action, h with
  | _ + 2, _ => rfl

theorem State.changeForm_range (now : Option Int) {action : Nat} (day : Day) {sec : Nat} (x : Int)
    (h : 2 ≤ action ∨ (action = 1 ∧ 86399 < sec)) : s.changeForm now action day sec x = refuse s .range := by
  rcases h with h | ⟨rfl, h⟩
  · match action, h with
    | _ + 2, _ => rfl
  · exact if_pos h

theorem State.changeForm_taken (now : Option Int) (day : Day) {sec : Nat} (x : Int) (h : sec < 86400) :
    s.changeForm now 1 day sec x = s.setCivilOffset now (.change day sec x) := if_neg (by omega)

section Octets

variable {v x : Int} (day : Day) {sec : Nat}

theorem reqSetCivilOffset_now (hv : -32768 ≤ v ∧ v < 32768) :
    reqSetCivilOffset (beSigned 2 v) s = s.setCivilOffset (some v) .keep := by
  rw [beSigned_two, reqSetCivilOffset, signedOfBe_twos hv.1 hv.2]

theorem reqSetCivilOffset_cancel (hv : -32768 ≤ v ∧ v < 32768) :
    reqSetCivilOffset (beSigned 2 v ++ [0]) s = s.setCivilOffset (some v) .cancel := by
  rw [beSigned_two]
  simp only [List.cons_append, List.nil_append, reqSetCivilOffset, signedOfBe_twos hv.1 hv.2]
  rfl

theorem reqSetCivilOffset_change (hsec : sec < 86400) (hx : -32768 ≤ x ∧ x < 32768) :
    reqSetCivilOffset ([1] ++ be 2 day.toNat ++ be 3 sec ++ beSigned 2 x) s = s.setCivilOffset none (.change day sec x) := by
  rw [be_two, be_three, beSigned_two]
  simp only [List.cons_append, List.nil_append, reqSetCivilOffset, signedOfBe_twos hx.1 hx.2, ofBe_day,
    ofBe_three (n := sec) (by omega)]
  exact s.changeForm_taken none day x hsec

theorem reqSetCivilOffset_both (hv : -32768 ≤ v ∧ v < 32768) (hsec : sec < 86400) (hx : -32768 ≤ x ∧ x < 32768) :
    reqSetCivilOffset (beSigned 2 v ++ [1] ++ be 2 day.toNat ++ be 3 sec ++ beSigned 2 x) s =
      s.setCivilOffset (some v) (.change day sec x) := by
  rw [be_two, be_three, beSigned_two, beSigned_two]
  simp only [List.cons_append, List.nil_append, reqSetCivilOffset, signedOfBe_twos hx.1 hx.2, signedOfBe_twos hv.1 hv.2, ofBe_day,
    ofBe_three (n := sec) (by omega)]
  exact s.changeForm_taken (some v) day x hsec

theorem reqSetCivilOffset_none : reqSetCivilOffset [] s = s.setCivilOffset none .keep := rfl

end Octets

/-! ## What each form answers -/

section Answers

variable (v x : Int) (day : Day) (sec : Nat)

theorem State.changeOffset_takes (new : Int) : s.TakesOffset (s.changeOffset new) s.tb.scheduled new :=
  s.takesOffset_changeOffset s.tb.scheduled new

theorem bne_eq_decide_ne (a b : Int) : (a != b) = decide (a ≠ b) := by
  simp [bne, beq_eq_decide]

theorem State.setCivilOffset_now : s.setCivilOffset (some v) .keep = ⟨s.changeOffset (takeOffset v), taken (decide (takeOffset v ≠ v))
    (beSigned 2 (takeOffset v) ++ beSigned 2 (takeOffset v) ++ optional 7 ScheduledChange.octets s.tb.scheduled ++ [0])⟩ := by
  rw [s.setCivilOffset_eq (some v) .keep (t := s.changeOffset (takeOffset v)) rfl, (s.changeOffset_takes _).tb, ← bne_eq_decide_ne]
  simp [offsetOctets, ScheduleAction.octets, ScheduleAction.changed, flag]

theorem State.setCivilOffset_cancel : s.setCivilOffset (some v) .cancel =
    ⟨(s.changeOffset (takeOffset v)).setTb { (s.changeOffset (takeOffset v)).tb with scheduled := none },
      taken (decide (takeOffset v ≠ v))
        (beSigned 2 (takeOffset v) ++ [0] ++ beSigned 2 (takeOffset v) ++ absent 7 ++ [0])⟩ := by
  rw [s.setCivilOffset_eq (some v) .cancel (made := false) rfl, ← bne_eq_decide_ne]
  simp [offsetOctets, ScheduleAction.octets, ScheduleAction.changed, flag, State.offsetNow, (s.changeOffset_takes _).tb, optional]

/-- A schedule part with CHANGE that is scheduled: the answer repeats it (log entry 22). -/
theorem State.setCivilOffset_ahead (now : Option Int) (h : (s.offsetNow now).tb.setFlag = false ∨
      (s.offsetNow now).tb.time.daySec.before ⟨day, sec⟩ = true) : s.setCivilOffset now (.change day sec x) =
    ⟨(s.offsetNow now).setTb { (s.offsetNow now).tb with scheduled := some ⟨day, sec, takeOffset x⟩ },
      taken ((now.any fun v => takeOffset v != v) || takeOffset x != x)
        (offsetOctets now ++ [1] ++ be 2 day.toNat ++ be 3 sec ++ beSigned 2 (takeOffset x) ++
          beSigned 2 (s.offsetNow now).tb.civilOffset ++ (be 2 day.toNat ++ be 3 sec ++ beSigned 2 (takeOffset x)) ++ [0])⟩ := by
  rw [s.setCivilOffset_eq now _ ((s.offsetNow now).takeSchedule_ahead day sec x h)]
  simp [ScheduleAction.octets, ScheduleAction.changed, ScheduledChange.octets, daySecOctets, flag, optional]

/-- A schedule part with CHANGE that is made at the request (R66). -/
theorem State.setCivilOffset_passed (now : Option Int) (hset : (s.offsetNow now).tb.setFlag = true)
    (h : (s.offsetNow now).tb.time.daySec.before ⟨day, sec⟩ = false) : s.setCivilOffset now (.change day sec x) =
    ⟨((s.offsetNow now).setTb { (s.offsetNow now).tb with scheduled := none }).changeOffset (takeOffset x),
      taken ((now.any fun v => takeOffset v != v) || takeOffset x != x)
        (offsetOctets now ++ [1] ++ be 2 day.toNat ++ be 3 sec ++ beSigned 2 (takeOffset x) ++
          beSigned 2 (takeOffset x) ++ absent 7 ++ [1])⟩ := by
  rw [s.setCivilOffset_eq now _ ((s.offsetNow now).takeSchedule_passed day sec x hset h),
    ((s.offsetNow now).takesOffset_changeOffset none (takeOffset x)).tb]
  simp [ScheduleAction.octets, ScheduleAction.changed, daySecOctets, flag, optional]

/-- Both parts given, the schedule part scheduled: the offset for now is in force when it is judged (R65). -/
theorem State.setCivilOffset_both_ahead (h : s.tb.setFlag = false ∨ s.tb.time.daySec.before ⟨day, sec⟩ = true) :
    s.setCivilOffset (some v) (.change day sec x) =
      ⟨(s.changeOffset (takeOffset v)).setTb { (s.changeOffset (takeOffset v)).tb with
        scheduled := some ⟨day, sec, takeOffset x⟩ },
      taken (decide (takeOffset v ≠ v ∨ takeOffset x ≠ x))
        (beSigned 2 (takeOffset v) ++ [1] ++ be 2 day.toNat ++ be 3 sec ++ beSigned 2 (takeOffset x) ++
          beSigned 2 (takeOffset v) ++ (be 2 day.toNat ++ be 3 sec ++ beSigned 2 (takeOffset x)) ++ [0])⟩ := by
  have htb := (s.changeOffset_takes (takeOffset v)).tb
  have hahead := s.setCivilOffset_ahead x day sec (some v) (by rw [State.offsetNow, htb]; exact h)
  rw [State.offsetNow] at hahead
  rw [hahead, htb, Bool.decide_or, ← bne_eq_decide_ne, ← bne_eq_decide_ne]
  rfl

/-- Both parts given, the schedule part made at the request: a second change (R66). -/
theorem State.setCivilOffset_both_passed (hset : s.tb.setFlag = true) (h : s.tb.time.daySec.before ⟨day, sec⟩ = false) :
    s.setCivilOffset (some v) (.change day sec x) =
      ⟨((s.changeOffset (takeOffset v)).setTb { (s.changeOffset (takeOffset v)).tb with scheduled := none }).changeOffset
        (takeOffset x),
      taken (decide (takeOffset v ≠ v ∨ takeOffset x ≠ x))
        (beSigned 2 (takeOffset v) ++ [1] ++ be 2 day.toNat ++ be 3 sec ++ beSigned 2 (takeOffset x) ++
          beSigned 2 (takeOffset x) ++ absent 7 ++ [1])⟩ := by
  have htb := (s.changeOffset_takes (takeOffset v)).tb
  have hpassed := s.setCivilOffset_passed x day sec (some v) (by rw [State.offsetNow, htb]; exact hset)
    (by rw [State.offsetNow, htb]; exact h)
  rw [State.offsetNow] at hpassed
  rw [hpassed, Bool.decide_or, ← bne_eq_decide_ne, ← bne_eq_decide_ne]
  rfl

end Answers

/-! ## The state behind a change -/

theorem State.withDecisions_taking (code : Byte) (r : Request) (new : Int) (tb : Timebase) :
    (((s.taking code r).withOffsetChange new).withDecisions tb).journal = ((s.withOffsetChange new).withDecisions tb).journal := by
  rw [State.withDecisions_eq_setJournal, State.withDecisions_eq_setJournal]
  unfold State.withOffsetChange
  rw [State.taking_tb]
  by_cases h : s.tb.civilOffset = new
  · rw [if_pos h, if_pos h]
    rfl
  · rw [if_neg h, if_neg h]
    rfl

theorem State.TakesOffset.levelOf {s t : State} {scheduled : Option ScheduledChange} {new : Int}
    (h : s.TakesOffset t scheduled new) (c : JournalClass) : t.levelOf c = s.levelOf c := by
  have hbefore : (s.withOffsetChange new).journal.classes = s.journal.classes := by
    unfold State.withOffsetChange
    split
    · rfl
    · exact Journal.offer_classes _ _ _
  have hclasses : t.journal.classes = s.journal.classes := by
    rw [h.journal, State.withDecisions_eq_setJournal]
    exact (State.decidedJournal_classes _ _ _).trans hbefore
  unfold State.levelOf
  rw [hclasses]

theorem Line.takesTarget.at_rest {x y : Line} {t : Option Nat} {now : Nat} (h : x.takesTarget y t now)
    (hrest : x.state = .unset ∨ x.state = .halted) : y = { x with target := t } := by
  obtain ⟨hsame, -, hnew⟩ := h
  by_cases ht : x.target = t
  · rw [hsame ht, ← ht]
  · exact hnew ht (hrest.imp id .inl)

/-- A change that differs leaves lines at rest with their new targets and one record (R66, R137). -/
theorem State.TakesOffset.at_rest {s t : State} {scheduled : Option ScheduledChange} {new : Int}
    (h : s.TakesOffset t scheduled new) (hrest : ∀ l, (s.line l).state = .unset ∨ (s.line l).state = .halted)
    (hnew : s.tb.civilOffset ≠ new) : (∀ l, t.line l = { s.line l with target := t.tb.target (s.line l).period }) ∧
      t.journal = (s.withRecord (s.levelOf .time) (.offsetChange s.tb.civilOffset new)).journal := by
  refine ⟨fun l => (h.lines l).at_rest (hrest l), ?_⟩
  have hchange : s.withOffsetChange new = s.withRecord (s.levelOf .time) (.offsetChange s.tb.civilOffset new) := if_neg hnew
  rw [h.journal, hchange]
  exact congrArg State.journal (State.withDecisions_at_rest (s.withRecord _ _) _ hrest)

/-- Taking the request off the queue has no part in a change. -/
theorem State.TakesOffset.of_taking {s t : State} {code : Byte} {r : Request} {scheduled : Option ScheduledChange} {new : Int}
    (h : (s.taking code r).TakesOffset t scheduled new) : t.tb = { s.tb with scheduled := scheduled, civilOffset := new } ∧
      (∀ l, (s.line l).takesTarget (t.line l) (t.tb.target (s.line l).period) s.tb.instant) ∧
      t.journal = ((s.withOffsetChange new).withDecisions t.tb).journal ∧
      t = { s.taking code r with tb := t.tb, lines := t.lines, journal := t.journal } :=
  ⟨h.tb, h.lines, h.journal.trans (s.withDecisions_taking code r new t.tb), h.only⟩

/-! ## The command -/

section Command

variable {s : State} (r : Request)

theorem exec_setCivilOffset {t : State} {a : Reply} (hs : s.ready) (h : reqSetCivilOffset r.params (s.taking 33 r) = ⟨t, a⟩) :
    exec (.setCivilOffset r) s = .next (t.respond 33 r a) := s.next_serve hs 33 r h

theorem exec_setCivilOffset_range (hs : s.ready) (h : reqSetCivilOffset r.params (s.taking 33 r) = refuse (s.taking 33 r) .range) :
    exec (.setCivilOffset r) s = .next ((s.taking 33 r).respond 33 r (.refused .range)) := exec_setCivilOffset r hs h

variable {x : Int} (day : Day) {sec : Nat}

/-- CHANGE alone, scheduled (R66). -/
theorem exec_setCivilOffset_ahead (hs : s.ready) (hsec : sec < 86400) (hx : -32768 ≤ x ∧ x < 32768)
    (hr : r.params = [1] ++ be 2 day.toNat ++ be 3 sec ++ beSigned 2 x)
    (h : s.tb.setFlag = false ∨ s.tb.time.daySec.before ⟨day, sec⟩ = true) : exec (.setCivilOffset r) s =
      .next (((s.taking 33 r).setTb { s.tb with scheduled := some ⟨day, sec, takeOffset x⟩ }).respond 33 r
        (taken (decide (takeOffset x ≠ x)) ([1] ++ be 2 day.toNat ++ be 3 sec ++ beSigned 2 (takeOffset x) ++
          beSigned 2 s.tb.civilOffset ++ (be 2 day.toNat ++ be 3 sec ++ beSigned 2 (takeOffset x)) ++ [0]))) := by
  refine exec_setCivilOffset r hs ?_
  rw [hr, reqSetCivilOffset_change _ day hsec hx, (s.taking 33 r).setCivilOffset_ahead x day sec none h, ← bne_eq_decide_ne]
  rfl

/-- CHANGE alone, made at the request (R66). -/
theorem exec_setCivilOffset_passed (hs : s.ready) (hsec : sec < 86400) (hx : -32768 ≤ x ∧ x < 32768)
    (hr : r.params = [1] ++ be 2 day.toNat ++ be 3 sec ++ beSigned 2 x) (hset : s.tb.setFlag = true)
    (h : s.tb.time.daySec.before ⟨day, sec⟩ = false) : exec (.setCivilOffset r) s =
      .next ((((s.taking 33 r).setTb { s.tb with scheduled := none }).changeOffset (takeOffset x)).respond 33 r
        (taken (decide (takeOffset x ≠ x)) ([1] ++ be 2 day.toNat ++ be 3 sec ++ beSigned 2 (takeOffset x) ++
          beSigned 2 (takeOffset x) ++ absent 7 ++ [1]))) := by
  refine exec_setCivilOffset r hs ?_
  rw [hr, reqSetCivilOffset_change _ day hsec hx, (s.taking 33 r).setCivilOffset_passed x day sec none hset h, ← bne_eq_decide_ne]
  rfl

/-- An offset for now alone (R65). -/
theorem exec_setCivilOffset_now {v : Int} (hs : s.ready) (hv : -32768 ≤ v ∧ v < 32768) (hr : r.params = beSigned 2 v) :
    exec (.setCivilOffset r) s = .next (((s.taking 33 r).changeOffset (takeOffset v)).respond 33 r
      (taken (decide (takeOffset v ≠ v)) (beSigned 2 (takeOffset v) ++ beSigned 2 (takeOffset v) ++
        optional 7 ScheduledChange.octets s.tb.scheduled ++ [0]))) := by
  refine exec_setCivilOffset r hs ?_
  rw [hr, reqSetCivilOffset_now _ hv, State.setCivilOffset_now]
  rfl

end Command

end Facts

/-- Settles O41: the six forms of the request, in each the offset for now ahead of the schedule part. -/
theorem setCivilOffsetChangesTheOffset : Obligations.SetCivilOffsetChangesTheOffset := by
  refine ⟨fun s r v w hs hlow hhigh hw => ?_, fun s r day sec x y hs hsec hlow hhigh hy hr => ⟨fun h => ?_, fun hset h => ?_⟩,
    fun s r n1 n0 action d1 d0 t2 t1 t0 v1 v0 hs => ⟨fun ha hr => ?_, fun ha hr => ?_, fun hr => ?_⟩,
    fun s r v hs hlow hhigh hnew hnone hrest hr => ?_, fun s r v day sec hs hlow hhigh hsec => ⟨fun h hr => ?_, fun hr => ?_⟩,
    fun s r v day sec hs hlow hhigh hsec hset h hnew hrest hr => ?_⟩
  · obtain rfl : w = takeOffset v := hw
    have htakes := (s.taking 33 r).changeOffset_takes (takeOffset v)
    have hlevel := htakes.levelOf .time
    obtain ⟨htb, hlines, hjournal, honly⟩ := htakes.of_taking
    refine ⟨(s.taking 33 r).changeOffset (takeOffset v), htb, hlines, hjournal, honly,
      exec_setCivilOffset_now r hs ⟨hlow, hhigh⟩, fun hr => exec_setCivilOffset r hs ?_,
      fun day sec x y hsec hxlow hxhigh hy hr => ⟨fun h => exec_setCivilOffset r hs ?_, fun hset h => ?_⟩⟩
    · rw [hr, reqSetCivilOffset_cancel _ ⟨hlow, hhigh⟩, State.setCivilOffset_cancel]
    · obtain rfl : y = takeOffset x := hy
      rw [hr, reqSetCivilOffset_both _ day ⟨hlow, hhigh⟩ hsec ⟨hxlow, hxhigh⟩]
      exact State.setCivilOffset_both_ahead _ v x day sec h
    · obtain rfl : y = takeOffset x := hy
      have hpassed := (s.taking 33 r).setCivilOffset_both_passed v x day sec hset h
      rw [← reqSetCivilOffset_both _ day ⟨hlow, hhigh⟩ hsec ⟨hxlow, hxhigh⟩, ← hr] at hpassed
      refine ⟨_, exec_setCivilOffset r hs hpassed, ?_⟩
      have hmade := ((s.taking 33 r).changeOffset (takeOffset v)).takesOffset_changeOffset none (takeOffset x)
      generalize (s.taking 33 r).changeOffset (takeOffset v) = t at htb hlevel hmade ⊢
      obtain ⟨hmadetb, hmadelines, hmadejournal, hmadeonly⟩ := hmade
      have hinstant : t.tb.instant = s.tb.instant := by rw [htb]; rfl
      have hoffset : t.tb.civilOffset = takeOffset v := by rw [htb]
      rw [hinstant] at hmadelines
      rw [State.withOffsetChange, hoffset, hlevel] at hmadejournal
      refine ⟨?_, hmadelines, hmadejournal, hmadeonly⟩
      rw [hmadetb, htb]
  · obtain rfl : y = takeOffset x := hy
    exact exec_setCivilOffset_ahead r day hs hsec ⟨hlow, hhigh⟩ hr h
  · obtain rfl : y = takeOffset x := hy
    exact ⟨_, exec_setCivilOffset_passed r day hs hsec ⟨hlow, hhigh⟩ hr hset h,
      ((s.taking 33 r).takesOffset_changeOffset none (takeOffset x)).of_taking⟩
  · refine exec_setCivilOffset_range r hs ?_
    rcases hr with hr | hr
    · rw [hr]
      exact State.cancelForm_range _ none ha
    · rw [hr]
      exact State.cancelForm_range _ _ ha
  · have ha' : 2 ≤ action.toNat ∨ (action.toNat = 1 ∧ 86399 < ofBe [t2, t1, t0]) :=
      ha.imp id fun ⟨h1, h⟩ => ⟨congrArg BitVec.toNat h1, h⟩
    refine exec_setCivilOffset_range r hs ?_
    rcases hr with hr | hr
    · rw [hr]
      exact State.changeForm_range _ none _ _ ha'
    · rw [hr]
      exact State.changeForm_range _ _ _ _ ha'
  · refine exec_setCivilOffset r hs ?_
    rw [hr, reqSetCivilOffset_none, State.setCivilOffset_eq _ none .keep (made := false) rfl]
    rfl
  · have hstep := takeOffset_step hlow hhigh
    have htakes := (s.taking 33 r).changeOffset_takes (15 * v)
    obtain ⟨hlines, hjournal⟩ := htakes.at_rest hrest hnew
    obtain ⟨htb, -, -, honly⟩ := htakes.of_taking
    have hexec := exec_setCivilOffset_now r hs ⟨by omega, by omega⟩ hr
    rw [hstep, hnone] at hexec
    refine ⟨_, hexec.trans (by simp [taken, optional]), htb, hlines, hjournal, honly⟩
  · have hstep := takeOffset_step hlow hhigh
    have hexec := exec_setCivilOffset_ahead r day hs hsec ⟨by omega, by omega⟩ hr h
    rw [hstep] at hexec
    exact hexec.trans (by simp [taken])
  · refine exec_setCivilOffset r hs ?_
    have hcancel : reqSetCivilOffset r.params (s.taking 33 r) = (s.taking 33 r).setCivilOffset none .cancel := by rw [hr]; rfl
    rw [hcancel, State.setCivilOffset_eq _ none .cancel (made := false) rfl]
    rfl
  · have hstep := takeOffset_step hlow hhigh
    have htakes := (s.taking 33 r).takesOffset_changeOffset none (15 * v)
    obtain ⟨hlines, hjournal⟩ := htakes.at_rest hrest hnew
    obtain ⟨htb, -, -, honly⟩ := htakes.of_taking
    have hexec := exec_setCivilOffset_passed r day hs hsec ⟨by omega, by omega⟩ hr hset h
    rw [hstep] at hexec
    exact ⟨_, hexec.trans (by simp [taken]), htb, hlines, hjournal, honly⟩

end Sys2Proof.Machine
end

