-- ==== Sys2Proof/Proofs/Dating.lean ====
section
/-! PROOFS. Sys2Proof/Proofs/Dating.lean: the dating subtraction, measured on a count of seconds that the most recent leap second shifts
(R75, R76). -/

namespace Sys2Proof.Machine

/-! ## The count of seconds -/

/-- What the most recent leap second adds to the count of every day after its own (R75). -/
def leapShift : Option Leap → Day → Int
  | some ⟨day, .insert⟩, d => if day.toNat < d.toNat then 1 else 0
  | some ⟨day, .delete⟩, d => if day.toNat < d.toNat then -1 else 0
  | none, _ => 0

/-- The seconds from day 0, 00:00:00 to a second of a day, the most recent leap second counted. -/
def DaySec.count (recent : Option Leap) (t : DaySec) : Int := t.day.toNat * 86400 + t.sec + leapShift recent t.day

/-- The last second of a day, as the counting back meets it (R75). -/
def lastSecond : Option Leap → Day → Nat
  | some ⟨day, .insert⟩, d => if day = d then 86400 else 86399
  | some ⟨day, .delete⟩, d => if day = d then 86398 else 86399
  | none, _ => 86399

/-- A second that a day has: 86,400 stands only in the day of the inserted second. -/
def DaySec.onScale (recent : Option Leap) (t : DaySec) : Prop :=
  t.sec ≤ 86400 ∧ (t.sec = 86400 → recent = some ⟨t.day, .insert⟩)

theorem Day.toNat_succ {day : Day} (h : day.toNat < 65535) : (day + 1).toNat = day.toNat + 1 := by bv_omega

theorem DaySec.count_nonneg (recent : Option Leap) (t : DaySec) : 0 ≤ t.count recent := by
  unfold DaySec.count leapShift
  split
  · split <;> omega
  · split <;> omega
  · omega

theorem DaySec.count_origin (recent : Option Leap) : DaySec.count recent ⟨0, 0⟩ = 0 := by
  unfold DaySec.count leapShift
  split <;> simp

/-- A midnight is counted one second after the last second of the day before it. -/
theorem DaySec.count_midnight (recent : Option Leap) {day : Day} (h : day.toNat < 65535) :
    DaySec.count recent ⟨day, lastSecond recent day⟩ + 1 = DaySec.count recent ⟨day + 1, 0⟩ := by
  have hsucc := Day.toNat_succ h
  match recent with
  | none => simp only [DaySec.count, lastSecond, leapShift, hsucc]; omega
  | some ⟨d, .insert⟩ =>
    simp only [DaySec.count, lastSecond, leapShift, hsucc, ← BitVec.toNat_inj]
    split_ifs <;> omega
  | some ⟨d, .delete⟩ =>
    simp only [DaySec.count, lastSecond, leapShift, hsucc, ← BitVec.toNat_inj]
    split_ifs <;> omega

theorem lastSecond_insert (day : Day) : lastSecond (some ⟨day, .insert⟩) day = 86400 := if_pos rfl

theorem lastSecond_delete (day : Day) : lastSecond (some ⟨day, .delete⟩) day = 86398 := if_pos rfl

theorem lastSecond_other {recent : Option Leap} {day : Day} (h : ∀ kind, recent ≠ some ⟨day, kind⟩) :
    lastSecond recent day = 86399 := by
  match recent with
  | none => rfl
  | some ⟨d, .insert⟩ => exact if_neg fun heq : d = day => h .insert (by rw [heq])
  | some ⟨d, .delete⟩ => exact if_neg fun heq : d = day => h .delete (by rw [heq])

theorem lastSecond_onScale (recent : Option Leap) (day : Day) : DaySec.onScale recent ⟨day, lastSecond recent day⟩ := by
  unfold DaySec.onScale lastSecond
  split
  · split <;> simp_all
  · split <;> simp
  · simp

/-! ## One second counted back (R75) -/

theorem preceding_within (recent : Option Leap) (day : Day) (sec : Nat) : preceding recent ⟨day, sec + 1⟩ = some ⟨day, sec⟩ := rfl

theorem preceding_origin (recent : Option Leap) : preceding recent ⟨0, 0⟩ = none := rfl

theorem preceding_midnight (recent : Option Leap) {day : Day} (h : day.toNat < 65535) :
    preceding recent ⟨day + 1, 0⟩ = some ⟨day, lastSecond recent day⟩ := by
  have hday : day + 1#16 ≠ 0#16 := by bv_omega
  have hback : day + 1#16 - 1#16 = day := by bv_omega
  match recent with
  | none => simp [preceding, lastSecond, hday, hback]
  | some ⟨d, .insert⟩ =>
    by_cases hd : d = day <;> simp [preceding, lastSecond, hday, hback, hd]
  | some ⟨d, .delete⟩ =>
    by_cases hd : d = day <;> simp [preceding, lastSecond, hday, hback, hd]

/-- A second is the first of all, lies within its day, or is a midnight. -/
theorem DaySec.cases_of_preceding (t : DaySec) :
    t = ⟨0, 0⟩ ∨ (∃ day sec, t = ⟨day, sec + 1⟩) ∨ ∃ day : Day, day.toNat < 65535 ∧ t = ⟨day + 1, 0⟩ := by
  obtain ⟨day, _ | sec⟩ := t
  · by_cases h : day = 0
    · exact .inl (by rw [h])
    · have hback : day = day - 1 + 1 := by bv_omega
      exact .inr (.inr ⟨day - 1, by bv_omega, by rw [← hback]⟩)
  · exact .inr (.inl ⟨day, sec, rfl⟩)

/-- Only the origin has no second before it. -/
theorem preceding_none {recent : Option Leap} {t : DaySec} (h : preceding recent t = none) : t = ⟨0, 0⟩ := by
  obtain rfl | ⟨day, sec, rfl⟩ | ⟨day, hday, rfl⟩ := t.cases_of_preceding
  · rfl
  · exact nomatch h
  · exact nomatch (preceding_midnight recent hday).symm.trans h

/-- The second before is counted one less, and is one that its day has. -/
theorem preceding_some {recent : Option Leap} {t u : DaySec} (h : preceding recent t = some u) :
    u.count recent + 1 = t.count recent ∧ (t.sec ≤ 86400 → u.onScale recent) := by
  obtain rfl | ⟨day, sec, rfl⟩ | ⟨day, hday, rfl⟩ := t.cases_of_preceding
  · exact nomatch h
  · obtain rfl := Option.some.inj h
    refine ⟨?_, fun hsec => ⟨Nat.le_of_succ_le hsec, fun hlast => absurd hsec (by dsimp only at hlast ⊢; omega)⟩⟩
    simp only [DaySec.count]
    omega
  · obtain rfl := Option.some.inj ((preceding_midnight recent hday).symm.trans h)
    exact ⟨DaySec.count_midnight recent hday, fun _ => lastSecond_onScale recent day⟩

/-! ## Several seconds counted back (R75, R76) -/

/-- Counting back takes exactly as many seconds as it is asked to. -/
theorem countBack_some {recent : Option Leap} {n : Nat} {t u : DaySec} (h : countBack recent n t = some u) :
    u.count recent + n = t.count recent := by
  induction n generalizing t with
  | zero => rw [← Option.some.inj h, Int.natCast_zero, Int.add_zero]
  | succ n ih =>
    rw [countBack] at h
    split at h
    next t' hback =>
      have hfirst := (preceding_some hback).1
      have hrest := ih h
      omega
    · exact nomatch h

/-- Counting back stays within seconds that their days have. -/
theorem countBack_onScale {recent : Option Leap} {n : Nat} {t u : DaySec} (h : countBack recent n t = some u) (ht : t.sec ≤ 86400) :
    u = t ∨ u.onScale recent := by
  induction n generalizing t with
  | zero => exact .inl (Option.some.inj h).symm
  | succ n ih =>
    rw [countBack] at h
    split at h
    next t' hback =>
      have hscale := (preceding_some hback).2 ht
      exact .inr ((ih h hscale.1).elim (fun heq => heq ▸ hscale) id)
    · exact nomatch h

/-- Counting back fails only past the origin. -/
theorem countBack_none {recent : Option Leap} {n : Nat} {t : DaySec} (h : countBack recent n t = none) : t.count recent < n := by
  induction n generalizing t with
  | zero => exact nomatch h
  | succ n ih =>
    rw [countBack] at h
    split at h
    next t' hback =>
      have hfirst := (preceding_some hback).1
      have hrest := ih h
      omega
    next hback =>
      rw [preceding_none hback, DaySec.count_origin]
      omega

/-! ## The subtraction (R75, R76) -/

/-- The second borrowed when the nanoseconds do not reach (R75). -/
def borrowed (nanos amount : Nat) : Nat := if nanos < amount % 1000000000 then 1 else 0

/-- The seconds that the subtraction counts back, the borrowed one with them. -/
def secondsBack (nanos amount : Nat) : Nat := amount / 1000000000 + borrowed nanos amount

/-- The nanoseconds that the subtraction leaves. -/
def nanosLeft (nanos amount : Nat) : Nat := nanos + borrowed nanos amount * 1000000000 - amount % 1000000000

/-- The seconds counted back and the nanoseconds left make up the amount. -/
theorem nanosLeft_add (nanos amount : Nat) :
    nanosLeft nanos amount + amount = secondsBack nanos amount * 1000000000 + nanos := by
  unfold nanosLeft secondsBack borrowed
  split <;> omega

theorem nanosLeft_lt {nanos : Nat} (amount : Nat) (h : nanos < 1000000000) : nanosLeft nanos amount < 1000000000 := by
  unfold nanosLeft borrowed
  split <;> omega

theorem dateBack_of_some {recent : Option Leap} {t : TimeOfDay} {amount : Nat} {u : DaySec}
    (h : countBack recent (secondsBack t.nanos amount) t.daySec = some u) :
    dateBack recent t amount = ⟨⟨u.day, u.sec, nanosLeft t.nanos amount⟩, false⟩ := by
  rw [secondsBack, borrowed] at h
  simp only [dateBack, h, nanosLeft, borrowed]

theorem dateBack_of_none {recent : Option Leap} {t : TimeOfDay} {amount : Nat}
    (h : countBack recent (secondsBack t.nanos amount) t.daySec = none) : dateBack recent t amount = ⟨⟨0, 0, 0⟩, true⟩ := by
  rw [secondsBack, borrowed] at h
  simp only [dateBack, h]

/-- The nanoseconds since the origin, the most recent leap second counted. -/
def TimeOfDay.since (recent : Option Leap) (t : TimeOfDay) : Int := t.daySec.count recent * 1000000000 + t.nanos

/-- The two terms of the statement's scale. -/
theorem TimeOfDay.since_eq (recent : Option Leap) (t : TimeOfDay) :
    t.since recent = t.linear + leapShift recent t.day * 1000000000 := by
  simp only [TimeOfDay.since, TimeOfDay.linear, TimeOfDay.daySec, DaySec.count]
  omega

/-- The amount reaches past the origin exactly when its seconds do. -/
theorem le_since_iff {recent : Option Leap} {t : TimeOfDay} {amount : Nat} (ht : t.nanos < 1000000000) :
    (amount : Int) ≤ t.since recent ↔ (secondsBack t.nanos amount : Int) ≤ t.daySec.count recent := by
  have hsum := nanosLeft_add t.nanos amount
  have hlt := nanosLeft_lt amount ht
  simp only [TimeOfDay.since]
  omega

theorem dateBack_exact {recent : Option Leap} {t : TimeOfDay} {amount : Nat} (hsec : t.sec ≤ 86400) (hnanos : t.nanos < 1000000000)
    (h : (amount : Int) ≤ t.since recent) :
    ∃ r : TimeOfDay, dateBack recent t amount = ⟨r, false⟩ ∧ r.since recent + amount = t.since recent ∧ r.nanos < 1000000000 ∧
      r.sec ≤ 86400 ∧ (t.sec < 86400 → r.sec = 86400 → recent = some ⟨r.day, .insert⟩) := by
  have hle := (le_since_iff hnanos).1 h
  cases hback : countBack recent (secondsBack t.nanos amount) t.daySec with
  | none => exact absurd (countBack_none hback) (by omega)
  | some u =>
    have hcount := countBack_some hback
    have hsum := nanosLeft_add t.nanos amount
    refine ⟨⟨u.day, u.sec, nanosLeft t.nanos amount⟩, dateBack_of_some hback, ?_, nanosLeft_lt amount hnanos, ?_⟩
    · show u.count recent * 1000000000 + nanosLeft t.nanos amount + amount = t.daySec.count recent * 1000000000 + t.nanos
      omega
    · obtain rfl | ⟨husec, hinsert⟩ := countBack_onScale hback hsec
      · exact ⟨hsec, fun hlt heq => absurd heq hlt.ne⟩
      · exact ⟨husec, fun _ => hinsert⟩

theorem dateBack_clamped {recent : Option Leap} {t : TimeOfDay} {amount : Nat} (hnanos : t.nanos < 1000000000)
    (h : t.since recent < amount) : dateBack recent t amount = ⟨⟨0, 0, 0⟩, true⟩ := by
  have hlt := mt (le_since_iff hnanos).2 h.not_ge
  cases hback : countBack recent (secondsBack t.nanos amount) t.daySec with
  | none => exact dateBack_of_none hback
  | some u =>
    have hcount := countBack_some hback
    have hnonneg := u.count_nonneg recent
    omega

/-- Settles O29: the table of R75 second by second, and the subtraction on the count of seconds that each step of it lowers by one. -/
theorem datingSubtractsExactly : Obligations.DatingSubtractsExactly := by
  unfold Obligations.DatingSubtractsExactly
  refine ⟨fun recent day sec => ⟨preceding_within recent day sec, preceding_origin recent, fun hday => ?_⟩,
    fun recent t amount since hsince hsec hnanos => ?_⟩
  · rw [preceding_midnight recent hday]
    refine ⟨?_, ?_, fun hother => by rw [lastSecond_other hother]⟩
    · rintro rfl
      rw [lastSecond_insert]
    · rintro rfl
      rw [lastSecond_delete]
  · obtain rfl : since = TimeOfDay.since recent := by
      funext x
      rw [hsince, TimeOfDay.since_eq]
      match recent with
      | none => rfl
      | some ⟨d, .insert⟩ => simp [leapShift]
      | some ⟨d, .delete⟩ => simp [leapShift]
    refine ⟨fun h => ?_, dateBack_clamped hnanos⟩
    obtain ⟨r, hr, hexact, hrest⟩ := dateBack_exact hsec hnanos h
    rw [hr]
    exact ⟨rfl, hexact, hrest⟩

end Sys2Proof.Machine
end

