-- ==== Sys2Proof/Proofs/PointAnswers.lean ====
section
/-! PROOFS. Sys2Proof/Proofs/PointAnswers.lean: the operate time, the closings of a supervision, and the answers of a point state by state
(R79, R80, R89, R90, R92, R94, R95, R103, R106). -/

namespace Sys2Proof.Machine

/-! ## The operate time (R80) -/

theorem reportedTime_neg {nanos : Int} (h : nanos < 0) : reportedTime nanos = ⟨0, true⟩ := if_pos h

theorem reportedTime_whole {nanos : Int} (h : 0 ≤ nanos) (hlt : nanos < 65536000000) :
    reportedTime nanos = ⟨nanos.toNat / 1000000, false⟩ := by
  rw [reportedTime, if_neg h.not_gt, if_pos hlt]

theorem reportedTime_saturated {nanos : Int} (h : 65536000000 ≤ nanos) : reportedTime nanos = ⟨65535, false⟩ := by
  rw [reportedTime, if_neg (by omega), if_neg h.not_gt]

theorem isEnd_iff (code : Nat) : isEnd code = true ↔ code = 1 ∨ code = 2 := by simp [isEnd]

section Answers

variable (level : Nat) {e : Element} {c : Change} {t : Nat} {k : Capture} {d : Nat}

/-! ## Closings (R103, R106) -/

/-- A closing whose outcome is none of R106 leaves the statistics. -/
theorem closeByChange_untimed {outcome : MoveOutcome} (h : e.stats.close outcome none = e.stats) :
    closeByChange level e c outcome t none =
      ⟨{ e with sup := .idle },
        [⟨level, c.dated, c.ageLimit, c.clamped, .movementOutcome c.element outcome t (some c.new) none⟩]⟩ := by
  rw [closeByChange, h]
  rfl

theorem completePoint_inTime (h : (operateTime c.origin k c.latency).ms ≤ e.loaded.slowThreshold) :
    completePoint level e c t k = closeByChange level e c .completed t (some (operateTime c.origin k c.latency)) := by
  rw [completePoint, if_neg h.not_gt]

theorem completePoint_slow (h : e.loaded.slowThreshold < (operateTime c.origin k c.latency).ms) :
    completePoint level e c t k = closeByChange level e c .completedSlow t (some (operateTime c.origin k c.latency)) := by
  rw [completePoint, if_pos h]

/-! ## Answers by state (R89, R90, R92) -/

/-- The target shown before the deadline completes the movement (R89, R90). -/
theorem pointChange_target (h : e.sup = .commanded t k d ∨ e.sup = .travelling t k d) (hnew : c.new = t) :
    pointChange level e c = completePoint level e c t k := by
  rcases h with h | h <;> simp only [pointChange, h, if_pos hnew]

theorem pointChange_target_overdue (h : e.sup = .overdue t k) (hnew : c.new = t) :
    pointChange level e c = closeByChange level e c .lateDetection t (some (operateTime c.origin k c.latency)) := by
  simp only [pointChange, h, if_pos hnew]

/-- Loss of detection starts the travel (R89). -/
theorem pointChange_lost (h : e.sup = .commanded t k d) (ht : t = 1 ∨ t = 2) (hnew : c.new = 3) :
    pointChange level e c = ⟨{ e with sup := .travelling t k d }, []⟩ := by
  have hne : c.new ≠ t := by omega
  simp only [pointChange, h, if_neg hne, if_pos hnew]

/-- A point that is travelling or overdue, shown without detection, goes on as it was (R89, R92). -/
theorem pointChange_stillLost (h : e.sup = .travelling t k d ∨ e.sup = .overdue t k) (ht : t = 1 ∨ t = 2) (hnew : c.new = 3) :
    pointChange level e c = ⟨e, []⟩ := by
  have hne : ¬ 3 = t := by omega
  rcases h with h | h <;> simp [pointChange, h, hnew, hne, isEnd]

/-- FAULT closes the supervision (R89, R92). -/
theorem pointChange_fault (h : e.sup = .commanded t k d ∨ e.sup = .travelling t k d ∨ e.sup = .overdue t k) (ht : t = 1 ∨ t = 2)
    (hnew : c.new = 4) : pointChange level e c = closeByChange level e c .fault t none := by
  have hne : ¬ 4 = t := by omega
  rcases h with h | h | h <;> simp [pointChange, h, hnew, hne]

/-- The other end, not a first report, closes a movement that has left its end (R89, R92). -/
theorem pointChange_returned (h : e.sup = .travelling t k d ∨ e.sup = .overdue t k) (hfirst : c.first = false)
    (hend : c.new = 1 ∨ c.new = 2) (hne : c.new ≠ t) : pointChange level e c = closeByChange level e c .returned t none := by
  have hfour : ¬ c.new = 4 := by omega
  have hend := (isEnd_iff c.new).2 hend
  rcases h with h | h <;> simp [pointChange, h, hne, hfour, hend, hfirst]

/-- The other end as a first report is no answer (R89, R92). -/
theorem pointChange_firstEnd (h : e.sup = .commanded t k d ∨ e.sup = .overdue t k) (hfirst : c.first = true)
    (hend : c.new = 1 ∨ c.new = 2) (hne : c.new ≠ t) : pointChange level e c = ⟨e, []⟩ := by
  have hthree : ¬ c.new = 3 := by omega
  have hfour : ¬ c.new = 4 := by omega
  rcases h with h | h <;> simp [pointChange, h, hne, hthree, hfour, hfirst]

/-! ## Changes outside a supervision (R94, R95) -/

theorem pointChange_idle (h : e.sup = .idle) : pointChange level e c = pointChangeIdle e c := by simp only [pointChange, h]

/-- A change in IDLE from an end, with neither mark, is judged by its new state alone (R94). -/
theorem pointChangeIdle_fromEnd {x : Nat} (hx : x = 1 ∨ x = 2) (hfirst : c.first = false) (hsilence : c.silence = false)
    (hold : c.old = some x) :
    pointChangeIdle e c =
      if c.new = 3 then ⟨{ e with sup := .uncommanded x }, [uncommandedOffer c .lossOfDetection]⟩
      else if isEnd c.new && c.new != x then ⟨e, [uncommandedOffer c .movement]⟩
      else ⟨e, []⟩ := by
  simp [pointChangeIdle, hfirst, hsilence, hold, (isEnd_iff x).2 hx]

/-- A marked change in IDLE, and one that does not leave an end, changes nothing (R94). -/
theorem pointChangeIdle_unjudged (h : c.first = true ∨ c.silence = true ∨ c.old = some 3 ∨ c.old = some 4) :
    pointChangeIdle e c = ⟨e, []⟩ := by
  rcases h with h | h | h | h <;> simp [pointChangeIdle, h, isEnd]

theorem pointChange_uncommanded {x : Nat} (h : e.sup = .uncommanded x) :
    pointChange level e c =
      if c.new = x then ⟨{ e with sup := .idle }, [uncommandedOffer c .detectionRestored]⟩
      else if isEnd c.new then ⟨{ e with sup := .idle }, [uncommandedOffer c .movement]⟩
      else ⟨e, []⟩ := by
  simp only [pointChange, h]

end Answers

/-- Settles O31: the time by its three ranges, the answers row by row, and the changes in IDLE and UNCOMMANDED by their new state. -/
theorem pointAnswerTable : Obligations.PointAnswerTable := by
  unfold Obligations.PointAnswerTable
  refine ⟨?_, ?_, fun level e c x hx => ⟨fun h hfirst hsilence hold => ?_, fun h hmark => ?_, fun h => ?_⟩⟩
  · rintro origin _ k latency rfl
    exact ⟨reportedTime_neg, reportedTime_whole, reportedTime_saturated⟩
  · rintro level e c t k d _ ht rfl
    refine ⟨fun h hnew => ?_, fun h => pointChange_lost level h ht, fun h => pointChange_stillLost level h ht, fun h hnew => ?_,
      fun h hnew => ?_, fun h hfirst hend hne => ?_, pointChange_firstEnd level⟩
    · rw [pointChange_target level h hnew]
      refine ⟨fun hms => ?_, fun hms => ?_⟩
      · rw [completePoint_inTime level hms, closeByChange, hnew]
        rfl
      · rw [completePoint_slow level hms, closeByChange, hnew]
        rfl
    · rw [pointChange_fault level h ht hnew, closeByChange_untimed level rfl, hnew]
    · rw [pointChange_target_overdue level h hnew, closeByChange, hnew]
      rfl
    · rw [pointChange_returned level h hfirst hend hne, closeByChange_untimed level rfl]
  · rw [pointChange_idle level h, pointChangeIdle_fromEnd hx hfirst hsilence hold]
    refine ⟨fun hnew => if_pos hnew, fun hnew => ?_, fun hnew => ?_⟩
    · rw [if_neg (by omega), if_pos]
      · rfl
      · rcases hx with rfl | rfl <;> simp [hnew, isEnd]
    · rw [if_neg (by omega), if_neg]
      simp [hnew, isEnd]
  · rw [pointChange_idle level h, pointChangeIdle_unjudged hmark]
  · rw [pointChange_uncommanded level h]
    refine ⟨fun hnew => if_pos hnew, fun hnew => ?_, fun hnew => ?_⟩
    · rw [if_neg (by omega), if_pos ((isEnd_iff _).2 (by omega))]
      rfl
    · rw [if_neg (by omega), if_neg]
      rw [isEnd_iff]
      omega

end Sys2Proof.Machine
end

