-- ==== Sys2Proof/Proofs/PointCommands.lean ====
section
/-! PROOFS. Sys2Proof/Proofs/PointCommands.lean: what a point command starts, what it keeps, and what it closes (R86 to R88). -/

namespace Sys2Proof.Machine

/-- A record without a supervision is as one whose supervision is ended. -/
theorem Element.rest_of_idle {e : Element} (h : e.sup = .idle) : { e with sup := .idle } = e := by rw [← h]

section Commands

variable (i level : Nat) {e : Element} {code t : Nat} {k c : Capture} {d : Nat}

/-! ## The start of a movement (R86) -/

theorem startPoint_shown (h : e.accepted = some code) : startPoint e code c = { e with sup := .idle } := by
  simp [startPoint, h]

/-- From the other end, or with no state accepted, the movement is yet to begin. -/
theorem startPoint_away (h : e.accepted = none ∨ ((e.accepted = some 1 ∨ e.accepted = some 2) ∧ e.accepted ≠ some code)) :
    startPoint e code c = { e with sup := .commanded code c (ns c.elapsed + ms e.loaded.operateLimit) } := by
  rcases h with h | ⟨h | h, hne⟩
  · simp only [startPoint, h]
  all_goals
    rw [h, ne_eq, Option.some.injEq] at hne
    simp [startPoint, h, hne, isEnd]

/-- From a state that is no end the movement is under way. -/
theorem startPoint_midway (hcode : code = 1 ∨ code = 2) (h : e.accepted = some 3 ∨ e.accepted = some 4) :
    startPoint e code c = { e with sup := .travelling code c (ns c.elapsed + ms e.loaded.operateLimit) } := by
  have hthree : ¬ 3 = code := by omega
  have hfour : ¬ 4 = code := by omega
  rcases h with h | h <;> simp [startPoint, h, hthree, hfour, isEnd]

/-- What starts does not look at the supervision that stood before. -/
theorem startPoint_sup (x : Supervision) : startPoint { e with sup := x } code c = startPoint e code c := by
  unfold startPoint
  cases e.accepted with
  | none => rfl
  | some a => rfl

/-! ## Commands by state (R86 to R88) -/

theorem pointCommand_idle (h : e.sup = .idle) : pointCommand i level e code c = ⟨startPoint e code c, []⟩ := by
  simp only [pointCommand, h]

/-- The command that is being carried out, given again, changes nothing (R87). -/
theorem pointCommand_repeated (h : e.sup = .commanded t k d ∨ e.sup = .travelling t k d ∨ e.sup = .overdue t k) :
    pointCommand i level e t c = ⟨e, []⟩ := by
  rcases h with h | h | h <;> simp only [pointCommand, h, if_true]

/-- The other command closes the supervision and starts as from IDLE (R87). -/
theorem pointCommand_reversed (h : e.sup = .commanded t k d ∨ e.sup = .travelling t k d ∨ e.sup = .overdue t k) (hne : code ≠ t) :
    pointCommand i level e code c = ⟨startPoint e code c, [outcomeOfCommand i level .reversed t c]⟩ := by
  rcases h with h | h | h <;> simp only [pointCommand, h, if_neg hne]

/-- A command to an uncommanded point starts as from IDLE, with no record (R88). -/
theorem pointCommand_uncommanded (h : e.sup = .uncommanded t) : pointCommand i level e code c = ⟨startPoint e code c, []⟩ := by
  simp only [pointCommand, h]

theorem pointCommand_atRest :
    pointCommand i level { e with sup := .idle } code c = ⟨startPoint e code c, []⟩ := by
  rw [pointCommand_idle i level rfl, startPoint_sup]

end Commands

/-- Settles O30: from IDLE by the accepted state, then the repeat, the reversal and the uncommanded point, which start as IDLE does. -/
theorem pointCommandTable : Obligations.PointCommandTable := by
  intro i level code e c
  refine ⟨fun hidle h => ?_, fun hidle h => ?_, fun hidle hcode h => ?_,
    fun t k d hsup => ⟨fun hsame => ?_, fun hne => ?_⟩, fun t hsup => ?_⟩
  · rw [pointCommand_idle i level hidle, startPoint_shown h, Element.rest_of_idle hidle]
  · rw [pointCommand_idle i level hidle, startPoint_away h]
  · rw [pointCommand_idle i level hidle, startPoint_midway hcode h]
  · subst hsame
    exact pointCommand_repeated i level hsup
  · rw [pointCommand_reversed i level hsup hne, pointCommand_atRest]
    rfl
  · rw [pointCommand_uncommanded i level hsup, pointCommand_atRest]

end Sys2Proof.Machine
end

