-- ==== Sys2Proof/Proofs/Signals.lean ====
section
/-! PROOFS. Sys2Proof/Proofs/Signals.lean: what a signal command starts and closes, and what an accepted change of a signal completes,
misses or records (R96 to R99). -/

namespace Sys2Proof.Machine

theorem isProceed_iff (code : Nat) : isProceed code = true ↔ 1 ≤ code ∧ code ≤ 13 := by simp [isProceed]

section Commands

variable (i level : Nat) {e : Element} {aspect t : Nat} {k c : Capture} {d : Nat}

/-! ## Commands (R96) -/

theorem startSignal_shown (h : e.accepted = some aspect) : startSignal e aspect c = { e with sup := .idle } := if_pos h

theorem startSignal_ordered (h : e.accepted ≠ some aspect) :
    startSignal e aspect c = { e with sup := .ordered aspect c (ns c.elapsed + ms e.loaded.provingLimit) } := if_neg h

/-- What starts does not look at the supervision that stood before. -/
theorem startSignal_sup (x : Supervision) : startSignal { e with sup := x } aspect c = startSignal e aspect c := rfl

theorem signalCommand_idle (h : e.sup = .idle) : signalCommand i level e aspect c = ⟨startSignal e aspect c, []⟩ := by
  simp only [signalCommand, h]

/-- The aspect that is being proved, ordered again, changes nothing. -/
theorem signalCommand_repeated (h : e.sup = .ordered t k d ∨ e.sup = .overdue t k) : signalCommand i level e t c = ⟨e, []⟩ := by
  rcases h with h | h <;> simp only [signalCommand, h, if_true]

theorem signalCommand_cancels (h : e.sup = .ordered t k d) (hne : aspect ≠ t) :
    signalCommand i level e aspect c = ⟨startSignal e aspect c, [outcomeOfCommand i level .cancelled t c]⟩ := by
  simp only [signalCommand, h, if_neg hne]

theorem signalCommand_supersedes (h : e.sup = .overdue t k) (hne : aspect ≠ t) :
    signalCommand i level e aspect c = ⟨startSignal e aspect c, [outcomeOfCommand i level .superseded t c]⟩ := by
  simp only [signalCommand, h, if_neg hne]

theorem signalCommand_atRest : signalCommand i level { e with sup := .idle } aspect c = ⟨startSignal e aspect c, []⟩ := by
  rw [signalCommand_idle i level rfl, startSignal_sup]

end Commands

section Changes

variable (level : Nat) {e : Element} {c : Change} {t : Nat} {k : Capture} {d : Nat}

/-! ## Accepted changes under supervision (R97, R98) -/

theorem signalChange_proven (h : e.sup = .ordered t k d) (hnew : c.new = t) :
    signalChange level e c = closeByChange level e c .completed t (some (operateTime c.origin k c.latency)) := by
  simp only [signalChange, h, if_pos hnew]

theorem signalChange_proven_overdue (h : e.sup = .overdue t k) (hnew : c.new = t) :
    signalChange level e c = closeByChange level e c .lateProving t (some (operateTime c.origin k c.latency)) := by
  simp only [signalChange, h, if_pos hnew]

/-- A state other than the target is judged alike before and after the deadline (R98). -/
theorem signalChange_missed (h : e.sup = .ordered t k d ∨ e.sup = .overdue t k) (hne : c.new ≠ t) :
    signalChange level e c = signalMiss level e c t := by
  rcases h with h | h <;> simp only [signalChange, h, if_neg hne]

theorem signalMiss_proceed (ht : 1 ≤ t ∧ t ≤ 13) (hnew : 1 ≤ c.new ∧ c.new ≤ 13) :
    signalMiss level e c t = closeByChange level e c .aspectMismatch t none := by
  rw [signalMiss, (isProceed_iff t).2 ht, (isProceed_iff c.new).2 hnew]
  rfl

theorem signalMiss_lamp (hnew : c.new = 14 ∨ c.new = 15) :
    signalMiss level e c t = closeByChange level e c .lampFault t none := by
  have hproceed : ¬ (isProceed t && isProceed c.new) = true := by
    rw [Bool.and_eq_true, isProceed_iff, isProceed_iff]
    omega
  rw [signalMiss, if_neg hproceed, if_pos hnew]

/-- STOP against a proceed target, and a proceed aspect against STOP, leave the supervision as it is (R97). -/
theorem signalMiss_stop (h : c.new = 0 ∨ (t = 0 ∧ c.new ≤ 13)) : signalMiss level e c t = ⟨e, []⟩ := by
  have hproceed : ¬ (isProceed t && isProceed c.new) = true := by
    rw [Bool.and_eq_true, isProceed_iff, isProceed_iff]
    omega
  rw [signalMiss, if_neg hproceed, if_neg (by omega)]

/-! ## Accepted changes in IDLE (R99) -/

/-- Whether a change in IDLE is an aspect that clears from STOP on its own (R99). -/
def Change.clears (c : Change) : Prop := c.old = some 0 ∧ isProceed c.new = true ∧ c.first = false ∧ c.silence = false

theorem Change.clears_iff :
    c.clears ↔ c.old = some 0 ∧ (1 ≤ c.new ∧ c.new ≤ 13) ∧ c.first = false ∧ c.silence = false := by
  rw [Change.clears, isProceed_iff]

theorem signalChange_lampFault (h : e.sup = .idle) (hnew : c.new = 14) :
    signalChange level e c = ⟨e, [c.offer level (.lampFault c.element)]⟩ := by
  simp only [signalChange, h, if_pos hnew]

theorem signalChange_clearing (h : e.sup = .idle) (hclears : c.clears) :
    signalChange level e c = ⟨e, [uncommandedOffer c .clearing]⟩ := by
  have hlamp : c.new ≠ 14 := by
    obtain ⟨-, hnew, -⟩ := c.clears_iff.1 hclears
    omega
  simp only [signalChange, h, if_neg hlamp]
  exact if_pos hclears

theorem signalChange_unjudged (h : e.sup = .idle) (hlamp : c.new ≠ 14) (hclears : ¬ c.clears) :
    signalChange level e c = ⟨e, []⟩ := by
  simp only [signalChange, h, if_neg hlamp]
  exact if_neg hclears

end Changes

/-- Settles O32: the commands by the state and the aspect, the changes under supervision by what they show, and the changes in IDLE. -/
theorem signalTables : Obligations.SignalTables := by
  refine ⟨fun i level aspect e c => ⟨fun hidle h => ?_, fun hidle h => ?_, ?_, fun t k d hsup hne => ?_, fun t k hsup hne => ?_⟩,
    ?_, fun level e c hidle => ⟨signalChange_lampFault level hidle, fun hold hlow hhigh hfirst hsilence => ?_, fun h => ?_⟩⟩
  · rw [signalCommand_idle i level hidle, startSignal_shown h, Element.rest_of_idle hidle]
  · rw [signalCommand_idle i level hidle, startSignal_ordered h]
  · rintro t k d hsup rfl
    exact signalCommand_repeated i level hsup
  · rw [signalCommand_cancels i level hsup hne, signalCommand_atRest]
    rfl
  · rw [signalCommand_supersedes i level hsup hne, signalCommand_atRest]
    rfl
  · rintro level e c t k d _ _ ht rfl rfl
    refine ⟨fun hsup hnew => ?_, fun hsup hnew => ?_,
      fun hsup hne => ⟨fun hproceed hlow hhigh => ?_, fun hnew => ?_, fun hnew => ?_⟩⟩
    · rw [signalChange_proven level hsup hnew, closeByChange, hnew]
      rfl
    · rw [signalChange_proven_overdue level hsup hnew, closeByChange, hnew]
      rfl
    · rw [signalChange_missed level hsup hne, signalMiss_proceed level ⟨hproceed, ht⟩ ⟨hlow, hhigh⟩, closeByChange_untimed level rfl]
    · rw [signalChange_missed level hsup hne, signalMiss_lamp level hnew, closeByChange_untimed level rfl]
    · rw [signalChange_missed level hsup hne, signalMiss_stop level hnew]
  · exact signalChange_clearing level hidle (c.clears_iff.2 ⟨hold, ⟨hlow, hhigh⟩, hfirst, hsilence⟩)
  · refine signalChange_unjudged level hidle (by omega) fun hclears => ?_
    obtain ⟨hold, hnew, hfirst, hsilence⟩ := c.clears_iff.1 hclears
    rcases h with h | h | ⟨-, h | h | h⟩
    · omega
    · omega
    · exact h hold
    · exact Bool.false_ne_true (hfirst.symm.trans h)
    · exact Bool.false_ne_true (hsilence.symm.trans h)

end Sys2Proof.Machine
end

