-- ==== Sys2Proof/Proofs/Deadlines.lean ====
section
/-! PROOFS. Sys2Proof/Proofs/Deadlines.lean: a supervision that meets its deadline (R91, R98). -/

namespace Sys2Proof.Machine

section Facts

variable (s : State) {i : Nat} {e : Element} {t : Nat} {k : Capture} {d : Nat}

/-- A deadline that has come is taken at once. -/
theorem exec_deadlineExpiry_due (hi : s.initialising = false) (he : s.element i = some e) (hdeadline : e.sup.deadline = some d)
    (hreached : d ≤ s.tb.instant) : exec (.deadlineExpiry i) s =
      .next (s.applySupervised i (expire i (s.elementLevel e .movement) s.tb.now e)) := by
  have hexec : exec (.deadlineExpiry i) s = s.event fun s =>
    if (s.await (s.deadlineOf i)).deadlineDue i then (s.await (s.deadlineOf i)).expireRecord i else s.await (s.deadlineOf i) := rfl
  have hof : s.deadlineOf i = some d := by rw [State.deadlineOf, he]; exact hdeadline
  have hdue : s.deadlineDue i = true := by rw [State.deadlineDue, hof]; exact decide_eq_true hreached
  rw [hexec, s.event_eq _ hi, hof, s.await_reached d hreached, if_pos hdue, State.expireRecord, he]

variable {outcome : MoveOutcome}

/-- A failed supervision is stored as OVERDUE, the fail count raised and its record offered (R91, R98, R106). -/
theorem State.applySupervised_failSupervision (h : e.stats.close outcome none = e.stats.failed) (level : Nat) :
    s.applySupervised i (failSupervision i level s.tb.now e outcome t k) =
      (s.setElement i { e with sup := .overdue t k, stats := { e.stats with fails := raise16 e.stats.fails } }).withRecord
        level (.movementOutcome i outcome t none none) := by
  rw [failSupervision, h]
  rfl

/-- A deadline that has come stores the failure that its state asks for. -/
theorem exec_deadlineExpiry_fails (hi : s.initialising = false) (he : s.element i = some e) (hdeadline : e.sup.deadline = some d)
    (hreached : d ≤ s.tb.instant) (hexpire : expire i (s.elementLevel e .movement) s.tb.now e =
      failSupervision i (s.elementLevel e .movement) s.tb.now e outcome t k)
    (hfails : e.stats.close outcome none = e.stats.failed) : exec (.deadlineExpiry i) s = .next ((s.setElement i { e with
      sup := .overdue t k, stats := { e.stats with fails := raise16 e.stats.fails } }).withRecord
        (s.elementLevel e .movement) (.movementOutcome i outcome t none none)) := by
  rw [exec_deadlineExpiry_due s hi he hdeadline hreached, hexpire, s.applySupervised_failSupervision hfails]

variable (i) (level : Nat) (now : Dated)

theorem expire_commanded (h : e.sup = .commanded t k d) :
    expire i level now e = failSupervision i level now e .failedNotStarted t k := by simp only [expire, h]

theorem expire_travelling (h : e.sup = .travelling t k d) :
    expire i level now e = failSupervision i level now e .failedNoDetection t k := by simp only [expire, h]

theorem expire_ordered (h : e.sup = .ordered t k d) :
    expire i level now e = failSupervision i level now e .failed t k := by simp only [expire, h]

end Facts

/-- Settles O33: the deadline is taken at once, and each of the three states fails with its own outcome. -/
theorem deadlineFailsTheSupervision : Obligations.DeadlineFailsTheSupervision := by
  intro s i e t k d hi he hreached
  refine ⟨fun hsup => ?_, fun hsup => ?_, fun hsup => ?_⟩
  · exact exec_deadlineExpiry_fails s hi he (by rw [hsup]; rfl) hreached (expire_commanded i _ _ hsup) rfl
  · exact exec_deadlineExpiry_fails s hi he (by rw [hsup]; rfl) hreached (expire_travelling i _ _ hsup) rfl
  · exact exec_deadlineExpiry_fails s hi he (by rw [hsup]; rfl) hreached (expire_ordered i _ _ hsup) rfl

end Sys2Proof.Machine
end

