-- ==== Sys2Proof/Proofs/RefCounts.lean ====
section
/-! PROOFS. Sys2Proof/Proofs/RefCounts.lean: what it is to keep the reference counts true, the updates of a record and of a bank that keep
them, and the checker, which names and counts alike (R107, R112, R116 to R122). -/

namespace Sys2Proof.Machine

/-! ## The counts of a state (R112) -/

/-- The reference count of a record, none being counted at an empty index. -/
def State.refsAt (s : State) (i : Nat) : Nat := ((s.element i).map Element.refs).getD 0

/-- How many times the entries of both banks name a record. -/
def State.named (s : State) (i : Nat) : Nat := s.bankA.naming i + s.bankB.naming i

/-- The part of the law of R112 that does not speak of RESET TABLES. -/
structure State.CountsLawful (s : State) : Prop where
  banks : ∀ b, (s.bank b).lawful
  counts : ∀ i, s.refsAt i = s.named i

/-- No bank holds an entry. -/
def State.Cleared (s : State) : Prop := ∀ b, (s.bank b).entries = []

theorem State.refsAt_present {s : State} {i : Nat} {e : Element} (h : s.element i = some e) : s.refsAt i = e.refs := by
  simp only [State.refsAt, h, Option.map_some, Option.getD_some]

theorem State.refsAt_absent {s : State} {i : Nat} (h : s.element i = none) : s.refsAt i = 0 := by
  simp only [State.refsAt, h, Option.map_none, Option.getD_none]

theorem State.refsAt_congr {s t : State} (h : t.elements = s.elements) : t.refsAt = s.refsAt := by
  funext i
  rw [State.refsAt, State.refsAt, State.element, State.element, h]

theorem State.named_eq (s : State) (b : BankId) (i : Nat) : s.named i = (s.bank b).naming i + (s.bank b.other).naming i := by
  cases b with
  | bankA => rfl
  | bankB => exact Nat.add_comm _ _

/-- The law of the counts speaks of the records and the banks only. -/
theorem State.CountsLawful.of_eq {s t : State} (h : s.CountsLawful) (hrefs : t.refsAt = s.refsAt) (hA : t.bankA = s.bankA)
    (hB : t.bankB = s.bankB) : t.CountsLawful := by
  obtain ⟨hbanks, hcounts⟩ := h
  have hbank (b : BankId) : t.bank b = s.bank b := by cases b <;> assumption
  refine ⟨fun b => ?_, fun i => ?_⟩
  · rw [hbank]
    exact hbanks b
  · rw [hrefs, hcounts, State.named, State.named, hA, hB]

theorem State.refsLawful_iff (s : State) : s.refsLawful ↔
    s.CountsLawful ∧ ∀ g, s.service.resetting = some g → g.closed.isSome = true → s.Cleared := by
  constructor
  · rintro ⟨hA, hB, hcleared, hcounts⟩
    refine ⟨⟨fun b => by cases b <;> assumption, fun i => ?_⟩, fun g hg hclosed b => ?_⟩
    · have hcount := hcounts i
      cases h : s.element i with
      | none =>
        simp only [h] at hcount
        rw [State.refsAt_absent h, State.named, hcount]
      | some e =>
        simp only [h] at hcount
        rw [State.refsAt_present h, State.named, hcount]
    · obtain ⟨hnoneA, hnoneB⟩ := hcleared g hg hclosed
      cases b <;> assumption
  · rintro ⟨⟨hbanks, hcounts⟩, hcleared⟩
    refine ⟨hbanks .bankA, hbanks .bankB, fun g hg hclosed => ⟨hcleared g hg hclosed .bankA, hcleared g hg hclosed .bankB⟩,
      fun i => ?_⟩
    have hcount := hcounts i
    split
    · rename_i e h
      exact (State.refsAt_present h).symm.trans hcount
    · rename_i h
      exact hcount.symm.trans (State.refsAt_absent h)

/-! ## Keeping the counts -/

/-- What every request keeps while it is carried out. -/
structure State.KeepsCounts (s t : State) : Prop where
  counts : s.CountsLawful → t.CountsLawful
  resetting : t.service.resetting = s.service.resetting

/-- What every event keeps: it loads no entry either (R111). -/
structure State.KeepsRefs (s t : State) : Prop extends s.KeepsCounts t where
  cleared : s.Cleared → t.Cleared

theorem State.KeepsCounts.trans {s t u : State} (h : s.KeepsCounts t) (k : t.KeepsCounts u) : s.KeepsCounts u :=
  ⟨k.counts ∘ h.counts, k.resetting.trans h.resetting⟩

theorem State.KeepsRefs.trans {s t u : State} (h : s.KeepsRefs t) (k : t.KeepsRefs u) : s.KeepsRefs u :=
  ⟨h.toKeepsCounts.trans k.toKeepsCounts, k.cleared ∘ h.cleared⟩

/-- The parts of the state in whose terms the law of R112 is stated. -/
def State.refsPart (s : State) : (Nat → Nat) × Bank × Bank × Option Resetting :=
  (s.refsAt, s.bankA, s.bankB, s.service.resetting)

theorem State.KeepsRefs.of_refsPart {s t : State} (h : t.refsPart = s.refsPart) : s.KeepsRefs t := by
  simp only [State.refsPart, Prod.mk.injEq] at h
  obtain ⟨hrefs, hA, hB, hresetting⟩ := h
  have hbank (b : BankId) : t.bank b = s.bank b := by cases b <;> assumption
  refine ⟨⟨fun hs => hs.of_eq hrefs hA hB, hresetting⟩, fun hs b => ?_⟩
  rw [hbank]
  exact hs b

theorem State.KeepsRefs.refl (s : State) : s.KeepsRefs s := .of_refsPart rfl

theorem State.KeepsRefs.foldl {α : Type} {f : State → α → State} (h : ∀ (s : State) a, s.KeepsRefs (f s a)) (l : List α)
    (s : State) : s.KeepsRefs (l.foldl f s) := by
  induction l generalizing s with
  | nil => exact .refl s
  | cons a l ih => exact (h s a).trans (ih _)

/-- The law holds after a step that keeps the counts, unless it loads an entry between two steps of RESET TABLES. -/
theorem State.KeepsRefs.refsLawful {s t : State} (h : s.KeepsRefs t) (hs : s.refsLawful) : t.refsLawful := by
  rw [State.refsLawful_iff] at hs ⊢
  obtain ⟨hcounts, hcleared⟩ := hs
  exact ⟨h.counts hcounts, fun g hg hclosed => h.cleared (hcleared g (h.resetting ▸ hg) hclosed)⟩

/-! ## Records and journal -/

variable (s : State)

theorem State.refsAt_setElement (i j : Nat) (e : Element) : (s.setElement i e).refsAt j = if j = i then e.refs else s.refsAt j := by
  by_cases h : j = i
  · subst h
    rw [if_pos rfl, State.refsAt_present (s.element_setElement_same j e)]
  · rw [if_neg h, State.refsAt, State.element_setElement_other s i j e h]
    rfl

theorem State.refsAt_removeElement (i j : Nat) : (s.removeElement i).refsAt j = if j = i then 0 else s.refsAt j := by
  by_cases h : j = i
  · subst h
    rw [if_pos rfl, State.refsAt_absent (s.element_removeElement_same j)]
  · rw [if_neg h, State.refsAt, State.element_removeElement_other s i j h]
    rfl

/-- A record with the count that the index has may be put in place. -/
theorem State.keepsRefs_setElement {i : Nat} {e : Element} (h : e.refs = s.refsAt i) : s.KeepsRefs (s.setElement i e) := by
  refine .of_refsPart ?_
  have hrefs : (s.setElement i e).refsAt = s.refsAt := by
    funext j
    rw [State.refsAt_setElement, h]
    split
    · rename_i hj
      rw [hj]
    · rfl
  rw [State.refsPart, hrefs]
  rfl

theorem State.keepsRefs_rewrite {i : Nat} {e e' : Element} (h : s.element i = some e) (he : e'.refs = e.refs) :
    s.KeepsRefs (s.setElement i e') :=
  s.keepsRefs_setElement (he.trans (State.refsAt_present h).symm)

/-- A record that no entry names may be removed (R43). -/
theorem State.keepsRefs_removeElement {i : Nat} (h : s.refsAt i = 0) : s.KeepsRefs (s.removeElement i) := by
  refine .of_refsPart ?_
  have hrefs : (s.removeElement i).refsAt = s.refsAt := by
    funext j
    rw [State.refsAt_removeElement]
    split
    · rename_i hj
      rw [hj, h]
    · rfl
  rw [State.refsPart, hrefs]
  rfl

/-- Records rewritten one by one, none of their counts among what is written. -/
theorem State.refsAt_map {s t : State} {f : Nat → Element → Element} (hf : ∀ i e, (f i e).refs = e.refs)
    (h : ∀ i, t.element i = (s.element i).map (f i)) : t.refsAt = s.refsAt := by
  funext i
  rw [State.refsAt, State.refsAt, h, Option.map_map]
  exact congrArg (fun g => Option.getD (Option.map g _) 0) (funext fun e => hf i e)

theorem State.keepsRefs_offer (o : Offer) : s.KeepsRefs (s.offer o) := .of_refsPart rfl

theorem State.keepsRefs_report (b : Body) : s.KeepsRefs (s.report b) := .of_refsPart rfl

theorem State.keepsRefs_setOpenList (l : List EntryRef) : s.KeepsRefs (s.setOpenList l) := .of_refsPart rfl

theorem State.keepsRefs_applySupervised {i : Nat} {e : Element} {r : Supervised} (h : s.element i = some e)
    (hr : r.element.refs = e.refs) : s.KeepsRefs (s.applySupervised i r) := by
  rw [State.applySupervised_eq]
  exact (s.keepsRefs_rewrite h hr).trans (.of_refsPart rfl)

/-! ## Banks -/

/-- A bank that stands for another with the same names in its entries, and is EMPTY only where the other was. -/
structure Bank.Names (x y : Bank) : Prop where
  entries : y.entries.map Entry.names = x.entries.map Entry.names
  empty : y.state = .empty → x.state = .empty

theorem Bank.naming_eq (x : Bank) (i : Nat) : x.naming i = ((x.entries.map Entry.names).map fun l => l.count i).sum := by
  rw [Bank.naming, List.map_map]
  rfl

theorem Bank.Names.naming {x y : Bank} (h : x.Names y) (i : Nat) : y.naming i = x.naming i := by
  rw [Bank.naming_eq, Bank.naming_eq, h.entries]

theorem Bank.Names.nil {x y : Bank} (h : x.Names y) (hx : x.entries = []) : y.entries = [] := by
  have hentries := h.entries
  rw [hx] at hentries
  exact List.map_eq_nil_iff.1 hentries

theorem Bank.Names.lawful {x y : Bank} (h : x.Names y) (hx : x.lawful) : y.lawful := by
  obtain ⟨hlength, hempty, hnodup⟩ := hx
  have hentries := h.entries
  refine ⟨?_, fun hy => h.nil (hempty (h.empty hy)), fun e he => ?_⟩
  · have := congrArg List.length hentries
    rw [List.length_map, List.length_map] at this
    omega
  · have hmem : e.names ∈ x.entries.map Entry.names := hentries ▸ List.mem_map_of_mem he
    obtain ⟨e', he', hnames⟩ := List.mem_map.1 hmem
    rw [← hnames]
    exact hnodup e' he'

theorem State.refsAt_setBank (b : BankId) (x : Bank) : (s.setBank b x).refsAt = s.refsAt := by
  funext i
  rw [State.refsAt, State.refsAt, State.setBank_element]

theorem State.keepsRefs_setBank {b : BankId} {x : Bank} (h : (s.bank b).Names x) : s.KeepsRefs (s.setBank b x) := by
  have hnames (c : BankId) : (s.bank c).Names ((s.setBank b x).bank c) := by
    rcases b.eq_or_other c with rfl | rfl
    · rw [State.bank_setBank_same]
      exact h
    · rw [State.bank_setBank_other]
      exact ⟨rfl, id⟩
  refine ⟨⟨fun ⟨hbanks, hcounts⟩ => ⟨fun c => (hnames c).lawful (hbanks c), fun i => ?_⟩, by rw [State.setBank_service]⟩,
    fun hs c => (hnames c).nil (hs c)⟩
  rw [State.refsAt_setBank, hcounts, State.named_eq _ b, State.named_eq _ b, (hnames b).naming, (hnames b.other).naming]

theorem Bank.afterReset_lawful : Bank.afterReset.lawful := ⟨Nat.zero_le _, fun _ => rfl, nofun⟩

theorem State.refsAt_emptyBank (b : BankId) (i : Nat) : (s.emptyBank b).refsAt i = s.refsAt i - (s.bank b).naming i := by
  rw [State.refsAt, State.element_emptyBank, State.refsAt]
  cases s.element i with
  | none => exact (Nat.zero_sub _).symm
  | some e => rfl

/-- An emptied bank names nothing, and its names have left the counts (R112). -/
theorem State.keepsRefs_emptyBank (b : BankId) : s.KeepsRefs (s.emptyBank b) := by
  have hself : (s.emptyBank b).bank b = Bank.afterReset := by rw [State.bank_emptyBank, if_pos rfl]
  have hother : (s.emptyBank b).bank b.other = s.bank b.other := by rw [State.bank_emptyBank, if_neg b.other_ne]
  refine ⟨⟨fun ⟨hbanks, hcounts⟩ => ⟨fun c => ?_, fun i => ?_⟩, ?_⟩, fun hs c => ?_⟩
  · rcases b.eq_or_other c with rfl | rfl
    · rw [hself]
      exact Bank.afterReset_lawful
    · rw [hother]
      exact hbanks _
  · rw [State.refsAt_emptyBank, hcounts, State.named_eq _ b, State.named_eq _ b, hself, hother, Nat.add_sub_cancel_left]
    exact (Nat.zero_add _).symm
  · rw [(s.tablesOnly_emptyBank b).eq]
  · rcases b.eq_or_other c with rfl | rfl
    · rw [hself]
      rfl
    · rw [hother]
      exact hs _

/-! ## Entries -/

/-- An entry rewritten in place with the names that it had. -/
theorem Bank.names_set {x : Bank} {i : Nat} {e e' : Entry} (h : x.entries[i]? = some e) (hnames : e'.names = e.names) :
    x.Names { x with entries := x.entries.set i e' } := by
  refine ⟨?_, id⟩
  obtain ⟨hlt, hget⟩ := List.getElem?_eq_some_iff.1 h
  rw [List.map_set, hnames, ← hget, ← List.getElem_map Entry.names (h := by simpa using hlt), List.set_getElem_self]

theorem State.keepsRefs_setEntry {r : EntryRef} {e e' : Entry} (h : s.entry r = some e) (hnames : e'.names = e.names) :
    s.KeepsRefs (s.setEntry r e') :=
  s.keepsRefs_setBank (Bank.names_set h hnames)

theorem State.keepsRefs_settleBank (b : BankId) : s.KeepsRefs (s.settleBank b) := by
  rcases s.settleBank_cases b with h | ⟨-, -, h⟩
  · rw [h]
    exact .refl s
  · rw [h]
    exact (s.keepsRefs_emptyBank b).trans (State.keepsRefs_report _ _)

theorem State.keepsRefs_entryClosed {r : EntryRef} {e e' : Entry} (h : s.entry r = some e) (hnames : e'.names = e.names) :
    s.KeepsRefs (s.entryClosed r e') :=
  (s.keepsRefs_setEntry h hnames).trans (State.keepsRefs_setOpenList _ _)

theorem State.keepsRefs_closeEntry (r : EntryRef) (status : EntryStatus) (dated : Dated) (ageLimit clamped : Bool)
    (result : Option MatchResult) : s.KeepsRefs (s.closeEntry r status dated ageLimit clamped result) := by
  cases h : s.entry r with
  | none =>
    unfold State.closeEntry
    rw [h]
    exact .refl s
  | some e =>
    rw [s.closeEntry_eq h]
    have hclosed := s.keepsRefs_entryClosed (e' := { e with status := status, closing := some dated, result := result }) h rfl
    exact (hclosed.trans (State.keepsRefs_offer _ _)).trans (State.keepsRefs_settleBank _ _)

theorem State.keepsRefs_closeOwn (r : EntryRef) (status : EntryStatus) : s.KeepsRefs (s.closeOwn r status) :=
  s.keepsRefs_closeEntry r status _ _ _ _

theorem State.keepsRefs_openEntry {r : EntryRef} {e : Entry} (h : s.entry r = some e) : s.KeepsRefs (s.openEntry r e) := by
  rw [State.openEntry_eq]
  split
  · exact (s.keepsRefs_setEntry (e' := { e with status := .opened }) h rfl).trans (State.keepsRefs_setOpenList _ _)
  · exact s.keepsRefs_closeOwn r .openListFull

/-! ## The walk (R116, R119 to R122) -/

theorem State.keepsRefs_advance (b : BankId) (passed : EntryStatus) (n : Nat) (w : Walked) :
    w.state.KeepsRefs (State.advance b passed n w).state := by
  induction n generalizing w with
  | zero => exact .refl _
  | succ n ih =>
    unfold State.advance
    dsimp only
    split
    · exact .refl _
    · rename_i e he
      have hpass : w.state.KeepsRefs (w.state.setBank b { w.state.bank b with nextToOpen := (w.state.bank b).nextToOpen + 1 }) :=
        State.keepsRefs_setBank _ ⟨rfl, id⟩
      have hentry : (w.state.setBank b { w.state.bank b with nextToOpen := (w.state.bank b).nextToOpen + 1 }).entry
          ⟨b, (w.state.bank b).nextToOpen⟩ = some e := by
        rw [State.entry, State.bank_setBank_same]
        exact he
      split
      · exact .refl _
      · split
        · exact hpass.trans (ih ⟨_, _, _⟩)
        · split
          · exact (hpass.trans (State.keepsRefs_closeOwn _ _ passed)).trans (ih ⟨_, _, _⟩)
          · exact (hpass.trans (State.keepsRefs_openEntry _ hentry)).trans (ih ⟨_, _, _⟩)

theorem State.keepsRefs_walkActive (b : BankId) : s.KeepsRefs (s.walkActive b) := by
  unfold State.walkActive
  split
  · exact State.keepsRefs_advance b _ _ ⟨s, 0, 0⟩
  · exact .refl s

theorem State.keepsRefs_closePassed (n : Nat) : s.KeepsRefs (State.closePassed n s) := by
  induction n generalizing s with
  | zero => exact .refl s
  | succ n ih =>
    unfold State.closePassed
    split
    · exact .refl s
    · split
      · exact .refl s
      · split
        · exact (s.keepsRefs_closeOwn _ .missed).trans (ih _)
        · exact .refl s

theorem Bank.names_retired (x : Bank) (now : Dated) : x.Names (x.retired now) := by
  refine ⟨?_, fun h => BankState.noConfusion h⟩
  rw [Bank.retired, List.map_map]
  refine List.map_congr_left fun e _ => ?_
  rw [Function.comp_apply]
  split <;> rfl

theorem State.keepsRefs_retire (b : BankId) : s.KeepsRefs (s.retire b) := by
  rw [State.retire_eq]
  exact ((s.keepsRefs_setBank (Bank.names_retired _ _)).trans (State.keepsRefs_report _ _)).trans (State.keepsRefs_settleBank _ b)

/-- What becomes of the other bank ahead of an activation (R116). -/
def State.retireOther (s : State) (b : BankId) : State := if (s.bank b.other).state = .active then s.retire b.other else s

/-- A bank as it becomes ACTIVE, behind the other one in the order of activation (R107, R116). -/
def State.activated (s : State) (b : BankId) : Bank :=
  { s.bank b with state := .active, order := some ((s.bank b.other).order.getD 0 + 1) }

theorem State.activate_eq (b : BankId) : s.activate b =
    (let w := ((s.retireOther b).setBank b ((s.retireOther b).activated b)).walkBank b .lateActivation
    w.state.report (.bank b .activated w.opened w.closed)) := rfl

theorem State.keepsRefs_retireOther (b : BankId) : s.KeepsRefs (s.retireOther b) := by
  unfold State.retireOther
  split
  · exact s.keepsRefs_retire b.other
  · exact .refl s

theorem State.keepsRefs_activate (b : BankId) : s.KeepsRefs (s.activate b) := by
  have hset (t : State) : t.KeepsRefs (t.setBank b (t.activated b)) :=
    t.keepsRefs_setBank ⟨rfl, fun h => absurd h (by simp [State.activated])⟩
  rw [State.activate_eq]
  exact (((s.keepsRefs_retireOther b).trans (hset _)).trans (State.keepsRefs_advance b .lateActivation _ ⟨_, 0, 0⟩)).trans
    (State.keepsRefs_report _ _)

theorem State.keepsRefs_judgeActivation (b : BankId) : s.KeepsRefs (s.judgeActivation b) := by
  unfold State.judgeActivation
  split
  · exact s.keepsRefs_activate b
  · exact .refl s

theorem State.keepsRefs_judgeEnd (b : BankId) : s.KeepsRefs (s.judgeEnd b) := by
  unfold State.judgeEnd
  split
  · exact s.keepsRefs_retire b
  · exact .refl s

theorem State.keepsRefs_walk : s.KeepsRefs s.walk := by
  have hactivate := State.KeepsRefs.foldl State.keepsRefs_judgeActivation bankIds s
  have hwalk := State.KeepsRefs.foldl State.keepsRefs_walkActive bankIds (bankIds.foldl State.judgeActivation s)
  have hclose := State.keepsRefs_closePassed (bankIds.foldl State.walkActive (bankIds.foldl State.judgeActivation s))
    (bankIds.foldl State.walkActive (bankIds.foldl State.judgeActivation s)).openList.length
  exact ((hactivate.trans hwalk).trans hclose).trans (State.KeepsRefs.foldl State.keepsRefs_judgeEnd bankIds _)

theorem State.keepsRefs_clearing (c : Change) : s.KeepsRefs (s.clearing c) := by
  unfold State.clearing
  split
  · split
    · split
      · exact s.keepsRefs_closeEntry _ _ _ _ _ _
      · exact .refl s
    · exact s.keepsRefs_offer _
  · exact .refl s

end Sys2Proof.Machine
end

