-- ==== Sys2Proof/Proofs/RefCountsOfEvents.lean ====
section
/-! PROOFS. Sys2Proof/Proofs/RefCountsOfEvents.lean: second boundaries, the passage of time, pulses, the element tracker and the reception
of frames keep the reference counts true: none of them loads an entry or writes a count (R112). -/

namespace Sys2Proof.Machine

variable (s : State)

/-! ## Blocks that hold neither banks nor records -/

theorem State.keepsRefs_setTb (tb : Timebase) : s.KeepsRefs (s.setTb tb) := .of_refsPart rfl

theorem State.keepsRefs_setPort (p : PortId) (x : Port) : s.KeepsRefs (s.setPort p x) := .of_refsPart rfl

theorem State.keepsRefs_setCondition (p : PortId) (d : Direction) (c : LinkCondition) (raised : Bool) :
    s.KeepsRefs (s.setCondition p d c raised) := .of_refsPart rfl

theorem State.LinesOnly.keepsRefs {s t : State} (h : s.LinesOnly t) : s.KeepsRefs t := by
  rw [h.eq]
  exact .of_refsPart rfl

theorem State.PortsOnly.keepsRefs {s t : State} (h : s.PortsOnly t) : s.KeepsRefs t := by
  rw [h.eq]
  exact .of_refsPart rfl

theorem State.keepsRefs_applyLine (l : LineId) (r : LineStep) : s.KeepsRefs (s.applyLine l r) := by
  obtain ⟨j, hj⟩ := (s.setLine l r.line).reportAll_journal (r.notes.map fun n => .clockLine l n.event n.fault n.position)
  rw [State.applyLine, hj]
  exact .of_refsPart rfl

/-! ## Boundaries, steps and the passage of time -/

theorem State.keepsRefs_carry : s.KeepsRefs s.carry := by
  rw [s.carry_only]
  exact .of_refsPart rfl

theorem State.keepsRefs_latchAt (sec : Nat) : s.KeepsRefs (s.latchAt sec) := by
  rw [s.latchAt_only]
  exact .of_refsPart rfl

theorem State.keepsRefs_handToLines (o : BoundaryOrder) : s.KeepsRefs (s.handToLines o) := by
  obtain ⟨offset, scheduled, h⟩ := s.handToLines_only o
  exact (s.keepsRefs_setTb _).trans h.keepsRefs

theorem State.keepsRefs_changeOffset (new : Int) : s.KeepsRefs (s.changeOffset new) :=
  (s.keepsRefs_setTb _).trans (s.changeOffset_linesOnly new).1.keepsRefs

theorem State.keepsRefs_judgeOffset : s.KeepsRefs s.judgeOffset := by
  cases h : s.tb.offsetDue with
  | none =>
    unfold State.judgeOffset
    rw [h]
    exact .refl s
  | some new => exact (s.keepsRefs_setTb _).trans (s.judgeOffset_some h).1.keepsRefs

theorem State.keepsRefs_boundary (o : BoundaryOrder) : s.KeepsRefs (s.boundary o) :=
  (((s.keepsRefs_carry.trans (State.endSeconds_only _).keepsRefs).trans (State.keepsRefs_latchAt _ _)).trans
    (State.keepsRefs_walk _)).trans (State.keepsRefs_handToLines _ o)

theorem State.keepsRefs_boundaryOrder : s.KeepsRefs s.boundaryOrder.2 := by
  unfold State.boundaryOrder
  split <;> exact .of_refsPart rfl

theorem State.keepsRefs_stepEvent : s.KeepsRefs s.stepEvent :=
  ((s.keepsRefs_boundaryOrder.trans (State.endSeconds_only _).keepsRefs).trans (State.keepsRefs_walk _)).trans
    (State.keepsRefs_handToLines _ _)

theorem State.keepsRefs_toBoundary (o : BoundaryOrder) : s.KeepsRefs (s.toBoundary o) := by
  unfold State.toBoundary
  split
  · exact s.keepsRefs_boundary o
  · exact (s.keepsRefs_setTb _).trans (State.keepsRefs_boundary _ o)

theorem State.keepsRefs_passTo (n t : Nat) : s.KeepsRefs (State.passTo n t s) := by
  induction n generalizing s with
  | zero => exact .refl s
  | succ n ih =>
    unfold State.passTo
    split
    · exact .refl s
    · split
      · exact (s.keepsRefs_boundaryOrder.trans (State.keepsRefs_boundary _ _)).trans (ih _)
      · exact (s.keepsRefs_setTb _).trans (ih _)

theorem State.keepsRefs_await (t : Option Nat) : s.KeepsRefs (s.await t) := by
  cases t with
  | none => exact .refl s
  | some t => exact s.keepsRefs_passTo _ t

/-! ## Pulses, misses and the holdover limit -/

theorem State.keepsRefs_moveTime (l : Label) (event : TimebaseEvent) : s.KeepsRefs (s.moveTime l event) := by
  refine State.KeepsRefs.trans (.of_refsPart ?_) (State.keepsRefs_stepEvent _)
  rw [State.report]
  unfold State.leapAfterMove
  split
  · rfl
  · split
    · rfl
    · split <;> rfl

theorem State.keepsRefs_armLeap (label : Option Label) : s.KeepsRefs (s.armLeap label) := by
  refine .of_refsPart ?_
  unfold State.armLeap
  cases label with
  | none => rfl
  | some l =>
    dsimp only
    cases l.announcement with
    | none => rfl
    | insert => dsimp only; split <;> rfl
    | delete => dsimp only; split <;> rfl

theorem State.keepsRefs_pulseInFree (label : Option Label) : s.KeepsRefs (s.pulseInFree label) := by
  cases label with
  | none => exact .refl s
  | some l => exact (s.keepsRefs_setTb _).trans (State.keepsRefs_moveTime _ l .set)

theorem State.keepsRefs_pulseTests (tb : Timebase) (e : Int) : s.KeepsRefs (s.pulseTests tb e) := by
  refine .of_refsPart ?_
  unfold State.pulseTests
  cases tb.loop with
  | free => rfl
  | acquiring => dsimp only; unfold State.judgeLock; split <;> rfl
  | locked => dsimp only; unfold State.judgeLockLost; split <;> rfl
  | holdover =>
    dsimp only
    unfold State.judgeReturn
    split
    · split <;> rfl
    · rfl

theorem State.keepsRefs_pulseInLoop (label : Option Label) (e : Int) : s.KeepsRefs (s.pulseInLoop label e) := by
  unfold State.pulseInLoop
  cases label with
  | none => exact s.keepsRefs_pulseTests _ e
  | some l =>
    dsimp only
    split
    · exact (s.keepsRefs_setTb _).trans (State.keepsRefs_moveTime _ l .step)
    · exact s.keepsRefs_pulseTests _ e

theorem State.keepsRefs_pulse : s.KeepsRefs s.pulse := by
  unfold State.pulse
  dsimp only
  split
  · have harm := (s.keepsRefs_setTb s.tb.takePulse).trans (State.keepsRefs_armLeap _ s.tb.label)
    split
    · exact harm.trans (State.keepsRefs_pulseInFree _ _)
    · exact harm.trans (State.keepsRefs_pulseInLoop _ _ _)
  · exact s.keepsRefs_setTb _

theorem State.keepsRefs_missNote : s.KeepsRefs s.missNote := by
  refine .of_refsPart ?_
  unfold State.missNote
  dsimp only
  split
  · rfl
  · split
    · rfl
    · rfl
    · rfl
    · split <;> rfl

theorem State.keepsRefs_judgeLimit : s.KeepsRefs s.judgeLimit := by
  refine .of_refsPart ?_
  unfold State.judgeLimit
  split
  · split
    · rfl
    · split <;> rfl
  · rfl

/-! ## The movement supervisor (R85, R106) -/

/-- The supervisor writes no reference count. -/
theorem Element.moves.refs {e e' : Element} (h : e'.moves e) : e'.refs = e.refs := by
  have heq : e' = { e with sup := e'.sup, stats := e'.stats } := h
  rw [heq]

theorem startPoint_moves (e : Element) (code : Nat) (c : Capture) : (startPoint e code c).moves e := by
  unfold startPoint
  dsimp only
  split
  · rfl
  · split
    · rfl
    · split <;> rfl

theorem startSignal_moves (e : Element) (aspect : Nat) (c : Capture) : (startSignal e aspect c).moves e := by
  unfold startSignal
  split <;> rfl

theorem pointCommand_moves (i level : Nat) (e : Element) (code : Nat) (c : Capture) :
    (pointCommand i level e code c).element.moves e := by
  unfold pointCommand
  cases e.sup with
  | idle => exact startPoint_moves e code c
  | uncommanded held => exact startPoint_moves e code c
  | ordered t command d => rfl
  | _ =>
    dsimp only
    split
    · rfl
    · exact startPoint_moves e code c

theorem signalCommand_moves (i level : Nat) (e : Element) (aspect : Nat) (c : Capture) :
    (signalCommand i level e aspect c).element.moves e := by
  unfold signalCommand
  cases e.sup with
  | idle => exact startSignal_moves e aspect c
  | commanded t command d => rfl
  | travelling t command d => rfl
  | uncommanded held => rfl
  | _ =>
    dsimp only
    split
    · rfl
    · exact startSignal_moves e aspect c

theorem expire_moves (i level : Nat) (now : Dated) (e : Element) : (expire i level now e).element.moves e := by
  unfold expire
  cases e.sup <;> rfl

theorem endSupervision_moves (i level : Nat) (now : Dated) (e : Element) (outcome : MoveOutcome) :
    (endSupervision i level now e outcome).element.moves e := by
  unfold endSupervision
  cases e.sup.target <;> rfl

/-! ## The element tracker -/

theorem State.keepsRefs_supervise {i : Nat} {e : Element} (h : s.element i = some e) {r : Supervised} (hr : r.element.moves e) :
    s.KeepsRefs (s.applySupervised i r) :=
  s.keepsRefs_applySupervised h hr.refs

theorem State.keepsRefs_superviseChange {e : Element} {c : Change} (h : s.element c.element = some e) :
    s.KeepsRefs (s.superviseChange e c) := by
  unfold State.superviseChange
  cases e.loaded.kind with
  | point => exact s.keepsRefs_supervise h (pointChange_moves _ e c)
  | signal => exact s.keepsRefs_supervise h (signalChange_moves _ e c)
  | other => exact .refl s

theorem State.keepsRefs_storeChange {i : Nat} {e e' : Element} (h : s.element i = some e) (hrefs : e'.refs = e.refs) (c : Change)
    (undef : Bool) : s.KeepsRefs (s.storeChange i e' c undef) := by
  have hset := s.keepsRefs_rewrite h hrefs
  unfold State.storeChange
  split
  · exact hset.trans (State.keepsRefs_offer _ _)
  · exact hset

theorem State.keepsRefs_accept (p : PortId) {i : Nat} {e e' : Element} (h : s.element i = some e) (hrefs : e'.refs = e.refs)
    (k : Candidate) : s.KeepsRefs (s.accept p i e' k) := by
  rw [State.accept_eq]
  dsimp only
  have hsup := (s.keepsRefs_storeChange (e' := s.acceptedRecord p i e' k) h hrefs (s.acceptedChange p i e' k) k.undefinedCode).trans
    (State.keepsRefs_superviseChange _ (c := s.acceptedChange p i e' k) (State.element_storeChange _ _ _ _ _))
  split
  · exact hsup.trans (State.keepsRefs_clearing _ _)
  · exact hsup

theorem State.keepsRefs_takeReport (p : PortId) {i : Nat} {e : Element} (h : s.element i = some e) (r : Report) :
    s.KeepsRefs (s.takeReport p i e r) := by
  unfold State.takeReport
  dsimp only
  split
  · exact s.keepsRefs_rewrite h rfl
  · split
    · refine s.keepsRefs_accept p h ?_ _
      rfl
    · exact s.keepsRefs_rewrite h rfl

theorem State.keepsRefs_storeCommand {i : Nat} {e : Element} (h : s.element i = some e) (code : Nat) (c : Capture) :
    s.KeepsRefs (s.storeCommand i e code c) := by
  have hset := s.keepsRefs_rewrite h (e' := e.commanded code) rfl
  unfold State.storeCommand
  split
  · exact hset.trans (State.keepsRefs_offer _ _)
  · exact hset

theorem State.keepsRefs_takeCommand {i : Nat} {e : Element} (h : s.element i = some e) (code : Nat) (c : Capture) :
    s.KeepsRefs (s.takeCommand i e code c) := by
  have hstore := s.keepsRefs_storeCommand h code c
  have hstored := s.element_storeCommand i e code c
  rw [State.takeCommand_eq]
  dsimp only
  split
  · cases e.loaded.kind with
    | point => exact hstore.trans (State.keepsRefs_supervise _ hstored (pointCommand_moves _ _ _ _ _))
    | signal => exact hstore.trans (State.keepsRefs_supervise _ hstored (signalCommand_moves _ _ _ _ _))
    | other => exact hstore
  · exact hstore

theorem State.keepsRefs_trackReport (p : PortId) (a : Nat) (r : Report) : s.KeepsRefs (s.trackReport p a r) := by
  unfold State.trackReport
  split
  · rename_i h
    exact s.keepsRefs_takeReport p (s.reach_element h) r
  · exact s.keepsRefs_setPort p _

theorem State.keepsRefs_trackCommand (p : PortId) (a code : Nat) (c : Capture) : s.KeepsRefs (s.trackCommand p a code c) := by
  unfold State.trackCommand
  split
  · rename_i h
    exact s.keepsRefs_takeCommand (s.reach_element h) code c
  · exact s.keepsRefs_setPort p _

theorem State.keepsRefs_interpret (p : PortId) (d : Direction) (octets : List Byte) (c : Capture) :
    s.KeepsRefs (s.interpret p d octets c) := by
  unfold State.interpret
  dsimp only
  split
  · exact s.keepsRefs_trackCommand p _ _ c
  · exact s.keepsRefs_setPort p _
  · exact s.keepsRefs_setPort p _
  · exact s.keepsRefs_trackReport p _ _
  · exact s.keepsRefs_setPort p _
  · exact s.keepsRefs_trackReport p _ _
  · exact .refl s

theorem State.keepsRefs_markStale (i : Nat) : s.KeepsRefs (s.markStale i) := by
  unfold State.markStale
  split
  · exact .refl s
  · rename_i e he
    refine s.keepsRefs_applySupervised he ?_
    exact (endSupervision_moves i (s.elementLevel e .movement) s.tb.now e .interrupted).refs

theorem State.keepsRefs_raiseSilent (p : PortId) (d : Direction) : s.KeepsRefs (s.raiseSilent p d) := by
  unfold State.raiseSilent
  cases d with
  | down => exact s.keepsRefs_setCondition p .down .silent true
  | up => exact (s.keepsRefs_setCondition p .up .silent true).trans (.foldl State.keepsRefs_markStale _ _)

theorem State.keepsRefs_settleLife (p : PortId) (d : Direction) : s.KeepsRefs (s.settleLife p d) := by
  unfold State.settleLife
  split
  · exact s.keepsRefs_raiseSilent p d
  · exact .refl s

theorem State.keepsRefs_expireRecord (i : Nat) : s.KeepsRefs (s.expireRecord i) := by
  unfold State.expireRecord
  split
  · exact .refl s
  · rename_i e he
    exact s.keepsRefs_supervise he (expire_moves _ _ _ e)

/-! ## The reception of frames -/

theorem State.keepsRefs_judgeClass (p : PortId) (d : Direction) (k : FrameClass) : s.KeepsRefs (s.judgeClass p d k) := by
  cases k with
  | valid =>
    show s.KeepsRefs (s.restartLife p d)
    rw [State.restartLife_eq]
    exact .of_refsPart rfl
  | checkFailure =>
    show s.KeepsRefs (s.countCheckFailure p d)
    rw [State.countCheckFailure_eq]
    exact .of_refsPart rfl
  | _ => exact .refl s

theorem State.keepsRefs_takeRequest (p : PortId) (octets : List Byte) : s.KeepsRefs (s.takeRequest p octets) := by
  refine .of_refsPart ?_
  unfold State.takeRequest
  split
  · rw [State.refsPart, Service.take_resetting]
    rfl
  · rfl

theorem State.keepsRefs_judgeRemoval (p : PortId) (d : Direction) (k : FrameClass) (o : Opening) :
    s.KeepsRefs (s.judgeRemoval p d k o) := by
  unfold State.judgeRemoval
  dsimp only
  split
  · split
    · exact s.keepsRefs_takeRequest p _
    · exact s.keepsRefs_setPort p _
  · split
    · exact s.keepsRefs_setPort p _
    · exact .refl s

theorem State.keepsRefs_delimit (p : PortId) (d : Direction) (aborted : Bool) (o : Opening) :
    s.KeepsRefs (s.delimit p d aborted o) := by
  rw [State.delimit_eq]
  dsimp only
  have hall := ((s.keepsRefs_setPort p _).trans (State.keepsRefs_judgeClass (s.endFrame p d aborted o) p d
    (classify aborted o.content))).trans (State.keepsRefs_judgeRemoval _ p d (classify aborted o.content) o)
  split
  · exact hall.trans (State.keepsRefs_interpret _ p d _ _)
  · exact hall

theorem State.keepsRefs_takeEnd (p : PortId) (d : Direction) (aborted : Bool) (rest : List Bool) :
    s.KeepsRefs (s.takeEnd p d aborted rest) := by
  unfold State.takeEnd State.closeFrame
  split
  · exact (s.keepsRefs_setPort p _).trans (State.keepsRefs_setPort _ p _)
  · split
    · exact s.keepsRefs_setPort p _
    · exact ((s.keepsRefs_setPort p _).trans (State.keepsRefs_setPort _ p _)).trans
        (State.keepsRefs_delimit ((s.beginFrame p _).frameContent p d _ rest) p d aborted _)

theorem State.keepsRefs_receive (p : PortId) (d : Direction) (part : FramePart) : s.KeepsRefs (s.receive p d part) := by
  cases part with
  | idle marks n =>
    show s.KeepsRefs (s.takeIdle p d _)
    unfold State.takeIdle
    split
    · exact s.keepsRefs_setPort p _
    · split <;> exact s.keepsRefs_setPort p _
  | opening shared => exact s.keepsRefs_setPort p _
  | content bits =>
    show s.KeepsRefs (s.takeContent p d bits)
    unfold State.takeContent
    split
    · exact s.keepsRefs_setPort p _
    · split
      · exact .refl s
      · exact (s.keepsRefs_setPort p _).trans (State.keepsRefs_setPort _ p _)
  | closed rest => exact s.keepsRefs_takeEnd p d false rest
  | aborted rest => exact s.keepsRefs_takeEnd p d true rest

end Sys2Proof.Machine
end

