-- ==== Sys2Proof/Proofs/LoadedEntries.lean ====
section
/-! PROOFS. Sys2Proof/Proofs/LoadedEntries.lean: what the records that an entry names must be for it to be loaded, and what the load does to
the names of its bank and to the counts (R111, R112). -/

namespace Sys2Proof.Machine

variable (s : State)

/-! ## The kinds of the records named (R111) -/

/-- The signal of an entry is a timetabled SIGNAL, and each of its points a POINT. -/
structure State.KindsFit (s : State) (e : Entry) : Prop where
  signal : ∃ x, s.element e.signal = some x ∧ x.loaded.kind = .signal ∧ x.loaded.timetabled = true
  points : ∀ i ∈ e.route, ∃ x, s.element i.point = some x ∧ x.loaded.kind = .point

theorem State.wrongKind_eq_false_iff (e : Entry) : s.wrongKind e = false ↔ s.KindsFit e := by
  have hsignal : ((s.element e.signal).any fun x => x.loaded.kind == .signal && x.loaded.timetabled) = true ↔
      ∃ x, s.element e.signal = some x ∧ x.loaded.kind = .signal ∧ x.loaded.timetabled = true := by
    rw [Option.any_eq_true]
    simp only [Bool.and_eq_true, beq_iff_eq]
  have hpoint (i : RouteItem) : ((s.element i.point).any fun x => x.loaded.kind == .point) = true ↔
      ∃ x, s.element i.point = some x ∧ x.loaded.kind = .point := by
    rw [Option.any_eq_true]
    simp only [beq_iff_eq]
  unfold State.wrongKind
  rw [Bool.or_eq_false_iff, Bool.not_eq_false', hsignal, List.any_eq_false]
  simp only [Bool.not_eq_true', Bool.not_eq_false, hpoint]
  exact ⟨fun ⟨h1, h2⟩ => ⟨h1, h2⟩, fun ⟨h1, h2⟩ => ⟨h1, h2⟩⟩

/-- A signal is no point, so an entry whose points differ names no record twice (R111). -/
theorem State.KindsFit.names_nodup {s : State} {e : Entry} (h : s.KindsFit e) (hpoints : (e.route.map RouteItem.point).Nodup) :
    e.names.Nodup := by
  refine List.nodup_cons.2 ⟨fun hmem => ?_, hpoints⟩
  obtain ⟨i, hi, hpoint⟩ := List.mem_map.1 hmem
  obtain ⟨x, hx, hsignal, -⟩ := h.signal
  obtain ⟨y, hy, hkind⟩ := h.points i hi
  rw [hpoint, hx] at hy
  cases hy
  rw [hsignal] at hkind
  cases hkind

theorem State.KindsFit.present {s : State} {e : Entry} (h : s.KindsFit e) {i : Nat} (hi : i ∈ e.names) :
    ∃ x, s.element i = some x := by
  rcases List.mem_cons.1 hi with rfl | hi
  · obtain ⟨x, hx, -⟩ := h.signal
    exact ⟨x, hx⟩
  · obtain ⟨item, hitem, rfl⟩ := List.mem_map.1 hi
    obtain ⟨x, hx, -⟩ := h.points item hitem
    exact ⟨x, hx⟩

/-! ## The counts raised (R112) -/

theorem raise16_eq (n : Nat) : raise16 n = min 65535 (n + 1) := by
  unfold raise16 saturate
  split <;> omega

/-- Each name raises the count of the record named by one. -/
theorem State.element_foldl_raise (names : List Nat) (j : Nat) : (names.foldl (State.adjustRefs raise16) s).element j =
    (s.element j).map fun e => { e with refs := raise16^[names.count j] e.refs } := by
  induction names generalizing s with
  | nil => simp
  | cons i names ih =>
    rw [List.foldl_cons, ih, State.element_adjustRefs, Option.map_map]
    congr 1
    funext e
    by_cases hj : j = i
    · subst hj
      simp
    · simp [hj, List.count_cons_of_ne (Ne.symm hj)]

theorem State.element_raiseRefs (e : Entry) (j : Nat) : (s.raiseRefs e).element j =
    (s.element j).map fun x => { x with refs := raise16^[e.names.count j] x.refs } :=
  s.element_foldl_raise e.names j

theorem State.element_raiseRefs_named {e : Entry} (h : e.names.Nodup) {j : Nat} (hj : j ∈ e.names) : (s.raiseRefs e).element j =
    (s.element j).map fun x => { x with refs := min 65535 (x.refs + 1) } := by
  rw [State.element_raiseRefs, List.count_eq_one_of_mem h hj]
  simp only [Function.iterate_one, raise16_eq]

theorem State.element_raiseRefs_other (e : Entry) {j : Nat} (hj : j ∉ e.names) : (s.raiseRefs e).element j = s.element j := by
  rw [State.element_raiseRefs, List.count_eq_zero_of_not_mem hj]
  exact Option.map_id'

/-! ## The entry appended -/

/-- The state in which an entry has joined a bank, its names counted. -/
def State.entryLoaded (s : State) (b : BankId) (e : Entry) : State :=
  (s.setBank b { s.bank b with entries := (s.bank b).entries ++ [e] }).raiseRefs e

theorem State.entryLoaded_only (b : BankId) (e : Entry) : s.entryLoaded b e =
    { s.setBank b { s.bank b with entries := (s.bank b).entries ++ [e] } with elements := (s.entryLoaded b e).elements } :=
  (State.refsOnly_raiseRefs _ e).only

theorem State.entryLoaded_bank_same (b : BankId) (e : Entry) :
    (s.entryLoaded b e).bank b = { s.bank b with entries := (s.bank b).entries ++ [e] } := by
  rw [State.entryLoaded_only]
  exact s.bank_setBank_same b _

theorem State.entryLoaded_bank_other (b : BankId) (e : Entry) : (s.entryLoaded b e).bank b.other = s.bank b.other := by
  rw [State.entryLoaded_only]
  exact s.bank_setBank_other b _

theorem Bank.naming_append (x : Bank) (e : Entry) (i : Nat) :
    Bank.naming { x with entries := x.entries ++ [e] } i = x.naming i + e.names.count i := by
  simp [Bank.naming]

/-- A lawful bank names a record at most once in each of its entries. -/
theorem Bank.naming_le {x : Bank} (h : x.lawful) (i : Nat) : x.naming i ≤ 3072 := by
  obtain ⟨hlength, -, hnodup⟩ := h
  have hone : ∀ n ∈ x.entries.map fun e => e.names.count i, n ≤ 1 := by
    intro n hn
    obtain ⟨e, he, rfl⟩ := List.mem_map.1 hn
    exact List.nodup_iff_count_le_one.1 (hnodup e he) i
  have hsum := List.sum_le_card_nsmul _ 1 hone
  rw [List.length_map, smul_eq_mul, Nat.mul_one] at hsum
  exact Nat.le_trans hsum hlength

theorem Bank.lawful_append {x : Bank} (h : x.lawful) (hstate : x.state ≠ .empty) (hroom : x.entries.length < 3072) {e : Entry}
    (he : e.names.Nodup) : Bank.lawful { x with entries := x.entries ++ [e] } := by
  obtain ⟨-, -, hnodup⟩ := h
  refine ⟨by simpa using hroom, fun hempty => absurd hempty hstate, fun e' he' => ?_⟩
  rcases List.mem_append.1 he' with he' | he'
  · exact hnodup e' he'
  · rw [List.mem_singleton.1 he']
    exact he

/-- The counts follow the names of a loaded entry: they stay far below the bound of 65,535 (R31, R107, R112). -/
theorem State.keepsCounts_entryLoaded {b : BankId} {e : Entry} (hstate : (s.bank b).state ≠ .empty)
    (hroom : (s.bank b).entries.length < 3072) (hkinds : s.KindsFit e) (hnames : e.names.Nodup) :
    s.KeepsCounts (s.entryLoaded b e) := by
  refine ⟨fun ⟨hbanks, hcounts⟩ => ⟨fun c => ?_, fun i => ?_⟩, by rw [State.entryLoaded_only, State.setBank_service]⟩
  · rcases b.eq_or_other c with rfl | rfl
    · rw [State.entryLoaded_bank_same]
      exact Bank.lawful_append (hbanks c) hstate hroom hnames
    · rw [State.entryLoaded_bank_other]
      exact hbanks _
  · have hcount := hcounts i
    have hbound : s.named i ≤ 6144 := by
      rw [State.named_eq s b]
      exact Nat.add_le_add (Bank.naming_le (hbanks b) i) (Bank.naming_le (hbanks b.other) i)
    have hnamed : (s.entryLoaded b e).named i = s.named i + e.names.count i := by
      rw [State.named_eq _ b, State.named_eq _ b, State.entryLoaded_bank_same, State.entryLoaded_bank_other, Bank.naming_append]
      omega
    rw [hnamed]
    by_cases hi : i ∈ e.names
    · obtain ⟨x, hx⟩ := hkinds.present hi
      have hloaded : (s.entryLoaded b e).element i = some { x with refs := min 65535 (x.refs + 1) } := by
        rw [State.entryLoaded, State.element_raiseRefs_named _ hnames hi, State.setBank_element, hx]
        rfl
      rw [State.refsAt_present hx] at hcount
      rw [State.refsAt_present hloaded, List.count_eq_one_of_mem hnames hi]
      dsimp only
      omega
    · rw [State.refsAt, State.entryLoaded, State.element_raiseRefs_other _ _ hi, State.setBank_element,
        List.count_eq_zero_of_not_mem hi]
      exact hcount

end Sys2Proof.Machine
end

