-- ==== Sys2Proof/Proofs/RefCountsOfSteps.lean ====
section
/-! PROOFS. Sys2Proof/Proofs/RefCountsOfSteps.lean: the requests, RESET TABLES and every command keep the reference counts true, and with
them a step (O58). -/

namespace Sys2Proof.Machine

variable (s : State)

/-! ## Requests that hold neither banks nor records -/

theorem State.KeepsRefs.answerTaken {s t : State} (h : s.KeepsRefs t) (changed : Bool) (data : List Byte) :
    s.KeepsRefs (answerTaken t changed data).state := h

theorem State.keepsRefs_reqIdentify (params : List Byte) : s.KeepsRefs (reqIdentify params s).state := by
  unfold reqIdentify
  split <;> exact .refl s

theorem State.keepsRefs_reqReadStatus (params : List Byte) : s.KeepsRefs (reqReadStatus params s).state := by
  unfold reqReadStatus
  split
  · split <;> exact .refl s
  · split
    · split <;> exact .refl s
    · split <;> exact .refl s
    · exact .refl s
  · exact .refl s

theorem State.keepsRefs_reqReadCounters (params : List Byte) : s.KeepsRefs (reqReadCounters params s).state := by
  unfold reqReadCounters
  split
  · split
    · split <;> exact .refl s
    · exact .refl s
  · exact .refl s

theorem State.keepsRefs_reqReadElement (params : List Byte) : s.KeepsRefs (reqReadElement params s).state := by
  unfold reqReadElement
  split
  · split <;> exact .refl s
  · exact .refl s

theorem State.keepsRefs_reqReadEntry (params : List Byte) : s.KeepsRefs (reqReadEntry params s).state := by
  unfold reqReadEntry
  split
  · split
    · split <;> exact .refl s
    · exact .refl s
  · exact .refl s

theorem State.keepsRefs_reqReadJournal (params : List Byte) : s.KeepsRefs (reqReadJournal params s).state := by
  unfold reqReadJournal
  split <;> exact .refl s

theorem State.keepsRefs_reqJoin (params : List Byte) : s.KeepsRefs (reqJoin params s).state := by
  unfold reqJoin State.joinPort
  split
  · split
    · split <;> exact .of_refsPart rfl
    · exact .refl s
  · exact .refl s

theorem State.keepsRefs_reqLeave (params : List Byte) : s.KeepsRefs (reqLeave params s).state := by
  unfold reqLeave State.leavePort
  split
  · split
    · split
      · exact .refl s
      · split <;> exact .of_refsPart rfl
      all_goals exact .refl s
    · exact .refl s
  · exact .refl s

theorem State.keepsRefs_reqLatchCounters (params : List Byte) : s.KeepsRefs (reqLatchCounters params s).state := by
  unfold reqLatchCounters
  split
  · split <;> exact .of_refsPart rfl
  · exact .refl s

theorem State.keepsRefs_reqTimeMark (params : List Byte) : s.KeepsRefs (reqTimeMark params s).state := by
  unfold reqTimeMark
  split
  · split
    · exact .refl s
    · dsimp only
      split <;> exact .of_refsPart rfl
  · exact .refl s

theorem State.keepsRefs_reqSetTimebase (params : List Byte) : s.KeepsRefs (reqSetTimebase params s).state := by
  unfold reqSetTimebase
  split
  · refine State.KeepsRefs.answerTaken ?_ _ _
    exact (s.keepsRefs_setTb _).trans (State.keepsRefs_judgeLimit _)
  · exact .refl s

theorem State.keepsRefs_reqRelock (params : List Byte) : s.KeepsRefs (reqRelock params s).state := by
  unfold reqRelock
  split <;> exact .of_refsPart rfl

theorem State.keepsRefs_setCivilOffset (now : Option Int) (a : ScheduleAction) : s.KeepsRefs (s.setCivilOffset now a).state := by
  have hschedule (t : State) : t.KeepsRefs (t.takeSchedule a).1 := by
    cases a with
    | keep => exact .refl t
    | cancel => exact t.keepsRefs_setTb _
    | change day sec offset => exact (t.keepsRefs_setTb _).trans (State.keepsRefs_judgeOffset _)
  have hnow : s.KeepsRefs (match now with
      | some v => s.changeOffset (takeOffset v)
      | none => s) := by
    split
    · exact s.keepsRefs_changeOffset _
    · exact .refl s
  exact State.KeepsRefs.answerTaken (hnow.trans (hschedule _)) _ _

theorem State.keepsRefs_reqSetCivilOffset (params : List Byte) : s.KeepsRefs (reqSetCivilOffset params s).state := by
  have hcancel (now : Option Int) (action : Nat) : s.KeepsRefs (s.cancelForm now action).state := by
    unfold State.cancelForm
    split
    · exact s.keepsRefs_setCivilOffset now _
    all_goals exact .refl s
  have hchange (now : Option Int) (action : Nat) (day : Day) (sec : Nat) (offset : Int) :
      s.KeepsRefs (s.changeForm now action day sec offset).state := by
    unfold State.changeForm
    split
    · split
      · exact .refl s
      · exact s.keepsRefs_setCivilOffset now _
    all_goals exact .refl s
  unfold reqSetCivilOffset
  split
  · exact s.keepsRefs_setCivilOffset _ _
  · exact hcancel _ _
  · exact s.keepsRefs_setCivilOffset _ _
  · exact hcancel _ _
  · exact hchange _ _ _ _ _
  · exact hchange _ _ _ _ _
  · exact .refl s

theorem State.keepsRefs_reqSetLine (params : List Byte) : s.KeepsRefs (reqSetLine params s).state := by
  unfold reqSetLine State.setLineSettings
  split
  · split
    · dsimp only
      split
      · exact .refl s
      · exact s.keepsRefs_applyLine _ _
    · exact .refl s
  · exact .refl s

theorem State.keepsRefs_reqSetPosition (params : List Byte) : s.KeepsRefs (reqSetPosition params s).state := by
  unfold reqSetPosition State.setPosition
  split
  · split
    · dsimp only
      split
      · exact .refl s
      · split
        · exact .refl s
        · exact s.keepsRefs_applyLine _ _
    · exact .refl s
  · exact .refl s

theorem State.keepsRefs_lineRequest (f : Line → State → LineStep) (params : List Byte) :
    s.KeepsRefs (lineRequest f params s).state := by
  unfold lineRequest
  split
  · split
    · exact .refl s
    · split
      · exact .refl s
      · exact s.keepsRefs_applyLine _ _
  · exact .refl s

theorem State.keepsRefs_reqSetClass (params : List Byte) : s.KeepsRefs (reqSetClass params s).state := by
  unfold reqSetClass
  split
  · split <;> exact .of_refsPart rfl
  · exact .refl s

theorem State.keepsRefs_reqSetAlert (params : List Byte) : s.KeepsRefs (reqSetAlert params s).state := by
  unfold reqSetAlert
  split
  · dsimp only
    split <;> exact .of_refsPart rfl
  · exact .refl s

theorem State.keepsRefs_reqRelease (params : List Byte) : s.KeepsRefs (reqRelease params s).state := by
  unfold reqRelease
  split <;> exact .of_refsPart rfl

/-! ## Requests on ports, windows and elements -/

theorem State.keepsRefs_reqSetPort (params : List Byte) : s.KeepsRefs (reqSetPort params s).state := by
  unfold reqSetPort State.setPortSettings
  split
  · split
    · dsimp only
      split
      · exact .refl s
      · split
        · exact .refl s
        · refine State.KeepsRefs.answerTaken ?_ _ _
          refine State.KeepsRefs.trans (State.KeepsRefs.trans ?_ (State.keepsRefs_settleLife _ _ .down))
            (State.keepsRefs_settleLife _ _ .up)
          exact .of_refsPart rfl
    · exact .refl s
  · exact .refl s

theorem State.realign_refs (t : State) (i : Nat) (e : Element) : (s.realign t i e).refs = e.refs := by
  unfold State.realign
  split <;> rfl

/-- A window load realigns the records and writes no count (R28). -/
theorem State.keepsRefs_takeWindow (p : PortId) (w : LineId) (x : Window) : s.KeepsRefs (s.takeWindow p w x) := by
  refine .of_refsPart ?_
  rw [State.refsPart, State.refsAt_map (s.realign_refs _) (s.element_takeWindow p w x)]
  rfl

theorem State.keepsRefs_reqLoadWindow (params : List Byte) : s.KeepsRefs (reqLoadWindow params s).state := by
  have hclose (p : PortId) (w : LineId) : s.KeepsRefs (s.closeWindow p w).state := by
    unfold State.closeWindow
    split
    · exact .refl s
    · exact s.keepsRefs_takeWindow p w _
  have hopen (p : PortId) (w : LineId) (given : Window) : s.KeepsRefs (s.openWindow p w given).state := by
    unfold State.openWindow
    dsimp only
    split
    · exact .refl s
    split
    · exact .refl s
    split
    · exact .refl s
    split
    · exact .refl s
    exact s.keepsRefs_takeWindow p w _
  unfold reqLoadWindow State.loadWindow
  split
  · split
    · split
      · exact .refl s
      · split
        · exact hclose _ _
        · exact hopen _ _ _
    · exact .refl s
  · exact .refl s

/-- A record that an entry names keeps its count through a rewrite, and one made anew had none (R41, R42). -/
theorem rewriteElement_refs {e e' : Element} {l : Loaded} {silent : Bool} (h : rewriteElement e l silent = .ok e') :
    e'.refs = e.refs := by
  unfold rewriteElement at h
  split at h
  · cases h
  · split at h
    · split at h
      · cases h
      · cases h
        rfl
    · split at h
      · cases h
      · rename_i hrefs
        cases h
        exact (Nat.eq_zero_of_not_pos hrefs).symm

theorem State.keepsRefs_loadElement (i : Nat) (kind : Kind) (g : GivenFields) : s.KeepsRefs (s.loadElement i kind g).state := by
  unfold State.loadElement
  dsimp only
  split
  · exact .refl s
  · split
    · rename_i h
      refine s.keepsRefs_setElement ?_
      exact (State.refsAt_absent h).symm
    · split
      · rename_i h
        exact s.keepsRefs_rewrite ‹_› (rewriteElement_refs h)
      · exact .refl s

theorem State.keepsRefs_reqLoadElement (params : List Byte) : s.KeepsRefs (reqLoadElement params s).state := by
  unfold reqLoadElement
  split
  · split
    · split
      · exact .refl s
      · exact s.keepsRefs_loadElement _ _ _
    · exact .refl s
  · split
    · split
      · exact .refl s
      · exact s.keepsRefs_loadElement _ _ _
    · exact .refl s
  · exact .refl s

theorem State.keepsRefs_reqRemoveElement (params : List Byte) : s.KeepsRefs (reqRemoveElement params s).state := by
  unfold reqRemoveElement State.removeRecord
  split
  · split
    · exact .refl s
    · split
      · exact .refl s
      · rename_i e he
        split
        · exact .refl s
        · split
          · exact .refl s
          · rename_i hrefs
            exact s.keepsRefs_removeElement ((State.refsAt_present he).trans (Nat.eq_zero_of_not_pos hrefs))
  · exact .refl s

theorem State.keepsRefs_reqClearStatistics (params : List Byte) : s.KeepsRefs (reqClearStatistics params s).state := by
  unfold reqClearStatistics
  split
  · dsimp only
    split
    · have hrefs : ({ s with elements := mapRecords s.elements fun _ e => e.cleared } : State).refsAt = s.refsAt :=
        State.refsAt_map (f := fun _ e => e.cleared) (fun _ _ => rfl) (lookup_mapRecords s.elements fun _ e => e.cleared)
      refine .of_refsPart ?_
      rw [answer, State.refsPart, hrefs]
      rfl
    · split
      · exact .refl s
      · split
        · exact .refl s
        · rename_i e he
          exact s.keepsRefs_rewrite he rfl
  · exact .refl s

/-! ## Requests on banks -/

theorem State.keepsRefs_bankRequest {f : BankId → State → Served} (h : ∀ b, s.KeepsRefs (f b s).state) (params : List Byte) :
    s.KeepsRefs (bankRequest f params s).state := by
  unfold bankRequest
  split
  · split
    · exact h _
    · exact .refl s
  · exact .refl s

/-- An EMPTY bank whose header is filled names nothing, before as after (R107, R110). -/
theorem State.keepsCounts_loadHeader (b : BankId) (start : DaySec) : s.KeepsCounts (s.loadHeader b start).state := by
  unfold State.loadHeader
  dsimp only
  split
  · rename_i h
    refine ⟨fun hs => ?_, congrArg Service.resetting (s.setBank_service b _)⟩
    obtain ⟨-, hempty, -⟩ := hs.banks b
    have hnames : (s.bank b).Names { s.bank b with state := .loading, start := some start, entries := [], nextToOpen := 0 } :=
      ⟨by rw [hempty h], fun _ => h⟩
    exact (s.keepsRefs_setBank hnames).counts hs
  · have hnames : (s.bank b).Names { s.bank b with start := some start } := ⟨rfl, id⟩
    exact (s.keepsRefs_setBank hnames).toKeepsCounts
  · exact (State.KeepsRefs.refl s).toKeepsCounts

theorem State.keepsCounts_reqLoadHeader (params : List Byte) : s.KeepsCounts (reqLoadHeader params s).state := by
  unfold reqLoadHeader
  split
  · split
    · split
      · exact (State.KeepsRefs.refl s).toKeepsCounts
      · exact s.keepsCounts_loadHeader _ _
    · exact (State.KeepsRefs.refl s).toKeepsCounts
  · exact (State.KeepsRefs.refl s).toKeepsCounts

theorem State.keepsCounts_loadEntry (b : BankId) (e : Entry) (changed : Bool) : s.KeepsCounts (s.loadEntry b e changed).state := by
  have hrefused : s.KeepsCounts s := (State.KeepsRefs.refl s).toKeepsCounts
  unfold State.loadEntry
  dsimp only
  split
  · exact hrefused
  rename_i hloading
  rw [not_not] at hloading
  split
  · exact hrefused
  rename_i hroom
  split
  · exact hrefused
  split
  · exact hrefused
  rename_i hkinds
  rw [Bool.not_eq_true, State.wrongKind_eq_false_iff] at hkinds
  split
  · exact hrefused
  rename_i hpoints
  split
  · exact hrefused
  exact s.keepsCounts_entryLoaded (by rw [hloading]; decide) (Nat.lt_of_not_le hroom) hkinds
    (hkinds.names_nodup (not_not.1 hpoints))

theorem State.keepsCounts_reqLoadEntry (params : List Byte) : s.KeepsCounts (reqLoadEntry params s).state := by
  have hrefused : s.KeepsCounts s := (State.KeepsRefs.refl s).toKeepsCounts
  unfold reqLoadEntry
  split
  · split
    · exact hrefused
    · split
      · exact hrefused
      · split
        · exact hrefused
        · exact s.keepsCounts_loadEntry _ _ _
  · exact hrefused

theorem State.keepsRefs_armBank (b : BankId) : s.KeepsRefs (State.armBank b s).state := by
  unfold State.armBank
  dsimp only
  split
  · exact .refl s
  · have hnames : (s.bank b).Names { s.bank b with state := .armed } := ⟨rfl, fun h => BankState.noConfusion h⟩
    exact s.keepsRefs_setBank hnames

theorem State.keepsRefs_disarmBank (b : BankId) : s.KeepsRefs (State.disarmBank b s).state := by
  unfold State.disarmBank
  dsimp only
  split
  · have hnames : (s.bank b).Names { s.bank b with state := .loading } := ⟨rfl, fun h => BankState.noConfusion h⟩
    exact s.keepsRefs_setBank hnames
  · exact .refl s

theorem State.keepsRefs_abandonBank (b : BankId) : s.KeepsRefs (State.abandonBank b s).state := by
  unfold State.abandonBank
  dsimp only
  split
  · exact ((s.keepsRefs_setOpenList _).trans (State.keepsRefs_report _ _)).trans (State.keepsRefs_emptyBank _ b)
  · exact .refl s

theorem State.keepsRefs_clearBank (b : BankId) : s.KeepsRefs (State.clearBank b s).state := by
  unfold State.clearBank
  split
  · exact .refl s
  · exact s.keepsRefs_emptyBank b
  · exact .refl s

theorem State.keepsRefs_reqCancelEntry (params : List Byte) : s.KeepsRefs (reqCancelEntry params s).state := by
  unfold reqCancelEntry State.cancelEntry
  split
  · split
    · split
      · exact .refl s
      · split
        · exact .refl s
        · exact s.keepsRefs_closeOwn _ _
    · exact .refl s
  · exact .refl s

/-! ## RESET TABLES (R47, R101, R129, R181) -/

theorem State.keepsRefs_resetBanks : s.KeepsRefs s.resetBanks := by
  have hreset (t : State) (b : BankId) : t.KeepsRefs (t.resetBank b) := by
    by_cases h : (t.bank b).state = .empty
    · rw [t.resetBank_empty h]
      exact .refl t
    · rw [t.resetBank_loaded h]
      exact (t.keepsRefs_report _).trans (State.keepsRefs_emptyBank _ b)
  rw [State.resetBanks_eq]
  exact ((hreset s .bankA).trans (hreset _ .bankB)).trans (State.keepsRefs_setOpenList _ _)

/-- Behind the second step the banks hold no entry: a bank that it passes over was EMPTY (R107, R129, R181). -/
theorem State.cleared_resetBanks (h : s.CountsLawful) : s.resetBanks.Cleared := by
  intro b
  rw [State.bank_resetBanks]
  split
  · rename_i hempty
    obtain ⟨-, hnone, -⟩ := h.banks b
    exact hnone hempty
  · rfl

theorem State.named_cleared {s : State} (h : s.Cleared) (i : Nat) : s.named i = 0 := by
  rw [State.named_eq s .bankA, Bank.naming, h, Bank.naming, h]
  rfl

/-- The third step empties the table behind banks that name nothing (R47). -/
theorem State.countsLawful_emptyTables (h : s.CountsLawful) (hcleared : s.Cleared) : s.emptyTables.CountsLawful :=
  ⟨h.banks, fun i => (State.refsAt_absent rfl).trans (State.named_cleared hcleared i).symm⟩

theorem State.countsLawful_tablesEmptied (h : s.CountsLawful) (hcleared : s.Cleared) (r : Request) (a : Reply) :
    ((s.tablesEmptied r).respond 70 r a).CountsLawful :=
  (s.countsLawful_emptyTables h hcleared).of_eq (State.refsAt_congr rfl) rfl rfl

theorem State.countsLawful_secondStep (h : s.CountsLawful) (g : Option Resetting) : (s.resetBanks.setResetting g).CountsLawful :=
  (s.keepsRefs_resetBanks.counts h).of_eq (State.refsAt_congr rfl) rfl rfl

/-- The counts are true while a request is carried out: a RESET TABLES under way is over by then. -/
theorem State.countsLawful_finishReset (h : s.refsLawful) : s.finishReset.CountsLawful := by
  obtain ⟨hcounts, hcleared⟩ := s.refsLawful_iff.1 h
  cases hreset : s.service.resetting with
  | none =>
    rw [s.finishReset_none hreset]
    exact hcounts
  | some g =>
    obtain ⟨r, n, c⟩ := g
    cases c with
    | none =>
      rw [s.finishReset_second hreset, s.continueReset_second rfl]
      exact State.countsLawful_tablesEmptied _ (s.countsLawful_secondStep hcounts _) (s.cleared_resetBanks hcounts) r _
    | some c =>
      obtain ⟨a, b⟩ := c
      rw [s.finishReset_last hreset rfl, s.continueReset_last rfl]
      exact s.countsLawful_tablesEmptied hcounts (hcleared _ hreset rfl) r _

theorem State.refsLawful_of_counts {s : State} (h : s.CountsLawful) (hnone : s.service.resetting = none) : s.refsLawful := by
  rw [State.refsLawful_iff]
  refine ⟨h, fun g hg => ?_⟩
  rw [hnone] at hg
  cases hg

theorem State.refsLawful_finishReset (h : s.refsLawful) : s.finishReset.refsLawful :=
  State.refsLawful_of_counts (s.countsLawful_finishReset h) s.finishReset_resetting

/-- The first step touches neither banks nor counts, and no bank needs to be clear behind it (R101). -/
theorem State.refsLawful_beginReset (r : Request) (h : s.CountsLawful) : (s.beginReset r).refsLawful := by
  have honly := s.beginReset_only r
  have hrefs : (s.beginReset r).refsAt = s.refsAt := State.refsAt_map (f := fun _ e => { e with sup := .idle }) (fun _ _ => rfl)
    (s.element_beginReset r)
  rw [State.refsLawful_iff]
  refine ⟨h.of_eq hrefs (by rw [honly]) (by rw [honly]), fun g hg hclosed => ?_⟩
  rw [State.beginReset_resetting] at hg
  cases hg
  cases hclosed

theorem State.refsLawful_continueReset {g : Resetting} (hg : s.service.resetting = some g) (h : s.refsLawful) :
    (s.continueReset g).refsLawful := by
  obtain ⟨hcounts, hcleared⟩ := s.refsLawful_iff.1 h
  obtain ⟨r, n, c⟩ := g
  cases c with
  | none =>
    rw [s.continueReset_second rfl, State.refsLawful_iff]
    exact ⟨s.countsLawful_secondStep hcounts _, fun _ _ _ => s.cleared_resetBanks hcounts⟩
  | some c =>
    obtain ⟨a, b⟩ := c
    rw [s.continueReset_last rfl]
    exact State.refsLawful_of_counts (s.countsLawful_tablesEmptied hcounts (hcleared _ hg rfl) r _)
      (State.tablesEmptied_resetting ..)

theorem State.refsLawful_takeReset (r : Request) (pause : Bool) (h : s.refsLawful) : (s.takeReset r pause).refsLawful := by
  have hfirst : (match s.service.resetting with
      | some g => if g.request = r then s.continueReset g else s.finishReset.beginReset r
      | none => s.beginReset r).refsLawful := by
    split
    · rename_i hg
      split
      · exact s.refsLawful_continueReset hg h
      · exact State.refsLawful_beginReset _ r (s.countsLawful_finishReset h)
    · exact s.refsLawful_beginReset r (s.refsLawful_iff.1 h).1
  unfold State.takeReset
  dsimp only
  split
  · exact hfirst
  · exact State.refsLawful_finishReset _ hfirst

/-! ## Every command -/

/-- A request that keeps the counts keeps the law, whatever it finds under way (R171). -/
theorem State.refsLawful_serve (code : Byte) (r : Request) {f : List Byte → State → Served}
    (hf : ∀ params (u : State), u.KeepsCounts (f params u).state) (h : s.refsLawful) : (s.serve code r f).refsLawful := by
  unfold State.serve
  split
  · exact h
  · dsimp only
    have htaken : (s.finishReset.taking code r).CountsLawful :=
      (s.countsLawful_finishReset h).of_eq (State.refsAt_congr rfl) rfl rfl
    have hmeaning := hf r.params (s.finishReset.taking code r)
    have hcounts := hmeaning.counts htaken
    generalize f r.params (s.finishReset.taking code r) = a at hmeaning hcounts ⊢
    refine State.refsLawful_of_counts (hcounts.of_eq (State.refsAt_congr rfl) rfl rfl) ?_
    rw [State.respond_service, Service.take_resetting, hmeaning.resetting]
    exact (Service.finish_resetting _ _).trans s.finishReset_resetting

theorem State.refsLawful_serve_refs (code : Byte) (r : Request) {f : List Byte → State → Served}
    (hf : ∀ params (u : State), u.KeepsRefs (f params u).state) (h : s.refsLawful) : (s.serve code r f).refsLawful :=
  s.refsLawful_serve code r (fun params u => (hf params u).toKeepsCounts) h

theorem State.keepsRefs_ite {c : Prop} [Decidable c] {t u : State} (ht : s.KeepsRefs t) (hu : s.KeepsRefs u) :
    s.KeepsRefs (if c then t else u) := by
  split
  · exact ht
  · exact hu

/-- An event outside INITIALISING, where nothing happens (R7). -/
theorem State.refsLawful_event {t : State} (h : s.KeepsRefs t) (hs : s.refsLawful) :
    (if s.initialising then s else t).refsLawful :=
  (s.keepsRefs_ite (.refl s) h).refsLawful hs

/-- An event that waits for its instant, and then acts where it is due. -/
theorem State.keepsRefs_awaited (instant : Option Nat) {due : Prop} [Decidable due] {t : State}
    (h : (s.await instant).KeepsRefs t) : s.KeepsRefs (if due then t else s.await instant) :=
  s.keepsRefs_ite ((s.keepsRefs_await instant).trans h) (s.keepsRefs_await instant)

theorem State.refsLawful_afterReset (pending : List Instr) (cause : ResetCause) (straps : Straps) (choices : Nat) :
    (State.afterReset pending cause straps choices).refsLawful := by
  obtain ⟨-, -, -, -, -, -, hrefs, -⟩ := resetMeetsTheLaws
  exact hrefs

/-- Every command answers a next state in which the law of R112 holds as before. -/
theorem exec_refsLawful (i : Instr) (hs : s.refsLawful) : ∃ t, exec i s = .next t ∧ t.refsLawful := by
  cases i with
  | deviceReset cause straps => exact ⟨_, rfl, State.refsLawful_afterReset _ _ _ _⟩
  | endOfInitialising =>
    have hended (u : State) : u.KeepsRefs u.endInitialising := .of_refsPart rfl
    exact ⟨_, rfl, (s.keepsRefs_ite ((s.keepsRefs_await _).trans (hended _)) (.refl s)).refsLawful hs⟩
  | frameReceived p d part => exact ⟨_, rfl, s.refsLawful_event (s.keepsRefs_receive p d part) hs⟩
  | lossOfSignalRaised p d =>
    exact ⟨_, rfl, s.refsLawful_event (s.keepsRefs_ite (.refl s) (s.keepsRefs_setCondition p d _ _)) hs⟩
  | lossOfSignalCleared p d =>
    exact ⟨_, rfl, s.refsLawful_event (s.keepsRefs_ite (s.keepsRefs_setCondition p d _ _) (.refl s)) hs⟩
  | lifeTimeout p d => exact ⟨_, rfl, s.refsLawful_event (s.keepsRefs_awaited _ (State.keepsRefs_raiseSilent _ p d)) hs⟩
  | joiningQuietRunComplete p => exact ⟨_, rfl, s.refsLawful_event (s.keepsRefs_awaited _ (State.keepsRefs_setPort _ p _)) hs⟩
  | leavingQuietRunComplete p => exact ⟨_, rfl, s.refsLawful_event (s.keepsRefs_awaited _ (State.keepsRefs_setPort _ p _)) hs⟩
  | relayTransferEnd p => exact ⟨_, rfl, s.refsLawful_event (s.keepsRefs_awaited _ (State.keepsRefs_setPort _ p _)) hs⟩
  | insertionBegin p => exact ⟨_, rfl, s.refsLawful_event (s.keepsRefs_ite (s.keepsRefs_setPort p _) (.refl s)) hs⟩
  | insertionEnd p marks => exact ⟨_, rfl, s.refsLawful_event (s.keepsRefs_ite (s.keepsRefs_setPort p _) (.refl s)) hs⟩
  | backlogDrained p => exact ⟨_, rfl, s.refsLawful_event (s.keepsRefs_ite (s.keepsRefs_setPort p _) (.refl s)) hs⟩
  | referencePulse => exact ⟨_, rfl, s.refsLawful_event s.keepsRefs_pulse hs⟩
  | missNote => exact ⟨_, rfl, s.refsLawful_event (s.keepsRefs_awaited _ (State.keepsRefs_missNote _)) hs⟩
  | holdoverLimitReached => exact ⟨_, rfl, s.refsLawful_event (s.keepsRefs_awaited _ (.of_refsPart rfl)) hs⟩
  | slewSpent => exact ⟨_, rfl, s.refsLawful_event (s.keepsRefs_await _) hs⟩
  | secondBoundary order => exact ⟨_, rfl, s.refsLawful_event (s.keepsRefs_toBoundary order) hs⟩
  | deadlineExpiry i => exact ⟨_, rfl, s.refsLawful_event (s.keepsRefs_awaited _ (State.keepsRefs_expireRecord _ i)) hs⟩
  | impulseStart l => exact ⟨_, rfl, s.refsLawful_event (s.keepsRefs_awaited _ (.of_refsPart rfl)) hs⟩
  | probeStart l => exact ⟨_, rfl, s.refsLawful_event (s.keepsRefs_awaited _ (.of_refsPart rfl)) hs⟩
  | impulseSample l sense =>
    refine ⟨_, rfl, s.refsLawful_event (s.keepsRefs_awaited _ ?_) hs⟩
    unfold State.sampleLine
    split
    · exact State.keepsRefs_applyLine _ l _
    · exact .refl _
  | impulseEnd l =>
    refine ⟨_, rfl, s.refsLawful_event (s.keepsRefs_awaited _ ?_) hs⟩
    unfold State.finishLine
    split
    · exact State.keepsRefs_applyLine _ l _
    · exact .refl _
  | unknownRequestCode code r =>
    refine ⟨_, rfl, ?_⟩
    split
    · exact hs
    · exact s.refsLawful_serve_refs code r (fun _ u => .refl u) hs
  | resetTables r =>
    refine ⟨_, rfl, ?_⟩
    split
    · exact hs
    · split
      · exact State.refsLawful_takeReset _ r _ hs
      · exact s.refsLawful_serve_refs 70 r (fun _ u => .refl u) hs
  | identify r => exact ⟨_, rfl, s.refsLawful_serve_refs 1 r (fun params u => u.keepsRefs_reqIdentify params) hs⟩
  | readStatus r => exact ⟨_, rfl, s.refsLawful_serve_refs 2 r (fun params u => u.keepsRefs_reqReadStatus params) hs⟩
  | setPort r => exact ⟨_, rfl, s.refsLawful_serve_refs 10 r (fun params u => u.keepsRefs_reqSetPort params) hs⟩
  | join r => exact ⟨_, rfl, s.refsLawful_serve_refs 11 r (fun params u => u.keepsRefs_reqJoin params) hs⟩
  | leave r => exact ⟨_, rfl, s.refsLawful_serve_refs 12 r (fun params u => u.keepsRefs_reqLeave params) hs⟩
  | readCounters r => exact ⟨_, rfl, s.refsLawful_serve_refs 13 r (fun params u => u.keepsRefs_reqReadCounters params) hs⟩
  | latchCounters r => exact ⟨_, rfl, s.refsLawful_serve_refs 14 r (fun params u => u.keepsRefs_reqLatchCounters params) hs⟩
  | loadWindow r => exact ⟨_, rfl, s.refsLawful_serve_refs 20 r (fun params u => u.keepsRefs_reqLoadWindow params) hs⟩
  | loadElement r => exact ⟨_, rfl, s.refsLawful_serve_refs 21 r (fun params u => u.keepsRefs_reqLoadElement params) hs⟩
  | removeElement r => exact ⟨_, rfl, s.refsLawful_serve_refs 22 r (fun params u => u.keepsRefs_reqRemoveElement params) hs⟩
  | readElement r => exact ⟨_, rfl, s.refsLawful_serve_refs 23 r (fun params u => u.keepsRefs_reqReadElement params) hs⟩
  | clearStatistics r => exact ⟨_, rfl, s.refsLawful_serve_refs 24 r (fun params u => u.keepsRefs_reqClearStatistics params) hs⟩
  | timeMark r => exact ⟨_, rfl, s.refsLawful_serve_refs 30 r (fun params u => u.keepsRefs_reqTimeMark params) hs⟩
  | setTimebase r => exact ⟨_, rfl, s.refsLawful_serve_refs 31 r (fun params u => u.keepsRefs_reqSetTimebase params) hs⟩
  | relock r => exact ⟨_, rfl, s.refsLawful_serve_refs 32 r (fun params u => u.keepsRefs_reqRelock params) hs⟩
  | setCivilOffset r => exact ⟨_, rfl, s.refsLawful_serve_refs 33 r (fun params u => u.keepsRefs_reqSetCivilOffset params) hs⟩
  | loadHeader r => exact ⟨_, rfl, s.refsLawful_serve 40 r (fun params u => u.keepsCounts_reqLoadHeader params) hs⟩
  | loadEntry r => exact ⟨_, rfl, s.refsLawful_serve 41 r (fun params u => u.keepsCounts_reqLoadEntry params) hs⟩
  | arm r => exact ⟨_, rfl, s.refsLawful_serve_refs 42 r (fun params u => u.keepsRefs_bankRequest u.keepsRefs_armBank params) hs⟩
  | disarm r =>
    exact ⟨_, rfl, s.refsLawful_serve_refs 43 r (fun params u => u.keepsRefs_bankRequest u.keepsRefs_disarmBank params) hs⟩
  | abandon r =>
    exact ⟨_, rfl, s.refsLawful_serve_refs 44 r (fun params u => u.keepsRefs_bankRequest u.keepsRefs_abandonBank params) hs⟩
  | clearBank r =>
    exact ⟨_, rfl, s.refsLawful_serve_refs 45 r (fun params u => u.keepsRefs_bankRequest u.keepsRefs_clearBank params) hs⟩
  | cancelEntry r => exact ⟨_, rfl, s.refsLawful_serve_refs 46 r (fun params u => u.keepsRefs_reqCancelEntry params) hs⟩
  | readEntry r => exact ⟨_, rfl, s.refsLawful_serve_refs 47 r (fun params u => u.keepsRefs_reqReadEntry params) hs⟩
  | setLine r => exact ⟨_, rfl, s.refsLawful_serve_refs 50 r (fun params u => u.keepsRefs_reqSetLine params) hs⟩
  | setPosition r => exact ⟨_, rfl, s.refsLawful_serve_refs 51 r (fun params u => u.keepsRefs_reqSetPosition params) hs⟩
  | halt r => exact ⟨_, rfl, s.refsLawful_serve_refs 52 r (fun params u => u.keepsRefs_lineRequest _ params) hs⟩
  | run r => exact ⟨_, rfl, s.refsLawful_serve_refs 53 r (fun params u => u.keepsRefs_lineRequest _ params) hs⟩
  | setClass r => exact ⟨_, rfl, s.refsLawful_serve_refs 60 r (fun params u => u.keepsRefs_reqSetClass params) hs⟩
  | setAlert r => exact ⟨_, rfl, s.refsLawful_serve_refs 61 r (fun params u => u.keepsRefs_reqSetAlert params) hs⟩
  | readJournal r => exact ⟨_, rfl, s.refsLawful_serve_refs 62 r (fun params u => u.keepsRefs_reqReadJournal params) hs⟩
  | release r => exact ⟨_, rfl, s.refsLawful_serve_refs 63 r (fun params u => u.keepsRefs_reqRelease params) hs⟩

/-! ## A step -/

theorem State.keepsRefs_queueEvent (i : Instr) : s.KeepsRefs (s.queueEvent i) := by
  unfold State.queueEvent
  split
  · exact s.keepsRefs_boundaryOrder.trans (.of_refsPart rfl)
  · exact .of_refsPart rfl

theorem State.keepsRefs_choose (l : List Instr) : s.KeepsRefs (s.choose l) := by
  have hchosen : s.KeepsRefs { s with choices := s.choices + 1 } := .of_refsPart rfl
  unfold State.choose
  split
  · exact .refl s
  · exact s.keepsRefs_queueEvent _
  · exact hchosen.trans (State.keepsRefs_queueEvent _ _)

/-- A step of a part on which no command waits touches neither banks nor counts (log entry 2). -/
theorem State.keepsRefs_idle : s.KeepsRefs s.idle := by
  have htake : s.KeepsRefs (if s.initialising then s else { s with service := s.service.take }) := by
    refine s.keepsRefs_ite (.refl s) (.of_refsPart ?_)
    rw [State.refsPart, Service.take_resetting]
    rfl
  unfold State.idle
  dsimp only
  split
  · exact htake.trans (State.keepsRefs_setTb _ _)
  · exact htake.trans (State.keepsRefs_choose _ _)

/-- Settles O58: the walk names and counts alike, a load raises the counts of what it names, an emptied bank lowers them, and the third step
of RESET TABLES finds no entry. -/
theorem referenceCountsStayTrue : Obligations.ReferenceCountsStayTrue := by
  intro s t hs h
  unfold step at h
  split at h
  · cases h
    exact s.keepsRefs_idle.refsLawful hs
  · rename_i c rest _
    obtain ⟨u, hu, hlaw⟩ := exec_refsLawful { s with pending := rest } c hs
    rw [hu] at h
    cases h
    exact hlaw

end Sys2Proof.Machine
end

