-- ==== Sys2Proof/Proofs/ClosedEntries.lean ====
section
/-! PROOFS. Sys2Proof/Proofs/ClosedEntries.lean: what the emptying of a bank, the closing of an entry and a retirement leave, the last OPEN
entry of a RETIRING bank set apart (R112, R117, R118, R126, R127). -/

namespace Sys2Proof.Machine

/-! ## The OPEN entries left (R118) -/

/-- The closing of an OPEN entry leaves one OPEN entry fewer. -/
theorem Bank.count_opened_close {x : Bank} {i : Nat} {e e' : Entry} (h : x.entries[i]? = some e) (hopen : e.status = .opened)
    (hclosed : e'.status ≠ .opened) : Bank.count { x with entries := x.entries.set i e' } .opened = x.count .opened - 1 := by
  obtain ⟨hlt, hget⟩ := List.getElem?_eq_some_iff.1 h
  simp [Bank.count, List.countP_set hlt, hget, hopen, hclosed]

/-- The closing of an entry takes one OPEN entry at most. -/
theorem Bank.count_opened_set {x : Bank} {i : Nat} {e : Entry} (h : x.entries[i]? = some e) (e' : Entry) :
    x.count .opened - 1 ≤ Bank.count { x with entries := x.entries.set i e' } .opened := by
  obtain ⟨hlt, -⟩ := List.getElem?_eq_some_iff.1 h
  simp only [Bank.count, List.countP_set hlt]
  split <;> omega

/-! ## A bank that empties -/

/-- A bank of the state `s` has emptied behind what `v` records: its names have left the counts, and a BANK record EMPTIED is the last. -/
structure State.Empties (b : BankId) (s v u : State) : Prop where
  bank : u.bank b = ⟨.empty, none, [], 0, none⟩
  other : u.bank b.other = s.bank b.other
  element : ∀ i, u.element i = (s.element i).map fun x => { x with refs := x.refs - (s.bank b).naming i }
  journal : u.journal = (v.withRecord (s.levelOf .timetable) (.bank b .emptied 0 0)).journal
  rest : u = { v with bankA := u.bankA, bankB := u.bankB, elements := u.elements, journal := u.journal }

variable (s : State) (b : BankId)

theorem State.emptyBank_only : s.emptyBank b = { s with
    bankA := (s.emptyBank b).bankA, bankB := (s.emptyBank b).bankB, elements := (s.emptyBank b).elements } := by
  have h := s.emptyBank_eq b
  generalize s.emptyBank b = u at h ⊢
  rw [h]
  cases b <;> rfl

theorem State.emptyBank_journal : (s.emptyBank b).journal = s.journal := by rw [State.emptyBank_only]

theorem State.emptyBank_tb : (s.emptyBank b).tb = s.tb := by rw [State.emptyBank_only]

/-- A RETIRING bank without OPEN entries settles: what became of the other bank, of the records and of the names is as in `s` (R118). -/
theorem State.empties_settleBank {b : BankId} {s v : State} (hstate : (v.bank b).state = .retiring)
    (hcount : (v.bank b).count .opened = 0) (hnames : (s.bank b).Names (v.bank b)) (hother : v.bank b.other = s.bank b.other)
    (helements : v.elements = s.elements) (hlevel : v.levelOf .timetable = s.levelOf .timetable) :
    State.Empties b s v (v.settleBank b) := by
  have hsettle : v.settleBank b = (v.emptyBank b).report (.bank b .emptied 0 0) := if_pos ⟨hstate, hcount⟩
  have hempty := v.emptyBank_only b
  have hemptyLevel : (v.emptyBank b).levelOf .timetable = s.levelOf .timetable := by
    rw [← hlevel, State.levelOf, State.emptyBank_journal]
    rfl
  rw [hsettle]
  refine ⟨?_, ?_, fun i => ?_, ?_, ?_⟩
  · rw [State.report_bank, State.bank_emptyBank, if_pos rfl]
    rfl
  · rw [State.report_bank, State.bank_emptyBank, if_neg b.other_ne, hother]
  · rw [State.report_element, State.element_emptyBank, hnames.naming, State.element, State.element, helements]
  · rw [State.report, classOf, hemptyLevel]
    show (v.emptyBank b).journal.offer (v.emptyBank b).tb.now _ = _
    rw [State.emptyBank_journal, State.emptyBank_tb]
    rfl
  · generalize v.emptyBank b = u at hempty ⊢
    rw [hempty]
    rfl

/-! ## Entries that close -/

/-- The state in which an entry has closed, its TIMETABLE RESULT recorded, and its bank is not settled yet (R108, R122, R126). -/
def State.entryRecorded (s : State) (r : EntryRef) (e : Entry) (status : EntryStatus) (dated : Dated) (ageLimit clamped : Bool)
    (result : Option MatchResult) : State :=
  (s.entryClosed r { e with status := status, closing := some dated, result := result }).offer
    ⟨s.levelOf .timetable, dated, ageLimit, clamped, .timetableResult r.bank r.index e.reference status result⟩

section Closing

variable {s} {r : EntryRef} {e : Entry} (h : s.entry r = some e) (status : EntryStatus) (dated : Dated) (ageLimit clamped : Bool)
  (result : Option MatchResult)

theorem State.entryRecorded_bank : (s.entryRecorded r e status dated ageLimit clamped result).bank r.bank =
    { s.bank r.bank with entries :=
      (s.bank r.bank).entries.set r.index { e with status := status, closing := some dated, result := result } } := by
  rw [State.entryRecorded, State.offer_bank, State.entryClosed, State.setOpenList_bank, State.setEntry_bank_same]

include h in
/-- Unless it takes the last OPEN entry of a RETIRING bank, a closing leaves the bank as it stands. -/
theorem State.closeEntry_stays (hstay : (s.bank r.bank).state ≠ .retiring ∨ 2 ≤ (s.bank r.bank).count .opened) :
    s.closeEntry r status dated ageLimit clamped result = s.entryRecorded r e status dated ageLimit clamped result := by
  rw [s.closeEntry_eq h, ← State.entryRecorded]
  unfold State.settleBank
  rw [State.entryRecorded_bank, if_neg]
  rintro ⟨hstate, hcount⟩
  have hset := Bank.count_opened_set h { e with status := status, closing := some dated, result := result }
  rcases hstay with hstay | hstay
  · exact hstay hstate
  · have hleft := hset.trans (Nat.le_of_eq hcount)
    omega

include h in
/-- The last OPEN entry of a RETIRING bank takes the bank with it (R118). -/
theorem State.closeEntry_empties (hstatus : status ≠ .opened) (hstate : (s.bank r.bank).state = .retiring)
    (hopen : e.status = .opened) (hlast : (s.bank r.bank).count .opened = 1) :
    State.Empties r.bank s (s.entryRecorded r e status dated ageLimit clamped result)
      (s.closeEntry r status dated ageLimit clamped result) := by
  rw [s.closeEntry_eq h, ← State.entryRecorded]
  have hbank := State.entryRecorded_bank (s := s) (r := r) (e := e) status dated ageLimit clamped result
  refine State.empties_settleBank ?_ ?_ ?_ ?_ ?_ ?_
  · rw [hbank]
    exact hstate
  · rw [hbank, Bank.count_opened_close h hopen hstatus, hlast]
  · rw [hbank]
    exact Bank.names_set h rfl
  · rw [State.entryRecorded, State.offer_bank, State.entryClosed, State.setOpenList_bank, State.setEntry_bank_other]
  · exact s.setBank_elements r.bank _
  · rw [State.entryRecorded, State.levelOf_offer]
    exact s.setBank_levelOf r.bank _ _

end Closing

/-! ## Retirement (R117, R118) -/

/-- The state in which a bank has retired and is not settled yet. -/
def State.bankRetired (s : State) (b : BankId) : State :=
  (s.setBank b ((s.bank b).retired s.tb.now)).withRecord (s.levelOf .timetable)
    (.bank b .retired ((s.bank b).count .pending) ((s.bank b).count .opened))

theorem State.retire_eq_settle : s.retire b = (s.bankRetired b).settleBank b := by
  rw [State.retire_eq, State.report, classOf, State.setBank_levelOf, State.bankRetired, State.withRecord, State.setBank_tb]
  rw [State.offer, State.setBank_tb]

theorem State.bankRetired_bank : (s.bankRetired b).bank b = (s.bank b).retired s.tb.now := by
  rw [← s.bank_setBank_same b ((s.bank b).retired s.tb.now)]
  cases b <;> rfl

theorem State.bankRetired_other : (s.bankRetired b).bank b.other = s.bank b.other := by
  rw [← s.bank_setBank_other b ((s.bank b).retired s.tb.now)]
  cases b <;> rfl

/-- A retirement closes no OPEN entry. -/
theorem Bank.count_opened_retired (x : Bank) (now : Dated) : (x.retired now).count .opened = x.count .opened := by
  rw [Bank.count, Bank.retired, List.countP_map]
  refine List.countP_congr fun e _ => ?_
  by_cases h : e.status = .pending <;> simp [h]

theorem State.retire_stays (h : 0 < (s.bank b).count .opened) : s.retire b = s.bankRetired b := by
  rw [State.retire_eq_settle, State.settleBank, State.bankRetired_bank, Bank.count_opened_retired, if_neg]
  rintro ⟨-, hnone⟩
  omega

theorem State.retire_empties (h : (s.bank b).count .opened = 0) : State.Empties b s (s.bankRetired b) (s.retire b) := by
  rw [State.retire_eq_settle]
  refine State.empties_settleBank ?_ ?_ ?_ (s.bankRetired_other b) (s.setBank_elements b _) ?_
  · rw [State.bankRetired_bank]
    rfl
  · rw [State.bankRetired_bank, Bank.count_opened_retired, h]
  · rw [State.bankRetired_bank]
    exact Bank.names_retired _ _
  · rw [State.bankRetired, State.levelOf, State.withRecord_journal, Journal.offer_classes, State.setBank_journal]
    rfl

end Sys2Proof.Machine
end

