-- ==== Sys2Proof/Proofs/BankRequests.lean ====
section
/-! PROOFS. Sys2Proof/Proofs/BankRequests.lean: LOAD HEADER, ARM, DISARM, ABANDON, CLEAR BANK and CANCEL ENTRY, state by state (R110,
R112 to R114, R127, R128). -/

namespace Sys2Proof.Machine

/-! ## Bank codes (R187) -/

theorem BankId.ofCode_none {n : Nat} (h : 2 ≤ n) : BankId.ofCode n = none := by
  unfold BankId.ofCode
  split
  case h_3 => rfl
  all_goals omega

variable (s : State) (b : BankId)

theorem bankRequest_named (f : BankId → State → Served) : bankRequest f [b.code] s = f b s := by
  rw [bankRequest, BankId.ofCode_code]

theorem bankRequest_unnamed (f : BankId → State → Served) {code : Byte} (h : 2 ≤ code.toNat) :
    bankRequest f [code] s = refuse s .range := by
  rw [bankRequest, BankId.ofCode_none h]

theorem reqCancelEntry_named (i1 i0 : Byte) : reqCancelEntry [b.code, i1, i0] s = s.cancelEntry ⟨b, ofBe [i1, i0]⟩ := by
  rw [reqCancelEntry, BankId.ofCode_code]

theorem reqCancelEntry_unnamed {code : Byte} (h : 2 ≤ code.toNat) (i1 i0 : Byte) :
    reqCancelEntry [code, i1, i0] s = refuse s .range := by
  rw [reqCancelEntry, BankId.ofCode_none h]

/-! ## LOAD HEADER (R110) -/

theorem reqLoadHeader_named (day : Day) {sec : Nat} (h : sec < 86400) :
    reqLoadHeader ([b.code] ++ be 2 day.toNat ++ be 3 sec) s = s.loadHeader b ⟨day, sec⟩ := by
  rw [be_two, be_three]
  simp only [List.cons_append, List.nil_append, reqLoadHeader, BankId.ofCode_code]
  rw [ofBe_three (by omega), ofBe_day, if_neg (by omega)]

theorem reqLoadHeader_refused {code d1 d0 s2 s1 s0 : Byte} (h : 2 ≤ code.toNat ∨ 86399 < ofBe [s2, s1, s0]) :
    reqLoadHeader [code, d1, d0, s2, s1, s0] s = refuse s .range := by
  rw [reqLoadHeader]
  split
  · rename_i hcode
    rw [if_pos]
    refine h.resolve_left fun h => ?_
    rw [BankId.ofCode_none h] at hcode
    cases hcode
  · rfl

theorem State.loadHeader_empty {b : BankId} (h : (s.bank b).state = .empty) (start : DaySec) : s.loadHeader b start =
    ⟨s.setBank b { s.bank b with state := .loading, start := some start, entries := [], nextToOpen := 0 },
      .done (be 2 start.day.toNat ++ be 3 start.sec ++ [1] ++ [0, 0])⟩ := by
  rw [State.loadHeader]
  dsimp only
  rw [h]
  rfl

theorem State.loadHeader_loading {b : BankId} (h : (s.bank b).state = .loading) (start : DaySec) : s.loadHeader b start =
    ⟨s.setBank b { s.bank b with start := some start },
      .done (be 2 start.day.toNat ++ be 3 start.sec ++ [1] ++ be 2 (s.bank b).entries.length)⟩ := by
  rw [State.loadHeader]
  dsimp only
  rw [h]
  rfl

theorem State.loadHeader_refused {b : BankId} (hempty : (s.bank b).state ≠ .empty) (hloading : (s.bank b).state ≠ .loading)
    (start : DaySec) : s.loadHeader b start = refuse s .state := by
  rw [State.loadHeader]
  dsimp only
  split
  · exact absurd ‹_› hempty
  · exact absurd ‹_› hloading
  · rfl

/-! ## ARM and DISARM (R114) -/

theorem State.armBank_done {b : BankId} (hloading : (s.bank b).state = .loading) (hentries : (s.bank b).entries ≠ [])
    (hother : (s.bank b.other).state ≠ .armed) :
    State.armBank b s = ⟨s.setBank b { s.bank b with state := .armed }, .done [2]⟩ := by
  rw [State.armBank]
  dsimp only
  rw [if_neg (by simp [hloading, hentries, hother]), State.answerBank, State.bank_setBank_same]
  rfl

theorem State.armBank_refused {b : BankId}
    (h : (s.bank b).state ≠ .loading ∨ (s.bank b).entries = [] ∨ (s.bank b.other).state = .armed) :
    State.armBank b s = refuse s .state := if_pos h

theorem State.disarmBank_done {b : BankId} (h : (s.bank b).state = .armed) :
    State.disarmBank b s = ⟨s.setBank b { s.bank b with state := .loading }, .done [1]⟩ := by
  rw [State.disarmBank]
  dsimp only
  rw [if_pos h, State.answerBank, State.bank_setBank_same]
  rfl

theorem State.disarmBank_refused {b : BankId} (h : (s.bank b).state ≠ .armed) : State.disarmBank b s = refuse s .state := if_neg h

/-! ## CLEAR BANK (R113) -/

theorem State.clearBank_empty {b : BankId} (h : (s.bank b).state = .empty) : State.clearBank b s = ⟨s, .done [0]⟩ := by
  rw [State.clearBank, h]
  dsimp only
  rw [State.answerBank, h]
  rfl

theorem State.clearBank_loading {b : BankId} (h : (s.bank b).state = .loading) :
    State.clearBank b s = ⟨s.emptyBank b, .done [0]⟩ := by
  rw [State.clearBank, h]
  dsimp only
  rw [State.answerBank, State.bank_emptyBank, if_pos rfl]
  rfl

theorem State.clearBank_refused {b : BankId}
    (h : (s.bank b).state = .armed ∨ (s.bank b).state = .active ∨ (s.bank b).state = .retiring) :
    State.clearBank b s = refuse s .state := by
  rw [State.clearBank]
  rcases h with h | h | h <;> rw [h]

/-- Settles O42: each request by the state of its bank. -/
theorem bankStatesByRequest : Obligations.BankStatesByRequest := by
  have hbank {s : State} (hs : s.ready) {r : Request} {b : BankId} (hp : r.params = [b.code]) (code : Byte)
      {f : BankId → State → Served} {t : State} {a : Reply} (hf : f b (s.taking code r) = ⟨t, a⟩) :
      (Host.Outcome.next (s.serve code r (bankRequest f)) : Outcome) = .next (t.respond code r a) :=
    s.next_serve hs code r (by rw [hp, bankRequest_named, hf])
  have hheader {s : State} (hs : s.ready) {r : Request} {b : BankId} {day : Day} {sec : Nat} (hsec : sec < 86400)
      (hp : r.params = [b.code] ++ be 2 day.toNat ++ be 3 sec) {t : State} {a : Reply}
      (hf : (s.taking 40 r).loadHeader b ⟨day, sec⟩ = ⟨t, a⟩) : exec (.loadHeader r) s = .next (t.respond 40 r a) :=
    s.next_serve hs 40 r (by rw [hp, reqLoadHeader_named _ b day hsec, hf])
  refine ⟨fun s r b hs => ⟨fun day sec hsec hp => ⟨fun h => ?_, fun h => ?_, fun h1 h2 => ?_⟩,
    fun hp h1 h2 h3 => ?_, fun hp h => ?_,
    fun hp h => ?_, fun hp h => ?_, fun hp h => ?_, fun hp h => ?_, fun hp h => ?_⟩, fun s r code hs =>
      ⟨fun hp hcode => ⟨?_, ?_, ?_⟩, fun d1 d0 s2 s1 s0 hp h => ?_⟩⟩
  · exact hheader hs hsec hp (State.loadHeader_empty (s.taking 40 r) h _)
  · exact hheader hs hsec hp (State.loadHeader_loading (s.taking 40 r) h _)
  · exact hheader hs hsec hp (State.loadHeader_refused (s.taking 40 r) h1 h2 _)
  · exact hbank hs hp 42 (State.armBank_done _ h1 h2 h3)
  · exact hbank hs hp 42 (State.armBank_refused _ h)
  · exact hbank hs hp 43 (State.disarmBank_done _ h)
  · exact hbank hs hp 43 (State.disarmBank_refused _ h)
  · exact hbank hs hp 45 (State.clearBank_empty _ h)
  · exact hbank hs hp 45 (State.clearBank_refused _ h)
  · refine ⟨(s.taking 45 r).emptyBank b, hbank hs hp 45 (State.clearBank_loading _ h), ?_, ?_, State.emptyBank_journal _ b,
      State.element_emptyBank _ b, State.emptyBank_only _ b⟩
    · rw [State.bank_emptyBank, if_pos rfl]
      rfl
    · rw [State.bank_emptyBank, if_neg b.other_ne]
      rfl
  · exact s.next_serve hs 42 r (by rw [hp, bankRequest_unnamed _ _ hcode]; rfl)
  · exact s.next_serve hs 43 r (by rw [hp, bankRequest_unnamed _ _ hcode]; rfl)
  · exact s.next_serve hs 45 r (by rw [hp, bankRequest_unnamed _ _ hcode]; rfl)
  · exact s.next_serve hs 40 r (by rw [hp, reqLoadHeader_refused _ h]; rfl)

/-! ## CANCEL ENTRY (R127) -/

theorem State.cancelEntry_absent {r : EntryRef} (h : s.entry r = none) : s.cancelEntry r = refuse s .range := by
  rw [State.cancelEntry, h]

theorem State.cancelEntry_final {r : EntryRef} {e : Entry} (h : s.entry r = some e) (hfinal : e.status.final = true) :
    s.cancelEntry r = refuse s .state := by
  rw [State.cancelEntry, h]
  exact if_pos hfinal

theorem State.cancelEntry_done {r : EntryRef} {e : Entry} (h : s.entry r = some e) (hopen : e.status = .pending ∨ e.status = .opened) :
    s.cancelEntry r = ⟨s.closeOwn r .cancelled, .done [if e.status = .opened then 1 else 0]⟩ := by
  rw [State.cancelEntry, h]
  dsimp only
  rcases hopen with hstatus | hstatus
  · rw [hstatus]
    rfl
  · rw [hstatus]
    rfl

/-! ## ABANDON (R128) -/

/-- The state in which the references of a bank have left the open list and its abandonment is recorded. -/
def State.abandonRecorded (s : State) (b : BankId) : State :=
  (s.setOpenList (s.openList.filter fun x => x.bank != b)).report
    (.bank b .abandoned ((s.bank b).count .opened) ((s.bank b).count .pending))

theorem State.abandonBank_active {b : BankId} (h : (s.bank b).state = .active) : State.abandonBank b s =
    ⟨(s.abandonRecorded b).emptyBank b, .done (be 2 ((s.bank b).count .opened) ++ be 2 ((s.bank b).count .pending))⟩ := if_pos h

theorem State.abandonBank_refused {b : BankId} (h : (s.bank b).state ≠ .active) : State.abandonBank b s = refuse s .state := if_neg h

theorem State.abandonRecorded_bank (c : BankId) : (s.abandonRecorded b).bank c = s.bank c := by
  rw [State.abandonRecorded, State.report_bank, State.setOpenList_bank]

/-- Settles O44: by the status of the entry and what its closing leaves of its bank, and by the state of an abandoned bank. -/
theorem cancelAndAbandonCloseEntries : Obligations.CancelAndAbandonCloseEntries := by
  refine ⟨fun s r b i1 i0 hs hp => ?_, fun s r b hs hp => ⟨fun h => ?_, fun h => ?_⟩, fun s r code hs hcode =>
    ⟨fun i1 i0 hp => ?_, fun hp => ?_⟩⟩
  · have hcancel {t : State} {a : Reply} (hf : (s.taking 46 r).cancelEntry ⟨b, ofBe [i1, i0]⟩ = ⟨t, a⟩) :
        exec (.cancelEntry r) s = .next (t.respond 46 r a) :=
      s.next_serve hs 46 r (by rw [hp, reqCancelEntry_named, hf])
    refine ⟨fun h => hcancel (State.cancelEntry_absent _ h), fun e h => ⟨fun hfinal => hcancel (State.cancelEntry_final _ h hfinal),
      fun v hopen hv => ?_⟩⟩
    have hentry : (s.taking 46 r).entry ⟨b, ofBe [i1, i0]⟩ = some e := h
    have hdone := hcancel (State.cancelEntry_done _ hentry hopen)
    have hrecorded : v = (s.taking 46 r).entryRecorded ⟨b, ofBe [i1, i0]⟩ e .cancelled s.tb.now false false none := by
      rw [hv]
      cases b <;> rfl
    refine ⟨fun hstay => ?_, fun hretiring hstatus hlast => ?_⟩
    · have hstays := State.closeEntry_stays hentry .cancelled s.tb.now false false none hstay
      rw [hdone, hrecorded, ← hstays]
      rfl
    · obtain ⟨hbank, hother, helement, hjournal, hrest⟩ := State.closeEntry_empties hentry .cancelled s.tb.now false
        false none (by decide) hretiring hstatus hlast
      rw [← hrecorded] at hjournal hrest
      rw [if_pos hstatus] at hdone
      exact ⟨_, hdone, hbank, hother, helement, hjournal, hrest⟩
  · have hempty := State.emptyBank_only ((s.taking 44 r).abandonRecorded b) b
    refine ⟨((s.taking 44 r).abandonRecorded b).emptyBank b,
      s.next_serve hs 44 r (by rw [hp, bankRequest_named, State.abandonBank_active (s.taking 44 r) h]; rfl), ?_, ?_, ?_,
      fun i => ?_, ?_, ?_⟩
    · rw [State.bank_emptyBank, if_pos rfl]
      rfl
    · rw [State.bank_emptyBank, if_neg b.other_ne, State.abandonRecorded_bank]
      rfl
    · rw [hempty]
      rfl
    · rw [State.element_emptyBank, State.abandonRecorded_bank]
      rfl
    · rw [State.emptyBank_journal]
      rfl
    · generalize ((s.taking 44 r).abandonRecorded b).emptyBank b = u at hempty ⊢
      rw [hempty]
      rfl
  · exact s.next_serve hs 44 r (by rw [hp, bankRequest_named, State.abandonBank_refused (s.taking 44 r) h]; rfl)
  · exact s.next_serve hs 46 r (by rw [hp, reqCancelEntry_unnamed _ hcode]; rfl)
  · exact s.next_serve hs 44 r (by rw [hp, bankRequest_unnamed _ _ hcode]; rfl)

end Sys2Proof.Machine
end

