-- ==== Sys2Proof/Proofs/LoadEntry.lean ====
section
/-! PROOFS. Sys2Proof/Proofs/LoadEntry.lean: LOAD ENTRY by the table of R111: its octets read, its tests in order, and the entry loaded
(R111, R112, R186). -/

namespace Sys2Proof.Machine

/-! ## The parameters (R186) -/

/-- The octets of a route list give it back. -/
theorem routeItems_octets (items : List RouteItem) (h : ∀ i ∈ items, i.point < 65536 ∧ i.position < 256) :
    routeItems (items.flatMap fun i => be 2 i.point ++ [BitVec.ofNat 8 i.position]) = some items := by
  induction items with
  | nil => rfl
  | cons i items ih =>
    obtain ⟨hpoint, hposition⟩ := h i (List.mem_cons_self ..)
    have hitem : (⟨ofBe (be 2 i.point), (BitVec.ofNat 8 i.position).toNat⟩ : RouteItem) = i := by
      rw [ofBe_be (by omega), BitVec.toNat_ofNat, Nat.mod_eq_of_lt hposition]
    rw [be_two] at hitem
    rw [List.flatMap_cons, be_two]
    simp only [List.cons_append, List.nil_append, routeItems, ih fun j hj => h j (List.mem_cons_of_mem i hj), Option.map_some, hitem]

/-- The parameters of an entry as LOAD ENTRY gives them, behind the bank. -/
structure GivenEntry where
  signal    : Nat
  time      : Nat
  early     : Nat
  late      : Nat
  reference : BitVec 32
  items     : List RouteItem

namespace GivenEntry

/-- The octets of the parameters behind the bank. -/
def octets (g : GivenEntry) : List Byte :=
  be 2 g.signal ++ be 3 g.time ++ be 2 g.early ++ be 2 g.late ++ be 4 g.reference.toNat ++
    g.items.flatMap fun i => be 2 i.point ++ [BitVec.ofNat 8 i.position]

/-- The entry as taken: PENDING, its tolerances clamped (R108, R111). -/
def entry (g : GivenEntry) : Entry :=
  ⟨g.signal, g.time, min 3600 g.early, min 7200 g.late, g.reference, g.items, .pending, none, none⟩

/-- The values fit their octets, and the route list holds 6 items at most (R186). -/
structure Fits (g : GivenEntry) : Prop where
  signal : g.signal < 65536
  time : g.time < 16777216
  early : g.early < 65536
  late : g.late < 65536
  length : g.items.length ≤ 6
  items : ∀ i ∈ g.items, i.point < 65536 ∧ i.position < 256

end GivenEntry

theorem takeSetting_upTo (hi raw : Nat) : takeSetting 0 hi 1 raw = ⟨min hi raw, decide (hi < raw)⟩ := by
  rw [takeSetting_unit 0 hi raw (Nat.zero_le _), Nat.zero_max, Taken.mk.injEq, Bool.eq_iff_iff, bne_iff_ne, decide_eq_true_iff]
  omega

variable (s : State)

section Request

variable {g : GivenEntry} (hg : g.Fits)

include hg in
/-- The request read: the bank's code first, and the entry by its octets. -/
theorem reqLoadEntry_eq (code : Byte) : reqLoadEntry (code :: g.octets) s =
    match BankId.ofCode code.toNat with
    | none => refuse s .range
    | some b => s.loadEntry b g.entry (decide (3600 < g.early ∨ 7200 < g.late)) := by
  obtain ⟨hsignal, htime, hearly, hlate, hlength, hitems⟩ := hg
  have hreference : BitVec.ofNat 32 (ofBe (be 4 g.reference.toNat)) = g.reference := by
    rw [ofBe_be g.reference.isLt, BitVec.ofNat_toNat, BitVec.setWidth_eq]
  rw [be_four] at hreference
  rw [GivenEntry.octets, be_two g.signal, be_two g.early, be_two g.late, be_three, be_four]
  simp only [List.cons_append, List.nil_append, reqLoadEntry, routeItems_octets _ hitems, if_neg (Nat.not_lt.2 hlength),
    ofBe_two hsignal, ofBe_two hearly, ofBe_two hlate, ofBe_three htime, hreference, takeSetting_upTo, Bool.decide_or]
  rfl

include hg in
theorem reqLoadEntry_named (b : BankId) : reqLoadEntry (b.code :: g.octets) s =
    s.loadEntry b g.entry (decide (3600 < g.early ∨ 7200 < g.late)) := by
  rw [reqLoadEntry_eq s hg, BankId.ofCode_code]

include hg in
theorem reqLoadEntry_unnamed {code : Byte} (h : 2 ≤ code.toNat) : reqLoadEntry (code :: g.octets) s = refuse s .range := by
  rw [reqLoadEntry_eq s hg, BankId.ofCode_none h]

end Request

/-! ## The tests (R111) -/

/-- The values of an entry lie within their bounds. -/
structure Entry.InRange (e : Entry) : Prop where
  signal : e.signal ≤ 2047
  scheduled : e.scheduled ≤ 100799
  items : ∀ i ∈ e.route, i.point ≤ 2047 ∧ (i.position = 1 ∨ i.position = 2)

theorem Entry.outOfRange_eq_false_iff {e : Entry} (hlength : e.route.length ≤ 6) : e.outOfRange = false ↔ e.InRange := by
  have hitem (i : RouteItem) : (decide (2047 < i.point) || !isEnd i.position) = false ↔
      i.point ≤ 2047 ∧ (i.position = 1 ∨ i.position = 2) := by
    rw [Bool.or_eq_false_iff, Bool.not_eq_false', isEnd_iff, decide_eq_false_iff_not, Nat.not_lt]
  simp only [Entry.outOfRange, Bool.or_eq_false_iff, decide_eq_false_iff_not, Nat.not_lt, List.any_eq_false, Bool.not_eq_true, hitem]
  exact ⟨fun ⟨⟨⟨h1, h2⟩, _⟩, h3⟩ => ⟨h1, h2, h3⟩, fun ⟨h1, h2, h3⟩ => ⟨⟨⟨h1, h2⟩, hlength⟩, h3⟩⟩

theorem Bank.outOfOrder_iff (x : Bank) (e : Entry) :
    x.outOfOrder e = true ↔ ∃ y, x.entries.getLast? = some y ∧ e.openTime < y.openTime := by
  rw [Bank.outOfOrder, Option.any_eq_true]
  simp only [decide_eq_true_iff]

section Tests

variable {s} {b : BankId} {e : Entry} {changed : Bool}

theorem State.loadEntry_state (h : (s.bank b).state ≠ .loading) : s.loadEntry b e changed = refuse s .state := if_pos h

variable (hloading : (s.bank b).state = .loading)

include hloading in
theorem State.loadEntry_busy (h : 3072 ≤ (s.bank b).entries.length) : s.loadEntry b e changed = refuse s .busy := by
  rw [State.loadEntry]
  rw [if_neg (not_not.2 hloading), if_pos h]

variable (hroom : (s.bank b).entries.length < 3072)

include hloading hroom in
theorem State.loadEntry_range (h : e.outOfRange = true) : s.loadEntry b e changed = refuse s .range := by
  rw [State.loadEntry]
  rw [if_neg (not_not.2 hloading), if_neg (Nat.not_le.2 hroom), if_pos h]

variable (hrange : e.outOfRange = false)

include hloading hroom hrange in
theorem State.loadEntry_kind (h : ¬ s.KindsFit e) : s.loadEntry b e changed = refuse s .kind := by
  rw [← State.wrongKind_eq_false_iff, Bool.not_eq_false] at h
  rw [State.loadEntry]
  rw [if_neg (not_not.2 hloading), if_neg (Nat.not_le.2 hroom), if_neg (by rw [hrange]; decide), if_pos h]

variable (hkinds : s.KindsFit e)

include hloading hroom hrange hkinds

theorem State.loadEntry_past_kinds : s.loadEntry b e changed =
    if ¬ (e.route.map RouteItem.point).Nodup then refuse s .order
    else if (s.bank b).outOfOrder e then refuse s .order
    else answerTaken (s.entryLoaded b e) changed
      (e.loadedOctets ++ be 2 (s.bank b).entries.length ++ be 3 e.openTime ++ be 3 e.closeTime) := by
  rw [← State.wrongKind_eq_false_iff] at hkinds
  rw [State.loadEntry]
  rw [if_neg (not_not.2 hloading), if_neg (Nat.not_le.2 hroom), if_neg (by rw [hrange]; decide), if_neg (by rw [hkinds]; decide)]
  rfl

theorem State.loadEntry_order (h : ¬ (e.route.map RouteItem.point).Nodup ∨ (s.bank b).outOfOrder e = true) :
    s.loadEntry b e changed = refuse s .order := by
  rw [State.loadEntry_past_kinds hloading hroom hrange hkinds]
  by_cases hpoints : (e.route.map RouteItem.point).Nodup
  · rw [if_neg (not_not.2 hpoints), if_pos (h.resolve_left (not_not.2 hpoints))]
  · rw [if_pos hpoints]

theorem State.loadEntry_done (hpoints : (e.route.map RouteItem.point).Nodup) (horder : (s.bank b).outOfOrder e = false) :
    s.loadEntry b e changed = answerTaken (s.entryLoaded b e) changed
      (e.loadedOctets ++ be 2 (s.bank b).entries.length ++ be 3 e.openTime ++ be 3 e.closeTime) := by
  rw [State.loadEntry_past_kinds hloading hroom hrange hkinds, if_neg (not_not.2 hpoints), if_neg (by rw [horder]; decide)]

end Tests

/-- A signal or a point that is absent or of another kind (R111). -/
theorem State.not_kindsFit {e : Entry}
    (h : (∀ x, s.element e.signal = some x → x.loaded.kind ≠ .signal ∨ x.loaded.timetabled = false) ∨
      ∃ i ∈ e.route, ∀ x, s.element i.point = some x → x.loaded.kind ≠ .point) : ¬ s.KindsFit e := by
  rintro ⟨⟨x, hx, hkind, htimetabled⟩, hpoints⟩
  rcases h with h | ⟨i, hi, h⟩
  · rcases h x hx with hne | hfalse
    · exact hne hkind
    · rw [hfalse] at htimetabled
      cases htimetabled
  · obtain ⟨y, hy, hpoint⟩ := hpoints i hi
    exact h y hy hpoint

/-- What the load leaves of the rest of the state. -/
theorem State.entryLoaded_rest (b : BankId) (e : Entry) : s.entryLoaded b e = { s with
    bankA := (s.entryLoaded b e).bankA, bankB := (s.entryLoaded b e).bankB, elements := (s.entryLoaded b e).elements } := by
  have h := s.entryLoaded_only b e
  generalize s.entryLoaded b e = u at h ⊢
  rw [h]
  cases b <;> rfl

/-- Settles O43: the request read, and each row of the table. -/
theorem loadEntryAppendsAndRefers : Obligations.LoadEntryAppendsAndRefers := by
  intro s r code signal time early late e l reference items hs hsignal htime hearly hlate hlength hitems he hl hp
  have hg : GivenEntry.Fits ⟨signal, time, early, late, reference, items⟩ := ⟨hsignal, htime, hearly, hlate, hlength, hitems⟩
  have hparams : r.params = code :: GivenEntry.octets ⟨signal, time, early, late, reference, items⟩ := by
    rw [hp]
    simp only [GivenEntry.octets, List.append_assoc, List.cons_append, List.nil_append]
  refine ⟨fun hcode => s.next_serve hs 41 r (by rw [hparams, reqLoadEntry_unnamed _ hg hcode]; rfl), fun b hb => ?_⟩
  subst hb he hl
  obtain ⟨x, hx⟩ : ∃ x : Entry,
      x = ⟨signal, time, min 3600 early, min 7200 late, reference, items, .pending, none, none⟩ := ⟨_, rfl⟩
  have hload {t : State} {a : Reply} (hf : (s.taking 41 r).loadEntry b x (decide (3600 < early ∨ 7200 < late)) = ⟨t, a⟩) :
      exec (.loadEntry r) s = .next (t.respond 41 r a) :=
    s.next_serve hs 41 r (by rw [hparams, reqLoadEntry_named _ hg, ← hf, hx]; rfl)
  have hrange : x.outOfRange = false ↔ x.InRange := Entry.outOfRange_eq_false_iff (by rw [hx]; exact hlength)
  refine ⟨fun h => hload (State.loadEntry_state h), fun h1 h2 => hload (State.loadEntry_busy h1 h2), fun hloading hroom => ⟨fun h => ?_,
    fun h1 h2 h3 => ?_⟩⟩
  · refine hload (State.loadEntry_range hloading hroom ?_)
    rw [← Bool.not_eq_false, hrange]
    rintro ⟨hin1, hin2, hin3⟩
    rw [hx] at hin1 hin2 hin3
    rcases h with h | h | ⟨i, hi, h⟩
    · exact Nat.not_le.2 h hin1
    · exact Nat.not_le.2 h hin2
    · have := hin3 i hi
      omega
  · have hin := hrange.2 (by rw [hx]; exact ⟨h1, h2, h3⟩)
    refine ⟨fun h => hload (State.loadEntry_kind hloading hroom hin (State.not_kindsFit _ (by rw [hx]; exact h))),
      fun hk1 hk2 => ?_⟩
    have hkinds : (s.taking 41 r).KindsFit x := by
      rw [hx]
      exact ⟨hk1, hk2⟩
    have hroute : x.route = items := by rw [hx]
    have hopen : x.openTime = time - min 3600 early := by rw [hx]; rfl
    have horder := Bank.outOfOrder_iff (s.bank b) x
    rw [hopen] at horder
    refine ⟨fun h => hload (State.loadEntry_order hloading hroom hin hkinds ?_), fun hpoints hlast =>
      ⟨(s.taking 41 r).entryLoaded b x, ?_, ?_, ?_, fun i hi => ?_, fun i hi1 hi2 => ?_, State.entryLoaded_rest _ b x⟩⟩
    · rw [hroute]
      exact h.imp_right horder.2
    · have hordered : (s.bank b).outOfOrder x = false := by
        rw [← Bool.not_eq_true, horder]
        rintro ⟨y, hy, hlt⟩
        exact Nat.not_le.2 hlt (hlast y hy)
      refine (hload (State.loadEntry_done hloading hroom hin hkinds (by rw [hroute]; exact hpoints) hordered)).trans ?_
      rw [hx]
      rfl
    · rw [State.entryLoaded_bank_same, hx]
      cases b <;> rfl
    · rw [State.entryLoaded_bank_other]
      cases b <;> rfl
    · have hnames := hkinds.names_nodup (by rw [hroute]; exact hpoints)
      have hmem : i ∈ x.names := by
        rw [hx]
        exact List.mem_cons.2 hi
      rw [State.entryLoaded, State.element_raiseRefs_named _ hnames hmem, State.setBank_element]
      rfl
    · have hmem : i ∉ x.names := by
        rw [hx]
        exact List.not_mem_cons_of_ne_of_not_mem hi1 hi2
      rw [State.entryLoaded, State.element_raiseRefs_other _ _ hmem, State.setBank_element]
      rfl

end Sys2Proof.Machine
end

