-- ==== Sys2Proof/Proofs/OpenListOrder.lean ====
section
/-! PROOFS. Sys2Proof/Proofs/OpenListOrder.lean: the order of two references by an instant of their entries, on one count of seconds for
both banks (R109, R122, R123). -/

namespace Sys2Proof.Machine

/-! ## Instants of two banks (R109) -/

/-- The starts of two banks lie near enough for their instants to have one order. -/
structure DaySec.Near (a b : DaySec) : Prop where
  left : a.sec < 86400
  right : b.sec < 86400
  above : -32000 ≤ dayDiff a.day b.day
  below : dayDiff a.day b.day ≤ 32000

/-- The seconds from one start to another, each day counted with 86,400. -/
def DaySec.gap (a b : DaySec) : Int := dayDiff a.day b.day * 86400 + ((a.sec : Int) - b.sec)

theorem dayDiff_self (d : Day) : dayDiff d d = 0 := by
  rw [dayDiff, BitVec.sub_self]
  rfl

theorem dayDiff_neg {a b : Day} (h : -32000 ≤ dayDiff a b) : dayDiff b a = -dayDiff a b := by
  simp only [dayDiff, BitVec.toInt_sub, Int.bmod_def] at h ⊢
  omega

theorem DaySec.near_self {a : DaySec} (h : a.sec < 86400) : a.Near a := by
  refine ⟨h, h, ?_, ?_⟩ <;> rw [dayDiff_self] <;> decide

theorem DaySec.Near.symm {a b : DaySec} (h : a.Near b) : b.Near a := by
  obtain ⟨hleft, hright, habove, hbelow⟩ := h
  have hneg := dayDiff_neg habove
  exact ⟨hright, hleft, by omega, by omega⟩

theorem DaySec.Near.gap_neg {a b : DaySec} (h : a.Near b) : b.gap a = -a.gap b := by
  rw [DaySec.gap, DaySec.gap, dayDiff_neg h.above]
  omega

theorem DaySec.gap_self (a : DaySec) : a.gap a = 0 := by
  rw [DaySec.gap, dayDiff_self]
  omega

/-- The days that a few whole days are added to differ by as much more. -/
theorem dayDiff_add {a b : Day} {m n : Nat} (hm : m ≤ 2) (hn : n ≤ 2) (habove : -32000 ≤ dayDiff a b)
    (hbelow : dayDiff a b ≤ 32000) : dayDiff (a + BitVec.ofNat 16 m) (b + BitVec.ofNat 16 n) = dayDiff a b + (m : Int) - n := by
  have hfew : (BitVec.ofNat 16 m - BitVec.ofNat 16 n).toInt = (m : Int) - n := by
    interval_cases m <;> interval_cases n <;> rfl
  have hsplit : a + BitVec.ofNat 16 m - (b + BitVec.ofNat 16 n) = (a - b) + (BitVec.ofNat 16 m - BitVec.ofNat 16 n) :=
    add_sub_add_comm a _ b _
  simp only [dayDiff] at habove hbelow ⊢
  rw [hsplit, BitVec.toInt_add, hfew, Int.bmod_eq_of_le (by omega) (by omega)]
  omega

/-- Near starts compare their instants by the count of seconds (R109). -/
theorem DaySec.before_plus_iff {a b : DaySec} (h : a.Near b) {m n : Nat} (hm : m ≤ 100799) (hn : n ≤ 100799) :
    (a.plus m).before (b.plus n) = true ↔ a.gap b + ((m : Int) - n) < 0 := by
  obtain ⟨hleft, hright, habove, hbelow⟩ := h
  have hdays : dayDiff (a.plus m).day (b.plus n).day =
      dayDiff a.day b.day + ((a.sec + m) / 86400 : Nat) - ((b.sec + n) / 86400 : Nat) :=
    dayDiff_add (by omega) (by omega) habove hbelow
  have hsecs : (a.plus m).sec = (a.sec + m) % 86400 ∧ (b.plus n).sec = (b.sec + n) % 86400 := ⟨rfl, rfl⟩
  simp only [DaySec.before, Bool.or_eq_true, Bool.and_eq_true, decide_eq_true_iff, hdays, hsecs, DaySec.gap]
  omega

/-! ## The order of references (R122, R123) -/

variable (s : State)

/-- A reference comes ahead of another of the same instant: by its bank's activation, or in one bank by its index. -/
def State.Ahead (s : State) (x y : EntryRef) : Prop :=
  (x.bank = y.bank ∧ x.index < y.index) ∨
    (x.bank ≠ y.bank ∧ ∃ m n, (s.bank x.bank).order = some m ∧ (s.bank y.bank).order = some n ∧ m < n)

theorem State.older_iff (b c : BankId) :
    s.older b c = true ↔ ∃ m n, (s.bank b).order = some m ∧ (s.bank c).order = some n ∧ m < n := by
  unfold State.older
  split
  · rename_i m n hm hn
    simp [hm, hn]
  · rename_i hnone
    simp only [Bool.false_eq_true, false_iff]
    rintro ⟨m, n, hm, hn, -⟩
    exact hnone m n hm hn

theorem State.Ahead.asymm {s : State} {x y : EntryRef} (h : s.Ahead x y) : ¬ s.Ahead y x := by
  rcases h with ⟨hbank, hlt⟩ | ⟨hbank, m, n, hm, hn, hlt⟩
  · rintro (⟨-, hgt⟩ | ⟨hne, -⟩)
    · omega
    · exact hne hbank.symm
  · rintro (⟨heq, -⟩ | ⟨-, k, l, hk, hl, hgt⟩)
    · exact hbank heq.symm
    · rw [hn] at hk
      rw [hm] at hl
      cases hk
      cases hl
      omega

theorem BankId.eq_of_ne_of_ne {a b c : BankId} (h : a ≠ b) (k : b ≠ c) : a = c := by
  cases a <;> cases b <;> cases c <;> simp_all

theorem State.Ahead.trans {s : State} {x y z : EntryRef} (h : s.Ahead x y) (k : s.Ahead y z) : s.Ahead x z := by
  rcases h with ⟨hbank, hlt⟩ | ⟨hbank, hless⟩
  · rcases k with ⟨kbank, klt⟩ | ⟨kbank, kless⟩
    · exact .inl ⟨hbank.trans kbank, hlt.trans klt⟩
    · rw [← hbank] at kbank kless
      exact .inr ⟨kbank, kless⟩
  · rcases k with ⟨kbank, -⟩ | ⟨kbank, kless⟩
    · rw [kbank] at hbank hless
      exact .inr ⟨hbank, hless⟩
    · have hsame : x.bank = z.bank := BankId.eq_of_ne_of_ne hbank kbank
      have hyx : s.Ahead y x := .inr ⟨hbank.symm, by rw [hsame]; exact kless⟩
      exact absurd (.inr ⟨hbank, hless⟩) hyx.asymm

/-- An entry with an instant in its range and the start of its bank. -/
structure State.Placed (s : State) (instant : Entry → Nat) (x : EntryRef) (e : Entry) (start : DaySec) : Prop where
  entry : s.entry x = some e
  start : (s.bank x.bank).start = some start
  bound : instant e ≤ 100799

section Placed

variable {s} {instant : Entry → Nat} {x y : EntryRef} {ex ey : Entry} {sx sy : DaySec}

/-- The order of two placed references, by the seconds of the one ahead of the other. -/
theorem State.refBefore_iff (hx : s.Placed instant x ex sx) (hy : s.Placed instant y ey sy) (hnear : sx.Near sy) :
    s.refBefore instant x y = true ↔ sx.gap sy + ((instant ex : Int) - instant ey) < 0 ∨
      (sx.gap sy + ((instant ex : Int) - instant ey) = 0 ∧ s.Ahead x y) := by
  obtain ⟨hex, hsx, hbx⟩ := hx
  obtain ⟨hey, hsy, hby⟩ := hy
  have hbefore := DaySec.before_plus_iff hnear hbx hby
  have hbehind := DaySec.before_plus_iff hnear.symm hby hbx
  rw [hnear.gap_neg] at hbehind
  have hunfold : s.refBefore instant x y =
      if (sx.plus (instant ex)).before (sy.plus (instant ey)) then true
      else if (sy.plus (instant ey)).before (sx.plus (instant ex)) then false
      else if x.bank = y.bank then decide (x.index < y.index)
      else s.older x.bank y.bank := by
    rw [State.refBefore, hex, hey, hsx, hsy]
  rw [hunfold]
  split
  · rename_i h
    rw [hbefore] at h
    exact ⟨fun _ => .inl h, fun _ => rfl⟩
  · rename_i h
    rw [hbefore] at h
    split
    · rename_i h'
      rw [hbehind] at h'
      constructor
      · exact nofun
      · omega
    · rename_i h'
      rw [hbehind] at h'
      have hzero : sx.gap sy + ((instant ex : Int) - instant ey) = 0 := by omega
      split
      · rename_i hbank
        rw [decide_eq_true_iff]
        refine ⟨fun hlt => .inr ⟨hzero, .inl ⟨hbank, hlt⟩⟩, fun hor => ?_⟩
        obtain ⟨-, ⟨-, hlt⟩ | ⟨hne, -⟩⟩ := hor.resolve_left h
        · exact hlt
        · exact absurd hbank hne
      · rename_i hbank
        rw [State.older_iff]
        refine ⟨fun hless => .inr ⟨hzero, .inr ⟨hbank, hless⟩⟩, fun hor => ?_⟩
        obtain ⟨-, ⟨heq, -⟩ | ⟨-, hless⟩⟩ := hor.resolve_left h
        · exact absurd heq hbank
        · exact hless

theorem State.refBefore_asymm (hx : s.Placed instant x ex sx) (hy : s.Placed instant y ey sy) (hnear : sx.Near sy)
    (h : s.refBefore instant x y = true) : s.refBefore instant y x = false := by
  rw [State.refBefore_iff hx hy hnear] at h
  rw [← Bool.not_eq_true, State.refBefore_iff hy hx hnear.symm, hnear.gap_neg]
  rcases h with h | ⟨h, hahead⟩
  · rintro (h' | ⟨h', -⟩) <;> omega
  · rintro (h' | ⟨-, hbehind⟩)
    · omega
    · exact hahead.asymm hbehind

end Placed

/-- Only placed references compare. -/
theorem State.placed_of_refBefore {s : State} {instant : Entry → Nat} (hbound : ∀ e, instant e ≤ 100799) {x y : EntryRef}
    (h : s.refBefore instant x y = true) : (∃ e start, s.Placed instant x e start) ∧ ∃ e start, s.Placed instant y e start := by
  unfold State.refBefore at h
  split at h
  · rename_i ex ey sx sy hex hey hsx hsy
    exact ⟨⟨ex, sx, hex, hsx, hbound ex⟩, ⟨ey, sy, hey, hsy, hbound ey⟩⟩
  · cases h

theorem State.startsNear.near {s : State} (h : s.startsNear) {b c : BankId} {x y : DaySec} (hx : (s.bank b).start = some x)
    (hy : (s.bank c).start = some y) : x.Near y := by
  obtain ⟨hsec, hdays⟩ := h
  have hsecx := hsec b x hx
  have hsecy := hsec c y hy
  by_cases hbc : b = c
  · subst hbc
    rw [hx] at hy
    cases hy
    exact DaySec.near_self hsecx
  · cases b with
    | bankA =>
      cases c with
      | bankA => exact absurd rfl hbc
      | bankB =>
        obtain ⟨habove, hbelow⟩ := hdays x y hx hy
        exact ⟨hsecx, hsecy, habove, hbelow⟩
    | bankB =>
      cases c with
      | bankA =>
        obtain ⟨habove, hbelow⟩ := hdays y x hy hx
        exact DaySec.Near.symm ⟨hsecy, hsecx, habove, hbelow⟩
      | bankB => exact absurd rfl hbc

/-- The seconds between the starts of the banks add up. -/
theorem State.startsNear.gap_add {s : State} (h : s.startsNear) {b c d : BankId} {x y z : DaySec} (hx : (s.bank b).start = some x)
    (hy : (s.bank c).start = some y) (hz : (s.bank d).start = some z) : x.gap z = x.gap y + y.gap z := by
  by_cases hbc : b = c
  · subst hbc
    rw [hx] at hy
    cases hy
    rw [DaySec.gap_self, Int.zero_add]
  · by_cases hcd : c = d
    · subst hcd
      rw [hy] at hz
      cases hz
      rw [DaySec.gap_self, Int.add_zero]
    · have hbd := BankId.eq_of_ne_of_ne hbc hcd
      subst hbd
      rw [hx] at hz
      cases hz
      rw [(h.near hx hy).gap_neg, DaySec.gap_self]
      omega

theorem State.refBefore_trans {s : State} (h : s.startsNear) {instant : Entry → Nat} (hbound : ∀ e, instant e ≤ 100799)
    {x y z : EntryRef} (hxy : s.refBefore instant x y = true) (hyz : s.refBefore instant y z = true) :
    s.refBefore instant x z = true := by
  obtain ⟨⟨ex, sx, hx⟩, ey, sy, hy⟩ := State.placed_of_refBefore hbound hxy
  obtain ⟨-, ez, sz, hz⟩ := State.placed_of_refBefore hbound hyz
  rw [State.refBefore_iff hx hy (h.near hx.start hy.start)] at hxy
  rw [State.refBefore_iff hy hz (h.near hy.start hz.start)] at hyz
  rw [State.refBefore_iff hx hz (h.near hx.start hz.start), h.gap_add hx.start hy.start hz.start]
  rcases hxy with hxy | ⟨hxy, hahead⟩
  · rcases hyz with hyz | ⟨hyz, -⟩ <;> exact .inl (by omega)
  · rcases hyz with hyz | ⟨hyz, hahead'⟩
    · exact .inl (by omega)
    · exact .inr ⟨by omega, hahead.trans hahead'⟩

theorem Entry.closeTime_le (e : Entry) : e.closeTime ≤ 100799 := Nat.min_le_left _ _

theorem State.refBefore_not_symm {s : State} (h : s.startsNear) {instant : Entry → Nat} (hbound : ∀ e, instant e ≤ 100799)
    {x y : EntryRef} (hxy : s.refBefore instant x y = true) : s.refBefore instant y x = false := by
  obtain ⟨⟨ex, sx, hx⟩, ey, sy, hy⟩ := State.placed_of_refBefore hbound hxy
  exact State.refBefore_asymm hx hy (h.near hx.start hy.start) hxy

end Sys2Proof.Machine
end

