-- ==== Sys2Proof/Proofs/Clearings.lean ====
section
/-! PROOFS. Sys2Proof/Proofs/Clearings.lean: the winner among the candidates of a clearing, what its closing leaves, and the judgement
of its route (R118, R123 to R126). -/

namespace Sys2Proof.Machine

/-! ## The winner (R123) -/

variable (s : State)

theorem State.isCandidate_iff (signal : Nat) (r : EntryRef) :
    s.isCandidate signal r = true ↔ ∃ e, s.entry r = some e ∧ e.signal = signal := by
  unfold State.isCandidate
  split
  · rename_i e he
    simp [he]
  · rename_i he
    simp [he]

/-- The better of the best reference so far and the next one. -/
def State.better (s : State) (best : Option EntryRef) (r : EntryRef) : Option EntryRef :=
  match best with
  | none => some r
  | some b => if s.refBefore Entry.scheduled r b then some r else some b

theorem State.winner_eq (signal : Nat) :
    s.winner signal = (s.openList.filter (s.isCandidate signal)).foldl s.better none := rfl

/-- The choice stays with what it has seen. -/
theorem State.foldl_better_mem (l : List EntryRef) (b : EntryRef) : ∃ r, l.foldl s.better (some b) = some r ∧ (r = b ∨ r ∈ l) := by
  induction l generalizing b with
  | nil => exact ⟨b, rfl, .inl rfl⟩
  | cons x l ih =>
    rw [List.foldl_cons, State.better]
    split
    · obtain ⟨r, hr, hmem⟩ := ih x
      exact ⟨r, hr, .inr (List.mem_cons.2 hmem)⟩
    · obtain ⟨r, hr, hmem⟩ := ih b
      exact ⟨r, hr, hmem.imp_right (List.mem_cons_of_mem x)⟩

theorem State.winner_none {signal : Nat} (h : ∀ r ∈ s.openList, ∀ e, s.entry r = some e → e.signal ≠ signal) :
    s.winner signal = none := by
  have hnone : s.openList.filter (s.isCandidate signal) = [] := by
    rw [List.filter_eq_nil_iff]
    intro r hr hcandidate
    obtain ⟨e, he, hsignal⟩ := (s.isCandidate_iff signal r).1 hcandidate
    exact h r hr e he hsignal
  rw [State.winner_eq, hnone]
  rfl

/-- Among candidates one wins. -/
theorem State.winner_some {signal : Nat} (h : ∃ r ∈ s.openList, ∃ e, s.entry r = some e ∧ e.signal = signal) :
    ∃ r ∈ s.openList, ∃ e, s.winner signal = some r ∧ s.entry r = some e ∧ e.signal = signal := by
  obtain ⟨r, hr, hcandidate⟩ := h
  have hmem : r ∈ s.openList.filter (s.isCandidate signal) := List.mem_filter.2 ⟨hr, (s.isCandidate_iff signal r).2 hcandidate⟩
  rw [State.winner_eq]
  cases hl : s.openList.filter (s.isCandidate signal) with
  | nil =>
    rw [hl] at hmem
    cases hmem
  | cons x l =>
    obtain ⟨w, hw, hin⟩ := s.foldl_better_mem l x
    have hfound : w ∈ s.openList.filter (s.isCandidate signal) := by
      rw [hl]
      exact List.mem_cons.2 hin
    obtain ⟨hopen, hwins⟩ := List.mem_filter.1 hfound
    obtain ⟨e, he, hsignal⟩ := (s.isCandidate_iff signal w).1 hwins
    exact ⟨w, hopen, e, hw, he, hsignal⟩

/-- A reference comes ahead of all others of a list. -/
def State.First (s : State) (r : EntryRef) (l : List EntryRef) : Prop :=
  ∀ x ∈ l, x ≠ r → s.refBefore Entry.scheduled r x = true ∧ s.refBefore Entry.scheduled x r = false

theorem State.foldl_better_held {r : EntryRef} {l : List EntryRef} (h : s.First r l) : l.foldl s.better (some r) = some r := by
  induction l with
  | nil => rfl
  | cons x l ih =>
    have hkept : s.better (some r) x = some r := by
      by_cases hx : x = r
      · rw [hx, State.better, ite_self]
      · obtain ⟨-, hbehind⟩ := h x (List.mem_cons_self ..) hx
        rw [State.better, if_neg (by rw [hbehind]; decide)]
    rw [List.foldl_cons, hkept]
    exact ih fun y hy => h y (List.mem_cons_of_mem x hy)

/-- The first of all wins, whatever was best before it. -/
theorem State.foldl_better_first {r : EntryRef} {l : List EntryRef} (hr : r ∈ l) (h : s.First r l) (best : Option EntryRef)
    (hbest : ∀ b, best = some b → b ≠ r → s.refBefore Entry.scheduled r b = true) : l.foldl s.better best = some r := by
  induction l generalizing best with
  | nil => cases hr
  | cons x l ih =>
    have hrest : s.First r l := fun y hy => h y (List.mem_cons_of_mem x hy)
    rw [List.foldl_cons]
    by_cases hx : x = r
    · subst hx
      have htaken : s.better best x = some x := by
        unfold State.better
        split
        · rfl
        · rename_i b
          by_cases hb : b = x
          · rw [hb, ite_self]
          · rw [if_pos (hbest b rfl hb)]
      rw [htaken]
      exact s.foldl_better_held hrest
    · have hmem : r ∈ l := (List.mem_cons.1 hr).resolve_left fun h => hx h.symm
      have hahead := (h x (List.mem_cons_self ..) hx).1
      refine ih hmem hrest _ fun b hb hne => ?_
      unfold State.better at hb
      split at hb
      · cases hb
        exact hahead
      · rename_i c
        split at hb
        · cases hb
          exact hahead
        · cases hb
          exact hbest _ rfl hne

theorem State.winner_first {signal : Nat} {r : EntryRef} (hr : r ∈ s.openList) (hcandidate : s.isCandidate signal r = true)
    (h : ∀ x ∈ s.openList, x ≠ r → s.isCandidate signal x = true →
      s.refBefore Entry.scheduled r x = true ∧ s.refBefore Entry.scheduled x r = false) : s.winner signal = some r := by
  rw [State.winner_eq]
  refine s.foldl_better_first (List.mem_filter.2 ⟨hr, hcandidate⟩) (fun x hx hne => ?_) none nofun
  obtain ⟨hopen, hcand⟩ := List.mem_filter.1 hx
  exact h x hopen hne hcand

/-- Of two in one bank the one scheduled earlier wins, and of equal ones that of the lower index. -/
theorem State.winner_pair {x y : EntryRef} {ex ey : Entry} {start : DaySec} (hlist : s.openList = [x, y]) (hex : s.entry x = some ex)
    (hey : s.entry y = some ey) (hsignal : ex.signal = ey.signal) (hbank : x.bank = y.bank) (hstart : (s.bank x.bank).start = some start)
    (hsec : start.sec < 86400) (hbx : ex.scheduled ≤ 100799) (hby : ey.scheduled ≤ 100799) : s.winner ex.signal =
      if ey.scheduled < ex.scheduled ∨ (ey.scheduled = ex.scheduled ∧ y.index < x.index) then some y else some x := by
  have hcx : s.isCandidate ex.signal x = true := (s.isCandidate_iff _ x).2 ⟨ex, hex, rfl⟩
  have hcy : s.isCandidate ex.signal y = true := (s.isCandidate_iff _ y).2 ⟨ey, hey, hsignal.symm⟩
  have hcandidates : s.openList.filter (s.isCandidate ex.signal) = [x, y] := by
    rw [hlist, List.filter_cons_of_pos hcx, List.filter_cons_of_pos hcy, List.filter_nil]
  have hbefore : s.refBefore Entry.scheduled y x = true ↔
      ey.scheduled < ex.scheduled ∨ (ey.scheduled = ex.scheduled ∧ y.index < x.index) := by
    have hahead : s.Ahead y x ↔ y.index < x.index := by
      rw [State.Ahead]
      simp [hbank]
    rw [State.refBefore_iff ⟨hey, hbank ▸ hstart, hby⟩ ⟨hex, hstart, hbx⟩ (DaySec.near_self hsec), DaySec.gap_self, hahead]
    omega
  rw [State.winner_eq, hcandidates]
  simp only [List.foldl_cons, List.foldl_nil, State.better, hbefore]

/-! ## The closing (R118, R126) -/

theorem State.running_iff (b : BankId) : s.running b = true ↔ (s.bank b).state = .active ∨ (s.bank b).state = .retiring := by
  rw [State.running, Bool.or_eq_true, beq_iff_eq, beq_iff_eq]

theorem State.clearing_idle (h : ∀ b, (s.bank b).state ≠ .active ∧ (s.bank b).state ≠ .retiring) (c : Change) :
    s.clearing c = s := by
  have hidle (b : BankId) : s.running b = false := by
    rw [← Bool.not_eq_true, State.running_iff]
    exact not_or.2 (h b)
  rw [State.clearing, hidle, hidle]
  rfl

/-- With a bank running, the clearing goes to the winner, and to the journal without one. -/
theorem State.clearing_running {b : BankId} (h : (s.bank b).state = .active ∨ (s.bank b).state = .retiring) (c : Change) :
    (s.winner c.element = none →
      s.clearing c = s.offer ⟨s.levelOf .timetable, c.dated, c.ageLimit, c.clamped, .unscheduledClearing c.element⟩) ∧
    ∀ r e, s.winner c.element = some r → s.entry r = some e → s.clearing c =
      s.closeEntry r .matched c.dated c.ageLimit c.clamped (some (s.matchResult r.bank e c.dated.stamp)) := by
  have hrunning : (s.running .bankA || s.running .bankB) = true := by
    rw [Bool.or_eq_true]
    rw [← State.running_iff] at h
    cases b with
    | bankA => exact .inl h
    | bankB => exact .inr h
  refine ⟨fun hw => ?_, fun r e hw he => ?_⟩
  · rw [State.clearing, if_pos hrunning, hw]
    rfl
  · rw [State.clearing, if_pos hrunning, hw]
    dsimp only
    rw [he]

/-! ## The route (R125) -/

theorem State.shows_unique {s : State} {i : RouteItem} {v w : Nat} (hv : s.shows i v) (hw : s.shows i w) : v = w := by
  obtain ⟨f, hf, -, -, hacceptedv⟩ := hv
  obtain ⟨f', hf', -, -, hacceptedw⟩ := hw
  rw [hf] at hf'
  cases hf'
  rw [hacceptedv] at hacceptedw
  exact Option.some.inj hacceptedw

theorem State.judgeItem_shown {s : State} {i : RouteItem} {v : Nat} (h : s.shows i v) :
    s.judgeItem i = if v = i.position then .isSet else .mismatched := by
  obtain ⟨f, hf, hstale, hsup, haccepted⟩ := h
  rw [State.judgeItem, hf]
  simp [hstale, hsup, haccepted, Supervision.active]

theorem State.judgeItem_unverified {s : State} {i : RouteItem} (h : ¬ s.verifies i) : s.judgeItem i = .unverified := by
  rw [State.judgeItem]
  split
  · rfl
  · rename_i f hf
    rw [if_pos]
    by_contra hcond
    simp only [Bool.or_eq_true, not_or, Bool.not_eq_true] at hcond
    obtain ⟨⟨hstale, haccepted⟩, hactive⟩ := hcond
    cases hv : f.accepted with
    | none =>
      rw [hv] at haccepted
      cases haccepted
    | some v =>
      refine h ⟨v, f, hf, hstale, ?_, hv⟩
      by_contra hsup
      rw [(Supervision.active_iff f.sup).2 hsup] at hactive
      cases hactive

theorem State.judgeItem_mismatched_iff (i : RouteItem) :
    s.judgeItem i = .mismatched ↔ ∃ v, s.shows i v ∧ v ≠ i.position := by
  by_cases h : s.verifies i
  · obtain ⟨v, hv⟩ := h
    rw [State.judgeItem_shown hv]
    split
    · rename_i hset
      simp only [reduceCtorEq, false_iff]
      rintro ⟨w, hw, hne⟩
      exact hne ((State.shows_unique hw hv).trans hset)
    · rename_i hset
      exact ⟨fun _ => ⟨v, hv, hset⟩, fun _ => rfl⟩
  · rw [State.judgeItem_unverified h]
    simp only [reduceCtorEq, false_iff]
    rintro ⟨v, hv, -⟩
    exact h ⟨v, hv⟩

theorem State.judgeItem_unverified_iff (i : RouteItem) : s.judgeItem i = .unverified ↔ ¬ s.verifies i := by
  refine ⟨?_, State.judgeItem_unverified⟩
  rintro h ⟨v, hv⟩
  rw [State.judgeItem_shown hv] at h
  split at h <;> cases h

/-- The route result of judged items, by the number of those that show another end and by whether one cannot be judged. -/
theorem routeResult_mismatches (l : List ItemJudgement) : (routeResult l).2.1 = l.count .mismatched := by
  unfold routeResult
  dsimp only
  split
  · rfl
  · rename_i h
    split <;> exact (Nat.eq_zero_of_not_pos h).symm

theorem routeResult_mismatch {l : List ItemJudgement} {k : Nat} (h : l[k]? = some .mismatched)
    (hfirst : ∀ j < k, l[j]? ≠ some .mismatched) : routeResult l = (.mismatch, l.count .mismatched, some k) := by
  obtain ⟨hlt, hget⟩ := List.getElem?_eq_some_iff.1 h
  have hcount : 0 < l.count .mismatched := List.count_pos_iff.2 (List.mem_of_getElem? h)
  have hindex : l.findIdx? (· == .mismatched) = some k := by
    rw [List.findIdx?_eq_some_iff_getElem]
    refine ⟨hlt, by rw [hget]; rfl, fun j hj => ?_⟩
    have := hfirst j hj
    rw [List.getElem?_eq_getElem (hj.trans hlt)] at this
    simpa using this
  rw [routeResult]
  rw [if_pos hcount, hindex]

theorem routeResult_unverified {l : List ItemJudgement} {k : Nat} (hnone : ItemJudgement.mismatched ∉ l)
    (h : l[k]? = some .unverified) (hfirst : ∀ j < k, l[j]? ≠ some .unverified) : routeResult l = (.unverified, 0, some k) := by
  obtain ⟨hlt, hget⟩ := List.getElem?_eq_some_iff.1 h
  have hindex : l.findIdx? (· == .unverified) = some k := by
    rw [List.findIdx?_eq_some_iff_getElem]
    refine ⟨hlt, by rw [hget]; rfl, fun j hj => ?_⟩
    have := hfirst j hj
    rw [List.getElem?_eq_getElem (hj.trans hlt)] at this
    simpa using this
  rw [routeResult]
  rw [List.count_eq_zero.2 hnone, if_neg (Nat.lt_irrefl 0), if_pos (List.contains_iff_mem.2 (List.mem_of_getElem? h)), hindex]

theorem routeResult_ok {l : List ItemJudgement} (h : ∀ x ∈ l, x = .isSet) : routeResult l = (.ok, 0, none) := by
  have hmismatched : ItemJudgement.mismatched ∉ l := fun hmem => ItemJudgement.noConfusion (h _ hmem)
  have hunverified : ItemJudgement.unverified ∉ l := fun hmem => ItemJudgement.noConfusion (h _ hmem)
  rw [routeResult]
  rw [List.count_eq_zero.2 hmismatched, if_neg (Nat.lt_irrefl 0), if_neg fun hmem => hunverified (List.contains_iff_mem.1 hmem)]

theorem State.matchResult_route (b : BankId) (e : Entry) (stamp : Stamp) : ((s.matchResult b e stamp).route,
    (s.matchResult b e stamp).mismatches, (s.matchResult b e stamp).item) = routeResult (e.route.map s.judgeItem) := rfl

/-- The points that show another end are counted. -/
theorem State.mismatches_eq_countP {route : List RouteItem} {differs : RouteItem → Bool}
    (h : ∀ i ∈ route, differs i = true ↔ ∃ v, s.shows i v ∧ v ≠ i.position) :
    (routeResult (route.map s.judgeItem)).2.1 = route.countP differs := by
  rw [routeResult_mismatches, List.count, List.countP_map]
  refine List.countP_congr fun i hi => ?_
  rw [h i hi, ← State.judgeItem_mismatched_iff, Function.comp_apply, beq_iff_eq]

section Route

variable {s} {route : List RouteItem} {k : Nat} {i : RouteItem}

/-- Every point shows its end. -/
theorem State.route_ok (h : ∀ i ∈ route, s.shows i i.position) : routeResult (route.map s.judgeItem) = (.ok, 0, none) := by
  refine routeResult_ok fun x hx => ?_
  obtain ⟨i, hi, rfl⟩ := List.mem_map.1 hx
  exact (State.judgeItem_shown (h i hi)).trans (if_pos rfl)

/-- The first point that shows another end names the result. -/
theorem State.route_mismatch (hk : route[k]? = some i) {v : Nat} (hv : s.shows i v) (hne : v ≠ i.position)
    (hfirst : ∀ j x w, j < k → route[j]? = some x → s.shows x w → w = x.position) :
    routeResult (route.map s.judgeItem) = (.mismatch, (route.map s.judgeItem).count .mismatched, some k) ∧
      0 < (route.map s.judgeItem).count .mismatched := by
  have hmismatched : (route.map s.judgeItem)[k]? = some .mismatched := by
    rw [List.getElem?_map, hk, Option.map_some, (s.judgeItem_mismatched_iff i).2 ⟨v, hv, hne⟩]
  refine ⟨routeResult_mismatch hmismatched fun j hj hother => ?_, List.count_pos_iff.2 (List.mem_of_getElem? hmismatched)⟩
  rw [List.getElem?_map, Option.map_eq_some_iff] at hother
  obtain ⟨x, hx, hjudged⟩ := hother
  obtain ⟨w, hw, hdiffers⟩ := (s.judgeItem_mismatched_iff x).1 hjudged
  exact hdiffers (hfirst j x w hj hx hw)

/-- Without a point that shows another end, the first that cannot be judged names the result. -/
theorem State.route_unverified (hset : ∀ x ∈ route, ∀ w, s.shows x w → w = x.position) (hk : route[k]? = some i)
    (hnot : ¬ s.verifies i) (hfirst : ∀ j x, j < k → route[j]? = some x → s.verifies x) :
    routeResult (route.map s.judgeItem) = (.unverified, 0, some k) := by
  refine routeResult_unverified (fun hmem => ?_) ?_ fun j hj hother => ?_
  · obtain ⟨x, hx, hjudged⟩ := List.mem_map.1 hmem
    obtain ⟨w, hw, hne⟩ := (s.judgeItem_mismatched_iff x).1 hjudged
    exact hne (hset x hx w hw)
  · rw [List.getElem?_map, hk, Option.map_some, State.judgeItem_unverified hnot]
  · rw [List.getElem?_map, Option.map_eq_some_iff] at hother
    obtain ⟨x, hx, hjudged⟩ := hother
    exact (s.judgeItem_unverified_iff x).1 hjudged (hfirst j x hj hx)

end Route

/-- Settles O46: no bank running, the winner and its closing, the order of the candidates, and the judgement of the route. -/
theorem clearingMatchesAnOpenEntry : Obligations.ClearingMatchesAnOpenEntry := by
  refine ⟨fun s c => ⟨fun h => s.clearing_idle h c, fun b hb => ⟨fun h => ?_, fun h => ?_⟩⟩,
    fun s r e sr hstarts hr he hbound hsr hothers => ?_,
    fun s x y ex ey start hlist hex hey hsignal hbank hstart hsec hbx hby =>
      s.winner_pair hlist hex hey hsignal hbank hstart hsec hbx hby,
    fun s b e stamp start m hstart hm => ?_⟩
  · exact (s.clearing_running hb c).1 (s.winner_none h)
  · obtain ⟨r, hr, e, hwinner, he, hsignal⟩ := s.winner_some h
    have hclearing := (s.clearing_running hb c).2 r e hwinner he
    refine ⟨r, hr, e, hwinner, he, hsignal, fun v hv => ?_⟩
    have hrecorded : v = s.entryRecorded r e .matched c.dated c.ageLimit c.clamped (some (s.matchResult r.bank e c.dated.stamp)) :=
      hv
    rw [hclearing, hrecorded]
    refine ⟨fun hstay => State.closeEntry_stays he _ _ _ _ _ hstay, fun hstate hopen hlast => ?_⟩
    obtain ⟨hbank, hother, helement, hjournal, hrest⟩ := State.closeEntry_empties he .matched c.dated c.ageLimit c.clamped
      (some (s.matchResult r.bank e c.dated.stamp)) (by decide) hstate hopen hlast
    exact ⟨hbank, hother, helement, hjournal, hrest⟩
  · refine s.winner_first hr ((s.isCandidate_iff _ r).2 ⟨e, he, rfl⟩) fun x hx hne hcandidate => ?_
    obtain ⟨ex, hex, hsignal⟩ := (s.isCandidate_iff _ x).1 hcandidate
    obtain ⟨hboundx, sx, ahead, hsx, rfl, hahead⟩ := hothers x hx ex hne hex hsignal
    have hplaced : s.Placed Entry.scheduled r e sr := ⟨he, hsr, hbound⟩
    have hplacedx : s.Placed Entry.scheduled x ex sx := ⟨hex, hsx, hboundx⟩
    have hnear := hstarts.near hsr hsx
    have hbefore : s.refBefore Entry.scheduled r x = true := (State.refBefore_iff hplaced hplacedx hnear).2 hahead
    exact ⟨hbefore, State.refBefore_asymm hplaced hplacedx hnear hbefore⟩
  · have htime : s.bankTimeAt b ⟨stamp.day, stamp.sec⟩ = bankTime start ⟨stamp.day, stamp.sec⟩ := by rw [State.bankTimeAt, hstart]
    have hroute := s.matchResult_route b e stamp
    rw [← hm] at hroute
    refine ⟨?_, ?_, fun differs hdiffers => ?_, fun hset => ?_, fun k i v hk hv hne hfirst => ?_, fun hset k i hk hnot hfirst => ?_⟩
    · rw [hm, ← htime]
      rfl
    · rw [hm, ← htime, State.matchResult]
      simp only [Bool.or_eq_true, decide_eq_true_iff]
    · rw [← s.mismatches_eq_countP hdiffers, ← hroute]
    · rw [State.route_ok hset, Prod.mk.injEq, Prod.mk.injEq] at hroute
      exact hroute
    · obtain ⟨hresult, hcount⟩ := State.route_mismatch hk hv hne hfirst
      rw [hresult, Prod.mk.injEq, Prod.mk.injEq] at hroute
      obtain ⟨hmismatch, hmismatches, hitem⟩ := hroute
      exact ⟨hmismatch, hitem, by omega⟩
    · rw [State.route_unverified hset hk hnot hfirst, Prod.mk.injEq, Prod.mk.injEq] at hroute
      exact hroute

end Sys2Proof.Machine
end

