-- ==== Sys2Proof/Proofs/Advance.lean ====
section
/-! PROOFS. Sys2Proof/Proofs/Advance.lean: the advance of an ACTIVE bank, entry by entry: what becomes of each entry that it meets, where it
stops, and what it counts (R116, R119 to R122). -/

namespace Sys2Proof.Machine

/-! ## Settings and clocks that the checker leaves -/

theorem State.levelOf_withRecord (s : State) (n : Nat) (b : Body) (c : JournalClass) : (s.withRecord n b).levelOf c = s.levelOf c := by
  rw [State.levelOf, State.withRecord_journal, Journal.offer_classes]
  rfl

/-- The bank time hangs on the start of the bank and the time of day (R109). -/
theorem State.bankTimeNow_congr {s t : State} {b : BankId} (hstart : (t.bank b).start = (s.bank b).start) (htb : t.tb = s.tb) :
    t.bankTimeNow b = s.bankTimeNow b := by
  rw [State.bankTimeNow, State.bankTimeAt, hstart, htb]
  rfl

/-! ## One entry met (R116, R119, R122) -/

/-- What becomes of an entry that the advance meets at a bank time, with so many references in the open list, and by how much the numbers of
entries opened and closed rise. -/
inductive Entry.Met (e : Entry) (passed : EntryStatus) (time : Int) (now : Dated) (listed : Nat) : Entry → Nat → Nat → Prop
  | skipped : e.status ≠ .pending → e.Met passed time now listed e 0 0
  | closed : e.status = .pending → (e.closeTime : Int) < time →
      e.Met passed time now listed { e with status := passed, closing := some now, result := none } 0 1
  | opened : e.status = .pending → time ≤ e.closeTime → listed < 256 → e.Met passed time now listed { e with status := .opened } 1 0
  | full : e.status = .pending → time ≤ e.closeTime → 256 ≤ listed →
      e.Met passed time now listed { e with status := .openListFull, closing := some now, result := none } 0 0

/-- One entry has been rewritten, the rest of its bank, the other bank and the clocks standing; the open list has gained one reference at
most. -/
structure State.Rewrites (r : EntryRef) (e : Entry) (s t : State) : Prop where
  bank : t.bank r.bank = { s.bank r.bank with entries := (s.bank r.bank).entries.set r.index e }
  other : t.bank r.bank.other = s.bank r.bank.other
  tb : t.tb = s.tb
  level : t.levelOf .timetable = s.levelOf .timetable
  listed : t.openList.length ≤ s.openList.length + 1

variable (s : State)

theorem State.rewrites_self {r : EntryRef} {e : Entry} (h : s.entry r = some e) : State.Rewrites r e s s := by
  obtain ⟨hlt, hget⟩ := List.getElem?_eq_some_iff.1 h
  have hset : (s.bank r.bank).entries.set r.index e = (s.bank r.bank).entries := by
    rw [← hget]
    exact List.set_getElem_self hlt
  exact ⟨by rw [hset], rfl, rfl, rfl, Nat.le_succ _⟩

theorem State.rewrites_entryRecorded (r : EntryRef) (e : Entry) (status : EntryStatus) (dated : Dated) (ageLimit clamped : Bool)
    (result : Option MatchResult) :
    State.Rewrites r { e with status := status, closing := some dated, result := result } s
      (s.entryRecorded r e status dated ageLimit clamped result) := by
  refine ⟨State.entryRecorded_bank _ _ _ _ _, ?_, ?_, ?_, ?_⟩
  · rw [State.entryRecorded, State.offer_bank, State.entryClosed, State.setOpenList_bank, State.setEntry_bank_other]
  · exact s.setBank_tb r.bank _
  · rw [State.entryRecorded, State.levelOf_offer]
    exact s.setBank_levelOf r.bank _ _
  · exact Nat.le_succ_of_le (List.length_filter_le _ _)

theorem State.rewrites_entryOpened (r : EntryRef) (e : Entry) :
    State.Rewrites r { e with status := .opened } s (s.entryOpened r e) := by
  refine ⟨?_, ?_, s.setBank_tb r.bank _, s.setBank_levelOf r.bank _ _, ?_⟩
  · rw [State.entryOpened, State.setOpenList_bank, State.setEntry_bank_same]
  · rw [State.entryOpened, State.setOpenList_bank, State.setEntry_bank_other]
  · rw [State.entryOpened, State.setOpenList_openList, State.insertRef_length, State.setEntry_openList]

/-- A bank that is not RETIRING stays when one of its entries closes (R118). -/
theorem State.closeOwn_running {r : EntryRef} {e : Entry} (h : s.entry r = some e) (hstate : (s.bank r.bank).state ≠ .retiring)
    (status : EntryStatus) : s.closeOwn r status = s.entryRecorded r e status s.tb.now false false none :=
  State.closeEntry_stays h status _ _ _ _ (.inl hstate)

/-- The state in which a bank's next-to-open position has passed an entry. -/
def State.moveOn (s : State) (b : BankId) : State := s.setBank b { s.bank b with nextToOpen := (s.bank b).nextToOpen + 1 }

theorem State.moveOn_bank (b : BankId) :
    (s.moveOn b).bank b = { s.bank b with nextToOpen := (s.bank b).nextToOpen + 1 } := s.bank_setBank_same b _

theorem State.moveOn_entry {b : BankId} {i : Nat} {e : Entry} (h : (s.bank b).entries[i]? = some e) :
    (s.moveOn b).entry ⟨b, i⟩ = some e := by
  rw [State.entry, State.moveOn_bank]
  exact h

section Advance

variable {b : BankId} (passed : EntryStatus) (n : Nat) {w : Walked}

theorem State.advance_end (h : (w.state.bank b).entries[(w.state.bank b).nextToOpen]? = none) :
    State.advance b passed (n + 1) w = w := by
  rw [State.advance, h]

variable {e : Entry} (h : (w.state.bank b).entries[(w.state.bank b).nextToOpen]? = some e)

include h in
theorem State.advance_waits (htime : w.state.bankTimeNow b < e.openTime) : State.advance b passed (n + 1) w = w := by
  rw [State.advance, h]
  exact if_pos htime

include h in
/-- An entry whose open time has come is met, and the advance goes on. -/
theorem State.advance_meets (htime : (e.openTime : Int) ≤ w.state.bankTimeNow b) (hactive : (w.state.bank b).state = .active) :
    ∃ t e' i j, State.advance b passed (n + 1) w = State.advance b passed n ⟨t, w.opened + i, w.closed + j⟩ ∧
      e.Met passed (w.state.bankTimeNow b) w.state.tb.now w.state.openList.length e' i j ∧
      State.Rewrites ⟨b, (w.state.bank b).nextToOpen⟩ e' (w.state.moveOn b) t := by
  have hentry := w.state.moveOn_entry h
  have hrunning : ((w.state.moveOn b).bank b).state ≠ .retiring := by
    rw [State.moveOn_bank]
    exact fun hretiring => BankState.noConfusion (hactive.symm.trans hretiring)
  have htb : (w.state.moveOn b).tb = w.state.tb := w.state.setBank_tb b _
  have hlist : (w.state.moveOn b).openList = w.state.openList := w.state.setBank_openList b _
  have hunfold : State.advance b passed (n + 1) w =
      if e.status ≠ .pending then State.advance b passed n ⟨w.state.moveOn b, w.opened, w.closed⟩
      else if e.closeTime < w.state.bankTimeNow b then State.advance b passed n
        ⟨(w.state.moveOn b).closeOwn ⟨b, (w.state.bank b).nextToOpen⟩ passed, w.opened, w.closed + 1⟩
      else State.advance b passed n ⟨(w.state.moveOn b).openEntry ⟨b, (w.state.bank b).nextToOpen⟩ e,
        if (w.state.moveOn b).openList.length < 256 then w.opened + 1 else w.opened, w.closed⟩ := by
    rw [State.advance, h]
    exact if_neg (Int.not_lt.2 htime)
  rw [hunfold]
  split
  · rename_i hstatus
    exact ⟨_, e, 0, 0, rfl, .skipped hstatus, State.rewrites_self _ hentry⟩
  · rename_i hstatus
    rw [not_not] at hstatus
    split
    · rename_i hclose
      rw [State.closeOwn_running _ hentry hrunning, htb]
      exact ⟨_, _, 0, 1, rfl, .closed hstatus hclose, State.rewrites_entryRecorded _ _ e passed _ _ _ _⟩
    · rename_i hclose
      rw [Int.not_lt] at hclose
      rw [State.openEntry_eq, hlist]
      by_cases hroom : w.state.openList.length < 256
      · rw [if_pos hroom, if_pos hroom]
        exact ⟨_, _, 1, 0, rfl, .opened hstatus hclose hroom, State.rewrites_entryOpened _ _ e⟩
      · rw [if_neg hroom, if_neg hroom, State.closeOwn_running _ hentry hrunning, htb]
        exact ⟨_, _, 0, 0, rfl, .full hstatus hclose (Nat.le_of_not_lt hroom), State.rewrites_entryRecorded _ _ e .openListFull _ _ _ _⟩

end Advance

/-! ## The entries of a whole advance -/

/-- What an advance makes of the bank `x`, beginning at a bank time with so many references in the open list. -/
structure Bank.Advances (passed : EntryStatus) (time : Int) (now : Dated) (listed : Nat) (x y : Bank) : Prop where
  header : y = { x with entries := y.entries, nextToOpen := y.nextToOpen }
  length : y.entries.length = x.entries.length
  forward : x.nextToOpen ≤ y.nextToOpen
  untouched : ∀ k e, x.entries[k]? = some e → k < x.nextToOpen ∨ y.nextToOpen ≤ k → y.entries[k]? = some e
  met : ∀ k e, x.entries[k]? = some e → x.nextToOpen ≤ k → k < y.nextToOpen → (e.openTime : Int) ≤ time ∧
    ∃ n e' i j, n ≤ listed + (k - x.nextToOpen) ∧ e.Met passed time now n e' i j ∧ y.entries[k]? = some e'
  stops : ∀ e, x.entries[y.nextToOpen]? = some e → time < e.openTime

section Banks

variable {passed : EntryStatus} {time : Int} {now : Dated} {listed n : Nat} {x y : Bank} {e e' : Entry} {i j : Nat}

/-- An advance that stops where it begins. -/
theorem Bank.Advances.refl (h : ∀ e, x.entries[x.nextToOpen]? = some e → time < e.openTime) :
    Bank.Advances passed time now listed x x :=
  ⟨rfl, rfl, Nat.le_refl _, fun _ _ h _ => h, fun _ _ _ h1 h2 => absurd h2 (Nat.not_lt.2 h1), h⟩

/-- An advance that meets one entry and goes on. -/
theorem Bank.Advances.step (he : x.entries[x.nextToOpen]? = some e) (htime : (e.openTime : Int) ≤ time)
    (hmet : e.Met passed time now listed e' i j) (hlisted : n ≤ listed + 1)
    (h : Bank.Advances passed time now n { x with nextToOpen := x.nextToOpen + 1, entries := x.entries.set x.nextToOpen e' } y) :
    Bank.Advances passed time now listed x y := by
  obtain ⟨hheader, hlength, hforward, huntouched, hlater, hstops⟩ := h
  dsimp only at hheader hlength hforward huntouched hlater hstops
  have hlt := (List.getElem?_eq_some_iff.1 he).1
  have hself : (x.entries.set x.nextToOpen e')[x.nextToOpen]? = some e' := by simp [hlt]
  have hothers {k : Nat} (hk : x.nextToOpen ≠ k) : (x.entries.set x.nextToOpen e')[k]? = x.entries[k]? := by simp [hk]
  refine ⟨hheader, hlength.trans (List.length_set ..), by omega, fun k f hf hk => ?_, fun k f hf hk1 hk2 => ?_, fun f hf => ?_⟩
  · have hne : x.nextToOpen ≠ k := by omega
    exact huntouched k f ((hothers hne).trans hf) (by omega)
  · by_cases hk : x.nextToOpen = k
    · subst hk
      rw [he] at hf
      cases hf
      exact ⟨htime, listed, e', i, j, by omega, hmet, huntouched _ e' hself (.inl (Nat.lt_succ_self _))⟩
    · obtain ⟨hopen, m, f', i', j', hm, hmet', hf'⟩ := hlater k f ((hothers hk).trans hf) (by omega) hk2
      exact ⟨hopen, m, f', i', j', by omega, hmet', hf'⟩
  · exact hstops f ((hothers (by omega)).trans hf)

end Banks

/-! ## The numbers counted (R116) -/

/-- A rewritten entry counts by its new status. -/
theorem Bank.count_set {x : Bank} {k : Nat} {e : Entry} (h : x.entries[k]? = some e) (e' : Entry) (n : Nat) (status : EntryStatus) :
    Bank.count { x with nextToOpen := n, entries := x.entries.set k e' } status + (if e.status = status then 1 else 0) =
      x.count status + if e'.status = status then 1 else 0 := by
  obtain ⟨hlt, hget⟩ := List.getElem?_eq_some_iff.1 h
  have hpos : e.status = status → 0 < x.entries.countP fun e => e.status == status := fun hstatus =>
    List.countP_pos_iff.2 ⟨e, List.mem_of_getElem? h, by simpa using hstatus⟩
  simp only [Bank.count, List.countP_set hlt, hget, beq_iff_eq]
  split
  · rename_i hstatus
    have := hpos hstatus
    omega
  · omega

theorem Entry.Met.counts {e e' : Entry} {passed : EntryStatus} {time : Int} {now : Dated} {listed i j : Nat}
    (h : e.Met passed time now listed e' i j) (hpassed : passed = .missed ∨ passed = .lateActivation) :
    ((if e'.status = .opened then 1 else 0) = (if e.status = .opened then 1 else 0) + i) ∧
    ((if e'.status = passed then 1 else 0) = (if e.status = passed then 1 else 0) + j) := by
  cases h with
  | skipped => exact ⟨rfl, rfl⟩
  | closed hstatus => rcases hpassed with rfl | rfl <;> simp [hstatus]
  | opened hstatus => rcases hpassed with rfl | rfl <;> simp [hstatus]
  | full hstatus => rcases hpassed with rfl | rfl <;> simp [hstatus]

/-- What an advance of a bank gives. -/
structure Walked.Advances (b : BankId) (passed : EntryStatus) (w v : Walked) : Prop where
  bank : Bank.Advances passed (w.state.bankTimeNow b) w.state.tb.now w.state.openList.length (w.state.bank b) (v.state.bank b)
  other : v.state.bank b.other = w.state.bank b.other
  level : v.state.levelOf .timetable = w.state.levelOf .timetable
  counted : passed = .missed ∨ passed = .lateActivation →
    (v.state.bank b).count .opened + w.opened = (w.state.bank b).count .opened + v.opened ∧
    (v.state.bank b).count passed + w.closed = (w.state.bank b).count passed + v.closed

/-- An advance with room enough for the entries ahead of it ends where an entry waits, or behind the last one. -/
theorem State.advance_advances {b : BankId} {passed : EntryStatus} (n : Nat) (w : Walked) (hactive : (w.state.bank b).state = .active)
    (hroom : (w.state.bank b).entries.length ≤ (w.state.bank b).nextToOpen + n) :
    Walked.Advances b passed w (State.advance b passed n w) := by
  have hstop (w : Walked) (h : ∀ e, (w.state.bank b).entries[(w.state.bank b).nextToOpen]? = some e →
      w.state.bankTimeNow b < e.openTime) : Walked.Advances b passed w w := ⟨.refl h, rfl, rfl, fun _ => ⟨rfl, rfl⟩⟩
  induction n generalizing w with
  | zero =>
    refine hstop w fun e he => ?_
    rw [List.getElem?_eq_none (by omega)] at he
    cases he
  | succ n ih =>
    cases he : (w.state.bank b).entries[(w.state.bank b).nextToOpen]? with
    | none =>
      rw [State.advance_end passed n he]
      refine hstop w fun e h => ?_
      rw [he] at h
      cases h
    | some e =>
      by_cases htime : w.state.bankTimeNow b < e.openTime
      · rw [State.advance_waits passed n he htime]
        refine hstop w fun f h => ?_
        rw [he] at h
        cases h
        exact htime
      · rw [Int.not_lt] at htime
        obtain ⟨t, e', i, j, heq, hmet, hbank, hother, htb, hlevel, hlisted⟩ := State.advance_meets passed n he htime hactive
        dsimp only at hbank hother
        rw [State.moveOn_bank] at hbank
        rw [State.moveOn, State.bank_setBank_other] at hother
        rw [State.moveOn, State.setBank_tb] at htb
        rw [State.moveOn, State.setBank_levelOf] at hlevel
        rw [State.moveOn, State.setBank_openList] at hlisted
        dsimp only at hbank
        have hnow : t.bankTimeNow b = w.state.bankTimeNow b := State.bankTimeNow_congr (by rw [hbank]) htb
        obtain ⟨kbank, kother, klevel, kcounted⟩ := ih ⟨t, w.opened + i, w.closed + j⟩ (by
          show (t.bank b).state = .active
          rw [hbank]
          exact hactive) (by
          show (t.bank b).entries.length ≤ (t.bank b).nextToOpen + n
          rw [hbank]
          dsimp only
          rw [List.length_set]
          omega)
        have hcount (status : EntryStatus) := Bank.count_set he e' ((w.state.bank b).nextToOpen + 1) status
        rw [← hbank] at hcount
        have hcountOpened := hcount .opened
        have hcountPassed := hcount passed
        dsimp only at kbank kother klevel kcounted
        rw [hnow, htb, hbank] at kbank
        rw [heq]
        refine ⟨.step he htime hmet hlisted kbank, kother.trans hother, klevel.trans hlevel, fun hpassed => ?_⟩
        obtain ⟨hopened, hclosed⟩ := hmet.counts hpassed
        obtain ⟨lopened, lclosed⟩ := kcounted hpassed
        exact ⟨by omega, by omega⟩

end Sys2Proof.Machine
end

