-- ==== Sys2Proof/Proofs/OpenListPlaces.lean ====
section
/-! PROOFS. Sys2Proof/Proofs/OpenListPlaces.lean: the place of an entry that opens in the open list, and the closing of those whose windows
have passed from the head of the list (R120, R122). -/

namespace Sys2Proof.Machine

variable (s : State)

/-! ## An entry rewritten keeps the order (R122) -/

/-- The order of references hangs on the instants of their entries and on the starts and orders of their banks. -/
theorem State.refBefore_congr {s t : State} {instant : Entry → Nat}
    (hentry : ∀ x, (t.entry x).map instant = (s.entry x).map instant) (hstart : ∀ b, (t.bank b).start = (s.bank b).start)
    (horder : ∀ b, (t.bank b).order = (s.bank b).order) (x y : EntryRef) : t.refBefore instant x y = s.refBefore instant x y := by
  have hx := hentry x
  have hy := hentry y
  unfold State.refBefore State.older
  rw [hstart, hstart, horder, horder]
  cases hsx : s.entry x with
  | none =>
    rw [hsx, Option.map_none, Option.map_eq_none_iff] at hx
    rw [hx]
  | some ex =>
    rw [hsx, Option.map_some, Option.map_eq_some_iff] at hx
    obtain ⟨ex', hx', hex⟩ := hx
    rw [hx']
    cases hsy : s.entry y with
    | none =>
      rw [hsy, Option.map_none, Option.map_eq_none_iff] at hy
      rw [hy]
    | some ey =>
      rw [hsy, Option.map_some, Option.map_eq_some_iff] at hy
      obtain ⟨ey', hy', hey⟩ := hy
      rw [hy']
      cases (s.bank x.bank).start <;> cases (s.bank y.bank).start <;> simp only [hex, hey]

variable {s} {r : EntryRef} {e : Entry} (h : s.entry r = some e)

/-- What a rewritten entry leaves of the other bank, and of the header of its own. -/
theorem State.setEntry_header {α : Type} (f : Bank → α) (hf : ∀ x l, f { x with entries := l } = f x) (e' : Entry) (b : BankId) :
    f ((s.setEntry r e').bank b) = f (s.bank b) := by
  rcases BankId.eq_or_other r.bank b with rfl | rfl
  · rw [State.setEntry_bank_same, hf]
  · rw [State.setEntry_bank_other]

include h in
theorem State.setEntry_entry_map {α : Type} (f : Entry → α) {e' : Entry} (hf : f e' = f e) (x : EntryRef) :
    ((s.setEntry r e').entry x).map f = (s.entry x).map f := by
  obtain ⟨b, i⟩ := x
  rw [State.entry, State.entry, ← List.getElem?_map, ← List.getElem?_map]
  dsimp only
  rcases BankId.eq_or_other r.bank b with rfl | rfl
  · obtain ⟨hlt, hget⟩ := List.getElem?_eq_some_iff.1 h
    have hself : f e' = ((s.bank r.bank).entries.map f)[r.index]'(by simpa using hlt) := by rw [List.getElem_map, hget, hf]
    rw [State.setEntry_bank_same, List.map_set, hself, List.set_getElem_self]
  · rw [State.setEntry_bank_other]

include h in
theorem State.setEntry_refBefore {instant : Entry → Nat} {e' : Entry} (hinstant : instant e' = instant e) (x y : EntryRef) :
    (s.setEntry r e').refBefore instant x y = s.refBefore instant x y :=
  State.refBefore_congr (State.setEntry_entry_map h instant hinstant) (State.setEntry_header Bank.start (fun _ _ => rfl) e')
    (State.setEntry_header Bank.order (fun _ _ => rfl) e') x y

/-! ## The place of a reference (R122) -/

/-- A reference goes behind those that it does not come ahead of, as far as the first that it does. -/
theorem State.insertRef_split (s : State) (r : EntryRef) (l : List EntryRef) :
    ∃ front back, l = front ++ back ∧ s.insertRef r l = front ++ r :: back ∧
      (∀ x ∈ front, s.refBefore Entry.closeTime r x = false) ∧
      ∀ x, back.head? = some x → s.refBefore Entry.closeTime r x = true := by
  induction l with
  | nil => exact ⟨[], [], rfl, rfl, nofun, nofun⟩
  | cons x l ih =>
    by_cases hx : s.refBefore Entry.closeTime r x = true
    · refine ⟨[], x :: l, rfl, if_pos hx, nofun, fun y hy => ?_⟩
      cases hy
      exact hx
    · obtain ⟨front, back, hl, hinsert, hfront, hback⟩ := ih
      refine ⟨x :: front, back, by rw [hl, List.cons_append], ?_, fun y hy => ?_, hback⟩
      · rw [State.insertRef, if_neg hx, hinsert, List.cons_append]
      · rcases List.mem_cons.1 hy with rfl | hy
        · exact Bool.eq_false_iff.2 hx
        · exact hfront y hy

/-- A reference at its place keeps a sorted list sorted. -/
theorem State.insertRef_sorted (hnear : s.startsNear) (r : EntryRef) {l : List EntryRef}
    (hsorted : l.Pairwise fun x y => s.refBefore Entry.closeTime y x = false) :
    (s.insertRef r l).Pairwise fun x y => s.refBefore Entry.closeTime y x = false := by
  obtain ⟨front, back, hl, hinsert, hfront, hback⟩ := s.insertRef_split r l
  rw [hl, List.pairwise_append] at hsorted
  obtain ⟨hsortedFront, hsortedBack, hacross⟩ := hsorted
  have hbehind : ∀ x ∈ back, s.refBefore Entry.closeTime x r = false := by
    cases back with
    | nil => exact nofun
    | cons y back =>
      have hy := hback y rfl
      intro x hx
      rcases List.mem_cons.1 hx with rfl | hx
      · exact State.refBefore_not_symm hnear Entry.closeTime_le hy
      · rw [Bool.eq_false_iff]
        intro hxr
        have hxy := State.refBefore_trans hnear Entry.closeTime_le hxr hy
        rw [(List.pairwise_cons.1 hsortedBack).1 x hx] at hxy
        cases hxy
  rw [hinsert, List.pairwise_append, List.pairwise_cons]
  refine ⟨hsortedFront, ⟨hbehind, hsortedBack⟩, fun x hx y hy => ?_⟩
  rcases List.mem_cons.1 hy with rfl | hy
  · exact hfront x hx
  · exact hacross x hx y hy

include h in
/-- The open list stays sorted as an entry opens. -/
theorem State.openEntry_sorted (hroom : s.openList.length < 256) (hnear : s.startsNear) (hsorted : s.openListSorted) :
    (s.openEntry r e).openListSorted := by
  have hbefore (x y : EntryRef) : (s.setEntry r { e with status := .opened }).refBefore Entry.closeTime x y =
      s.refBefore Entry.closeTime x y :=
    State.setEntry_refBefore (e' := { e with status := .opened }) (instant := Entry.closeTime) h rfl x y
  have hinsert (l : List EntryRef) : (s.setEntry r { e with status := .opened }).insertRef r l = s.insertRef r l := by
    induction l with
    | nil => rfl
    | cons x l ih => rw [State.insertRef, State.insertRef, hbefore, ih]
  have hlist : (s.openEntry r e).openList = s.insertRef r s.openList := by
    rw [State.openEntry_eq, if_pos hroom, State.entryOpened, State.setOpenList_openList, State.setEntry_openList, hinsert]
  have hafter (x y : EntryRef) : (s.openEntry r e).refBefore Entry.closeTime x y = s.refBefore Entry.closeTime x y := by
    rw [State.openEntry_eq, if_pos hroom, State.entryOpened, ← hbefore x y]
    refine State.refBefore_congr (fun x => ?_) (fun b => ?_) (fun b => ?_) x y
    · rw [State.entry, State.setOpenList_bank, State.entry]
    · rw [State.setOpenList_bank]
    · rw [State.setOpenList_bank]
  rw [State.openListSorted, hlist]
  simp only [hafter]
  exact State.insertRef_sorted hnear r hsorted

/-! ## Closing from the head (R120) -/

theorem State.settleBank_openList (s : State) (b : BankId) : (s.settleBank b).openList = s.openList := by
  rcases State.settleBank_cases s b with hsettle | ⟨-, -, hsettle⟩
  · rw [hsettle]
  · rw [hsettle, State.report_openList, State.emptyBank_only]

include h in
theorem State.closeOwn_openList (status : EntryStatus) : (s.closeOwn r status).openList = s.openList.filter fun x => x != r := by
  rw [State.closeOwn, s.closeEntry_eq h, State.settleBank_openList]
  rfl

variable {rest : List EntryRef} (hlist : s.openList = r :: rest)

include h hlist in
/-- The head of the open list closes MISSED when its close time has passed. -/
theorem State.closePassed_head (n : Nat) : State.closePassed (n + 1) s =
    if e.closeTime < s.bankTimeNow r.bank then State.closePassed n (s.closeOwn r .missed) else s := by
  simp only [State.closePassed, hlist, h]

/-- With as many tries as the list is long, no head remains whose close time has passed. -/
theorem State.closePassed_ends (n : Nat) (s : State) (hn : s.openList.length ≤ n) {r : EntryRef} {rest : List EntryRef} {e : Entry}
    (hlist : (State.closePassed n s).openList = r :: rest) (h : (State.closePassed n s).entry r = some e) :
    (State.closePassed n s).bankTimeNow r.bank ≤ e.closeTime := by
  induction n generalizing s with
  | zero =>
    rw [State.closePassed, List.eq_nil_of_length_eq_zero (Nat.le_zero.1 hn)] at hlist
    cases hlist
  | succ n ih =>
    cases hs : s.openList with
    | nil =>
      have hsame : State.closePassed (n + 1) s = s := by simp only [State.closePassed, hs]
      rw [hsame, hs] at hlist
      cases hlist
    | cons x l =>
      cases hx : s.entry x with
      | none =>
        have hsame : State.closePassed (n + 1) s = s := by simp only [State.closePassed, hs, hx]
        rw [hsame] at hlist h
        rw [hs] at hlist
        cases hlist
        rw [hx] at h
        cases h
      | some f =>
        have hhead := State.closePassed_head hx hs n
        by_cases hpassed : (f.closeTime : Int) < s.bankTimeNow x.bank
        · rw [if_pos hpassed] at hhead
          rw [hhead] at hlist h ⊢
          refine ih _ ?_ hlist h
          have hrest : (l.filter fun y => y != x).length ≤ l.length := List.length_filter_le _ _
          rw [State.closeOwn_openList hx, hs, List.filter_cons_of_neg (by simp)]
          rw [hs, List.length_cons] at hn
          omega
        · rw [if_neg hpassed] at hhead
          rw [hhead] at hlist h ⊢
          rw [hs] at hlist
          cases hlist
          rw [hx] at h
          cases h
          exact Int.not_lt.1 hpassed

include h hlist in
theorem State.closePassed_stays (n : Nat) (hpassed : (e.closeTime : Int) < s.bankTimeNow r.bank)
    (hstay : (s.bank r.bank).state ≠ .retiring ∨ 2 ≤ (s.bank r.bank).count .opened) :
    State.closePassed (n + 1) s = State.closePassed n (s.entryRecorded r e .missed s.tb.now false false none) := by
  rw [State.closePassed_head h hlist, if_pos hpassed, State.closeOwn, State.closeEntry_stays h _ _ _ _ _ hstay]

include h hlist in
/-- The last OPEN entry of a RETIRING bank takes the bank with it as it closes MISSED (R118). -/
theorem State.closePassed_empties (n : Nat) (hpassed : (e.closeTime : Int) < s.bankTimeNow r.bank)
    (hstate : (s.bank r.bank).state = .retiring) (hopen : e.status = .opened) (hlast : (s.bank r.bank).count .opened = 1) :
    State.closePassed (n + 1) s = State.closePassed n (s.closeOwn r .missed) ∧
      State.Empties r.bank s (s.entryRecorded r e .missed s.tb.now false false none) (s.closeOwn r .missed) :=
  ⟨by rw [State.closePassed_head h hlist, if_pos hpassed], State.closeEntry_empties h _ _ _ _ _ (by decide) hstate hopen hlast⟩

end Sys2Proof.Machine
end

