-- ==== Sys2Proof/Proofs/CheckerWalk.lean ====
section
/-! PROOFS. Sys2Proof/Proofs/CheckerWalk.lean: the checker at a second boundary: activation, advance, closing and end of activity (R115 to
R122). -/

namespace Sys2Proof.Machine

variable (s : State) (b : BankId)

/-! ## Retirement ahead of an activation (R116) -/

theorem State.retire_bank_other : (s.retire b).bank b.other = s.bank b.other := by
  by_cases hcount : (s.bank b).count .opened = 0
  · exact (s.retire_empties b hcount).other
  · rw [s.retire_stays b (Nat.pos_of_ne_zero hcount), State.bankRetired_other]

theorem State.bankRetired_levelOf (c : JournalClass) : (s.bankRetired b).levelOf c = s.levelOf c := by
  rw [State.bankRetired, State.levelOf_withRecord, State.setBank_levelOf]

theorem State.retire_levelOf (c : JournalClass) : (s.retire b).levelOf c = s.levelOf c := by
  by_cases hcount : (s.bank b).count .opened = 0
  · have hlevel := State.levelOf_withRecord (s.bankRetired b) (s.levelOf .timetable) (.bank b .emptied 0 0) c
    rw [State.bankRetired_levelOf] at hlevel
    rw [← hlevel, State.levelOf, State.levelOf, (s.retire_empties b hcount).journal]
  · rw [s.retire_stays b (Nat.pos_of_ne_zero hcount), State.bankRetired_levelOf]

theorem State.retireOther_bank : (s.retireOther b).bank b = s.bank b := by
  unfold State.retireOther
  split
  · have hother := s.retire_bank_other b.other
    rwa [BankId.other_other] at hother
  · rfl

theorem State.retireOther_levelOf (c : JournalClass) : (s.retireOther b).levelOf c = s.levelOf c := by
  unfold State.retireOther
  split
  · exact s.retire_levelOf b.other c
  · rfl

theorem State.retireOther_not_active : ((s.retireOther b).bank b.other).state ≠ .active := by
  unfold State.retireOther
  split
  · exact s.retire_not_active b.other
  · assumption

/-! ## The advance of a whole bank (R119) -/

variable {s b}

theorem State.walkBank_advances (passed : EntryStatus) (hactive : (s.bank b).state = .active) :
    Walked.Advances b passed ⟨s, 0, 0⟩ (s.walkBank b passed) :=
  State.advance_advances _ _ hactive (Nat.le_add_left _ _)

/-- What becomes of a PENDING entry that an advance meets. -/
theorem Entry.Met.pending {e e' : Entry} {passed : EntryStatus} {time : Int} {now : Dated} {listed i j : Nat}
    (h : e.Met passed time now listed e' i j) (hpending : e.status = .pending) :
    ((e.closeTime : Int) < time → e' = { e with status := passed, closing := some now, result := none }) ∧
    (time ≤ e.closeTime → listed < 256 → e' = { e with status := .opened }) ∧
    (time ≤ e.closeTime → e' = { e with status := .opened } ∨
      e' = { e with status := .openListFull, closing := some now, result := none }) := by
  cases h with
  | skipped hstatus => exact absurd hpending hstatus
  | closed _ htime => exact ⟨fun _ => rfl, fun hle => absurd htime (Int.not_lt.2 hle), fun hle => absurd htime (Int.not_lt.2 hle)⟩
  | opened _ htime => exact ⟨fun hlt => absurd hlt (Int.not_lt.2 htime), fun _ _ => rfl, fun _ => .inl rfl⟩
  | full _ htime hfull =>
    exact ⟨fun hlt => absurd hlt (Int.not_lt.2 htime), fun _ hroom => absurd hroom (Nat.not_lt.2 hfull), fun _ => .inr rfl⟩

theorem Entry.Met.final {e e' : Entry} {passed : EntryStatus} {time : Int} {now : Dated} {listed i j : Nat}
    (h : e.Met passed time now listed e' i j) (hstatus : e.status ≠ .pending) : e' = e := by
  cases h with
  | skipped => rfl
  | closed hpending => exact absurd hpending hstatus
  | opened hpending => exact absurd hpending hstatus
  | full hpending => exact absurd hpending hstatus

section Entries

variable {passed : EntryStatus} {time : Int} {now : Dated} {listed : Nat} {x y : Bank} {k : Nat} {e : Entry}
  (h : Bank.Advances passed time now listed x y) (he : x.entries[k]? = some e)

include h he in
/-- An advance leaves the entries that it does not meet, and those that are no longer PENDING. -/
theorem Bank.Advances.leaves (hk : k < x.nextToOpen ∨ y.nextToOpen ≤ k ∨ e.status ≠ .pending) : y.entries[k]? = some e := by
  by_cases hmet : x.nextToOpen ≤ k ∧ k < y.nextToOpen
  · obtain ⟨hfrom, hto⟩ := hmet
    obtain ⟨-, n, e', i, j, -, he', hy⟩ := h.met k e he hfrom hto
    have hstatus : e.status ≠ .pending := (hk.resolve_left (Nat.not_lt.2 hfrom)).resolve_left (Nat.not_le.2 hto)
    rw [hy, he'.final hstatus]
  · exact h.untouched k e he (by omega)

include h he in
theorem Bank.Advances.meets (hfrom : x.nextToOpen ≤ k) (hto : k < y.nextToOpen) : (e.openTime : Int) ≤ time ∧
    (e.status = .pending →
      ((e.closeTime : Int) < time → y.entries[k]? = some { e with status := passed, closing := some now, result := none }) ∧
      (time ≤ e.closeTime → listed + x.entries.length ≤ 256 → y.entries[k]? = some { e with status := .opened }) ∧
      (time ≤ e.closeTime → y.entries[k]? = some { e with status := .opened } ∨
        y.entries[k]? = some { e with status := .openListFull, closing := some now, result := none })) := by
  obtain ⟨hopen, n, e', i, j, hn, he', hy⟩ := h.met k e he hfrom hto
  have hlt := (List.getElem?_eq_some_iff.1 he).1
  refine ⟨hopen, fun hpending => ?_⟩
  obtain ⟨hclosed, hopened, heither⟩ := he'.pending hpending
  rw [hy]
  exact ⟨fun htime => congrArg some (hclosed htime), fun htime hroom => congrArg some (hopened htime (by omega)),
    fun htime => (heither htime).imp (congrArg some) (congrArg some)⟩

end Entries

/-! ## Activation (R115, R116) -/

variable (s b)

/-- What the walk of an activation gives. -/
def State.activationWalk (s : State) (b : BankId) : Walked :=
  ((s.retireOther b).setBank b ((s.retireOther b).activated b)).walkBank b .lateActivation

theorem State.activationWalk_advances : Walked.Advances b .lateActivation
    ⟨(s.retireOther b).setBank b ((s.retireOther b).activated b), 0, 0⟩ (s.activationWalk b) := by
  refine State.walkBank_advances _ ?_
  rw [State.bank_setBank_same]
  rfl

theorem State.activate_records : s.activate b = (s.activationWalk b).state.withRecord (s.levelOf .timetable)
    (.bank b .activated (s.activationWalk b).opened (s.activationWalk b).closed) := by
  have hlevel := (s.activationWalk_advances b).level
  dsimp only at hlevel
  rw [State.setBank_levelOf, State.retireOther_levelOf] at hlevel
  rw [← hlevel]
  rfl

theorem State.withRecord_bank (n : Nat) (body : Body) : (s.withRecord n body).bank b = s.bank b := by cases b <;> rfl

/-- The bank that activates is ACTIVE, behind the other one in the order of activation, as its advance leaves it. -/
theorem State.activate_bank : ((s.activate b).bank b).state = .active ∧
    ((s.activate b).bank b).order = some (((s.retireOther b).bank b.other).order.getD 0 + 1) := by
  have hheader := (s.activationWalk_advances b).bank.header
  dsimp only at hheader
  rw [State.bank_setBank_same] at hheader
  rw [State.activate_records, State.withRecord_bank, hheader]
  exact ⟨rfl, rfl⟩

theorem State.activate_other : (s.activate b).bank b.other = (s.retireOther b).bank b.other := by
  have hother := (s.activationWalk_advances b).other
  dsimp only at hother
  rw [State.bank_setBank_other] at hother
  rw [State.activate_records, State.withRecord_bank, hother]

/-- The ACTIVATED record gives the numbers of the entries OPEN and closed LATE ACTIVATION. -/
theorem State.activationWalk_counts (hentries : ∀ e ∈ (s.bank b).entries, e.status = .pending ∨ e.status = .cancelled) :
    (s.activationWalk b).opened = ((s.activationWalk b).state.bank b).count .opened ∧
    (s.activationWalk b).closed = ((s.activationWalk b).state.bank b).count .lateActivation := by
  have hcounted := (s.activationWalk_advances b).counted (.inr rfl)
  have hnone (status : EntryStatus) (hpending : status ≠ .pending) (hcancelled : status ≠ .cancelled) :
      ((s.retireOther b).activated b).count status = 0 := by
    rw [Bank.count, State.activated, State.retireOther_bank, List.countP_eq_zero]
    intro e he hstatus
    rw [beq_iff_eq] at hstatus
    rcases hentries e he with h | h
    · exact hpending (hstatus.symm.trans h)
    · exact hcancelled (hstatus.symm.trans h)
  dsimp only at hcounted
  rw [State.bank_setBank_same, hnone .opened (by decide) (by decide), hnone .lateActivation (by decide) (by decide)] at hcounted
  omega

theorem State.judgeActivation_rests (h : (s.bank b).state ≠ .armed ∨ s.bankTimeNow b < 0 ∨ s.tb.setFlag = false) :
    s.judgeActivation b = s := by
  refine if_neg ?_
  rintro ⟨harmed, htime, hset⟩
  rcases h with h | h | h
  · exact h harmed
  · omega
  · rw [hset] at h
    cases h

/-! ## The walk of the checker -/

/-- A closing at the present instant, its record with the stamp of the state that it leaves. -/
theorem State.entryRecorded_now (r : EntryRef) (e : Entry) (status : EntryStatus) :
    s.entryRecorded r e status s.tb.now false false none =
      (s.entryClosed r { e with status := status, closing := some s.tb.now, result := none }).withRecord (s.levelOf .timetable)
        (.timetableResult r.bank r.index e.reference status none) := by
  have htb : (s.entryClosed r { e with status := status, closing := some s.tb.now, result := none }).tb = s.tb :=
    s.setBank_tb r.bank _
  rw [State.entryRecorded, State.offer, State.withRecord, htb]

/-- The steps of the checker, each for bank A and then for bank B. -/
theorem State.walk_eq : s.walk =
    let s1 := (s.judgeActivation .bankA).judgeActivation .bankB
    let s2 := (s1.walkActive .bankA).walkActive .bankB
    ((State.closePassed s2.openList.length s2).judgeEnd .bankA).judgeEnd .bankB := by
  rw [State.walk, bankIds]
  simp only [List.foldl_cons, List.foldl_nil]

/-- Settles O45: the walk is taken apart into its four steps; the advance is by `Bank.Advances`, the closing and the retirement by the
states that they leave. -/
theorem checkerActivatesWalksAndRetires : Obligations.CheckerActivatesWalksAndRetires := by
  refine ⟨State.walk_eq, fun s b => ⟨s.judgeActivation_rests b, fun harmed htime hset => ?_⟩,
    fun s b passed x y hactive hx hy => ?_, fun s b => ⟨fun h => if_pos h, fun h => if_neg h⟩,
    fun s t r e hroom he ht => ⟨?_, fun hnear hsorted => State.openEntry_sorted he hroom hnear hsorted⟩,
    fun s x y ex ey sx sy ahead hnear hex hey hsx hsy hahead => ?_,
    fun s t r rest e ht hlist he => ?_, fun s v n r rest e hlist he hv => ⟨fun htime => ?_, fun htime => ⟨fun hstay => ?_, ?_⟩⟩,
    fun s b => ⟨fun h => if_neg fun hand => ?_, fun hactive htime => if_pos ⟨hactive, htime⟩⟩,
    fun s v b hv => ⟨fun h => ?_, fun h => ?_⟩⟩
  case refine_1 =>
    have hactivate : s.judgeActivation b = s.activate b := if_pos ⟨harmed, htime, hset⟩
    obtain ⟨hstate, horder⟩ := s.activate_bank b
    rw [hactivate]
    refine ⟨hstate, ?_, fun m hm => ?_, fun v w hv hw => ?_⟩
    · rw [s.activate_other]
      exact s.retireOther_not_active b
    · rw [s.activate_other] at hm
      rw [horder, hm]
      rfl
    · have hwalk : w = s.activationWalk b := by rw [hw, hv]; rfl
      rw [hwalk]
      exact ⟨s.activate_records b, s.activationWalk_counts b⟩
  case refine_2 =>
    have hadvances := (State.walkBank_advances passed hactive).bank
    dsimp only at hadvances
    rw [← hx, ← hy] at hadvances
    exact ⟨y.nextToOpen, hadvances.forward, rfl, hadvances.length, hadvances.stops,
      fun k e he => ⟨hadvances.leaves he, hadvances.meets he⟩⟩
  case refine_3 =>
    obtain ⟨front, back, hlist, hinsert, hplace⟩ := t.insertRef_split r s.openList
    refine ⟨front, back, hlist, ?_, hplace⟩
    rw [State.openEntry_eq, if_pos hroom, State.entryOpened, ← hinsert, ← ht]
    rw [ht, State.setEntry_openList]
  case refine_4 =>
    rw [hahead]
    exact State.refBefore_iff ⟨hex, hsx, ex.closeTime_le⟩ ⟨hey, hsy, ey.closeTime_le⟩ (hnear.near hsx hsy)
  case refine_5 =>
    rw [ht] at hlist he ⊢
    exact State.closePassed_ends _ s (Nat.le_refl _) hlist he
  case refine_6 => rw [State.closePassed_head he hlist, if_neg (Int.not_lt.2 htime)]
  case refine_7 =>
    rw [State.closePassed_stays he hlist n htime hstay, State.entryRecorded_now, hv]
    rfl
  case refine_8 =>
    intro hstate hopen hlast
    obtain ⟨hclose, hbank, hother, helement, hjournal, hrest⟩ := State.closePassed_empties he hlist n htime hstate hopen hlast
    rw [State.entryRecorded_now] at hjournal hrest
    rw [hv]
    exact ⟨_, hclose, hbank, hother, helement, hjournal, hrest⟩
  case refine_9 =>
    obtain ⟨hactive, htime⟩ := hand
    rcases h with h | h
    · exact h hactive
    · omega
  case refine_10 =>
    rw [hv]
    exact s.retire_stays b h
  case refine_11 =>
    obtain ⟨hbank, hother, helement, hjournal, hrest⟩ := s.retire_empties b h
    rw [hv]
    exact ⟨hbank, hother, helement, hjournal, hrest⟩

end Sys2Proof.Machine
end

