-- ==== Sys2Proof/Proofs/LineDecisions.lean ====
section
/-! PROOFS. Sys2Proof/Proofs/LineDecisions.lean: the decision of a clock line and its records, and the starts of impulses and probes (R138,
R139, R142, R148). -/

namespace Sys2Proof.Machine

/-! ## What a decision finds (R138) -/

section Decision

variable {x : Line}

/-- The first table of R138, for a line that has a target. -/
theorem Line.judgeLag_some {lag : Nat} (h : x.lag = some lag) : x.judgeLag =
    if x.period.steps - x.waitSteps ≤ lag then (.waiting, false)
    else if lag = 0 then (.running, false)
    else if lag = 1 then (.running, true)
    else (.catchingUp, true) := by
  rw [Line.judgeLag, h]

theorem Line.judgeLag_none (h : x.target = none) : x.judgeLag = (.waiting, false) := by
  rw [Line.judgeLag, Line.lag, h]
  rfl

theorem Line.lag_some {t : Nat} (h : x.target = some t) : x.lag = some ((t + x.period.steps - x.position) % x.period.steps) := by
  rw [Line.lag, h]
  rfl

/-- The wait window leaves the dials a lag of at least half of their steps to catch up (R134). -/
theorem Line.waitSteps_le (h : x.waitWindow ≤ 360) : 2 * x.waitSteps ≤ x.period.steps := by
  unfold Line.waitSteps
  cases x.period <;> simp only [Period.steps] <;> omega

/-- A decision leaves a line that follows its target. -/
theorem Line.judgeLag_state (x : Line) : x.judgeLag.1 = .running ∨ x.judgeLag.1 = .waiting ∨ x.judgeLag.1 = .catchingUp := by
  unfold Line.judgeLag
  split
  · exact .inr (.inl rfl)
  · split
    · exact .inr (.inl rfl)
    · split
      · exact .inl rfl
      · split
        · exact .inl rfl
        · exact .inr (.inr rfl)

variable (x) (now : Nat)

theorem Line.decision_line : (x.decision now).line = { x with
    state := x.judgeLag.1
    nextStart := if x.judgeLag.2 && x.impulse.isNone then some (x.restedFrom now) else none } := rfl

theorem Line.decision_notes : (x.decision now).notes =
    (decisionEvents x.state x.judgeLag.1).map fun e => ⟨e, x.faultKind, x.position⟩ := rfl

variable {x}

/-- A finding that calls for no impulse. -/
theorem Line.decision_rests {y : LineState} (h : x.judgeLag = (y, false)) :
    (x.decision now).line = { x with state := y, nextStart := none } := by
  rw [Line.decision_line, h]
  rfl

/-- A finding that calls for impulses, between impulses. -/
theorem Line.decision_calls {y : LineState} (h : x.judgeLag = (y, true)) (himpulse : x.impulse = none) :
    (x.decision now).line = { x with state := y, nextStart := some (x.restedFrom now) } := by
  rw [Line.decision_line, h, himpulse]
  rfl

theorem Line.decision_targetless (h : x.target = none) : (x.decision now).line = { x with state := .waiting, nextStart := none } :=
  Line.decision_rests now (Line.judgeLag_none h)

/-- In an impulse the line is judged as without it, and no start is set. -/
theorem Line.decision_in_impulse (h : x.impulse ≠ none) : (x.decision now).line =
    { x with state := (Line.decision { x with impulse := none } now).line.state, nextStart := none } := by
  obtain ⟨i, hi⟩ := Option.ne_none_iff_exists'.1 h
  rw [Line.decision_line, hi, Option.isNone_some, Bool.and_false]
  rfl

/-! ## The records of a decision (R148, log entry 43) -/

theorem decisionEvents_same (a : LineState) : decisionEvents a a = [] := if_pos rfl

/-- A state other than CATCHING UP and WAITING has no record of its end. -/
theorem decisionEvents_from_other {a : LineState} (hcatching : a ≠ .catchingUp) (hwaiting : a ≠ .waiting) :
    decisionEvents a .running = [] ∧ decisionEvents a .waiting = [.waitBegun] ∧ decisionEvents a .catchingUp = [.catchUpBegun] := by
  cases a with
  | catchingUp => exact absurd rfl hcatching
  | waiting => exact absurd rfl hwaiting
  | unset | running | halted | fault => decide

end Decision

/-! ## A line's step in the state -/

section Facts

variable (s : State) (l : LineId)

/-- The records of a step are offered one after another, all at the level of the class CLOCK (R148, R151). -/
theorem State.applyLine_eq_foldl (d : LineStep) : s.applyLine l d = d.notes.foldl
    (fun u n => u.withRecord (s.levelOf .clock) (.clockLine l n.event n.fault n.position)) (s.setLine l d.line) := by
  rw [State.applyLine, State.reportAll_notes, State.foldl_withRecord]
  rfl

/-- One more record, behind the others of its step. -/
theorem State.applyLine_append (y : Line) (notes : List LineNote) (n : LineNote) : s.applyLine l ⟨y, notes ++ [n]⟩ =
    (s.applyLine l ⟨y, notes⟩).withRecord (s.levelOf .clock) (.clockLine l n.event n.fault n.position) := by
  rw [State.applyLine_eq_foldl, State.applyLine_eq_foldl, List.foldl_append]
  rfl

theorem State.applyLine_single (y : Line) (n : LineNote) : s.applyLine l ⟨y, [n]⟩ =
    (s.setLine l y).withRecord (s.levelOf .clock) (.clockLine l n.event n.fault n.position) :=
  s.applyLine_append l y [] n

/-- A decision that follows a record of its own event, on a line that was neither CATCHING UP nor WAITING: what the state becomes, by the
state that the decision finds. -/
theorem State.applyLine_decision_after {x y : Line} {now : Nat} {first : LineNote} {u : State} (hy : y = (x.decision now).line)
    (hu : u = (s.setLine l y).withRecord (s.levelOf .clock) (.clockLine l first.event first.fault first.position))
    (hcatching : x.state ≠ .catchingUp) (hwaiting : x.state ≠ .waiting) :
    (y.state = .running → s.applyLine l ((x.decision now).after [first]) = u) ∧
    (y.state = .waiting → s.applyLine l ((x.decision now).after [first]) =
      u.withRecord (s.levelOf .clock) (.clockLine l .waitBegun x.faultKind x.position)) ∧
    (y.state = .catchingUp → s.applyLine l ((x.decision now).after [first]) =
      u.withRecord (s.levelOf .clock) (.clockLine l .catchUpBegun x.faultKind x.position)) ∧
    (y.state = .running ∨ y.state = .waiting ∨ y.state = .catchingUp) := by
  obtain ⟨hrunning, hwait, hcatch⟩ := decisionEvents_from_other hcatching hwaiting
  have hstate : y.state = x.judgeLag.1 := by rw [hy]; rfl
  have hstep {events : List LineEvent} (h : decisionEvents x.state x.judgeLag.1 = events) : (x.decision now).after [first] =
      ⟨y, [first] ++ events.map fun e => ⟨e, x.faultKind, x.position⟩⟩ := by
    rw [LineStep.after, Line.decision_notes, h, hy]
  rw [← State.applyLine_single] at hu
  rw [hstate, hu]
  refine ⟨fun h => ?_, fun h => ?_, fun h => ?_, x.judgeLag_state⟩
  · rw [hstep ((congrArg _ h).trans hrunning)]
    rfl
  · rw [hstep ((congrArg _ h).trans hwait)]
    exact s.applyLine_append l y [first] _
  · rw [hstep ((congrArg _ h).trans hcatch)]
    exact s.applyLine_append l y [first] _

/-! ## The starts (R139, R142) -/

variable {s l}

/-- A timed event whose instant has come acts at once. -/
theorem State.event_reached {instant : State → Option Nat} {f : State → State} {t : Nat} (hi : s.initialising = false)
    (h : instant s = some t) (ht : t ≤ s.tb.instant) :
    s.event (fun s => if reached (instant (s.await (instant s))) (s.await (instant s)).tb.instant then f (s.await (instant s))
      else s.await (instant s)) = .next (f s) := by
  have hreached : reached (instant s) s.tb.instant = true := by simpa [reached, h] using ht
  rw [State.event_eq _ _ hi, show s.await (instant s) = s by rw [h, s.await_reached t ht], if_pos hreached]

theorem exec_impulseStart_reached {t : Nat} (hi : s.initialising = false) (himpulse : (s.line l).impulse = none)
    (hstart : (s.line l).nextStart = some t) (ht : t ≤ s.tb.instant) :
    exec (.impulseStart l) s = .next (s.setLine l ((s.line l).begin .step s.tb.instant)) := by
  have hinstant : (s.line l).startInstant = some t := by rw [Line.startInstant, himpulse, hstart]; rfl
  exact State.event_reached (instant := fun s => (s.line l).startInstant) (f := fun s => s.startLine l) hi hinstant ht

theorem exec_probeStart_reached {t : Nat} (hi : s.initialising = false) (himpulse : (s.line l).impulse = none)
    (hfault : (s.line l).state = .fault) (hprobe : (s.line l).nextProbe = some t)
    (ht : (s.line l).restedFrom t ≤ s.tb.instant) :
    exec (.probeStart l) s = .next (s.setLine l ((s.line l).begin .probe s.tb.instant)) := by
  have hinstant : (s.line l).probeInstant = some ((s.line l).restedFrom t) := by
    rw [Line.probeInstant, if_pos ⟨hfault, himpulse⟩, hprobe]
    rfl
  exact State.event_reached (instant := fun s => (s.line l).probeInstant)
    (f := fun s => s.setLine l ((s.line l).begin .probe s.tb.instant)) hi hinstant ht

/-- Nothing holds a line back once the spacing has passed since its last start (R142). -/
theorem Line.restedFrom_le {x : Line} {t now : Nat} (ht : t ≤ now) (h : ∀ b, x.lastStart = some b → b + ms x.spacing ≤ now) :
    x.restedFrom t ≤ now := by
  unfold Line.restedFrom
  split
  · exact Nat.max_le.2 ⟨ht, h _ ‹_›⟩
  · exact ht

end Facts

/-- Settles O48: the findings by the lag, the records by the states left and entered, and the starts at their instants. -/
theorem decisionsAndImpulseStarts : Obligations.DecisionsAndImpulseStarts := by
  refine ⟨fun x now t ht _ _ himpulse hwindow => ?_, fun x now => ⟨Line.decision_targetless now, Line.decision_in_impulse now⟩,
    fun x now y note hy hnote => ?_, fun s l d => s.applyLine_eq_foldl l d, fun s l t hi himpulse ht =>
      ⟨fun h => exec_impulseStart_reached hi himpulse h ht,
        fun hfault h hrest => exec_probeStart_reached hi himpulse hfault h (Line.restedFrom_le ht hrest)⟩⟩
  · have hjudge := Line.judgeLag_some (Line.lag_some ht)
    have hsteps := Line.waitSteps_le hwindow
    have hpos := x.period.steps_pos
    refine ⟨fun h => Line.decision_rests now ?_, fun hzero h => Line.decision_rests now ?_,
      fun hone => Line.decision_calls now ?_ himpulse, fun htwo h => Line.decision_calls now ?_ himpulse⟩
    · rw [hjudge, if_pos h]
    · rw [hjudge, if_neg (by omega), if_pos hzero]
    · have hlarge : 720 ≤ x.period.steps := by cases x.period <;> decide
      rw [hjudge, if_neg (by omega), if_neg (by omega), if_pos hone]
    · rw [hjudge, if_neg (by omega), if_neg (by omega), if_neg (by omega)]
  · have hnotes : (x.decision now).notes = (decisionEvents x.state y).map note := by
      rw [Line.decision_notes, hy, funext hnote]
      rfl
    rw [hnotes]
    refine ⟨fun h => by rw [h, decisionEvents_same]; rfl, fun hx h => by rw [hx, h]; rfl, fun hx h => by rw [hx, h]; rfl,
      fun hx h => by rw [hx, h]; rfl, fun hx h => by rw [hx, h]; rfl, fun hcatching hwaiting => ?_⟩
    obtain ⟨hrunning, hwait, hcatch⟩ := decisionEvents_from_other hcatching hwaiting
    exact ⟨fun h => by rw [h, hrunning]; rfl, fun h => by rw [h, hwait]; rfl, fun h => by rw [h, hcatch]; rfl⟩

end Sys2Proof.Machine
end

