-- ==== Sys2Proof/Proofs/Impulses.lean ====
section
/-! PROOFS. Sys2Proof/Proofs/Impulses.lean: the sample and the end of an impulse, with the result that it applies to its line (R138, R140 to
R143). -/

namespace Sys2Proof.Machine

/-! ## A good impulse (R140, R142) -/

section Result

variable (x : Line) (i : Impulse) (now : Nat)

/-- The line after a good impulse: one step further, at its polarity, and without a fault when it was a probe. -/
def Line.stepped : Line :=
  { x with
    impulse := none
    position := (x.position + 1) % x.period.steps
    lastPolarity := i.polarity
    faultKind := if i.purpose = .probe then none else x.faultKind }

/-- The record of a good impulse: a probe clears the fault (R142, log entry 26). -/
def Line.clearedNotes : List LineNote :=
  if i.purpose = .probe then [⟨.faultCleared, none, (x.position + 1) % x.period.steps⟩] else []

/-- A good impulse applies its result, and then halts the line or decides. -/
theorem Line.succeed_eq : x.succeed i now =
    (if x.haltPending then (x.stepped i).enterHalted else (x.stepped i).decision now).after (x.clearedNotes i) := by
  unfold Line.succeed Line.stepped Line.clearedNotes
  cases i.purpose <;> rfl

theorem Line.succeed_step (hpurpose : i.purpose = .step) (hhalt : x.haltPending = false) : x.succeed i now = Line.decision
    { x with impulse := none, position := (x.position + 1) % x.period.steps, lastPolarity := i.polarity } now := by
  rw [Line.succeed_eq, if_neg (by simp [hhalt]), Line.stepped, Line.clearedNotes, hpurpose]
  rfl

theorem Line.succeed_probe (hpurpose : i.purpose = .probe) (hhalt : x.haltPending = false) : x.succeed i now =
    (Line.decision { x with
      impulse := none, position := (x.position + 1) % x.period.steps, lastPolarity := i.polarity, faultKind := none } now).after
        [⟨.faultCleared, none, (x.position + 1) % x.period.steps⟩] := by
  rw [Line.succeed_eq, if_neg (by simp [hhalt]), Line.stepped, Line.clearedNotes, hpurpose]
  rfl

/-- With halt pending the line is HALTED behind the result (R143). -/
theorem Line.succeed_halting (hhalt : x.haltPending = true) : x.succeed i now =
    ⟨{ x.stepped i with state := .halted, haltPending := false, nextStart := none, nextProbe := none },
      x.clearedNotes i ++ [⟨.halted, (x.stepped i).faultKind, (x.position + 1) % x.period.steps⟩]⟩ := by
  rw [Line.succeed_eq, if_pos hhalt]
  rfl

/-! ## A failed impulse (R141, R142) -/

variable (kind : FaultKind) (ended : Nat)

/-- The record of a failed impulse: none for a probe that finds the same fault again (R142). -/
def Line.raisedNotes : List LineNote :=
  if i.purpose = .step ∨ x.faultKind ≠ some kind then [⟨.faultRaised, some kind, x.position⟩] else []

/-- A failed impulse leaves the line in FAULT with its next probe set. -/
theorem Line.fail_running (hhalt : x.haltPending = false) : x.fail i kind ended = ⟨{ x with
    impulse := none, state := .fault, faultKind := some kind, nextStart := none,
    nextProbe := some (ended + secs x.probeInterval), probeBase := some ended }, x.raisedNotes i kind⟩ := by
  unfold Line.fail Line.raisedNotes LineStep.after
  rw [hhalt]
  cases i.purpose with
  | step => rfl
  | probe => by_cases h : x.faultKind = some kind <;> simp [h, Line.note]

/-- With halt pending the line is HALTED instead, with its fault kind and no probe (R143). -/
theorem Line.fail_halting (hhalt : x.haltPending = true) : x.fail i kind ended = ⟨{ x with
    impulse := none, faultKind := some kind, state := .halted, haltPending := false, nextStart := none, nextProbe := none,
    probeBase := some ended }, x.raisedNotes i kind ++ [⟨.halted, some kind, x.position⟩]⟩ := by
  unfold Line.fail Line.raisedNotes LineStep.after
  rw [hhalt]
  cases i.purpose with
  | step => rfl
  | probe => by_cases h : x.faultKind = some kind <;> simp [h, Line.note, Line.enterHalted]

end Result

/-! ## The events -/

section Facts

variable {s : State} {l : LineId} {i : Impulse}

theorem exec_impulseSample_reached (hi : s.initialising = false) (himpulse : (s.line l).impulse = some i) (hjudged : i.judged = none)
    (ht : i.start + (i.finish - i.start) / 2 ≤ s.tb.instant) (sense : Sense) :
    exec (.impulseSample l sense) s = .next (s.applyLine l ((s.line l).sample i sense s.tb.instant)) := by
  have hinstant : (s.line l).sampleInstant = some (i.start + (i.finish - i.start) / 2) := by
    rw [Line.sampleInstant, himpulse]
    dsimp only
    rw [Impulse.sampleInstant, hjudged]
    rfl
  have hsample : s.sampleLine l sense = s.applyLine l ((s.line l).sample i sense s.tb.instant) := by
    rw [State.sampleLine, himpulse]
  exact (State.event_reached (instant := fun s => (s.line l).sampleInstant) (f := fun s => s.sampleLine l sense) hi hinstant
    ht).trans (congrArg _ hsample)

theorem exec_impulseEnd_reached {sense : Sense} (hi : s.initialising = false) (himpulse : (s.line l).impulse = some i)
    (hjudged : i.judged = some sense) (ht : i.finish ≤ s.tb.instant) :
    exec (.impulseEnd l) s = .next (s.applyLine l ((s.line l).finish i s.tb.instant)) := by
  have hinstant : (s.line l).endInstant = some i.finish := by
    rw [Line.endInstant, himpulse]
    dsimp only
    rw [hjudged]
    rfl
  have hfinish : s.finishLine l = s.applyLine l ((s.line l).finish i s.tb.instant) := by
    rw [State.finishLine, himpulse]
  exact (State.event_reached (instant := fun s => (s.line l).endInstant) (f := fun s => s.finishLine l) hi hinstant ht).trans
    (congrArg _ hfinish)

/-- The end of an impulse judged OK (R140). -/
theorem exec_impulseEnd_healthy (hi : s.initialising = false) (himpulse : (s.line l).impulse = some i)
    (hjudged : i.judged = some .healthy) (ht : i.finish ≤ s.tb.instant) :
    exec (.impulseEnd l) s = .next (s.applyLine l ((s.line l).succeed i s.tb.instant)) := by
  rw [exec_impulseEnd_reached hi himpulse hjudged ht, Line.finish, hjudged]

/-- The end of an impulse judged LOW (R141). -/
theorem exec_impulseEnd_below (hi : s.initialising = false) (himpulse : (s.line l).impulse = some i)
    (hjudged : i.judged = some .below) (ht : i.finish ≤ s.tb.instant) :
    exec (.impulseEnd l) s = .next (s.applyLine l ((s.line l).fail i .opened i.finish)) := by
  rw [exec_impulseEnd_reached hi himpulse hjudged ht, Line.finish, hjudged]

variable (s l) (x y : Line) (i)

/-- What a failed impulse leaves of the state, by whether the fault is raised anew. -/
theorem State.applyLine_raised (kind : FaultKind) : s.applyLine l ⟨y, x.raisedNotes i kind⟩ =
    if i.purpose = .step ∨ x.faultKind ≠ some kind then
      (s.setLine l y).withRecord (s.levelOf .clock) (.clockLine l .faultRaised (some kind) x.position)
    else s.setLine l y := by
  unfold Line.raisedNotes
  split
  · exact s.applyLine_single l y _
  · rfl

theorem State.applyLine_cleared : s.applyLine l ⟨y, x.clearedNotes i⟩ =
    if i.purpose = .probe then
      (s.setLine l y).withRecord (s.levelOf .clock) (.clockLine l .faultCleared none ((x.position + 1) % x.period.steps))
    else s.setLine l y := by
  unfold Line.clearedNotes
  split
  · exact s.applyLine_single l y _
  · rfl

end Facts

/-- Settles O49: the sample, and the ends of a step, of a probe, and of either with halt pending. -/
theorem sampleAndEndOfAnImpulse : Obligations.SampleAndEndOfAnImpulse := by
  refine ⟨fun s l i x hi hx himpulse hjudged ht => ?_, fun s l i x hi hx himpulse hpurpose hhalt ht => ?_,
    fun s l i x hi hx himpulse hpurpose hfault hhalt ht => ?_, fun s l i x hi hx himpulse hhalt => ?_⟩
  all_goals subst hx
  · have hsample := exec_impulseSample_reached hi himpulse hjudged ht
    refine ⟨hsample .healthy, hsample .below, fun y hhalt hy => ?_⟩
    have habove : exec (.impulseSample l .above) s = .next (s.applyLine l ((s.line l).fail i .short s.tb.instant)) := hsample .above
    rw [Line.fail_running _ _ _ _ hhalt, State.applyLine_raised, ← hy] at habove
    exact ⟨fun h => by rw [habove, if_pos h], fun hprobe hshort => by rw [habove, if_neg (by simp [hprobe, hshort])]⟩
  · refine ⟨fun d hjudged hd => ?_, fun hjudged => ?_⟩
    · have hend := exec_impulseEnd_healthy hi himpulse hjudged ht
      rw [Line.succeed_step _ _ _ hpurpose hhalt, ← hd] at hend
      have hperiod : d.line.period = (s.line l).period := by rw [hd]; rfl
      refine ⟨_, hend, rfl, s.applyLine_line_same l d, ?_, ?_, ?_, ?_, ?_, fun k hk => s.applyLine_line_other l k d hk,
        (s.applyLine_only l d hperiod).eq⟩
      all_goals rw [hd]; rfl
    · rw [exec_impulseEnd_below hi himpulse hjudged ht, Line.fail_running _ _ _ _ hhalt, State.applyLine_raised, if_pos (.inl hpurpose)]
  · refine ⟨fun y u hjudged hy hu => ?_, fun y hjudged hy => ?_⟩
    · have hend := exec_impulseEnd_healthy hi himpulse hjudged ht
      rw [Line.succeed_probe _ _ _ hpurpose hhalt] at hend
      have hother : (s.line l).state ≠ .catchingUp ∧ (s.line l).state ≠ .waiting := by rw [hfault]; decide
      obtain ⟨hrunning, hwaiting, hcatching, hstate⟩ := s.applyLine_decision_after l
        (first := ⟨.faultCleared, none, ((s.line l).position + 1) % (s.line l).period.steps⟩) hy hu hother.1 hother.2
      refine ⟨fun h => hend.trans (congrArg _ (hrunning h)), fun h => hend.trans (congrArg _ (hwaiting h)),
        fun h => hend.trans (congrArg _ (hcatching h)), hstate, ?_, ?_, ?_, ?_, ?_, ?_, fun htarget => ?_⟩
      case refine_7 =>
        rw [hy.trans (Line.decision_targetless s.tb.instant htarget)]
        exact ⟨rfl, rfl⟩
      all_goals rw [hy]; rfl
    · have hend := exec_impulseEnd_below hi himpulse hjudged ht
      rw [Line.fail_running _ _ _ _ hhalt, State.applyLine_raised, ← hfault, ← hy] at hend
      exact ⟨fun h => by rw [hend, if_neg (by simp [hpurpose, h])], fun h => by rw [hend, if_pos (.inr h)]⟩
  · refine ⟨fun y u ht hjudged hy hu => ?_, fun kind ended u hu v hv => ⟨fun hkind hended ht hjudged => ?_,
      fun hkind hended hjudged ht => ?_⟩⟩
    · rw [exec_impulseEnd_healthy hi himpulse hjudged ht, Line.succeed_halting _ _ _ hhalt, State.applyLine_append,
        State.applyLine_cleared, hu, hy]
      rfl
    · subst hkind hended
      rw [exec_impulseEnd_below hi himpulse hjudged ht, Line.fail_halting _ _ _ _ hhalt, State.applyLine_append,
        State.applyLine_raised, hv, hu]
    · have habove : exec (.impulseSample l .above) s = .next (s.applyLine l ((s.line l).fail i .short s.tb.instant)) :=
        exec_impulseSample_reached hi himpulse hjudged ht .above
      subst hkind hended
      rw [habove, Line.fail_halting _ _ _ _ hhalt, State.applyLine_append, State.applyLine_raised, hv, hu]

end Sys2Proof.Machine
end

