-- ==== Sys2Proof/Proofs/LineRequests.lean ====
section
/-! PROOFS. Sys2Proof/Proofs/LineRequests.lean: SET LINE, SET POSITION, HALT and RUN on a clock line of every state (R134, R135, R143 to
R145). -/

namespace Sys2Proof.Machine

/-! ## Codes (R187) -/

@[simp] theorem Period.ofCode_code (p : Period) : Period.ofCode p.code.toNat = some p := by cases p <;> rfl

@[simp] theorem Polarity.ofCode_code (k : Polarity) : Polarity.ofCode k.code.toNat = some k := by cases k <;> rfl

theorem Period.ofCode_none {n : Nat} (h : 2 ≤ n) : Period.ofCode n = none := by
  unfold Period.ofCode
  split
  case h_3 => rfl
  all_goals omega

theorem Polarity.ofCode_none {n : Nat} (h : 2 ≤ n) : Polarity.ofCode n = none := by
  unfold Polarity.ofCode
  split
  case h_3 => rfl
  all_goals omega

/-! ## Timings as taken (R134, R174) -/

theorem takeSetting_fifty (lo hi raw : Nat) (h : lo ≤ hi) : takeSetting lo hi 50 raw =
    ⟨(max lo (min hi raw) + 25) / 50 * 50, (max lo (min hi raw) + 25) / 50 * 50 != raw⟩ := by
  have hvalue (n : Nat) : (2 * n + 50) / (2 * 50) = (n + 25) / 50 := by omega
  rw [takeSetting_eq lo hi 50 raw h, hvalue]

/-- The four settings as taken, the spacing against the width just taken, and the note whether any was changed. -/
theorem takeTimings_eq {width spacing wait probe w b v i : Nat} {changed : Bool} (hw : w = (max 100 (min 2000 width) + 25) / 50 * 50)
    (hb : b = (max (w + 200) (min 10000 spacing) + 25) / 50 * 50) (hv : v = min 360 wait) (hi : i = max 10 (min 600 probe))
    (hchanged : changed = false ↔ w = width ∧ b = spacing ∧ v = wait ∧ i = probe) :
    takeTimings width spacing wait probe = ⟨⟨w, b, v, i⟩, changed⟩ := by
  have hwidth : takeSetting 100 2000 50 width = ⟨w, w != width⟩ := by rw [takeSetting_fifty _ _ _ (by decide), ← hw]
  have hspacing : takeSetting (w + 200) 10000 50 spacing = ⟨b, b != spacing⟩ := by rw [takeSetting_fifty _ _ _ (by omega), ← hb]
  have hwait : takeSetting 0 360 1 wait = ⟨v, v != wait⟩ := by rw [takeSetting_unit _ _ _ (by decide), Nat.zero_max, ← hv]
  have hprobe : takeSetting 10 600 1 probe = ⟨i, i != probe⟩ := by rw [takeSetting_unit _ _ _ (by decide), ← hi]
  have hnote : (w != width || b != spacing || v != wait || i != probe) = changed := by
    have hnone : (w != width || b != spacing || v != wait || i != probe) = false ↔ changed = false := by
      simp only [Bool.or_eq_false_iff, bne_eq_false_iff_eq, hchanged, and_assoc]
    exact Bool.not_inj (Bool.coe_false_iff_false.1 hnone)
  rw [takeTimings, hwidth]
  dsimp only
  rw [hspacing, hwait, hprobe, hnote]

/-! ## SET LINE on a line (R134) -/

section Line

variable {x : Line} (t : LineTimings) (now : Nat)

theorem Line.setTimings_kept (h : x.impulse ≠ none ∨ x.state = .halted ∨ x.state = .unset) :
    x.setTimings t now = ⟨x.withTimings t, []⟩ := by
  unfold Line.setTimings
  dsimp only
  rcases h with h | h | h
  · rw [if_pos (Option.isSome_iff_ne_none.2 h)]
  · simp [h, LineState.following]
  · simp [h, LineState.following]

theorem Line.setTimings_following (himpulse : x.impulse = none) (h : x.state.following = true) :
    x.setTimings t now = (x.withTimings t).decision now := by
  unfold Line.setTimings
  dsimp only
  rw [himpulse, if_neg (by decide), if_pos h]

/-- On a FAULT line the next probe is the base with the new interval. -/
theorem Line.setTimings_fault (himpulse : x.impulse = none) (h : x.state = .fault) {base : Nat} (hbase : x.probeBase = some base) :
    x.setTimings t now = ⟨{ x.withTimings t with nextProbe := some (base + secs t.probe) }, []⟩ := by
  unfold Line.setTimings
  dsimp only
  rw [himpulse, h, hbase]
  rfl

theorem Line.setTimings_baseless (himpulse : x.impulse = none) (h : x.state = .fault) (hbase : x.probeBase = none) :
    x.setTimings t now = ⟨x.withTimings t, []⟩ := by
  unfold Line.setTimings
  dsimp only
  rw [himpulse, h, hbase]
  rfl

/-- The line reports its settings as they were taken, whatever its state. -/
theorem Line.setTimings_timings (x : Line) : (x.setTimings t now).line.timings = (x.withTimings t).timings := by
  unfold Line.setTimings
  dsimp only
  split
  · rfl
  · split
    · rfl
    · split
      · split <;> rfl
      · rfl

/-! ## SET POSITION, HALT and RUN on a line (R143 to R145) -/

variable (d : Nat) (k : Polarity)

theorem Line.place_kept (h : x.state = .halted ∨ x.state = .fault) : x.place d k now =
    ⟨{ x with position := d, lastPolarity := k }, [⟨.positionSet, x.faultKind, d⟩]⟩ := by
  unfold Line.place
  rcases h with h | h <;> rw [h] <;> rfl

theorem Line.place_decides (hhalted : x.state ≠ .halted) (hfault : x.state ≠ .fault) : x.place d k now =
    (Line.decision { x with position := d, lastPolarity := k } now).after [⟨.positionSet, x.faultKind, d⟩] := by
  have hdecides : (x.state.following || x.state == .unset) = true := by
    cases h : x.state with
    | halted => exact absurd h hhalted
    | fault => exact absurd h hfault
    | unset | running | catchingUp | waiting => rfl
  unfold Line.place
  dsimp only
  rw [if_pos hdecides]
  rfl

theorem Line.halt_halted (h : x.state = .halted) : x.halt = ⟨x, []⟩ := if_pos h

theorem Line.halt_pending (h : x.state ≠ .halted) (himpulse : x.impulse ≠ none) : x.halt = ⟨{ x with haltPending := true }, []⟩ := by
  rw [Line.halt, if_neg h, if_pos (Option.isSome_iff_ne_none.2 himpulse)]

theorem Line.halt_at_once (h : x.state ≠ .halted) (himpulse : x.impulse = none) : x.halt = x.enterHalted := by
  rw [Line.halt, if_neg h, himpulse]
  rfl

theorem Line.run_decides (h : x.state = .halted) (hfault : x.faultKind = none) :
    x.run now = (x.decision now).after [⟨.run, none, x.position⟩] := by
  rw [Line.run, if_pos h, Line.note, hfault]

theorem Line.run_fault (h : x.state = .halted) {kind : FaultKind} (hfault : x.faultKind = some kind) : x.run now =
    ⟨{ x with state := .fault, nextProbe := some now, probeBase := none }, [⟨.run, some kind, x.position⟩]⟩ := by
  rw [Line.run, if_pos h, Line.note, hfault]
  rfl

theorem Line.run_elsewhere (h : x.state ≠ .halted) : x.run now = ⟨{ x with haltPending := false }, []⟩ := if_neg h

end Line

/-! ## The requests -/

section Facts

variable {s : State} {r : Request} {l : LineId}

/-- A step that leaves its line as it was, without a record. -/
theorem State.applyLine_unchanged (s : State) (l : LineId) : s.applyLine l ⟨s.line l, []⟩ = s := by
  show s.setLine l (s.line l) = s
  simp [State.setLine, State.line]

/-- The octets of a SET LINE whose line and period are named. -/
theorem reqSetLine_named (period : Period) {width spacing wait probe : Nat} (hwidth : width < 65536) (hspacing : spacing < 65536)
    (hwait : wait < 65536) (hprobe : probe < 65536) :
    reqSetLine ([BitVec.ofNat 8 l.val, period.code] ++ be 2 width ++ be 2 spacing ++ be 2 wait ++ be 2 probe) s =
      s.setLineSettings l period (takeTimings width spacing wait probe) := by
  simp only [be_two, List.cons_append, List.nil_append, reqSetLine, lineOf_ofNat, Period.ofCode_code, ofBe_two hwidth,
    ofBe_two hspacing, ofBe_two hwait, ofBe_two hprobe]

theorem reqSetLine_unnamed {line code : Byte} (h : 4 ≤ line.toNat ∨ 2 ≤ code.toNat) (w1 w0 b1 b0 v1 v0 i1 i0 : Byte) :
    reqSetLine [line, code, w1, w0, b1, b0, v1, v0, i1, i0] s = refuse s .range := by
  rw [reqSetLine]
  rcases h with h | h
  · rw [lineOf_out_of_range line h]
  · rw [Period.ofCode_none h]
    cases lineOf line <;> rfl

theorem State.setLineSettings_busy {period : Period} (t : TakenTimings) (h : (s.line l).period ≠ period)
    (himpulse : (s.line l).impulse ≠ none) : s.setLineSettings l period t = refuse s .busy :=
  if_pos ⟨h.symm, Option.isSome_iff_ne_none.2 himpulse⟩

theorem State.setLineSettings_same {period : Period} (t : TakenTimings) (h : (s.line l).period = period) {y : LineStep}
    (hy : (s.line l).setTimings t.timings s.tb.instant = y) : s.setLineSettings l period t = answerTaken (s.applyLine l y) t.changed
      ([period.code] ++ ((s.line l).withTimings t.timings).timings ++ [y.line.state.code]) := by
  rw [State.setLineSettings, if_neg (fun hand => hand.1 h.symm), if_pos h.symm]
  dsimp only
  rw [State.applyLine_line_same, Line.setTimings_timings, hy]

theorem State.setLineSettings_other {period : Period} (t : TakenTimings) (h : (s.line l).period ≠ period)
    (himpulse : (s.line l).impulse = none) : s.setLineSettings l period t =
      answerTaken (s.applyLine l ((s.line l).setPeriod period t.timings (s.tb.target period))) t.changed
        ([period.code] ++ ((s.line l).withTimings t.timings).timings ++ [LineState.unset.code]) := by
  rw [State.setLineSettings, if_neg (by simp [himpulse]), if_neg h.symm]
  dsimp only
  rw [State.applyLine_line_same]
  rfl

theorem reqSetPosition_named {d : Nat} (hd : d < 65536) (k : Polarity) :
    reqSetPosition ([BitVec.ofNat 8 l.val] ++ be 2 d ++ [k.code]) s = s.setPosition l d k := by
  simp only [be_two, List.cons_append, List.nil_append, reqSetPosition, lineOf_ofNat, Polarity.ofCode_code, ofBe_two hd]

theorem reqSetPosition_unnamed {line code : Byte} (h : 4 ≤ line.toNat ∨ 2 ≤ code.toNat) (d1 d0 : Byte) :
    reqSetPosition [line, d1, d0, code] s = refuse s .range := by
  rw [reqSetPosition]
  rcases h with h | h
  · rw [lineOf_out_of_range line h]
  · rw [Polarity.ofCode_none h]
    cases lineOf line <;> rfl

theorem State.setPosition_done {d : Nat} {k : Polarity} (hd : d < (s.line l).period.steps) (himpulse : (s.line l).impulse = none)
    {y : LineStep} (hy : (s.line l).place d k s.tb.instant = y) :
    s.setPosition l d k = answer (s.applyLine l y) (be 2 d ++ [k.code, y.line.state.code]) := by
  rw [State.setPosition, if_neg (Nat.not_le.2 hd), if_neg (by simp [himpulse]), hy]
  dsimp only
  rw [State.applyLine_line_same]

theorem State.setPosition_busy {d : Nat} {k : Polarity} (hd : d < (s.line l).period.steps) (himpulse : (s.line l).impulse ≠ none) :
    s.setPosition l d k = refuse s .busy := by
  rw [State.setPosition, if_neg (Nat.not_le.2 hd), if_pos (Option.isSome_iff_ne_none.2 himpulse)]

theorem lineRequest_done {f : Line → State → LineStep} (h : (s.line l).state ≠ .unset) {y : LineStep} (hy : f (s.line l) s = y) :
    lineRequest f [BitVec.ofNat 8 l.val] s = answer (s.applyLine l y) [y.line.state.code, flag y.line.haltPending] := by
  rw [lineRequest, lineOf_ofNat]
  dsimp only
  rw [if_neg h, hy, State.applyLine_line_same]

theorem lineRequest_unset (f : Line → State → LineStep) (h : (s.line l).state = .unset) :
    lineRequest f [BitVec.ofNat 8 l.val] s = refuse s .state := by
  rw [lineRequest, lineOf_ofNat]
  exact if_pos h

theorem lineRequest_unnamed (f : Line → State → LineStep) {line : Byte} (h : 4 ≤ line.toNat) :
    lineRequest f [line] s = refuse s .range := by
  rw [lineRequest, lineOf_out_of_range line h]

/-! ## The commands -/

theorem exec_setLine_same {period : Period} {t : TakenTimings} (hs : s.ready)
    (hrequest : reqSetLine r.params (s.taking 50 r) = (s.taking 50 r).setLineSettings l period t)
    (hperiod : (s.line l).period = period) {y : LineStep} (hy : (s.line l).setTimings t.timings s.tb.instant = y)
    {state : LineState} (hstate : y.line.state = state) : exec (.setLine r) s =
      .next (((s.taking 50 r).applyLine l y).respond 50 r
        (taken t.changed ([period.code] ++ ((s.line l).withTimings t.timings).timings ++ [state.code]))) := by
  rw [← hstate]
  exact s.next_serve hs 50 r (hrequest.trans (State.setLineSettings_same (s := s.taking 50 r) t hperiod hy))

/-- Another period leaves the line UNSET, with one record (R135). -/
theorem exec_setLine_other {period : Period} {t : TakenTimings} (hs : s.ready)
    (hrequest : reqSetLine r.params (s.taking 50 r) = (s.taking 50 r).setLineSettings l period t)
    (hperiod : (s.line l).period ≠ period) (himpulse : (s.line l).impulse = none) : exec (.setLine r) s =
      .next ((((s.taking 50 r).setLine l ((s.line l).setPeriod period t.timings (s.tb.target period)).line).withRecord
        (s.levelOf .clock) (.clockLine l .unset (s.line l).faultKind 0)).respond 50 r
          (taken t.changed ([period.code] ++ ((s.line l).withTimings t.timings).timings ++ [LineState.unset.code]))) := by
  have hother := State.setLineSettings_other (s := s.taking 50 r) t hperiod himpulse
  rw [Line.setPeriod, State.applyLine_single] at hother
  exact s.next_serve hs 50 r (hrequest.trans hother)

theorem exec_halt_done (hs : s.ready) (hp : r.params = [BitVec.ofNat 8 l.val]) (h : (s.line l).state ≠ .unset) {y : LineStep}
    (hy : (s.line l).halt = y) : exec (.halt r) s =
      .next (((s.taking 52 r).applyLine l y).respond 52 r (.done [y.line.state.code, flag y.line.haltPending])) :=
  s.next_serve hs 52 r (by rw [hp, lineRequest_done (s := s.taking 52 r) h hy]; rfl)

theorem exec_run_done (hs : s.ready) (hp : r.params = [BitVec.ofNat 8 l.val]) (h : (s.line l).state ≠ .unset) {y : LineStep}
    (hy : (s.line l).run s.tb.instant = y) : exec (.run r) s =
      .next (((s.taking 53 r).applyLine l y).respond 53 r (.done [y.line.state.code, flag y.line.haltPending])) :=
  s.next_serve hs 53 r (by rw [hp, lineRequest_done (s := s.taking 53 r) h hy]; rfl)

theorem exec_setPosition_done {d : Nat} {k : Polarity} (hs : s.ready) (hd : d < 65536)
    (hp : r.params = [BitVec.ofNat 8 l.val] ++ be 2 d ++ [k.code]) (h : d < (s.line l).period.steps)
    (himpulse : (s.line l).impulse = none) {y : LineStep} (hy : (s.line l).place d k s.tb.instant = y) :
    exec (.setPosition r) s =
      .next (((s.taking 51 r).applyLine l y).respond 51 r (.done (be 2 d ++ [k.code, y.line.state.code]))) :=
  s.next_serve hs 51 r (by rw [hp, reqSetPosition_named hd, State.setPosition_done (s := s.taking 51 r) h himpulse hy]; rfl)

end Facts

/-- Settles O50: each request by the state of its line and the impulse in progress. -/
theorem lineRequestsOnARestingLine : Obligations.LineRequestsOnARestingLine := by
  refine ⟨fun s r l period width spacing wait probe w b v i changed x y answer hs hx hwidth hspacing hwait hprobe hw hb hv hi
      hchanged hy hanswer hp => ?_,
    fun s r l d k x y hs hx hd hy hp => ?_, fun s r l hs => ⟨fun hp => ?_, fun hstate hfault htarget hhalt hp => ?_, fun h hp => ?_⟩,
    fun s r l x y u hs hx hp hy hu => ?_, fun s r line code hs => ⟨fun hp h => ?_, fun d1 d0 hp h => ?_,
      fun w1 w0 b1 b0 v1 v0 i1 i0 hp h => ?_⟩⟩
  · subst hx
    obtain rfl : y = (s.line l).withTimings ⟨w, b, v, i⟩ := hy
    have hrequest : reqSetLine r.params (s.taking 50 r) = (s.taking 50 r).setLineSettings l period ⟨⟨w, b, v, i⟩, changed⟩ := by
      rw [hp, reqSetLine_named period hwidth hspacing hwait hprobe, takeTimings_eq hw hb hv hi hchanged]
    have hreply (state : LineState) : taken changed
        ([period.code] ++ ((s.line l).withTimings ⟨w, b, v, i⟩).timings ++ [state.code]) = answer state.code := by
      rw [hanswer]
      rfl
    refine ⟨fun hperiod => ?_, fun hperiod himpulse => ?_, fun hperiod himpulse => s.next_serve hs 50 r
      (hrequest.trans (State.setLineSettings_busy (s := s.taking 50 r) _ hperiod himpulse))⟩
    · have hsame {z : LineStep} (h : (s.line l).setTimings ⟨w, b, v, i⟩ s.tb.instant = z) {state : LineState}
          (hstate : z.line.state = state) : exec (.setLine r) s =
            .next (((s.taking 50 r).applyLine l z).respond 50 r (answer state.code)) := by
        rw [← hreply]
        exact exec_setLine_same hs hrequest hperiod h hstate
      exact ⟨fun h => hsame (Line.setTimings_kept _ _ h) rfl,
        fun himpulse h => hsame (Line.setTimings_following _ _ himpulse ((s.line l).following_iff.2 h)) rfl,
        fun himpulse hfault => ⟨fun t ht => hsame (Line.setTimings_fault _ _ himpulse hfault ht) hfault,
          fun hbase => hsame (Line.setTimings_baseless _ _ himpulse hfault hbase) hfault⟩⟩
    · have hother := exec_setLine_other hs hrequest hperiod himpulse
      rw [hreply] at hother
      exact hother
  · subst hx
    have hrequest : reqSetPosition r.params (s.taking 51 r) = (s.taking 51 r).setPosition l d k := by
      rw [hp, reqSetPosition_named hd]
    refine ⟨fun h => s.next_serve hs 51 r (hrequest.trans (if_pos h)), fun h himpulse => s.next_serve hs 51 r (hrequest.trans
      (State.setPosition_busy (s := s.taking 51 r) h himpulse)), fun h himpulse => ?_⟩
    have hdone {z : LineStep} := exec_setPosition_done hs hd hp h himpulse (y := z)
    refine ⟨fun hkept => ?_, fun hhalted hfault => ?_⟩
    · rw [hdone (Line.place_kept _ _ _ hkept), State.applyLine_single, hy]
      rfl
    · rw [hdone (Line.place_decides _ _ _ hhalted hfault), hy]
      rfl
  · refine ⟨fun hhalted hunset himpulse => ?_, fun hhalted hunset himpulse => ?_, fun hhalted => ?_⟩
    · rw [exec_halt_done hs hp hunset (Line.halt_at_once hhalted himpulse), Line.enterHalted, State.applyLine_single]
      rfl
    · rw [exec_halt_done hs hp hunset (Line.halt_pending hhalted himpulse)]
      rfl
    · have hunset : (s.line l).state ≠ .unset := by rw [hhalted]; decide
      have hsame : (s.taking 52 r).applyLine l ⟨s.line l, []⟩ = s.taking 52 r := (s.taking 52 r).applyLine_unchanged l
      rw [exec_halt_done hs hp hunset (Line.halt_halted hhalted), hsame, hhalted]
      rfl
  · have hunset : (s.line l).state ≠ .unset := by rw [hstate]; decide
    have hline : ((s.line l).run s.tb.instant).line = { s.line l with state := .waiting, nextStart := none } := by
      rw [Line.run_decides _ hstate hfault]
      exact Line.decision_targetless _ htarget
    have honly := (s.taking 53 r).applyLine_only l ((s.line l).run s.tb.instant) (by rw [hline]; rfl)
    have hrun := exec_run_done hs hp hunset rfl
    rw [hline, hhalt] at hrun
    exact ⟨_, hrun, ((s.taking 53 r).applyLine_line_same l _).trans hline,
      fun k hk => (s.taking 53 r).applyLine_line_other l k _ hk, honly.eq⟩
  · exact ⟨s.next_serve hs 52 r (by rw [hp, lineRequest_unset (s := s.taking 52 r) _ h]; rfl),
      s.next_serve hs 53 r (by rw [hp, lineRequest_unset (s := s.taking 53 r) _ h]; rfl)⟩
  · subst hx
    refine ⟨fun hstate hfault => ?_, fun kind hstate hfault => ?_, fun hhalted hunset => ?_⟩
    · have hunset : (s.line l).state ≠ .unset := by rw [hstate]; decide
      have hother : (s.line l).state ≠ .catchingUp ∧ (s.line l).state ≠ .waiting := by rw [hstate]; decide
      have hstep := Line.run_decides s.tb.instant hstate hfault
      have hrun : exec (.run r) s = .next (((s.taking 53 r).applyLine l ((s.line l).run s.tb.instant)).respond 53 r
          (.done [y.state.code, flag (s.line l).haltPending])) := by
        rw [hstep, hy]
        exact exec_run_done hs hp hunset hstep
      obtain ⟨hrunning, hwaiting, hcatching, hdecided⟩ := (s.taking 53 r).applyLine_decision_after l
        (first := ⟨.run, none, (s.line l).position⟩) hy hu hother.1 hother.2
      rw [← hstep] at hrunning hwaiting hcatching
      rw [hfault] at hwaiting hcatching
      rw [hrun]
      exact ⟨fun h => by rw [hrunning h, h]; rfl, fun h => by rw [hwaiting h, h]; rfl, fun h => by rw [hcatching h, h]; rfl, hdecided⟩
    · have hunset : (s.line l).state ≠ .unset := by rw [hstate]; decide
      rw [exec_run_done hs hp hunset (Line.run_fault _ hstate hfault), State.applyLine_single]
      rfl
    · rw [exec_run_done hs hp hunset (Line.run_elsewhere _ hhalted)]
      rfl
  · exact ⟨s.next_serve hs 52 r (by rw [hp, lineRequest_unnamed _ h]; rfl),
      s.next_serve hs 53 r (by rw [hp, lineRequest_unnamed _ h]; rfl)⟩
  · exact s.next_serve hs 51 r (by rw [hp, reqSetPosition_unnamed h]; rfl)
  · exact s.next_serve hs 50 r (by rw [hp, reqSetLine_unnamed h]; rfl)

end Sys2Proof.Machine
end

