-- ==== Sys2Proof/Proofs/JournalRequests.lean ====
section
/-! PROOFS. Sys2Proof/Proofs/JournalRequests.lean: the journal's judgements of sequence numbers, its admission of records, its ALERT output,
and the requests SET CLASS, SET ALERT, READ JOURNAL and RELEASE (R152, R153, R156 to R158, R160, R162 to R164). -/

namespace Sys2Proof.Machine

section Journal

variable (j : Journal)

/-! ## The place of a sequence number (R160) -/

theorem Journal.place_eq (n : SeqNo) : j.place n =
    if (n - j.next).toNat < 2147483648 then .ahead
    else if 1 ≤ (j.next - n).toNat ∧ (j.next - n).toNat ≤ j.fill then .held else .behind := rfl

theorem Journal.place_ahead {n : SeqNo} (h : (n - j.next).toNat < 2147483648) : j.place n = .ahead := if_pos h

theorem Journal.place_held {n : SeqNo} (h : ¬ (n - j.next).toNat < 2147483648)
    (hheld : 1 ≤ (j.next - n).toNat ∧ (j.next - n).toNat ≤ j.fill) : j.place n = .held := by
  rw [j.place_eq, if_neg h, if_pos hheld]

theorem Journal.place_behind {n : SeqNo} (h : ¬ (n - j.next).toNat < 2147483648)
    (hheld : ¬ (1 ≤ (j.next - n).toNat ∧ (j.next - n).toNat ≤ j.fill)) : j.place n = .behind := by
  rw [j.place_eq, if_neg h, if_neg hheld]

/-- A number that is held names one of the records, the newest one at a distance of 1 from the counter. -/
theorem Journal.held_bounds {n : SeqNo} (h : j.place n = .held) : 1 ≤ (j.next - n).toNat ∧ (j.next - n).toNat ≤ j.fill := by
  rw [j.place_eq] at h
  split at h
  · cases h
  · split at h
    · assumption
    · cases h

theorem Journal.place_of_empty (n : SeqNo) (h : j.fill = 0) : j.place n = .ahead ∨ j.place n = .behind := by
  cases hplace : j.place n with
  | ahead => exact .inl rfl
  | behind => exact .inr rfl
  | held =>
    have := j.held_bounds hplace
    omega

theorem Journal.releaseCount_held {n : SeqNo} (h : j.place n = .held) : j.releaseCount n = j.fill - (j.next - n).toNat + 1 := by
  have := j.held_bounds h
  rw [Journal.releaseCount, h]
  dsimp only
  omega

/-! ## Admission (R156) -/

theorem Journal.passes_iff (level fill : Nat) :
    j.passes level fill = true ↔ fill < if j.reserve ≤ level then 4096 else 3840 := by
  unfold Journal.passes
  split <;> exact decide_eq_true_iff

theorem Journal.passes_false_iff (level fill : Nat) :
    j.passes level fill = false ↔ (if j.reserve ≤ level then 4096 else 3840) ≤ fill := by
  rw [← Bool.not_eq_true, j.passes_iff, Nat.not_lt]

variable {j} {now : Dated} {o : Offer}

theorem Journal.offer_disabled (h : (j.classes.get (classOf o.body)).enabled = false) : j.offer now o = j := by
  rw [Journal.offer, h]
  rfl

theorem Journal.offer_enabled (h : (j.classes.get (classOf o.body)).enabled = true) : j.offer now o = j.judge now o := if_pos h

theorem Journal.judge_admitted (hgap : j.gap = none) (h : j.passes o.level j.fill = true) : j.judge now o = j.accept o := by
  rw [Journal.judge, hgap]
  exact if_pos h

theorem Journal.judge_lost (hgap : j.gap = none) (h : j.passes o.level j.fill = false) : j.judge now o = j.lose o := by
  rw [Journal.judge, hgap]
  dsimp only
  rw [h]
  rfl

theorem Journal.judge_withGap {g : Gap} (hgap : j.gap = some g) (h : j.passes o.level (j.fill + 1) = true) :
    j.judge now o = (j.writeGap g now).accept o := by
  rw [Journal.judge, hgap]
  exact if_pos h

theorem Journal.judge_lostBehindGap {g : Gap} (hgap : j.gap = some g) (h : j.passes o.level (j.fill + 1) = false) :
    j.judge now o = j.lose o := by
  rw [Journal.judge, hgap]
  dsimp only
  rw [h]
  rfl

theorem Journal.lose_first (h : j.gap = none) :
    j.lose o = { j with gap := some ⟨LostCounts.raise ⟨0, 0, 0, 0, 0, 0, 0⟩ (classOf o.body), o.dated, o.dated⟩ } := by
  rw [Journal.lose, h]

theorem Journal.lose_further {g : Gap} (h : j.gap = some g) :
    j.lose o = { j with gap := some ⟨g.lost.raise (classOf o.body), g.first, o.dated⟩ } := by
  rw [Journal.lose, h]

/-- The GAP and the record behind it join the journal together (R158). -/
theorem Journal.writeGap_accept (g : Gap) : (j.writeGap g now).accept o = { j with
    records := j.records ++ [⟨j.next, gapOffer g now⟩, ⟨j.next + 1, o⟩], next := j.next + 1 + 1, gap := none } := by
  rw [Journal.accept, Journal.writeGap_records, List.append_assoc]
  rfl

/-! ## The ALERT output (R164) -/

theorem Journal.alert_iff : j.alert = true ↔
    (∃ x ∈ j.records, j.threshold ≤ x.offer.level) ∨ j.watermark ≤ j.records.length ∨ j.gap ≠ none := by
  rw [Journal.alert, Bool.or_eq_true, Bool.or_eq_true, or_assoc, decide_eq_true_iff, decide_eq_true_iff, Journal.alerting,
    List.countP_pos_iff, Option.isSome_iff_ne_none, Journal.fill]
  simp only [decide_eq_true_iff]

/-! ## Release (R162) -/

theorem Journal.release_plain (h : j.gap = none) (n : SeqNo) :
    j.release now n = { j with records := j.records.drop (j.releaseCount n) } := by
  rw [Journal.release, h]

/-- A gap is written behind a release that has removed a record (R162). -/
theorem Journal.release_withGap {g : Gap} {n : SeqNo} (h : j.gap = some g) (hn : 0 < j.releaseCount n) : j.release now n = { j with
    records := j.records.drop (j.releaseCount n) ++ [⟨j.next, gapOffer g now⟩], next := j.next + 1, gap := none } := by
  rw [Journal.release, h]
  exact if_pos hn

theorem Journal.release_none {g : Gap} {n : SeqNo} (h : j.gap = some g) (hn : ¬ 0 < j.releaseCount n) :
    j.release now n = { j with records := j.records.drop (j.releaseCount n) } := by
  rw [Journal.release, h]
  exact if_neg hn

/-! ## The class table (R152, R153) -/

theorem ClassTable.get_set_same (t : ClassTable) {c : JournalClass} (h : c ≠ .system) (x : ClassSetting) : (t.set c x).get c = x := by
  cases c with
  | system => exact absurd rfl h
  | _ => rfl

theorem ClassTable.get_set_other (t : ClassTable) {c m : JournalClass} (h : m ≠ c) (x : ClassSetting) :
    (t.set c x).get m = t.get m := by
  cases c <;> cases m <;> simp [ClassTable.get, ClassTable.set] at h ⊢

end Journal

theorem JournalClass.ofCode_ne_system {n : Nat} {c : JournalClass} (h : JournalClass.ofCode n = some c) : c ≠ .system := by
  unfold JournalClass.ofCode at h
  split at h <;> cases h <;> decide

theorem JournalClass.ofCode_unnamed {n : Nat} (h : 6 < n ∨ n = 0) : JournalClass.ofCode n = none := by
  unfold JournalClass.ofCode
  split
  case h_7 => rfl
  all_goals omega

theorem flagOfCode_unnamed {n : Nat} (h : 2 ≤ n) : flagOfCode n = none := by
  unfold flagOfCode
  split
  case h_3 => rfl
  all_goals omega

/-! ## The requests -/

/-- The journal with its alert threshold, its watermark and its reserve level replaced (R163). -/
def Journal.withAlert (j : Journal) (threshold watermark reserve : Nat) : Journal :=
  { j with threshold := threshold, watermark := watermark, reserve := reserve }

section Requests

variable (s : State)

theorem reqSetClass_done {c v e : Byte} {k : JournalClass} {on : Bool} (hc : JournalClass.ofCode c.toNat = some k)
    (he : flagOfCode e.toNat = some on) : reqSetClass [c, v, e] s =
      answerTaken (s.setJournal { s.journal with classes := s.journal.classes.set k ⟨min 7 v.toNat, on⟩ }) (decide (7 < v.toNat))
        (ClassSetting.octets ⟨min 7 v.toNat, on⟩) := by
  simp only [reqSetClass, hc, he, takeSetting_upTo]

theorem reqSetClass_range {c v e : Byte} (h : 6 < c.toNat ∨ c.toNat = 0 ∨ 2 ≤ e.toNat) :
    reqSetClass [c, v, e] s = refuse s .range := by
  unfold reqSetClass
  dsimp only
  split
  · rename_i hc he
    obtain hc' | hc' | he' := h
    · rw [JournalClass.ofCode_unnamed (.inl hc')] at hc
      cases hc
    · rw [JournalClass.ofCode_unnamed (.inr hc')] at hc
      cases hc
    · rw [flagOfCode_unnamed he'] at he
      cases he
  · rfl

theorem reqSetAlert_eq {t v : Byte} {h reserve : Nat} (hh : h < 65536) (hr : reserve = max 1 (min 7 v.toNat)) :
    reqSetAlert ([t] ++ be 2 h ++ [v]) s =
      if s.journal.reserve < reserve ∧ 3840 < s.journal.below reserve then refuse s .state
      else
        let j := s.journal.withAlert (min 7 t.toNat) (max 256 (min 4096 h)) reserve
        answerTaken (s.setJournal j) (decide (7 < t.toNat ∨ h < 256 ∨ 4096 < h ∨ v.toNat = 0 ∨ 7 < v.toNat))
          (j.settings ++ [flag j.alert]) := by
  have hwatermark : (max 256 (min 4096 h) != h) = decide (h < 256 ∨ 4096 < h) := by
    rw [Bool.eq_iff_iff, bne_iff_ne, decide_eq_true_iff]
    omega
  have hreserve : (reserve != v.toNat) = decide (v.toNat = 0 ∨ 7 < v.toNat) := by
    rw [Bool.eq_iff_iff, bne_iff_ne, decide_eq_true_iff]
    omega
  rw [be_two]
  simp only [List.cons_append, List.nil_append, reqSetAlert]
  rw [ofBe_two hh, takeSetting_upTo, takeSetting_unit 256 4096 h (by decide), takeSetting_unit 1 7 v.toNat (by decide), ← hr,
    hwatermark, hreserve]
  simp only [← Bool.decide_or, or_assoc]
  rfl

end Requests

/-! ## The statements -/

/-- Settles O51: the judgement of R160, and the two requests that make it. -/
theorem sequenceNumbersAreJudged : Obligations.SequenceNumbersAreJudged := by
  refine ⟨fun s r n3 n2 n1 n0 hs hp => ?_, fun j n => ?_⟩
  · exact ⟨s.next_serve hs 62 r (by rw [hp]; rfl), s.next_serve hs 63 r (by rw [hp]; rfl)⟩
  · refine ⟨j.place_ahead, fun h hlow hhigh => j.place_held h ⟨hlow, hhigh⟩, j.place_behind, j.place_of_empty n,
      fun h => ?_, fun h => ?_, fun h => ⟨?_, j.releaseCount_held h⟩⟩
    · rw [Journal.read, Journal.releaseCount, h]
      exact ⟨rfl, rfl⟩
    · rw [Journal.read, Journal.releaseCount, h]
      exact ⟨rfl, rfl⟩
    · rw [Journal.read, h]

/-- Settles O52: the two tables of R156 and R158, and the gap that a loss makes or raises. -/
theorem admissionLossAndGap : Obligations.AdmissionLossAndGap := by
  refine ⟨fun j now o henabled => ?_, fun j now o hdisabled => Journal.offer_disabled hdisabled⟩
  rw [Journal.offer_enabled henabled]
  refine ⟨fun hgap hroom => ?_, fun hgap hfull => ⟨_, ?_, rfl⟩, fun g hgap hroom => ?_, fun g hgap hfull => ?_⟩
  · exact Journal.judge_admitted hgap ((j.passes_iff _ _).2 hroom)
  · rw [Journal.judge_lost hgap ((j.passes_false_iff _ _).2 hfull), Journal.lose_first hgap]
  · rw [Journal.judge_withGap hgap ((j.passes_iff _ _).2 hroom), Journal.writeGap_accept]
    rfl
  · rw [Journal.judge_lostBehindGap hgap ((j.passes_false_iff _ _).2 hfull), Journal.lose_further hgap]

/-- Settles O53: each request as its function answers it, RELEASE with and without a pending gap. -/
theorem journalSettingsAndRelease : Obligations.JournalSettingsAndRelease := by
  refine ⟨fun j => Journal.alert_iff, fun s r hs => ⟨fun c v e k on hc he hp => ?_, fun c v e h hp => ?_,
    fun t v h reserve hh hr hp => ⟨fun hraised hbelow => ?_, fun hkept => ?_⟩⟩, fun s r n3 n2 n1 n0 hs hp hheld => ?_⟩
  · exact ⟨_, s.next_serve hs 60 r (by rw [hp, reqSetClass_done _ hc he]; rfl),
      ClassTable.get_set_same _ (JournalClass.ofCode_ne_system hc) _, fun m hm => ClassTable.get_set_other _ hm _, rfl⟩
  · exact s.next_serve hs 60 r (by rw [hp, reqSetClass_range _ h]; rfl)
  · exact s.next_serve hs 61 r (by rw [hp, reqSetAlert_eq _ hh hr]; exact if_pos ⟨hraised, hbelow⟩)
  · have hnot : ¬ (s.journal.reserve < reserve ∧ 3840 < s.journal.below reserve) := by
      rintro ⟨hraised, hbelow⟩
      exact hkept.elim (Nat.not_le_of_lt hraised) (Nat.not_le_of_lt hbelow)
    exact ⟨_, s.next_serve hs 61 r (by rw [hp, reqSetAlert_eq _ hh hr]; exact if_neg hnot), rfl⟩
  · have hremoved : 0 < s.journal.releaseCount (seqOf [n3, n2, n1, n0]) := by
      rw [s.journal.releaseCount_held hheld]
      exact Nat.succ_pos _
    exact ⟨_, s.next_serve hs 63 r (by rw [hp]; rfl), fun hgap => Journal.release_plain hgap _,
      fun g hgap => Journal.release_withGap hgap hremoved, rfl⟩

end Sys2Proof.Machine
end

