-- ==== Sys2Proof/Proofs/JournalLaws.lean ====
section
/-! PROOFS. Sys2Proof/Proofs/JournalLaws.lean: what it is to keep the laws of the journal, and the operations of the journal that keep them:
admission, loss, the GAP, release and the settings (R154 to R156, R158, R162, R163). -/

namespace Sys2Proof.Machine

/-! ## Write order and sequence numbers (R155) -/

section Order

variable {j k : Journal}

/-- The law of R155 speaks of the records and the counter only. -/
theorem Journal.consecutive_congr (hrecords : k.records = j.records) (hnext : k.next = j.next) (h : j.consecutive) :
    k.consecutive := by
  rw [Journal.consecutive, Journal.fill, hrecords, hnext]
  exact h

theorem Journal.accept_fill (o : Offer) : (j.accept o).fill = j.fill + 1 := List.length_append

theorem SeqNo.add_one_sub (n : SeqNo) (a : Nat) : n + 1 - BitVec.ofNat 32 (a + 1) = n - BitVec.ofNat 32 a := by
  rw [BitVec.ofNat_add]
  exact add_sub_add_right_eq_sub n (BitVec.ofNat 32 a) 1

/-- The counter rises with the fill, so the numbers of the records already held stand, and the newest record has the counter's last
value. -/
theorem Journal.consecutive_accept (o : Offer) (h : j.consecutive) : (j.accept o).consecutive := by
  intro i r hi
  rw [Journal.accept_records] at hi
  rw [Journal.accept_fill, Journal.accept_next]
  have hlt := (List.getElem?_eq_some_iff.1 hi).1
  rw [List.length_append, List.length_singleton] at hlt
  rcases Nat.lt_or_ge i j.fill with hold | hnew
  · rw [List.getElem?_append_left hold] at hi
    rw [h i r hi, Nat.sub_add_comm (Nat.le_of_lt hold), SeqNo.add_one_sub]
  · have hi' : i = j.fill := Nat.le_antisymm (Nat.le_of_lt_succ hlt) hnew
    subst hi'
    rw [Journal.fill, List.getElem?_concat_length] at hi
    cases hi
    rw [Nat.add_sub_cancel_left, SeqNo.add_one_sub j.next 0, BitVec.sub_zero]

/-- The records that are left lie as far from the counter as before. -/
theorem Journal.consecutive_drop (n : Nat) (h : j.consecutive) : { j with records := j.records.drop n }.consecutive := by
  intro i r hi
  dsimp only [Journal.fill] at hi ⊢
  rw [List.getElem?_drop] at hi
  rw [h (n + i) r hi, List.length_drop, Nat.sub_sub]
  rfl

end Order

/-! ## The reserve (R154, R156, R163) -/

section Reserve

variable {j : Journal}

theorem Journal.below_le_fill (level : Nat) : j.below level ≤ j.fill := List.countP_le_length

theorem Journal.below_mono {a b : Nat} (h : a ≤ b) : j.below a ≤ j.below b :=
  List.countP_mono_left fun _ _ hlevel => decide_eq_true (Nat.lt_of_lt_of_le (of_decide_eq_true hlevel) h)

theorem Journal.below_accept (o : Offer) (level : Nat) :
    (j.accept o).below level = j.below level + if o.level < level then 1 else 0 := by
  simp only [Journal.below, Journal.accept_records, List.countP_append, List.countP_singleton, decide_eq_true_eq]

/-- A record below the reserve level is admitted into the first 3,840 places only, so as many at most are ever held of them (R156). -/
theorem Journal.withinReserve_accept {o : Offer} (hroom : j.passes o.level j.fill = true) (h : j.withinReserve) :
    (j.accept o).withinReserve := by
  obtain ⟨hfill, hbelow, hreserve⟩ := h
  rw [j.passes_iff] at hroom
  have hall := j.below_le_fill j.reserve
  refine ⟨?_, ?_, hreserve⟩
  · rw [Journal.accept_fill]
    split at hroom <;> omega
  · rw [Journal.accept_reserve, Journal.below_accept]
    split at hroom <;> split <;> omega

/-- A GAP has level 7, so that any free place will do for it (R159). -/
theorem Journal.withinReserve_writeGap {g : Gap} {now : Dated} (hroom : j.fill < 4096) (h : j.withinReserve) :
    (j.writeGap g now).withinReserve := by
  obtain ⟨-, -, -, hseven⟩ := id h
  have hgap : j.passes (gapOffer g now).level j.fill = true := (j.passes_iff 7 _).2 (by rw [if_pos hseven]; exact hroom)
  exact Journal.withinReserve_accept hgap h

theorem Journal.withinReserve_drop (n : Nat) (h : j.withinReserve) : { j with records := j.records.drop n }.withinReserve := by
  obtain ⟨hfill, hbelow, hreserve⟩ := h
  have hsub := List.drop_sublist n j.records
  exact ⟨hsub.length_le.trans hfill, hsub.countP_le.trans hbelow, hreserve⟩

theorem Journal.withinReserve_lose (o : Offer) (h : j.withinReserve) : (j.lose o).withinReserve := by
  rw [Journal.withinReserve, Journal.fill, Journal.below, Journal.lose_records, Journal.lose_reserve]
  exact h

/-- A reserve level that is lowered, or raised so far only that 3,840 records at most lie below it, keeps the reserve (R163). -/
theorem Journal.withinReserve_withAlert {threshold watermark reserve : Nat} (hrange : 1 ≤ reserve ∧ reserve ≤ 7)
    (hjudged : ¬ (j.reserve < reserve ∧ 3840 < j.below reserve)) (h : j.withinReserve) :
    (j.withAlert threshold watermark reserve).withinReserve := by
  obtain ⟨hfill, hbelow, -⟩ := h
  refine ⟨hfill, ?_, hrange⟩
  show j.below reserve ≤ 3840
  rcases Nat.lt_or_ge j.reserve reserve with hraised | hlowered
  · exact Nat.le_of_not_lt fun hmore => hjudged ⟨hraised, hmore⟩
  · exact (Journal.below_mono hlowered).trans hbelow

end Reserve

/-! ## Keeping both laws -/

/-- The laws of the journal are kept. -/
structure Journal.Keeps (j k : Journal) : Prop where
  consecutive : j.consecutive → k.consecutive
  withinReserve : j.withinReserve → k.withinReserve

theorem Journal.Keeps.refl (j : Journal) : j.Keeps j := ⟨id, id⟩

theorem Journal.Keeps.trans {j k l : Journal} (h : j.Keeps k) (h' : k.Keeps l) : j.Keeps l :=
  ⟨h'.consecutive ∘ h.consecutive, h'.withinReserve ∘ h.withinReserve⟩

section Operations

variable (j : Journal)

theorem Journal.keeps_accept {o : Offer} (hroom : j.passes o.level j.fill = true) : j.Keeps (j.accept o) :=
  ⟨j.consecutive_accept o, j.withinReserve_accept hroom⟩

theorem Journal.keeps_lose (o : Offer) : j.Keeps (j.lose o) :=
  ⟨j.consecutive_congr (j.lose_records o) (j.lose_next o), j.withinReserve_lose o⟩

/-- A gap written where a place is free. -/
theorem Journal.keeps_writeGap {g : Gap} {now : Dated} (hroom : j.fill < 4096) : j.Keeps (j.writeGap g now) :=
  ⟨fun h => Journal.consecutive_congr rfl rfl (j.consecutive_accept (gapOffer g now) h), j.withinReserve_writeGap hroom⟩

theorem Journal.keeps_drop (n : Nat) : j.Keeps { j with records := j.records.drop n } :=
  ⟨j.consecutive_drop n, j.withinReserve_drop n⟩

/-- Whatever becomes of an offered record (R152, R156, R158). -/
theorem Journal.keeps_offer (now : Dated) (o : Offer) : j.Keeps (j.offer now o) := by
  rcases j.offer_cases now o with ⟨-, h⟩ | ⟨-, ⟨-, hroom, h⟩ | ⟨-, -, h⟩ | ⟨g, -, hroom, h⟩ | ⟨g, -, -, h⟩⟩ <;> rw [h]
  · exact .refl j
  · exact j.keeps_accept hroom
  · exact j.keeps_lose o
  · have hplace : j.fill < 4096 := by
      rw [j.passes_iff] at hroom
      split at hroom <;> omega
    have hgap : j.Keeps (j.writeGap g now) := j.keeps_writeGap hplace
    refine hgap.trans (Journal.keeps_accept _ ?_)
    rw [show (j.writeGap g now).fill = j.fill + 1 from j.accept_fill _]
    exact hroom
  · exact j.keeps_lose o

theorem Journal.releaseCount_of_empty (n : SeqNo) (h : j.fill = 0) : j.releaseCount n = 0 := by
  unfold Journal.releaseCount
  split <;> omega

/-- A release that writes a GAP has made a place for it (R162). -/
theorem Journal.keeps_release (now : Dated) (n : SeqNo) : j.Keeps (j.release now n) := by
  have hdrop := j.keeps_drop (j.releaseCount n)
  cases hgap : j.gap with
  | none =>
    rw [Journal.release_plain hgap]
    exact hdrop
  | some g =>
    by_cases hn : 0 < j.releaseCount n
    · refine ⟨fun h => ?_, fun h => ?_⟩
      · rw [Journal.release_withGap hgap hn]
        exact Journal.consecutive_congr rfl rfl (Journal.consecutive_accept (gapOffer g now) (hdrop.consecutive h))
      · have hplace : { j with records := j.records.drop (j.releaseCount n) }.fill < 4096 := by
          have hheld : j.fill ≠ 0 := fun hempty => Nat.ne_of_gt hn (j.releaseCount_of_empty n hempty)
          have hfill : j.fill ≤ 4096 := h.1
          rw [Journal.fill, List.length_drop, ← Journal.fill]
          omega
        rw [Journal.release_withGap hgap hn]
        exact Journal.withinReserve_writeGap (g := g) (now := now) hplace (hdrop.withinReserve h)
    · rw [Journal.release_none hgap hn]
      exact hdrop

theorem Journal.keeps_withAlert {threshold watermark reserve : Nat} (hrange : 1 ≤ reserve ∧ reserve ≤ 7)
    (hjudged : ¬ (j.reserve < reserve ∧ 3840 < j.below reserve)) : j.Keeps (j.withAlert threshold watermark reserve) :=
  ⟨Journal.consecutive_congr rfl rfl, j.withinReserve_withAlert hrange hjudged⟩

end Operations

end Sys2Proof.Machine
end

