-- ==== Sys2Proof/Proofs/JournalOffers.lean ====
section
/-! PROOFS. Sys2Proof/Proofs/JournalOffers.lean: what it is to do no more to the journal than to offer it records, and the operations of the
state, the checker and the clock lines that do no more (R168). -/

namespace Sys2Proof.Machine

/-! ## Records offered one after the other -/

/-- The journal after records have been offered in order, each with the time of day that a GAP ahead of it takes. -/
def Journal.offers (j : Journal) (l : List (Dated × Offer)) : Journal := l.foldl (fun j x => j.offer x.1 x.2) j

theorem Journal.keeps_offers (j : Journal) (l : List (Dated × Offer)) : j.Keeps (j.offers l) := by
  induction l generalizing j with
  | nil => exact .refl j
  | cons x l ih => exact (j.keeps_offer x.1 x.2).trans (ih _)

/-- A state that moves to another and does no more to the journal than to offer it records. -/
def State.OnlyOffers (s t : State) : Prop := ∃ l, t.journal = s.journal.offers l

theorem State.OnlyOffers.keeps {s t : State} (h : s.OnlyOffers t) : s.journal.Keeps t.journal := by
  obtain ⟨l, hl⟩ := h
  rw [hl]
  exact s.journal.keeps_offers l

/-- A state that leaves the journal. -/
theorem State.OnlyOffers.of_journal {s t : State} (h : t.journal = s.journal) : s.OnlyOffers t := ⟨[], h⟩

theorem State.OnlyOffers.refl (s : State) : s.OnlyOffers s := .of_journal rfl

theorem State.OnlyOffers.trans {s t u : State} (h : s.OnlyOffers t) (k : t.OnlyOffers u) : s.OnlyOffers u := by
  obtain ⟨l, hl⟩ := h
  obtain ⟨m, hm⟩ := k
  exact ⟨l ++ m, by rw [hm, hl]; exact List.foldl_append.symm⟩

theorem State.OnlyOffers.foldl {α : Type} {f : State → α → State} (h : ∀ (s : State) a, s.OnlyOffers (f s a)) (l : List α)
    (s : State) : s.OnlyOffers (l.foldl f s) := by
  induction l generalizing s with
  | nil => exact .refl s
  | cons a l ih => exact (h s a).trans (ih _)

section States

variable (s : State)

theorem State.onlyOffers_ite {c : Prop} [Decidable c] {t u : State} (ht : s.OnlyOffers t) (hu : s.OnlyOffers u) :
    s.OnlyOffers (if c then t else u) := by
  split
  · exact ht
  · exact hu

theorem State.onlyOffers_offer (o : Offer) : s.OnlyOffers (s.offer o) := ⟨[(s.tb.now, o)], rfl⟩

theorem State.onlyOffers_report (b : Body) : s.OnlyOffers (s.report b) := s.onlyOffers_offer _

theorem State.onlyOffers_reportTb (event : TimebaseEvent) : s.OnlyOffers (s.reportTb event) := s.onlyOffers_report _

theorem State.onlyOffers_setTb (tb : Timebase) : s.OnlyOffers (s.setTb tb) := .of_journal rfl

theorem State.onlyOffers_setPort (p : PortId) (x : Port) : s.OnlyOffers (s.setPort p x) := .of_journal rfl

theorem State.onlyOffers_setBank (b : BankId) (x : Bank) : s.OnlyOffers (s.setBank b x) := .of_journal (s.setBank_journal b x)

theorem State.onlyOffers_setElement (i : Nat) (e : Element) : s.OnlyOffers (s.setElement i e) := .of_journal rfl

theorem State.onlyOffers_setCondition (p : PortId) (d : Direction) (c : LinkCondition) (raised : Bool) :
    s.OnlyOffers (s.setCondition p d c raised) := (s.onlyOffers_setPort p _).trans (State.onlyOffers_report _ _)

/-- The supervisor's records, offered behind the record that it leaves (R85). -/
theorem State.onlyOffers_applySupervised (i : Nat) (r : Supervised) : s.OnlyOffers (s.applySupervised i r) :=
  (s.onlyOffers_setElement i _).trans (.foldl State.onlyOffers_offer _ _)

theorem State.onlyOffers_applyLine (l : LineId) (r : LineStep) : s.OnlyOffers (s.applyLine l r) :=
  State.OnlyOffers.trans (.of_journal rfl) (.foldl State.onlyOffers_report _ (s.setLine l r.line))

/-! ## The checker (R116 to R126) -/

theorem State.onlyOffers_emptyBank (b : BankId) : s.OnlyOffers (s.emptyBank b) := .of_journal (s.emptyBank_journal b)

theorem State.onlyOffers_settleBank (b : BankId) : s.OnlyOffers (s.settleBank b) := by
  unfold State.settleBank
  split
  · exact (s.onlyOffers_emptyBank b).trans (State.onlyOffers_report _ _)
  · exact .refl s

theorem State.onlyOffers_setEntry (r : EntryRef) (e : Entry) : s.OnlyOffers (s.setEntry r e) := s.onlyOffers_setBank _ _

theorem State.onlyOffers_setOpenList (l : List EntryRef) : s.OnlyOffers (s.setOpenList l) := .of_journal rfl

theorem State.onlyOffers_closeEntry (r : EntryRef) (status : EntryStatus) (dated : Dated) (ageLimit clamped : Bool)
    (result : Option MatchResult) : s.OnlyOffers (s.closeEntry r status dated ageLimit clamped result) := by
  unfold State.closeEntry
  split
  · exact .refl s
  · exact (((s.onlyOffers_setEntry r _).trans (State.onlyOffers_setOpenList _ _)).trans (State.onlyOffers_offer _ _)).trans
      (State.onlyOffers_settleBank _ _)

theorem State.onlyOffers_closeOwn (r : EntryRef) (status : EntryStatus) : s.OnlyOffers (s.closeOwn r status) :=
  s.onlyOffers_closeEntry r status _ _ _ _

theorem State.onlyOffers_openEntry (r : EntryRef) (e : Entry) : s.OnlyOffers (s.openEntry r e) := by
  rw [State.openEntry_eq]
  exact s.onlyOffers_ite ((s.onlyOffers_setEntry r _).trans (State.onlyOffers_setOpenList _ _)) (s.onlyOffers_closeOwn r _)

theorem State.onlyOffers_advance (b : BankId) (passed : EntryStatus) (n : Nat) (w : Walked) :
    w.state.OnlyOffers (State.advance b passed n w).state := by
  induction n generalizing w with
  | zero => exact .refl _
  | succ n ih =>
    have hpass (x : Bank) : w.state.OnlyOffers (w.state.setBank b x) := w.state.onlyOffers_setBank b x
    unfold State.advance
    dsimp only
    split
    · exact .refl _
    · split
      · exact .refl _
      · split
        · exact (hpass _).trans (ih ⟨_, _, _⟩)
        · split
          · exact ((hpass _).trans (State.onlyOffers_closeOwn _ _ passed)).trans (ih ⟨_, _, _⟩)
          · exact ((hpass _).trans (State.onlyOffers_openEntry _ _ _)).trans (ih ⟨_, _, _⟩)

theorem State.onlyOffers_closePassed (n : Nat) : s.OnlyOffers (State.closePassed n s) := by
  induction n generalizing s with
  | zero => exact .refl s
  | succ n ih =>
    unfold State.closePassed
    split
    · exact .refl s
    · split
      · exact .refl s
      · exact s.onlyOffers_ite ((s.onlyOffers_closeOwn _ .missed).trans (ih _)) (.refl s)

theorem State.onlyOffers_retire (b : BankId) : s.OnlyOffers (s.retire b) := by
  rw [State.retire_eq]
  exact ((s.onlyOffers_setBank b _).trans (State.onlyOffers_report _ _)).trans (State.onlyOffers_settleBank _ b)

theorem State.onlyOffers_activate (b : BankId) : s.OnlyOffers (s.activate b) := by
  have hretire : s.OnlyOffers (s.retireOther b) := s.onlyOffers_ite (s.onlyOffers_retire b.other) (.refl s)
  rw [State.activate_eq]
  exact ((hretire.trans (State.onlyOffers_setBank _ b _)).trans (State.onlyOffers_advance b .lateActivation _ ⟨_, 0, 0⟩)).trans
    (State.onlyOffers_report _ _)

theorem State.onlyOffers_judgeActivation (b : BankId) : s.OnlyOffers (s.judgeActivation b) :=
  s.onlyOffers_ite (s.onlyOffers_activate b) (.refl s)

theorem State.onlyOffers_walkActive (b : BankId) : s.OnlyOffers (s.walkActive b) :=
  s.onlyOffers_ite (State.onlyOffers_advance b .missed _ ⟨s, 0, 0⟩) (.refl s)

theorem State.onlyOffers_judgeEnd (b : BankId) : s.OnlyOffers (s.judgeEnd b) :=
  s.onlyOffers_ite (s.onlyOffers_retire b) (.refl s)

theorem State.onlyOffers_walk : s.OnlyOffers s.walk := by
  have hactivate := State.OnlyOffers.foldl State.onlyOffers_judgeActivation bankIds s
  have hwalk := State.OnlyOffers.foldl State.onlyOffers_walkActive bankIds (bankIds.foldl State.judgeActivation s)
  have hclose := State.onlyOffers_closePassed (bankIds.foldl State.walkActive (bankIds.foldl State.judgeActivation s))
    (bankIds.foldl State.walkActive (bankIds.foldl State.judgeActivation s)).openList.length
  exact ((hactivate.trans hwalk).trans hclose).trans (.foldl State.onlyOffers_judgeEnd bankIds _)

theorem State.onlyOffers_clearing (c : Change) : s.OnlyOffers (s.clearing c) := by
  unfold State.clearing
  split
  · split
    · split
      · exact s.onlyOffers_closeEntry _ _ _ _ _ _
      · exact .refl s
    · exact s.onlyOffers_offer _
  · exact .refl s

/-! ## The clock lines (R137 to R148) -/

theorem State.onlyOffers_sampleLine (l : LineId) (sense : Sense) : s.OnlyOffers (s.sampleLine l sense) := by
  unfold State.sampleLine
  split
  · exact s.onlyOffers_applyLine l _
  · exact .refl s

theorem State.onlyOffers_finishLine (l : LineId) : s.OnlyOffers (s.finishLine l) := by
  unfold State.finishLine
  split
  · exact s.onlyOffers_applyLine l _
  · exact .refl s

theorem State.onlyOffers_turnLine (l : LineId) : s.OnlyOffers (s.turnLine l) :=
  s.onlyOffers_ite (s.onlyOffers_finishLine l) (s.onlyOffers_ite (.of_journal rfl) (.refl s))

theorem State.onlyOffers_retargetLines : s.OnlyOffers s.retargetLines :=
  .foldl (fun t l => t.onlyOffers_applyLine l _) lineIds s

/-! ## The civil offset (R65, R66) -/

theorem State.onlyOffers_changeOffset (new : Int) : s.OnlyOffers (s.changeOffset new) :=
  State.OnlyOffers.trans (State.onlyOffers_ite s (s.onlyOffers_setTb _) ((s.onlyOffers_setTb _).trans (State.onlyOffers_report _ _)))
    (State.onlyOffers_retargetLines _)

theorem State.onlyOffers_judgeOffset : s.OnlyOffers s.judgeOffset := by
  unfold State.judgeOffset
  split
  · exact (s.onlyOffers_setTb _).trans (State.onlyOffers_changeOffset _ _)
  · exact .refl s

end States

end Sys2Proof.Machine
end

