-- ==== Sys2Proof/Proofs/JournalOfEvents.lean ====
section
/-! PROOFS. Sys2Proof/Proofs/JournalOfEvents.lean: second boundaries, the passage of time, pulses, the element tracker and the reception of
frames do no more to the journal than to offer it records (R168). -/

namespace Sys2Proof.Machine

variable (s : State)

/-! ## Boundaries, steps and the passage of time (R49, R50, R69) -/

theorem State.onlyOffers_carry : s.OnlyOffers s.carry := by
  unfold State.carry
  dsimp only
  split
  · exact (s.onlyOffers_setTb _).trans (State.onlyOffers_reportTb _ _)
  · exact s.onlyOffers_setTb _

theorem State.onlyOffers_endSecond (pd : PortId × Direction) : s.OnlyOffers (s.endSecond pd) := by
  unfold State.endSecond
  dsimp only
  exact s.onlyOffers_ite ((s.onlyOffers_setPort _ _).trans (State.onlyOffers_setCondition _ _ _ _ _)) (s.onlyOffers_setPort _ _)

theorem State.onlyOffers_endSeconds : s.OnlyOffers s.endSeconds := .foldl State.onlyOffers_endSecond receivers s

theorem State.onlyOffers_latchAt (sec : Nat) : s.OnlyOffers (s.latchAt sec) := .of_journal (by rw [s.latchAt_only])

theorem State.onlyOffers_handToLines (o : BoundaryOrder) : s.OnlyOffers (s.handToLines o) := by
  have hturns (t : State) : t.OnlyOffers (o.between.foldl State.turnLine t) := .foldl State.onlyOffers_turnLine _ t
  unfold State.handToLines
  split
  · exact s.onlyOffers_retargetLines
  · split
    · exact (s.onlyOffers_judgeOffset.trans (hturns _)).trans (State.onlyOffers_retargetLines _)
    · exact (s.onlyOffers_retargetLines.trans (hturns _)).trans (State.onlyOffers_judgeOffset _)

theorem State.onlyOffers_boundary (o : BoundaryOrder) : s.OnlyOffers (s.boundary o) :=
  (((s.onlyOffers_carry.trans (State.onlyOffers_endSeconds _)).trans (State.onlyOffers_latchAt _ _)).trans
    (State.onlyOffers_walk _)).trans (State.onlyOffers_handToLines _ o)

theorem State.onlyOffers_boundaryOrder : s.OnlyOffers s.boundaryOrder.2 := by
  unfold State.boundaryOrder
  split <;> exact .of_journal rfl

theorem State.onlyOffers_stepEvent : s.OnlyOffers s.stepEvent :=
  ((s.onlyOffers_boundaryOrder.trans (State.onlyOffers_endSeconds _)).trans (State.onlyOffers_walk _)).trans
    (State.onlyOffers_handToLines _ _)

theorem State.onlyOffers_toBoundary (o : BoundaryOrder) : s.OnlyOffers (s.toBoundary o) :=
  s.onlyOffers_ite (s.onlyOffers_boundary o) ((s.onlyOffers_setTb _).trans (State.onlyOffers_boundary _ o))

theorem State.onlyOffers_passTo (n t : Nat) : s.OnlyOffers (State.passTo n t s) := by
  induction n generalizing s with
  | zero => exact .refl s
  | succ n ih =>
    unfold State.passTo
    split
    · exact .refl s
    · split
      · exact (s.onlyOffers_boundaryOrder.trans (State.onlyOffers_boundary _ _)).trans (ih _)
      · exact (s.onlyOffers_setTb _).trans (ih _)

theorem State.onlyOffers_await (t : Option Nat) : s.OnlyOffers (s.await t) := by
  cases t with
  | none => exact .refl s
  | some t => exact s.onlyOffers_passTo _ t

/-! ## Pulses, misses and the holdover limit (R52 to R64) -/

theorem State.onlyOffers_setReport (tb : Timebase) (event : TimebaseEvent) : s.OnlyOffers ((s.setTb tb).reportTb event) :=
  (s.onlyOffers_setTb tb).trans (State.onlyOffers_reportTb _ event)

theorem State.onlyOffers_leapAfterMove (day : Day) : s.OnlyOffers (s.leapAfterMove day) := by
  unfold State.leapAfterMove
  split
  · exact .refl s
  · exact s.onlyOffers_ite (s.onlyOffers_setReport _ _) (s.onlyOffers_ite (s.onlyOffers_setReport _ _) (.refl s))

theorem State.onlyOffers_moveTime (l : Label) (event : TimebaseEvent) : s.OnlyOffers (s.moveTime l event) :=
  (((s.onlyOffers_setTb _).trans (State.onlyOffers_leapAfterMove _ _)).trans (State.onlyOffers_report _ _)).trans
    (State.onlyOffers_stepEvent _)

theorem State.onlyOffers_armLeap (label : Option Label) : s.OnlyOffers (s.armLeap label) := by
  unfold State.armLeap
  dsimp only
  split
  · exact .refl s
  · split
    · exact .refl s
    all_goals exact s.onlyOffers_ite (s.onlyOffers_reportTb _) (s.onlyOffers_setTb _)

theorem State.onlyOffers_pulseInFree (label : Option Label) : s.OnlyOffers (s.pulseInFree label) := by
  cases label with
  | none => exact .refl s
  | some l => exact (s.onlyOffers_setTb _).trans (State.onlyOffers_moveTime _ l .set)

theorem State.onlyOffers_judgeReturn (e : Int) : s.OnlyOffers (s.judgeReturn e) :=
  s.onlyOffers_ite (s.onlyOffers_ite (s.onlyOffers_setReport _ _) (s.onlyOffers_setTb _)) (s.onlyOffers_setReport _ _)

theorem State.onlyOffers_pulseTests (tb : Timebase) (e : Int) : s.OnlyOffers (s.pulseTests tb e) := by
  have harithmetic : s.OnlyOffers (s.setTb (tb.loopArithmetic e)) := s.onlyOffers_setTb _
  unfold State.pulseTests
  cases tb.loop with
  | free => exact harithmetic
  | acquiring => exact harithmetic.trans (State.onlyOffers_ite _ (State.onlyOffers_setReport _ _ _) (.refl _))
  | locked => exact harithmetic.trans (State.onlyOffers_ite _ (State.onlyOffers_setReport _ _ _) (.refl _))
  | holdover => exact harithmetic.trans (State.onlyOffers_judgeReturn _ e)

theorem State.onlyOffers_pulseInLoop (label : Option Label) (e : Int) : s.OnlyOffers (s.pulseInLoop label e) := by
  cases label with
  | none => exact s.onlyOffers_pulseTests _ e
  | some l =>
    exact s.onlyOffers_ite ((s.onlyOffers_setTb _).trans (State.onlyOffers_moveTime _ l .step)) (s.onlyOffers_pulseTests _ e)

theorem State.onlyOffers_pulse : s.OnlyOffers s.pulse := by
  have harm := (s.onlyOffers_setTb s.tb.takePulse).trans (State.onlyOffers_armLeap _ s.tb.label)
  exact s.onlyOffers_ite (State.onlyOffers_ite s (harm.trans (State.onlyOffers_pulseInFree _ _))
    (harm.trans (State.onlyOffers_pulseInLoop _ _ _))) (s.onlyOffers_setTb _)

theorem State.onlyOffers_missNote : s.OnlyOffers s.missNote := by
  rw [State.missNote_eq]
  split
  · exact s.onlyOffers_setTb _
  · split
    · exact s.onlyOffers_setTb _
    · exact s.onlyOffers_setReport _ _
    · exact s.onlyOffers_setReport _ _
    · exact s.onlyOffers_ite (s.onlyOffers_setTb _) (s.onlyOffers_setTb _)

theorem State.onlyOffers_judgeLimit : s.OnlyOffers s.judgeLimit :=
  s.onlyOffers_ite (s.onlyOffers_ite (s.onlyOffers_setReport _ _) (s.onlyOffers_ite (s.onlyOffers_setReport _ _) (.refl s))) (.refl s)

/-! ## The element tracker (R33 to R38) -/

theorem State.onlyOffers_superviseChange (e : Element) (c : Change) : s.OnlyOffers (s.superviseChange e c) := by
  unfold State.superviseChange
  cases e.loaded.kind with
  | point => exact s.onlyOffers_applySupervised _ _
  | signal => exact s.onlyOffers_applySupervised _ _
  | other => exact .refl s

theorem State.onlyOffers_storeChange (i : Nat) (e : Element) (c : Change) (undef : Bool) :
    s.OnlyOffers (s.storeChange i e c undef) :=
  s.onlyOffers_ite ((s.onlyOffers_setElement i e).trans (State.onlyOffers_offer _ _)) (s.onlyOffers_setElement i e)

theorem State.onlyOffers_accept (p : PortId) (i : Nat) (e : Element) (k : Candidate) : s.OnlyOffers (s.accept p i e k) := by
  have hsup := (s.onlyOffers_storeChange i (s.acceptedRecord p i e k) (s.acceptedChange p i e k) k.undefinedCode).trans
    (State.onlyOffers_superviseChange _ (s.acceptedRecord p i e k) (s.acceptedChange p i e k))
  rw [State.accept_eq]
  exact s.onlyOffers_ite (hsup.trans (State.onlyOffers_clearing _ _)) hsup

theorem State.onlyOffers_takeReport (p : PortId) (i : Nat) (e : Element) (r : Report) : s.OnlyOffers (s.takeReport p i e r) :=
  s.onlyOffers_ite (s.onlyOffers_setElement i _) (s.onlyOffers_ite (s.onlyOffers_accept p i _ _) (s.onlyOffers_setElement i _))

theorem State.onlyOffers_storeCommand (i : Nat) (e : Element) (code : Nat) (c : Capture) :
    s.OnlyOffers (s.storeCommand i e code c) :=
  s.onlyOffers_ite ((s.onlyOffers_setElement i _).trans (State.onlyOffers_offer _ _)) (s.onlyOffers_setElement i _)

theorem State.onlyOffers_takeCommand (i : Nat) (e : Element) (code : Nat) (c : Capture) : s.OnlyOffers (s.takeCommand i e code c) := by
  have hstore := s.onlyOffers_storeCommand i e code c
  rw [State.takeCommand_eq]
  refine s.onlyOffers_ite ?_ hstore
  cases e.loaded.kind with
  | point => exact hstore.trans (State.onlyOffers_applySupervised _ i _)
  | signal => exact hstore.trans (State.onlyOffers_applySupervised _ i _)
  | other => exact hstore

theorem State.onlyOffers_trackReport (p : PortId) (a : Nat) (r : Report) : s.OnlyOffers (s.trackReport p a r) := by
  unfold State.trackReport
  split
  · exact s.onlyOffers_takeReport p _ _ r
  · exact s.onlyOffers_setPort p _

theorem State.onlyOffers_trackCommand (p : PortId) (a code : Nat) (c : Capture) : s.OnlyOffers (s.trackCommand p a code c) := by
  unfold State.trackCommand
  split
  · exact s.onlyOffers_takeCommand _ _ code c
  · exact s.onlyOffers_setPort p _

theorem State.onlyOffers_interpret (p : PortId) (d : Direction) (octets : List Byte) (c : Capture) :
    s.OnlyOffers (s.interpret p d octets c) := by
  unfold State.interpret
  dsimp only
  split
  · exact s.onlyOffers_trackCommand p _ _ c
  · exact s.onlyOffers_setPort p _
  · exact s.onlyOffers_setPort p _
  · exact s.onlyOffers_trackReport p _ _
  · exact s.onlyOffers_setPort p _
  · exact s.onlyOffers_trackReport p _ _
  · exact .refl s

theorem State.onlyOffers_markStale (i : Nat) : s.OnlyOffers (s.markStale i) := by
  unfold State.markStale
  split
  · exact .refl s
  · exact s.onlyOffers_applySupervised i _

theorem State.onlyOffers_raiseSilent (p : PortId) (d : Direction) : s.OnlyOffers (s.raiseSilent p d) := by
  have hcondition := s.onlyOffers_setCondition p d .silent true
  cases d with
  | down => exact hcondition
  | up => exact hcondition.trans (.foldl State.onlyOffers_markStale _ _)

theorem State.onlyOffers_settleLife (p : PortId) (d : Direction) : s.OnlyOffers (s.settleLife p d) :=
  s.onlyOffers_ite (s.onlyOffers_raiseSilent p d) (.refl s)

theorem State.onlyOffers_expireRecord (i : Nat) : s.OnlyOffers (s.expireRecord i) := by
  unfold State.expireRecord
  split
  · exact .refl s
  · exact s.onlyOffers_applySupervised i _

/-! ## The reception of frames (R5, R14, R18, R19, R21) -/

theorem State.onlyOffers_judgeClass (p : PortId) (d : Direction) (k : FrameClass) : s.OnlyOffers (s.judgeClass p d k) := by
  have hset (x : Port) (c : LinkCondition) (b : Bool) : s.OnlyOffers ((s.setPort p x).setCondition p d c b) :=
    (s.onlyOffers_setPort p x).trans (State.onlyOffers_setCondition _ p d c b)
  cases k with
  | valid => exact s.onlyOffers_ite (hset _ _ _) (s.onlyOffers_setPort p _)
  | checkFailure => exact s.onlyOffers_ite (hset _ _ _) (s.onlyOffers_setPort p _)
  | _ => exact .refl s

theorem State.onlyOffers_judgeRemoval (p : PortId) (d : Direction) (k : FrameClass) (o : Opening) :
    s.OnlyOffers (s.judgeRemoval p d k o) := by
  have hdiscard : s.OnlyOffers (s.discardTelegram p) := s.onlyOffers_setPort p _
  have htake (octets : List Byte) : s.OnlyOffers (s.takeRequest p octets) := s.onlyOffers_ite (.of_journal rfl) hdiscard
  exact s.onlyOffers_ite (s.onlyOffers_ite (htake _) hdiscard) (s.onlyOffers_ite hdiscard (.refl s))

theorem State.onlyOffers_delimit (p : PortId) (d : Direction) (aborted : Bool) (o : Opening) :
    s.OnlyOffers (s.delimit p d aborted o) := by
  have hjudged := ((s.onlyOffers_setPort p _).trans (State.onlyOffers_judgeClass (s.endFrame p d aborted o) p d
    (classify aborted o.content))).trans (State.onlyOffers_judgeRemoval _ p d (classify aborted o.content) o)
  rw [State.delimit_eq]
  exact s.onlyOffers_ite (hjudged.trans (State.onlyOffers_interpret _ p d _ _)) hjudged

theorem State.onlyOffers_takeEnd (p : PortId) (d : Direction) (aborted : Bool) (rest : List Bool) :
    s.OnlyOffers (s.takeEnd p d aborted rest) := by
  unfold State.takeEnd State.closeFrame
  split
  · exact .of_journal rfl
  · exact s.onlyOffers_ite (s.onlyOffers_setPort p _) (((s.onlyOffers_setPort p _).trans (State.onlyOffers_setPort _ p _)).trans
      (State.onlyOffers_delimit ((s.beginFrame p _).frameContent p d _ rest) p d aborted _))

theorem State.onlyOffers_receive (p : PortId) (d : Direction) (part : FramePart) : s.OnlyOffers (s.receive p d part) := by
  cases part with
  | idle marks n =>
    show s.OnlyOffers (s.takeIdle p d _)
    unfold State.takeIdle
    split
    · exact s.onlyOffers_setPort p _
    · exact s.onlyOffers_ite (s.onlyOffers_setPort p _) (s.onlyOffers_setPort p _)
  | opening shared => exact s.onlyOffers_setPort p _
  | content bits =>
    show s.OnlyOffers (s.takeContent p d bits)
    unfold State.takeContent
    split
    · exact s.onlyOffers_setPort p _
    · exact s.onlyOffers_ite (.refl s) (.of_journal rfl)
  | closed rest => exact s.onlyOffers_takeEnd p d false rest
  | aborted rest => exact s.onlyOffers_takeEnd p d true rest

end Sys2Proof.Machine
end

