-- ==== Sys2Proof/Proofs/JournalLawsOfSteps.lean ====
section
/-! PROOFS. Sys2Proof/Proofs/JournalLawsOfSteps.lean: the requests, RESET TABLES and every command keep the laws of the journal, and with them
a step (O56). All but SET CLASS, SET ALERT, RELEASE and a device reset do no more to the journal than to offer it records. -/

namespace Sys2Proof.Machine

variable (s : State)

/-! ## RESET TABLES (R47, R101, R129, R167) -/

theorem State.onlyOffers_abandonSupervision (i : Nat) : s.OnlyOffers (s.abandonSupervision i) := by
  unfold State.abandonSupervision
  split
  · exact .refl s
  · exact s.onlyOffers_applySupervised i _

theorem State.onlyOffers_beginReset (r : Request) : s.OnlyOffers (s.beginReset r) :=
  State.OnlyOffers.trans (.of_journal rfl) (State.OnlyOffers.foldl State.onlyOffers_abandonSupervision _ (s.taking 70 r))

theorem State.onlyOffers_resetBank (b : BankId) : s.OnlyOffers (s.resetBank b) :=
  s.onlyOffers_ite (.refl s) ((s.onlyOffers_report _).trans (State.onlyOffers_emptyBank _ b))

theorem State.onlyOffers_resetBanks : s.OnlyOffers s.resetBanks :=
  (State.OnlyOffers.foldl State.onlyOffers_resetBank bankIds s).trans (State.onlyOffers_setOpenList _ [])

theorem State.onlyOffers_recordingStart (cause : StartCause) : s.OnlyOffers (s.recordingStart cause) := s.onlyOffers_offer _

/-- The third step offers the one record RECORDING START (R167). -/
theorem State.onlyOffers_tablesEmptied (r : Request) : s.OnlyOffers (s.tablesEmptied r) :=
  State.OnlyOffers.trans (.of_journal rfl) (State.onlyOffers_recordingStart s.emptyTables .tablesReset)

theorem State.onlyOffers_continueReset (g : Resetting) : s.OnlyOffers (s.continueReset g) := by
  unfold State.continueReset
  split
  · exact s.onlyOffers_resetBanks.trans (.of_journal rfl)
  · exact s.onlyOffers_tablesEmptied g.request

theorem State.onlyOffers_finishReset : s.OnlyOffers s.finishReset := by
  unfold State.finishReset
  split
  · exact .refl s
  · split
    · exact (s.onlyOffers_continueReset _).trans (State.onlyOffers_continueReset _ _)
    · exact s.onlyOffers_continueReset _

theorem State.onlyOffers_takeReset (r : Request) (pause : Bool) : s.OnlyOffers (s.takeReset r pause) := by
  have hfirst : s.OnlyOffers (match s.service.resetting with
      | some g => if g.request = r then s.continueReset g else s.finishReset.beginReset r
      | none => s.beginReset r) := by
    split
    · exact s.onlyOffers_ite (s.onlyOffers_continueReset _) (s.onlyOffers_finishReset.trans (State.onlyOffers_beginReset _ r))
    · exact s.onlyOffers_beginReset r
  exact s.onlyOffers_ite hfirst (hfirst.trans (State.onlyOffers_finishReset _))

/-! ## Requests that leave the journal -/

theorem reqIdentify_journal (params : List Byte) : (reqIdentify params s).state.journal = s.journal := by
  unfold reqIdentify
  split <;> rfl

theorem reqReadStatus_journal (params : List Byte) : (reqReadStatus params s).state.journal = s.journal := by
  unfold reqReadStatus
  split
  · split <;> rfl
  · split
    · split <;> rfl
    · split <;> rfl
    · rfl
  · rfl

theorem reqReadCounters_journal (params : List Byte) : (reqReadCounters params s).state.journal = s.journal := by
  unfold reqReadCounters
  split
  · split
    · split <;> rfl
    · rfl
  · rfl

theorem reqReadElement_journal (params : List Byte) : (reqReadElement params s).state.journal = s.journal := by
  unfold reqReadElement
  split
  · split <;> rfl
  · rfl

theorem reqReadEntry_journal (params : List Byte) : (reqReadEntry params s).state.journal = s.journal := by
  unfold reqReadEntry
  split
  · split
    · split <;> rfl
    · rfl
  · rfl

theorem reqReadJournal_journal (params : List Byte) : (reqReadJournal params s).state.journal = s.journal := by
  unfold reqReadJournal
  split <;> rfl

theorem reqJoin_journal (params : List Byte) : (reqJoin params s).state.journal = s.journal := by
  unfold reqJoin State.joinPort
  split
  · split
    · split <;> rfl
    · rfl
  · rfl

theorem reqLeave_journal (params : List Byte) : (reqLeave params s).state.journal = s.journal := by
  unfold reqLeave State.leavePort
  split
  · split
    · split
      · rfl
      · split <;> rfl
      all_goals rfl
    · rfl
  · rfl

theorem reqLatchCounters_journal (params : List Byte) : (reqLatchCounters params s).state.journal = s.journal := by
  unfold reqLatchCounters
  split
  · split <;> rfl
  · rfl

theorem reqTimeMark_journal (params : List Byte) : (reqTimeMark params s).state.journal = s.journal := by
  unfold reqTimeMark
  split
  · split
    · rfl
    · dsimp only
      split <;> rfl
  · rfl

theorem State.loadWindow_journal (p : PortId) (w : LineId) (given : Window) :
    (s.loadWindow p w given).state.journal = s.journal := by
  unfold State.loadWindow State.closeWindow State.openWindow
  split
  · rfl
  split
  · split <;> rfl
  dsimp only
  split
  · rfl
  split
  · rfl
  split
  · rfl
  split <;> rfl

theorem reqLoadWindow_journal (params : List Byte) : (reqLoadWindow params s).state.journal = s.journal := by
  unfold reqLoadWindow
  split
  · split
    · exact s.loadWindow_journal _ _ _
    · rfl
  · rfl

theorem State.loadElement_journal (i : Nat) (kind : Kind) (g : GivenFields) :
    (s.loadElement i kind g).state.journal = s.journal := by
  unfold State.loadElement
  split
  · rfl
  · dsimp only
    split
    · rfl
    · split <;> rfl

theorem reqLoadElement_journal (params : List Byte) : (reqLoadElement params s).state.journal = s.journal := by
  unfold reqLoadElement
  split
  · split
    · split
      · rfl
      · exact s.loadElement_journal _ _ _
    · rfl
  · split
    · split
      · rfl
      · exact s.loadElement_journal _ _ _
    · rfl
  · rfl

theorem reqRemoveElement_journal (params : List Byte) : (reqRemoveElement params s).state.journal = s.journal := by
  unfold reqRemoveElement State.removeRecord
  split
  · split
    · rfl
    · split
      · rfl
      · split
        · rfl
        · split <;> rfl
  · rfl

theorem reqClearStatistics_journal (params : List Byte) : (reqClearStatistics params s).state.journal = s.journal := by
  unfold reqClearStatistics
  split
  · dsimp only
    split
    · rfl
    · split
      · rfl
      · split <;> rfl
  · rfl

theorem reqLoadHeader_journal (params : List Byte) : (reqLoadHeader params s).state.journal = s.journal := by
  unfold reqLoadHeader State.loadHeader
  split
  · split
    · split
      · rfl
      · dsimp only
        split
        · exact s.setBank_journal _ _
        · exact s.setBank_journal _ _
        · rfl
    · rfl
  · rfl

theorem State.loadEntry_journal (b : BankId) (e : Entry) (changed : Bool) :
    (s.loadEntry b e changed).state.journal = s.journal := by
  have hraised (x : Bank) : ((s.setBank b x).raiseRefs e).journal = s.journal := by
    rw [(State.refsOnly_raiseRefs _ e).only, State.setBank_journal]
  unfold State.loadEntry
  dsimp only
  split
  · rfl
  split
  · rfl
  split
  · rfl
  split
  · rfl
  split
  · rfl
  split
  · rfl
  exact hraised _

theorem reqLoadEntry_journal (params : List Byte) : (reqLoadEntry params s).state.journal = s.journal := by
  unfold reqLoadEntry
  split
  · split
    · rfl
    · split
      · rfl
      · split
        · rfl
        · exact s.loadEntry_journal _ _ _
  · rfl

theorem bankRequest_journal {f : BankId → State → Served} (h : ∀ b, (f b s).state.journal = s.journal) (params : List Byte) :
    (bankRequest f params s).state.journal = s.journal := by
  unfold bankRequest
  split
  · split
    · exact h _
    · rfl
  · rfl

theorem State.armBank_journal (b : BankId) : (State.armBank b s).state.journal = s.journal := by
  unfold State.armBank
  dsimp only
  split
  · rfl
  · exact s.setBank_journal b _

theorem State.disarmBank_journal (b : BankId) : (State.disarmBank b s).state.journal = s.journal := by
  unfold State.disarmBank
  dsimp only
  split
  · exact s.setBank_journal b _
  · rfl

theorem State.clearBank_journal (b : BankId) : (State.clearBank b s).state.journal = s.journal := by
  unfold State.clearBank
  split
  · rfl
  · exact s.emptyBank_journal b
  · rfl

/-! ## Requests that offer records -/

theorem State.OnlyOffers.answerTaken {s t : State} (h : s.OnlyOffers t) (changed : Bool) (data : List Byte) :
    s.OnlyOffers (answerTaken t changed data).state := h

theorem State.onlyOffers_reqSetPort (params : List Byte) : s.OnlyOffers (reqSetPort params s).state := by
  unfold reqSetPort State.setPortSettings
  split
  · split
    · dsimp only
      split
      · exact .refl s
      · split
        · exact .refl s
        · refine State.OnlyOffers.answerTaken ?_ _ _
          refine State.OnlyOffers.trans (State.OnlyOffers.trans ?_ (State.onlyOffers_settleLife _ _ .down))
            (State.onlyOffers_settleLife _ _ .up)
          exact .of_journal rfl
    · exact .refl s
  · exact .refl s

theorem State.onlyOffers_reqSetTimebase (params : List Byte) : s.OnlyOffers (reqSetTimebase params s).state := by
  unfold reqSetTimebase
  split
  · exact (s.onlyOffers_setTb _).trans (State.onlyOffers_judgeLimit _)
  · exact .refl s

theorem State.onlyOffers_reqRelock (params : List Byte) : s.OnlyOffers (reqRelock params s).state := by
  unfold reqRelock
  split
  · exact s.onlyOffers_setReport _ _
  · exact .refl s

theorem State.onlyOffers_setCivilOffset (now : Option Int) (a : ScheduleAction) : s.OnlyOffers (s.setCivilOffset now a).state := by
  have hschedule (t : State) : t.OnlyOffers (t.takeSchedule a).1 := by
    cases a with
    | keep => exact .refl t
    | cancel => exact t.onlyOffers_setTb _
    | change day sec offset => exact (t.onlyOffers_setTb _).trans (State.onlyOffers_judgeOffset _)
  have hnow : s.OnlyOffers (match now with
      | some v => s.changeOffset (takeOffset v)
      | none => s) := by
    split
    · exact s.onlyOffers_changeOffset _
    · exact .refl s
  exact State.OnlyOffers.answerTaken (hnow.trans (hschedule _)) _ _

theorem State.onlyOffers_reqSetCivilOffset (params : List Byte) : s.OnlyOffers (reqSetCivilOffset params s).state := by
  have hcancel (now : Option Int) (action : Nat) : s.OnlyOffers (s.cancelForm now action).state := by
    unfold State.cancelForm
    split
    · exact s.onlyOffers_setCivilOffset now _
    all_goals exact .refl s
  have hchange (now : Option Int) (action : Nat) (day : Day) (sec : Nat) (offset : Int) :
      s.OnlyOffers (s.changeForm now action day sec offset).state := by
    unfold State.changeForm
    split
    · split
      · exact .refl s
      · exact s.onlyOffers_setCivilOffset now _
    all_goals exact .refl s
  unfold reqSetCivilOffset
  split
  · exact s.onlyOffers_setCivilOffset _ _
  · exact hcancel _ _
  · exact s.onlyOffers_setCivilOffset _ _
  · exact hcancel _ _
  · exact hchange _ _ _ _ _
  · exact hchange _ _ _ _ _
  · exact .refl s

theorem State.onlyOffers_bankRequest {f : BankId → State → Served} (h : ∀ b, s.OnlyOffers (f b s).state) (params : List Byte) :
    s.OnlyOffers (bankRequest f params s).state := by
  unfold bankRequest
  split
  · split
    · exact h _
    · exact .refl s
  · exact .refl s

theorem State.onlyOffers_abandonBank (b : BankId) : s.OnlyOffers (State.abandonBank b s).state := by
  unfold State.abandonBank
  dsimp only
  split
  · exact ((s.onlyOffers_setOpenList _).trans (State.onlyOffers_report _ _)).trans (State.onlyOffers_emptyBank _ b)
  · exact .refl s

theorem State.onlyOffers_reqCancelEntry (params : List Byte) : s.OnlyOffers (reqCancelEntry params s).state := by
  unfold reqCancelEntry State.cancelEntry
  split
  · split
    · split
      · exact .refl s
      · split
        · exact .refl s
        · exact s.onlyOffers_closeOwn _ _
    · exact .refl s
  · exact .refl s

theorem State.onlyOffers_reqSetLine (params : List Byte) : s.OnlyOffers (reqSetLine params s).state := by
  unfold reqSetLine State.setLineSettings
  split
  · split
    · dsimp only
      split
      · exact .refl s
      · exact s.onlyOffers_applyLine _ _
    · exact .refl s
  · exact .refl s

theorem State.onlyOffers_reqSetPosition (params : List Byte) : s.OnlyOffers (reqSetPosition params s).state := by
  unfold reqSetPosition State.setPosition
  split
  · split
    · dsimp only
      split
      · exact .refl s
      · split
        · exact .refl s
        · exact s.onlyOffers_applyLine _ _
    · exact .refl s
  · exact .refl s

theorem State.onlyOffers_lineRequest (f : Line → State → LineStep) (params : List Byte) :
    s.OnlyOffers (lineRequest f params s).state := by
  unfold lineRequest
  split
  · split
    · exact .refl s
    · split
      · exact .refl s
      · exact s.onlyOffers_applyLine _ _
  · exact .refl s

/-! ## Requests on the journal (R153, R162, R163) -/

theorem Journal.keeps_setClasses (j : Journal) (t : ClassTable) : j.Keeps { j with classes := t } := ⟨id, id⟩

theorem reqSetClass_keepsJournal (params : List Byte) : s.journal.Keeps (reqSetClass params s).state.journal := by
  unfold reqSetClass
  split
  · split
    · exact s.journal.keeps_setClasses _
    · exact .refl _
  · exact .refl _

theorem reqSetAlert_keepsJournal (params : List Byte) : s.journal.Keeps (reqSetAlert params s).state.journal := by
  unfold reqSetAlert
  split
  · rename_i reserve
    have hrange : 1 ≤ (takeSetting 1 7 1 reserve.toNat).value ∧ (takeSetting 1 7 1 reserve.toNat).value ≤ 7 := by
      rw [takeSetting_unit 1 7 _ (by decide)]
      dsimp only
      omega
    dsimp only
    split
    · exact .refl _
    · exact s.journal.keeps_withAlert hrange ‹_›
  · exact .refl _

theorem reqRelease_keepsJournal (params : List Byte) : s.journal.Keeps (reqRelease params s).state.journal := by
  unfold reqRelease
  split
  · exact s.journal.keeps_release _ _
  · exact .refl _

/-! ## Every command -/

/-- A request whose function keeps the laws of the journal, behind what is left of a RESET TABLES (R171). -/
theorem State.keepsJournal_serve (code : Byte) (r : Request) {f : List Byte → State → Served}
    (hf : ∀ params (u : State), u.journal.Keeps (f params u).state.journal) : s.journal.Keeps (s.serve code r f).journal := by
  unfold State.serve
  split
  · exact .refl _
  · have hfinished : s.journal.Keeps (s.finishReset.taking code r).journal := s.onlyOffers_finishReset.keeps
    exact hfinished.trans (hf _ _)

/-- A request that does no more than to offer records. -/
theorem State.keepsJournal_serve_offers (code : Byte) (r : Request) {f : List Byte → State → Served}
    (hf : ∀ params (u : State), u.OnlyOffers (f params u).state) : s.journal.Keeps (s.serve code r f).journal :=
  s.keepsJournal_serve code r fun params u => (hf params u).keeps

/-- A request that leaves the journal. -/
theorem State.keepsJournal_serve_same (code : Byte) (r : Request) {f : List Byte → State → Served}
    (hf : ∀ params (u : State), (f params u).state.journal = u.journal) : s.journal.Keeps (s.serve code r f).journal :=
  s.keepsJournal_serve_offers code r fun params u => .of_journal (hf params u)

/-- An event outside INITIALISING, where nothing happens (R7). -/
theorem State.keepsJournal_event {t : State} (h : s.OnlyOffers t) : s.journal.Keeps (if s.initialising then s else t).journal :=
  (s.onlyOffers_ite (.refl s) h).keeps

/-- An event that waits for its instant, and then acts where it is due. -/
theorem State.onlyOffers_awaited (instant : Option Nat) {due : Prop} [Decidable due] {t : State}
    (h : (s.await instant).OnlyOffers t) : s.OnlyOffers (if due then t else s.await instant) :=
  s.onlyOffers_ite ((s.onlyOffers_await instant).trans h) (s.onlyOffers_await instant)

theorem Journal.keeps_afterReset (j : Journal) : j.Keeps Journal.afterReset := by
  obtain ⟨-, -, hconsecutive, hreserve, -⟩ := resetMeetsTheLaws
  exact ⟨fun _ => hconsecutive, fun _ => hreserve⟩

/-- Every command answers a next state in which the laws of the journal are kept. -/
theorem exec_keepsJournal (i : Instr) : ∃ t, exec i s = .next t ∧ s.journal.Keeps t.journal := by
  have hcondition (p : PortId) (d : Direction) (c : LinkCondition) (b : Bool) := s.onlyOffers_setCondition p d c b
  have hport (p : PortId) (x : Port) := s.onlyOffers_setPort p x
  cases i with
  | deviceReset cause straps => exact ⟨_, rfl, s.journal.keeps_afterReset⟩
  | endOfInitialising =>
    have hended (u : State) : u.OnlyOffers u.endInitialising :=
      State.OnlyOffers.trans (.of_journal rfl) (State.onlyOffers_offer { u with initEnd := none, ports := _ } _)
    exact ⟨_, rfl, (s.onlyOffers_ite ((s.onlyOffers_await _).trans (hended _)) (.refl s)).keeps⟩
  | frameReceived p d part => exact ⟨_, rfl, s.keepsJournal_event (s.onlyOffers_receive p d part)⟩
  | lossOfSignalRaised p d => exact ⟨_, rfl, s.keepsJournal_event (s.onlyOffers_ite (.refl s) (hcondition p d _ _))⟩
  | lossOfSignalCleared p d => exact ⟨_, rfl, s.keepsJournal_event (s.onlyOffers_ite (hcondition p d _ _) (.refl s))⟩
  | lifeTimeout p d => exact ⟨_, rfl, s.keepsJournal_event (s.onlyOffers_awaited _ (State.onlyOffers_raiseSilent _ p d))⟩
  | joiningQuietRunComplete p => exact ⟨_, rfl, s.keepsJournal_event (s.onlyOffers_awaited _ (State.onlyOffers_setPort _ p _))⟩
  | leavingQuietRunComplete p => exact ⟨_, rfl, s.keepsJournal_event (s.onlyOffers_awaited _ (State.onlyOffers_setPort _ p _))⟩
  | relayTransferEnd p => exact ⟨_, rfl, s.keepsJournal_event (s.onlyOffers_awaited _ (State.onlyOffers_setPort _ p _))⟩
  | insertionBegin p => exact ⟨_, rfl, s.keepsJournal_event (s.onlyOffers_ite (hport p _) (.refl s))⟩
  | insertionEnd p marks => exact ⟨_, rfl, s.keepsJournal_event (s.onlyOffers_ite (hport p _) (.refl s))⟩
  | backlogDrained p => exact ⟨_, rfl, s.keepsJournal_event (s.onlyOffers_ite (hport p _) (.refl s))⟩
  | referencePulse => exact ⟨_, rfl, s.keepsJournal_event s.onlyOffers_pulse⟩
  | missNote => exact ⟨_, rfl, s.keepsJournal_event (s.onlyOffers_awaited _ (State.onlyOffers_missNote _))⟩
  | holdoverLimitReached => exact ⟨_, rfl, s.keepsJournal_event (s.onlyOffers_awaited _ (State.onlyOffers_setReport _ _ _))⟩
  | slewSpent => exact ⟨_, rfl, s.keepsJournal_event (s.onlyOffers_await _)⟩
  | secondBoundary order => exact ⟨_, rfl, s.keepsJournal_event (s.onlyOffers_toBoundary order)⟩
  | deadlineExpiry i => exact ⟨_, rfl, s.keepsJournal_event (s.onlyOffers_awaited _ (State.onlyOffers_expireRecord _ i))⟩
  | impulseStart l => exact ⟨_, rfl, s.keepsJournal_event (s.onlyOffers_awaited _ (.of_journal rfl))⟩
  | probeStart l => exact ⟨_, rfl, s.keepsJournal_event (s.onlyOffers_awaited _ (.of_journal rfl))⟩
  | impulseSample l sense => exact ⟨_, rfl, s.keepsJournal_event (s.onlyOffers_awaited _ (State.onlyOffers_sampleLine _ l sense))⟩
  | impulseEnd l => exact ⟨_, rfl, s.keepsJournal_event (s.onlyOffers_awaited _ (State.onlyOffers_finishLine _ l))⟩
  | unknownRequestCode code r =>
    refine ⟨_, rfl, ?_⟩
    split
    · exact .refl _
    · exact s.keepsJournal_serve_same code r fun _ _ => rfl
  | resetTables r =>
    refine ⟨_, rfl, ?_⟩
    split
    · exact .refl _
    · split
      · exact (State.onlyOffers_takeReset { s with choices := s.choices + 1 } r _).keeps
      · exact s.keepsJournal_serve_same 70 r fun _ _ => rfl
  | setClass r => exact ⟨_, rfl, s.keepsJournal_serve 60 r fun params u => reqSetClass_keepsJournal u params⟩
  | setAlert r => exact ⟨_, rfl, s.keepsJournal_serve 61 r fun params u => reqSetAlert_keepsJournal u params⟩
  | release r => exact ⟨_, rfl, s.keepsJournal_serve 63 r fun params u => reqRelease_keepsJournal u params⟩
  | setPort r => exact ⟨_, rfl, s.keepsJournal_serve_offers 10 r fun params u => u.onlyOffers_reqSetPort params⟩
  | setTimebase r => exact ⟨_, rfl, s.keepsJournal_serve_offers 31 r fun params u => u.onlyOffers_reqSetTimebase params⟩
  | relock r => exact ⟨_, rfl, s.keepsJournal_serve_offers 32 r fun params u => u.onlyOffers_reqRelock params⟩
  | setCivilOffset r => exact ⟨_, rfl, s.keepsJournal_serve_offers 33 r fun params u => u.onlyOffers_reqSetCivilOffset params⟩
  | abandon r =>
    exact ⟨_, rfl, s.keepsJournal_serve_offers 44 r fun params u => u.onlyOffers_bankRequest u.onlyOffers_abandonBank params⟩
  | cancelEntry r => exact ⟨_, rfl, s.keepsJournal_serve_offers 46 r fun params u => u.onlyOffers_reqCancelEntry params⟩
  | setLine r => exact ⟨_, rfl, s.keepsJournal_serve_offers 50 r fun params u => u.onlyOffers_reqSetLine params⟩
  | setPosition r => exact ⟨_, rfl, s.keepsJournal_serve_offers 51 r fun params u => u.onlyOffers_reqSetPosition params⟩
  | halt r => exact ⟨_, rfl, s.keepsJournal_serve_offers 52 r fun params u => u.onlyOffers_lineRequest _ params⟩
  | run r => exact ⟨_, rfl, s.keepsJournal_serve_offers 53 r fun params u => u.onlyOffers_lineRequest _ params⟩
  | arm r => exact ⟨_, rfl, s.keepsJournal_serve_same 42 r fun params u => bankRequest_journal u u.armBank_journal params⟩
  | disarm r => exact ⟨_, rfl, s.keepsJournal_serve_same 43 r fun params u => bankRequest_journal u u.disarmBank_journal params⟩
  | clearBank r => exact ⟨_, rfl, s.keepsJournal_serve_same 45 r fun params u => bankRequest_journal u u.clearBank_journal params⟩
  | identify r => exact ⟨_, rfl, s.keepsJournal_serve_same 1 r fun params u => reqIdentify_journal u params⟩
  | readStatus r => exact ⟨_, rfl, s.keepsJournal_serve_same 2 r fun params u => reqReadStatus_journal u params⟩
  | join r => exact ⟨_, rfl, s.keepsJournal_serve_same 11 r fun params u => reqJoin_journal u params⟩
  | leave r => exact ⟨_, rfl, s.keepsJournal_serve_same 12 r fun params u => reqLeave_journal u params⟩
  | readCounters r => exact ⟨_, rfl, s.keepsJournal_serve_same 13 r fun params u => reqReadCounters_journal u params⟩
  | latchCounters r => exact ⟨_, rfl, s.keepsJournal_serve_same 14 r fun params u => reqLatchCounters_journal u params⟩
  | loadWindow r => exact ⟨_, rfl, s.keepsJournal_serve_same 20 r fun params u => reqLoadWindow_journal u params⟩
  | loadElement r => exact ⟨_, rfl, s.keepsJournal_serve_same 21 r fun params u => reqLoadElement_journal u params⟩
  | removeElement r => exact ⟨_, rfl, s.keepsJournal_serve_same 22 r fun params u => reqRemoveElement_journal u params⟩
  | readElement r => exact ⟨_, rfl, s.keepsJournal_serve_same 23 r fun params u => reqReadElement_journal u params⟩
  | clearStatistics r => exact ⟨_, rfl, s.keepsJournal_serve_same 24 r fun params u => reqClearStatistics_journal u params⟩
  | timeMark r => exact ⟨_, rfl, s.keepsJournal_serve_same 30 r fun params u => reqTimeMark_journal u params⟩
  | loadHeader r => exact ⟨_, rfl, s.keepsJournal_serve_same 40 r fun params u => reqLoadHeader_journal u params⟩
  | loadEntry r => exact ⟨_, rfl, s.keepsJournal_serve_same 41 r fun params u => reqLoadEntry_journal u params⟩
  | readEntry r => exact ⟨_, rfl, s.keepsJournal_serve_same 47 r fun params u => reqReadEntry_journal u params⟩
  | readJournal r => exact ⟨_, rfl, s.keepsJournal_serve_same 62 r fun params u => reqReadJournal_journal u params⟩

/-! ## A step -/

theorem State.queueEvent_journal (i : Instr) : (s.queueEvent i).journal = s.journal := by
  unfold State.queueEvent State.boundaryOrder
  split
  · split <;> rfl
  · rfl

theorem State.choose_journal (l : List Instr) : (s.choose l).journal = s.journal := by
  unfold State.choose
  split
  · rfl
  · exact s.queueEvent_journal _
  · exact State.queueEvent_journal _ _

/-- A part left to itself writes no record: it queues what is due (log entry 2). -/
theorem State.idle_journal : s.idle.journal = s.journal := by
  have htake : (if s.initialising then s else { s with service := s.service.take }).journal = s.journal := by split <;> rfl
  unfold State.idle
  dsimp only
  split
  · exact htake
  · exact (State.choose_journal _ _).trans htake

theorem step_keepsJournal {s t : State} (h : step s = .next t) : s.journal.Keeps t.journal := by
  unfold step at h
  split at h
  · cases h
    rw [s.idle_journal]
    exact .refl _
  · rename_i i rest _
    obtain ⟨u, hu, hkeeps⟩ := exec_keepsJournal { s with pending := rest } i
    rw [hu] at h
    cases h
    exact hkeeps

/-- Settles O56: a step offers the journal records, one by one, or releases some, or changes its settings, or resets the part, and each
of these keeps both laws. -/
theorem journalLawsAreKept : Obligations.JournalLawsAreKept :=
  ⟨fun _ _ hs h => (step_keepsJournal h).consecutive hs, fun _ _ hs h => (step_keepsJournal h).withinReserve hs⟩

end Sys2Proof.Machine
end
